-- ==== Sys2Proof/Word.lean ====
section
/-!
DEFINITION. The word types of the model: bytes, 32-bit registers and the 128-bit Weline instruction word.
-/

namespace Sys2Proof

/-- A byte of a store, of a chunk or of a host structure. -/
abbrev Byte := BitVec 8

/-- A 32-bit register of BAR0 or a scalar register of a sequencer (R73, R342). -/
abbrev Word := BitVec 32

/-- A Weline instruction word (R101). -/
abbrev IWord := BitVec 128

end Sys2Proof
end

