-- ==== Sys2Proof/Syntax.lean ====
section
/-!
DEFINITION. The commands the block takes: one constructor of Instr for each row of spec/opcode_table.json, in the
table's order, with the operands the row's rule gives it. What lies outside spec/ (decoded samples, regulator readings,
signature bytes, read-back levels of a fuse) comes as an operand of the event that brings it.
-/

namespace Sys2Proof

/-- What the decoder (or encoder) has parsed of a picture when it starts (R262 to R270, R274, R283, R286, R297). -/
structure PicInfo where
  /-- stream the picture belongs to -/
  stream : Nat
  /-- the picture is an encode (R264) -/
  encode : Bool
  /-- width and height in luma samples -/
  width : Nat
  height : Nat
  /-- sample bit depth, 8 or 10 -/
  depth : Nat
  /-- chroma format and tools are ones Table Decode support names -/
  supported : Bool
  /-- reference slots the active parameter set demands -/
  dpb : Nat
  /-- the picture is used for reference -/
  isRef : Bool
  /-- the picture is a refresh point of R286 -/
  refresh : Bool
  /-- the refresh point carries an IDR, CRA or BLA; false for a recovery-point picture -/
  clean : Bool
  /-- an associated RASL picture (R286) -/
  rasl : Bool
  /-- the picture refers to a picture that is not complete (R270) -/
  refsOpen : Bool
  /-- a slice header could be parsed, so the picture is numbered (R283) -/
  parsed : Bool
  /-- output order: the number of this stream's pictures, still to be numbered, that precede it (R14) -/
  order : Nat
  /-- length of the coded slice data in bits (R267) -/
  bits : Nat
  /-- VUI matrix_coefficients, if present (R297) -/
  vuiMatrix : Option Nat
  /-- video_full_range_flag (R297) -/
  fullRange : Bool
  /-- rows of one coding-block row: 16 for H.264, the CTB height for H.265 (R273) -/
  groupRows : Nat
  /-- coding blocks of the picture (R281) -/
  blocks : Nat
  /-- place, among the stream's chunks, of the one that holds the first byte of its first slice (R274) -/
  chunk : Nat
  /-- chunks of which the decoder has consumed every byte when the picture ends (R279) -/
  used : Nat
  /-- subcode of an error met in its headers, 0 for none (R278) -/
  err : Nat
  /-- the stream's pictures, and its reference pictures, whose decode has not begun (R285) -/
  lag : Nat
  refLag : Nat
  /-- pictures, by number, that leave the DPB (R277) -/
  leaves : List Nat
  /-- Mpixel/s of the stream as the scheduler counts it (R268) -/
  mps : Nat
  /-- parameter sets in force that its own chunk does not hold (R291) -/
  params : List Byte
  deriving DecidableEq, Repr

/-- One flit as the receiver sees it: its 36 symbols (R448). -/
abbrev Flit := List Byte

/-- The commands of the block. -/
inductive Instr where
  -- Weline instructions: the sequencer of a core issues the instruction at its pc
  | move (core : Nat) | move2d (core : Nat) | gather (core : Nat)
  | ldw (core : Nat) | ldw4 (core : Nat) | matmul (core : Nat) | ewise (core : Nat) | conv (core : Nat)
  | vop (core : Nat) | vlut (core : Nat) | softmax (core : Nat) | norm (core : Nat) | pool (core : Nat)
  | resize (core : Nat) | dwconv (core : Nat)
  | attqk (core : Nat) | attpv (core : Nat) | kvapp (core : Nat) | kvexp (core : Nat) | rowstat (core : Nat)
  | alloc (core : Nat) | free (core : Nat) | refinc (core : Nat) | refdec (core : Nat) | claim (core : Nat)
  | loop (core : Nat) | br (core : Nat) | sets (core : Nat) | salu (core : Nat)
  | wait (core : Nat) | signal (core : Nat) | emit (core : Nat) | nop (core : Nat) | kend (core : Nat)
  | stool (core : Nat)
  -- progress of issued work
  | kendRetire (core : Nat)
  | instructionComplete (core id : Nat)
  | instructionFault (core id : Nat)
  | poisonRepairComplete
  | tokenTimeout (core : Nat)
  | remoteTokenArrive (core : Nat)
  | tagCheck (core ahead : Nat)
  | tagNotify (core : Nat)
  | poolPop (pool count : Nat)
  | bufferRefOp (inc : Bool) (handle : Nat)
  | poolRebuildComplete (pool : Nat)
  | bpmPoolCtlWrite (pool : Nat) (value : Word)
  | stoolRequestComplete (die : Nat)
  -- scheduling
  | frameReady (stream : Nat)
  | kernelDispatch (stream : Nat) (cores : List Nat)
  | codeFillComplete (core : Nat)
  | stepAdmission (stream : Nat)
  | readoutAdmission (stream : Nat)
  | deadlineExpiry (stream frame : Nat)
  | governorTick (rails : List (Option (Nat × Nat)))
  | dvfsStepComplete (stack : Nat) (inRange : Bool)
  | schModeWrite (value : Word)
  -- codec
  | pictureStart (engine : Nat) (pic : PicInfo)
  | lineRingGroupWrite (engine : Nat) (rows : List (List Nat)) (concealed : List Nat) (subcode : Nat)
  | pictureComplete (engine cycles lag refLag : Nat) (coded : List Byte)
  | hardCapAbort (engine : Nat)
  | jpegJobComplete (pic : PicInfo) (rows : List (List Nat)) (concealed subcode : Nat) (coded : List Byte)
  | codCtlWrite (engine : Nat) (value : Word)
  -- shaper and sensors
  | shaperPictureStart (pipe source : Nat)
  | shaperRowGroup (pipe source : Nat)
  | shaperFrameComplete (pipe source : Nat)
  | frameStart (port vc : Nat)
  | sensorLine (port vc dt index : Nat) (samples : List Nat) (crcOk hdrFixed : Bool)
  | frameEnd (port vc : Nat) (height : Nat)
  | inBandInterrupt (port : Nat)
  | snsCtlWrite (port : Nat) (value : Word)
  | headHour (port : Nat) (readBack1 readBack2 : Bool)
  | historyExpiry (stream : Nat)
  -- queues and rings
  | ringRecordWrite (ring : Nat)
  | sqTailDoorbell (q : Nat) (value : Word)
  | cqHeadDoorbell (q : Nat) (value : Word)
  | ringReadDoorbell (r : Nat) (value : Word)
  | queAdminCfgWrite (value : Word)
  -- commands fetched from submission queue q: the 64 bytes of the entry, and the bytes of the host buffer it names
  | createSq (q : Nat) (e : List Byte)
  | deleteSq (q : Nat) (e : List Byte)
  | createCq (q : Nat) (e : List Byte)
  | deleteCq (q : Nat) (e : List Byte)
  | createRing (q : Nat) (e : List Byte)
  | deleteRing (q : Nat) (e : List Byte)
  | loadImage (q : Nat) (e : List Byte)
  | unload (q : Nat) (e : List Byte)
  | setContext (q : Nat) (e : List Byte)
  | seqSet (q : Nat) (e : List Byte) (data : List Byte)
  | createStream (q : Nat) (e : List Byte)
  | configStream (q : Nat) (e : List Byte) (data : List Byte)
  | destroyStream (q : Nat) (e : List Byte)
  | streamDestroyComplete (stream : Nat)
  | feed (q : Nat) (e : List Byte) (data : List Byte)
  | attachSensor (q : Nat) (e : List Byte) (data : List Byte) (store : List Byte)
  | detachSensor (q : Nat) (e : List Byte)
  | sensorXfer (q : Nat) (e : List Byte) (data : List Byte) (transferred : Nat)
  | revisit (q : Nat) (e : List Byte)
  | readout (q : Nat) (e : List Byte)
  | clipReq (q : Nat) (e : List Byte)
  | release (q : Nat) (e : List Byte)
  | encode (q : Nat) (e : List Byte)
  | setMode (q : Nat) (e : List Byte)
  | groupJoin (q : Nat) (e : List Byte) (data : List Byte)
  | groupLeave (q : Nat) (e : List Byte)
  | attest (q : Nat) (e : List Byte)
  | attestSignComplete (fuseReads : List Bool)
  | readLog (q : Nat) (e : List Byte)
  | setEvents (q : Nat) (e : List Byte)
  | forceFree (q : Nat) (e : List Byte)
  -- the PCIe host interface
  | apertureRead (offset len : Nat)
  | apertureWrite (offset : Nat) (data : List Byte) (ep : Bool)
  | hifApertureBaseHiWrite (value : Word)
  | configRequest (write : Bool) (offset : Nat) (value : Word)
  | msixUnmask (vector : Option Nat)
  | powerstateD3hot
  | powerstateD0
  | nightMemoryRequest
  | hotReset
  | perstNAssert
  | perstNDeassert
  | dlDown
  | dlUp (speed width : Nat)
  | linkHoldExpiry
  -- DRAM and the stores
  | dramRequest (addr : Nat) (write : Option (List (Option Byte)))
  | migrationLineCopy (ch : Nat)
  | dramRefreshCommand (ch rank : Nat)
  | dramTempSample (temps : List Int)
  | dramScrubRead (badReadBack : List Nat)
  | cabinetScrubRead (store : Nat)
  | correctionWriteback
  -- hangs and resets
  | hangWatchSample (unit : Nat)
  | unitResetComplete (unit : Nat)
  | unitResetTimeout (unit : Nat)
  | computeResetComplete
  | computeResetTimeout
  | ccWatchdogExpiry (cc : Nat)
  | restartComplete (failedChannels : List Nat) (fieldOk : Bool)
  | logSecondEnd
  -- Goldom links and groups
  | flitReceive (port : Nat) (flit : Flit)
  | mirrorChunk (port stream epoch stamp : Nat) (data : List Byte)
  | mirrorConfig (port stream epoch : Nat) (data : List Byte)
  | commit (port stream : Nat)
  | stepDelta (port stream : Nat) (data : List Byte)
  | ack (port stream : Nat)
  | notice (port code device stream : Nat)
  | ident (port id : Nat) (serial : Nat)
  | linkAck (port seq : Nat)
  | linkNak (port seq : Nat)
  | credit (port vc credits : Nat)
  | retrain (port : Nat) (trained : Bool)
  | portRetrainRetry (port : Nat) (trained : Bool)
  | mirrorAckTimeout (stream : Nat)
  | fabPortCtlWrite (port : Nat) (value : Word)
  -- power, clocks and time
  | cprPwrCtlWrite (value : Word)
  | wakeN
  | gpioWake (pin : Nat)
  | wakeTimer
  | dawnEntryComplete (failedColumns : List (List Nat)) (stores : List (List Byte)) (flashOk : Bool)
  | duskFrameTimeout
  | duskComplete
  | autoNightIdle
  | cprWakeTimeHiWrite (value : Word)
  | cprTimeLoRead
  | pllLock (pll : Nat)
  | cprClkSelWrite (value : Word)
  | clockSwitchComplete (domain : Nat)
  | cprClkEscWrite (value : Word)
  | clockEscapeAuto
  | fmeterStart (value : Word)
  | fmeterDone (count : Nat)
  -- pins and rails
  | poresetNAssert
  | poresetNDeassert (gpio0 gpio1 : Bool)
  | powerGroupRegulated
  | powerGroupTimeout
  | powerSequenceRetry
  | thermalWarning (sensor : Nat) (temp : Int)
  | thermalWarningEnd (sensor : Nat) (temp : Int)
  | thermalTrip
  -- the security engine
  | secRecoveryGo
  | programKeyHash
  | blowEnforcementFuse
  | otpCommandComplete
  | secSigIndexLoRead
  -- registers and losses
  | registerWrite (offset : Nat) (value : Word)
  | powerRemoval
  | pllOutputLoss (pll : Nat)
  | firmwareException (cc : Nat)
  | completionTimeout
  | referenceReady
  deriving DecidableEq, Repr

end Sys2Proof
end

