-- ==== Sys2Proof/Decode.lean ====
section
/-!
DEFINITION. The table's words: spec/opcode_table.json gives no row any bits, so no word spells a command. The Weline
instruction words of R101 are read from a core's instruction buffer by the meanings themselves (Machine/Operands.lean).
-/

namespace Sys2Proof

/-- The command that a word spells by the table's bits: none. -/
def decodeTableWord (_nbits _w : Nat) : Option Instr := none

end Sys2Proof
end

