-- ==== Sys2Proof/Config.lean ====
section
/-!
DEFINITION. What an implementation fixes and what the spec leaves open: free values without a body.
-/

namespace Sys2Proof.Config

/-- A fresh free value for each value of the counter Dev.freeCtr (log entry 4). -/
opaque freeValue : Nat → Nat

/-- exp in FP32, bits to bits: R45 bounds the error and gives no value (log entry 5). -/
opaque exp32 : Nat → Nat

/-- sqrt in FP32 as the vector unit evaluates it (R45, log entry 5). -/
opaque sqrt32 : Nat → Nat

/-- Scaler coefficient: set, numerator and denominator of the ratio, vertical, phase, tap (R298, log entry 6). -/
opaque scalerCoeff : Nat → Nat → Nat → Bool → Nat → Nat → Int

/-- XMSS verification under RFC 8391: key, signature, message (log entry 7). -/
opaque xmssVerify : List Byte → List Byte → List Byte → Bool

/-- The XMSSMT signature of the identity key at an index over a message (R502, R505, log entry 7). -/
opaque xmssmtSign : Nat → List Byte → List Byte

/-- The factory voltage in mV of a stack at an operating point (R476, log entry 3). -/
opaque factoryMv : Nat → Nat → Nat

/-- A byte read from a rank that is mapped out: R410 says only that it is poisoned (log entry 9). -/
opaque lostByte : Nat → Byte

/-- How detail A of a REPLACE record gives a channel and a rank: R412 fixes no packing (log entry 10). -/
opaque packChRank : Nat → Nat → Nat

/-- The mean and the mean square of a row in FP32: R54 and R144 fix no order of the sums (log entry 5). -/
opaque fpMean : List Nat → Nat
opaque fpMeanSq : List Nat → Nat

/-- MIN and MAX of two zeros of opposite sign: whether the result is −0 (R43 does not say; log entry 12). -/
opaque minMaxZero : Bool → Bool

/-- An integer result for which the spec states no value: 0 CVTI of a NaN product, 1 SOFTMAX to UINT8 of a NaN, 2 NORM to an
integer of a NaN, 3 max pooling of a window with no position inside (log entry 13). -/
opaque openInt : Nat → Nat → Int

/-- Whether a source coordinate of RESIZE that 16 fractional bits do not hold is rounded up (R146; log entry 14). -/
opaque resizeUp : Nat → Nat → Bool

/-- The participants the scheduler plans for a claiming kernel of a context, less 1 and modulo 8 (R209, R325; log entry 16). -/
opaque planCount : Nat → Nat → Nat

/-- num / den with 12 fractional bits, where it is not exact (R297 gives the pipe's fixed point, not its intermediate rounding; log
entry 21). -/
opaque fix12 : Int → Nat → Int

/-- A sum of a scaler pass divided by 256, where it is not exact (R298; log entry 21). -/
opaque scaleRound : Int → Int

/-- A RAW sample of more than 8 bits as the demosaic takes it: bits and value (R296; log entry 21). -/
opaque rawTo8 : Nat → Nat → Nat

/-- The demosaic's mean of neighbours where it is not exact or a neighbour lies outside the picture (R296; log entry 21). -/
opaque demosaic : List Nat → Nat

/-- Y of a picture that reaches the pipe as RGB (R297 skips the conversion; log entry 21). -/
opaque rgbToY : Nat → Nat → Nat → Nat

/-- The step of the time base in 2^−24 units of 10 ns, per reference cycle for a rate trim in 1/16 ppm, and per night-clock cycle for N,
where R487 and R489 give no multiple of 2^−24 (log entry 24). -/
opaque rateStep : Int → Nat
opaque nightStep : Nat → Int → Nat

/-- The factory rate trim in 1/16 ppm (R490; log entry 3). -/
opaque factoryRate : Int

end Sys2Proof.Config
end

