-- ==== Sys2Proof/Machine/Regs.lean ====
section
/-!
DEFINITION. The registers of BAR0, written from the register tables of the spec's chapters (R4 to R7, R53, R100, R177,
R227, R260, R261, R293, R321, R342, R366, R383, R413, R446, R465, R491, R510): offsets, fields, access codes and reset
values. R.NAME gives a register's BAR0 offset; F.NAME_field gives a field's lowest bit and width.
-/

namespace Sys2Proof.Machine

/-- A field of a register: lowest bit and width. -/
structure Fld where
  lsb : Nat
  w : Nat
  deriving DecidableEq, Repr

/-- A register family as the tables give it: offset of its first register, up to two index strides with their counts, and
the masks of its access codes (R4). -/
structure RegDef where
  base : Nat
  dims : List (Nat × Nat)
  rw : Nat
  w1c : Nat
  w1s : Nat
  rc : Nat
  deriving DecidableEq, Repr

namespace R
/-- MC_WIDTH -/
abbrev MC_WIDTH (i : Nat) : Nat := 0x100010 + i * 0x10000
/-- MC_ARITH_STATUS -/
abbrev MC_ARITH_STATUS (i : Nat) : Nat := 0x100020 + i * 0x10000
/-- MC_BYPASS_MAP -/
abbrev MC_BYPASS_MAP (i : Nat) (j : Nat) : Nat := 0x100040 + i * 0x10000 + j * 0x4
/-- MC_USER_BYPASS -/
abbrev MC_USER_BYPASS (i : Nat) (j : Nat) : Nat := 0x100060 + i * 0x10000 + j * 0x4
/-- MC_SEQ_STATUS -/
abbrev MC_SEQ_STATUS (i : Nat) : Nat := 0x100100 + i * 0x10000
/-- MC_SEQ_RETIRED -/
abbrev MC_SEQ_RETIRED (i : Nat) : Nat := 0x100104 + i * 0x10000
/-- MC_TOKEN_TIMEOUT -/
abbrev MC_TOKEN_TIMEOUT (i : Nat) : Nat := 0x100108 + i * 0x10000
/-- STL_STATUS -/
abbrev STL_STATUS (i : Nat) : Nat := 0x180000 + i * 0x1000
/-- STL_DONE -/
abbrev STL_DONE (i : Nat) : Nat := 0x180004 + i * 0x1000
/-- CAB_WC_STATUS -/
abbrev CAB_WC_STATUS (i : Nat) : Nat := 0x200800 + i * 0x1000
/-- CAB_WC_REISSUED -/
abbrev CAB_WC_REISSUED (i : Nat) : Nat := 0x200804 + i * 0x1000
/-- BPM_POOL_BASE_LO -/
abbrev BPM_POOL_BASE_LO (i : Nat) : Nat := 0xc0000 + i * 0x20
/-- BPM_POOL_BASE_HI -/
abbrev BPM_POOL_BASE_HI (i : Nat) : Nat := 0xc0004 + i * 0x20
/-- BPM_POOL_CFG -/
abbrev BPM_POOL_CFG (i : Nat) : Nat := 0xc0008 + i * 0x20
/-- BPM_POOL_COUNT -/
abbrev BPM_POOL_COUNT (i : Nat) : Nat := 0xc000c + i * 0x20
/-- BPM_POOL_LOW -/
abbrev BPM_POOL_LOW (i : Nat) : Nat := 0xc0010 + i * 0x20
/-- BPM_POOL_CTL -/
abbrev BPM_POOL_CTL (i : Nat) : Nat := 0xc0014 + i * 0x20
/-- BPM_POOL_STAT -/
abbrev BPM_POOL_STAT (i : Nat) : Nat := 0xc0018 + i * 0x20
/-- BPM_POOL_FREE -/
abbrev BPM_POOL_FREE (i : Nat) : Nat := 0xc001c + i * 0x20
/-- CAB_ECC_COUNT -/
abbrev CAB_ECC_COUNT (i : Nat) : Nat := 0x200810 + i * 0x1000
/-- SST_ECC_COUNT -/
abbrev SST_ECC_COUNT : Nat := 0x202810
/-- COD_STATUS -/
abbrev COD_STATUS (i : Nat) : Nat := 0x80000 + i * 0x2000
/-- COD_ROWS -/
abbrev COD_ROWS (i : Nat) : Nat := 0x80004 + i * 0x2000
/-- COD_LOAD -/
abbrev COD_LOAD (i : Nat) : Nat := 0x80008 + i * 0x2000
/-- COD_ERRS -/
abbrev COD_ERRS (i : Nat) : Nat := 0x8000c + i * 0x2000
/-- COD_CTL -/
abbrev COD_CTL (i : Nat) : Nat := 0x80010 + i * 0x2000
/-- COD_JPEG_STATUS -/
abbrev COD_JPEG_STATUS : Nat := 0x90000
/-- SHP_STATUS -/
abbrev SHP_STATUS (i : Nat) : Nat := 0xa0000 + i * 0x1000
/-- SHP_ROWS -/
abbrev SHP_ROWS (i : Nat) : Nat := 0xa0004 + i * 0x1000
/-- SHP_LIST -/
abbrev SHP_LIST (i : Nat) : Nat := 0xa8000 + i * 0x4
/-- SNS_CTL -/
abbrev SNS_CTL (i : Nat) : Nat := 0xb0000 + i * 0x1000
/-- SNS_STATUS -/
abbrev SNS_STATUS (i : Nat) : Nat := 0xb0004 + i * 0x1000
/-- SNS_ERRS -/
abbrev SNS_ERRS (i : Nat) : Nat := 0xb0008 + i * 0x1000
/-- SCH_MODE -/
abbrev SCH_MODE : Nat := 0x30000
/-- SCH_GOV_STATUS -/
abbrev SCH_GOV_STATUS : Nat := 0x30004
/-- SCH_DL_EVENTS -/
abbrev SCH_DL_EVENTS : Nat := 0x30008
/-- GLB_ALIVE -/
abbrev GLB_ALIVE : Nat := 0x8
/-- HIF_APERTURE_BASE_LO -/
abbrev HIF_APERTURE_BASE_LO : Nat := 0x60000
/-- HIF_APERTURE_BASE_HI -/
abbrev HIF_APERTURE_BASE_HI : Nat := 0x60004
/-- HIF_APERTURE_SIZE -/
abbrev HIF_APERTURE_SIZE : Nat := 0x60008
/-- HIF_LINK_STATUS -/
abbrev HIF_LINK_STATUS : Nat := 0x60010
/-- HIF_LINK_HOLD -/
abbrev HIF_LINK_HOLD : Nat := 0x60014
/-- HIF_ERR -/
abbrev HIF_ERR : Nat := 0x60018
/-- QUE_ADMIN_SQ_LO -/
abbrev QUE_ADMIN_SQ_LO : Nat := 0x21000
/-- QUE_ADMIN_SQ_HI -/
abbrev QUE_ADMIN_SQ_HI : Nat := 0x21004
/-- QUE_ADMIN_CQ_LO -/
abbrev QUE_ADMIN_CQ_LO : Nat := 0x21008
/-- QUE_ADMIN_CQ_HI -/
abbrev QUE_ADMIN_CQ_HI : Nat := 0x2100c
/-- QUE_ADMIN_CFG -/
abbrev QUE_ADMIN_CFG : Nat := 0x21010
/-- QUE_ERR -/
abbrev QUE_ERR : Nat := 0x21014
/-- DRC_STATUS -/
abbrev DRC_STATUS : Nat := 0xd0000
/-- DRC_TEMP0 -/
abbrev DRC_TEMP0 : Nat := 0xd0004
/-- DRC_TEMP1 -/
abbrev DRC_TEMP1 : Nat := 0xd0008
/-- DRC_MIG_CTL -/
abbrev DRC_MIG_CTL : Nat := 0xd000c
/-- DRC_SCRUB -/
abbrev DRC_SCRUB : Nat := 0xd0010
/-- DRC_CH_MAP -/
abbrev DRC_CH_MAP (i : Nat) : Nat := 0xd0100 + i * 0x20
/-- DRC_CH_MIG -/
abbrev DRC_CH_MIG (i : Nat) : Nat := 0xd0104 + i * 0x20
/-- DRC_CH_ECC -/
abbrev DRC_CH_ECC (i : Nat) : Nat := 0xd0108 + i * 0x20
/-- TEL_HANG_WINDOW -/
abbrev TEL_HANG_WINDOW : Nat := 0x40000
/-- TEL_HANG_STATUS -/
abbrev TEL_HANG_STATUS : Nat := 0x40004
/-- TEL_RESETS -/
abbrev TEL_RESETS : Nat := 0x40008
/-- TEL_REPLACE -/
abbrev TEL_REPLACE : Nat := 0x4000c
/-- TEL_ALERT_MASK -/
abbrev TEL_ALERT_MASK : Nat := 0x40010
/-- TEL_LOG_HEAD -/
abbrev TEL_LOG_HEAD : Nat := 0x40014
/-- TEL_FAULTED_LO -/
abbrev TEL_FAULTED_LO : Nat := 0x40018
/-- TEL_FAULTED_HI -/
abbrev TEL_FAULTED_HI : Nat := 0x4001c
/-- FAB_PORT_CTL -/
abbrev FAB_PORT_CTL (i : Nat) : Nat := 0xe0000 + i * 0x100
/-- FAB_PORT_STATUS -/
abbrev FAB_PORT_STATUS (i : Nat) : Nat := 0xe0004 + i * 0x100
/-- FAB_PORT_ERR -/
abbrev FAB_PORT_ERR (i : Nat) : Nat := 0xe0008 + i * 0x100
/-- FAB_GROUP -/
abbrev FAB_GROUP : Nat := 0xe0400
/-- FAB_PEERS -/
abbrev FAB_PEERS : Nat := 0xe0404
/-- FAB_PROTECT -/
abbrev FAB_PROTECT : Nat := 0xe0408
/-- CPR_PWR_CTL -/
abbrev CPR_PWR_CTL : Nat := 0x10000
/-- CPR_PWR_STATUS -/
abbrev CPR_PWR_STATUS : Nat := 0x10004
/-- CPR_WAKE_EN -/
abbrev CPR_WAKE_EN : Nat := 0x10008
/-- CPR_WAKE_TIME_LO -/
abbrev CPR_WAKE_TIME_LO : Nat := 0x10010
/-- CPR_WAKE_TIME_HI -/
abbrev CPR_WAKE_TIME_HI : Nat := 0x10014
/-- CPR_TIME_LO -/
abbrev CPR_TIME_LO : Nat := 0x10018
/-- CPR_TIME_HI -/
abbrev CPR_TIME_HI : Nat := 0x1001c
/-- CPR_DVFS_STATUS -/
abbrev CPR_DVFS_STATUS : Nat := 0x10020
/-- CPR_CLK_SEL -/
abbrev CPR_CLK_SEL : Nat := 0x10030
/-- CPR_CLK_STATUS -/
abbrev CPR_CLK_STATUS : Nat := 0x10034
/-- CPR_CLK_ESC -/
abbrev CPR_CLK_ESC : Nat := 0x10038
/-- CPR_FMETER_CTL -/
abbrev CPR_FMETER_CTL : Nat := 0x10040
/-- CPR_FMETER_COUNT -/
abbrev CPR_FMETER_COUNT : Nat := 0x10044
/-- CPR_CLKMON -/
abbrev CPR_CLKMON : Nat := 0x10048
/-- CPR_CAL_VMARGIN -/
abbrev CPR_CAL_VMARGIN (i : Nat) : Nat := 0x10050 + i * 0x4
/-- CPR_CAL_TEMP -/
abbrev CPR_CAL_TEMP : Nat := 0x10058
/-- CPR_CAL_MISC -/
abbrev CPR_CAL_MISC : Nat := 0x1005c
/-- SEC_BOOT_STATUS -/
abbrev SEC_BOOT_STATUS : Nat := 0x50000
/-- SEC_POLICY -/
abbrev SEC_POLICY : Nat := 0x50004
/-- SEC_SIG_STATUS -/
abbrev SEC_SIG_STATUS : Nat := 0x50008
/-- SEC_SIG_INDEX_LO -/
abbrev SEC_SIG_INDEX_LO : Nat := 0x5000c
/-- SEC_SIG_INDEX_HI -/
abbrev SEC_SIG_INDEX_HI : Nat := 0x50010
/-- SEC_RECOVERY -/
abbrev SEC_RECOVERY : Nat := 0x50014
/-- SEC_OTP_DATA -/
abbrev SEC_OTP_DATA (i : Nat) : Nat := 0x50020 + i * 0x4
/-- SEC_OTP_CMD -/
abbrev SEC_OTP_CMD : Nat := 0x50040
end R

namespace F
abbrev MC_WIDTH_width : Fld := ⟨0, 9⟩
abbrev MC_WIDTH_fuse_bypassed : Fld := ⟨16, 8⟩
abbrev MC_WIDTH_field_bypassed : Fld := ⟨24, 8⟩
abbrev MC_ARITH_STATUS_acc_sat : Fld := ⟨0, 1⟩
abbrev MC_ARITH_STATUS_vec_sat : Fld := ⟨1, 1⟩
abbrev MC_ARITH_STATUS_vec_nan : Fld := ⟨2, 1⟩
abbrev MC_ARITH_STATUS_withdrawn : Fld := ⟨8, 1⟩
abbrev MC_ARITH_STATUS_user_clamped : Fld := ⟨9, 1⟩
abbrev MC_ARITH_STATUS_last_new : Fld := ⟨16, 8⟩
abbrev MC_BYPASS_MAP_bypassed : Fld := ⟨0, 32⟩
abbrev MC_USER_BYPASS_user : Fld := ⟨0, 32⟩
abbrev MC_SEQ_STATUS_context : Fld := ⟨0, 6⟩
abbrev MC_SEQ_STATUS_busy : Fld := ⟨6, 1⟩
abbrev MC_SEQ_STATUS_tok_sat : Fld := ⟨7, 1⟩
abbrev MC_SEQ_STATUS_pc : Fld := ⟨8, 12⟩
abbrev MC_SEQ_STATUS_fault : Fld := ⟨20, 8⟩
abbrev MC_SEQ_STATUS_tag_wait : Fld := ⟨28, 1⟩
abbrev MC_SEQ_STATUS_tok_wait : Fld := ⟨29, 1⟩
abbrev MC_SEQ_RETIRED_retired : Fld := ⟨0, 32⟩
abbrev MC_TOKEN_TIMEOUT_cycles : Fld := ⟨0, 32⟩
abbrev STL_STATUS_queued : Fld := ⟨0, 3⟩
abbrev STL_STATUS_busy : Fld := ⟨3, 1⟩
abbrev STL_STATUS_core : Fld := ⟨4, 2⟩
abbrev STL_STATUS_context : Fld := ⟨6, 6⟩
abbrev STL_DONE_done : Fld := ⟨0, 32⟩
abbrev CAB_WC_STATUS_open_shares : Fld := ⟨0, 11⟩
abbrev CAB_WC_STATUS_orphans : Fld := ⟨16, 11⟩
abbrev CAB_WC_STATUS_drain_wait : Fld := ⟨31, 1⟩
abbrev CAB_WC_REISSUED_reissued : Fld := ⟨0, 32⟩
abbrev BPM_POOL_BASE_LO_base_lo : Fld := ⟨0, 32⟩
abbrev BPM_POOL_BASE_HI_base_hi : Fld := ⟨0, 16⟩
abbrev BPM_POOL_CFG_size_code : Fld := ⟨0, 4⟩
abbrev BPM_POOL_CFG_policy : Fld := ⟨4, 2⟩
abbrev BPM_POOL_CFG_fb_depth : Fld := ⟨6, 2⟩
abbrev BPM_POOL_CFG_fb_pool : Fld := ⟨8, 6⟩
abbrev BPM_POOL_COUNT_count : Fld := ⟨0, 26⟩
abbrev BPM_POOL_LOW_low_water : Fld := ⟨0, 26⟩
abbrev BPM_POOL_CTL_enable : Fld := ⟨0, 1⟩
abbrev BPM_POOL_STAT_state : Fld := ⟨0, 2⟩
abbrev BPM_POOL_STAT_enable_pending : Fld := ⟨2, 1⟩
abbrev BPM_POOL_STAT_low : Fld := ⟨3, 1⟩
abbrev BPM_POOL_STAT_guard_err : Fld := ⟨4, 1⟩
abbrev BPM_POOL_STAT_cfg_err : Fld := ⟨5, 1⟩
abbrev BPM_POOL_STAT_fallback_out : Fld := ⟨16, 16⟩
abbrev BPM_POOL_FREE_free : Fld := ⟨0, 26⟩
abbrev BPM_POOL_FREE_quarantined : Fld := ⟨26, 6⟩
abbrev CAB_ECC_COUNT_corrected : Fld := ⟨0, 16⟩
abbrev CAB_ECC_COUNT_uncorrectable : Fld := ⟨16, 16⟩
abbrev SST_ECC_COUNT_corrected : Fld := ⟨0, 16⟩
abbrev SST_ECC_COUNT_uncorrectable : Fld := ⟨16, 16⟩
abbrev COD_STATUS_busy : Fld := ⟨0, 1⟩
abbrev COD_STATUS_encoding : Fld := ⟨1, 1⟩
abbrev COD_STATUS_stream : Fld := ⟨2, 8⟩
abbrev COD_STATUS_last_sub : Fld := ⟨16, 8⟩
abbrev COD_STATUS_svc : Fld := ⟨24, 2⟩
abbrev COD_STATUS_enable_pending : Fld := ⟨26, 1⟩
abbrev COD_ROWS_rows : Fld := ⟨0, 32⟩
abbrev COD_LOAD_dec_load : Fld := ⟨0, 16⟩
abbrev COD_LOAD_enc_load : Fld := ⟨16, 16⟩
abbrev COD_ERRS_errors : Fld := ⟨0, 16⟩
abbrev COD_ERRS_concealed : Fld := ⟨16, 16⟩
abbrev COD_CTL_enable : Fld := ⟨0, 1⟩
abbrev COD_JPEG_STATUS_busy : Fld := ⟨0, 1⟩
abbrev COD_JPEG_STATUS_queued : Fld := ⟨1, 7⟩
abbrev COD_JPEG_STATUS_done : Fld := ⟨16, 16⟩
abbrev SHP_STATUS_active : Fld := ⟨0, 3⟩
abbrev SHP_STATUS_stream : Fld := ⟨3, 8⟩
abbrev SHP_STATUS_no_buffer : Fld := ⟨16, 16⟩
abbrev SHP_ROWS_rows : Fld := ⟨0, 32⟩
abbrev SHP_LIST_list_base : Fld := ⟨13, 11⟩
abbrev SNS_CTL_enable : Fld := ⟨0, 1⟩
abbrev SNS_STATUS_svc : Fld := ⟨0, 2⟩
abbrev SNS_STATUS_enable_pending : Fld := ⟨2, 1⟩
abbrev SNS_STATUS_link : Fld := ⟨3, 1⟩
abbrev SNS_STATUS_lanes : Fld := ⟨4, 2⟩
abbrev SNS_STATUS_auth : Fld := ⟨6, 2⟩
abbrev SNS_STATUS_life_notice : Fld := ⟨8, 1⟩
abbrev SNS_ERRS_hdr_corrected : Fld := ⟨0, 16⟩
abbrev SNS_ERRS_crc : Fld := ⟨16, 16⟩
abbrev SCH_MODE_mode : Fld := ⟨0, 2⟩
abbrev SCH_MODE_pin : Fld := ⟨2, 1⟩
abbrev SCH_GOV_STATUS_mode_active : Fld := ⟨0, 2⟩
abbrev SCH_GOV_STATUS_op0 : Fld := ⟨2, 2⟩
abbrev SCH_GOV_STATUS_op1 : Fld := ⟨4, 2⟩
abbrev SCH_GOV_STATUS_env_limited : Fld := ⟨6, 1⟩
abbrev SCH_GOV_STATUS_be_paused : Fld := ⟨7, 1⟩
abbrev SCH_GOV_STATUS_power : Fld := ⟨16, 16⟩
abbrev SCH_DL_EVENTS_fallbacks : Fld := ⟨0, 16⟩
abbrev SCH_DL_EVENTS_voids : Fld := ⟨16, 16⟩
abbrev GLB_ALIVE_signature : Fld := ⟨0, 16⟩
abbrev GLB_ALIVE_resets : Fld := ⟨16, 8⟩
abbrev GLB_ALIVE_state : Fld := ⟨24, 3⟩
abbrev HIF_APERTURE_BASE_LO_base_lo : Fld := ⟨24, 8⟩
abbrev HIF_APERTURE_BASE_HI_base_hi : Fld := ⟨0, 16⟩
abbrev HIF_APERTURE_SIZE_size_log2 : Fld := ⟨0, 6⟩
abbrev HIF_LINK_STATUS_speed : Fld := ⟨0, 3⟩
abbrev HIF_LINK_STATUS_width : Fld := ⟨3, 4⟩
abbrev HIF_LINK_STATUS_dl_up : Fld := ⟨7, 1⟩
abbrev HIF_LINK_STATUS_lost : Fld := ⟨8, 8⟩
abbrev HIF_LINK_STATUS_held : Fld := ⟨16, 16⟩
abbrev HIF_LINK_HOLD_hold_ms : Fld := ⟨0, 20⟩
abbrev HIF_ERR_ap_base_err : Fld := ⟨0, 1⟩
abbrev HIF_ERR_poisoned_write : Fld := ⟨1, 1⟩
abbrev HIF_ERR_cpl_timeout : Fld := ⟨2, 1⟩
abbrev HIF_ERR_records_lost : Fld := ⟨3, 1⟩
abbrev QUE_ADMIN_SQ_LO_sq_lo : Fld := ⟨0, 32⟩
abbrev QUE_ADMIN_SQ_HI_sq_hi : Fld := ⟨0, 32⟩
abbrev QUE_ADMIN_CQ_LO_cq_lo : Fld := ⟨0, 32⟩
abbrev QUE_ADMIN_CQ_HI_cq_hi : Fld := ⟨0, 32⟩
abbrev QUE_ADMIN_CFG_enable : Fld := ⟨0, 1⟩
abbrev QUE_ADMIN_CFG_sq_log2 : Fld := ⟨1, 4⟩
abbrev QUE_ADMIN_CFG_cq_log2 : Fld := ⟨5, 4⟩
abbrev QUE_ADMIN_CFG_vector : Fld := ⟨9, 7⟩
abbrev QUE_ADMIN_CFG_svc : Fld := ⟨16, 2⟩
abbrev QUE_ADMIN_CFG_enable_pending : Fld := ⟨18, 1⟩
abbrev QUE_ERR_bad_doorbell : Fld := ⟨0, 1⟩
abbrev QUE_ERR_last : Fld := ⟨8, 6⟩
abbrev QUE_ERR_kind : Fld := ⟨14, 2⟩
abbrev DRC_STATUS_trained : Fld := ⟨0, 8⟩
abbrev DRC_STATUS_refresh_x2 : Fld := ⟨8, 1⟩
abbrev DRC_STATUS_throttled : Fld := ⟨9, 1⟩
abbrev DRC_STATUS_lost_blocks : Fld := ⟨10, 4⟩
abbrev DRC_TEMP0_die0_die3 : Fld := ⟨0, 32⟩
abbrev DRC_TEMP1_die4 : Fld := ⟨0, 8⟩
abbrev DRC_TEMP1_max : Fld := ⟨8, 8⟩
abbrev DRC_MIG_CTL_share : Fld := ⟨0, 5⟩
abbrev DRC_SCRUB_line : Fld := ⟨0, 23⟩
abbrev DRC_SCRUB_rank : Fld := ⟨23, 3⟩
abbrev DRC_SCRUB_passes : Fld := ⟨26, 6⟩
abbrev DRC_CH_MAP_die : Fld := ⟨0, 12⟩
abbrev DRC_CH_MAP_spare : Fld := ⟨12, 2⟩
abbrev DRC_CH_MAP_mig_rank : Fld := ⟨14, 2⟩
abbrev DRC_CH_MAP_frozen : Fld := ⟨16, 1⟩
abbrev DRC_CH_MIG_ptr : Fld := ⟨0, 23⟩
abbrev DRC_CH_ECC_corrected : Fld := ⟨0, 16⟩
abbrev DRC_CH_ECC_uncorrectable : Fld := ⟨16, 16⟩
abbrev TEL_HANG_WINDOW_core_ms : Fld := ⟨0, 10⟩
abbrev TEL_HANG_WINDOW_media_ms : Fld := ⟨10, 10⟩
abbrev TEL_HANG_WINDOW_dma_ms : Fld := ⟨20, 10⟩
abbrev TEL_HANG_STATUS_last_unit : Fld := ⟨0, 8⟩
abbrev TEL_HANG_STATUS_last_level : Fld := ⟨8, 2⟩
abbrev TEL_HANG_STATUS_replaying : Fld := ⟨10, 1⟩
abbrev TEL_HANG_STATUS_recovering : Fld := ⟨11, 2⟩
abbrev TEL_HANG_STATUS_hangs : Fld := ⟨16, 16⟩
abbrev TEL_RESETS_l1_stack0 : Fld := ⟨0, 8⟩
abbrev TEL_RESETS_l1_stack1 : Fld := ⟨8, 8⟩
abbrev TEL_RESETS_l2 : Fld := ⟨16, 8⟩
abbrev TEL_RESETS_unit : Fld := ⟨24, 8⟩
abbrev TEL_REPLACE_cause : Fld := ⟨0, 5⟩
abbrev TEL_REPLACE_heads : Fld := ⟨8, 4⟩
abbrev TEL_ALERT_MASK_mask : Fld := ⟨0, 5⟩
abbrev TEL_LOG_HEAD_next : Fld := ⟨0, 32⟩
abbrev TEL_FAULTED_LO_faulted_lo : Fld := ⟨0, 32⟩
abbrev TEL_FAULTED_HI_faulted_hi : Fld := ⟨0, 32⟩
abbrev FAB_PORT_CTL_enable : Fld := ⟨0, 1⟩
abbrev FAB_PORT_STATUS_up : Fld := ⟨0, 1⟩
abbrev FAB_PORT_STATUS_svc : Fld := ⟨1, 2⟩
abbrev FAB_PORT_STATUS_enable_pending : Fld := ⟨3, 1⟩
abbrev FAB_PORT_STATUS_peer : Fld := ⟨4, 5⟩
abbrev FAB_PORT_STATUS_miswired : Fld := ⟨9, 1⟩
abbrev FAB_PORT_ERR_corrected : Fld := ⟨0, 12⟩
abbrev FAB_PORT_ERR_retries : Fld := ⟨12, 8⟩
abbrev FAB_PORT_ERR_retrains : Fld := ⟨20, 4⟩
abbrev FAB_PORT_ERR_dropped : Fld := ⟨24, 8⟩
abbrev FAB_GROUP_id : Fld := ⟨0, 5⟩
abbrev FAB_GROUP_size : Fld := ⟨5, 6⟩
abbrev FAB_GROUP_topology : Fld := ⟨11, 2⟩
abbrev FAB_GROUP_gen : Fld := ⟨13, 19⟩
abbrev FAB_PEERS_down : Fld := ⟨0, 32⟩
abbrev FAB_PROTECT_active : Fld := ⟨0, 9⟩
abbrev FAB_PROTECT_standby : Fld := ⟨9, 9⟩
abbrev FAB_PROTECT_unprotected : Fld := ⟨18, 9⟩
abbrev CPR_PWR_CTL_target : Fld := ⟨0, 2⟩
abbrev CPR_PWR_CTL_wake_target : Fld := ⟨2, 1⟩
abbrev CPR_PWR_CTL_auto_night : Fld := ⟨3, 1⟩
abbrev CPR_PWR_CTL_dawn_decim : Fld := ⟨4, 4⟩
abbrev CPR_PWR_CTL_idle_ms : Fld := ⟨8, 16⟩
abbrev CPR_PWR_STATUS_state : Fld := ⟨0, 3⟩
abbrev CPR_PWR_STATUS_wake_pending : Fld := ⟨3, 1⟩
abbrev CPR_PWR_STATUS_entering : Fld := ⟨4, 1⟩
abbrev CPR_PWR_STATUS_cause : Fld := ⟨8, 5⟩
abbrev CPR_PWR_STATUS_ibi_port : Fld := ⟨13, 4⟩
abbrev CPR_PWR_STATUS_wakes : Fld := ⟨24, 8⟩
abbrev CPR_WAKE_EN_timer : Fld := ⟨0, 1⟩
abbrev CPR_WAKE_EN_wake_n : Fld := ⟨1, 1⟩
abbrev CPR_WAKE_EN_gpio : Fld := ⟨2, 1⟩
abbrev CPR_WAKE_EN_ibi : Fld := ⟨3, 4⟩
abbrev CPR_WAKE_EN_gpio_mask : Fld := ⟨16, 16⟩
abbrev CPR_WAKE_TIME_LO_wake_lo : Fld := ⟨0, 32⟩
abbrev CPR_WAKE_TIME_HI_wake_hi : Fld := ⟨0, 32⟩
abbrev CPR_TIME_LO_time_lo : Fld := ⟨0, 32⟩
abbrev CPR_TIME_HI_time_hi : Fld := ⟨0, 32⟩
abbrev CPR_DVFS_STATUS_op0 : Fld := ⟨0, 2⟩
abbrev CPR_DVFS_STATUS_op1 : Fld := ⟨2, 2⟩
abbrev CPR_DVFS_STATUS_busy0 : Fld := ⟨4, 1⟩
abbrev CPR_DVFS_STATUS_busy1 : Fld := ⟨5, 1⟩
abbrev CPR_DVFS_STATUS_mv0 : Fld := ⟨8, 10⟩
abbrev CPR_DVFS_STATUS_mv1 : Fld := ⟨18, 10⟩
abbrev CPR_CLK_SEL_src : Fld := ⟨0, 12⟩
abbrev CPR_CLK_SEL_force : Fld := ⟨16, 1⟩
abbrev CPR_CLK_STATUS_ready : Fld := ⟨0, 7⟩
abbrev CPR_CLK_STATUS_switching : Fld := ⟨8, 6⟩
abbrev CPR_CLK_STATUS_refused : Fld := ⟨14, 1⟩
abbrev CPR_CLK_STATUS_escaped : Fld := ⟨15, 1⟩
abbrev CPR_CLK_ESC_esc : Fld := ⟨0, 6⟩
abbrev CPR_FMETER_CTL_clk : Fld := ⟨0, 4⟩
abbrev CPR_FMETER_CTL_gate_src : Fld := ⟨4, 1⟩
abbrev CPR_FMETER_CTL_g : Fld := ⟨5, 5⟩
abbrev CPR_FMETER_CTL_start : Fld := ⟨10, 1⟩
abbrev CPR_FMETER_CTL_done : Fld := ⟨11, 1⟩
abbrev CPR_FMETER_COUNT_count : Fld := ⟨0, 32⟩
abbrev CPR_CLKMON_clk : Fld := ⟨0, 4⟩
abbrev CPR_CLKMON_k : Fld := ⟨4, 4⟩
abbrev CPR_CLKMON_enable : Fld := ⟨8, 1⟩
abbrev CPR_CLKMON_sel_err : Fld := ⟨9, 1⟩
abbrev CPR_CAL_VMARGIN_margin : Fld := ⟨0, 32⟩
abbrev CPR_CAL_TEMP_offset : Fld := ⟨0, 30⟩
abbrev CPR_CAL_MISC_dawn_trim : Fld := ⟨0, 6⟩
abbrev CPR_CAL_MISC_rate : Fld := ⟨16, 16⟩
abbrev SEC_BOOT_STATUS_fw_slot : Fld := ⟨0, 2⟩
abbrev SEC_BOOT_STATUS_key_slot : Fld := ⟨2, 2⟩
abbrev SEC_BOOT_STATUS_revoked : Fld := ⟨4, 4⟩
abbrev SEC_BOOT_STATUS_rollback : Fld := ⟨8, 7⟩
abbrev SEC_BOOT_STATUS_cust_key_set : Fld := ⟨15, 1⟩
abbrev SEC_BOOT_STATUS_boot_err : Fld := ⟨16, 8⟩
abbrev SEC_POLICY_otp_enforce : Fld := ⟨0, 1⟩
abbrev SEC_POLICY_sw_require : Fld := ⟨1, 1⟩
abbrev SEC_POLICY_require_customer_sig : Fld := ⟨2, 1⟩
abbrev SEC_SIG_STATUS_epochs_used : Fld := ⟨0, 13⟩
abbrev SEC_SIG_STATUS_epoch_open : Fld := ⟨13, 1⟩
abbrev SEC_SIG_STATUS_low : Fld := ⟨14, 1⟩
abbrev SEC_SIG_STATUS_exhausted : Fld := ⟨15, 1⟩
abbrev SEC_SIG_INDEX_LO_next_lo : Fld := ⟨0, 32⟩
abbrev SEC_SIG_INDEX_HI_next_hi : Fld := ⟨0, 8⟩
abbrev SEC_RECOVERY_go : Fld := ⟨0, 1⟩
abbrev SEC_OTP_DATA_data : Fld := ⟨0, 32⟩
abbrev SEC_OTP_CMD_op : Fld := ⟨0, 2⟩
abbrev SEC_OTP_CMD_busy : Fld := ⟨2, 1⟩
abbrev SEC_OTP_CMD_err : Fld := ⟨3, 1⟩
end F

/-- Part 0 of the register table. -/
def regTable0 : List RegDef := [
  ⟨0x100010, [(0x10000, 8)], 0x0, 0x0, 0x0, 0x0⟩,
  ⟨0x100020, [(0x10000, 8)], 0x0, 0x7, 0x0, 0x0⟩,
  ⟨0x100040, [(0x10000, 8), (0x4, 8)], 0x0, 0x0, 0x0, 0x0⟩,
  ⟨0x100060, [(0x10000, 8), (0x4, 8)], 0xffffffff, 0x0, 0x0, 0x0⟩,
  ⟨0x100100, [(0x10000, 8)], 0x0, 0x80, 0x0, 0x0⟩,
  ⟨0x100104, [(0x10000, 8)], 0x0, 0x0, 0x0, 0x0⟩,
  ⟨0x100108, [(0x10000, 8)], 0xffffffff, 0x0, 0x0, 0x0⟩,
  ⟨0x180000, [(0x1000, 2)], 0x0, 0x0, 0x0, 0x0⟩,
  ⟨0x180004, [(0x1000, 2)], 0x0, 0x0, 0x0, 0x0⟩,
  ⟨0x200800, [(0x1000, 2)], 0x0, 0x0, 0x0, 0x0⟩,
  ⟨0x200804, [(0x1000, 2)], 0x0, 0x0, 0x0, 0x0⟩,
  ⟨0xc0000, [(0x20, 64)], 0xffffffff, 0x0, 0x0, 0x0⟩,
  ⟨0xc0004, [(0x20, 64)], 0xffff, 0x0, 0x0, 0x0⟩,
  ⟨0xc0008, [(0x20, 64)], 0x3fff, 0x0, 0x0, 0x0⟩,
  ⟨0xc000c, [(0x20, 64)], 0x3ffffff, 0x0, 0x0, 0x0⟩,
  ⟨0xc0010, [(0x20, 64)], 0x3ffffff, 0x0, 0x0, 0x0⟩]

/-- Part 1 of the register table. -/
def regTable1 : List RegDef := [
  ⟨0xc0014, [(0x20, 64)], 0x1, 0x0, 0x0, 0x0⟩,
  ⟨0xc0018, [(0x20, 64)], 0x0, 0x38, 0x0, 0xffff0000⟩,
  ⟨0xc001c, [(0x20, 64)], 0x0, 0x0, 0x0, 0x0⟩,
  ⟨0x200810, [(0x1000, 2)], 0x0, 0x0, 0x0, 0xffffffff⟩,
  ⟨0x202810, [], 0x0, 0x0, 0x0, 0xffffffff⟩,
  ⟨0x80000, [(0x2000, 8)], 0x0, 0x0, 0x0, 0x0⟩,
  ⟨0x80004, [(0x2000, 8)], 0x0, 0x0, 0x0, 0x0⟩,
  ⟨0x80008, [(0x2000, 8)], 0x0, 0x0, 0x0, 0x0⟩,
  ⟨0x8000c, [(0x2000, 8)], 0x0, 0x0, 0x0, 0xffffffff⟩,
  ⟨0x80010, [(0x2000, 8)], 0x1, 0x0, 0x0, 0x0⟩,
  ⟨0x90000, [], 0x0, 0x0, 0x0, 0xffff0000⟩,
  ⟨0xa0000, [(0x1000, 4)], 0x0, 0x0, 0x0, 0xffff0000⟩,
  ⟨0xa0004, [(0x1000, 4)], 0x0, 0x0, 0x0, 0x0⟩,
  ⟨0xa8000, [(0x4, 48)], 0xffe000, 0x0, 0x0, 0x0⟩,
  ⟨0xb0000, [(0x1000, 4)], 0x1, 0x0, 0x0, 0x0⟩,
  ⟨0xb0004, [(0x1000, 4)], 0x0, 0x0, 0x0, 0x0⟩]

/-- Part 2 of the register table. -/
def regTable2 : List RegDef := [
  ⟨0xb0008, [(0x1000, 4)], 0x0, 0x0, 0x0, 0xffffffff⟩,
  ⟨0x30000, [], 0x7, 0x0, 0x0, 0x0⟩,
  ⟨0x30004, [], 0x0, 0x0, 0x0, 0x0⟩,
  ⟨0x30008, [], 0x0, 0x0, 0x0, 0xffffffff⟩,
  ⟨0x8, [], 0x0, 0x0, 0x0, 0x0⟩,
  ⟨0x60000, [], 0xff000000, 0x0, 0x0, 0x0⟩,
  ⟨0x60004, [], 0xffff, 0x0, 0x0, 0x0⟩,
  ⟨0x60008, [], 0x0, 0x0, 0x0, 0x0⟩,
  ⟨0x60010, [], 0x0, 0x0, 0x0, 0xff00⟩,
  ⟨0x60014, [], 0xfffff, 0x0, 0x0, 0x0⟩,
  ⟨0x60018, [], 0x0, 0xf, 0x0, 0x0⟩,
  ⟨0x21000, [], 0xffffffff, 0x0, 0x0, 0x0⟩,
  ⟨0x21004, [], 0xffffffff, 0x0, 0x0, 0x0⟩,
  ⟨0x21008, [], 0xffffffff, 0x0, 0x0, 0x0⟩,
  ⟨0x2100c, [], 0xffffffff, 0x0, 0x0, 0x0⟩,
  ⟨0x21010, [], 0xffff, 0x0, 0x0, 0x0⟩]

/-- Part 3 of the register table. -/
def regTable3 : List RegDef := [
  ⟨0x21014, [], 0x0, 0x1, 0x0, 0x0⟩,
  ⟨0xd0000, [], 0x0, 0x0, 0x0, 0x0⟩,
  ⟨0xd0004, [], 0x0, 0x0, 0x0, 0x0⟩,
  ⟨0xd0008, [], 0x0, 0x0, 0x0, 0x0⟩,
  ⟨0xd000c, [], 0x1f, 0x0, 0x0, 0x0⟩,
  ⟨0xd0010, [], 0x0, 0x0, 0x0, 0x0⟩,
  ⟨0xd0100, [(0x20, 8)], 0x0, 0x0, 0x0, 0x0⟩,
  ⟨0xd0104, [(0x20, 8)], 0x0, 0x0, 0x0, 0x0⟩,
  ⟨0xd0108, [(0x20, 8)], 0x0, 0x0, 0x0, 0xffffffff⟩,
  ⟨0x40000, [], 0x3fffffff, 0x0, 0x0, 0x0⟩,
  ⟨0x40004, [], 0x0, 0x0, 0x0, 0xffff0000⟩,
  ⟨0x40008, [], 0x0, 0x0, 0x0, 0xffffffff⟩,
  ⟨0x4000c, [], 0x0, 0x0, 0x0, 0x0⟩,
  ⟨0x40010, [], 0x1f, 0x0, 0x0, 0x0⟩,
  ⟨0x40014, [], 0x0, 0x0, 0x0, 0x0⟩,
  ⟨0x40018, [], 0x0, 0x0, 0x0, 0x0⟩]

/-- Part 4 of the register table. -/
def regTable4 : List RegDef := [
  ⟨0x4001c, [], 0x0, 0x0, 0x0, 0x0⟩,
  ⟨0xe0000, [(0x100, 4)], 0x1, 0x0, 0x0, 0x0⟩,
  ⟨0xe0004, [(0x100, 4)], 0x0, 0x0, 0x0, 0x0⟩,
  ⟨0xe0008, [(0x100, 4)], 0x0, 0x0, 0x0, 0xffffffff⟩,
  ⟨0xe0400, [], 0x0, 0x0, 0x0, 0x0⟩,
  ⟨0xe0404, [], 0x0, 0x0, 0x0, 0x0⟩,
  ⟨0xe0408, [], 0x0, 0x0, 0x0, 0x0⟩,
  ⟨0x10000, [], 0xffffff, 0x0, 0x0, 0x0⟩,
  ⟨0x10004, [], 0x0, 0x1ff00, 0x0, 0xff000000⟩,
  ⟨0x10008, [], 0xffff007f, 0x0, 0x0, 0x0⟩,
  ⟨0x10010, [], 0xffffffff, 0x0, 0x0, 0x0⟩,
  ⟨0x10014, [], 0xffffffff, 0x0, 0x0, 0x0⟩,
  ⟨0x10018, [], 0x0, 0x0, 0x0, 0x0⟩,
  ⟨0x1001c, [], 0x0, 0x0, 0x0, 0x0⟩,
  ⟨0x10020, [], 0x0, 0x0, 0x0, 0x0⟩,
  ⟨0x10030, [], 0x10fff, 0x0, 0x0, 0x0⟩]

/-- Part 5 of the register table. -/
def regTable5 : List RegDef := [
  ⟨0x10034, [], 0x0, 0xc000, 0x0, 0x0⟩,
  ⟨0x10038, [], 0x0, 0x0, 0x0, 0x0⟩,
  ⟨0x10040, [], 0x3ff, 0x0, 0x0, 0x0⟩,
  ⟨0x10044, [], 0x0, 0x0, 0x0, 0x0⟩,
  ⟨0x10048, [], 0x1ff, 0x0, 0x0, 0x0⟩,
  ⟨0x10050, [(0x4, 2)], 0xffffffff, 0x0, 0x0, 0x0⟩,
  ⟨0x10058, [], 0x3fffffff, 0x0, 0x0, 0x0⟩,
  ⟨0x1005c, [], 0xffff003f, 0x0, 0x0, 0x0⟩,
  ⟨0x50000, [], 0x0, 0x0, 0x0, 0x0⟩,
  ⟨0x50004, [], 0x0, 0x0, 0x2, 0x0⟩,
  ⟨0x50008, [], 0x0, 0x0, 0x0, 0x0⟩,
  ⟨0x5000c, [], 0x0, 0x0, 0x0, 0x0⟩,
  ⟨0x50010, [], 0x0, 0x0, 0x0, 0x0⟩,
  ⟨0x50014, [], 0x0, 0x0, 0x0, 0x0⟩,
  ⟨0x50020, [(0x4, 8)], 0x0, 0x0, 0x0, 0x0⟩,
  ⟨0x50040, [], 0x0, 0x8, 0x0, 0x0⟩]

/-- Every register family of the manual. -/
def regTable : List RegDef :=
  regTable0 ++ regTable1 ++ regTable2 ++ regTable3 ++ regTable4 ++ regTable5

/-- The registers whose reset value is not 0, by offset (the Reset columns; R7 values of the shipped part, log entry 3). -/
def resetRegs : List (Nat × Word) := [
  (0x8, 0x1f5d),
  (0x10000, 0x138846),
  (0x10008, 0x2),
  (0x10040, 0x180),
  (0x30000, 0x1),
  (0x30004, 0x1),
  (0x40000, 0x1f47d0c8),
  (0x40004, 0xff),
  (0x60008, 0x1e),
  (0x60014, 0x2710),
  (0x80000, 0x1000000),
  (0x80010, 0x1),
  (0x82000, 0x1000000),
  (0x82010, 0x1),
  (0x84000, 0x1000000),
  (0x84010, 0x1),
  (0x86000, 0x1000000),
  (0x86010, 0x1),
  (0x88000, 0x1000000),
  (0x88010, 0x1),
  (0x8a000, 0x1000000),
  (0x8a010, 0x1),
  (0x8c000, 0x1000000),
  (0x8c010, 0x1),
  (0x8e000, 0x1000000),
  (0x8e010, 0x1),
  (0xd000c, 0x4),
  (0xd0100, 0x688),
  (0xd0120, 0x688),
  (0xd0140, 0x688),
  (0xd0160, 0x688),
  (0xd0180, 0x688),
  (0xd01a0, 0x688),
  (0xd01c0, 0x688),
  (0xd01e0, 0x688),
  (0xe0000, 0x1),
  (0xe0100, 0x1),
  (0xe0200, 0x1),
  (0xe0300, 0x1),
  (0x100010, 0x100),
  (0x100108, 0xf4240),
  (0x110010, 0x100),
  (0x110108, 0xf4240),
  (0x120010, 0x100),
  (0x120108, 0xf4240),
  (0x130010, 0x100),
  (0x130108, 0xf4240),
  (0x140010, 0x100),
  (0x140108, 0xf4240),
  (0x150010, 0x100),
  (0x150108, 0xf4240),
  (0x160010, 0x100),
  (0x160108, 0xf4240),
  (0x170010, 0x100),
  (0x170108, 0xf4240)]

end Sys2Proof.Machine
end

