-- ==== Sys2Proof/Machine/State.lean ====
section
/-!
DEFINITION. The state of the ZV7720, as plain data. Maps are lists of (key, value) pairs in one canonical form (keys strictly
rising); a key that is not listed reads as the map's default. The registers of BAR0 have one home, Dev.regs: a field of a
structure below holds only what no register shows.
-/

namespace Sys2Proof.Machine

/-- A sparse map: pairs with strictly rising keys. -/
abbrev SMap (α : Type) := List (Nat × α)

/-! ### Stores (R228, R235 to R243) -/

/-- The stores of the device: raw bytes, tag symbols and the difference of the stored check symbols from the encoder's. -/
structure Memory where
  /-- bytes by physical place (device address; DRAM at Addr.dramPhys); an unlisted byte is 0 -/
  cells : List Host.Cell := []
  /-- tag symbol c35 by codeword (place / 32); unlisted 0 -/
  tags : SMap Byte := []
  /-- stored check symbols XOR the encoder's, by codeword; unlisted 0: a valid codeword -/
  chk : SMap (BitVec 24) := []
  /-- codewords corrected by a reader whose write-back is due (R240) -/
  wback : List Nat := []
  /-- patrol pointers, in codewords: 0 M-die 0, 1 M-die 1, 2 stream store (R243) -/
  scrub : SMap Nat := []
  deriving DecidableEq, Repr

/-! ### Program images and contexts (R56 to R66) -/

/-- A residency tag's state (R88); persist is a region with rcount 0 (R90). -/
inductive TagState where
  | free | filling | ready (p : Nat) | persist
  deriving DecidableEq, Repr

/-- A cabinet allocation request as placed: one address per stack that holds it (stack 2: no stack). initOff is the offset of
its initial contents in the image, initLen their length (R60). -/
structure Region where
  req : Nat
  kind : Nat
  size : Nat
  initOff : Nat
  initLen : Nat
  variant : Nat
  places : List (Nat × Nat)
  deriving DecidableEq, Repr

/-- A cost-table entry (R99). -/
structure Cost where
  lenReg : Nat
  flags : Nat
  c0 : Nat
  c1 : Nat
  spine : Nat
  deriving DecidableEq, Repr

/-- A loaded image, keyed by its DRAM address (R63). -/
structure Image where
  size : Nat
  hash : List Byte
  signed : Bool
  ctxs : List Nat
  regions : List Region
  kernels : List (Nat × Nat)
  costs : List Cost
  deriving DecidableEq, Repr

/-- A context: one loaded variant with its attributes (R65, R324). -/
structure Ctx where
  image : Nat
  variant : Nat
  firstKernel : Nat
  kernelCount : Nat
  scalars : List Word
  /-- descriptor-table bank and code region, by stack (R79) -/
  banks : List (Nat × Nat)
  code : List (Nat × Nat)
  codeInit : Nat
  onStacks : List Nat
  lc : Bool
  deadline : Nat
  margin : Nat
  fallback : Option Nat
  hold : Nat
  /-- tags this context was given: (home × 4,096 + image tag number, tag number) (R87) -/
  tagNos : List (Nat × Nat)
  /-- the variant's descriptor table in the image: offset and number of slots (R58) -/
  descOff : Nat
  descLen : Nat
  /-- dispatch is held by a repair (R416) -/
  held : Bool := false
  deriving DecidableEq, Repr

/-! ### Cores, Stool engines, homes -/

/-- A kernel dispatched to a core (R67, R70), with the participant generation of R225. -/
structure Run where
  ctx : Nat
  variant : Nat
  kernel : Nat
  count : Nat
  stream : Nat
  frame : Nat
  epoch : Nat
  stamp : Nat
  s6 : Nat
  s7 : Nat
  claiming : Bool
  replay : Bool
  gen : Nat
  stack : Nat
  /-- the frame is a revisited one (R310) -/
  revisit : Bool := false
  /-- time of dispatch and estimated duration, in 1/12,600 of 10 ns (R325) -/
  started : Nat := 0
  est : Nat := 0
  deriving DecidableEq, Repr

/-- The kernel-start checkpoint of R70. -/
structure Ckpt where
  run : Run
  sregs : List Word
  tags : List (Nat × TagState)
  deriving DecidableEq, Repr

/-- An issued, uncompleted instruction with what it read at issue (R75). -/
structure InFlight where
  id : Nat
  word : IWord
  pc : Nat
  sregs : List Word
  /-- the drain slot its stage 5 reads (R121) -/
  lut : List Byte := []
  /-- the weights of its first pass, as a plane held or loaded them at issue (R119) -/
  w0 : List (List Int) := []
  /-- length of the sequence at issue (R149) -/
  len : Nat := 0
  /-- page handles referenced (R149) -/
  pages : List Nat := []
  /-- share: counter key, tile, destination tag; tile none for a closing instance (R212 to R216) -/
  share : Option (Nat × Option Nat × Nat) := none
  deriving DecidableEq, Repr

/-- Identity of the weights in a plane (R119). -/
structure PlaneId where
  ctx : Nat
  slot : Nat
  w4 : Bool
  range : Nat
  kt : Nat
  /-- the effective weights held, by row and logical column; kept for range 0 of K-tile 0 only (R119) -/
  data : List (List Int) := []
  deriving DecidableEq, Repr

/-- A journalled pool operation (R428). -/
inductive JOp where
  | alloc | inc | dec
  deriving DecidableEq, Repr

/-- A matrix core: sequencer, drain, planes (R19 to R32, R71 to R79). -/
structure Core where
  ibuf : List IWord := []
  filled : Bool := false
  run : Option Run := none
  sregs : List Word := []
  tokens : SMap Nat := []
  dcache : List Byte := []
  dctx : Option Nat := none
  inflight : List InFlight := []
  nextId : Nat := 0
  planeA : Option PlaneId := none
  planeS : Option PlaneId := none
  luts : SMap (List Byte) := []
  journal : List (JOp × Nat) := []
  /-- tiling claims no instance is bound to, newest first: counter key, tile; at most one per counter (R212) -/
  claims : List (Nat × Nat) := []
  /-- private tags of operand-store regions in a claiming dispatch (R215) -/
  priv : SMap TagState := []
  waitSince : Option Nat := none
  kendIssued : Bool := false
  emitSeq : Nat := 0
  /-- the last tag look-ahead answer: instruction offset and whether every tag was right (R89) -/
  lookAhead : SMap Bool := []
  deriving DecidableEq, Repr

/-- A Stool engine (R175, R176): requests are (core, in-flight id). -/
structure StoolEng where
  running : Option (Nat × Nat) := none
  queue : List (Nat × Nat) := []
  /-- STOOLs held by their core until a place frees -/
  overflow : List (Nat × Nat) := []
  deriving DecidableEq, Repr

/-- A share record (R213). -/
structure Share where
  /-- none until the first instance binds it -/
  counter : Option Nat
  tag : Nat
  ctx : Nat
  rcount : Nat
  /-- issue map: tile, S6 of the participant, generation -/
  issued : List (Nat × Nat × Nat)
  done : List Nat
  /-- participants (S6) with a closing instance issued / retired -/
  closing : List Nat
  closed : List Nat
  parts : Nat
  orphans : List Nat
  /-- C-dies a lost participant waits for (R226) -/
  lost : List Nat
  /-- its dispatch has lost a participant to a reset (R224) -/
  hit : Bool := false
  deriving DecidableEq, Repr

/-- The homes (R87, R244). Tag key: home × 4,096 + tag. Counter key: M-die × 1,024 + counter. -/
structure Home where
  tags : SMap TagState := []
  regd : List (Nat × Nat) := []
  counters : SMap Word := []
  shares : List Share := []
  /-- orphaned claims not yet bound to a share: counter key, tile -/
  orphans : List (Nat × Nat) := []
  /-- page-table locks: table address, core, in-flight id (R156) -/
  locks : List (Nat × Nat × Nat) := []
  /-- page references: handle, core, in-flight id (R149, R427) -/
  refs : List (Nat × Nat × Nat) := []
  /-- remote token operations on their way: target core, token, amount added (R78) -/
  remote : List (Nat × Nat × Nat) := []
  /-- cores that received a notification and the tag key (R89) -/
  notes : List (Nat × Nat) := []
  deriving DecidableEq, Repr

/-! ### Buffer pools (R246 to R260) -/

inductive BufState where
  | free | allocated | quarantined
  deriving DecidableEq, Repr

/-- A side table entry (R248). -/
structure Buf where
  st : BufState
  count : Nat
  deriving DecidableEq, Repr

structure Bpm where
  /-- side table by handle; a handle not listed names no buffer -/
  bufs : SMap Buf := []
  /-- head of each pool's free list; unlisted: the null index -/
  heads : SMap Nat := []
  /-- pools being relinked: index the relink has reached, buffers pushed behind it, newest first (R253) -/
  relink : SMap (Nat × List Nat) := []
  /-- pools whose POOL_LOW record stands (R256) -/
  lowPosted : List Nat := []
  /-- the handle the last POOL_POP returned (none: the request failed) -/
  lastPop : Option Nat := none
  deriving DecidableEq, Repr

/-! ### Streams and frames -/

/-- Per-stream codec settings (Table Per-stream codec settings; encode part of Table Settings block). -/
structure CodecSet where
  codec : Nat := 0
  depth : Nat := 8
  dpbSlots : Nat := 0
  refPool : Nat := 0
  maxW : Nat := 0
  maxH : Nat := 0
  lagLimit : Nat := 8
  histPool : Nat := 0
  concealLimit : Nat := 256
  histMs : Nat := 0
  rateCtl : Nat := 0
  qp : Nat := 0
  refreshKind : Nat := 0
  sweepP : Nat := 32
  gopG : Nat := 1
  direction : Nat := 0
  qpDelta : Int := 0
  kbps : Nat := 0
  clipW : Nat := 0
  clipH : Nat := 0
  deriving DecidableEq, Repr

/-- A crop request (R303); coordinates are Q16.16. -/
structure CropReq where
  x0 : Int
  y0 : Int
  a : Int
  b : Int
  c : Int
  d : Int
  track : Nat
  valid : Bool
  edge : Bool
  deriving DecidableEq, Repr

/-- Shaper settings (R311). -/
structure ShaperSet where
  inPool : Nat := 0
  outW : Nat := 0
  outH : Nat := 0
  letterbox : Bool := true
  topLeft : Bool := false
  pad : List Nat := [114, 114, 114]
  matrix : Nat := 0
  range : Nat := 0
  order : Nat := 0
  int8 : Bool := false
  layout : Nat := 0
  scalerSet : Nat := 0
  bayer : Nat := 0
  cropW : Nat := 0
  cropH : Nat := 0
  maxCrops : Nat := 0
  steerBase : Nat := 0
  steerMaxAge : Nat := 4
  steerCarry : Bool := false
  revisitDepth : Nat := 0
  revisitPool : Nat := 0
  toneLo : Nat := 0
  toneHi : Nat := 65535
  crops : List CropReq := []
  deriving DecidableEq, Repr

/-- The binding section (R337). -/
structure Binding where
  ctx : Nat := 0
  lc : Bool := false
  hold : Nat := 30
  fallback : Option Nat := none
  deadline : Nat := 0
  margin : Nat := 0
  deriving DecidableEq, Repr

/-- A configuration epoch of a stream (R337). -/
structure Epoch where
  num : Nat
  codec : CodecSet
  shaper : ShaperSet
  bind : Binding
  /-- reference slots taken when the epoch was staged (R277) -/
  slots : List Nat := []
  deriving DecidableEq, Repr

/-- A clip-history item: a chunk or an encoded picture (R290). -/
structure HistItem where
  stamp : Nat
  epoch : Nat
  frame : Nat
  handle : Nat
  len : Nat
  refresh : Bool
  /-- the chunk buffer it was copied from, while the chunk is held -/
  src : Option Nat := none
  /-- parameter sets in force at its first picture that it does not hold itself (R291) -/
  params : List Byte := []
  deriving DecidableEq, Repr

/-- A frame kept in the revisit cache (R309). -/
structure RevisitItem where
  frame : Nat
  epoch : Nat
  stamp : Nat
  handle : Nat
  crops : Nat
  deriving DecidableEq, Repr

/-- A chunk waiting for its decoder: handle, length, epoch, capture timestamp, last of its pictures (R274). -/
structure Chunk where
  handle : Nat
  len : Nat
  epoch : Nat
  stamp : Nat
  /-- number of its first picture, where that is known ahead (R462), or of the sensor frame it copies (R290) -/
  num : Option Nat := none
  deriving DecidableEq, Repr

/-- A command that has been fetched and not completed: queue, cid, opcode and what it waits for (R369, R378, R460). -/
structure Cmd where
  q : Nat
  cid : Nat
  op : Nat
  stream : Nat
  arg : Nat := 0
  entry : List Byte := []
  deriving DecidableEq, Repr

/-- A record waiting for room in its ring (R374). -/
structure WaitRec where
  ring : Nat
  device : Bool
  stream : Nat
  frame : Nat
  last : Bool
  bytes : List Byte
  handle : Option Nat
  deriving DecidableEq, Repr

/-- A stream (R378, R285, R327, R337). -/
structure Stream where
  kind : Nat
  ring : Nat
  chunkPool : Nat
  recPool : Nat
  cur : Option Epoch := none
  staged : List Epoch := []
  /-- FALLBACK (R327) -/
  fallback : Bool := false
  holdCount : Nat := 0
  /-- changes of state still to be reported, oldest first: to FALLBACK, cause (R331) -/
  report : List (Bool × Nat) := []
  /-- the context of the last frame that became ready (R341) -/
  schedCtx : Option Nat := none
  nextFrame : Nat := 0
  /-- numbers from nextFrame on that pictures have in output order already (R14) -/
  numAhead : List Nat := []
  save : List Word := []
  /-- budget state: 0 NORMAL, 1 LAGGING, 2 DROPPING, 3 SKIPPING (R285) -/
  budget : Nat := 0
  /-- SKIPPING was entered outside a picture, and the change is still to be reported (R437, R472) -/
  skipDue : Bool := false
  avg : Nat := 0
  lag : Nat := 0
  refLag : Nat := 0
  lastWithin : Bool := true
  drift : Bool := false
  /-- an unsupported parameter set is active (R263) -/
  unsup : Bool := false
  /-- samples of the most recently decoded reference picture (R280), and its slot -/
  refPic : List (List Nat) := []
  /-- handles of the reference slots, with the number of the picture that occupies each (R277) -/
  slots : List (Nat × Option Nat) := []
  chunks : List Chunk := []
  engine : Option Nat := none
  history : List HistItem := []
  histSkip : Bool := false
  revisits : List RevisitItem := []
  clips : List Nat := []
  destroying : Bool := false
  /-- recovery: an unauthenticated head feeds the stream (R317) -/
  unauth : Bool := false
  /-- sequence of the last frame whose index has been written (R439) -/
  lastIndexed : Option Nat := none
  /-- duration of the last admission (R325) -/
  admission : Nat := 0
  /-- next frame sequence number whose records the ring receives, and finished frames that wait for their turn (R14) -/
  relNext : Nat := 0
  relHeld : List (Nat × List WaitRec) := []
  deriving DecidableEq, Repr

/-- A record built or emitted: bytes, with the pool handle of an EMIT record. -/
structure Rec where
  kernel : Nat
  s6 : Nat
  seq : Nat
  bytes : List Byte
  handle : Option Nat
  deriving DecidableEq, Repr

/-- Where a frame stands. -/
inductive FrameSt where
  | shaping      -- input not complete
  | arrived      -- input complete, not yet ready (R322)
  | waiting      -- ready, held by a suspect context or a level-2 reset (R332, R435)
  | ready        -- variant chosen (R327)
  | admitted     -- its step admitted (R197)
  | running      -- a kernel is dispatched
  deriving DecidableEq, Repr

/-- A frame in the device (R322, R327, R166). -/
structure Frame where
  stream : Nat
  num : Nat
  ep : Epoch
  stamp : Nat
  st : FrameSt
  revisit : Bool := false
  ctx : Nat := 0
  kernel : Nat := 0
  stack : Option Nat := none
  buf : Option Nat := none
  crops : Nat := 0
  listOff : Nat := 0
  unauth : Bool := false
  recs : List Rec := []
  /-- records placed ahead of the frame's own (R281, R331) -/
  ahead : List (List Byte) := []
  readyAt : Nat := 0
  /-- order in which frames became ready (R322) -/
  readySeq : Nat := 0
  /-- estimates of the full model and the fallback at readiness; none: unbounded (R330) -/
  fullEst : Option Nat := none
  fbEst : Option Nat := none
  onFallback : Bool := false
  deriving DecidableEq, Repr

/-! ### Codec, shaper, sensors -/

/-- A picture in progress on an engine (R268, R273, R280). -/
structure Pic where
  info : PicInfo
  frame : Nat
  ep : Epoch
  stamp : Nat
  rowsDone : List (List Nat)
  concealed : Nat
  firstSub : Nat
  cycles : Nat
  /-- it is analysed: neither an encode nor a picture decoded for reference only (R461, R462) -/
  analyse : Bool
  deriving DecidableEq, Repr

/-- A codec engine (R267 to R273). -/
structure Engine where
  pic : Option Pic := none
  /-- the picture whose rows the ring carries -/
  src : Option Pic := none
  /-- rows in the line ring not yet consumed, with the number of their first row -/
  ring : List (List Nat) := []
  /-- rows not yet in the ring: the last 8 of the group before, and what follows them when the picture is over (R273) -/
  heldBack : List (List Nat) := []
  ringFirst : Nat := 0
  stalled : Bool := false
  /-- Mpixel/s of the streams given to the engine, by stream × 2 + encode (R268) -/
  loads : SMap Nat := []
  deriving DecidableEq, Repr

structure Jpeg where
  queue : List (Nat × Chunk) := []
  /-- the image decoded last, until the shaper has taken it (R265) -/
  img : Option Pic := none
  rows : Nat := 0
  deriving DecidableEq, Repr

/-- A picture a shaper pipe serves: source 0 CE2k, 1 CE2k+1, 2 the sensor port, 3 the JPEG unit (R294). -/
structure Shaping where
  /-- samples of its rows: 0 4:2:0 of a line ring, 1 YUV422, 2 RGB888, 3 Bayer RAW, 4 thermal RAW; bits of a RAW sample -/
  fmt : Nat := 0
  depth : Nat := 8
  stream : Nat
  frame : Nat
  ep : Epoch
  stamp : Nat
  width : Nat
  height : Nat
  vuiMatrix : Option Nat
  fullRange : Bool
  rows : List (List Nat)
  buf : Option Nat
  noBuf : Bool
  /-- steering entries that are used, with their indices (R305, R308) -/
  steer : List (Nat × CropReq)
  steerFrame : Nat
  flags : Nat
  deriving DecidableEq, Repr

structure Pipe where
  work : SMap Shaping := []
  /-- sensor line FIFO: frame × 4 + virtual channel, and samples; none stands for a line that repeats the line above (R313, R314) -/
  fifo : List (Nat × Option (List Nat)) := []
  lastSource : Nat := 0
  deriving DecidableEq, Repr

/-- A sensor frame being received (R313). -/
structure SFrame where
  stream : Nat
  frame : Nat
  ep : Epoch
  stamp : Nat
  /-- lines received or concealed, width in pixels, format as in Shaping, bits of a RAW sample -/
  count : Nat
  width : Nat
  fmt : Nat
  depth : Nat
  concealed : Nat
  firstSub : Nat
  /-- its last line has come: its height -/
  ended : Option Nat := none
  deriving DecidableEq, Repr

/-- A sensor port with its head (R312 to R320). -/
structure Port where
  /-- stream bound to each virtual channel -/
  vcs : SMap Nat := []
  cur : SMap SFrame := []
  /-- frames whose last line has come, with their virtual channels, until the pipe has served them -/
  ended : List (Nat × SFrame) := []
  /-- height of the last whole frame of each virtual channel -/
  lastH : SMap Nat := []
  store : List Byte := []
  authed : Bool := false
  permit : Bool := false
  cal : List Byte := []
  partHour : Nat := 0
  lastSeen : Option Nat := none
  carried : Nat := 0
  contClock : Bool := false
  /-- frames that have come since Dawn's entry (R467) -/
  decim : Nat := 0
  mbps : Nat := 0
  deriving DecidableEq, Repr

/-! ### Scheduler, governor, DVFS -/

/-- A projection of an LC frame: its slack, and the slack at the next lower operating point (R334, R335). -/
structure SlackRec where
  stack : Nat
  time : Nat
  slack : Int
  low : Int
  margin : Nat
  deriving DecidableEq, Repr

structure Sched where
  /-- the BE context that dispatched last in the round-robin (R322) -/
  rr : Nat := 0
  /-- projections of the last 100 ms (R334, R335) -/
  slacks : List SlackRec := []
  /-- BE dispatches of the last 100 ms: stack, time, wait since readiness (R335) -/
  beWaits : List (Nat × Nat × Nat) := []
  readySeq : Nat := 0
  frames : List Frame := []
  ckpts : SMap Ckpt := []
  /-- participants lost to a reset that wait to be dispatched again (R224) -/
  redo : List Ckpt := []
  gen : Nat := 0
  deriving DecidableEq, Repr

structure Gov where
  /-- power samples of the last 10 ms, in mW, newest first (R334) -/
  samples : List Nat := []
  /-- failed reads in succession per selector (R520) -/
  fails : SMap Nat := []
  /-- last good reading per selector, in mW -/
  lastGood : SMap Nat := []
  lastStep : SMap Nat := []
  lastDown : Option Nat := none
  /-- since when the average has stayed at or below 90 % of the envelope -/
  belowSince : Option Nat := none
  /-- stacks the envelope has lowered (R334) -/
  lowered : List Nat := []
  lastTick : Nat := 0
  deriving DecidableEq, Repr

structure Dvfs where
  target : Nat := 0
  /-- the point the running step goes to, and whether it is a repetition (R478) -/
  step : Option (Nat × Bool) := none
  deriving DecidableEq, Repr

/-! ### Host interface -/

/-- What the device sends to the host (R354): DMA writes, completion entries, ring indices, messages, read completions. -/
inductive DevWrite where
  | mem (addr : Nat) (bytes : List Byte)
  | msix (vector : Nat)
  | cpl (bytes : List Byte) (ep : Bool)
  | cfgCpl (value : Nat)
  | retry
  | reg (offset : Nat) (value : Nat)
  | flit (port : Nat) (bytes : List Byte)
  | packet (port kind stream argA argB : Nat) (bytes : List Byte)
  | i3c (port : Nat) (addr : Nat) (bytes : List Byte)
  | report (bytes : List Byte)
  deriving DecidableEq, Repr

/-- Configuration space the model keeps (R345 to R348, R360). -/
structure CfgSpace where
  command : BitVec 16 := 0
  bars : List Word := [0, 0, 0, 0, 0, 0]
  devCtl : BitVec 16 := 0
  devCtl2 : BitVec 16 := 0
  linkCtl : BitVec 16 := 0
  d3hot : Bool := false
  msixEn : Bool := false
  funcMask : Bool := false
  aerPoisoned : Bool := false
  deriving DecidableEq, Repr

structure HostIf where
  cfg : CfgSpace := {}
  cfgLoaded : Bool := false
  /-- MSI-X entries: address, data; masked unless listed in unmasked (R352) -/
  vecAddr : SMap Nat := []
  vecData : SMap Word := []
  unmasked : List Nat := []
  pba : List Nat := []
  apBase : Nat := 0
  held : List DevWrite := []
  sent : List DevWrite := []
  lossAt : Option Nat := none
  /-- units discarded per ring since creation, for LINK_DISCARD (R365) -/
  lossRec : Option (Nat × Nat × List (Nat × Nat)) := none
  /-- progress counters of the DMA engines (R418): queue q at q, ring r at 64 + r -/
  dma : SMap Nat := []
  deriving DecidableEq, Repr

structure Sq where
  base : Nat
  size : Nat
  cq : Nat
  head : Nat := 0
  tail : Nat := 0
  /-- a DELETE_SQ waits for this queue's commands: nothing more is fetched (R377) -/
  deleting : Bool := false
  deriving DecidableEq, Repr

structure Cq where
  base : Nat
  size : Nat
  vector : Nat
  head : Nat := 0
  tail : Nat := 0
  phase : Bool := true
  deriving DecidableEq, Repr

structure Ring where
  base : Nat
  size : Nat
  vector : Nat
  idxAddr : Nat
  write : Nat := 0
  read : Nat := 0
  discarded : Nat := 0
  deriving DecidableEq, Repr

structure Queues where
  sqs : SMap Sq := []
  cqs : SMap Cq := []
  rings : SMap Ring := []
  evRing : Option Nat := none
  evSeq : Nat := 0
  cmds : List Cmd := []
  /-- completion entries that wait for room in their queue: queue, cid, status, result (R370) -/
  cplWait : List (Nat × Nat × Nat × List Byte) := []
  wait : List WaitRec := []
  deriving DecidableEq, Repr

/-! ### DRAM controller (R388 to R412) -/

structure DramCh where
  /-- write queue: line (offset / 64) and data with byte enables, oldest first -/
  wq : List (Nat × List (Option Byte)) := []
  /-- read queue, oldest first: line, the younger reads that passed it, the data the order of arrival gives it (R400) -/
  rq : List (Nat × Nat × List Byte) := []
  draining : Bool := false
  /-- open row by bank key (rank × 16 + bank) -/
  rows : SMap Nat := []
  /-- refresh commands sent ahead (+) or behind per bank key, in sixteenths of a command -/
  debt : SMap Int := []
  rot : SMap Nat := []
  /-- times of uncorrectable codewords per die in the last 24 hours (R403) -/
  fails : List (Nat × Nat) := []
  /-- data of the last read served -/
  lastRead : Option (Nat × List Byte) := none
  deriving DecidableEq, Repr

structure Dram where
  chs : SMap DramCh := []
  hot : List Nat := []
  throttled : Bool := false
  /-- a rank record waits to be written to flash (R404) -/
  recDue : Bool := false
  deriving DecidableEq, Repr

/-! ### Recovery and the log -/

/-- A log entry (R443). -/
structure LogEntry where
  seq : Nat := 0
  time : Nat := 0
  code : Nat
  sub : Nat := 0
  unit : Nat := 0xFF
  flags : Nat := 0
  wher : Nat := 0xFFFF
  stream : Nat := 0xFFFF
  frame : Nat := 0
  addr : Nat := 0
  pc : Nat := 0
  deriving DecidableEq, Repr

/-- What the reset steps under way on a stack were started as: level 1, the level 1 of a replay that hung, level 2. -/
inductive ResetKind where
  | one | replay | two
  deriving DecidableEq, Repr

/-- A compute reset with the replays that follow it (R424 to R435): its level, the stacks it holds, those whose reset steps run
with since when and as what, the time of the declaration, the hung unit, the replays to do as (stack, checkpoint), the
suspects, whether one was marked FAULTED, the frame buffers it references (R430), and of claiming dispatches that go on the
generations lost and the claims to be orphaned (R223). -/
structure ResetRun where
  level : Nat
  onStacks : List Nat
  resetting : List (Nat × Nat × ResetKind)
  decl : Nat
  cause : Nat
  replays : List (Nat × Ckpt)
  affected : List Nat
  anyFaulted : Bool := false
  refs : List Nat := []
  gens : List Nat := []
  claims : List (Nat × Nat) := []
  deriving DecidableEq, Repr

structure Recov where
  /-- hang watch: unit -> counter, time of the first of the samples that found it unchanged and the unit busy, time of the last
  sample (R419) -/
  samples : SMap (Nat × Nat × Nat) := []
  /-- the compute resets under way: each stack is held by at most one -/
  resets : List ResetRun := []
  /-- times of the level-1 resets (stack, time), level-2 and level-3 resets (R426, R440) -/
  l1 : List (Nat × Nat) := []
  l2 : List Nat := []
  l3 : List Nat := []
  /-- unit resets under way: unit, start (R421) -/
  units : List (Nat × Nat) := []
  unitHangs : List (Nat × Nat) := []
  deadUnits : List Nat := []
  log : List LogEntry := []
  /-- events per (code × 256 + unit) in the present aligned second, and that second (R444) -/
  secCount : SMap Nat := []
  second : Nat := 0
  /-- code of the cause of the level-3 reset under way, and the silent core the log names after it (R420, R439) -/
  l3cause : Option (Nat × Option Nat) := none
  /-- poison repairs under way: image, bank address, oldest first (R416) -/
  repair : List (Nat × Nat) := []
  limit : Bool := false
  deriving DecidableEq, Repr

/-! ### Goldom links and groups -/

/-- A packet on its way: virtual channel, header and data bytes, poison of its data, and the port and channel whose buffer it
holds while it is passed on (R449, R452). -/
structure FPkt where
  vc : Nat
  bytes : List Byte
  poison : Bool := false
  src : Option (Nat × Nat) := none
  deriving DecidableEq, Repr

structure FabPort where
  /-- next link sequence to send, next expected -/
  txSeq : Nat := 0
  rxSeq : Nat := 0
  /-- packets not yet acknowledged, with their sequences (R451) -/
  replay : List (Nat × FPkt) := []
  /-- credits per virtual channel; unlisted: 32 (R452) -/
  credits : SMap Nat := []
  /-- NAKs in succession for one sequence, that sequence, and retrains that failed in succession (R451) -/
  naks : Nat := 0
  nakSeq : Nat := 0
  fails : Nat := 0
  /-- the packet being received: its flits, their virtual channel, whether one was poisoned -/
  rx : List (List Byte) := []
  rxVc : Nat := 0
  rxPoison : Bool := false
  /-- packets wait for credit or for room in the replay buffer -/
  queue : List FPkt := []
  /-- a retrain is due: nothing is sent until it ends -/
  training : Bool := false
  /-- time of the last retrain that left the port down -/
  tryAt : Nat := 0
  deriving DecidableEq, Repr

/-- A stream entry of the group map (R456). -/
structure GEntry where
  homeStream : Nat
  homeDev : Nat
  partDev : Nat
  partStream : Nat
  warm : Bool
  activeHome : Bool
  prot : Bool
  deriving DecidableEq, Repr

structure GDev where
  serial : Nat
  peers : List Nat
  peerPorts : List Nat
  deriving DecidableEq, Repr

structure GMap where
  groupId : Nat
  gen : Nat
  size : Nat
  topo : Nat
  x : Nat
  y : Nat
  self : Nat
  devs : List GDev
  entries : List GEntry
  deriving DecidableEq, Repr

/-- A standby stream's mirrored state (R461, R462): last frame of a delta, last mirrored chunk, whether it is committed, and
whether the stream has been promoted without a FEED since. -/
structure Standby where
  deltaFrame : Option Nat := none
  lastChunk : List Byte := []
  committed : Bool := true
  fresh : Bool := false
  deriving DecidableEq, Repr

structure Fabric where
  ports : SMap FabPort := []
  map : Option GMap := none
  standby : SMap Standby := []
  /-- commands that wait for the partner's ACK: stream, queue, cid, sent at (R460) -/
  waitAck : List (Nat × Nat × Nat × Nat) := []
  /-- transfers of several packets that are being received, by (source × 8 + type) × 65,536 + stream -/
  xfer : SMap (List Byte) := []
  /-- last notice received about each device: its code (R459) -/
  seen : SMap Nat := []
  /-- the map a GROUP_JOIN is installing (R457), and the ports it, or a rejoin after a level-3 reset, waits for -/
  join : Option GMap := none
  joinWait : List Nat := []
  /-- UP is due when the rejoin completes (R459) -/
  rejoin : Bool := false
  deriving DecidableEq, Repr

/-! ### Power, clocks, pins, non-volatile data -/

/-- The device-wide phase; GLB_ALIVE.state is its code (R366, R466). -/
inductive Phase where
  | booting | ready | resetting | dusk | night | dawn
  deriving DecidableEq, Repr

/-- A firmware slot of the flash as the boot ROM reads it (R493, R494): hash of its public key, whether its signature verifies
under that key and its first stage and stages match their hashes, and the fields of its header. -/
structure FwSlot where
  keyHash : List Byte
  sigOk : Bool
  hashOk : Bool
  rollback : Nat := 0
  version : Nat := 0
  revoke : Nat := 0
  commit : Bool := false
  /-- hash1, hash2, hash_nc -/
  hashes : List Byte := []
  deriving DecidableEq, Repr

structure Power where
  phase : Phase := .booting
  /-- the boot or restart is complete (R359) -/
  booted : Bool := false
  /-- the firmware that the boot ROM started; none: it has not, or waits in recovery (R494, R495) -/
  fw : Option FwSlot := none
  /-- the device has read READY since this boot (R497, R498) -/
  wasReady : Bool := false
  duskStart : Option Nat := none
  /-- a sleep request waits for the end of Dawn's entry steps -/
  sleepPending : Bool := false
  lastActive : Nat := 0
  /-- rails: groups raised (0 to 4) and whether the last raised one is regulated (R516) -/
  groups : Nat := 0
  groupOk : Bool := false
  failed : Bool := false
  failAt : Nat := 0
  tripped : Bool := false
  thermal : Bool := false
  /-- the DRAM has not been initialised since power-on (R407) -/
  cold : Bool := true
  /-- Dawn follows Night: pools 0 to 47 and the sets come back from Night's copies (R204, R470) -/
  restore : Bool := false
  lastThermalStep : Nat := 0
  deriving DecidableEq, Repr

structure Clocks where
  /-- sources whose output has stopped: 2 PLL_ARR0 .. 5 PLL_DRAM -/
  dead : List Nat := []
  /-- source each domain's multiplexer is connected to -/
  conn : SMap Nat := []
  fmeter : Bool := false
  switchAt : SMap Nat := []
  /-- the wake time in force: the last write of CPR_WAKE_TIME_HI applied it (R488) -/
  wakeTime : Nat := 0
  deriving DecidableEq, Repr

structure Pins where
  poresetLow : Bool := true
  perstLow : Bool := true
  strap0 : Bool := false
  strap1 : Bool := false
  deriving DecidableEq, Repr

/-- Fuses and flash (R46, R49, R345, R348, R404, R492 to R502). The contents at power-on are the model's (log entry 3). -/
structure NonVol where
  /-- factory set of bypassed columns by core, as a mask -/
  factory : SMap Nat := []
  /-- field set by core, ascending -/
  field : SMap (List Nat) := []
  apLog2 : Nat := 30
  subsys : Nat := 0
  slots : List FwSlot := [{ keyHash := [0], sigOk := true, hashOk := true }]
  /-- hash in each of the four key slots, revoke fuses, blown anti-rollback fuses -/
  keySlots : List (List Byte) := [[0], [], [], []]
  revoked : Nat := 0
  rollback : Nat := 0
  custKey : Option (List Byte) := none
  enforce : Bool := false
  makers : List (List Byte) := []
  serial : Nat := 0
  /-- the part is a ZV7720BI (R521) -/
  ordBI : Bool := false
  cert : List Byte := []
  /-- rank record: DRC_CH_MAP per channel, and the lost blocks -/
  rankRec : SMap Nat := []
  lostRec : Nat := 0
  deriving DecidableEq, Repr

structure Otp where
  data : SMap Word := []
  running : Option Nat := none
  recWin : SMap Byte := []
  deriving DecidableEq, Repr

/-- The security engine's index discipline (R503 to R506). -/
structure Sec where
  /-- signing-epoch fuses: 1 blown, 2 blown but its read-back failed; unlisted: not blown -/
  fuses : SMap Nat := []
  epochsUsed : Nat := 0
  next : Nat := 0
  checkOk : Bool := false
  epochOpen : Bool := false
  /-- indices taken, newest first (model's own trace) -/
  spent : List Nat := []
  /-- the index taken for the signature under way (R505, R508) -/
  cur : Option Nat := none
  deriving DecidableEq, Repr

/-- The time base (R487, R489). -/
structure TimeBase where
  time : Nat := 0
  frac : Nat := 0
  running : Bool := false
  night : Bool := false
  refN : Nat := 25000000
  deriving DecidableEq, Repr

/-- A readout scratch table in use: set, table, slot, whether its kernel has been dispatched (R206, R207). -/
structure Scratch where
  base : Nat
  tbl : Nat
  slot : Nat
  core : Option Nat := none
  deriving DecidableEq, Repr

/-- A readout request being served (R206, R207): slots still to serve as (set, slot), scratch tables built. -/
structure Readout where
  stream : Nat
  frame : Nat
  q : Nat
  cid : Nat
  slots : List (Nat × Nat)
  scratch : List Scratch
  emitted : Nat
  deriving DecidableEq, Repr

/-- A sequence set: context, req_id, region address, and whether its memory was lost (R184, R204). -/
structure SeqSet where
  ctx : Nat
  req : Nat
  base : Nat
  lost : Bool := false
  /-- parents of joins not yet admitted, by stream × Q + slot (R201) -/
  pend : SMap Nat := []
  /-- in Night: spill buffers that hold the region's copy, and those that hold its cabinet pages (R204) -/
  copy : List Nat := []
  moved : List Nat := []
  deriving DecidableEq, Repr

/-- Everything but the queue, the time base and the signing indices. -/
structure Dev where
  now : Nat := 0
  freeCtr : Nat := 0
  mem : Memory := {}
  regs : SMap Word := []
  cores : SMap Core := []
  stool : SMap StoolEng := []
  home : Home := {}
  bpm : Bpm := {}
  images : SMap Image := []
  ctxs : SMap Ctx := []
  streams : SMap Stream := []
  sets : List SeqSet := []
  readouts : List Readout := []
  engines : SMap Engine := []
  jpeg : Jpeg := {}
  pipes : SMap Pipe := []
  ports : SMap Port := []
  sched : Sched := {}
  gov : Gov := {}
  dvfs : SMap Dvfs := []
  host : HostIf := {}
  que : Queues := {}
  dram : Dram := {}
  recov : Recov := {}
  fab : Fabric := {}
  pwr : Power := {}
  clk : Clocks := {}
  pins : Pins := {}
  nv : NonVol := {}
  otp : Otp := {}
  deriving DecidableEq, Repr

/-- The state of the block: the commands waiting, first in first out, the time base, the signing indices, the rest. -/
structure State where
  pending : List Instr := []
  tb : TimeBase := {}
  sec : Sec := {}
  d : Dev := {}
  deriving DecidableEq, Repr

/-- Why a step could stop. No meaning of this model ends in a fault: every fault code of R414 is an effect on State. -/
inductive Fault where
  /-- Raised by nothing: the block has no stop of its own (R414: faults abort kernels, void frames, fill status bytes). Safe. -/
  | none
  deriving DecidableEq, Repr

/-- Why a command could be refused. -/
inductive Refusal where
  /-- Raised by an arm of exec whose command has no meaning yet; safe: nothing is claimed of it. -/
  | notModelled (mnemonic : String)
  deriving DecidableEq, Repr

/-- The block after power-on: PORESET_N low, rails off, every register at the Reset column of its table (R6). -/
def State.reset : State := { d := { regs := resetRegs } }

end Sys2Proof.Machine
end

