-- ==== Sys2Proof/Machine/Map.lean ====
section
/-!
DEFINITION. Sparse maps and byte strings: look-up, update and removal on SMap, little-endian fields, bit fields of a
number. Keys stay strictly rising under every update.
-/

namespace Sys2Proof.Machine

/-- The value at key k, if listed. -/
def mget {α : Type} : SMap α → Nat → Option α
  | [], _ => none
  | (j, v) :: r, k => if j = k then some v else mget r k

/-- The value at key k, or the map's default. -/
def mgetD {α : Type} (m : SMap α) (k : Nat) (dflt : α) : α := (mget m k).getD dflt

/-- m with v at key k. -/
def mput {α : Type} : SMap α → Nat → α → SMap α
  | [], k, v => [(k, v)]
  | (j, w) :: r, k, v => if k < j then (k, v) :: (j, w) :: r else if k = j then (k, v) :: r else (j, w) :: mput r k v

/-- m without key k. -/
def mdel {α : Type} (m : SMap α) (k : Nat) : SMap α := m.filter fun p => p.1 ≠ k

/-- m with the entry at k passed through f (from the default if it is not listed). -/
def mmod {α : Type} (m : SMap α) (k : Nat) (dflt : α) (f : α → α) : SMap α := mput m k (f (mgetD m k dflt))

/-- m with v at key k, where an entry equal to the default is not listed. -/
def mset {α : Type} [DecidableEq α] (m : SMap α) (k : Nat) (dflt v : α) : SMap α :=
  if v = dflt then mdel m k else mput m k v

/-- m with f applied to every listed value. -/
def mmap {α : Type} (m : SMap α) (f : Nat → α → α) : SMap α := m.map fun p => (p.1, f p.1 p.2)

/-- The canonical form: keys strictly rise. -/
def SMap.wf {α : Type} : SMap α → Bool
  | [] => true
  | [_] => true
  | (a, _) :: (b, w) :: r => decide (a < b) && SMap.wf ((b, w) :: r)

/-! ### Bits and bytes -/

/-- Bits [lsb + w − 1 : lsb] of n. -/
def bits (n lsb w : Nat) : Nat := n / 2 ^ lsb % 2 ^ w

/-- Bit i of n. -/
def bit (n i : Nat) : Bool := n.testBit i

/-- n read as a signed number of w bits. -/
def sext (n w : Nat) : Int := if n.testBit (w - 1) then (n % 2 ^ w : Int) - 2 ^ w else (n % 2 ^ w : Nat)

/-- n as w bits in two's complement. -/
def toU (n : Int) (w : Nat) : Nat := (n % (2 ^ w : Int)).toNat

/-- Byte i of a string; beyond its end 0. -/
def byteAt (l : List Byte) (i : Nat) : Nat := (l.getD i 0).toNat

/-- The little-endian number of n bytes at offset o (R56). -/
def le (l : List Byte) (o : Nat) : Nat → Nat
  | 0 => 0
  | n + 1 => byteAt l o + 256 * le l (o + 1) n

/-- v as n little-endian bytes. -/
def toLE : Nat → Nat → List Byte
  | 0, _ => []
  | n + 1, v => BitVec.ofNat 8 v :: toLE n (v / 256)

/-- n zero bytes. -/
def zeros (n : Nat) : List Byte := List.replicate n 0

/-- Bytes [o, o + n) of a string, zeros beyond its end. -/
def slice (l : List Byte) (o n : Nat) : List Byte := (List.range n).map fun i => l.getD (o + i) 0

/-- l padded with zeros (or cut) to n bytes. -/
def padTo (l : List Byte) (n : Nat) : List Byte := slice l 0 n

/-- l with the bytes at offset o replaced by b. -/
def patch (l : List Byte) (o : Nat) (b : List Byte) : List Byte := l.take o ++ b ++ l.drop (o + b.length)

/-- Every byte of [lo, hi) is 0. -/
def allZero (l : List Byte) (lo hi : Nat) : Bool := ((l.take hi).drop lo).all (· = 0)

/-- The quotient rounded up. -/
def cdiv (a b : Nat) : Nat := (a + b - 1) / b

/-- Saturating addition. -/
def satAdd (a b lim : Nat) : Nat := min lim (a + b)

/-- x clamped to [lo, hi]. -/
def clampI (x lo hi : Int) : Int := max lo (min hi x)

/-- The number of set bits among the low w bits of n. -/
def popcount (n w : Nat) : Nat := ((List.range w).filter fun i => n.testBit i).length

/-- The first index of the list at which p holds. -/
def findIx {α : Type} (l : List α) (p : α → Bool) : Option Nat := l.findIdx? p

/-- l without repeats, first occurrences kept. -/
def dedup (l : List Nat) : List Nat := l.foldl (fun acc x => if acc.contains x then acc else acc ++ [x]) []

/-- The elements of a list of options that are there. -/
def somes {α : Type} (l : List (Option α)) : List α := l.filterMap id

end Sys2Proof.Machine
end

