-- ==== Sys2Proof/Machine/Float.lean ====
section
/-!
DEFINITION. Floating point as the vector unit evaluates it (R43, R45): formats, exact dyadic values, rounding to nearest
even with subnormals flushed, and the arithmetic over them.
-/

namespace Sys2Proof.Machine

/-- A format: exponent bits and mantissa bits. -/
structure Fmt where
  eb : Nat
  mb : Nat
  deriving DecidableEq, Repr

def fp16 : Fmt := ⟨5, 10⟩
def bf16 : Fmt := ⟨8, 7⟩
def fp32 : Fmt := ⟨8, 23⟩

def Fmt.bias (f : Fmt) : Int := 2 ^ (f.eb - 1) - 1

/-- An exact value: ±m · 2^e, an infinity, or NaN. -/
inductive FV where
  | nan
  | inf (neg : Bool)
  | num (neg : Bool) (m : Nat) (e : Int)
  deriving DecidableEq, Repr

/-- The value of a bit pattern; a subnormal is flushed to zero with its sign (R43). -/
def Fmt.unpack (f : Fmt) (b : Nat) : FV :=
  let neg := b.testBit (f.eb + f.mb)
  let ex := bits b f.mb f.eb
  let fr := b % 2 ^ f.mb
  if ex = 2 ^ f.eb - 1 then (if fr = 0 then .inf neg else .nan)
  else if ex = 0 then .num neg 0 0
  else .num neg (2 ^ f.mb + fr) ((ex : Int) - f.bias - f.mb)

/-- m / 2^sh rounded to nearest, ties to even. -/
def rneShift (m sh : Nat) : Nat :=
  let q := m / 2 ^ sh
  let r := m % 2 ^ sh
  if 2 ^ sh < 2 * r ∨ (2 ^ sh = 2 * r ∧ q % 2 = 1) then q + 1 else q

/-- m · 2^e rounded to an integer, ties to even. -/
def rneInt (m : Nat) (e : Int) : Nat := if 0 ≤ e then m * 2 ^ e.toNat else rneShift m (-e).toNat

/-- The bit pattern of a value rounded to the format: overflow to infinity, a subnormal result flushed (R43). -/
def Fmt.pack (f : Fmt) : FV → Nat
  | .nan => (2 ^ f.eb - 1) * 2 ^ f.mb + 2 ^ (f.mb - 1)
  | .inf neg => (2 ^ f.eb - 1) * 2 ^ f.mb + (if neg then 2 ^ (f.eb + f.mb) else 0)
  | .num neg m e =>
    let s := if neg then 2 ^ (f.eb + f.mb) else 0
    if m = 0 then s
    else
      let emin := 1 - f.bias
      let ee := max (e + (m.log2 : Int)) emin
      let r := rneInt m (e - (ee - f.mb))
      let mag := if r < 2 ^ f.mb then 0 else ((ee + f.bias).toNat) * 2 ^ f.mb + (r - 2 ^ f.mb)
      if (2 ^ f.eb - 1) * 2 ^ f.mb ≤ mag then (2 ^ f.eb - 1) * 2 ^ f.mb + s else mag + s

/-- A value rounded to a format and read back. -/
def Fmt.rnd (f : Fmt) (v : FV) : FV := f.unpack (f.pack v)

def FV.isNan : FV → Bool
  | .nan => true
  | _ => false

def FV.isZero : FV → Bool
  | .num _ m _ => m = 0
  | _ => false

def FV.neg : FV → FV
  | .nan => .nan
  | .inf s => .inf (!s)
  | .num s m e => .num (!s) m e

def FV.abs : FV → FV
  | .nan => .nan
  | .inf _ => .inf false
  | .num _ m e => .num false m e

def FV.ofInt (n : Int) : FV := .num (decide (n < 0)) n.natAbs 0

/-- The signed mantissa of a finite value at exponent e0 (at most its own). -/
def FV.at (s : Bool) (m : Nat) (e e0 : Int) : Int :=
  let v : Int := m * 2 ^ (e - e0).toNat
  if s then -v else v

def FV.add : FV → FV → FV
  | .nan, _ => .nan
  | _, .nan => .nan
  | .inf a, .inf b => if a = b then .inf a else .nan
  | .inf a, _ => .inf a
  | _, .inf b => .inf b
  | .num s m e, .num t n g =>
    let e0 := min e g
    let v := FV.at s m e e0 + FV.at t n g e0
    if v = 0 then .num (s && t) 0 0 else .num (decide (v < 0)) v.natAbs e0

def FV.sub (a b : FV) : FV := a.add b.neg

def FV.mul : FV → FV → FV
  | .nan, _ => .nan
  | _, .nan => .nan
  | .inf a, .inf b => .inf (a != b)
  | .inf a, .num t n _ => if n = 0 then .nan else .inf (a != t)
  | .num s m _, .inf b => if m = 0 then .nan else .inf (s != b)
  | .num s m e, .num t n g => .num (s != t) (m * n) (e + g)

/-- The quotient, exact to a sticky bit below the precision of FP32. -/
def FV.div : FV → FV → FV
  | .nan, _ => .nan
  | _, .nan => .nan
  | .inf _, .inf _ => .nan
  | .inf a, .num t _ _ => .inf (a != t)
  | .num s _ _, .inf b => .num (s != b) 0 0
  | .num s m e, .num t n g =>
    if n = 0 then (if m = 0 then .nan else .inf (s != t))
    else if m = 0 then .num (s != t) 0 0
    else
      let k := n.log2 + 30
      let q := m * 2 ^ k / n
      let sticky := if m * 2 ^ k % n = 0 then 0 else 1
      .num (s != t) (2 * q + sticky) (e - g - k - 1)

/-- a < b on numbers; false with a NaN. -/
def FV.lt : FV → FV → Bool
  | .nan, _ => false
  | _, .nan => false
  | .inf a, .inf b => a && !b
  | .inf a, _ => a
  | _, .inf b => !b
  | .num s m e, .num t n g => let e0 := min e g; decide (FV.at s m e e0 < FV.at t n g e0)

/-- a = b on numbers; +0 equals −0. -/
def FV.eq : FV → FV → Bool
  | .nan, _ => false
  | _, .nan => false
  | .inf a, .inf b => a = b
  | .inf _, _ => false
  | _, .inf _ => false
  | .num s m e, .num t n g => let e0 := min e g; decide (FV.at s m e e0 = FV.at t n g e0)

/-- MIN and MAX: a NaN operand gives NaN (R43). -/
def FV.minMax (mx : Bool) (a b : FV) : FV :=
  if a.isNan || b.isNan then .nan
  else if a.isZero && b.isZero && a ≠ b then .num (Config.minMaxZero mx) 0 0
  else if a.lt b then (if mx then b else a) else (if mx then a else b)

/-- Rounded to an integer, ties to even; infinities and NaN have none. -/
def FV.toInt : FV → Option Int
  | .num s m e => some (if s then -(rneInt m e : Int) else rneInt m e)
  | _ => none

/-! ### FP32 steps of SOFTMAX, ROWSTAT and NORM -/

def f32 (v : FV) : FV := fp32.rnd v
def f32add (a b : FV) : FV := f32 (a.add b)
def f32sub (a b : FV) : FV := f32 (a.sub b)
def f32mul (a b : FV) : FV := f32 (a.mul b)
def f32div (a b : FV) : FV := f32 (a.div b)
def f32exp (a : FV) : FV := if a.isNan then .nan else fp32.unpack (Config.exp32 (fp32.pack a))
def f32sqrt (a : FV) : FV := if a.isNan then .nan else fp32.unpack (Config.sqrt32 (fp32.pack a))

end Sys2Proof.Machine
end

