-- ==== Sys2Proof/Machine/Code.lean ====
section
/-!
DEFINITION. The word code RS(36,33) over GF(2^8) (R235 to R238) and the hash SHAKE256 that R57, R497 and R507 name.
-/

namespace Sys2Proof.Machine

/-! ### GF(2^8) (R235) -/

/-- α times b: the polynomial 0x11D. -/
def gfX (b : Byte) : Byte := if b.msb then (b <<< 1) ^^^ 0x1D else b <<< 1

/-- b times α to the k. -/
def gfPow : Nat → Byte → Byte
  | 0, b => b
  | k + 1, b => gfPow k (gfX b)

/-- The product in GF(2^8). -/
def gfMul (a b : Byte) : Byte :=
  (List.range 8).foldl (fun acc i => if b.getLsbD i then acc ^^^ gfPow i a else acc) 0

/-! ### The code -/

/-- One step of the division by g(x) = x^3 + 0x07 x^2 + 0x0E x + 0x08: remainder (r0, r1, r2) and the next symbol. -/
def rsStep (r : Byte × Byte × Byte) (c : Byte) : Byte × Byte × Byte :=
  let fb := c ^^^ r.2.2
  (gfMul fb 0x08, r.1 ^^^ gfMul fb 0x0E, r.2.1 ^^^ gfMul fb 0x07)

/-- The check symbols c0, c1, c2 of the 33 symbols c3 to c35 (R236). -/
def rsCheck (m : List Byte) : Byte × Byte × Byte := m.reverse.foldl rsStep (0, 0, 0)

/-- The 36 symbols of 32 data bytes and a tag (R235). -/
def rsEncode (data : List Byte) (tag : Byte) : List Byte :=
  let m := padTo data 32 ++ [tag]
  let r := rsCheck m
  [r.1, r.2.1, r.2.2] ++ m

/-- The syndrome S_k of a codeword (R237). -/
def rsSyn (c : List Byte) (k : Nat) : Byte := c.reverse.foldl (fun acc x => gfPow k acc ^^^ x) 0

/-- What a reader makes of the syndromes (R237): accepted, one symbol to be corrected by a value, uncorrectable. -/
inductive RsRes where
  | ok
  | fix (p : Nat) (e : Byte)
  | bad
  deriving DecidableEq, Repr

def rsJudge (s0 s1 s2 : Byte) : RsRes :=
  if s0 = 0 ∧ s1 = 0 ∧ s2 = 0 then .ok
  else if s0 ≠ 0 ∧ s1 ≠ 0 ∧ s2 ≠ 0 ∧ gfMul s1 s1 = gfMul s0 s2 then
    match (List.range 36).find? fun p => gfPow p s0 = s1 with
    | some p => .fix p s0
    | none => .bad
  else .bad

/-- What a reader makes of 36 symbols. -/
def rsDecode (c : List Byte) : RsRes := rsJudge (rsSyn c 0) (rsSyn c 1) (rsSyn c 2)

/-- The same, from the difference of the stored check symbols from the encoder's: the code is linear. -/
def rsDelta (x : BitVec 24) : RsRes :=
  let c := [x.extractLsb' 0 8, x.extractLsb' 8 8, x.extractLsb' 16 8]
  rsJudge (rsSyn c 0) (rsSyn c 1) (rsSyn c 2)

/-! ### SHAKE256 (FIPS 202; log entry 8) -/

abbrev Lane := BitVec 64

/-- Rotation offsets by lane x + 5 y. -/
def keccakRot : List Nat :=
  [0, 1, 62, 28, 27, 36, 44, 6, 55, 20, 3, 10, 43, 25, 39, 41, 45, 15, 21, 8, 18, 2, 61, 56, 14]

def keccakRC : List Lane :=
  [0x0000000000000001, 0x0000000000008082, 0x800000000000808A, 0x8000000080008000,
   0x000000000000808B, 0x0000000080000001, 0x8000000080008081, 0x8000000000008009,
   0x000000000000008A, 0x0000000000000088, 0x0000000080008009, 0x000000008000000A] ++
  [0x000000008000808B, 0x800000000000008B, 0x8000000000008089, 0x8000000000008003,
   0x8000000000008002, 0x8000000000000080, 0x000000000000800A, 0x800000008000000A,
   0x8000000080008081, 0x8000000000008080, 0x0000000080000001, 0x8000000080008008]

def lane (a : List Lane) (x y : Nat) : Lane := a.getD (x % 5 + 5 * (y % 5)) 0

/-- One round of Keccak-f[1600]: θ, ρ, π, χ, ι. -/
def keccakRound (a : List Lane) (rc : Lane) : List Lane :=
  let c := (List.range 5).map fun x => lane a x 0 ^^^ lane a x 1 ^^^ lane a x 2 ^^^ lane a x 3 ^^^ lane a x 4
  let dd := (List.range 5).map fun x => c.getD ((x + 4) % 5) 0 ^^^ (c.getD ((x + 1) % 5) 0).rotateLeft 1
  let t := (List.range 25).map fun i => a.getD i 0 ^^^ dd.getD (i % 5) 0
  let b := (List.range 25).map fun i =>
    let x := i % 5
    let y := i / 5
    let sx := (x + 3 * y) % 5
    let src := sx + 5 * x
    (t.getD src 0).rotateLeft (keccakRot.getD src 0)
  let e := (List.range 25).map fun i =>
    let x := i % 5
    let y := i / 5
    lane b x y ^^^ (~~~ lane b (x + 1) y &&& lane b (x + 2) y)
  match e with
  | [] => []
  | h :: r => (h ^^^ rc) :: r

def keccakF (a : List Lane) : List Lane := keccakRC.foldl keccakRound a

/-- The state with one block of 136 bytes absorbed. -/
def absorb (a : List Lane) (blk : List Byte) : List Lane :=
  keccakF ((List.range 25).map fun i =>
    if i < 17 then a.getD i 0 ^^^ BitVec.ofNat 64 (le blk (8 * i) 8) else a.getD i 0)

/-- Full blocks absorbed, with fuel for the number of blocks; the padded rest last. -/
def absorbAll : Nat → List Lane → List Byte → List Lane
  | 0, a, _ => a
  | n + 1, a, m =>
    if 136 ≤ m.length then absorbAll n (absorb a (m.take 136)) (m.drop 136)
    else
      let p := padTo (m ++ [0x1F]) 136
      absorb a (p.take 135 ++ [p.getD 135 0 ||| 0x80])

/-- The first n bytes (n at most 136) of SHAKE256 over m. -/
def shake256 (m : List Byte) (n : Nat) : List Byte :=
  let a := absorbAll (m.length / 136 + 1) (List.replicate 25 0) m
  (a.flatMap fun l => toLE 8 l.toNat).take n

end Sys2Proof.Machine
end

