-- ==== Sys2Proof/Machine/RegOps.lean ====
section
/-!
DEFINITION. Named operations on the registers of BAR0: reading and setting a register or a field, the access codes of R4,
saturating and wrapping counters.
-/

namespace Sys2Proof.Machine

/-- The register at a BAR0 offset, as last written or set. -/
def Dev.reg (d : Dev) (off : Nat) : Nat := (mgetD d.regs off 0).toNat

/-- d with the register at off holding v. -/
def Dev.setReg (d : Dev) (off v : Nat) : Dev := { d with regs := mset d.regs off 0 (BitVec.ofNat 32 v) }

/-- The field of a register value. -/
def Fld.get (f : Fld) (v : Nat) : Nat := bits v f.lsb f.w

/-- A register value with the field replaced by n (its low bits). -/
def Fld.put (f : Fld) (v n : Nat) : Nat :=
  v / 2 ^ (f.lsb + f.w) * 2 ^ (f.lsb + f.w) + n % 2 ^ f.w * 2 ^ f.lsb + v % 2 ^ f.lsb

/-- A field of a register. -/
def Dev.fld (d : Dev) (off : Nat) (f : Fld) : Nat := f.get (d.reg off)

/-- d with a field of a register set. -/
def Dev.setFld (d : Dev) (off : Nat) (f : Fld) (n : Nat) : Dev := d.setReg off (f.put (d.reg off) n)

/-- d with n added to a field that saturates. -/
def Dev.satFld (d : Dev) (off : Nat) (f : Fld) (n : Nat) : Dev :=
  d.setFld off f (min (2 ^ f.w - 1) (d.fld off f + n))

/-- d with n added to a field that wraps. -/
def Dev.wrapFld (d : Dev) (off : Nat) (f : Fld) (n : Nat) : Dev := d.setFld off f (d.fld off f + n)

/-- The offset belongs to a register of the family. -/
def RegDef.hit (r : RegDef) (off : Nat) : Bool :=
  match r.dims with
  | [] => off = r.base
  | [(s, n)] => r.base ≤ off && (off - r.base) % s = 0 && (off - r.base) / s < n
  | (s, n) :: (t, m) :: _ =>
    r.base ≤ off && (off - r.base) / s < n && (off - r.base) % s % t = 0 && (off - r.base) % s / t < m

/-- The register family at an offset; none: the offset lies in no register (R349). -/
def findReg (off : Nat) : Option RegDef := regTable.find? fun r => r.hit off

/-- The value a write of v leaves under the access codes of R4: RW bits take v, RW1C bits are cleared by 1, RW1S bits are
set by 1, every other bit is kept. -/
def RegDef.written (r : RegDef) (old v : Nat) : Nat :=
  (v &&& r.rw) ||| (old &&& ((2 ^ 32 - 1) ^^^ r.rw) &&& ((2 ^ 32 - 1) ^^^ (v &&& r.w1c))) ||| (v &&& r.w1s)

/-- A write of v to the register at off, by the access codes of its table (R4, R5, R349). -/
def Dev.busWrite (d : Dev) (off v : Nat) : Dev :=
  match findReg off with
  | none => d
  | some r => d.setReg off (r.written (d.reg off) v)

/-- A read of the register at off: the value, and the register after it; RC fields are cleared (R4, R349). -/
def Dev.busRead (d : Dev) (off : Nat) : Nat × Dev :=
  match findReg off with
  | none => (0, d)
  | some r => (d.reg off, d.setReg off (d.reg off &&& ((2 ^ 32 - 1) ^^^ r.rc)))

/-- A host access to a BAR0 offset is performed: GLB_ and CPR_ always, nothing else in Night, TEL_ and SEC_ before the boot
or restart is complete, the other blocks after it (R358, R359). -/
def Dev.regOpen (d : Dev) (off : Nat) : Bool :=
  let b := off / 65536
  b ≤ 1 || (d.pwr.phase ≠ .night && (b = 4 || b = 5 || d.pwr.booted))

/-- A bit of a register, as a truth value. -/
def Dev.flag (d : Dev) (off : Nat) (f : Fld) : Bool := d.fld off f ≠ 0

/-- A truth value as a bit. -/
def b2n (b : Bool) : Nat := if b then 1 else 0

/-- A fresh free value (log entry 4), and d with the counter advanced. -/
def Dev.fresh (d : Dev) : Nat × Dev := (Config.freeValue d.freeCtr, { d with freeCtr := d.freeCtr + 1 })

end Sys2Proof.Machine
end

