-- ==== Sys2Proof/Machine/Post.lean ====
section
/-!
DEFINITION. What the device reports: the telemetry and error log (R443, R444), HEALTH events (R373, R385, R444), records
(R384, R527), writes to the host (R354, R363), MSI-X vectors (R353) and completion entries (R370).
-/

namespace Sys2Proof.Machine

/-- A unit is being reset, or is out of service (R421, R422). Units have the codes of Table Unit codes; the DMA engine of queue q
is 0x100 + q here, of ring r 0x200 + r. -/
def Dev.unitOut (d : Dev) (u : Nat) : Bool := (d.recov.units.any fun x => x.1 = u) || d.recov.deadUnits.contains u

/-- The ready bit of a domain's own PLL: domains are array 0, array 1, spine, media, control, DRAM (R475, CPR_CLK_SEL). -/
def pllOf (dom : Nat) : Nat := if dom = 0 then 2 else if dom = 1 then 3 else if dom = 5 then 5 else 4

/-- The source a domain is connected to gives a clock (R480). -/
def Dev.clocked (d : Dev) (dom : Nat) : Bool := !(mgetD d.clk.conn dom 0 = 2 && d.clk.dead.contains (pllOf dom))

/-! ### The log -/

/-- One entry appended; the newest overwrites the oldest of 65,536 (R443). -/
def Dev.logRaw (d : Dev) (e : LogEntry) : Dev :=
  let seq := d.fld R.TEL_LOG_HEAD F.TEL_LOG_HEAD_next
  { (d.setFld R.TEL_LOG_HEAD F.TEL_LOG_HEAD_next (seq + 1)) with
    recov := { d.recov with log := ({ e with seq := seq } :: d.recov.log).take 65536 } }

/-- The summary entries of the second that ends (R444). -/
def Dev.logSummaries (d : Dev) : Dev :=
  d.recov.secCount.foldl (fun d p =>
    if p.2 ≤ 64 then d
    else d.logRaw { code := p.1 / 256, unit := p.1 % 256, time := (d.recov.second + 1) * 10 ^ 8, flags := 1,
                    frame := p.2 - 64 }) d

/-- Device time leaves the aligned second, if it has: summaries are written and the counts start again (R444). -/
def Dev.logRoll (d : Dev) : Dev :=
  if d.now / 10 ^ 8 = d.recov.second then d
  else
    let d := d.logSummaries
    { d with recov := { d.recov with secCount := [], second := d.now / 10 ^ 8 } }

/-- One event logged at the present device time, or only counted after 64 of its code and unit in one second (R444). -/
def Dev.logEv (d : Dev) (e : LogEntry) : Dev :=
  let d := d.logRoll
  let key := e.code * 256 + e.unit
  let n := mgetD d.recov.secCount key 0
  let d := { d with recov := { d.recov with secCount := mput d.recov.secCount key (n + 1) } }
  if n < 64 then d.logRaw { e with time := d.now } else d

/-! ### To the host -/

/-- The link is up and the function may master the bus (R363, R364). -/
def Dev.linkUp (d : Dev) : Bool :=
  d.flag R.HIF_LINK_STATUS F.HIF_LINK_STATUS_dl_up && d.host.cfg.command.getLsbD 2

/-- A device write: sent in order, or held in the stream store while the link is down (R354, R363). -/
def Dev.send (d : Dev) (w : DevWrite) : Dev :=
  if d.linkUp then { d with host := { d.host with sent := d.host.sent ++ [w] } }
  else { d with host := { d.host with held := d.host.held ++ [w] } }

/-- The vector sends no message now: MSI-X off, Function Mask, the vector's mask, or Bus Master Enable 0 (R353). -/
def Dev.vecMasked (d : Dev) (v : Nat) : Bool :=
  d.host.cfg.funcMask || !d.host.cfg.msixEn || !d.host.unmasked.contains v || !d.host.cfg.command.getLsbD 2

/-- A condition raises a vector: one message, or its pending bit (R353). -/
def Dev.raiseVec (d : Dev) (v : Nat) : Dev :=
  if d.vecMasked v then
    if d.host.pba.contains v then d else { d with host := { d.host with pba := d.host.pba ++ [v] } }
  else d.send (.msix v)

/-- A bit of HIF_ERR set; a new bit raises vector 0 (R352). -/
def Dev.hifErr (d : Dev) (f : Fld) : Dev :=
  if d.flag R.HIF_ERR f then d else (d.setFld R.HIF_ERR f 1).raiseVec 0

/-! ### Records and HEALTH events -/

/-- A record of the given units: the header of R384 and a body from byte 20. -/
def recBytes (type units streamField frame ts epoch variant : Nat) (body : List Byte) : List Byte :=
  padTo (toLE 1 type ++ toLE 1 units ++ toLE 2 streamField ++ toLE 4 frame ++ toLE 8 ts ++ toLE 2 epoch ++
    toLE 1 variant ++ toLE 1 0 ++ body) (64 * units)

/-- A record with a bit of its stream field set: 6 for bit 14 (last record), 7 for bit 15 (unauthenticated head). -/
def recBit (b : List Byte) (i : Nat) : List Byte := patch b 3 [BitVec.ofNat 8 (byteAt b 3 ||| 2 ^ i)]

/-- A record joins those waiting for their ring, in release order (R373, R374); the host interface marks the records of a
stream whose head is not authenticated (R317). -/
def Dev.postRec (d : Dev) (r : WaitRec) : Dev :=
  let unauth := ((mget d.streams r.stream).map (·.unauth)).getD false
  let r := if unauth then { r with bytes := recBit r.bytes 7 } else r
  { d with que := { d.que with wait := d.que.wait ++ [r] } }

/-- One HEALTH event: it consumes a device event sequence number (R385) and goes to the ring SET_EVENTS names, or to the
log with vector 0 (R352, R373, R444). A body longer than 44 bytes is LINK_DISCARD's, of 3 units. -/
def Dev.health (d : Dev) (event code unit detA detB : Nat) (extra : List Byte := []) : Dev :=
  let seq := d.que.evSeq
  let d := { d with que := { d.que with evSeq := (seq + 1) % 2 ^ 32 } }
  match d.que.evRing with
  | some r =>
    let body := toLE 2 event ++ toLE 1 code ++ toLE 1 unit ++ toLE 8 detA ++ toLE 8 detB ++ extra
    d.postRec { ring := r, device := true, stream := 0x2000, frame := seq, last := false, handle := none,
                bytes := recBytes 8 (if extra = [] then 1 else 3) 0x2000 seq d.now 0 0xFF body }
  | none =>
    (d.logEv { code := code, sub := event, unit := unit, flags := 8, frame := seq, addr := detA % 2 ^ 48,
               wher := detB % 2 ^ 16, pc := detB / 2 ^ 16 % 2 ^ 16 }).raiseVec 0

/-- HEALTH event codes (Table Health events, Table Further health events, R459, R460, R462, R522). -/
inductive Ev where
  | replace | poolLow | poolGuard | linkDiscard | fieldRecord | historySkip | headHours | recovery
  | dramRank | dramTemp | contextFaulted | recoveryLimit | peerDown | peerUp | unprotected | promoted | thermal
  deriving DecidableEq, Repr

def Ev.code : Ev → Nat
  | .replace => 1
  | .poolLow => 2
  | .poolGuard => 3
  | .linkDiscard => 4
  | .fieldRecord => 5
  | .historySkip => 6
  | .headHours => 7
  | .recovery => 8
  | .dramRank => 9
  | .dramTemp => 0xA
  | .contextFaulted => 0xB
  | .recoveryLimit => 0xC
  | .peerDown => 0xD
  | .peerUp => 0xE
  | .unprotected => 0xF
  | .promoted => 0x10
  | .thermal => 0x11

/-- Fault codes (Table Fault codes, R414) and NOT_FOUND (R371). -/
inductive Code where
  | none | poison | shiftDesync | maskDesync | shapeOver | poolEmpty | doubleFree | refUnderflow | descInvalid
  | addrRange | accSaturate | hang | deadlineMiss | decodeSyntax | concealed | sensorAuth | epochMismatch
  | tokenTimeout | sigEpochLow | notFound
  deriving DecidableEq, Repr

def Code.num : Code → Nat
  | .none => 0
  | .poison => 1
  | .shiftDesync => 2
  | .maskDesync => 3
  | .shapeOver => 4
  | .poolEmpty => 5
  | .doubleFree => 6
  | .refUnderflow => 7
  | .descInvalid => 8
  | .addrRange => 9
  | .accSaturate => 0xA
  | .hang => 0xB
  | .deadlineMiss => 0xC
  | .decodeSyntax => 0xD
  | .concealed => 0xE
  | .sensorAuth => 0xF
  | .epochMismatch => 0x10
  | .tokenTimeout => 0x11
  | .sigEpochLow => 0x12
  | .notFound => 0x80

/-- The replace request gains a cause bit: one HEALTH REPLACE record when the bit is new, and vector 0 (R352, R441). -/
def Dev.replaceCause (d : Dev) (b unit detA detB : Nat) : Dev :=
  let c := d.fld R.TEL_REPLACE F.TEL_REPLACE_cause
  if bit c b then d
  else
    let d := d.setFld R.TEL_REPLACE F.TEL_REPLACE_cause (c + 2 ^ b)
    (d.health Ev.replace.code 0 unit detA detB).raiseVec 0

/-- ALERT_N is driven low (R442). -/
def Dev.alertLow (d : Dev) : Bool :=
  d.fld R.TEL_REPLACE F.TEL_REPLACE_cause &&& ((2 ^ 5 - 1) ^^^ d.fld R.TEL_ALERT_MASK F.TEL_ALERT_MASK_mask) ≠ 0

/-! ### Completion entries -/

/-- The completion queue can take an entry: at most size − 1 unconsumed (R370). -/
def Cq.room (c : Cq) : Bool := (c.tail + c.size - c.head) % c.size < c.size - 1

/-- A completion entry of queue q (Table Completion entry). -/
def cplEntry (q cid status sqHead : Nat) (phase : Bool) (result : List Byte) : List Byte :=
  padTo result 8 ++ toLE 2 sqHead ++ toLE 1 q ++ toLE 1 status ++ toLE 2 cid ++ toLE 1 (b2n phase) ++ toLE 1 0

/-- Write the entry at the tail of queue q's completion queue and raise the vector (R355, R370). -/
def Dev.writeCpl (d : Dev) (q cid status : Nat) (result : List Byte) (s : Sq) (c : Cq) : Dev :=
  let d := d.send (.mem (c.base + 16 * c.tail) (cplEntry q cid status s.head c.phase result))
  let wrap := c.tail + 1 = c.size
  let c' := { c with tail := if wrap then 0 else c.tail + 1, phase := if wrap then !c.phase else c.phase }
  ({ d with que := { d.que with cqs := mput d.que.cqs s.cq c' },
            host := { d.host with dma := mmod d.host.dma q 0 (· + 1) } }).raiseVec c.vector

/-- A command of queue q that has no completion entry yet (R369). -/
def Dev.outstanding (d : Dev) (q : Nat) : Bool :=
  (d.que.cmds.any fun c => c.q = q) || d.que.cplWait.any fun c => c.1 = q

/-- An entry is posted, or waits while the completion queue is full (R370). -/
def Dev.postCpl (d : Dev) (q cid status : Nat) (result : List Byte) : Dev :=
  match mget d.que.sqs q with
  | none => d
  | some s =>
    match mget d.que.cqs s.cq with
    | none => d
    | some c =>
      if c.room then d.writeCpl q cid status result s c
      else { d with que := { d.que with cplWait := d.que.cplWait ++ [(q, cid, status, result)] } }

/-- The admin queue pair as the registers configure it (R383). -/
def Dev.adminStart (d : Dev) : Dev :=
  let lg := d.fld R.QUE_ADMIN_CFG F.QUE_ADMIN_CFG_sq_log2
  let lc := d.fld R.QUE_ADMIN_CFG F.QUE_ADMIN_CFG_cq_log2
  if 1 ≤ lg ∧ lg ≤ 12 ∧ 1 ≤ lc ∧ lc ≤ 12 then
    let at64 := fun (lo hi : Nat) => d.reg lo / 4096 * 4096 + 2 ^ 32 * d.reg hi
    let s : Sq := { base := at64 R.QUE_ADMIN_SQ_LO R.QUE_ADMIN_SQ_HI, size := 2 ^ lg, cq := 0 }
    let c : Cq := { base := at64 R.QUE_ADMIN_CQ_LO R.QUE_ADMIN_CQ_HI, size := 2 ^ lc,
                    vector := d.fld R.QUE_ADMIN_CFG F.QUE_ADMIN_CFG_vector }
    { (d.setFld R.QUE_ADMIN_CFG F.QUE_ADMIN_CFG_svc 1) with
      que := { d.que with sqs := mput d.que.sqs 0 s, cqs := mput d.que.cqs 0 c } }
  else d

/-- The admin queue is STOPPING and its fetched commands have completed: it is OFF, and a pending enable follows (R383). -/
def Dev.adminSettle (d : Dev) : Dev :=
  if d.fld R.QUE_ADMIN_CFG F.QUE_ADMIN_CFG_svc = 2 ∧ !d.outstanding 0 then
    let d := { (d.setFld R.QUE_ADMIN_CFG F.QUE_ADMIN_CFG_svc 0) with
      que := { d.que with sqs := mdel d.que.sqs 0, cqs := mdel d.que.cqs 0 } }
    if d.flag R.QUE_ADMIN_CFG F.QUE_ADMIN_CFG_enable_pending then
      (d.setFld R.QUE_ADMIN_CFG F.QUE_ADMIN_CFG_enable_pending 0).adminStart
    else d
  else d

/-- A DELETE_SQ whose queue has no fetched command left completes, and the queue is gone (R377). -/
def Dev.deleteSettle (d : Dev) (q : Nat) : Dev :=
  match d.que.cmds.find? fun c => c.op = 2 && c.stream = q with
  | none => d
  | some c =>
    if d.outstanding q then d
    else
      let d := { d with que := { d.que with cmds := d.que.cmds.erase c, sqs := mdel d.que.sqs q } }
      d.postCpl c.q c.cid 0 []

/-- Complete a command (R370), with what waited for its queue to be idle. -/
def Dev.complete (d : Dev) (q cid status : Nat) (result : List Byte := []) : Dev :=
  ((d.postCpl q cid status result).deleteSettle q).adminSettle

/-- The units of a list of bytes. -/
def unitsOf (b : List Byte) : Nat := b.length / 64

end Sys2Proof.Machine
end

