-- ==== Sys2Proof/Machine/Mem.lean ====
section
/-!
DEFINITION. The stores: the device address map and homes (R87, R228), the place of a DRAM address under the rank maps
(R389, R405), a reader and a writer under the word code (R234 to R242, R402), rank failure (R403, R404, R410 to R412).
-/

namespace Sys2Proof.Machine

/-! ### The address map -/

/-- A range of the device address map: first address, first address beyond, home (0, 1: M-dies; 2: X-die BPM). -/
structure Rng where
  lo : Nat
  hi : Nat
  home : Nat
  deriving DecidableEq, Repr

/-- Base of the operand store of core n. -/
def opBase (n : Nat) : Nat := 0xA000000 + n * 0x100000

/-- Stack of a core. -/
def stackOf (core : Nat) : Nat := core / 4

def sstBase : Nat := 0x8000000
def dramBase : Nat := 0x100000000
def dramTop : Nat := 0x4FF000000

/-- Table Device address ranges, without the reserved range. -/
def ranges : List Rng :=
  [⟨0, 0x3000000, 0⟩, ⟨0x4000000, 0x7000000, 1⟩, ⟨sstBase, 0x9000000, 2⟩] ++
  (List.range 8).map (fun n => ⟨opBase n, opBase n + 0x100000, stackOf n⟩) ++ [⟨dramBase, dramTop, 2⟩]

/-- The range that holds an address. -/
def rangeOf (a : Nat) : Option Rng := ranges.find? fun r => r.lo ≤ a && a < r.hi

/-- The home of an address (R87). -/
def homeOf (a : Nat) : Option Nat := (rangeOf a).map (·.home)

/-- [a, a + n) lies wholly inside one range (R83, R228). -/
def inOneRange (a n : Nat) : Bool :=
  match rangeOf a with
  | none => false
  | some r => a + n ≤ r.hi

/-- [a, a + n) and [b, b + m) share a byte. -/
def overlaps (a n b m : Nat) : Bool := a < b + m && b < a + n && n ≠ 0 && m ≠ 0

/-! ### DRAM places -/

/-- Channel, logical rank and line of a DRAM address (R389). -/
def chanOf (a : Nat) : Nat := bits (a - dramBase) 6 3
def rankOf (a : Nat) : Nat := bits (a - dramBase) 32 2
def lineOf (a : Nat) : Nat := bits (a - dramBase) 9 23

/-- Die of a logical rank in the channel's rank map; 7: mapped out (R413). -/
def Dev.mapDie (d : Dev) (ch rank : Nat) : Nat := bits (d.reg (R.DRC_CH_MAP ch)) (3 * rank) 3

/-- The die that serves a line now (R405); none: mapped out, or the channel is out of service (R393). -/
def Dev.dieOf (d : Dev) (ch rank line : Nat) : Option Nat :=
  if !bit (d.fld R.DRC_STATUS F.DRC_STATUS_trained) ch then none
  else if d.fld (R.DRC_CH_MAP ch) F.DRC_CH_MAP_spare = 1 ∧ d.fld (R.DRC_CH_MAP ch) F.DRC_CH_MAP_mig_rank = rank ∧
      line < d.fld (R.DRC_CH_MIG ch) F.DRC_CH_MIG_ptr then some 4
  else if d.mapDie ch rank = 7 then none else some (d.mapDie ch rank)

/-- Physical place of a DRAM byte: die and the offset bits below the rank. -/
def dramPlace (die off : Nat) : Nat := 2 ^ 48 + die * 2 ^ 32 + off % 2 ^ 32

/-- The place of a device address: where its byte is kept now. -/
def Dev.place (d : Dev) (a : Nat) : Option Nat :=
  if a < dramBase then some a
  else (d.dieOf (chanOf a) (rankOf a) (lineOf a)).map fun die => dramPlace die (a - dramBase)

/-- The device address of a place, if one reaches it. -/
def Dev.unplace (d : Dev) (p : Nat) : Nat :=
  if p < 2 ^ 48 then p
  else
    let c := (List.range 4).map fun r => dramBase + r * 2 ^ 32 + p % 2 ^ 32
    (c.find? fun a => d.place a = some p).getD 0

/-- The line of a place belongs to the spare and holds migrated data (R402). -/
def Dev.migLine (d : Dev) (p : Nat) : Bool :=
  decide (2 ^ 48 + 4 * 2 ^ 32 ≤ p) &&
    (let ch := bits p 6 3
     let sp := d.fld (R.DRC_CH_MAP ch) F.DRC_CH_MAP_spare
     sp = 2 || sp = 1 && decide (bits p 9 23 < d.fld (R.DRC_CH_MIG ch) F.DRC_CH_MIG_ptr))

/-! ### Reading -/

/-- What a reader makes of the codeword of a place. -/
def Memory.judge (m : Memory) (cw : Nat) : RsRes := rsDelta (mgetD m.chk cw 0)

/-- The byte at a place as a reader delivers it (R237). -/
def Memory.byte (m : Memory) (p : Nat) : Byte :=
  let raw := mgetD m.cells p 0
  match m.judge (p / 32) with
  | .fix q e => if q = 3 + p % 32 then raw ^^^ e else raw
  | _ => raw

/-- The tag symbol of a codeword as a reader sees it. -/
def Memory.tag (m : Memory) (cw : Nat) : Byte :=
  let raw := mgetD m.tags cw 0
  match m.judge cw with
  | .fix q e => if q = 35 then raw ^^^ e else raw
  | _ => raw

/-- The codeword is delivered with the poison bit (R241, R242). -/
def Memory.poisoned (m : Memory) (cw : Nat) : Bool := m.judge cw = .bad || (m.tag cw).getLsbD 0

/-- The write-queue entry of a line, if any (R400). -/
def Dev.queued (d : Dev) (a : Nat) : Option (List (Option Byte)) :=
  if a < dramBase then none
  else ((mgetD d.dram.chs (chanOf a) {}).wq.find? fun e => e.1 = a / 64).map (·.2)

/-- The byte at a device address (R237, R400, R410). -/
def Dev.rd (d : Dev) (a : Nat) : Byte :=
  match (d.queued a).bind fun l => (l.getD (a % 64) none) with
  | some b => b
  | none =>
    match d.place a with
    | none => Config.lostByte a
    | some p => d.mem.byte p

/-- The byte at a device address is delivered with the poison bit. -/
def Dev.poisonAt (d : Dev) (a : Nat) : Bool :=
  let whole := match d.queued a with
    | some l => (List.range 32).all fun i => (l.getD (a % 64 / 32 * 32 + i) none).isSome
    | none => false
  if whole then false
  else
    match d.place a with
    | none => true
    | some p => d.mem.poisoned (p / 32)

/-- n bytes from a device address. -/
def Dev.rdN (d : Dev) (a n : Nat) : List Byte := (List.range n).map fun i => d.rd (a + i)

/-- The little-endian number of n bytes at a device address. -/
def Dev.rdLE (d : Dev) (a n : Nat) : Nat := le (d.rdN a n) 0 n

/-- The first poisoned address of a list. -/
def Dev.firstPoison (d : Dev) (as : List Nat) : Option Nat := as.find? d.poisonAt

/-- The addresses of [a, a + n). -/
def span (a n : Nat) : List Nat := (List.range n).map (a + ·)

/-! ### Counting and rewriting (R240, R241, R261, R402, R403) -/

/-- The counter register of a place's store, with its two fields. -/
def eccReg (p : Nat) : Nat :=
  if 2 ^ 48 ≤ p then R.DRC_CH_ECC (bits p 6 3)
  else if p < 0x4000000 then R.CAB_ECC_COUNT 0
  else if p < 0x8000000 then R.CAB_ECC_COUNT 1
  else if p < 0xA000000 then R.SST_ECC_COUNT
  else R.CAB_ECC_COUNT (stackOf ((p - 0xA000000) / 0x100000))

/-- Unit code of a place's store (Table Unit codes). -/
def eccUnit (p : Nat) : Nat :=
  if 2 ^ 48 ≤ p then 0x50 + bits p 6 3
  else if p < 0x4000000 then 0x4A
  else if p < 0x8000000 then 0x4B
  else if p < 0xA000000 then 0x48
  else 0x4A + stackOf ((p - 0xA000000) / 0x100000)

/-- Channels whose spare is ready. -/
def Dev.sparesReady (d : Dev) : Nat :=
  ((List.range 8).filter fun c => d.fld (R.DRC_CH_MAP c) F.DRC_CH_MAP_spare = 0).length

/-- The replace request of the DRAM: R412's record each time, the cause bit once (R441). -/
def Dev.dramReplace (d : Dev) (c r : Nat) : Dev :=
  let d := d.replaceCause 1 1 (Config.packChRank c r) d.sparesReady
  d

/-- Four or more channels have their spare in service or failed (R412). -/
def Dev.spareCheck (d : Dev) (c r : Nat) : Dev :=
  if 4 ≤ ((List.range 8).filter fun c => 2 ≤ d.fld (R.DRC_CH_MAP c) F.DRC_CH_MAP_spare).length then d.dramReplace c r
  else d

/-- The rank record of a channel as flash and the always-on domain keep it (R404, R410, R413). -/
def Dev.recordRank (d : Dev) (c : Nat) : Dev :=
  { d with nv := { d.nv with rankRec := mput d.nv.rankRec c (d.reg (R.DRC_CH_MAP c)),
                             lostRec := d.fld R.DRC_STATUS F.DRC_STATUS_lost_blocks } }

/-- A logical rank is mapped out (R410). -/
def Dev.mapOut (d : Dev) (c r : Nat) : Dev :=
  let d := d.setFld (R.DRC_CH_MAP c) ⟨3 * r, 3⟩ 7
  let d := d.setFld R.DRC_STATUS F.DRC_STATUS_lost_blocks (d.fld R.DRC_STATUS F.DRC_STATUS_lost_blocks ||| 2 ^ r)
  ((d.recordRank c).health Ev.dramRank.code 0 c r 2).dramReplace c r

/-- A rank on a die of a channel is counted as failed (R403, R404, R410, R411). -/
def Dev.rankFail (d : Dev) (c die : Nat) : Dev :=
  let sp := d.fld (R.DRC_CH_MAP c) F.DRC_CH_MAP_spare
  let lr := (List.range 4).find? fun r => d.mapDie c r = die
  if die = 4 then
    let d := if sp = 0 then d.setFld (R.DRC_CH_MAP c) F.DRC_CH_MAP_spare 3
      else if sp = 1 then (d.setFld (R.DRC_CH_MAP c) F.DRC_CH_MAP_frozen 1).dramReplace c 4
      else match lr with
        | some r => (d.setFld (R.DRC_CH_MAP c) F.DRC_CH_MAP_spare 3).mapOut c r
        | none => d
    ((d.recordRank c).health Ev.dramRank.code 0 c 4 3).spareCheck c 4
  else
    match lr with
    | none => d
    | some r =>
      if sp = 0 then
        let d := d.setFld (R.DRC_CH_MAP c) F.DRC_CH_MAP_spare 1
        let d := d.setFld (R.DRC_CH_MAP c) F.DRC_CH_MAP_mig_rank r
        let d := d.setFld (R.DRC_CH_MIG c) F.DRC_CH_MIG_ptr 0
        (d.recordRank c).health Ev.dramRank.code 0 c r 0
      else if sp = 1 ∧ d.fld (R.DRC_CH_MAP c) F.DRC_CH_MAP_mig_rank = r then d
      else d.mapOut c r

def day : Nat := 24 * 3600 * 10 ^ 8

/-- An uncorrectable codeword of a DRAM place counts against its rank; the eighth in 24 hours, or a bad read-back,
fails it (R403). -/
def Dev.countFail (d : Dev) (p : Nat) (badBack : Bool) : Dev :=
  let ch := bits p 6 3
  let die := (p - 2 ^ 48) / 2 ^ 32
  let c := mgetD d.dram.chs ch {}
  let old := c.fails.filter fun f => d.now < f.2 + day
  let fails := old ++ [(die, d.now)]
  let d := { d with dram := { d.dram with chs := mput d.dram.chs ch { c with fails := fails } } }
  if badBack || 8 ≤ (fails.filter fun f => f.1 = die).length then d.rankFail ch die else d

/-- The place lies in the rank that is being migrated, not in the spare (R402). -/
def Dev.migrating (d : Dev) (p : Nat) : Bool :=
  let ch := bits p 6 3
  decide (2 ^ 48 ≤ p) && d.fld (R.DRC_CH_MAP ch) F.DRC_CH_MAP_spare = 1 &&
    d.mapDie ch (d.fld (R.DRC_CH_MAP ch) F.DRC_CH_MAP_mig_rank) = (p - 2 ^ 48) / 2 ^ 32

/-- The tag symbol a rewrite or a write gives a codeword: the poison bit and mig_gen (R238, R402). -/
def Dev.freshTag (d : Dev) (p : Nat) (poison : Bool) : Byte :=
  (if poison then 1 else 0) ||| (if d.migLine p then 4 else 0)

/-- The rewrite of an uncorrectable codeword (R241, R402). -/
def Dev.rewritePoison (d : Dev) (cw : Nat) : Dev :=
  if d.migrating (32 * cw) then d
  else { d with mem := { d.mem with tags := mset d.mem.tags cw 0 (d.freshTag (32 * cw) true),
                                    chk := mdel d.mem.chk cw } }

/-- A reader meets the codeword cw with a check difference: counted, written back or rewritten, logged. -/
def Dev.noteCw (d : Dev) (badBack : Bool) (cw : Nat) : Dev :=
  let p := 32 * cw
  match d.mem.judge cw with
  | .ok => d
  | .fix _ _ =>
    let d := d.satFld (eccReg p) F.CAB_ECC_COUNT_corrected 1
    if d.mem.wback.contains cw then d else { d with mem := { d.mem with wback := d.mem.wback ++ [cw] } }
  | .bad =>
    let a := d.unplace p
    let d := d.satFld (eccReg p) F.CAB_ECC_COUNT_uncorrectable 1
    let d := (d.rewritePoison cw).logEv { code := Code.poison.num, unit := eccUnit p, addr := a }
    if 2 ^ 48 ≤ p then d.countFail p badBack else d

/-- What reading the bytes at these addresses does to the stores: every codeword that is not accepted as it stands. -/
def Dev.noteRead (d : Dev) (as : List Nat) : Dev :=
  let hit := d.mem.chk.filter fun e => as.any fun a => match d.place a with
    | some p => p / 32 = e.1
    | none => false
  let d := (hit.map (·.1)).foldl (fun d cw => d.noteCw false cw) d
  let lost := dedup ((as.filter fun a => d.place a = none).map (· / 64))
  lost.foldl (fun d l => d.satFld (R.DRC_CH_ECC (chanOf (64 * l))) F.DRC_CH_ECC_uncorrectable 1) d

/-- The corrected codeword is written back, if a write has not come first (R240). -/
def Dev.writeBack (d : Dev) (cw : Nat) : Dev :=
  let m := d.mem
  let m' := match m.judge cw with
    | .fix q e =>
      if 3 ≤ q ∧ q < 35 then { m with cells := mset m.cells (32 * cw + (q - 3)) 0 (m.byte (32 * cw + (q - 3))) }
      else if q = 35 then { m with tags := mset m.tags cw 0 (mgetD m.tags cw 0 ^^^ e) }
      else m
    | _ => m
  let m' := if m.judge cw = .bad then m' else { m' with chk := mdel m'.chk cw }
  { d with mem := { m' with wback := m'.wback.filter (· ≠ cw) } }

/-! ### Writing -/

/-- One byte written at a device address: into the queued line, into its place, or discarded (R400, R405, R410). -/
def Dev.putByte (d : Dev) (a : Nat) (b : Byte) : Dev :=
  match d.queued a with
  | some _ =>
    let ch := chanOf a
    let c := mgetD d.dram.chs ch {}
    let wq := c.wq.map fun e => if e.1 = a / 64 then (e.1, e.2.set (a % 64) (some b)) else e
    { d with dram := { d.dram with chs := mput d.dram.chs ch { c with wq := wq } } }
  | none =>
    match d.place a with
    | none => d
    | some p => { d with mem := { d.mem with cells := mset d.mem.cells p 0 b } }

/-- The codeword of a place is about to be written: whole, it is encoded afresh; in part, it is read, corrected and
re-encoded, and poison stays (R234, R242). A pending write-back is dropped (R240). -/
def Dev.prepCw (d : Dev) (p : Nat) (whole : Bool) : Dev :=
  let cw := p / 32
  let d := if whole then d else d.noteCw false cw
  let poison := !whole && d.mem.poisoned cw
  let d := if whole then d else d.writeBack cw
  let comp := if whole then 0 else mgetD d.mem.tags cw 0 &&& 2
  { d with mem := { d.mem with tags := mset d.mem.tags cw 0 (d.freshTag p poison ||| comp), chk := mdel d.mem.chk cw,
                               wback := d.mem.wback.filter (· ≠ cw) } }

/-- Bytes written from device address a onward. -/
def Dev.writeRun (d : Dev) (a : Nat) (bs : List Byte) : Dev :=
  let n := bs.length
  let cws := (List.range ((a + n - 1) / 32 + 1 - a / 32)).map (a / 32 + ·)
  let d := if n = 0 then d else cws.foldl (fun d c =>
    match d.place (32 * c) with
    | some p => if (d.queued (32 * c)).isSome then d else d.prepCw p (a ≤ 32 * c && 32 * c + 32 ≤ a + n)
    | none => d.satFld (R.DRC_CH_ECC (chanOf (32 * c))) F.DRC_CH_ECC_uncorrectable 1) d
  (bs.zipIdx).foldl (fun d x => d.putByte (a + x.2) x.1) d

/-- Runs of consecutive addresses. -/
def splitRuns : List (Nat × Byte) → List (Nat × List Byte)
  | [] => []
  | (a, b) :: r =>
    match splitRuns r with
    | (a', bs) :: q => if a + 1 = a' then (a, b :: bs) :: q else (a, [b]) :: (a', bs) :: q
    | [] => [(a, [b])]

/-- Bytes written at scattered addresses, later entries over earlier ones. -/
def Dev.writeCells (d : Dev) (ws : List (Nat × Byte)) : Dev :=
  (splitRuns (ws.foldl (fun m w => mput m w.1 w.2) [])).foldl (fun d r => d.writeRun r.1 r.2) d

/-- The words at these addresses are written with their poison bit set (R106, R242). -/
def Dev.setPoison (d : Dev) (as : List Nat) : Dev :=
  as.foldl (fun d a => match d.place a with
    | some p => { d with mem := { d.mem with tags := mset d.mem.tags (p / 32) 0 (mgetD d.mem.tags (p / 32) 0 ||| 1) } }
    | none => d) d

/-- n bytes of zero from device address a. -/
def Dev.zeroRange (d : Dev) (a n : Nat) : Dev :=
  { d with mem := { d.mem with
      cells := d.mem.cells.filter fun c => !(a ≤ c.1 && c.1 < a + n),
      tags := d.mem.tags.filter fun c => !(a / 32 ≤ c.1 && c.1 < (a + n) / 32),
      chk := d.mem.chk.filter fun c => !(a / 32 ≤ c.1 && c.1 < (a + n) / 32) } }

/-- A region cleared to zero: a store that is not DRAM by its cells, DRAM byte by byte. -/
def Dev.clear (d : Dev) (a n : Nat) : Dev := if a < dramBase then d.zeroRange a n else d.writeRun a (zeros n)

/-- Memory's canonical form: cells and tags strictly rising, no entry equal to what an unlisted address reads as. -/
def Memory.wf (m : Memory) : Bool :=
  SMap.wf m.cells && SMap.wf m.tags && SMap.wf m.chk && m.cells.all (·.2 ≠ 0) && m.tags.all (·.2 ≠ 0)

end Sys2Proof.Machine
end

