-- ==== Sys2Proof/Machine/Pools.lean ====
section
/-!
DEFINITION. The buffer pool manager (R246 to R260): handles, free lists in the buffers' headers, the side table, pops with
their guard and fallback chain, references, frees, relinking, enabling and stopping a pool.
-/

namespace Sys2Proof.Machine

def nullHandle : Nat := 0xFFFFFFFF

/-- Pool and index of a handle (R247). -/
def hPool (h : Nat) : Nat := h / 2 ^ 26 % 64
def hIdx (h : Nat) : Nat := h % 2 ^ 26
def mkHandle (p i : Nat) : Nat := p * 2 ^ 26 + i

def Dev.poolState (d : Dev) (p : Nat) : Nat := d.fld (R.BPM_POOL_STAT p) F.BPM_POOL_STAT_state
def Dev.poolCount (d : Dev) (p : Nat) : Nat := d.fld (R.BPM_POOL_COUNT p) F.BPM_POOL_COUNT_count
def Dev.poolSize (d : Dev) (p : Nat) : Nat := 2 ^ (8 + d.fld (R.BPM_POOL_CFG p) F.BPM_POOL_CFG_size_code)
def Dev.poolBase (d : Dev) (p : Nat) : Nat :=
  d.reg (R.BPM_POOL_BASE_LO p) + 2 ^ 32 * d.fld (R.BPM_POOL_BASE_HI p) F.BPM_POOL_BASE_HI_base_hi
def Dev.bufAddr (d : Dev) (h : Nat) : Nat := d.poolBase (hPool h) + hIdx h * d.poolSize (hPool h)

/-- The side table entry of a handle; none: the pool is not configured or the index lies beyond it (R160). -/
def Dev.buf (d : Dev) (h : Nat) : Option Buf :=
  if d.poolState (hPool h) = 0 ∨ d.poolCount (hPool h) ≤ hIdx h then none else mget d.bpm.bufs h

def Dev.setBuf (d : Dev) (h : Nat) (b : Buf) : Dev := { d with bpm := { d.bpm with bufs := mput d.bpm.bufs h b } }

/-- Handles of a pool in a state. -/
def Dev.bufsIn (d : Dev) (p : Nat) (st : BufState) : List Nat :=
  (d.bpm.bufs.filter fun e => hPool e.1 = p && e.2.st = st).map (·.1)

def Dev.freeCount (d : Dev) (p : Nat) : Nat := (d.bufsIn p .free).length

/-- The 16 header bytes of a free buffer (Table Free-buffer header). -/
def freeHeader (next h : Nat) : List Byte :=
  toLE 4 next ++ toLE 1 (hPool h) ++ toLE 3 0 ++ toLE 4 h ++ toLE 4 0x3C3CA5A5

/-- The low-water rule after a pop (R256). -/
def Dev.lowFell (d : Dev) (p : Nat) : Dev :=
  let n := d.freeCount p
  let low := d.fld (R.BPM_POOL_LOW p) F.BPM_POOL_LOW_low_water
  if low < n then d
  else
    let d := d.setFld (R.BPM_POOL_STAT p) F.BPM_POOL_STAT_low 1
    if d.bpm.lowPosted.contains p then d
    else ({ d with bpm := { d.bpm with lowPosted := p :: d.bpm.lowPosted } }).health Ev.poolLow.code 0 p n low

/-- The low-water rule after a free: above low_water a later fall is reported again (R256). -/
def Dev.lowRose (d : Dev) (p : Nat) : Dev :=
  if d.fld (R.BPM_POOL_LOW p) F.BPM_POOL_LOW_low_water < d.freeCount p then
    { d with bpm := { d.bpm with lowPosted := d.bpm.lowPosted.filter (· ≠ p) } }
  else d

/-- The pool enters REBUILDING (R252, R257). -/
def Dev.startRebuild (d : Dev) (p : Nat) : Dev :=
  { (d.setFld (R.BPM_POOL_STAT p) F.BPM_POOL_STAT_state 3) with
    bpm := { d.bpm with relink := mput d.bpm.relink p (0, []) } }

/-! ### Enabling (R257, R258) -/

/-- Regions the loader holds, and the DRAM bytes of loaded images: start and length (R61). -/
def Dev.heldRanges (d : Dev) : List (Nat × Nat) :=
  d.images.flatMap (fun i => (i.1, i.2.size) :: i.2.regions.flatMap fun r => r.places.map fun pl => (pl.2, r.size)) ++
  d.ctxs.flatMap fun c => c.2.banks.map fun b => (b.2, 65536)

/-- Room in the side tables for the group of a pool (R248): first pool, pools, buffers. -/
def sideRoom (p : Nat) : Nat × Nat × Nat :=
  if p < 16 then (0, 16, 262144) else if p < 32 then (16, 16, 262144) else if p < 48 then (32, 16, 131072)
  else (48, 16, 4194304)

/-- The range a pool's region must lie in (R246). -/
def poolRange (p : Nat) : Nat × Nat :=
  if p < 16 then (0, 0x3000000) else if p < 32 then (0x4000000, 0x7000000) else if p < 48 then (sstBase, 0x9000000)
  else (dramBase, dramTop)

/-- The checks of an enable (R246, R248, R255, R257, R410). -/
def Dev.poolOk (d : Dev) (p : Nat) : Bool :=
  let base := d.poolBase p
  let n := d.poolCount p
  let sz := d.poolSize p
  let g := sideRoom p
  let others := ((List.range g.2.1).map (g.1 + ·)).filter fun q => q ≠ p && d.poolState q ≠ 0
  let used := (others.map d.poolCount).foldl (· + ·) 0
  let pol := d.fld (R.BPM_POOL_CFG p) F.BPM_POOL_CFG_policy
  let fb := d.fld (R.BPM_POOL_CFG p) F.BPM_POOL_CFG_fb_pool
  let lost := d.fld R.DRC_STATUS F.DRC_STATUS_lost_blocks
  d.fld (R.BPM_POOL_CFG p) F.BPM_POOL_CFG_size_code ≤ 14 && 1 ≤ n && base % sz = 0 &&
  (poolRange p).1 ≤ base && base + n * sz ≤ (poolRange p).2 && used + n ≤ g.2.2 &&
  pol ≤ 1 && (pol ≠ 1 || d.fld (R.BPM_POOL_CFG p) F.BPM_POOL_CFG_size_code < d.fld (R.BPM_POOL_CFG fb) F.BPM_POOL_CFG_size_code) &&
  ((List.range 64).all fun q => q = p || d.poolState q = 0 ||
    !overlaps base (n * sz) (d.poolBase q) (d.poolCount q * d.poolSize q)) &&
  (d.heldRanges.all fun r => !overlaps base (n * sz) r.1 r.2) &&
  (p < 48 || (List.range 4).all fun r => !bit lost r || !overlaps base (n * sz) (dramBase + r * 2 ^ 32) (2 ^ 32))

/-- An enable of a DISABLED pool: checked, every buffer FREE, REBUILDING; or refused with cfg_err (R257, step 1). -/
def Dev.enablePool (d : Dev) (p : Nat) : Dev :=
  if d.poolOk p then
    let hs := (List.range (d.poolCount p)).map (mkHandle p)
    let d := { d with bpm := { d.bpm with bufs := hs.foldl (fun m h => mput m h ⟨.free, 0⟩) d.bpm.bufs,
                                          heads := mdel d.bpm.heads p } }
    d.startRebuild p
  else d.setFld (R.BPM_POOL_STAT p) F.BPM_POOL_STAT_cfg_err 1

/-- A STOPPING pool whose buffers are all FREE or QUARANTINED becomes DISABLED, and a pending enable follows
(R257, R474). -/
def Dev.stopCheck (d : Dev) (p : Nat) : Dev :=
  if d.poolState p = 2 ∧ (d.bufsIn p .allocated) = [] then
    let d := { (d.setFld (R.BPM_POOL_STAT p) F.BPM_POOL_STAT_state 0) with
      bpm := { d.bpm with bufs := d.bpm.bufs.filter fun e => hPool e.1 ≠ p, heads := mdel d.bpm.heads p,
                          relink := mdel d.bpm.relink p } }
    if d.flag (R.BPM_POOL_STAT p) F.BPM_POOL_STAT_enable_pending then
      (d.setFld (R.BPM_POOL_STAT p) F.BPM_POOL_STAT_enable_pending 0).enablePool p
    else d
  else d

/-! ### Push and pop -/

/-- A buffer returns to its pool: FREE, count 0, head of the list; during a rebuild the relink takes it or has passed it
(R249, R253, log entry 11). -/
def Dev.pushBuf (d : Dev) (h : Nat) : Dev :=
  let p := hPool h
  let d := d.setBuf h ⟨.free, 0⟩
  let d := if d.poolState p = 3 then
      let rl := mgetD d.bpm.relink p (0, [])
      let (v, d) := d.fresh
      let pos := rl.1 + v % (d.poolCount p + 1 - rl.1)
      let pushed := if hIdx h < pos then h :: rl.2 else rl.2
      { d with bpm := { d.bpm with relink := mput d.bpm.relink p (pos, pushed) } }
    else
      let d := d.writeRun (d.bufAddr h) (freeHeader (mgetD d.bpm.heads p nullHandle) h)
      { d with bpm := { d.bpm with heads := mput d.bpm.heads p (hIdx h) } }
  (d.lowRose p).stopCheck p

/-- The guard of a pop on the head h (R252). -/
def Dev.guardOk (d : Dev) (h : Nat) : Bool :=
  let a := d.bufAddr h
  let next := d.rdLE a 4
  d.rdLE (a + 4) 1 = hPool h && d.rdLE (a + 8) 4 = h && d.rdLE (a + 12) 4 = 0x3C3CA5A5 &&
  (next = nullHandle || next < d.poolCount (hPool h)) && d.firstPoison (span a 16) = none &&
  (match d.buf h with
    | some b => b.st = .free
    | none => false)

/-- One pop from one pool (R252, R254, R256). -/
def Dev.popOne (d : Dev) (p n : Nat) : Option Nat × Dev :=
  if d.poolState p ≠ 1 then (none, d)
  else
    match mget d.bpm.heads p with
    | none => (none, d)
    | some i =>
      let h := mkHandle p i
      let ok := d.guardOk h
      let next := d.rdLE (d.bufAddr h) 4
      let d := d.noteRead (span (d.bufAddr h) 16)
      if ok then
        let heads := if next = nullHandle then mdel d.bpm.heads p else mput d.bpm.heads p next
        let d := { d with bpm := { d.bpm with heads := heads } }
        (some h, (d.setBuf h ⟨.allocated, n⟩).lowFell p)
      else
        let wasFree : Bool := match d.buf h with
          | some b => decide (b.st = .free)
          | none => false
        let d := if wasFree then d.setBuf h ⟨.quarantined, 0⟩ else d
        let d := d.setFld (R.BPM_POOL_STAT p) F.BPM_POOL_STAT_guard_err 1
        (none, (d.health Ev.poolGuard.code 0 p h (b2n wasFree)).startRebuild p)

/-- The fallback steps after the first pool (R254, R255). -/
def Dev.popChain (d : Dev) (n : Nat) : Nat → Nat → Option Nat × Dev
  | 0, _ => (none, d)
  | k + 1, p =>
    let q := d.fld (R.BPM_POOL_CFG p) F.BPM_POOL_CFG_fb_pool
    match d.popOne q n with
    | (some h, d) => (some h, d)
    | (none, d) => d.popChain n k q

/-- A pop from pool p with initial count n, under its empty policy (R159, R254). -/
def Dev.pop (d : Dev) (p n : Nat) : Option Nat × Dev :=
  match d.popOne p n with
  | (some h, d) => (some h, d)
  | (none, d) =>
    if d.fld (R.BPM_POOL_CFG p) F.BPM_POOL_CFG_policy = 1 then
      match d.popChain n (d.fld (R.BPM_POOL_CFG p) F.BPM_POOL_CFG_fb_depth) p with
      | (some h, d) => (some h, d.satFld (R.BPM_POOL_STAT p) F.BPM_POOL_STAT_fallback_out 1)
      | (none, d) => (none, d)
    else (none, d)

/-! ### References (R160, R250) -/

/-- The fault of a reference operation, or none; dec is the number of decrements not yet settled (R428). -/
def Dev.refFault (d : Dev) (inc : Bool) (h dec : Nat) : Option Code :=
  match d.buf h with
  | none => some .addrRange
  | some b =>
    if b.st ≠ .allocated then some .doubleFree
    else if inc then (if 65535 ≤ b.count then some .refUnderflow else none)
    else if b.count ≤ dec then some .refUnderflow
    else none

/-- REFINC, once it may be performed. -/
def Dev.refInc (d : Dev) (h : Nat) : Dev :=
  match d.buf h with
  | some b => if b.st = .allocated ∧ b.count < 65535 then d.setBuf h ⟨.allocated, b.count + 1⟩ else d
  | none => d

/-- FREE or REFDEC, once it may be performed: at 0 the buffer is pushed. -/
def Dev.refDec (d : Dev) (h : Nat) : Dev :=
  match d.buf h with
  | some b =>
    if b.st = .allocated ∧ 1 ≤ b.count then
      if b.count = 1 then d.pushBuf h else d.setBuf h ⟨.allocated, b.count - 1⟩
    else d
  | none => d

/-- Undo of an ALLOC: the buffer returns to FREE whatever its count (R428). -/
def Dev.unAlloc (d : Dev) (h : Nat) : Dev :=
  match d.buf h with
  | some b => if b.st = .allocated then d.pushBuf h else d
  | none => d

/-- Undo of a REFINC: the earlier count (R428). -/
def Dev.unInc (d : Dev) (h : Nat) : Dev :=
  match d.buf h with
  | some b => if b.st = .allocated ∧ 1 ≤ b.count then d.setBuf h ⟨.allocated, b.count - 1⟩ else d
  | none => d

/-- The relink ends: the list holds what was pushed behind it, then every FREE buffer in ascending index, each with its
header; the pool returns to ENABLED (R253). -/
def Dev.relinkDone (d : Dev) (p : Nat) : Dev :=
  let pushed := (mgetD d.bpm.relink p (0, [])).2
  let asc := (d.bufsIn p .free).filter fun h => !pushed.contains h
  let lst := pushed ++ asc
  let d := (lst.zip (lst.tail.map hIdx ++ [nullHandle])).foldl
    (fun d x => d.writeRun (d.bufAddr x.1) (freeHeader x.2 x.1)) d
  let heads := match lst.head? with
    | some h => mput d.bpm.heads p (hIdx h)
    | none => mdel d.bpm.heads p
  { (d.setFld (R.BPM_POOL_STAT p) F.BPM_POOL_STAT_state 1) with
    bpm := { d.bpm with heads := heads, relink := mdel d.bpm.relink p } }

/-- A write of BPM_POOL_CTLn.enable (R257, R474). -/
def Dev.poolCtl (d : Dev) (p : Nat) (en : Bool) : Dev :=
  let d := d.setFld (R.BPM_POOL_CTL p) F.BPM_POOL_CTL_enable (b2n en)
  let st := d.poolState p
  if en then
    if st = 0 then d.enablePool p
    else if st = 2 then d.setFld (R.BPM_POOL_STAT p) F.BPM_POOL_STAT_enable_pending 1
    else d
  else if st = 1 ∨ st = 3 then (d.setFld (R.BPM_POOL_STAT p) F.BPM_POOL_STAT_state 2).stopCheck p
  else if st = 2 then d.setFld (R.BPM_POOL_STAT p) F.BPM_POOL_STAT_enable_pending 0
  else d

end Sys2Proof.Machine
end

