-- ==== Sys2Proof/Machine/Operands.lean ====
section
/-!
DEFINITION. What an instruction word and its descriptors name (R73, R80 to R86, R101 to R105, R148, R170, R178 to R183):
fields, scalar registers, descriptors, layouts, element addresses, extents, the value of an element, ZC32 groups.
-/

namespace Sys2Proof.Machine

/-! ### Cores and scalar registers -/

def Dev.core (d : Dev) (c : Nat) : Core := mgetD d.cores c {}
def Dev.setCore (d : Dev) (c : Nat) (k : Core) : Dev := { d with cores := mput d.cores c k }
def Dev.modCore (d : Dev) (c : Nat) (f : Core → Core) : Dev := d.setCore c (f (d.core c))

/-- A scalar register: S0 reads 0 (R73). -/
def sreg (s : List Word) (i : Nat) : Nat := if i = 0 then 0 else (s.getD i 0).toNat

/-- A write of a scalar register: a write of S0 is ignored (R73). -/
def setSreg (s : List Word) (i v : Nat) : List Word := if i = 0 then s else s.set i (BitVec.ofNat 32 v)

def Dev.width (d : Dev) (c : Nat) : Nat := d.fld (R.MC_WIDTH c) F.MC_WIDTH_width
def Dev.pc (d : Dev) (c : Nat) : Nat := d.fld (R.MC_SEQ_STATUS c) F.MC_SEQ_STATUS_pc

/-! ### The instruction word (R101, R102) -/

def iwOf (b : List Byte) : IWord := BitVec.ofNat 128 (le b 0 16)
def iw (w : IWord) (lsb n : Nat) : Nat := bits w.toNat lsb n
def iOp (w : IWord) : Nat := iw w 120 8
def iMod (w : IWord) : Nat := iw w 112 8
def iD (w : IWord) : Nat := iw w 104 8
def iA (w : IWord) : Nat := iw w 96 8
def iB (w : IWord) : Nat := iw w 88 8
def iC (w : IWord) : Nat := iw w 80 8
def iWaitTok (w : IWord) : Nat := iw w 74 6
def iWaitEn (w : IWord) : Bool := bit w.toNat 73
def iSigTok (w : IWord) : Nat := iw w 66 6
def iSigEn (w : IWord) : Bool := bit w.toNat 65

/-- Bits of imm. -/
def imm (w : IWord) (lsb n : Nat) : Nat := iw w lsb n
def immBit (w : IWord) (i : Nat) : Bool := bit w.toNat i
def modBit (w : IWord) (i : Nat) : Bool := bit (iMod w) i

/-- The bits outside the given fields of imm and modifier are 0, and bits 72 and 64 (R103). -/
def reservedOk (w : IWord) (modMask immMask : Nat) : Bool :=
  !bit w.toNat 72 && !bit w.toNat 64 && iMod w &&& ((2 ^ 8 - 1) ^^^ modMask) = 0 &&
  iw w 0 64 &&& ((2 ^ 64 - 1) ^^^ immMask) = 0

/-! ### Descriptors (R80) -/

inductive EType where
  | i8 | u8 | i4 | i16 | u16 | i32 | fp16 | bf16 | fp32 | raw
  deriving DecidableEq, Repr

inductive Layout where
  | linear | nhwc32 | nhwc16 | planar | halo32 | wtile8 | wtile4 | shifts | bias32 | lut256 | psum32 | zcmask
  | paged | segment | record
  deriving DecidableEq, Repr

def etypeOf : Nat → Option EType
  | 0 => some .i8
  | 1 => some .u8
  | 2 => some .i4
  | 3 => some .i16
  | 4 => some .u16
  | 5 => some .i32
  | 6 => some .fp16
  | 7 => some .bf16
  | 8 => some .fp32
  | 9 => some .raw
  | _ => none

def layoutOf : Nat → Option Layout
  | 0x00 => some .linear
  | 0x01 => some .nhwc32
  | 0x02 => some .nhwc16
  | 0x03 => some .planar
  | 0x04 => some .halo32
  | 0x08 => some .wtile8
  | 0x09 => some .wtile4
  | 0x0A => some .shifts
  | 0x0B => some .bias32
  | 0x0C => some .lut256
  | 0x0D => some .psum32
  | 0x10 => some .zcmask
  | 0x11 => some .paged
  | 0x12 => some .segment
  | 0x13 => some .record
  | _ => none

/-- Size of an element in bytes (Table Element types); INT4 packs two. -/
def EType.size : EType → Nat
  | .i8 | .u8 | .i4 | .raw => 1
  | .i16 | .u16 | .fp16 | .bf16 => 2
  | .i32 | .fp32 => 4

def EType.is8 : EType → Bool
  | .i8 | .u8 => true
  | _ => false

def EType.isFloat16 : EType → Bool
  | .fp16 | .bf16 => true
  | _ => false

def EType.isInt16 : EType → Bool
  | .i16 | .u16 => true
  | _ => false

/-- Least and greatest value of an integer type. -/
def EType.lo : EType → Int
  | .i8 => -128
  | .i4 => -8
  | .i16 => -32768
  | .i32 => -2147483648
  | _ => 0

def EType.hi : EType → Int
  | .i8 => 127
  | .i4 => 7
  | .i16 => 32767
  | .i32 => 2147483647
  | .u16 => 65535
  | _ => 255

/-- Element types a layout allows (Table Layout codes). -/
def Layout.allows : Layout → EType → Bool
  | .linear, _ => true
  | .nhwc32, e | .nhwc16, e | .planar, e | .halo32, e | .lut256, e => e.is8
  | .wtile8, e => e = .i8
  | .wtile4, e => e = .i4
  | .shifts, e | .zcmask, e | .record, e => e = .raw
  | .bias32, e | .psum32, e => e = .i32
  | .paged, e => e = .i8 || e = .raw
  | .segment, e => e = .u16

/-- The image layouts. -/
def Layout.isImg : Layout → Bool
  | .nhwc32 | .nhwc16 | .planar | .halo32 => true
  | _ => false

/-- Channel block size. -/
def Layout.blk : Layout → Nat
  | .nhwc16 => 16
  | _ => 32

def Layout.blocked : Layout → Bool
  | .nhwc32 | .nhwc16 | .halo32 => true
  | _ => false

structure Desc where
  base : Nat
  layout : Layout
  etype : EType
  ndim : Nat
  d0 : Nat
  d1 : Nat
  d2 : Nat
  d3 : Nat
  t0 : Nat
  t1 : Nat
  t2 : Nat
  t3 : Nat
  zp : Int
  mult : Nat
  shift : Nat
  rcount : Nat
  tag : Nat
  zc : Bool
  breg : Nat
  ptag : Nat
  pslot : Nat
  pvalid : Bool
  haloH : Nat
  haloW : Nat
  deriving DecidableEq, Repr

/-- The reserved fields of a descriptor are 0 (R80, R86). -/
def descReservedOk (b : List Byte) : Bool :=
  bits (byteAt b 7) 6 2 = 0 && bits (byteAt b 48) 6 2 = 0 && bits (le b 50 2) 12 4 = 0 && bits (byteAt b 52) 4 4 = 0 &&
  bits (byteAt b 53) 5 3 = 0 && bits (byteAt b 57) 1 7 = 0 && le b 60 4 = 0

/-- A valid descriptor of 64 bytes, or none where R86 finds it invalid whatever the instruction. -/
def parseDesc (b : List Byte) : Option Desc :=
  match layoutOf (byteAt b 6), etypeOf (bits (byteAt b 7) 0 4) with
  | some l, some e =>
    let nd := bits (byteAt b 7) 4 2 + 1
    let dim := fun i => le b (8 + 4 * i) 4
    let comp := bits (byteAt b 52) 0 4
    let D : Desc := {
      base := le b 0 6, layout := l, etype := e, ndim := nd, d0 := dim 0, d1 := dim 1, d2 := dim 2, d3 := dim 3,
      t0 := le b 24 4, t1 := le b 28 4, t2 := le b 32 4, t3 := le b 36 4, zp := sext (le b 44 2) 16,
      mult := le b 46 2, shift := bits (byteAt b 48) 0 6, rcount := byteAt b 49, tag := bits (le b 50 2) 0 12,
      zc := comp = 1, breg := bits (byteAt b 53) 0 5, ptag := le b 54 2, pslot := byteAt b 56,
      pvalid := bit (byteAt b 57) 0, haloH := byteAt b 58, haloW := byteAt b 59 }
    let dimsOk := (List.range 4).all fun i => if i < nd then dim i ≠ 0 else dim i = 1
    let haloOk := l ≠ .halo32 || 2 * D.haloW < D.d1 && 2 * D.haloH < D.d2
    let strideOk := !l.blocked || (D.base % l.blk = 0 && D.t0 % l.blk = 0 && D.t1 % l.blk = 0 && D.t2 % l.blk = 0 &&
      D.t3 % l.blk = 0)
    let planarOk := l ≠ .planar || D.d2 ≤ 4
    let lutOk := l ≠ .lut256 || D.d0 ≤ 4
    let pagedOk := l ≠ .paged || D.d0 % 32 = 0 && D.d1 ≤ 128
    let zcOk := comp = 0 || (l = .nhwc32 || l = .halo32) && D.pvalid
    let w4Ok := l ≠ .wtile4 || D.pvalid
    if descReservedOk b && l.allows e && comp ≤ 1 && dimsOk && haloOk && strideOk && planarOk && lutOk && pagedOk && zcOk && w4Ok
    then some D else none
  | _, _ => none

/-- The descriptor in a slot of the core's cache (R79). -/
def Core.desc (k : Core) (slot : Nat) : Option Desc := parseDesc (slice k.dcache (64 * slot) 64)

/-- The effective base (R83). -/
def Desc.eb (D : Desc) (s : List Word) : Nat := (D.base + sreg s D.breg * 256) % 2 ^ 48

/-! ### Dimensions and addresses (R82) -/

def Desc.iC (D : Desc) : Nat := if D.layout = .planar then D.d2 else D.d0
def Desc.iW (D : Desc) : Nat := if D.layout = .planar then D.d0 else D.d1
def Desc.iH (D : Desc) : Nat := if D.layout = .planar then D.d1 else D.d2
def Desc.iN (D : Desc) : Nat := D.d3

/-- Channels rounded up to the block. -/
def Desc.cb (D : Desc) : Nat := cdiv D.d0 D.layout.blk * D.layout.blk

/-- Rows and columns of the tile proper: without the halo (R82). -/
def Desc.pH (D : Desc) : Nat := if D.layout = .halo32 then D.d2 - 2 * D.haloH else D.iH
def Desc.pW (D : Desc) : Nat := if D.layout = .halo32 then D.d1 - 2 * D.haloW else D.iW

/-- Address of an element of an image layout, by its coordinates including any halo. -/
def Desc.img (D : Desc) (b n h w c : Nat) : Nat :=
  if D.layout = .planar then b + n * D.t3 + c * D.t2 + h * D.t1 + w
  else b + n * D.t3 + h * D.t2 + w * D.t1 + c / D.layout.blk * D.t0 + c % D.layout.blk

/-- Address of element (i0, i1, i2, i3) of the other layouts (R82, R116, R180). -/
def Desc.el (D : Desc) (b i0 i1 i2 i3 : Nat) : Nat :=
  match D.layout with
  | .linear =>
    if D.etype = .i4 then b + i0 / 2 + i1 * D.t1 + i2 * D.t2 + i3 * D.t3
    else b + i0 * D.t0 + i1 * D.t1 + i2 * D.t2 + i3 * D.t3
  | .bias32 => b + 4 * i0
  | .lut256 => b + 256 * i0 + i1
  | .psum32 => b + i1 * D.t1 + 4 * i0
  | .segment => b + 2 * i0
  | .record => b + i0
  | .shifts => b + 2048 * i0
  | _ => D.img b i3 i2 i1 i0

/-- Blocks of a ZC32 tensor (R178). -/
def Desc.blocks (D : Desc) : Nat := D.d3 * D.d2 * D.d1 * cdiv D.d0 32

/-- Tiles of a weight descriptor along K and N (R116, R117). -/
def Desc.kt (D : Desc) : Nat := cdiv D.d1 256
def Desc.nt (D : Desc) : Nat := cdiv D.d0 (if D.layout = .wtile4 then 512 else 256)

/-- The extent in bytes from the effective base (R83, R148, R171, R180). -/
def Desc.extent (D : Desc) : Nat :=
  if D.zc then 2080 * cdiv D.blocks 64
  else
    match D.layout with
    | .linear =>
      let i0 := if D.etype = .i4 then (D.d0 - 1) / 2 else (D.d0 - 1) * D.t0
      i0 + (D.d1 - 1) * D.t1 + (D.d2 - 1) * D.t2 + (D.d3 - 1) * D.t3 + D.etype.size
    | .nhwc32 | .nhwc16 | .halo32 =>
      (D.d3 - 1) * D.t3 + (D.d2 - 1) * D.t2 + (D.d1 - 1) * D.t1 + (cdiv D.d0 D.layout.blk - 1) * D.t0 + D.layout.blk
    | .planar => (D.d3 - 1) * D.t3 + (D.d2 - 1) * D.t2 + (D.d1 - 1) * D.t1 + D.d0
    | .wtile8 | .wtile4 => D.kt * D.nt * 65536
    | .shifts => 2048 * D.d0
    | .bias32 => 4 * D.d0
    | .lut256 => 256 * D.d0
    | .psum32 => (D.d1 - 1) * D.t1 + 4 * D.d0
    | .zcmask => 288 * cdiv D.d0 64
    | .paged => 16 + D.d0 / 8
    | .segment => 2 * D.d0
    | .record => D.d0

/-- The outermost dimension: the field d[ndim] of R111. -/
def Desc.outer (D : Desc) : Nat :=
  if D.layout.isImg then D.iH else match D.ndim with
    | 1 => D.d0
    | 2 => D.d1
    | 3 => D.d2
    | _ => D.d3

/-! ### Element values -/

/-- The value of an integer element at an address; bits of a float. -/
def Dev.elem (d : Dev) (e : EType) (a : Nat) : Int :=
  match e with
  | .i8 => sext (d.rdLE a 1) 8
  | .i16 => sext (d.rdLE a 2) 16
  | .i32 => sext (d.rdLE a 4) 32
  | .u16 | .fp16 | .bf16 => d.rdLE a 2
  | .fp32 => d.rdLE a 4
  | _ => d.rdLE a 1

/-- The bytes of an element's value. -/
def elemBytes (e : EType) (v : Int) : List Byte := toLE e.size (toU v (8 * e.size))

/-- Entries that write bytes at an address. -/
def wrAt (a : Nat) (bs : List Byte) : List (Nat × Byte) := bs.zipIdx.map fun x => (a + x.2, x.1)

def wrElem (e : EType) (a : Nat) (v : Int) : List (Nat × Byte) := wrAt a (elemBytes e v)

/-! ### ZC32 (R178 to R183) -/

/-- Block number of pixel (n, h, w), channel block b. -/
def Desc.blockNo (D : Desc) (n h w b : Nat) : Nat := ((n * D.d2 + h) * D.d1 + w) * cdiv D.d0 32 + b

/-- The mask of block j, its data region at db and mask region at mb. -/
def Dev.zcMask (d : Dev) (mb j : Nat) : Nat := d.rdLE (mb + 288 * (j / 64) + 32 + 4 * (j % 64)) 4

/-- Value of channel c (within its block) of block j, before the sign is read: a packed byte, or none for the zero point. -/
def Dev.zcAddr (d : Dev) (db mb j c : Nat) : Option Nat :=
  let m := d.zcMask mb j
  if bit m c then
    let before := ((List.range (j % 64)).map fun i => popcount (d.zcMask mb (j / 64 * 64 + i)) 32).foldl (· + ·) 0
    some (db + 2080 * (j / 64) + 32 + before + popcount m c)
  else none

/-- A group's sync tags and count are right (R182); g counts from 0, B is the number of blocks. -/
def Dev.zcGroupOk (d : Dev) (db mb ptag g B : Nat) : Bool :=
  let n := min 64 (B - 64 * g)
  d.rdLE (mb + 288 * g) 2 = (ptag + g) % 65536 && d.rdLE (db + 2080 * g) 2 = (ptag + g) % 65536 &&
  d.rdLE (mb + 288 * g + 2) 2 =
    ((List.range n).map fun i => popcount (d.zcMask mb (64 * g + i)) 32).foldl (· + ·) 0

/-- Addresses a reader of group g touches: mask group and data header and packed bytes. -/
def Dev.zcSpan (d : Dev) (db mb g : Nat) : List Nat :=
  span (mb + 288 * g) 288 ++ span (db + 2080 * g) (32 + d.rdLE (mb + 288 * g + 2) 2)

/-- An operand as an instruction sees it: descriptor, effective base, base of the paired stream. -/
structure Opd where
  D : Desc
  b : Nat
  mb : Nat := 0
  deriving DecidableEq, Repr

/-- The operand in a slot, with its paired stream's effective base. -/
def Core.opd (k : Core) (s : List Word) (slot : Nat) : Option Opd :=
  (k.desc slot).map fun D =>
    { D := D, b := D.eb s, mb := match k.desc D.pslot with
        | some P => if D.zc || D.layout = .wtile4 then P.eb s else 0
        | none => 0 }

/-- The stored value of element (n, h, w, c) of an image operand, ZC32 expanded (R183). -/
def Dev.px (d : Dev) (o : Opd) (n h w c : Nat) : Int :=
  if o.D.zc then
    match d.zcAddr o.b o.mb (o.D.blockNo n h w (c / 32)) (c % 32) with
    | some a => d.elem o.D.etype a
    | none => o.D.zp
  else d.elem o.D.etype (o.D.img o.b n h w c)

/-- The address of that element where it is stored as a byte of its own. -/
def Dev.pxAddr (d : Dev) (o : Opd) (n h w c : Nat) : List Nat :=
  if o.D.zc then d.zcSpan o.b o.mb (o.D.blockNo n h w (c / 32) / 64) else [o.D.img o.b n h w c]

/-! ### Length fields (R104) -/

/-- A start or offset field: selector 0 gives 0. -/
def startSel (s : List Word) (sel : Nat) : Nat := sreg s sel

/-- A length field: selector 0 gives the planned length less the start. -/
def lenSel (s : List Word) (sel planned start : Nat) : Nat := if sel = 0 then planned - start else sreg s sel

end Sys2Proof.Machine
end

