-- ==== Sys2Proof/Machine/Flags.lean ====
section
/-!
DEFINITION. Saturation, rounding shifts and the drain (R27 to R33), padding (R133, R173, R174), what a computation yields
and the sticky arithmetic flags it sets (R28, R43, R44).
-/

namespace Sys2Proof.Machine

/-- Clamped to INT32, and whether it clamped (R27). -/
def sat32 (x : Int) : Int × Bool :=
  let y := clampI x (-2147483648) 2147483647
  (y, y ≠ x)

/-- The rounding shift of R30. -/
def rsh (x : Int) (s : Nat) : Int := if s = 0 then x else (x + 2 ^ (s - 1)) / 2 ^ s

/-- x saturated to a type's range, and whether it saturated (R44). -/
def satTo (e : EType) (x : Int) : Int × Bool :=
  let y := clampI x e.lo e.hi
  (y, y ≠ x)

/-- A destination obeys Table Output types; stage 5 and ZC32 only for 8 bits (R31). -/
def Desc.outOk (D : Desc) (lut : Bool) : Bool :=
  D.shift ≤ 47 &&
  match D.etype with
  | .i8 => -128 ≤ D.zp && D.zp ≤ 127
  | .u8 => 0 ≤ D.zp && D.zp ≤ 255
  | .i16 => D.zp = 0 && !lut && !D.zc
  | _ => false

/-- A zero point that an 8-bit activation may have (R24). -/
def Desc.actOk (D : Desc) : Bool :=
  match D.etype with
  | .i8 => -128 ≤ D.zp && D.zp ≤ 127
  | .u8 => 0 ≤ D.zp && D.zp ≤ 255
  | _ => false

/-- Drain stages 1 to 5 on one accumulator (R29 to R32): the stored value and whether stage 1 clamped. -/
def drain (D : Desc) (relu : Bool) (lut : Option (List Byte)) (acc bias : Int) : Int × Bool :=
  let a1 := sat32 (acc + bias)
  let a3 := rsh (a1.1 * D.mult) D.shift + D.zp
  let lo := if relu then max D.etype.lo D.zp else D.etype.lo
  let a4 := clampI a3 lo D.etype.hi
  let a5 := match lut with
    | some t => let v := byteAt t (a4 - D.etype.lo).toNat; if D.etype = .i8 then sext v 8 else (v : Int)
    | none => a4
  (a5, a1.2)

/-- What an instruction's computation yields: the bytes it writes, in order; destination addresses written poisoned;
the addresses it reads; the faults its data holds; the flags it sets. -/
structure Res where
  ws : List (Nat × Byte) := []
  pz : List Nat := []
  reads : List Nat := []
  bad : List (Code × Nat) := []
  acc : Bool := false
  vsat : Bool := false
  vnan : Bool := false
  deriving DecidableEq, Repr

/-- The sticky flags of a computation (R27, R43, R44). -/
def Dev.setFlags (d : Dev) (c : Nat) (r : Res) : Dev :=
  let d := if r.acc then d.setFld (R.MC_ARITH_STATUS c) F.MC_ARITH_STATUS_acc_sat 1 else d
  let d := if r.vsat then d.setFld (R.MC_ARITH_STATUS c) F.MC_ARITH_STATUS_vec_sat 1 else d
  if r.vnan then d.setFld (R.MC_ARITH_STATUS c) F.MC_ARITH_STATUS_vec_nan 1 else d

/-- The POISON fault of the first poisoned word read, for a unit that faults on it (R106, R136). -/
def Dev.poisonFault (d : Dev) (reads : List Nat) : List (Code × Nat) :=
  match d.firstPoison reads with
  | some a => [(.poison, a)]
  | none => []

/-! ### Positions and padding -/

/-- Fields of Table CONV fields, shared by DWCONV and STOOL (R133). -/
structure Win where
  kh : Nat
  kw : Nat
  sh : Nat
  sw : Nat
  dh : Nat
  dw : Nat
  top : Nat
  left : Nat
  mode : Nat
  const : Nat
  zp : Bool
  y0 : Nat
  rows : Nat
  deriving DecidableEq, Repr

/-- The window fields of an instruction; planned is the output row count. -/
def winOf (w : IWord) (s : List Word) (planned : Nat) : Win :=
  let y0 := startSel s (imm w 37 5)
  { kh := imm w 0 4, kw := imm w 4 4, sh := imm w 8 3 + 1, sw := imm w 11 3 + 1, dh := imm w 14 3 + 1,
    dw := imm w 17 3 + 1, top := imm w 20 4, left := imm w 24 4, mode := bits (iMod w) 6 2, const := imm w 28 8,
    zp := immBit w 36, y0 := y0, rows := lenSel s (imm w 42 5) planned y0 }

/-- Input row and column of an output position and a tap (R133). -/
def Win.iy (p : Win) (oy ky : Nat) : Int := (oy * p.sh : Int) - p.top + ky * p.dh
def Win.ix (p : Win) (ox kx : Nat) : Int := (ox * p.sw : Int) - p.left + kx * p.dw

/-- refl of R174. -/
def refl (i lo hi : Int) : Int :=
  if hi = lo then lo
  else
    let p := 2 * (hi - lo)
    let j := (i - lo) % p
    lo + (if hi - lo < j then p - j else j)

/-- The halo of an operand: rows and columns that the readable area extends beyond the tile proper (R133). -/
def Desc.hh (D : Desc) : Nat := if D.layout = .halo32 then D.haloH else 0
def Desc.hw (D : Desc) : Nat := if D.layout = .halo32 then D.haloW else 0

/-- The coordinates of image rows and columns that a position reads: none for a position whose value is a pad value
(R173). -/
def padPos (D : Desc) (p : Win) (iy ix : Int) : Option (Nat × Nat) :=
  let loY : Int := -D.hh
  let hiY : Int := D.pH + D.hh - 1
  let loX : Int := -D.hw
  let hiX : Int := D.pW + D.hw - 1
  let inside := loY ≤ iy && iy ≤ hiY && loX ≤ ix && ix ≤ hiX
  let at' := fun (y x : Int) => some ((y + D.hh).toNat, (x + D.hw).toNat)
  if inside then at' iy ix
  else if p.mode = 2 then at' (refl iy loY hiY) (refl ix loX hiX)
  else if p.mode = 3 then at' (clampI iy loY hiY) (clampI ix loX hiX)
  else none

/-- The pad value of modes 0 and 1 (R173). -/
def padVal (D : Desc) (p : Win) : Int :=
  if p.mode = 0 then 0
  else if p.zp then D.zp
  else if D.etype = .i8 then sext p.const 8 else (p.const : Int)

/-- The value of channel c at an input position (R172, R173). -/
def Dev.winPx (d : Dev) (o : Opd) (p : Win) (iy ix : Int) (c : Nat) : Int :=
  match padPos o.D p iy ix with
  | some (h, w) => d.px o 0 h w c
  | none => padVal o.D p

/-- The addresses that position reads. -/
def Dev.winReads (d : Dev) (o : Opd) (p : Win) (iy ix : Int) (c : Nat) : List Nat :=
  match padPos o.D p iy ix with
  | some (h, w) => d.pxAddr o 0 h w c
  | none => []

/-- Some output position in rows y0 to Ho − 1 would read more than 15 rows or columns beyond the readable area (R133). -/
def Win.tooFar (p : Win) (D : Desc) (ho wo : Nat) : Bool :=
  let loY : Int := -D.hh - 15
  let hiY : Int := D.pH + D.hh - 1 + 15
  let loX : Int := -D.hw - 15
  let hiX : Int := D.pW + D.hw - 1 + 15
  p.y0 < ho && (p.iy p.y0 0 < loY || hiY < p.iy (ho - 1) p.kh || p.ix 0 0 < loX || hiX < p.ix (wo - 1) p.kw)

end Sys2Proof.Machine
end

