-- ==== Sys2Proof/Machine/Forms.lean ====
section
/-!
DEFINITION. The form of an issued instruction: the operands it names, its run-time lengths and the checks of R105 in their
order (R83, R86, R103, R105, R127).
-/

namespace Sys2Proof.Machine

/-- The execution unit of an instruction and how many it takes in flight per core (R72). -/
inductive XUnit where
  | array | wload | vector | move | stool | seq | atomics | sst
  deriving DecidableEq, Repr

/-- What an instruction names, and what the checks at issue find. -/
structure Form where
  /-- R86, R103 and the operand rules hold -/
  ok : Bool
  unit : XUnit
  /-- regions read and written, whose tags take part in the issue rule -/
  srcs : List Opd := []
  dsts : List Opd := []
  /-- paired streams, checked for their addresses only (R85) -/
  aux : List Opd := []
  /-- start plus length lies within the planned length -/
  shape : Bool := true
  psum : Option Opd := none
  /-- the psum region is large enough for the run-time rows (R127) -/
  psumOk : Bool := true
  /-- the run-time length is 0 (R93) -/
  zero : Bool := false
  /-- an issue-time fault the instruction lists after those of R105 -/
  late : Option Code := none
  deriving DecidableEq, Repr

def Form.bad (u : XUnit) : Form := { ok := false, unit := u }

/-- A region lies wholly inside one range, with the home its base field names (R83). -/
def Opd.addrOk (o : Opd) : Bool := inOneRange o.b o.D.extent && homeOf o.b = homeOf o.D.base

/-- The paired stream of a WTILE4 or ZC32 descriptor is there and of the right layout (R85, R86, R180). -/
def Core.pairOk (k : Core) (D : Desc) : Bool :=
  if D.layout = .wtile4 then
    match k.desc D.pslot with
    | some P => P.layout = .shifts
    | none => false
  else if D.zc then
    match k.desc D.pslot with
    | some P => P.layout = .zcmask && P.d0 = D.blocks
    | none => false
  else true

/-- The paired stream as an operand, if the descriptor has one. -/
def Core.pairOpd (k : Core) (s : List Word) (D : Desc) : List Opd :=
  if D.layout = .wtile4 || D.zc then
    match k.desc D.pslot with
    | some P => [{ D := P, b := P.eb s }]
    | none => []
  else []

/-- The psum region lies in the running core's own operand store (R127). -/
def psumHome (core : Nat) (o : Opd) : Bool :=
  opBase core ≤ o.b && o.b + o.D.extent ≤ opBase core + 0x100000

/-- The checks of R105, in order; the first that fails. -/
def Form.check (f : Form) (core : Nat) : Option Code :=
  if !f.ok then some .descInvalid
  else if !((f.srcs ++ f.dsts ++ f.aux).all Opd.addrOk) then some .addrRange
  else if !(match f.psum with
    | some o => psumHome core o
    | none => true) then some .addrRange
  else if !f.shape then some .shapeOver
  else if !f.psumOk then some .descInvalid
  else f.late

/-- The destination is not a persistent region (R86, R90). -/
def Desc.writable (D : Desc) : Bool := D.rcount ≠ 0

/-- Same planned dimensions. -/
def Desc.sameDims (D E : Desc) : Bool := D.d0 = E.d0 && D.d1 = E.d1 && D.d2 = E.d2 && D.d3 = E.d3

/-- Same image dimensions, each read by its layout (R109). -/
def Desc.sameImg (D E : Desc) : Bool := D.iN = E.iN && D.iH = E.iH && D.iW = E.iW && D.iC = E.iC

/-- A plain 2-dimensional LINEAR region. -/
def Desc.lin2 (D : Desc) : Bool := D.layout = .linear && D.d2 = 1 && D.d3 = 1

/-- Group-aligned block ranges of a ZC32 destination (R181). -/
def zcRangeOk (lo hi B : Nat) : Bool := lo % 64 = 0 && (hi % 64 = 0 || hi = B)

/-- The operands in the named slots, or none where one is invalid. -/
def Core.opds (k : Core) (s : List Word) (slots : List Nat) : Option (List Opd) := slots.mapM (k.opd s)

/-- Every coordinate below the given sizes, outermost first. -/
def coords (n h w c : Nat) : List (Nat × Nat × Nat × Nat) :=
  (List.range n).flatMap fun i => (List.range h).flatMap fun j => (List.range w).flatMap fun k =>
    (List.range c).map fun l => (i, j, k, l)

def pairs (m n : Nat) : List (Nat × Nat) := (List.range m).flatMap fun i => (List.range n).map fun j => (i, j)

/-- Σ over the indices below n. -/
def sumZ (n : Nat) (f : Nat → Int) : Int := (List.range n).foldl (fun acc i => acc + f i) 0

end Sys2Proof.Machine
end

