-- ==== Sys2Proof/Machine/CompMove.lean ====
section
/-!
DEFINITION. MOVE, MOVE2D and GATHER: their operand rules and the bytes they write (R109 to R115, R178 to R183, R242).
-/

namespace Sys2Proof.Machine

/-! ### MOVE (R109 to R111) -/

/-- The layouts two MOVE operands may pair. -/
def movePair (A D : Desc) : Bool :=
  A.etype = D.etype &&
  (if A.layout.isImg && D.layout.isImg then A.sameImg D
   else A.layout = D.layout && A.layout ≠ .paged && A.sameDims D)

/-- Compression agrees: both NONE, or both ZC32 and NHWC32. -/
def moveComp (A D : Desc) : Bool :=
  (!A.zc && !D.zc) || (A.zc && D.zc && A.layout = .nhwc32 && D.layout = .nhwc32)

def moveForm (k : Core) (w : IWord) (s : List Word) : Form :=
  let fill := modBit w 0
  let rsv := reservedOk w 1 (31 ||| ((2 ^ 32 - 1) * 2 ^ 32))
  match k.opd s (iD w), k.opd s (iA w) with
  | some o, oa =>
    let L := lenSel s (imm w 0 5) o.D.outer 0
    if fill then
      { ok := rsv && o.D.writable && o.D.layout ≠ .paged && !o.D.zc && k.pairOk o.D, unit := .move, dsts := [o],
        aux := k.pairOpd s o.D, shape := L ≤ o.D.outer, zero := L = 0 }
    else
      match oa with
      | some a =>
        { ok := rsv && o.D.writable && movePair a.D o.D && moveComp a.D o.D && k.pairOk o.D && k.pairOk a.D,
          unit := .move, srcs := [a], dsts := [o], aux := k.pairOpd s o.D ++ k.pairOpd s a.D,
          shape := L ≤ o.D.outer && L ≤ a.D.outer, zero := L = 0 }
      | none => Form.bad .move
  | none, _ => Form.bad .move

/-- Byte offsets, from the base, of the elements whose outer index is below L, for the layouts that are copied byte for
byte (R111). -/
def Desc.below (D : Desc) (L : Nat) : List Nat :=
  match D.layout with
  | .wtile8 | .wtile4 =>
    if D.ndim = 1 then span 0 (min L D.d0)
    else (List.range (D.nt * D.kt)).flatMap fun t =>
      (List.range 256).flatMap fun r => if 256 * (t % D.kt) + r < L then span (65536 * t + 256 * r) 256 else []
  | .shifts => span 0 (2048 * L)
  | .bias32 => span 0 (4 * L)
  | .lut256 => span 0 (256 * L)
  | .segment => span 0 (2 * L)
  | .record => span 0 L
  | .zcmask => span 0 (288 * cdiv L 64)
  | .psum32 => (pairs (if D.ndim = 1 then 1 else L) (if D.ndim = 1 then L else D.d0)).flatMap fun x =>
      span (x.1 * D.t1 + 4 * x.2) 4
  | _ => []

/-- The indices of a LINEAR region below L along the outer dimension. -/
def Desc.linBelow (D : Desc) (L : Nat) : List (Nat × Nat × Nat × Nat) :=
  let m := fun i n => if D.ndim = i then min n L else n
  coords (m 4 D.d3) (m 3 D.d2) (m 2 D.d1) (m 1 D.d0)

/-- The bytes of one element copied from address a to address b; INT4 by its nibble. -/
def copyEl (d : Dev) (e : EType) (i0 a b : Nat) : List (Nat × Byte) :=
  if e = .i4 then
    let x := (d.rd a).toNat
    let y := (d.rd b).toNat
    let nib := if i0 % 2 = 0 then x % 16 else x / 16
    [(b, BitVec.ofNat 8 (if i0 % 2 = 0 then y / 16 * 16 + nib else y % 16 + 16 * nib))]
  else (List.range e.size).map fun j => (b + j, d.rd (a + j))

/-- A copy: pairs of a source address and a destination address, with the bytes written (poison travels, R242). -/
def copyRes (d : Dev) (ws : List (Nat × Byte)) (moves : List (Nat × Nat)) : Res :=
  { ws := ws, reads := moves.map (·.1), pz := (moves.filter fun p => d.poisonAt p.1).map (·.2) }

/-- Two INT4 elements of one byte are both written: the nibbles merge. -/
def mergeNib (D : Desc) (val : Nat → Nat → Nat → Nat → Nat) (old : Nat → Byte) (b : Nat)
    (idx : List (Nat × Nat × Nat × Nat)) : List (Nat × Byte) :=
  idx.foldl (fun acc x =>
    let a := D.el b x.2.2.2 x.2.2.1 x.2.1 x.1
    let y := (((acc.reverse.find? fun p => p.1 = a).map (·.2)).getD (old a)).toNat
    let v := val x.2.2.2 x.2.2.1 x.2.1 x.1 % 16
    acc ++ [(a, BitVec.ofNat 8 (if x.2.2.2 % 2 = 0 then y / 16 * 16 + v else y % 16 + 16 * v))]) []

/-- The groups a ZC32 copy of the first L rows touches. -/
def Desc.zcGroups (D : Desc) (L : Nat) : List Nat :=
  (List.range (cdiv D.blocks 64)).filter fun g =>
    (List.range 64).any fun i =>
      let j := 64 * g + i
      j < D.blocks && j / cdiv D.d0 32 / D.d1 % D.d2 < L

/-- One group of a ZC32 copy: mask stream and data stream with the destination's sync tag (R109, R181). -/
def zcCopyGroup (d : Dev) (a o : Opd) (g : Nat) : List (Nat × Byte) × List (Nat × Nat) :=
  let tag := toLE 2 ((o.D.ptag + g) % 65536)
  let n := d.rdLE (a.mb + 288 * g + 2) 2
  let ma := span (a.mb + 288 * g + 2) 286
  let da := span (a.b + 2080 * g + 32) n
  let sh := fun (from' to' x : Nat) => x - from' + to'
  (wrAt (o.mb + 288 * g) tag ++ ma.map (fun x => (sh a.mb o.mb x, d.rd x)) ++
   wrAt (o.b + 2080 * g) (tag ++ zeros 30) ++ da.map (fun x => (sh a.b o.b x, d.rd x)),
   (ma.map fun x => (x, sh a.mb o.mb x)) ++ (da.map fun x => (x, sh a.b o.b x)))

def moveRes (d : Dev) (k : Core) (w : IWord) (s : List Word) : Res :=
  match k.opd s (iD w), k.opd s (iA w) with
  | some o, oa =>
    let D := o.D
    let L := lenSel s (imm w 0 5) D.outer 0
    let pat := imm w 32 32
    if modBit w 0 then
      let el := fun a => wrAt a (toLE D.etype.size (pat % 2 ^ (8 * D.etype.size)))
      if D.layout.isImg then { ws := (coords D.iN L D.iW D.iC).flatMap fun x => el (D.img o.b x.1 x.2.1 x.2.2.1 x.2.2.2) }
      else if D.layout = .linear then
        if D.etype = .i4 then { ws := mergeNib D (fun _ _ _ _ => pat) (d.rd ·) o.b (D.linBelow L) }
        else { ws := (D.linBelow L).flatMap fun x => el (D.el o.b x.2.2.2 x.2.2.1 x.2.1 x.1) }
      else if D.etype = .i4 then { ws := (D.below L).map fun q => (o.b + q, BitVec.ofNat 8 (pat % 16 * 17)) }
      else { ws := (D.below L).map fun q => (o.b + q, BitVec.ofNat 8 (pat / 2 ^ (8 * (q % D.etype.size)))) }
    else
      match oa with
      | some a =>
        if D.zc then
          let gs := D.zcGroups L
          let bad := gs.find? fun g => !d.zcGroupOk a.b a.mb a.D.ptag g a.D.blocks
          let parts := gs.map (zcCopyGroup d a o)
          { copyRes d (parts.flatMap (·.1)) (parts.flatMap (·.2)) with
            bad := match bad with
              | some g => [(.maskDesync, a.mb + 288 * g)]
              | none => [] }
        else if D.layout.isImg then
          let mv := (coords D.iN L D.iW D.iC).map fun x =>
            (a.D.img a.b x.1 x.2.1 x.2.2.1 x.2.2.2, D.img o.b x.1 x.2.1 x.2.2.1 x.2.2.2)
          copyRes d (mv.map fun p => (p.2, d.rd p.1)) mv
        else if D.layout = .linear then
          let idx := D.linBelow L
          let mv := idx.map fun x => (a.D.el a.b x.2.2.2 x.2.2.1 x.2.1 x.1, D.el o.b x.2.2.2 x.2.2.1 x.2.1 x.1)
          if D.etype = .i4 then
            let val := fun i0 i1 i2 i3 => let y := (d.rd (a.D.el a.b i0 i1 i2 i3)).toNat; if i0 % 2 = 0 then y % 16 else y / 16
            copyRes d (mergeNib D val (d.rd ·) o.b idx) mv
          else copyRes d ((idx.zip mv).flatMap fun x => copyEl d D.etype x.1.2.2.2 x.2.1 x.2.2) mv
        else
          let src := a.D.below L
          let dst := D.below L
          let mv := (src.zip dst).map fun p => (a.b + p.1, o.b + p.2)
          copyRes d (mv.map fun p => (p.2, d.rd p.1)) mv
      | none => {}
  | none, _ => {}

/-! ### MOVE2D (R112) -/

/-- The two windows may pair (R112). -/
def m2Pair (A D : Desc) : Bool :=
  A.etype = D.etype && !A.zc && !D.zc &&
  ((A.lin2 && D.lin2) ||
   ((A.layout = .nhwc32 || A.layout = .halo32) && (D.layout = .nhwc32 || D.layout = .halo32) ||
      (A.layout = .nhwc16 && D.layout = .nhwc16)) && A.d0 = D.d0 && A.d3 = 1 && D.d3 = 1)

def Desc.m2rows (D : Desc) : Nat := if D.layout = .linear then D.d1 else D.d2
def Desc.m2cols (D : Desc) : Nat := if D.layout = .linear then D.d0 else D.d1

def move2dForm (k : Core) (w : IWord) (s : List Word) : Form :=
  match k.opd s (iD w), k.opd s (iA w) with
  | some o, some a =>
    let pad := bits (iMod w) 0 2
    let rows := lenSel s (imm w 18 5) o.D.m2rows 0
    { ok := reservedOk w 3 (2 ^ 23 - 1) && pad ≤ 2 && o.D.writable && m2Pair a.D o.D && (pad = 0 || a.D.etype.is8),
      unit := .move, srcs := [a], dsts := [o], shape := rows ≤ o.D.m2rows, zero := rows = 0 }
  | _, _ => Form.bad .move

def move2dRes (d : Dev) (k : Core) (w : IWord) (s : List Word) : Res :=
  match k.opd s (iD w), k.opd s (iA w) with
  | some o, some a =>
    let D := o.D
    let pad := bits (iMod w) 0 2
    let y0 := sext (sreg s (imm w 0 5)) 16
    let x0 := sext (sreg s (imm w 5 5)) 16
    let rows := lenSel s (imm w 18 5) D.m2rows 0
    let pv : Int := if pad = 0 then 0 else if pad = 1 then a.D.zp else
      (if D.etype = .i8 then sext (imm w 10 8) 8 else imm w 10 8)
    let cs := if D.layout = .linear then 1 else D.d0
    let adr := fun (E : Desc) (b y x c : Nat) => if E.layout = .linear then E.el b x y 0 0 else E.img b 0 y x c
    let cells := coords 1 rows D.m2cols cs
    let one := fun (q : Nat × Nat × Nat × Nat) =>
      let y := y0 + q.2.1
      let x := x0 + q.2.2.1
      let to' := adr D o.b q.2.1 q.2.2.1 q.2.2.2
      if 0 ≤ y ∧ y < a.D.m2rows ∧ 0 ≤ x ∧ x < a.D.m2cols then
        (some (adr a.D a.b y.toNat x.toNat q.2.2.2), to') else (none, to')
    let mv := cells.map one
    let nib := D.layout = .linear && D.etype = .i4
    let ws := if nib then
        mergeNib D (fun i0 i1 _ _ =>
          let y := y0 + i1
          let x := x0 + i0
          if 0 ≤ y ∧ y < a.D.m2rows ∧ 0 ≤ x ∧ x < a.D.m2cols then
            let v := (d.rd (a.D.el a.b x.toNat y.toNat 0 0)).toNat
            if x.toNat % 2 = 0 then v % 16 else v / 16
          else 0) (d.rd ·) o.b (coords 1 1 rows D.m2cols)
      else mv.flatMap fun p => match p.1 with
        | some f => (List.range D.etype.size).map fun j => (p.2 + j, d.rd (f + j))
        | none => wrElem D.etype p.2 pv
    copyRes d ws (mv.filterMap fun p => p.1.map fun f => (f, p.2))
  | _, _ => {}

/-! ### GATHER (R114) -/

def gatherForm (k : Core) (w : IWord) (s : List Word) : Form :=
  match k.opd s (iD w), k.opd s (iA w), k.opd s (iB w) with
  | some o, some a, some b =>
    let cnt := lenSel s (imm w 0 5) b.D.d0 0
    { ok := reservedOk w 0 31 && o.D.writable && a.D.lin2 && o.D.lin2 && b.D.lin2 && b.D.d1 = 1 && b.D.etype = .u16 &&
        a.D.etype = o.D.etype && a.D.etype ≠ .i4 && a.D.d0 = o.D.d0 && b.D.d0 ≤ o.D.d1 && !a.D.zc && !o.D.zc,
      unit := .move, srcs := [a, b], dsts := [o], shape := cnt ≤ b.D.d0, zero := cnt = 0 }
  | _, _, _ => Form.bad .move

def gatherRes (d : Dev) (k : Core) (w : IWord) (s : List Word) : Res :=
  match k.opd s (iD w), k.opd s (iA w), k.opd s (iB w) with
  | some o, some a, some b =>
    let cnt := lenSel s (imm w 0 5) b.D.d0 0
    let sz := o.D.etype.size
    let rows := (List.range cnt).map fun i => (i, (d.elem .u16 (b.D.el b.b i 0 0 0)).toNat)
    let ws := rows.flatMap fun r => (List.range o.D.d0).flatMap fun x =>
      (List.range sz).map fun j =>
        (o.D.el o.b x r.1 0 0 + j, if r.2 < a.D.d1 then d.rd (a.D.el a.b x r.2 0 0 + j) else 0)
    let mv := (rows.filter fun r => r.2 < a.D.d1).flatMap fun r =>
      (List.range o.D.d0).map fun x => (a.D.el a.b x r.2 0 0, o.D.el o.b x r.1 0 0)
    let idx := (List.range cnt).map fun i => b.D.el b.b i 0 0 0
    let poisonedIx := (List.range cnt).filter fun i => d.poisonAt (b.D.el b.b i 0 0 0)
    let r := copyRes d ws mv
    { r with reads := r.reads ++ idx,
             pz := r.pz ++ poisonedIx.flatMap fun i => (List.range o.D.d0).map fun x => o.D.el o.b x i 0 0 }
  | _, _, _ => {}

end Sys2Proof.Machine
end

