-- ==== Sys2Proof/Machine/CompMat.lean ====
section
/-!
DEFINITION. LDW, LDW4, MATMUL, EWISE and CONV: their operand rules, the weight planes, and the bytes they write
(R19 to R41, R116 to R134, R170 to R183).
-/

namespace Sys2Proof.Machine

/-! ### Weights (R34 to R37, R116 to R119) -/

/-- A weight operand is well formed: WTILE8 or WTILE4 with its shift stream, zero point 0 (R25, R85). -/
def Core.weightOk (k : Core) (D : Desc) : Bool :=
  (D.layout = .wtile8 || D.layout = .wtile4) && D.zp = 0 && k.pairOk D

/-- Stored columns per tile. -/
def Desc.tileN (D : Desc) : Nat := if D.layout = .wtile4 then 512 else 256

/-- Index of the stored tile of weight row k and column n (R116, R117). -/
def Desc.tileOf (D : Desc) (k n : Nat) : Nat := n / D.tileN * D.kt + k / 256

/-- Address of the byte that holds weight (k, n). -/
def Opd.wAddr (o : Opd) (k n : Nat) : Nat :=
  let col := n % o.D.tileN
  o.b + 65536 * o.D.tileOf k n + 256 * (k % 256) + (if o.D.layout = .wtile4 then col / 2 else col)

/-- The shift of block b of a column in a tile's shift stream (R36). -/
def Dev.shiftOf (d : Dev) (o : Opd) (k n : Nat) : Nat :=
  bits (d.rdLE (o.mb + 2048 * o.D.tileOf k n + 32 + 3 * (n % 512)) 3) (3 * (k % 256 / 32)) 3

/-- The effective weight (k, n) (R35, R116). -/
def Dev.weight (d : Dev) (o : Opd) (k n : Nat) : Int :=
  let v := (d.rd (o.wAddr k n)).toNat
  if o.D.layout = .wtile4 then sext (if n % 2 = 0 then v % 16 else v / 16) 4 * 2 ^ d.shiftOf o k n
  else sext v 8

/-- Columns of one N-range (R118). -/
def Dev.rangeP (d : Dev) (c : Nat) (D : Desc) : Nat := max 1 (d.width c * (if D.layout = .wtile4 then 2 else 1))

/-- The tiles that N-ranges [lo, hi) of columns touch, over every K-tile. -/
def Desc.tilesIn (D : Desc) (lo hi kts : Nat) : List Nat :=
  (List.range (cdiv hi D.tileN)).flatMap fun nt =>
    if lo < (nt + 1) * D.tileN then (List.range kts).map fun kt => nt * D.kt + kt else []

/-- The shift streams of these tiles carry their tags (R37, R85); the first that does not. -/
def Dev.shiftBad (d : Dev) (o : Opd) (tiles : List Nat) : List (Code × Nat) :=
  if o.D.layout = .wtile4 then
    match tiles.find? fun t => d.rdLE (o.mb + 2048 * t) 2 ≠ (o.D.ptag + t) % 65536 with
    | some t => [(.shiftDesync, o.mb + 2048 * t)]
    | none => []
  else []

/-- Addresses read to load columns [lo, hi) of rows [0, K). -/
def Opd.wReads (o : Opd) (lo hi K kts : Nat) : List Nat :=
  (pairs K (hi - lo)).map (fun x => o.wAddr x.1 (lo + x.2)) ++
  (if o.D.layout = .wtile4 then (o.D.tilesIn lo hi kts).flatMap fun t => span (o.mb + 2048 * t) 1568 else [])

/-- The weights of range 0 of K-tile 0. -/
def Dev.firstRange (d : Dev) (c : Nat) (o : Opd) : List (List Int) :=
  (List.range (min 256 o.D.d1)).map fun k => (List.range (min (d.rangeP c o.D) o.D.d0)).map fun n => d.weight o k n

/-! ### The planes (R21, R119, R120) -/

/-- Identity of range r of K-tile kt of the weights in a slot. -/
def planeId (ctx slot : Nat) (w4 : Bool) (r kt : Nat) (data : List (List Int)) : PlaneId :=
  { ctx := ctx, slot := slot, w4 := w4, range := r, kt := kt, data := data }

/-- The plane holds range 0 of K-tile 0 of these weights. -/
def holdsFirst (p : Option PlaneId) (ctx slot : Nat) (w4 : Bool) : Bool :=
  match p with
  | some q => q.ctx = ctx && q.slot = slot && q.w4 = w4 && q.range = 0 && q.kt = 0
  | none => false

/-- The planes after a contraction's passes, and the weights its first pass used: the three cases of R119, then the loads
of the later passes. -/
def Core.runPlanes (k : Core) (ctx slot : Nat) (w4 : Bool) (nr kt : Nat) (own : List (List Int)) :
    Core × List (List Int) :=
  let (k, w0) :=
    if holdsFirst k.planeA ctx slot w4 then (k, (k.planeA.map (·.data)).getD own)
    else if holdsFirst k.planeS ctx slot w4 then
      ({ k with planeA := k.planeS, planeS := k.planeA }, (k.planeS.map (·.data)).getD own)
    else ({ k with planeA := some (planeId ctx slot w4 0 0 own), planeS := k.planeA }, own)
  let n := nr * kt
  let pass := fun p => planeId ctx slot w4 (p / kt) (p % kt) (if p = 0 then w0 else [])
  if 2 ≤ n then ({ k with planeA := some (pass (n - 1)), planeS := some (pass (n - 2)) }, w0) else (k, w0)

/-! ### LDW and LDW4 (R120 to R124) -/

def ldwForm (k : Core) (w : IWord) (s : List Word) : Form :=
  match k.opd s (iA w) with
  | some a =>
    if modBit w 0 then
      { ok := reservedOk w 7 3 && a.D.layout = .lut256 && decide (imm w 0 2 < a.D.d0), unit := .wload, srcs := [a] }
    else { ok := reservedOk w 7 3 && k.weightOk a.D && a.D.layout = .wtile8, unit := .wload, srcs := [a] }
  | none => Form.bad .wload

def ldw4Form (k : Core) (w : IWord) (s : List Word) : Form :=
  match k.opd s (iA w) with
  | some a => { ok := reservedOk w 0 0 && k.weightOk a.D && a.D.layout = .wtile4, unit := .wload, srcs := [a],
                aux := k.pairOpd s a.D }
  | none => Form.bad .wload

/-- What a weight or table load reads, and the faults its data hold. -/
def ldwRes (d : Dev) (c : Nat) (k : Core) (w : IWord) (s : List Word) : Res :=
  match k.opd s (iA w) with
  | some a =>
    if iOp w = 8 && modBit w 0 then
      let r := span (a.b + 256 * imm w 0 2) 256
      { reads := r, bad := d.poisonFault r }
    else
      let hi := min (d.rangeP c a.D) a.D.d0
      let r := a.wReads 0 hi (min 256 a.D.d1) 1
      { reads := r, bad := d.shiftBad a (a.D.tilesIn 0 hi 1) ++ d.poisonFault r }
  | none => {}

/-- The core as LDW or LDW4 leaves it: the shadow plane or a drain slot takes the bytes read at issue. -/
def ldwCore (d : Dev) (c : Nat) (k : Core) (w : IWord) (s : List Word) : Core :=
  match k.opd s (iA w) with
  | some a =>
    if iOp w = 8 && modBit w 0 then
      { k with luts := mput k.luts (bits (iMod w) 1 2) (d.rdN (a.b + 256 * imm w 0 2) 256) }
    else
      { k with planeS := some (planeId ((k.run.map (·.ctx)).getD 0) (iA w) (a.D.layout = .wtile4) 0 0 (d.firstRange c a)) }
  | none => k

/-! ### Contractions -/

/-- A contraction of m rows: x i k is activation k of row i, in the order its rows are written; dst i n the address of its
result; rowAt the destination row number of row i. -/
structure Contr where
  o : Opd
  wt : Opd
  bias : Option Opd
  ps : Option Opd
  m : Nat
  K : Nat
  x : Nat → Nat → Int
  dst : Nat → Nat → Nat
  /-- blocks [lo, hi) of a ZC32 destination -/
  zlo : Nat
  zhi : Nat
  relu : Bool

def Contr.N (q : Contr) : Nat := q.wt.D.d0
def Contr.KT (q : Contr) : Nat := cdiv q.K 256

/-- Σ over rows [256 kt, min(K, 256 kt + 256)) of weight times activation. -/
def passSum (x wt : Nat → Int) (K kt : Nat) : Int :=
  sumZ (min K (256 * kt + 256) - 256 * kt) fun j => wt (256 * kt + j) * x (256 * kt + j)

/-- The sum of the first kts passes, each addition clamped, and whether one clamped (R23, R27). -/
def passAcc (x wt : Nat → Int) (K kts : Nat) : Int × Bool :=
  (List.range kts).foldl (fun acc kt => let y := sat32 (acc.1 + passSum x wt K kt); (y.1, acc.2 || y.2)) (0, false)

/-- The weight used: the first pass from the plane, the others from the region. -/
def Contr.w (q : Contr) (d : Dev) (w0 : List (List Int)) (P k n : Nat) : Int :=
  if k < 256 ∧ n < P then (w0.getD k []).getD n 0 else d.weight q.wt k n

/-- The stored value of row i, column n, and whether an addition clamped. -/
def Contr.val (q : Contr) (d : Dev) (w0 : List (List Int)) (P : Nat) (lut : Option (List Byte)) (i n : Nat) : Int × Bool :=
  let a := passAcc (q.x i) (fun k => q.w d w0 P k n) q.K q.KT
  let b := match q.bias with
    | some c => d.elem .i32 (c.D.el c.b n 0 0 0)
    | none => 0
  let r := drain q.o.D q.relu lut a.1 b
  (r.1, a.2 || r.2)

/-- The packed bytes, masks and headers of group g of a ZC32 tensor whose blocks' channel values are v (R179, R181). -/
def zcGroupWrite (o : Opd) (v : Nat → Nat → Int) (g : Nat) : List (Nat × Byte) :=
  let nb := cdiv o.D.d0 32
  let n := min 64 (o.D.blocks - 64 * g)
  let chan := fun j => (List.range 32).filter fun i =>
    32 * (j % nb) + i < o.D.d0 && v (j / nb) (32 * (j % nb) + i) ≠ o.D.zp
  let mask := fun j => (chan j).foldl (fun acc i => acc + 2 ^ i) 0
  let packed := (List.range n).flatMap fun i =>
    (chan (64 * g + i)).flatMap fun ch =>
      elemBytes o.D.etype (v ((64 * g + i) / nb) (32 * ((64 * g + i) % nb) + ch))
  let tag := toLE 2 ((o.D.ptag + g) % 65536)
  let masks := (List.range 64).flatMap fun i => toLE 4 (if i < n then mask (64 * g + i) else 0)
  wrAt (o.mb + 288 * g) (tag ++ toLE 2 packed.length ++ zeros 28 ++ masks) ++
  wrAt (o.b + 2080 * g) (tag ++ zeros 30 ++ packed)

/-- Groups of the blocks [lo, hi). -/
def groupsOf (lo hi : Nat) : List Nat := (List.range (cdiv hi 64)).filter fun g => lo < 64 * g + 64

/-- The psum writes of one N-range: the sums after each pass but the last (R23, R126). -/
def Contr.psumWrites (q : Contr) (d : Dev) (w0 : List (List Int)) (P r : Nat) : List (Nat × Byte) :=
  match q.ps with
  | some p =>
    (List.range (q.KT - 1)).flatMap fun kt =>
      (pairs q.m (min P (q.N - r * P))).flatMap fun x =>
        wrElem .i32 (p.D.el p.b x.2 x.1 0 0) (passAcc (q.x x.1) (fun k => q.w d w0 P k (r * P + x.2)) q.K (kt + 1)).1
  | none => []

/-- Psum words at the edges of a row that this instruction's own writes do not cover whole: they keep their poison. -/
def Contr.psumEdges (q : Contr) (P : Nat) : List Nat :=
  match q.ps with
  | some p =>
    if q.KT ≤ 1 then []
    else (List.range q.m).flatMap fun i =>
      let lo := p.D.el p.b 0 i 0 0
      let hi := lo + 4 * min P q.N
      (if lo % 32 = 0 then [] else [lo]) ++ (if hi % 32 = 0 then [] else [hi - 1])
  | none => []

/-- What a contraction yields. -/
def Contr.res (q : Contr) (d : Dev) (core : Nat) (w0 : List (List Int)) (lut : Option (List Byte)) (xreads : List Nat)
    (xbad : List (Code × Nat)) : Res :=
  let P := d.rangeP core q.wt.D
  let nr := cdiv q.N P
  let outs := (pairs q.m q.N).map fun x => q.val d w0 P lut x.1 x.2
  let outAt := fun (i n : Nat) => ((outs.getD (i * q.N + n) (0, false)).1)
  let ws := (List.range nr).flatMap fun r =>
    q.psumWrites d w0 P r ++
    (if q.o.D.zc then [] else
      (pairs q.m (min P (q.N - r * P))).flatMap fun x =>
        wrElem q.o.D.etype (q.dst x.1 (r * P + x.2)) (outAt x.1 (r * P + x.2)))
  let zs := if q.o.D.zc then
      let row0 := q.zlo / cdiv q.o.D.d0 32
      (groupsOf q.zlo q.zhi).flatMap (zcGroupWrite q.o fun i n => outAt (i - row0) n)
    else []
  let breads := match q.bias with
    | some c => (List.range q.N).map fun n => c.D.el c.b n 0 0 0
    | none => []
  let reads := xreads ++ q.wt.wReads 0 q.N q.K q.KT ++ breads
  { ws := ws ++ zs, reads := reads,
    bad := d.shiftBad q.wt (q.wt.D.tilesIn 0 q.N q.KT) ++ xbad ++ d.poisonFault (reads ++ q.psumEdges P),
    acc := outs.any (·.2) }

/-- The psum operand of a contraction with more than one K-tile; the field is not read otherwise (R127). -/
def psumOpd (k : Core) (s : List Word) (slot : Nat) (valid : Bool) (K : Nat) : Option Opd :=
  if K ≤ 256 || !valid then none else k.opd s slot

/-- The operand rules of psum: PSUM32 and wide enough (R127). -/
def psumRule (ps : Option Opd) (w4 : Bool) (K : Nat) : Bool :=
  K ≤ 256 ||
  match ps with
  | some p => p.D.layout = .psum32 && decide ((if w4 then 512 else 256) ≤ p.D.d0)
  | none => false

/-- The psum region holds the run-time rows (R127). -/
def psumRows (ps : Option Opd) (m : Nat) : Bool :=
  match ps with
  | some p => decide (16 * cdiv m 16 ≤ p.D.d1)
  | none => true

/-- The bias operand: BIAS32 with enough entries, unless no_bias is set (R125). -/
def biasRule (c : Option Opd) (noBias : Bool) (n : Nat) : Bool :=
  noBias ||
  match c with
  | some o => o.D.layout = .bias32 && decide (n ≤ o.D.d0)
  | none => false

/-- MASK_DESYNC of the first group of a source that fails its checks (R182). -/
def Dev.maskBad (d : Dev) (o : Opd) (groups : List Nat) : List (Code × Nat) :=
  if o.D.zc then
    match groups.find? fun g => !d.zcGroupOk o.b o.mb o.D.ptag g o.D.blocks with
    | some g => [(.maskDesync, o.mb + 288 * g)]
    | none => []
  else []

/-! ### MATMUL (R125 to R128) -/

/-- K and M of an activation operand. -/
def Desc.matK (D : Desc) : Nat := D.d0
def Desc.matM (D : Desc) : Nat := if D.layout = .linear then D.d1 else D.d1 * D.d2 * D.d3

/-- Row i of an activation or output region as an image position. -/
def Desc.rowPix (D : Desc) (i : Nat) : Nat × Nat × Nat := (i / (D.d1 * D.d2), i / D.d1 % D.d2, i % D.d1)

/-- Bias, psum, drain-slot fields shared by MATMUL and CONV. -/
def noBias (w : IWord) : Bool := modBit w 4

def matmulForm (k : Core) (w : IWord) (s : List Word) : Form :=
  match k.opd s (iD w), k.opd s (iA w), k.opd s (iB w) with
  | some o, some a, some b =>
    let K := a.D.matK
    let M := a.D.matM
    let N := b.D.d0
    let m0 := startSel s (imm w 0 5)
    let m := lenSel s (imm w 5 5) M m0
    let ps := psumOpd k s (imm w 10 8) (immBit w 18) K
    let c := k.opd s (iC w)
    let aOk := a.D.actOk && (a.D.lin2 || a.D.layout = .nhwc32 || a.D.layout = .nhwc16) &&
      (!a.D.zc || a.D.layout = .nhwc32) && k.pairOk a.D
    let dOk := (o.D.lin2 && o.D.d0 = N && o.D.d1 = M ||
        o.D.layout = a.D.layout && a.D.layout ≠ .linear && o.D.d0 = N && o.D.d1 = a.D.d1 && o.D.d2 = a.D.d2 &&
          o.D.d3 = a.D.d3) &&
      o.D.outOk (modBit w 1) && o.D.writable && (!o.D.zc || o.D.layout = .nhwc32) && k.pairOk o.D
    let nb := cdiv o.D.d0 32
    let zOk := !o.D.zc || m = 0 || zcRangeOk (m0 * nb) ((m0 + m) * nb) o.D.blocks
    { ok := reservedOk w 31 (2 ^ 19 - 1) && aOk && dOk && k.weightOk b.D && b.D.d1 = K && biasRule c (noBias w) N &&
        psumRule ps (b.D.layout = .wtile4) K && zOk,
      unit := .array, srcs := [a, b] ++ (if noBias w then [] else c.toList), dsts := [o],
      aux := k.pairOpd s a.D ++ k.pairOpd s b.D ++ k.pairOpd s o.D,
      shape := m0 + m ≤ M, psum := ps, psumOk := psumRows ps m, zero := m = 0 }
  | _, _, _ => Form.bad .array

/-- The value of activation k of row i of a MATMUL's a. -/
def Dev.actVal (d : Dev) (a : Opd) (i k : Nat) : Int :=
  if a.D.layout = .linear then d.elem a.D.etype (a.D.el a.b k i 0 0)
  else let p := a.D.rowPix i; d.px a p.1 p.2.1 p.2.2 k

/-- Address of element n of row i of a MATMUL's d. -/
def Opd.rowAddr (o : Opd) (i n : Nat) : Nat :=
  if o.D.layout = .linear then o.D.el o.b n i 0 0
  else let p := o.D.rowPix i; o.D.img o.b p.1 p.2.1 p.2.2 n

def matmulRes (d : Dev) (core : Nat) (k : Core) (w : IWord) (s : List Word) (w0 : List (List Int))
    (lut : List Byte) : Res :=
  match k.opd s (iD w), k.opd s (iA w), k.opd s (iB w) with
  | some o, some a, some b =>
    let m0 := startSel s (imm w 0 5)
    let m := lenSel s (imm w 5 5) a.D.matM m0
    let K := a.D.matK
    let nb := cdiv o.D.d0 32
    let na := cdiv a.D.d0 32
    let q : Contr := { o := o, wt := b, bias := if noBias w then none else k.opd s (iC w),
                       ps := psumOpd k s (imm w 10 8) (immBit w 18) K, m := m, K := K,
                       x := fun i => d.actVal a (m0 + i), dst := fun i => o.rowAddr (m0 + i),
                       zlo := m0 * nb, zhi := (m0 + m) * nb, relu := modBit w 0 }
    let gs := groupsOf (m0 * na) ((m0 + m) * na)
    let xr := if a.D.zc then gs.flatMap (d.zcSpan a.b a.mb)
      else (pairs m K).map fun x => a.rowAddr (m0 + x.1) x.2
    q.res d core w0 (if modBit w 1 then some lut else none) xr (d.maskBad a gs)
  | _, _, _ => {}

/-! ### CONV (R132 to R134, R172) -/

/-- Layouts a feature map may have in a CONV. -/
def Desc.mapOk (D : Desc) : Bool := (D.layout = .nhwc32 || D.layout = .nhwc16 || D.layout = .halo32) && D.d3 = 1

/-- Kernel fields of 0 to 10. -/
def Win.kOk (p : Win) : Bool := p.kh ≤ 10 && p.kw ≤ 10

/-- The tap and channel of weight row k. -/
def Win.tap (p : Win) (cb k : Nat) : Nat × Nat × Nat := (k / cb / (p.kw + 1), k / cb % (p.kw + 1), k % cb)

def convForm (k : Core) (w : IWord) (s : List Word) : Form :=
  match k.opd s (iD w), k.opd s (iA w), k.opd s (iB w) with
  | some o, some a, some b =>
    let ho := o.D.pH
    let wo := o.D.pW
    let p := winOf w s ho
    let K := (p.kh + 1) * (p.kw + 1) * a.D.cb
    let N := o.D.d0
    let ps := psumOpd k s (imm w 47 8) (immBit w 55) K
    let c := k.opd s (iC w)
    let aOk := a.D.mapOk && a.D.actOk && (!a.D.zc || a.D.layout ≠ .nhwc16) && k.pairOk a.D
    let dOk := o.D.mapOk && o.D.outOk (modBit w 1) && o.D.writable && (!o.D.zc || o.D.layout = .nhwc32) && k.pairOk o.D
    let nb := cdiv o.D.d0 32
    let zOk := !o.D.zc || p.rows = 0 || zcRangeOk (p.y0 * wo * nb) ((p.y0 + p.rows) * wo * nb) o.D.blocks
    { ok := reservedOk w 223 (2 ^ 56 - 1) && p.kOk && aOk && dOk && k.weightOk b.D && b.D.d0 = N && b.D.d1 = K &&
        biasRule c (noBias w) N && psumRule ps (b.D.layout = .wtile4) K && zOk && !p.tooFar a.D ho wo,
      unit := .array, srcs := [a, b] ++ (if noBias w then [] else c.toList), dsts := [o],
      aux := k.pairOpd s a.D ++ k.pairOpd s b.D ++ k.pairOpd s o.D,
      shape := p.y0 + p.rows ≤ ho, psum := ps, psumOk := psumRows ps (p.rows * wo), zero := p.rows = 0 }
  | _, _, _ => Form.bad .array

/-- Address of channel n of the output pixel (oy, ox) of the tile proper (R82, R132). -/
def Opd.outAddr (o : Opd) (oy ox n : Nat) : Nat := o.D.img o.b 0 (oy + o.D.hh) (ox + o.D.hw) n

/-- The positions of a that rows y0 to y0 + rows − 1 read, over all taps. -/
def Win.positions (p : Win) (D : Desc) (wo : Nat) : List (Nat × Nat) :=
  (coords p.rows wo (p.kh + 1) (p.kw + 1)).filterMap fun x =>
    padPos D p (p.iy (p.y0 + x.1) x.2.2.1) (p.ix x.2.1 x.2.2.2)

/-- The value of channel c of a at output (oy, ox), tap (ky, kx). -/
def Dev.tapVal (d : Dev) (a : Opd) (p : Win) (oy ox ky kx c : Nat) : Int := d.winPx a p (p.iy oy ky) (p.ix ox kx) c

def convRes (d : Dev) (core : Nat) (k : Core) (w : IWord) (s : List Word) (w0 : List (List Int))
    (lut : List Byte) : Res :=
  match k.opd s (iD w), k.opd s (iA w), k.opd s (iB w) with
  | some o, some a, some b =>
    let ho := o.D.pH
    let wo := o.D.pW
    let p := winOf w s ho
    let cb := a.D.cb
    let K := (p.kh + 1) * (p.kw + 1) * cb
    let nb := cdiv o.D.d0 32
    let oy := fun i => p.y0 + i / wo
    let q : Contr := { o := o, wt := b, bias := if noBias w then none else k.opd s (iC w),
                       ps := psumOpd k s (imm w 47 8) (immBit w 55) K, m := p.rows * wo, K := K,
                       x := fun i r => let t := p.tap cb r; d.tapVal a p (oy i) (i % wo) t.1 t.2.1 t.2.2,
                       dst := fun i => o.outAddr (oy i) (i % wo),
                       zlo := p.y0 * wo * nb, zhi := (p.y0 + p.rows) * wo * nb, relu := modBit w 0 }
    let ps := p.positions a.D wo
    let na := cdiv a.D.d0 32
    let gs := if a.D.zc then
        dedup (ps.flatMap fun x => (List.range na).map fun c => a.D.blockNo 0 x.1 x.2 c / 64) else []
    let xr := if a.D.zc then gs.flatMap (d.zcSpan a.b a.mb)
      else ps.flatMap fun x => (List.range cb).map fun c => a.D.img a.b 0 x.1 x.2 c
    q.res d core w0 (if modBit w 1 then some lut else none) xr (d.maskBad a gs)
  | _, _, _ => {}

/-! ### EWISE (R39, R130) -/

def ewiseForm (k : Core) (w : IWord) (s : List Word) : Form :=
  match k.opd s (iD w), k.opd s (iA w), k.opd s (iB w) with
  | some o, some a, some b =>
    let L := lenSel s (imm w 0 5) o.D.outer 0
    let same := fun (D : Desc) => D.layout = o.D.layout && D.sameDims o.D
    let per := o.D.d1 * cdiv o.D.d0 32
    let zOk := !o.D.zc || L = 0 || (List.range o.D.d3).all fun n =>
      zcRangeOk (n * o.D.d2 * per) ((n * o.D.d2 + L) * per) o.D.blocks
    { ok := reservedOk w 31 (31 ||| ((2 ^ 32 - 1) * 2 ^ 32)) &&
        (o.D.layout = .linear || o.D.layout = .nhwc32 || o.D.layout = .nhwc16) && same a.D && same b.D &&
        a.D.actOk && b.D.actOk && o.D.outOk (modBit w 1) && o.D.writable && k.pairOk a.D && k.pairOk b.D && k.pairOk o.D &&
        zOk,
      unit := .array, srcs := [a, b], dsts := [o], aux := k.pairOpd s a.D ++ k.pairOpd s b.D ++ k.pairOpd s o.D,
      shape := L ≤ o.D.outer, zero := L = 0 }
  | _, _, _ => Form.bad .array

/-- The value of an element of a LINEAR or image operand by (i3, i2, i1, i0), and its address. -/
def Dev.anyEl (d : Dev) (o : Opd) (x : Nat × Nat × Nat × Nat) : Int :=
  if o.D.layout = .linear then d.elem o.D.etype (o.D.el o.b x.2.2.2 x.2.2.1 x.2.1 x.1)
  else d.px o x.1 x.2.1 x.2.2.1 x.2.2.2

/-- Address of that element. -/
def Opd.anyAddr (o : Opd) (x : Nat × Nat × Nat × Nat) : Nat :=
  if o.D.layout = .linear then o.D.el o.b x.2.2.2 x.2.2.1 x.2.1 x.1 else o.D.img o.b x.1 x.2.1 x.2.2.1 x.2.2.2

/-- The elements whose outer index is below L. -/
def Desc.idxBelow (D : Desc) (L : Nat) : List (Nat × Nat × Nat × Nat) :=
  if D.layout.isImg then coords D.iN L D.iW D.iC else D.linBelow L

def ewiseRes (d : Dev) (k : Core) (w : IWord) (s : List Word) (lut : List Byte) : Res :=
  match k.opd s (iD w), k.opd s (iA w), k.opd s (iB w) with
  | some o, some a, some b =>
    let L := lenSel s (imm w 0 5) o.D.outer 0
    let ka := sext (imm w 32 16) 16
    let kb := sext (imm w 48 16) 16
    let t := if modBit w 1 then some lut else none
    let val := fun x =>
      let qa := d.anyEl a x - a.D.zp
      let qb := d.anyEl b x - b.D.zp
      drain o.D (modBit w 0) t (if modBit w 4 then qa * qb else ka * qa + kb * qb) 0
    let idx := o.D.idxBelow L
    let gs := o.D.zcGroups L
    let rd := fun (e : Opd) => if e.D.zc then gs.flatMap (d.zcSpan e.b e.mb) else idx.map e.anyAddr
    let reads := rd a ++ rd b
    let ws := if o.D.zc then
        gs.flatMap (zcGroupWrite o fun p c =>
          (val (p / o.D.d1 / o.D.d2, p / o.D.d1 % o.D.d2, p % o.D.d1, c)).1)
      else idx.flatMap fun x => wrElem o.D.etype (o.anyAddr x) (val x).1
    { ws := ws, reads := reads, bad := d.maskBad a gs ++ d.maskBad b gs ++ d.poisonFault reads,
      acc := idx.any fun x => (val x).2 }
  | _, _, _ => {}

end Sys2Proof.Machine
end

