-- ==== Sys2Proof/Machine/CompVec.lean ====
section
/-!
DEFINITION. VOP, VLUT, SOFTMAX, ROWSTAT, NORM, POOL, RESIZE, DWCONV and STOOL: their operand rules and the bytes they write
(R43 to R45, R136 to R147, R168, R173, R175).
-/

namespace Sys2Proof.Machine

/-! ### Elements of the vector unit -/

/-- The format of a 16-bit float type. -/
def EType.fmt (e : EType) : Fmt := if e = .bf16 then Machine.bf16 else Machine.fp16

/-- Element types the vector unit takes (R139). -/
def EType.isVec : EType → Bool
  | .i8 | .u8 | .i16 | .u16 | .fp16 | .bf16 => true
  | _ => false

def EType.isInt (e : EType) : Bool := e.isVec && !e.isFloat16

/-- A result: the stored value, whether it saturated, whether it is a NaN. -/
structure VRes where
  v : Int
  sat : Bool := false
  nan : Bool := false
  deriving DecidableEq, Repr

/-- A float result delivered in a format (R43). -/
def outF (f : Fmt) (x : FV) : VRes := { v := f.pack x, nan := (f.rnd x).isNan }

/-- An integer result saturated to the type (R44). -/
def outI (e : EType) (x : Int) : VRes := let y := satTo e x; { v := y.1, sat := y.2 }

/-- A number rounded to an integer, offset and saturated; an infinity gives the end of the range; a NaN has no stated
value (R139, R144; log entry 13). -/
def outRne (e : EType) (zp : Int) (kind key : Nat) (x : FV) : VRes :=
  match x with
  | .nan => { v := clampI (Config.openInt kind key) e.lo e.hi }
  | .inf neg => { v := if neg then e.lo else e.hi, sat := true }
  | .num s m ex => outI e ((if s then -(rneInt m ex : Int) else rneInt m ex) + zp)

/-- What a list of results at addresses yields. -/
def vecRes (e : EType) (outs : List (Nat × VRes)) (reads : List Nat) (d : Dev) : Res :=
  { ws := outs.flatMap fun x => wrElem e x.1 x.2.v, reads := reads, bad := d.poisonFault reads,
    vsat := outs.any (·.2.sat), vnan := outs.any (·.2.nan) }

/-! ### VOP (R139) -/

def vopLayout (D : Desc) : Bool := D.layout = .linear || D.layout = .nhwc32 || D.layout = .nhwc16 || D.layout = .planar

/-- Operations that read no b. -/
def vopUnary (op : Nat) : Bool := op = 8 || op = 9 || op = 10 || 13 ≤ op

/-- The element types of an operation agree (R139). -/
def vopTypes (op : Nat) (a d : EType) : Bool :=
  a.isVec && d.isVec &&
  (if op = 5 ∨ op = 6 then d = .u8
   else if op = 11 ∨ op = 12 then a = d && a.isInt
   else if op = 13 then a.isInt && d.isFloat16
   else if op = 14 then a.isFloat16 && d.isInt
   else if op = 15 then a.isFloat16 && d.isFloat16 && a ≠ d
   else a = d)

def vopForm (k : Core) (w : IWord) (s : List Word) : Form :=
  match k.opd s (iD w), k.opd s (iA w) with
  | some o, some a =>
    let op := bits (iMod w) 0 5
    let needB := !vopUnary op && !modBit w 5
    let b := if needB then k.opd s (iB w) else none
    let c := if op = 7 then k.opd s (iC w) else none
    let same := fun (x : Opd) => x.D.layout = a.D.layout && x.D.sameDims a.D && !x.D.zc
    let L := lenSel s (imm w 0 5) a.D.outer 0
    let bOk := !needB || (match b with
      | some x => same x && x.D.etype = a.D.etype
      | none => false)
    let cOk := op ≠ 7 || (match c with
      | some x => same x && x.D.etype.is8
      | none => false)
    { ok := reservedOk w 63 (31 ||| (2 ^ 32 - 1) * 2 ^ 16) && op ≤ 15 && vopLayout a.D && same a && same o &&
        vopTypes op a.D.etype o.D.etype && bOk && cOk && o.D.writable,
      unit := .vector, srcs := [a] ++ b.toList ++ c.toList, dsts := [o], shape := L ≤ a.D.outer, zero := L = 0 }
  | _, _ => Form.bad .vector

/-- One element of an integer operation; z is a's zero point. -/
def vopInt (op : Nat) (e : EType) (z x y : Int) : VRes :=
  match op with
  | 0 => outI e (x + y)
  | 1 => outI e (x - y)
  | 2 => outI e (x * y)
  | 3 => outI e (min x y)
  | 4 => outI e (max x y)
  | 8 => outI e (x.natAbs : Int)
  | 9 => outI e (-x)
  | 10 => outI e (max x z)
  | 11 => outI e (x * 2 ^ (y % 16).toNat)
  | _ => outI e (rsh x (y % 16).toNat)

/-- One element of a float operation. -/
def vopFlt (op : Nat) (f : Fmt) (x y : FV) : VRes :=
  match op with
  | 0 => outF f (x.add y)
  | 1 => outF f (x.sub y)
  | 2 => outF f (x.mul y)
  | 3 => outF f (FV.minMax false x y)
  | 4 => outF f (FV.minMax true x y)
  | 8 => outF f x.abs
  | 9 => outF f x.neg
  | _ => outF f (FV.minMax true x (.num false 0 0))

/-- One element of VOP: ea and ed the types, x, y, c the stored values, sc the scale. -/
def vopEl (op : Nat) (ea ed : EType) (za zd : Int) (sc : Nat) (x y c : Int) : VRes :=
  let fl := ea.isFloat16
  let fx := ea.fmt.unpack x.toNat
  let fy := ea.fmt.unpack y.toNat
  let scale := fp16.unpack sc
  match op with
  | 5 => { v := if fl then b2n (fy.lt fx) else b2n (decide (y < x)) }
  | 6 => { v := if fl then b2n (fx.eq fy) else b2n (decide (x = y)) }
  | 7 => let r := if c ≠ 0 then x else y; if fl then outF ea.fmt (ea.fmt.unpack r.toNat) else { v := r }
  | 13 => outF ed.fmt ((FV.ofInt (x - za)).mul scale)
  | 14 =>
    match fx with
    | .nan => { outI ed zd with nan := true }
    | .inf neg => { v := if neg then ed.lo else ed.hi, sat := true }
    | _ => outRne ed zd 0 (x.toNat + 65536 * sc) (fx.mul scale)
  | 15 => outF ed.fmt fx
  | _ => if fl then vopFlt op ea.fmt fx fy else vopInt op ea za x y

/-- The immediate b element in a's type. -/
def vopImm (e : EType) (b : Nat) : Int :=
  match e with
  | .i8 => sext b 8
  | .u8 => (b % 256 : Nat)
  | .i16 => sext b 16
  | _ => (b : Nat)

def vopRes (d : Dev) (k : Core) (w : IWord) (s : List Word) : Res :=
  match k.opd s (iD w), k.opd s (iA w) with
  | some o, some a =>
    let op := bits (iMod w) 0 5
    let needB := !vopUnary op && !modBit w 5
    let b := if needB then k.opd s (iB w) else none
    let c := if op = 7 then k.opd s (iC w) else none
    let L := lenSel s (imm w 0 5) a.D.outer 0
    let idx := a.D.idxBelow L
    let val := fun (x : Option Opd) (i : Nat × Nat × Nat × Nat) (dflt : Int) => match x with
      | some q => d.anyEl q i
      | none => dflt
    let bi := vopImm a.D.etype (imm w 16 16)
    let outs := idx.map fun i =>
      (o.anyAddr i, vopEl op a.D.etype o.D.etype a.D.zp o.D.zp (imm w 32 16) (d.anyEl a i) (val b i bi) (val c i 0))
    vecRes o.D.etype outs (([a] ++ b.toList ++ c.toList).flatMap fun q => idx.map q.anyAddr) d
  | _, _ => {}

/-! ### VLUT (R140) -/

def vlutForm (k : Core) (w : IWord) (s : List Word) : Form :=
  match k.opd s (iD w), k.opd s (iA w), k.opd s (iB w) with
  | some o, some a, some b =>
    let L := lenSel s (imm w 0 5) a.D.outer 0
    { ok := reservedOk w 3 31 && (a.D.layout = .linear || a.D.layout.isImg) && a.D.etype.is8 && o.D.etype.is8 &&
        o.D.layout = a.D.layout && o.D.sameDims a.D && !a.D.zc && !o.D.zc && b.D.layout = .lut256 &&
        decide (bits (iMod w) 0 2 < b.D.d0) && o.D.writable,
      unit := .vector, srcs := [a, b], dsts := [o], shape := L ≤ a.D.outer, zero := L = 0 }
  | _, _, _ => Form.bad .vector

def vlutRes (d : Dev) (k : Core) (w : IWord) (s : List Word) : Res :=
  match k.opd s (iD w), k.opd s (iA w), k.opd s (iB w) with
  | some o, some a, some b =>
    let L := lenSel s (imm w 0 5) a.D.outer 0
    let idx := a.D.idxBelow L
    let ent := fun i => b.D.el b.b (bits (iMod w) 0 2) (d.anyEl a i - a.D.etype.lo).toNat 0 0
    vecRes o.D.etype (idx.map fun i => (o.anyAddr i, { v := d.elem o.D.etype (ent i) }))
      (idx.map a.anyAddr ++ idx.map ent) d
  | _, _, _ => {}

/-! ### SOFTMAX and ROWSTAT (R141 to R143) -/

/-- A score, none where it is masked. -/
def Dev.score (d : Dev) (a : Opd) (i j : Nat) : Option FV :=
  let v := d.elem a.D.etype (a.D.el a.b j i 0 0)
  if a.D.etype = .fp16 then some (fp16.unpack v.toNat)
  else if v = -32768 then none else some (FV.ofInt v)

/-- exp(β(s − m)) in FP32. -/
def expTerm (beta s m : FV) : FV := f32exp (f32mul beta (f32sub s m))

/-- m and ℓ of row i over its first n elements (R141). -/
def Dev.rowStat (d : Dev) (a : Opd) (beta : FV) (i n : Nat) : FV × FV :=
  let ss := (List.range n).filterMap fun j => d.score a i j
  match ss with
  | [] => (.inf true, .num false 0 0)
  | x :: r =>
    let m := r.foldl (FV.minMax true) x
    (m, ss.foldl (fun acc s => f32add acc (expTerm beta s m)) (.num false 0 0))

/-- The probability of a score under row statistics (R143). -/
def softProb (beta : FV) (st : FV × FV) (v : Option FV) : FV :=
  match v with
  | none => FV.num false 0 0
  | some v => if st.2.isZero then FV.num false 0 0 else f32div (expTerm beta v st.1) st.2

/-- A probability as UINT8 with q / 256 (R143); of a NaN an open value. -/
def softU8 (p : FV) (j : Nat) : Int :=
  match p with
  | .nan => clampI (Config.openInt 1 j) 0 255
  | _ => (outRne .u8 0 1 j (p.mul (FV.ofInt 256))).v

/-- The scores region of both instructions. -/
def scoresOk (a : Opd) : Bool := a.D.lin2 && (a.D.etype = .i16 || a.D.etype = .fp16)

/-- A region of row statistics with room for the rows. -/
def statsOk (o : Opd) (rows : Nat) : Bool := o.D.lin2 && o.D.etype = .fp32 && o.D.d0 = 2 && decide (rows ≤ o.D.d1)

def rowstatForm (k : Core) (w : IWord) (s : List Word) : Form :=
  match k.opd s (iD w), k.opd s (iA w) with
  | some o, some a =>
    let rows := lenSel s (imm w 0 5) a.D.d1 0
    let len := lenSel s (imm w 5 5) a.D.d0 0
    { ok := reservedOk w 1 (1023 ||| (2 ^ 16 - 1) * 2 ^ 32) && scoresOk a && o.D.lin2 && o.D.etype = .fp32 && o.D.d0 = 2 &&
        o.D.writable && (a.D.d1 < rows || statsOk o rows),
      unit := .vector, srcs := [a] ++ (if modBit w 0 then [o] else []), dsts := [o],
      shape := rows ≤ a.D.d1 && len ≤ a.D.d0, zero := rows = 0 || len = 0 }
  | _, _ => Form.bad .vector

/-- The statistics stored in row i of a region. -/
def Dev.stats (d : Dev) (o : Opd) (i : Nat) : FV × FV :=
  (fp32.unpack (d.rdLE (o.D.el o.b 0 i 0 0) 4), fp32.unpack (d.rdLE (o.D.el o.b 1 i 0 0) 4))

def rowstatRes (d : Dev) (k : Core) (w : IWord) (s : List Word) : Res :=
  match k.opd s (iD w), k.opd s (iA w) with
  | some o, some a =>
    let rows := lenSel s (imm w 0 5) a.D.d1 0
    let len := lenSel s (imm w 5 5) a.D.d0 0
    let beta := fp16.unpack (imm w 32 16)
    let outs := (List.range rows).flatMap fun i =>
      let x := d.rowStat a beta i len
      let y := if modBit w 0 then
          let z := d.stats o i
          let m := FV.minMax true z.1 x.1
          (m, f32add (f32mul z.2 (expTerm beta z.1 m)) (f32mul x.2 (expTerm beta x.1 m)))
        else x
      [(o.D.el o.b 0 i 0 0, outF fp32 y.1), (o.D.el o.b 1 i 0 0, outF fp32 y.2)]
    let reads := ((pairs rows len).map fun x => a.D.el a.b x.2 x.1 0 0) ++
      (if modBit w 0 then (pairs rows 2).map fun x => o.D.el o.b x.2 x.1 0 0 else [])
    vecRes .fp32 outs reads d
  | _, _ => {}

def softmaxForm (k : Core) (w : IWord) (s : List Word) : Form :=
  match k.opd s (iD w), k.opd s (iA w) with
  | some o, some a =>
    let rows := lenSel s (imm w 0 5) a.D.d1 0
    let len := lenSel s (imm w 5 5) a.D.d0 0
    let c := if modBit w 0 then k.opd s (iC w) else none
    let cOk := !modBit w 0 || (match c with
      | some x => a.D.d1 < rows || statsOk x rows
      | none => false)
    { ok := reservedOk w 3 (1023 ||| (2 ^ 16 - 1) * 2 ^ 32) && scoresOk a && o.D.lin2 && cOk && o.D.writable &&
        (if modBit w 1 then o.D.etype = .fp16 else o.D.etype = .u8 && o.D.zp = 0),
      unit := .vector, srcs := [a] ++ c.toList, dsts := [o],
      shape := rows ≤ a.D.d1 && len ≤ a.D.d0 && rows ≤ o.D.d1 && len ≤ o.D.d0, zero := rows = 0 || len = 0 }
  | _, _ => Form.bad .vector

def softmaxRes (d : Dev) (k : Core) (w : IWord) (s : List Word) : Res :=
  match k.opd s (iD w), k.opd s (iA w) with
  | some o, some a =>
    let rows := lenSel s (imm w 0 5) a.D.d1 0
    let len := lenSel s (imm w 5 5) a.D.d0 0
    let beta := fp16.unpack (imm w 32 16)
    let c := if modBit w 0 then k.opd s (iC w) else none
    let outs := (List.range rows).flatMap fun i =>
      let st := match c with
        | some x => d.stats x i
        | none => d.rowStat a beta i len
      (List.range len).map fun j =>
        let p := softProb beta st (d.score a i j)
        (o.D.el o.b j i 0 0, if modBit w 1 then outF fp16 p else { v := softU8 p j })
    let reads := ((pairs rows len).map fun x => a.D.el a.b x.2 x.1 0 0) ++
      (match c with
        | some x => (pairs rows 2).map fun y => x.D.el x.b y.2 y.1 0 0
        | none => [])
    vecRes o.D.etype outs reads d
  | _, _ => {}

/-! ### NORM (R144) -/

def normType (e : EType) : Bool := e = .i8 || e = .u8 || e = .i16 || e = .fp16 || e = .bf16

/-- Run-time rows: along d1 for LINEAR, along H for image layouts. -/
def Desc.normRows (D : Desc) : Nat := if D.layout = .linear then D.d1 else D.d2

def normForm (k : Core) (w : IWord) (s : List Word) : Form :=
  match k.opd s (iD w), k.opd s (iA w), k.opd s (iB w) with
  | some o, some a, some b =>
    let L := lenSel s (imm w 0 5) a.D.normRows 0
    { ok := reservedOk w 1 (31 ||| (2 ^ 48 - 1) * 2 ^ 16) &&
        (a.D.layout = .linear || a.D.layout = .nhwc32 || a.D.layout = .nhwc16) && o.D.layout = a.D.layout &&
        o.D.sameDims a.D && normType a.D.etype && normType o.D.etype && !a.D.zc && !o.D.zc && b.D.lin2 &&
        b.D.etype = .fp16 && b.D.d0 = a.D.d0 && b.D.d1 = 2 && o.D.writable,
      unit := .vector, srcs := [a, b], dsts := [o], shape := L ≤ a.D.normRows, zero := L = 0 }
  | _, _, _ => Form.bad .vector

/-- The rows of the normalised width: for LINEAR (i3, i2, i1), for images (n, h, w). -/
def Desc.normIdx (D : Desc) (L : Nat) : List (Nat × Nat × Nat) :=
  if D.layout = .linear then (coords D.d3 D.d2 L 1).map fun x => (x.1, x.2.1, x.2.2.1)
  else (coords D.d3 L D.d1 1).map fun x => (x.1, x.2.1, x.2.2.1)

def normRes (d : Dev) (k : Core) (w : IWord) (s : List Word) : Res :=
  match k.opd s (iD w), k.opd s (iA w), k.opd s (iB w) with
  | some o, some a, some b =>
    let L := lenSel s (imm w 0 5) a.D.normRows 0
    let n := a.D.d0
    let eps := fp16.unpack (imm w 16 16)
    let inS := fp16.unpack (imm w 32 16)
    let outS := fp16.unpack (imm w 48 16)
    let rows := a.D.normIdx L
    let at4 := fun (r : Nat × Nat × Nat) c => (r.1, r.2.1, r.2.2, c)
    let x := fun r c =>
      let v := d.anyEl a (at4 r c)
      if a.D.etype.isFloat16 then a.D.etype.fmt.unpack v.toNat else f32mul (FV.ofInt (v - a.D.zp)) inS
    let gam := fun c => fp16.unpack (d.rdLE (b.D.el b.b c 0 0 0) 2)
    let bet := fun c => fp16.unpack (d.rdLE (b.D.el b.b c 1 0 0) 2)
    let outs := rows.flatMap fun r =>
      let xs := (List.range n).map (x r)
      let pk := fun (l : List FV) => l.map fp32.pack
      let mu := if modBit w 0 then FV.num false 0 0 else fp32.unpack (Config.fpMean (pk xs))
      let ys := if modBit w 0 then xs else xs.map fun v => f32sub v mu
      let sd := f32sqrt (f32add (fp32.unpack (Config.fpMeanSq (pk ys))) eps)
      (ys.zipIdx).map fun y =>
        let v := f32add (f32mul (f32div y.1 sd) (gam y.2)) (bet y.2)
        (o.anyAddr (at4 r y.2),
         if o.D.etype.isFloat16 then outF o.D.etype.fmt v
         else outRne o.D.etype o.D.zp 2 y.2 (v.mul outS))
    let reads := (rows.flatMap fun r => (List.range n).map fun c => a.anyAddr (at4 r c)) ++
      (pairs 2 n).map fun y => b.D.el b.b y.2 y.1 0 0
    vecRes o.D.etype outs reads d
  | _, _, _ => {}

/-! ### POOL (R145) -/

def mapHW (D : Desc) : Bool := (D.layout = .nhwc32 || D.layout = .nhwc16) && !D.zc

/-- The window of POOL; a global window is the whole of a. -/
def poolWin (w : IWord) (s : List Word) (a o : Desc) : Win :=
  let y0 := startSel s (imm w 18 5)
  let g := modBit w 1
  { kh := if g then a.d2 - 1 else imm w 0 3, kw := if g then a.d1 - 1 else imm w 3 3, sh := imm w 6 3 + 1,
    sw := imm w 9 3 + 1, dh := 1, dw := 1, top := imm w 12 3, left := imm w 15 3, mode := 0, const := 0, zp := false,
    y0 := y0, rows := lenSel s (imm w 23 5) o.d2 y0 }

def poolForm (k : Core) (w : IWord) (s : List Word) : Form :=
  match k.opd s (iD w), k.opd s (iA w) with
  | some o, some a =>
    let p := poolWin w s a.D o.D
    let avg := modBit w 0
    { ok := reservedOk w 3 (2 ^ 28 - 1) && mapHW a.D && mapHW o.D && a.D.d3 = 1 && o.D.d3 = 1 && a.D.etype = o.D.etype &&
        a.D.d0 = o.D.d0 && (if avg then o.D.shift ≤ 47 else o.D.zp = a.D.zp) &&
        (!modBit w 1 || o.D.d1 = 1 && o.D.d2 = 1 && imm w 0 18 = 0) && o.D.writable,
      unit := .vector, srcs := [a], dsts := [o], shape := p.y0 + p.rows ≤ o.D.d2, zero := p.rows = 0 }
  | _, _ => Form.bad .vector

def poolRes (d : Dev) (k : Core) (w : IWord) (s : List Word) : Res :=
  match k.opd s (iD w), k.opd s (iA w) with
  | some o, some a =>
    let p := poolWin w s a.D o.D
    let avg := modBit w 0
    let taps := pairs (p.kh + 1) (p.kw + 1)
    let inside := fun (oy ox : Nat) => taps.filterMap fun t => padPos a.D p (p.iy oy t.1) (p.ix ox t.2)
    let pos := pairs p.rows o.D.d1
    let outs := pos.flatMap fun x =>
      let at' := inside (p.y0 + x.1) x.2
      (List.range o.D.d0).map fun c =>
        let vs := at'.map fun q => d.px a 0 q.1 q.2 c
        let v : Int := if avg then
            clampI (rsh ((vs.map fun v => v - a.D.zp).sum * o.D.mult) o.D.shift + o.D.zp) o.D.etype.lo o.D.etype.hi
          else match vs with
            | [] => clampI (Config.openInt 3 c) o.D.etype.lo o.D.etype.hi
            | v :: r => r.foldl max v
        (o.D.img o.b 0 (p.y0 + x.1) x.2 c, ({ v := v } : VRes))
    let reads := pos.flatMap fun x => (inside (p.y0 + x.1) x.2).flatMap fun q =>
      (List.range a.D.d0).map fun c => a.D.img a.b 0 q.1 q.2 c
    vecRes o.D.etype outs reads d
  | _, _ => {}

/-! ### RESIZE (R146) -/

/-- num / den with 16 fractional bits (log entry 14). -/
def q16 (num den : Nat) : Nat :=
  num * 65536 / den + (if num * 65536 % den ≠ 0 && Config.resizeUp num den then 1 else 0)

/-- The source coordinate of output position o, in 1/65,536, clamped to [0, n − 1]. -/
def srcCoord (corners : Bool) (o n no : Nat) : Nat :=
  let c := if corners then (if no = 1 then 0 else q16 (o * (n - 1)) (no - 1))
    else q16 ((2 * o + 1) * n) (2 * no) - 32768
  min c ((n - 1) * 65536)

def resizeForm (k : Core) (w : IWord) (s : List Word) : Form :=
  match k.opd s (iD w), k.opd s (iA w) with
  | some o, some a =>
    let y0 := startSel s (imm w 0 5)
    let rows := lenSel s (imm w 5 5) o.D.d2 y0
    { ok := reservedOk w 3 1023 && mapHW a.D && mapHW o.D && a.D.etype = o.D.etype && a.D.zp = o.D.zp &&
        a.D.d0 = o.D.d0 && a.D.d3 = o.D.d3 && o.D.writable,
      unit := .vector, srcs := [a], dsts := [o], shape := y0 + rows ≤ o.D.d2, zero := rows = 0 }
  | _, _ => Form.bad .vector

def resizeRes (d : Dev) (k : Core) (w : IWord) (s : List Word) : Res :=
  match k.opd s (iD w), k.opd s (iA w) with
  | some o, some a =>
    let y0 := startSel s (imm w 0 5)
    let rows := lenSel s (imm w 5 5) o.D.d2 y0
    let H := a.D.d2
    let W := a.D.d1
    let co := modBit w 1
    let axis := fun (i n no : Nat) =>
      let c := srcCoord co i n no
      if modBit w 0 then (c / 65536, min (c / 65536 + 1) (n - 1), c % 65536 / 256)
      else let r := min (n - 1) ((c + 32768) / 65536); (r, r, 0)
    let pos := coords o.D.d3 rows o.D.d1 1
    let outs := pos.flatMap fun x =>
      let oy := y0 + x.2.1
      let ox := x.2.2.1
      let Y := axis oy H o.D.d2
      let X := axis ox W o.D.d1
      (List.range o.D.d0).map fun c =>
        let q := fun y x' => d.px a x.1 y x' c
        let fy : Int := (Y.2.2 : Nat)
        let fx : Int := (X.2.2 : Nat)
        let v : Int := if modBit w 0 then
            rsh ((256 - fy) * ((256 - fx) * q Y.1 X.1 + fx * q Y.1 X.2.1) +
              fy * ((256 - fx) * q Y.2.1 X.1 + fx * q Y.2.1 X.2.1)) 16
          else q Y.1 X.1
        (o.D.img o.b x.1 oy ox c, ({ v := v } : VRes))
    let reads := pos.flatMap fun x =>
      let Y := axis (y0 + x.2.1) H o.D.d2
      let X := axis x.2.2.1 W o.D.d1
      [(Y.1, X.1), (Y.1, X.2.1), (Y.2.1, X.1), (Y.2.1, X.2.1)].flatMap fun q =>
        (List.range a.D.d0).map fun c => a.D.img a.b x.1 q.1 q.2 c
    vecRes o.D.etype outs reads d
  | _, _ => {}

/-! ### DWCONV (R147) and STOOL (R168, R175) -/

def dwconvForm (k : Core) (w : IWord) (s : List Word) : Form :=
  match k.opd s (iD w), k.opd s (iA w), k.opd s (iB w) with
  | some o, some a, some b =>
    let p := winOf w s o.D.d2
    let c := k.opd s (iC w)
    { ok := reservedOk w 193 (2 ^ 47 - 1) && p.kOk && mapHW a.D && mapHW o.D && a.D.d3 = 1 && o.D.d3 = 1 &&
        a.D.d0 = o.D.d0 && b.D.lin2 && b.D.etype = .i8 && b.D.zp = 0 && b.D.d0 = a.D.cb &&
        b.D.d1 = (p.kh + 1) * (p.kw + 1) && biasRule c false o.D.d0 && o.D.outOk false && o.D.writable &&
        !p.tooFar a.D o.D.d2 o.D.d1,
      unit := .vector, srcs := [a, b] ++ c.toList, dsts := [o], shape := p.y0 + p.rows ≤ o.D.d2, zero := p.rows = 0 }
  | _, _, _ => Form.bad .vector

/-- The drained value of Σ over taps and channels, and whether an addition clamped: ci channels per tap from ch0. -/
def Dev.tapSum (d : Dev) (o : Opd) (c : Option Opd) (relu : Bool) (p : Win) (oy ox n : Nat)
    (terms : List (Nat × Nat × Nat × Nat)) (x : Nat → Int → Int → Int) : Int × Bool :=
  let acc := terms.foldl (fun acc t =>
    let y := sat32 (acc.1 + d.elem .i8 t.2.2.2 * x t.2.2.1 (p.iy oy t.1) (p.ix ox t.2.1)); (y.1, acc.2 || y.2)) (0, false)
  let b := match c with
    | some q => d.elem .i32 (q.D.el q.b n 0 0 0)
    | none => 0
  let r := drain o.D relu none acc.1 b
  (r.1, acc.2 || r.2)

def dwconvRes (d : Dev) (k : Core) (w : IWord) (s : List Word) : Res :=
  match k.opd s (iD w), k.opd s (iA w), k.opd s (iB w) with
  | some o, some a, some b =>
    let p := winOf w s o.D.d2
    let c := k.opd s (iC w)
    let wo := o.D.d1
    let wAt := fun ky kx ch => b.D.el b.b ch (ky * (p.kw + 1) + kx) 0 0
    let taps := pairs (p.kh + 1) (p.kw + 1)
    let pos := coords p.rows wo o.D.d0 1
    let outs := pos.map fun x =>
      let ch := x.2.2.1
      let r := d.tapSum o c (modBit w 0) p (p.y0 + x.1) x.2.1 ch
        (taps.map fun t => (t.1, t.2, ch, wAt t.1 t.2 ch)) (fun c y z => d.winPx a p y z c)
      (o.D.img o.b 0 (p.y0 + x.1) x.2.1 ch, ({ v := r.1, sat := r.2 } : VRes))
    let reads := ((p.positions a.D wo).flatMap fun q => (List.range a.D.d0).map fun ch => a.D.img a.b 0 q.1 q.2 ch) ++
      (taps.flatMap fun t => (List.range o.D.d0).map fun ch => wAt t.1 t.2 ch) ++
      (match c with
        | some q => (List.range o.D.d0).map fun n => q.D.el q.b n 0 0 0
        | none => [])
    vecRes o.D.etype outs reads d
  | _, _, _ => {}

/-- Channels per tap of a STOOL: 4 in stem mode, C rounded up to the block in head mode. -/
def stoolCi (w : IWord) (a : Desc) : Nat := if modBit w 1 then a.cb else 4

def stoolForm (k : Core) (w : IWord) (s : List Word) : Form :=
  match k.opd s (iD w), k.opd s (iA w), k.opd s (iB w) with
  | some o, some a, some b =>
    let p := winOf w s o.D.d2
    let c := k.opd s (iC w)
    let head := modBit w 1
    { ok := reservedOk w 195 (2 ^ 47 - 1) && p.kOk &&
        (if head then mapHW a.D && o.D.d0 ≤ 32 else a.D.layout = .planar && o.D.d0 ≤ 64) && mapHW o.D &&
        a.D.d3 = 1 && o.D.d3 = 1 && b.D.lin2 && b.D.etype = .i8 && b.D.zp = 0 && b.D.d0 = o.D.d0 &&
        b.D.d1 = (p.kh + 1) * (p.kw + 1) * stoolCi w a.D && b.D.d0 * b.D.d1 ≤ 65536 && biasRule c false o.D.d0 &&
        o.D.outOk false && o.D.writable && !p.tooFar a.D o.D.d2 o.D.d1,
      unit := .stool, srcs := [a, b] ++ c.toList, dsts := [o], shape := p.y0 + p.rows ≤ o.D.d2, zero := p.rows = 0 }
  | _, _, _ => Form.bad .stool

def stoolRes (d : Dev) (k : Core) (w : IWord) (s : List Word) : Res :=
  match k.opd s (iD w), k.opd s (iA w), k.opd s (iB w) with
  | some o, some a, some b =>
    let p := winOf w s o.D.d2
    let c := k.opd s (iC w)
    let wo := o.D.d1
    let ci := stoolCi w a.D
    let wAt := fun ky kx ch n => b.D.el b.b n ((ky * (p.kw + 1) + kx) * ci + ch) 0 0
    let taps := (coords (p.kh + 1) (p.kw + 1) ci 1).map fun t => (t.1, t.2.1, t.2.2.1)
    let pos := coords p.rows wo o.D.d0 1
    let outs := pos.map fun x =>
      let n := x.2.2.1
      let r := d.tapSum o c (modBit w 0) p (p.y0 + x.1) x.2.1 n
        (taps.map fun t => (t.1, t.2.1, t.2.2, wAt t.1 t.2.1 t.2.2 n))
        (fun ch y z => if !modBit w 1 && a.D.iC ≤ ch then a.D.zp else d.winPx a p y z ch)
      (o.D.img o.b 0 (p.y0 + x.1) x.2.1 n, r)
    let cr := if modBit w 1 then ci else a.D.iC
    let reads := ((p.positions a.D wo).flatMap fun q => (List.range cr).map fun ch => a.D.img a.b 0 q.1 q.2 ch) ++
      (taps.flatMap fun t => (List.range o.D.d0).map fun n => wAt t.1 t.2.1 t.2.2 n) ++
      (match c with
        | some q => (List.range o.D.d0).map fun n => q.D.el q.b n 0 0 0
        | none => [])
    { ws := outs.flatMap fun x => wrElem o.D.etype x.1 x.2.1, reads := reads, bad := d.poisonFault reads,
      acc := outs.any (·.2.2) }
  | _, _, _ => {}

end Sys2Proof.Machine
end

