-- ==== Sys2Proof/Machine/CompAtt.lean ====
section
/-!
DEFINITION. Page tables, ATTQK, ATTPV, KVAPP and KVEXP: their operand rules, the checks at issue, the references they take
and the bytes they write (R148 to R157, R188 to R193, R201).
-/

namespace Sys2Proof.Machine

/-! ### Page tables and slots (R148, R185, R188) -/

def Dev.tblLen (d : Dev) (t : Nat) : Nat := d.rdLE t 4
def Dev.tblFlags (d : Dev) (t : Nat) : Nat := d.rdLE (t + 4) 2
def Dev.tblEntry (d : Dev) (t j : Nat) : Nat := d.rdLE (t + 16 + 4 * j) 4

/-- Address of position p through a table. -/
def Dev.posAddr (d : Dev) (t p : Nat) : Nat := d.bufAddr (d.tblEntry t (p / 32)) + 128 * (p % 32)

/-- Sequences per stream of a set. -/
def Dev.setQ (d : Dev) (b : Nat) : Nat := 2 ^ d.rdLE (b + 4) 1

/-- The table at t is a page-table slot of a set. -/
def Dev.isSlot (d : Dev) (t : Nat) : Bool :=
  d.sets.any fun st => st.base + 131072 ≤ t && t < st.base + 131072 + 65536 * d.setQ st.base && (t - st.base) % 256 = 0

def Dev.slotStatus (d : Dev) (t : Nat) : Nat := d.rdLE (t + 252) 1

/-- The slot is live and not deferred; a table outside every set is always so. -/
def Dev.slotActive (d : Dev) (t : Nat) : Bool :=
  !d.isSlot t || (bit (d.slotStatus t) 0 && !bit (d.slotStatus t) 1)

/-- The read length of ATTQK (R149, R201). -/
def Dev.qkLen (d : Dev) (t : Nat) : Nat := if d.slotActive t then d.tblLen t else 0

/-- Handles of the pages that hold positions [lo, hi). -/
def Dev.pagesOf (d : Dev) (t lo hi : Nat) : List Nat :=
  if hi ≤ lo then [] else (List.range (cdiv hi 32 - lo / 32)).map fun j => d.tblEntry t (lo / 32 + j)

/-- A paged operand with zero point 0. -/
def pagedOk (o : Opd) : Bool := o.D.layout = .paged && o.D.zp = 0

/-- Byte x of position p as a signed value. -/
def Dev.latent (d : Dev) (t p x : Nat) : Int := d.elem .i8 (d.posAddr t p + x)

/-- Addresses of bytes [off, off + n) of positions [lo, hi). -/
def Dev.posReads (d : Dev) (t lo hi off n : Nat) : List Nat :=
  (List.range (hi - lo)).flatMap fun i => span (d.posAddr t (lo + i) + off) n

/-! ### ATTQK (R151, R152) -/

def attqkForm (k : Core) (w : IWord) (s : List Word) : Form :=
  match k.opd s (iD w), k.opd s (iA w), k.opd s (iC w) with
  | some o, some a, some c =>
    let ex := modBit w 0
    let seg := modBit w 2
    let m := lenSel s (imm w 0 5) a.D.d1 0
    let koff := imm w 48 8
    let b := if ex then k.opd s (iB w) else none
    let sq := if seg then k.opd s (imm w 10 8) else none
    let sk := if seg then k.opd s (imm w 18 8) else none
    let bOk := if ex then (match b with
        | some x => x.D.layout = .wtile8 && k.weightOk x.D && x.D.d1 = a.D.d0 && decide (koff + x.D.d0 ≤ c.D.d1) &&
            decide (imm w 42 6 ≤ 47)
        | none => false)
      else decide (koff + a.D.d0 ≤ c.D.d1)
    let segOk := fun (x : Option Opd) n => !seg || (match x with
      | some y => y.D.layout = .segment && decide (n ≤ y.D.d0)
      | none => false)
    { ok := reservedOk w 7 (2 ^ 56 - 1) && a.D.lin2 && a.D.etype = .i8 && a.D.zp = 0 && !a.D.zc && a.D.d0 ≤ 256 &&
        pagedOk c && bOk && o.D.lin2 && o.D.etype = .i16 && o.D.outOk false && !o.D.zc && c.D.d0 ≤ o.D.d0 &&
        (a.D.d1 < m || m ≤ o.D.d1) && o.D.writable && segOk sq (min m a.D.d1) && segOk sk c.D.d0,
      unit := .array, srcs := [a, c] ++ b.toList ++ sq.toList ++ sk.toList, dsts := [o],
      shape := m ≤ a.D.d1, zero := m = 0 }
  | _, _, _ => Form.bad .array

/-- clamp_INT8(RSH(x × M, s)) (R151, R154). -/
def narrow8 (x : Int) (m sh : Nat) : Int := clampI (rsh (x * m) sh) (-128) 127

def attqkRes (d : Dev) (k : Core) (w : IWord) (s : List Word) (L : Nat) : Res :=
  match k.opd s (iD w), k.opd s (iA w), k.opd s (iC w) with
  | some o, some a, some c =>
    let ex := modBit w 0
    let m := lenSel s (imm w 0 5) a.D.d1 0
    let p0 := startSel s (imm w 5 5)
    let koff := imm w 48 8
    let b := if ex then k.opd s (iB w) else none
    let sq := if modBit w 2 then k.opd s (imm w 10 8) else none
    let sk := if modBit w 2 then k.opd s (imm w 18 8) else none
    let width := match b with
      | some x => x.D.d0
      | none => a.D.d0
    let qv := fun i x => d.elem .i8 (a.D.el a.b x i 0 0)
    let qs := fun i => match b with
      | some y => (List.range y.D.d0).map fun n =>
          narrow8 (sumZ a.D.d0 fun x => qv i x * d.weight y x n) (imm w 26 16) (imm w 42 6)
      | none => (List.range a.D.d0).map (qv i)
    let mark : Option Opd → Nat → Int := fun x i => match x with
      | some y => d.elem .u16 (y.D.el y.b i 0 0 0)
      | none => 0
    let outs := (List.range m).flatMap fun i =>
      let q := qs i
      (List.range o.D.d0).map fun j =>
        let v : Int × Bool :=
          if L ≤ j then (-32768, false)
          else if mark sq i ≠ mark sk j then (-32768, false)
          else if modBit w 1 && p0 + i < j then (-32768, false)
          else drain o.D false none (sumZ width fun x => q.getD x 0 * d.latent c.b j (koff + x)) 0
        (o.D.el o.b j i 0 0, v)
    let segR := fun (x : Option Opd) n => match x with
      | some y => span y.b (2 * n)
      | none => []
    let wr := match b with
      | some y => y.wReads 0 y.D.d0 y.D.d1 1
      | none => []
    let reads := if L = 0 then [] else
      ((pairs m a.D.d0).map fun x => a.D.el a.b x.2 x.1 0 0) ++ wr ++ segR sq m ++ segR sk L ++ d.posReads c.b 0 L koff width
    { ws := outs.flatMap fun x => wrElem .i16 x.1 x.2.1, reads := reads, bad := d.poisonFault reads,
      acc := outs.any (·.2.2) }
  | _, _, _ => {}

/-! ### ATTPV (R154) -/

/-- The checks of ATTPV that use the length: a wide enough, and psum for more than one K-tile of positions (R127). -/
def attpvLate (core : Nat) (a : Opd) (ps : Option Opd) (L m : Nat) : Option Code :=
  if a.D.d0 < L then some .descInvalid
  else if L ≤ 256 then none
  else if !psumRule ps false L then some .descInvalid
  else if !(match ps with
    | some p => psumHome core p
    | none => true) then some .addrRange
  else if !psumRows ps m then some .descInvalid
  else none

def attpvForm (d : Dev) (core : Nat) (k : Core) (w : IWord) (s : List Word) : Form :=
  match k.opd s (iD w), k.opd s (iA w), k.opd s (iC w) with
  | some o, some a, some c =>
    let ex := modBit w 0
    let m := lenSel s (imm w 0 5) a.D.d1 0
    let voff := imm w 48 8
    let b := if ex then k.opd s (iB w) else none
    let bOk := if ex then (match b with
        | some x => x.D.layout = .wtile8 && k.weightOk x.D && decide (voff + x.D.d1 ≤ c.D.d1) && x.D.d0 = o.D.d0 &&
            decide (o.D.d0 ≤ d.width core) && decide (imm w 42 6 ≤ 47)
        | none => false)
      else decide (voff + o.D.d0 ≤ c.D.d1)
    let ps := if immBit w 18 then k.opd s (imm w 10 8) else none
    { ok := reservedOk w 3 (31 ||| (2 ^ 9 - 1) * 2 ^ 10 ||| (2 ^ 30 - 1) * 2 ^ 26) && a.D.lin2 && a.D.etype.is8 &&
        a.D.zp = 0 && !a.D.zc && pagedOk c && bOk && o.D.lin2 && o.D.outOk false && !o.D.zc && o.D.writable,
      unit := .array, srcs := [a, c] ++ b.toList, dsts := [o], shape := m ≤ a.D.d1 && m ≤ o.D.d1, zero := m = 0,
      late := attpvLate core a ps (d.tblLen c.b) m }
  | _, _, _ => Form.bad .array

def attpvRes (d : Dev) (k : Core) (w : IWord) (s : List Word) (L : Nat) : Res :=
  match k.opd s (iD w), k.opd s (iA w), k.opd s (iC w) with
  | some o, some a, some c =>
    let ex := modBit w 0
    let m := lenSel s (imm w 0 5) a.D.d1 0
    let voff := imm w 48 8
    let b := if ex then k.opd s (iB w) else none
    let v := match b with
      | some x => x.D.d1
      | none => o.D.d0
    let kt := cdiv L 256
    let act := fun i j => d.elem a.D.etype (a.D.el a.b j i 0 0)
    let part := fun i x kts => passAcc (act i) (fun j => d.latent c.b j (voff + x)) L kts
    let ps := if immBit w 18 && decide (2 ≤ kt) then k.opd s (imm w 10 8) else none
    let psw := match ps with
      | some p => (List.range (kt - 1)).flatMap fun t => (pairs m v).flatMap fun x =>
          wrElem .i32 (p.D.el p.b x.2 x.1 0 0) (part x.1 x.2 (t + 1)).1
      | none => []
    let outs := (List.range m).flatMap fun i =>
      let acc := (List.range v).map fun x => part i x kt
      let sat := acc.any (·.2)
      (List.range o.D.d0).map fun n =>
        let r : Int × Bool := match b with
          | some y =>
            let ctx := acc.map fun z => narrow8 z.1 (imm w 26 16) (imm w 42 6)
            drain o.D (modBit w 1) none (sumZ y.D.d1 fun x => ctx.getD x 0 * d.weight y x n) 0
          | none => drain o.D (modBit w 1) none (acc.getD n (0, false)).1 0
        (o.D.el o.b n i 0 0, r.1, r.2 || sat)
    let wr := match b with
      | some y => y.wReads 0 y.D.d0 y.D.d1 1
      | none => []
    let reads := ((pairs m L).map fun x => a.D.el a.b x.2 x.1 0 0) ++ wr ++ d.posReads c.b 0 L voff v
    { ws := psw ++ outs.flatMap fun x => wrElem o.D.etype x.1 x.2.1, reads := reads, bad := d.poisonFault reads,
      acc := outs.any (·.2.2) }
  | _, _, _ => {}

/-! ### KVEXP (R157) -/

def kvexpForm (d : Dev) (k : Core) (w : IWord) (s : List Word) : Form :=
  match k.opd s (iD w), k.opd s (iB w), k.opd s (iC w) with
  | some o, some b, some c =>
    let p0 := startSel s (imm w 0 5)
    let n := lenSel s (imm w 5 5) c.D.d0 p0
    { ok := reservedOk w 0 (1023 ||| 255 * 2 ^ 48) && c.D.layout = .paged && b.D.layout = .wtile8 && k.weightOk b.D &&
        b.D.d1 ≤ 128 && imm w 48 8 + b.D.d1 ≤ c.D.d1 && b.D.d0 = o.D.d0 && o.D.d0 ≤ 256 && o.D.lin2 && o.D.outOk false &&
        !o.D.zc && o.D.writable,
      unit := .vector, srcs := [b, c], dsts := [o], shape := p0 + n ≤ c.D.d0 && n ≤ o.D.d1, zero := n = 0,
      late := if d.tblLen c.b < p0 + n then some .shapeOver else none }
  | _, _, _ => Form.bad .vector

def kvexpRes (d : Dev) (k : Core) (w : IWord) (s : List Word) : Res :=
  match k.opd s (iD w), k.opd s (iB w), k.opd s (iC w) with
  | some o, some b, some c =>
    let p0 := startSel s (imm w 0 5)
    let n := lenSel s (imm w 5 5) c.D.d0 p0
    let koff := imm w 48 8
    let outs := (List.range n).flatMap fun i => (List.range o.D.d0).map fun x =>
      (o.D.el o.b x i 0 0,
       (drain o.D false none (sumZ b.D.d1 fun r => d.latent c.b (p0 + i) (koff + r) * d.weight b r x) 0).1)
    let reads := b.wReads 0 b.D.d0 b.D.d1 1 ++ d.posReads c.b p0 (p0 + n) koff b.D.d1
    { ws := outs.flatMap fun x => wrElem o.D.etype x.1 x.2, reads := reads, bad := d.poisonFault reads }
  | _, _, _ => {}

/-! ### KVAPP (R155, R156, R192, R193) -/

/-- The home completes the KVAPP at once and writes nothing (R192). -/
def Dev.kvappIdle (d : Dev) (t frame : Nat) : Bool :=
  d.isSlot t && (!d.slotActive t || (bit (d.slotStatus t) 2 && d.rdLE (t + 244) 4 = frame))

/-- A page's reference count. -/
def Dev.pageCount (d : Dev) (h : Nat) : Nat :=
  match d.buf h with
  | some b => b.count
  | none => 0

/-- The pages an append of n positions at length L takes: a copy page, a fresh page (R155, R198). -/
def Dev.needCopy (d : Dev) (t L : Nat) : Bool := L % 32 ≠ 0 && 1 < d.pageCount (d.tblEntry t (L / 32))
def needFresh (L n : Nat) : Bool := L % 32 = 0 || L / 32 < (L + n - 1) / 32
def Dev.needPages (d : Dev) (t L n : Nat) : Nat := b2n (d.needCopy t L) + b2n (needFresh L n)

/-- Valid reservations of a table. -/
def Dev.heldResv (d : Dev) (t : Nat) : Nat := popcount (d.tblFlags t) 2

def kvappForm (d : Dev) (frame : Nat) (k : Core) (w : IWord) (s : List Word) : Form :=
  match k.opd s (iA w), k.opd s (iC w) with
  | some a, some c =>
    let n := lenSel s (imm w 0 5) a.D.d1 0
    let L := d.tblLen c.b
    let idle := d.kvappIdle c.b frame
    { ok := reservedOk w 0 31 && a.D.lin2 && (a.D.etype = .i8 || a.D.etype = .raw) && !a.D.zc && a.D.d0 ≤ c.D.d1 &&
        a.D.d1 ≤ 32 && c.D.layout = .paged && c.D.writable,
      unit := .move, srcs := [a, c], dsts := [c], shape := n ≤ a.D.d1, zero := n = 0 || idle,
      late := if idle || n = 0 then none
        else if c.D.d0 < L + n then some .shapeOver
        else if d.heldResv c.b < d.needPages c.b L n then some .poolEmpty else none }
  | _, _ => Form.bad .move

/-- Take a reservation: resv0 first, then resv1; the handle and the flags left. -/
def Dev.takeResv (d : Dev) (t flags : Nat) : Nat × Nat :=
  if bit flags 0 then (d.rdLE (t + 8) 4, flags - 1) else (d.rdLE (t + 12) 4, flags - flags % 4 / 2 * 2)

/-- The append as it commits at completion: row bytes with their poison, the entries it swings, the flags it consumes, len,
last_frame, and the reference of a copied page. -/
def Dev.kvappCommit (d : Dev) (k : Core) (w : IWord) (s : List Word) (frame : Nat) : Dev :=
  match k.opd s (iA w), k.opd s (iC w) with
  | some a, some c =>
    let n := lenSel s (imm w 0 5) a.D.d1 0
    let t := c.b
    let L := d.tblLen t
    let copy := d.needCopy t L
    let old := d.tblEntry t (L / 32)
    let r1 := d.takeResv t (d.tblFlags t)
    let flags1 := if copy then r1.2 else d.tblFlags t
    let r2 := d.takeResv t flags1
    let flags2 := if needFresh L n then r2.2 else flags1
    let tail := if copy then r1.1 else old
    let page := fun p => if p / 32 = L / 32 && L % 32 ≠ 0 then tail else r2.1
    let at' := fun p => d.bufAddr (page p) + 128 * (p % 32)
    let copied := if copy then (List.range (128 * (L % 32))).map fun x => (d.bufAddr old + x, d.bufAddr r1.1 + x) else []
    let rows := (pairs n a.D.d0).map fun x => (a.D.el a.b x.2 x.1 0 0, at' (L + x.1) + x.2)
    let zerosAt := (List.range n).flatMap fun i => wrAt (at' (L + i) + a.D.d0) (zeros (128 - a.D.d0))
    let mv := copied ++ rows
    let ws := mv.map (fun p => (p.2, d.rd p.1)) ++ zerosAt
    let pz := (mv.filter fun p => d.poisonAt p.1).map (·.2)
    let slot := d.isSlot t
    let status := d.slotStatus t
    let reads := mv.map (·.1)
    let d := ((d.noteRead reads).writeCells ws).setPoison pz
    let d := if copy then d.writeRun (t + 16 + 4 * (L / 32)) (toLE 4 r1.1) else d
    let d := if needFresh L n then d.writeRun (t + 16 + 4 * (cdiv L 32)) (toLE 4 r2.1) else d
    let d := d.writeRun (t + 4) (toLE 2 flags2)
    let d := if slot then (d.writeRun (t + 244) (toLE 4 frame)).writeRun (t + 252) (toLE 1 (status ||| 4)) else d
    let d := d.writeRun t (toLE 4 (L + n))
    if copy then d.refDec old else d
  | _, _ => d

end Sys2Proof.Machine
end

