-- ==== Sys2Proof/Machine/Kernel.lean ====
section
/-!
DEFINITION. Residency tags and their transitions (R87 to R95, R215), shares (R213 to R217), Stool queues (R176), records and
their release (R14, R166, R385), voiding a frame, aborting a kernel (R95, R219, R415, R427, R428), poison repair (R416, R417).
-/

namespace Sys2Proof.Machine

/-! ### Tags -/

/-- A tag as an operand names it: its key (home × 4,096 + tag), whether the participant keeps its own state, rcount. -/
structure TagRef where
  key : Nat
  own : Bool
  rcount : Nat
  deriving DecidableEq, Repr

/-- The effective region lies in the core's own operand store. -/
def Opd.inOwn (o : Opd) (c : Nat) : Bool := opBase c ≤ o.b && o.b < opBase c + 0x100000

/-- The key of a descriptor's tag (R87). -/
def Desc.tagKey (D : Desc) : Nat := (homeOf D.base).getD 3 * 4096 + D.tag

/-- The tag of an operand, none for a persistent region (R90). -/
def Core.tagRef (k : Core) (c : Nat) (o : Opd) : Option TagRef :=
  if o.D.rcount = 0 then none
  else some { key := o.D.tagKey, own := (k.run.map (·.claiming)).getD false && o.inOwn c, rcount := o.D.rcount }

def Dev.tag (d : Dev) (c : Nat) (t : TagRef) : TagState :=
  if t.own then mgetD (d.core c).priv t.key .free else mgetD d.home.tags t.key .free

def Dev.setHomeTag (d : Dev) (key : Nat) (v : TagState) : Dev :=
  { d with home := { d.home with tags := mset d.home.tags key .free v } }

def Dev.setTag (d : Dev) (c : Nat) (t : TagRef) (v : TagState) : Dev :=
  if t.own then d.modCore c fun k => { k with priv := mput k.priv t.key v } else d.setHomeTag t.key v

/-- References without repeats of a key. -/
def dedupTags (l : List TagRef) : List TagRef :=
  l.foldl (fun acc t => if acc.any (fun u => u.key = t.key && u.own = t.own) then acc else acc ++ [t]) []

def hasTag (l : List TagRef) (t : TagRef) : Bool := l.any fun u => u.key = t.key && u.own = t.own

/-- The tags an instruction reads and writes. -/
def Form.reads (f : Form) (k : Core) (c : Nat) : List TagRef := dedupTags (f.srcs.filterMap (k.tagRef c))
def Form.writes (f : Form) (k : Core) (c : Nat) : List TagRef := dedupTags (f.dsts.filterMap (k.tagRef c))

/-- A tag state that a reader may issue on. -/
def TagState.readable : TagState → Bool
  | .ready p => 1 ≤ p
  | .persist => true
  | _ => false

/-- A reader instance retires (R92). -/
def TagState.retire : TagState → TagState
  | .ready p => if p ≤ 1 then .free else .ready (p - 1)
  | t => t

/-- The tags that block an issue: of the reads, the writes, and those both read and written (R89, R91). -/
def Dev.blockedTags (d : Dev) (c : Nat) (reads writes : List TagRef) : List TagRef :=
  (reads.filter fun t => !hasTag writes t && !(d.tag c t).readable) ++
  (writes.filter fun t => if hasTag reads t then d.tag c t ≠ .ready 1 else d.tag c t ≠ .free)

/-! ### Shares -/

/-- M-die of a share record. -/
def Share.die (s : Share) : Nat := match s.counter with
  | some k => k / 1024
  | none => if s.tag / 4096 = 1 then 1 else 0

/-- CAB_WC_STATUS of both M-dies, from the share records (R227). -/
def Dev.syncShares (d : Dev) : Dev :=
  [0, 1].foldl (fun d k =>
    let ss := d.home.shares.filter fun s => s.die = k
    let orph := (ss.map fun s => s.orphans.length).foldl (· + ·) 0 +
      (d.home.orphans.filter fun o => o.1 / 1024 = k).length
    let d := d.setFld (R.CAB_WC_STATUS k) F.CAB_WC_STATUS_open_shares ss.length
    let d := d.setFld (R.CAB_WC_STATUS k) F.CAB_WC_STATUS_orphans orph
    d.setFld (R.CAB_WC_STATUS k) F.CAB_WC_STATUS_drain_wait (b2n (ss.any fun s => s.lost ≠ []))) d

/-- Every condition of R217. -/
def Share.complete (s : Share) : Bool :=
  (List.range s.parts).all (s.closed.contains ·) && s.issued.all (fun t => s.done.contains t.1) && s.orphans = [] &&
  s.lost = []

/-- Complete shares set their destination tags READY and their records go (R217). -/
def Dev.shareCheck (d : Dev) : Dev :=
  let ready := d.home.shares.filter Share.complete
  let d := { d with home := { d.home with shares := d.home.shares.filter fun s => !s.complete } }
  (ready.foldl (fun d s => d.setHomeTag s.tag (.ready s.rcount)) d).syncShares

/-- The share of a destination tag within a context's dispatch. -/
def Dev.shareOf (d : Dev) (ctx key : Nat) : Option Share := d.home.shares.find? fun s => s.ctx = ctx && s.tag = key

def Dev.modShare (d : Dev) (ctx key : Nat) (f : Share → Share) : Dev :=
  { d with home := { d.home with
      shares := d.home.shares.map fun s => if s.ctx = ctx && s.tag = key then f s else s } }

/-! ### Stool engines (R175, R176) -/

/-- The engine takes the next request, and a held one takes its place in the queue. -/
def StoolEng.advance (e : StoolEng) : StoolEng :=
  let e := match e.running, e.queue with
    | none, r :: q => { e with running := some r, queue := q }
    | _, _ => e
  match e.overflow with
  | [] => e
  | r :: q =>
    if e.running = none then { e with running := some r, overflow := q }
    else if e.queue.length < 4 then { e with queue := e.queue ++ [r], overflow := q }
    else e

/-- STL_STATUS of an engine (R177). -/
def Dev.syncStool (d : Dev) (n : Nat) : Dev :=
  let e := mgetD d.stool n {}
  let d := d.setFld (R.STL_STATUS n) F.STL_STATUS_queued e.queue.length
  let d := d.setFld (R.STL_STATUS n) F.STL_STATUS_busy (b2n (e.running ≠ none))
  match e.running with
  | some r =>
    let d := d.setFld (R.STL_STATUS n) F.STL_STATUS_core (r.1 % 4)
    d.setFld (R.STL_STATUS n) F.STL_STATUS_context (((d.core r.1).run.map (·.ctx)).getD 0)
  | none => d

/-- Requests kept by p remain on engine n. -/
def Dev.stoolKeep (d : Dev) (n : Nat) (p : Nat × Nat → Bool) : Dev :=
  let e := mgetD d.stool n {}
  let e := { e with running := e.running.filter p, queue := e.queue.filter p, overflow := e.overflow.filter p }
  ({ d with stool := mput d.stool n e.advance }).syncStool n

/-! ### Records (R384, R527) -/

/-- Bits 13 to 15 and the stream ID of a record header's stream field. -/
def streamField (id : Nat) (last unauth : Bool) : Nat := id + 2 ^ 14 * b2n last + 2 ^ 15 * b2n unauth

/-- A VOID record of a frame. -/
def voidRec (id num stamp epoch reason code frac : Nat) (unauth : Bool) : List Byte :=
  recBytes 5 1 (streamField id true unauth) num stamp epoch 0xFF (toLE 1 reason ++ toLE 1 code ++ toLE 2 frac)

/-- A STREAM_STATE record placed ahead of a frame. -/
def stateRec (id num stamp epoch kind value cause sub frac lag req deferred pend : Nat) : List Byte :=
  recBytes 6 1 (streamField id false false) num stamp epoch 0xFF
    (toLE 1 kind ++ toLE 1 value ++ toLE 1 cause ++ toLE 1 sub ++ toLE 2 frac ++ toLE 2 lag ++ toLE 2 req ++ toLE 2 0 ++
     toLE 8 deferred ++ toLE 8 pend)

/-- Finished frames of a stream whose turn has come, with the next number (R14). -/
def flushHeld : Nat → Nat → List (Nat × List WaitRec) → List WaitRec × Nat × List (Nat × List WaitRec)
  | 0, n, l => ([], n, l)
  | k + 1, n, l =>
    match l.find? fun e => e.1 = n with
    | some e => let r := flushHeld k ((n + 1) % 2 ^ 32) (l.filter fun x => x.1 ≠ n); (e.2 ++ r.1, r.2)
    | none => ([], n, l)

/-- The records of frame num are released; a stream's records follow ascending numbers (R14, R373). -/
def Dev.release (d : Dev) (stream num : Nat) (recs : List WaitRec) : Dev :=
  match mget d.streams stream with
  | none => recs.foldl Dev.postRec d
  | some s =>
    let held := s.relHeld ++ [(num, recs)]
    let r := flushHeld held.length s.relNext held
    let d := { d with streams := mput d.streams stream { s with relNext := r.2.1, relHeld := r.2.2 } }
    r.1.foldl Dev.postRec d

/-- A device-built record waiting for the ring of a stream. -/
def Dev.devRec (d : Dev) (stream num : Nat) (last : Bool) (bytes : List Byte) : WaitRec :=
  { ring := ((mget d.streams stream).map (·.ring)).getD 0, device := true, stream := stream, frame := num, last := last,
    bytes := bytes, handle := none }

/-- One VOID record takes the place of a numbered frame (R166). -/
def Dev.voidNum (d : Dev) (stream num stamp epoch reason code frac : Nat) (unauth : Bool) (ahead : List (List Byte)) : Dev :=
  d.release stream num ((ahead.map (d.devRec stream num false)) ++
    [d.devRec stream num true (voidRec stream num stamp epoch reason code frac unauth)])

/-! ### Frames -/

def Dev.frame? (d : Dev) (stream num : Nat) (rev : Bool) : Option Frame :=
  d.sched.frames.find? fun f => f.stream = stream && f.num = num && f.revisit = rev

def Dev.modFrame (d : Dev) (stream num : Nat) (rev : Bool) (g : Frame → Frame) : Dev :=
  { d with sched := { d.sched with
      frames := d.sched.frames.map fun f => if f.stream = stream && f.num = num && f.revisit = rev then g f else f } }

def Dev.dropFrame (d : Dev) (f : Frame) : Dev :=
  { d with sched := { d.sched with
      frames := d.sched.frames.filter fun g => !(g.stream = f.stream && g.num = f.num && g.revisit = f.revisit) } }

/-- The buffers of a frame's held records return to their pools. -/
def Dev.freeRecs (d : Dev) (rs : List Rec) : Dev := rs.foldl (fun d r => match r.handle with
  | some h => d.refDec h
  | none => d) d

/-- The frame buffer's reference is dropped (R302). -/
def Dev.freeFrameBuf (d : Dev) (f : Frame) : Dev :=
  match f.buf with
  | some h => d.refDec h
  | none => d

/-- A frame is voided: its held records go, its buffer is released, one VOID record takes its place (R166, R302, R329). -/
def Dev.voidFrame (d : Dev) (f : Frame) (reason code : Nat) (frac : Nat := 0) : Dev :=
  let d := ((d.freeRecs f.recs).freeFrameBuf f).dropFrame f
  if f.revisit then
    d.postRec (d.devRec f.stream f.num true (voidRec f.stream f.num f.stamp f.ep.num reason code frac f.unauth))
  else d.voidNum f.stream f.num f.stamp f.ep.num reason code frac f.unauth f.ahead

/-! ### Aborting a kernel -/

/-- Cores that run the dispatch of core c: every participant of a claiming dispatch (R219). -/
def Dev.participants (d : Dev) (c : Nat) : List Nat :=
  match (d.core c).run with
  | none => []
  | some r =>
    if r.claiming && !r.replay then
      (List.range 8).filter fun x => match (d.core x).run with
        | some q => q.claiming && !q.replay && q.ctx = r.ctx
        | none => false
    else [c]

/-- The references, locks and registrations of a core's instructions are dropped, each reference once (R427). -/
def Dev.dropRefs (d : Dev) (c : Nat) : Dev :=
  let mine := d.home.refs.filter fun r => r.2.1 = c
  let d := { d with home := { d.home with refs := d.home.refs.filter (fun r => r.2.1 ≠ c),
                                          locks := d.home.locks.filter (fun l => l.2.1 ≠ c),
                                          notes := d.home.notes.filter (fun n => n.1 ≠ c) } }
  mine.foldl (fun d r => d.refDec r.1) d

/-- The journal of an aborted kernel: ALLOC and REFINC undone in reverse order, FREE and REFDEC discarded (R428). -/
def Dev.undoJournal (d : Dev) (c : Nat) : Dev :=
  let js := (d.core c).journal.reverse
  let d := js.foldl (fun d j => match j.1 with
    | .alloc => d.unAlloc j.2
    | .inc => d.unInc j.2
    | .dec => d) d
  d.modCore c fun k => { k with journal := [] }

/-- The tags of the kernel-start checkpoint return to their states (R95). -/
def Dev.restoreTags (d : Dev) (c : Nat) : Dev :=
  match mget d.sched.ckpts c with
  | some cp => cp.tags.foldl (fun d t => d.setHomeTag t.1 t.2) d
  | none => d

/-- What a core forgets when it is freed: dispatch, instructions in flight, claims, private tags, tokens, waits. -/
def Core.blank (k : Core) : Core :=
  { k with run := none, inflight := [], claims := [], priv := [], tokens := [], waitSince := none, kendIssued := false,
           filled := false, lookAhead := [] }

/-- The status of a core that is free: not busy, waiting for nothing. -/
def Dev.idleBits (d : Dev) (c : Nat) : Dev :=
  let d := d.setFld (R.MC_SEQ_STATUS c) F.MC_SEQ_STATUS_busy 0
  let d := d.setFld (R.MC_SEQ_STATUS c) F.MC_SEQ_STATUS_tag_wait 0
  d.setFld (R.MC_SEQ_STATUS c) F.MC_SEQ_STATUS_tok_wait 0

/-- The core's checkpoint and the token operations on their way to it go. -/
def Dev.forget (d : Dev) (c : Nat) : Dev :=
  { d with sched := { d.sched with ckpts := mdel d.sched.ckpts c },
           home := { d.home with remote := d.home.remote.filter fun r => r.1 ≠ c } }

/-- The core is free: no dispatch, no instruction, no wait. -/
def Dev.freeCore (d : Dev) (c : Nat) : Dev := ((d.modCore c Core.blank).idleBits c).forget c

/-- One core's share of an abort: tags, references, journal, Stool requests, and the core itself. -/
def Dev.abortCore (d : Dev) (c : Nat) : Dev :=
  let d := ((d.restoreTags c).dropRefs c).undoJournal c
  (d.stoolKeep (stackOf c) fun r => r.1 ≠ c).freeCore c

/-- The counters, share records and orphans of a context's dispatch go (R219). -/
def Dev.dropShares (d : Dev) (ctx : Nat) : Dev :=
  let mine := fun (k : Nat) => k % 1024 / 16 = ctx
  ({ d with home := { d.home with shares := d.home.shares.filter (fun s => s.ctx ≠ ctx),
                                  orphans := d.home.orphans.filter (fun o => !mine o.1),
                                  counters := d.home.counters.filter fun e => !mine e.1 } }).syncShares

/-- The frame a run belongs to. -/
def Dev.runFrame (d : Dev) (r : Run) : Option Frame := d.frame? r.stream r.frame r.revisit

/-- At a kernel boundary the scheduler reads, clears and logs acc_sat (R28). -/
def Dev.accBoundary (d : Dev) (c : Nat) : Dev :=
  match (d.core c).run with
  | none => d
  | some r =>
    if d.flag (R.MC_ARITH_STATUS c) F.MC_ARITH_STATUS_acc_sat then
      (d.setFld (R.MC_ARITH_STATUS c) F.MC_ARITH_STATUS_acc_sat 0).logEv
        { code := Code.accSaturate.num, unit := c, wher := r.ctx + 64 * r.kernel, stream := r.stream, frame := r.frame }
    else d

/-! ### Replays and the end of a recovery (R431, R432) -/

/-- The core is in service: a withdrawn core reads width 0 (R52). -/
def Dev.inService (d : Dev) (c : Nat) : Bool := c < 8 && d.width c ≠ 0

def coresOf (k : Nat) : List Nat := (List.range 4).map (4 * k + ·)

def Dev.faulted (d : Dev) (c : Nat) : Bool :=
  bit (d.reg (if c < 32 then R.TEL_FAULTED_LO else R.TEL_FAULTED_HI)) (c % 32)

/-- A claiming dispatch of a context that waits for lost participants ends: its participants are aborted, its shares go, its frame is
voided (R219, R224, R433). -/
def Dev.endClaiming (d : Dev) (ctx code : Nat) : Dev :=
  let fs := d.sched.frames.filter fun f => f.st = .running && d.sched.redo.any fun cp =>
    cp.run.ctx = ctx && cp.run.stream = f.stream && cp.run.frame = f.num && cp.run.revisit = f.revisit
  if fs = [] then d
  else
    let d := (List.range 8).foldl (fun d x => match (d.core x).run with
      | some q => if q.claiming && !q.replay && q.ctx = ctx then d.abortCore x else d
      | none => d) d
    let d := { d with sched := { d.sched with redo := d.sched.redo.filter fun cp => cp.run.ctx ≠ ctx } }
    fs.foldl (fun d f => d.voidFrame f 2 code) (d.dropShares ctx)

/-- A context is marked FAULTED; its frames that wait are voided, for it is never dispatched again (R332, R433). -/
def Dev.markFaulted (d : Dev) (c code kernel : Nat) : Dev :=
  if d.faulted c then d
  else
    let r := if c < 32 then R.TEL_FAULTED_LO else R.TEL_FAULTED_HI
    let d := (d.setReg r (d.reg r ||| 2 ^ (c % 32))).health Ev.contextFaulted.code code c code kernel
    let d := d.endClaiming c Code.hang.num
    (d.sched.frames.filter fun f => (f.ctx = c && (f.st = .ready || f.st = .admitted)) ||
        (f.st = .waiting && !f.revisit && f.ep.bind.ctx = c)).foldl
      (fun d f => d.voidFrame f 2 Code.hang.num) d

/-- A checkpoint is dispatched in replay mode on core c (R431). -/
def Dev.startReplay (d : Dev) (c : Nat) (cp : Ckpt) : Dev :=
  let gen := d.sched.gen + 1
  let r : Run := { cp.run with s6 := 0, s7 := 1, replay := true, gen := gen, stack := stackOf c, started := d.now }
  let sregs := (cp.sregs.set 6 0).set 7 1
  let d := d.modCore c fun k => { k with run := some r, sregs := sregs, tokens := [], ibuf := [], filled := false,
                                         inflight := [], planeA := none, planeS := none, journal := [], claims := [],
                                         waitSince := none, kendIssued := false, lookAhead := [],
                                         priv := if r.claiming then cp.tags else [] }
  let d := d.setFld (R.MC_SEQ_STATUS c) F.MC_SEQ_STATUS_context r.ctx
  let d := d.setFld (R.MC_SEQ_STATUS c) F.MC_SEQ_STATUS_busy 1
  let d := d.setFld (R.MC_SEQ_STATUS c) F.MC_SEQ_STATUS_pc 0
  let d := d.setFld R.TEL_HANG_STATUS F.TEL_HANG_STATUS_replaying 1
  { d with sched := { d.sched with gen := gen, ckpts := mput d.sched.ckpts c { cp with run := r, sregs := sregs } } }

/-- TEL_HANG_STATUS.recovering and replaying, from the reset that runs. -/
def Dev.syncRecov (d : Dev) : Dev :=
  let on := d.recov.resets.flatMap (·.onStacks)
  let d := d.setFld R.TEL_HANG_STATUS F.TEL_HANG_STATUS_recovering (b2n (on.contains 0) + 2 * b2n (on.contains 1))
  let rp := (List.range 8).any fun c => ((d.core c).run.map (·.replay)).getD false
  d.setFld R.TEL_HANG_STATUS F.TEL_HANG_STATUS_replaying (b2n rp)

/-- The reset that holds stack k. -/
def Dev.resetOn (d : Dev) (k : Nat) : Option ResetRun := d.recov.resets.find? fun r => r.onStacks.contains k

/-- The reset that holds stack k is replaced; one that holds no stack any more is dropped. -/
def Dev.putReset (d : Dev) (k : Nat) (r : ResetRun) : Dev :=
  { d with recov := { d.recov with
      resets := (d.recov.resets.map fun (x : ResetRun) => if x.onStacks.contains k then r else x).filter fun (x : ResetRun) => x.onStacks ≠ [] } }

/-- A recovery has ended: the event is logged as transient if no suspect is FAULTED, the references of R430 go, HEALTH
RECOVERY is posted (R431). -/
def Dev.recoveryEnd (d : Dev) (r : ResetRun) : Dev :=
  let d := if r.anyFaulted then d else d.logEv { code := Code.hang.num, unit := r.cause, flags := 4 }
  let d := r.refs.foldl Dev.refDec d
  let mask := (r.affected.map (2 ^ ·)).foldl (· ||| ·) 0
  (d.health Ev.recovery.code 0 r.level mask ((d.now - r.decl) / 100)).syncRecov

/-- The next replay on stack k starts, or the stack opens; when every stack of the reset is open the recovery ends (R431, R435). -/
def Dev.replayNext (d : Dev) (k : Nat) : Dev :=
  match d.resetOn k with
  | none => d
  | some r =>
    if r.resetting.any (fun x => x.1 = k) || (coresOf k).any (fun c => (d.core c).run.isSome) then d
    else
      let todo := r.replays.filter fun x => !(x.1 = k && d.faulted x.2.run.ctx)
      match todo.find? fun x => x.1 = k, (coresOf k).find? d.inService with
      | some x, some c => ((d.putReset k { r with replays := todo.erase x }).startReplay c x.2).syncRecov
      | _, _ =>
        let r := { r with replays := todo.filter fun x => x.1 ≠ k, onStacks := r.onStacks.filter (· ≠ k) }
        let d := d.putReset k r
        if r.onStacks = [] then d.recoveryEnd r else d.syncRecov

/-- A fault aborts the kernel of core c: R95 and R219, the journal, the log, the VOID record (R415); a replay only settles
(R432). -/
def Dev.abortKernel (d : Dev) (c : Nat) (code : Code) (addr : Nat) : Dev :=
  match (d.core c).run with
  | none => d
  | some r =>
    let pc := d.pc c
    let parts := d.participants c
    let d := parts.foldl (fun d x => (d.accBoundary x).abortCore x) d
    let d := if r.claiming then d.dropShares r.ctx else d
    let d := d.setFld (R.MC_SEQ_STATUS c) F.MC_SEQ_STATUS_fault code.num
    let d := d.logEv { code := code.num, unit := c, flags := if r.replay then 2 else 0, wher := r.ctx + 64 * r.kernel,
                       stream := r.stream, frame := r.frame, addr := addr, pc := pc }
    if r.replay then d.replayNext (stackOf c)
    else match d.runFrame r with
      | some f => d.voidFrame f 2 code.num
      | none => d

/-! ### Poison in persistent regions and in pages -/

/-- The image and kind of the persistent region that holds an address. -/
def Dev.regionAt (d : Dev) (a : Nat) : Option (Nat × Nat) :=
  (d.images.findSome? fun i => (i.2.regions.find? fun r => r.kind ≤ 2 && r.places.any fun p => p.2 ≤ a && a < p.2 + r.size).map
    fun r => (i.1, r.kind)) <|>
  (d.images.findSome? fun i => if i.2.ctxs.any (fun c => match mget d.ctxs c with
    | some x => x.banks.any fun b => b.2 ≤ a && a < b.2 + 65536
    | none => false) then some (i.1, 0) else none)

/-- The slots of a set: stream, local sequence, table address. -/
def Dev.setSlots (d : Dev) (st : SeqSet) : List (Nat × Nat × Nat) :=
  let q := d.setQ st.base
  (List.range 256).flatMap fun s => (List.range q).map fun t => (s, t, st.base + 131072 + 256 * (s * q + t))

/-- Pages that a slot's entries in use name. -/
def Dev.slotPages (d : Dev) (t : Nat) : List Nat := (List.range (cdiv (d.tblLen t) 32)).map (d.tblEntry t)

/-- The leave bits of every slot that names the page that holds an address (R417). -/
def Dev.leavePoisoned (d : Dev) (a : Nat) : Dev :=
  d.sets.foldl (fun d st => (d.setSlots st).foldl (fun d x =>
    if bit (d.slotStatus x.2.2) 0 && (d.slotPages x.2.2).any (fun h => d.bufAddr h ≤ a && a < d.bufAddr h + 4096) then
      let la := st.base + 65536 + 256 * x.1 + 8
      d.writeRun la (toLE 8 (d.rdLE la 8 ||| 2 ^ x.2.1))
    else d) d) d

/-- What a POISON fault at an address starts: the repair of its bank, or the leave of the sequences (R416, R417). -/
def Dev.poisonFollow (d : Dev) (a : Nat) : Dev :=
  match d.regionAt a with
  | some (img, _) =>
    let ids := ((mget d.images img).map (·.ctxs)).getD []
    { d with ctxs := mmap d.ctxs (fun c x => if ids.contains c then { x with held := true } else x),
             recov := { d.recov with repair := d.recov.repair ++ [(img, a / 65536 * 65536)] } }
  | none => d.leavePoisoned a

/-- A kernel fault with what follows from it. -/
def Dev.fault (d : Dev) (c : Nat) (code : Code) (addr : Nat) : Dev :=
  let d := d.abortKernel c code addr
  if code = .poison then d.poisonFollow addr else d

end Sys2Proof.Machine
end

