-- ==== Sys2Proof/Machine/Dvfs.lean ====
section
/-!
DEFINITION. Operating points and the DVFS sequencer (R476 to R478, R490), and the modes (R333).
-/

namespace Sys2Proof.Machine

/-- Fields of CPR_DVFS_STATUS and SCH_GOV_STATUS of stack k. -/
def fOp (k : Nat) : Fld := if k = 0 then F.CPR_DVFS_STATUS_op0 else F.CPR_DVFS_STATUS_op1
def fBusy (k : Nat) : Fld := if k = 0 then F.CPR_DVFS_STATUS_busy0 else F.CPR_DVFS_STATUS_busy1
def fMv (k : Nat) : Fld := if k = 0 then F.CPR_DVFS_STATUS_mv0 else F.CPR_DVFS_STATUS_mv1
def fGovOp (k : Nat) : Fld := if k = 0 then F.SCH_GOV_STATUS_op0 else F.SCH_GOV_STATUS_op1

/-- The operating point of a stack. -/
def Dev.opOf (d : Dev) (k : Nat) : Nat := d.fld R.CPR_DVFS_STATUS (fOp k)

/-- The divider of a stack changes: both registers report the point. -/
def Dev.setOp (d : Dev) (k n : Nat) : Dev :=
  (d.setFld R.CPR_DVFS_STATUS (fOp k) n).setFld R.SCH_GOV_STATUS (fGovOp k) n

/-- The effective voltage of a stack at a point, in mV (R490). -/
def Dev.effMv (d : Dev) (k n : Nat) : Nat :=
  let f : Int := Config.factoryMv k n
  (clampI (f + sext (bits (d.reg (R.CPR_CAL_VMARGIN k)) (8 * n) 8) 8) (f - 30) (f + 50)).toNat

/-- The rail of a stack at the effective voltage of its point. -/
def Dev.setMv (d : Dev) (k : Nat) : Dev := d.setFld R.CPR_DVFS_STATUS (fMv k) (d.effMv k (d.opOf k))

def Dev.dv (d : Dev) (k : Nat) : Dvfs := mgetD d.dvfs k {}
def Dev.setDv (d : Dev) (k : Nat) (v : Dvfs) : Dev := { d with dvfs := mput d.dvfs k v }

/-- The sequencer starts the next step toward its target; going down, the divider changes first (R477). -/
def Dev.dvfsStart (d : Dev) (k : Nat) : Dev :=
  let v := d.dv k
  let op := d.opOf k
  if v.step ≠ none ∨ v.target = op then d
  else
    let n := if op < v.target then op + 1 else op - 1
    let d := (d.setDv k { v with step := some (n, false) }).setFld R.CPR_DVFS_STATUS (fBusy k) 1
    if n < op then d.setOp k n else d

/-- A request replaces the target (R478). -/
def Dev.dvfsRequest (d : Dev) (k target : Nat) : Dev := (d.setDv k { d.dv k with target := target }).dvfsStart k

/-- The step of a stack ends with its status read (R477, R478). -/
def Dev.dvfsEnd (d : Dev) (k : Nat) (inRange : Bool) : Dev :=
  let v := d.dv k
  match v.step with
  | none => d
  | some (n, again) =>
    if !inRange && !again then d.setDv k { v with step := some (n, true) }
    else
      let d := d.setFld R.CPR_DVFS_STATUS (fBusy k) 0
      if inRange then ((((d.setOp k n).setMv k).setDv k { v with step := none })).dvfsStart k
      else
        let d := d.setDv k { target := d.opOf k, step := none }
        d.health Ev.recovery.code 0 0 (4 * k) 0

/-- The frequency a projection uses while a step runs: the lower of the old and the new (R336). A step down has already
changed the divider, a step up has not. -/
def Dev.opProj (d : Dev) (k : Nat) : Nat := d.opOf k

/-- Period of the array clock at a point, in 1/15 of 10 ns (Table Array operating points). -/
def period15 (op : Nat) : Nat :=
  match op with
  | 0 => 24
  | 1 => 12
  | 2 => 8
  | _ => 6

/-- The mode in force: 3 is treated as Balanced (R342). -/
def modeOf (m : Nat) : Nat := if m = 3 then 1 else m

/-- Table Modes: ceiling and envelope in mW. -/
def modeCeil (m : Nat) : Nat := if m = 0 then 3 else if m = 2 then 1 else 2
def modeEnv (m : Nat) : Nat := if m = 0 then 60000 else if m = 2 then 20000 else 40000

def Dev.mode (d : Dev) : Nat := d.fld R.SCH_GOV_STATUS F.SCH_GOV_STATUS_mode_active

/-- Mode and pin selected; a lower ceiling is applied at once (R333). In Dawn both stacks stay at OP0 (R466). -/
def Dev.setMode (d : Dev) (mode pin : Nat) : Dev :=
  let d := (d.setFld R.SCH_MODE F.SCH_MODE_mode mode).setFld R.SCH_MODE F.SCH_MODE_pin pin
  let d := d.setFld R.SCH_GOV_STATUS F.SCH_GOV_STATUS_mode_active (modeOf mode)
  [0, 1].foldl (fun d k =>
    let c := modeCeil (modeOf mode)
    if c < (d.dv k).target ∨ c < d.opOf k then d.dvfsRequest k (min c (d.dv k).target) else d) d

end Sys2Proof.Machine
end

