-- ==== Sys2Proof/Machine/Issue.lean ====
section
/-!
DEFINITION. Issuing an instruction and completing it: the form and the result of each opcode, the checks of R105, tokens
(R76), the issue rule (R89 to R93), units (R72), shares (R211 to R217), page references and locks (R149, R156), completion
and retirement (R92), faults after issue (R106).
-/

namespace Sys2Proof.Machine

/-! ### Opcodes -/

/-- The opcodes of Table Opcode summary. -/
def opcodes : List Nat :=
  [0x01, 0x02, 0x03, 0x08, 0x09, 0x10, 0x12, 0x18, 0x20, 0x21, 0x22, 0x23, 0x24, 0x25, 0x26, 0x30, 0x31, 0x32, 0x33, 0x34,
   0x40, 0x41, 0x42, 0x43, 0x50, 0x51, 0x52, 0x53, 0x54, 0x55, 0x56, 0x57, 0x58, 0x5F, 0x60]

/-- EMIT's form (R165). -/
def emitForm (k : Core) (w : IWord) (s : List Word) : Form :=
  match k.opd s (iA w) with
  | some a =>
    let len := lenSel s (imm w 0 5) a.D.d0 0
    { ok := reservedOk w 255 31 && a.D.layout = .record && (iMod w = 1 || iMod w = 2 || iMod w = 3 || iMod w = 4 || iMod w = 10),
      unit := .sst, srcs := [a], shape := len ≤ a.D.d0 && len ≤ 4076, zero := len = 0 }
  | none => Form.bad .sst

/-- The form of a data instruction; none for an opcode that has no region operands. -/
def Dev.formOf (d : Dev) (c : Nat) (k : Core) (w : IWord) (s : List Word) : Option Form :=
  match iOp w with
  | 0x01 => some (moveForm k w s)
  | 0x02 => some (move2dForm k w s)
  | 0x03 => some (gatherForm k w s)
  | 0x08 => some (ldwForm k w s)
  | 0x09 => some (ldw4Form k w s)
  | 0x10 => some (matmulForm k w s)
  | 0x12 => some (ewiseForm k w s)
  | 0x18 => some (convForm k w s)
  | 0x20 => some (vopForm k w s)
  | 0x21 => some (vlutForm k w s)
  | 0x22 => some (softmaxForm k w s)
  | 0x23 => some (normForm k w s)
  | 0x24 => some (poolForm k w s)
  | 0x25 => some (resizeForm k w s)
  | 0x26 => some (dwconvForm k w s)
  | 0x30 => some (attqkForm k w s)
  | 0x31 => some (attpvForm d c k w s)
  | 0x32 =>
    let f := kvappForm d ((k.run.map (·.frame)).getD 0) k w s
    some (if (k.run.map (·.replay)).getD false then { f with zero := true, late := none } else f)
  | 0x33 => some (kvexpForm d k w s)
  | 0x34 => some (rowstatForm k w s)
  | 0x57 => some (emitForm k w s)
  | 0x60 => some (stoolForm k w s)
  | _ => none

/-- What an in-flight instruction's computation yields, on the memory as it stands. -/
def Dev.resOf (d : Dev) (c : Nat) (k : Core) (x : InFlight) : Res :=
  let w := x.word
  let s := x.sregs
  match iOp w with
  | 0x01 => moveRes d k w s
  | 0x02 => move2dRes d k w s
  | 0x03 => gatherRes d k w s
  | 0x08 => ldwRes d c k w s
  | 0x09 => ldwRes d c k w s
  | 0x10 => matmulRes d c k w s x.w0 x.lut
  | 0x12 => ewiseRes d k w s x.lut
  | 0x18 => convRes d c k w s x.w0 x.lut
  | 0x20 => vopRes d k w s
  | 0x21 => vlutRes d k w s
  | 0x22 => softmaxRes d k w s
  | 0x23 => normRes d k w s
  | 0x24 => poolRes d k w s
  | 0x25 => resizeRes d k w s
  | 0x26 => dwconvRes d k w s
  | 0x30 => attqkRes d k w s x.len
  | 0x31 => attpvRes d k w s x.len
  | 0x33 => kvexpRes d k w s
  | 0x34 => rowstatRes d k w s
  | 0x57 =>
    match k.opd s (iA w) with
    | some a => let r := span a.b (lenSel s (imm w 0 5) a.D.d0 0); { reads := r, bad := d.poisonFault r }
    | none => {}
  | 0x60 => stoolRes d k w s
  | _ => {}

/-! ### Tokens (R76) -/

/-- A token incremented by n, saturating at 255 with tok_sat. -/
def Dev.tokAdd (d : Dev) (c t n : Nat) : Dev :=
  let v := mgetD (d.core c).tokens t 0
  let d := if 255 < v + n then d.setFld (R.MC_SEQ_STATUS c) F.MC_SEQ_STATUS_tok_sat 1 else d
  d.modCore c fun k => { k with tokens := mput k.tokens t (min 255 (v + n)) }

def Dev.tokSub (d : Dev) (c t n : Nat) : Dev :=
  d.modCore c fun k => { k with tokens := mput k.tokens t (mgetD k.tokens t 0 - n) }

def Dev.tok (d : Dev) (c t : Nat) : Nat := mgetD (d.core c).tokens t 0

/-- The wait token, if enabled, is non-zero. -/
def Dev.waitOk (d : Dev) (c : Nat) (w : IWord) : Bool := !iWaitEn w || 1 ≤ d.tok c (iWaitTok w)

/-- The wait token taken at issue. -/
def Dev.takeWait (d : Dev) (c : Nat) (w : IWord) : Dev := if iWaitEn w then d.tokSub c (iWaitTok w) 1 else d

/-- The signal token, at completion. -/
def Dev.signal (d : Dev) (c : Nat) (w : IWord) : Dev := if iSigEn w then d.tokAdd c (iSigTok w) 1 else d

/-- MC_SEQ_RETIRED counts one instruction. -/
def Dev.countRetired (d : Dev) (c : Nat) : Dev := d.wrapFld (R.MC_SEQ_RETIRED c) F.MC_SEQ_RETIRED_retired 1

def Dev.setPc (d : Dev) (c n : Nat) : Dev := d.setFld (R.MC_SEQ_STATUS c) F.MC_SEQ_STATUS_pc n

/-- Issue waits on a token or on tags; the homes register the core (R89). -/
def Dev.setWaits (d : Dev) (c : Nat) (tok : Bool) (tags : List TagRef) : Dev :=
  let d := d.setFld (R.MC_SEQ_STATUS c) F.MC_SEQ_STATUS_tok_wait (b2n tok)
  let d := d.setFld (R.MC_SEQ_STATUS c) F.MC_SEQ_STATUS_tag_wait (b2n (tags ≠ []))
  let new := (tags.map fun t => (c, t.key)).filter fun n => !d.home.notes.contains n
  let d := { d with home := { d.home with notes := d.home.notes ++ new } }
  let now := d.now
  d.modCore c fun k => { k with waitSince := if tok then k.waitSince.or (some now) else none }

/-- Issue no longer waits. -/
def Dev.clearWaits (d : Dev) (c : Nat) : Dev :=
  let d := d.setWaits c false []
  { d with home := { d.home with notes := d.home.notes.filter fun n => n.1 ≠ c } }

/-! ### Shares at issue (R212 to R216) -/

/-- What an instruction is to a share: nothing, an instance of a claim (counter, tile), a closing instance. -/
inductive ShareUse where
  | plain
  | inst (counter tile key rcount : Nat)
  | closing (key rcount : Nat)
  deriving DecidableEq, Repr

def shareUse (k : Core) (c : Nat) (w : IWord) (f : Form) : ShareUse :=
  let claiming : Bool := match k.run with
    | some r => r.claiming
    | none => false
  if !claiming || !(iOp w = 0x10 || iOp w = 0x18) then .plain
  else match f.dsts with
    | [o] =>
      if o.inOwn c then .plain
      else if f.zero then .closing o.D.tagKey o.D.rcount
      else match k.claims with
        | (ctr, tile) :: _ => .inst ctr tile o.D.tagKey o.D.rcount
        | [] => .plain
    | _ => .plain

/-- The share checks after those of R105 (R213, R214, R216). -/
def Dev.shareFault (d : Dev) (k : Core) (c : Nat) (f : Form) (u : ShareUse) : Bool :=
  match k.run with
  | none => false
  | some r =>
    (r.claiming && f.srcs.any fun o => !o.inOwn c && (d.shareOf r.ctx o.D.tagKey).isSome) ||
    match u with
    | .plain => false
    | .inst ctr tile key _ =>
      1024 ≤ tile || d.home.shares.any fun s => s.tag = key && (match s.counter with
        | some x => x ≠ ctr
        | none => false)
    | .closing key _ => match d.shareOf r.ctx key with
      | some s => s.closing.contains r.s6
      | none => false

/-- A share's record, opened by its first instance (R213, R214). -/
def Dev.openShare (d : Dev) (r : Run) (key rcount : Nat) (ctr : Option Nat) : Dev :=
  match d.shareOf r.ctx key with
  | some s => if s.counter = none ∧ ctr ≠ none then d.modShare r.ctx key fun s => { s with counter := ctr } else d
  | none =>
    let s : Share := { counter := ctr, tag := key, ctx := r.ctx, rcount := rcount, issued := [], done := [], closing := [],
                       closed := [], parts := r.s7, orphans := [], lost := [] }
    ({ d with home := { d.home with shares := d.home.shares ++ [s] } }).setHomeTag key .filling

/-! ### The issue rule -/

/-- The unit has room for one more (R72, R120). -/
def Core.unitRoom (k : Core) (d : Dev) (c : Nat) (u : XUnit) (w : IWord) : Bool :=
  let unit := fun (x : InFlight) => match d.formOf c k x.word x.sregs with
    | some f => f.unit
    | none => .atomics
  let n := fun v => (k.inflight.filter fun x => unit x = v).length
  match u with
  | .array => true
  | .wload => n .wload = 0 || (iOp w = 8 && modBit w 0)
  | .vector => n .vector = 0
  | .move => decide (n .move < 16)
  | .stool => true
  | .seq => true
  | .atomics => decide (n .atomics < 4)
  | .sst => decide (n .sst < 4)

/-- The table a paged instruction names. -/
def Core.table (k : Core) (w : IWord) (s : List Word) : Option Nat :=
  if iOp w = 0x30 ∨ iOp w = 0x31 ∨ iOp w = 0x32 ∨ iOp w = 0x33 then (k.opd s (iC w)).map (·.b) else none

/-- No other instruction holds the table (R156). -/
def Dev.unlocked (d : Dev) (t : Option Nat) : Bool :=
  match t with
  | some a => !d.home.locks.any fun l => l.1 = a
  | none => true

/-- The device address a check at issue names: the first region that breaks R83. -/
def Form.badAddr (f : Form) : Nat :=
  match (f.srcs ++ f.dsts ++ f.aux).find? fun o => !o.addrOk with
  | some o => o.b
  | none => (f.psum.map (·.b)).getD 0

/-- The tags that keep the instruction from issuing; a later instance of a share issues while the tag is FILLING (R214). -/
def Dev.issueBlocked (d : Dev) (k : Core) (c : Nat) (f : Form) (u : ShareUse) : List TagRef :=
  let reads := f.reads k c
  let writes := f.writes k c
  let ctx := (k.run.map (·.ctx)).getD 0
  let key := match u with
    | .plain => none
    | .inst _ _ key _ => some key
    | .closing key _ => some key
  match key with
  | some x => if (d.shareOf ctx x).isSome then d.blockedTags c reads [] else d.blockedTags c reads writes
  | none => d.blockedTags c reads writes

/-- The written tags become READY and the read tags retire (R92, R93). -/
def Dev.settleTags (d : Dev) (c : Nat) (reads writes : List TagRef) : Dev :=
  let d := writes.foldl (fun d t => d.setTag c t (.ready t.rcount)) d
  (reads.filter fun t => !hasTag writes t).foldl (fun d t => d.setTag c t (d.tag c t).retire) d

/-- References on the pages an instruction reads, one each, recorded against it (R149, R427). -/
def Dev.takePages (d : Dev) (c id : Nat) (pages : List Nat) : Dev :=
  pages.foldl (fun d h =>
    if d.refFault true h 0 = none then
      let d := d.refInc h
      { d with home := { d.home with refs := d.home.refs ++ [(h, c, id)] } }
    else d) d

/-- The instruction's references and its lock go (R149, R156). -/
def Dev.dropPages (d : Dev) (c id : Nat) : Dev :=
  let mine := d.home.refs.filter fun r => r.2 = (c, id)
  let d := { d with home := { d.home with refs := d.home.refs.filter (fun r => r.2 ≠ (c, id)),
                                          locks := d.home.locks.filter fun l => l.2 ≠ (c, id) } }
  mine.foldl (fun d r => d.refDec r.1) d

/-- The closing instance of core c may retire: its earlier instances of the share have completed (R216). -/
def Core.closable (k : Core) (key : Nat) : Bool :=
  !k.inflight.any fun x => match x.share with
    | some (_, some _, t) => t = key
    | _ => false

/-- The drain slot an instruction's stage 5 reads, as it stands at issue; a slot never loaded holds free bytes. -/
def Dev.lutAt (d : Dev) (k : Core) (w : IWord) : List Byte × Dev :=
  if (iOp w = 0x10 ∨ iOp w = 0x12 ∨ iOp w = 0x18) ∧ modBit w 1 then
    match mget k.luts (bits (iMod w) 2 2) with
    | some t => (t, d)
    | none => let v := d.fresh; (toLE 256 v.1, v.2)
  else ([], d)

/-- The planes and drain slots as the issue leaves them, and the weights of the first pass (R119 to R121). -/
def Dev.issuePlanes (d : Dev) (c : Nat) (k : Core) (w : IWord) (s : List Word) : Core × List (List Int) :=
  let ctx := (k.run.map (·.ctx)).getD 0
  if iOp w = 8 ∨ iOp w = 9 then (ldwCore d c k w s, [])
  else if iOp w = 0x10 ∨ iOp w = 0x18 then
    match k.opd s (iB w) with
    | some b =>
      k.runPlanes ctx (iB w) (b.D.layout = .wtile4) (cdiv b.D.d0 (d.rangeP c b.D)) b.D.kt (d.firstRange c b)
    | none => (k, [])
  else (k, [])

/-- Length and pages that a paged instruction reads at issue (R149, R201). -/
def Dev.pagedAt (d : Dev) (k : Core) (w : IWord) (s : List Word) : Nat × List Nat :=
  match k.table w s with
  | none => (0, [])
  | some t =>
    if iOp w = 0x30 then (d.qkLen t, d.pagesOf t 0 (d.qkLen t))
    else if iOp w = 0x31 then (d.tblLen t, d.pagesOf t 0 (d.tblLen t))
    else if iOp w = 0x33 then
      let p0 := startSel s (imm w 0 5)
      let n := lenSel s (imm w 5 5) (((k.opd s (iC w)).map (·.D.d0)).getD 0) p0
      (d.tblLen t, d.pagesOf t p0 (p0 + n))
    else (d.tblLen t, [])

/-- A zero-length instruction completes at once (R93); a closing instance once its earlier instances have (R216). -/
def Dev.issueZero (d : Dev) (c : Nat) (w : IWord) (reads writes : List TagRef) : Dev :=
  ((d.settleTags c reads writes).signal c w).countRetired c

/-- Put the instruction in flight. -/
def Dev.putFlight (d : Dev) (c : Nat) (x : InFlight) : Dev :=
  d.modCore c fun k => { k with inflight := k.inflight ++ [x], nextId := x.id + 1 }

/-- A STOOL joins its engine's queue (R168, R176). -/
def Dev.joinStool (d : Dev) (c id : Nat) : Dev :=
  let n := stackOf c
  let e := mgetD d.stool n {}
  let e := if e.queue.length < 4 ∧ e.overflow = [] then { e with queue := e.queue ++ [(c, id)] }
    else { e with overflow := e.overflow ++ [(c, id)] }
  ({ d with stool := mput d.stool n e.advance }).syncStool n

/-- The share a closing instance closes, once every earlier instance of its participant has completed. -/
def Dev.closeShare (d : Dev) (c : Nat) (key : Nat) (reads : List TagRef) : Dev :=
  match (d.core c).run with
  | some r =>
    let d := d.settleTags c reads []
    (d.modShare r.ctx key fun s => { s with closed := s.closed ++ [r.s6] }).shareCheck
  | none => d

/-- The instruction issues: tokens, tags, references, planes, and its in-flight record. -/
def Dev.doIssue (d : Dev) (c : Nat) (f : Form) (w : IWord) (u : ShareUse) : Dev :=
  let k := d.core c
  let s := k.sregs
  let reads := f.reads k c
  let writes := f.writes k c
  let pc := d.pc c
  let d := ((d.takeWait c w).clearWaits c).setPc c (pc + 1)
  let id := k.nextId
  let blank : InFlight := { id := id, word := w, pc := pc, sregs := s }
  match u, k.run with
  | .closing key rcount, some r =>
    let d := d.openShare r key rcount (k.claims.head?.map (·.1))
    let d := d.modShare r.ctx key fun s => { s with closing := s.closing ++ [r.s6] }
    let d := d.modCore c fun k => { k with claims := k.claims.drop 1 }
    if k.closable key then ((d.closeShare c key reads).signal c w).countRetired c
    else d.putFlight c { blank with share := some (0, none, key) }
  | .inst ctr tile key rcount, some r =>
    let d := d.openShare r key rcount (some ctr)
    let d := d.modShare r.ctx key fun s => { s with issued := s.issued ++ [(tile, r.s6, r.gen)] }
    let (lut, d) := d.lutAt k w
    let (k', w0) := d.issuePlanes c k w s
    let d := d.modCore c fun q => { q with planeA := k'.planeA, planeS := k'.planeS, claims := q.claims.drop 1 }
    (d.putFlight c { blank with lut := lut, w0 := w0, share := some (ctr, some tile, key) }).syncShares
  | _, _ =>
    if f.zero then d.issueZero c w reads writes
    else
      let d := writes.foldl (fun d t => d.setTag c t .filling) d
      let (lut, d) := d.lutAt k w
      let (k', w0) := d.issuePlanes c k w s
      let d := d.modCore c fun q => { q with planeA := k'.planeA, planeS := k'.planeS, luts := k'.luts }
      let (len, pages) := d.pagedAt k w s
      let d := d.takePages c id pages
      let d := match k.table w s with
        | some t => if iOp w = 0x32 then { d with home := { d.home with locks := d.home.locks ++ [(t, c, id)] } } else d
        | none => d
      let d := d.putFlight c { blank with lut := lut, w0 := w0, len := len, pages := pages }
      if iOp w = 0x60 then d.joinStool c id else d

/-- An attempt to issue a data instruction: R105, the share checks, the wait, the checks at issue, the issue. -/
def Dev.tryIssue (d : Dev) (c : Nat) (w : IWord) : Dev :=
  let k := d.core c
  match d.formOf c k w k.sregs with
  | none => d
  | some f =>
    let u := shareUse k c w f
    match { f with late := none }.check c with
    | some code => d.fault c code (if code = .addrRange then f.badAddr else 0)
    | none =>
      if d.shareFault k c f u then d.fault c .descInvalid 0
      else
        let blocked := d.issueBlocked k c f u
        let tok := !d.waitOk c w
        if tok || blocked ≠ [] then d.setWaits c tok blocked
        else if !k.unitRoom d c f.unit w || !d.unlocked (k.table w k.sregs) then d.setWaits c false []
        else match f.late with
          | some code => d.fault c code 0
          | none => d.doIssue c f w u

/-! ### Fetching the next instruction -/

/-- The core issues: a kernel is dispatched, its code is in the buffer, KEND has not issued. -/
def Core.issuing (k : Core) : Bool := k.run.isSome && k.filled && !k.kendIssued

/-- The instruction at the core's pc. -/
def Dev.nextWord (d : Dev) (c : Nat) : Option IWord := (d.core c).ibuf[d.pc c]?

/-- Run f on the next instruction of core c when its opcode is op; an opcode no chapter defines faults DESC_INVALID (R103);
an instruction of another opcode is not this command's. -/
def Dev.onOp (d : Dev) (c op : Nat) (f : IWord → Dev) : Dev :=
  if c < 8 ∧ (d.core c).issuing ∧ d.clocked (stackOf c) then
    match d.nextWord c with
    | some w => if iOp w = op then f w else if opcodes.contains (iOp w) then d else d.fault c .descInvalid 0
    | none => d
  else d

/-- The command of a data instruction. -/
def Dev.issueData (d : Dev) (c op : Nat) : Dev := d.onOp c op fun w => d.tryIssue c w

/-! ### Completion and faults after issue -/

def Dev.infl? (d : Dev) (c id : Nat) : Option InFlight := (d.core c).inflight.find? fun x => x.id = id

def Dev.dropFlight (d : Dev) (c id : Nat) : Dev :=
  d.modCore c fun k => { k with inflight := k.inflight.filter fun x => x.id ≠ id }

/-- A completion report of an instance: the tile's bit, unless the generation was aborted or the bit is set (R225). -/
def Dev.tileDone (d : Dev) (c key tile : Nat) : Dev :=
  match (d.core c).run with
  | some r =>
    (d.modShare r.ctx key fun s =>
      if s.issued.contains (tile, r.s6, r.gen) && !s.done.contains tile then { s with done := s.done ++ [tile] } else s).shareCheck
  | none => d

/-- Retirement: tags or share report, references, token, count. -/
def Dev.retireFlight (d : Dev) (c : Nat) (x : InFlight) : Dev :=
  let k := d.core c
  let d := match d.formOf c k x.word x.sregs with
    | none => d
    | some f =>
      match x.share with
      | some (_, some tile, key) => d.tileDone c key tile
      | some (_, none, key) => d.closeShare c key (f.reads k c)
      | none => d.settleTags c (f.reads k c) (f.writes k c)
  let d := (d.dropPages c x.id).dropFlight c x.id
  let d := if iOp x.word = 0x30 ∨ iOp x.word = 0x31 then d.modCore c fun k => { k with planeA := none, planeS := none } else d
  (d.signal c x.word).countRetired c

/-- Contractions complete in order, after every weight load issued before them (R119, R129). -/
def Core.inOrder (k : Core) (x : InFlight) : Bool :=
  let arr := fun (y : InFlight) => iOp y.word = 0x10 || iOp y.word = 0x12 || iOp y.word = 0x18 || iOp y.word = 0x30 || iOp y.word = 0x31
  let ld := fun (y : InFlight) => iOp y.word = 8 || iOp y.word = 9
  if arr x then !k.inflight.any fun y => decide (y.id < x.id) && (arr y || ld y)
  else if ld x then !k.inflight.any fun y => decide (y.id < x.id) && ld y
  else true

/-- EMIT's record joins the frame's held records (R165, R166). -/
def Dev.emitRecord (d : Dev) (c : Nat) (k : Core) (x : InFlight) : Dev :=
  match k.run, k.opd x.sregs (iA x.word) with
  | some r, some a =>
    match d.runFrame r with
    | none => d.retireFlight c x
    | some f =>
      if r.replay then d.retireFlight c x
      else
        let len := lenSel x.sregs (imm x.word 0 5) a.D.d0 0
        let units := cdiv (20 + len) 64
        let bytes := recBytes (iMod x.word) units (streamField r.stream false f.unauth) r.frame r.stamp r.epoch r.variant
          (d.rdN a.b len)
        let d := d.noteRead (span a.b len)
        match d.pop (((mget d.streams r.stream).map (·.recPool)).getD 0) 1 with
        | (none, d) => d.fault c .poolEmpty 0
        | (some h, d) =>
          let d := d.writeRun (d.bufAddr h) bytes
          let d := d.modFrame r.stream r.frame r.revisit fun f =>
            { f with recs := f.recs ++ [{ kernel := r.kernel, s6 := r.s6, seq := x.id, bytes := bytes, handle := some h }] }
          d.retireFlight c x
  | _, _ => d

/-- The bytes of a result committed, with its poison and flags. -/
def Dev.commitRes (d : Dev) (c : Nat) (r : Res) : Dev :=
  (((d.noteRead r.reads).writeCells r.ws).setPoison r.pz).setFlags c r

/-- A pool operation performed at the home (R160, R428): FREE and REFDEC are checked now and settled at KEND. -/
def Dev.homeOp (d : Dev) (c : Nat) (k : Core) (x : InFlight) : Dev :=
  let h := sreg x.sregs (imm x.word 0 5)
  let inc := iOp x.word = 0x42
  let dec := (k.journal.filter fun j => j = (.dec, h)).length
  match d.refFault inc h dec with
  | some code => d.fault c code (if code = .addrRange then 0 else d.bufAddr h)
  | none =>
    let d := if inc then d.refInc h else d
    let d := d.modCore c fun k => { k with journal := k.journal ++ [(if inc then .inc else .dec, h)] }
    ((d.dropFlight c x.id).signal c x.word).countRetired c

/-- The oldest pool operation of the core to its home answers first (R158). -/
def Core.homeFirst (k : Core) (x : InFlight) : Bool :=
  let home := fun (y : InFlight) => let p := hPool (sreg y.sregs (imm y.word 0 5)); if p < 16 then 0 else if p < 32 then 1 else 2
  let isPool := fun (y : InFlight) => iOp y.word = 0x41 || iOp y.word = 0x42 || iOp y.word = 0x43
  !k.inflight.any fun y => isPool y && decide (y.id < x.id) && decide (home y = home x)

def isPoolOp (w : IWord) : Bool := iOp w = 0x41 || iOp w = 0x42 || iOp w = 0x43

/-- INSTRUCTION_COMPLETE on an instruction that is not a STOOL. -/
def Dev.completeFlight (d : Dev) (c : Nat) (x : InFlight) : Dev :=
  let k := d.core c
  let w := x.word
  if isPoolOp w then if k.homeFirst x then d.homeOp c k x else d
  else if !k.inOrder x then d
  else match x.share with
    | some (_, none, key) => if k.closable key then d.retireFlight c x else d
    | _ =>
      let r := d.resOf c k x
      if r.bad ≠ [] then d
      else if iOp w = 0x57 then d.emitRecord c k x
      else if iOp w = 0x32 then
        ((d.kvappCommit k w x.sregs ((k.run.map (·.frame)).getD 0))).retireFlight c x
      else (d.commitRes c r).retireFlight c x

/-- INSTRUCTION_FAULT: one of the faults the data hold is reported, after a part of the writes (R106). -/
def Dev.faultFlight (d : Dev) (c : Nat) (x : InFlight) : Dev :=
  let k := d.core c
  if isPoolOp x.word then
    if k.homeFirst x && d.refFault (iOp x.word = 0x42) (sreg x.sregs (imm x.word 0 5))
        ((k.journal.filter fun j => j = (.dec, sreg x.sregs (imm x.word 0 5))).length) ≠ none then d.homeOp c k x else d
  else
    let r := d.resOf c k x
    match r.bad with
    | [] => d
    | b0 :: _ =>
      let (v, d) := d.fresh
      let (n, d) := d.fresh
      let b := (r.bad[v % r.bad.length]?).getD b0
      let d := (d.noteRead r.reads).writeCells (r.ws.take (n % (r.ws.length + 1)))
      d.fault c b.1 b.2

end Sys2Proof.Machine
end

