-- ==== Sys2Proof/Machine/Sched.lean ====
section
/-!
DEFINITION. What the scheduler and the deadline monitor compute and do: cores in service, the choice of a stack (R323),
estimates (R99), projections (R325, R326), the dispatch order (R322), deadline voids (R329), stream states (R331), input
tags (R94), the dispatch of a kernel (R67 to R75, R210) and the end of a frame (R166, R302, R330). Durations here are in
1/12,600 of 10 ns, in which every quotient of R325 is exact.
-/

namespace Sys2Proof.Machine

def unitsPerTick : Nat := 12600

/-- The device works: Dawn, Day or Dusk (R466). -/
def Dev.working (d : Dev) : Bool := d.pwr.phase = .dawn || d.pwr.phase = .ready || d.pwr.phase = .dusk

/-! ### Cores and stacks -/

/-- A compute reset, or the replays after it, holds the stack (R424, R431, R435). -/
def Dev.stackHeld (d : Dev) (k : Nat) : Bool := (d.resetOn k).isSome

/-- Time limit of the reset steps (R423). -/
def ResetKind.limit : ResetKind → Nat
  | .two => 60 * 10 ^ 5
  | _ => 30 * 10 ^ 5

/-- The time a reset of the stack still takes (R423, R435). -/
def Dev.resetLeft (d : Dev) (k : Nat) : Nat :=
  match (d.resetOn k).bind fun r => r.resetting.find? fun x => x.1 = k with
  | some x => x.2.1 + x.2.2.limit - d.now
  | none => 0

/-- Remaining estimate of the kernel on a core; 0 when it is idle (R325). -/
def Dev.coreLeft (d : Dev) (c : Nat) : Nat :=
  match (d.core c).run with
  | some r => r.est - unitsPerTick * (d.now - r.started)
  | none => 0

/-- The earliest time a core of the stack is free; none: no core is in service. -/
def Dev.stackFree (d : Dev) (k : Nat) : Option Nat :=
  (((coresOf k).filter d.inService).map d.coreLeft).min?.map (· + unitsPerTick * d.resetLeft k)

def Dev.ctx? (d : Dev) (c : Nat) : Option Ctx := mget d.ctxs c

/-- A suspect that is not cleared yet (R429). -/
def Dev.suspect (d : Dev) (c : Nat) : Bool := d.recov.resets.any fun r => r.affected.contains c

/-- The stack R323 chooses for a context; while a suspect recovers its stream stays off the held stack (R332). -/
def Dev.chooseStack (d : Dev) (ctx : Nat) (avoid : Bool) : Option Nat :=
  match d.ctx? ctx with
  | none => none
  | some x =>
    let on := [0, 1].filter fun k => x.onStacks.contains k && (d.stackFree k).isSome
    let on := if avoid && on.any (fun k => !d.stackHeld k) then on.filter fun k => !d.stackHeld k else on
    match on with
    | [] => none
    | [k] => some k
    | _ => if (d.stackFree 1).getD 0 < (d.stackFree 0).getD 0 then some 1 else some 0

/-! ### Frames -/

/-- The context that is the full model of a frame. -/
def Frame.full (f : Frame) : Nat := if f.revisit then f.ctx else f.ep.bind.ctx

/-- The class of a frame: of its binding; a revisited frame takes the class of the named context (R66, R310). -/
def Dev.frameLc (d : Dev) (f : Frame) : Bool :=
  if f.revisit then ((d.ctx? f.ctx).map (·.lc)).getD false else f.ep.bind.lc

/-- The absolute deadline of a frame (R322). -/
def Dev.deadlineOf (d : Dev) (f : Frame) : Nat :=
  f.stamp + (if f.revisit then ((d.ctx? f.ctx).map (·.deadline)).getD 0 else f.ep.bind.deadline)

/-- The frame waits for a core with its next kernel. -/
def Frame.queued (f : Frame) : Bool := f.st = .ready || f.st = .admitted

/-- Sequence sets of a stream's context (R196). -/
def Dev.setsOf (d : Dev) (f : Frame) : List SeqSet :=
  if f.revisit then [] else d.sets.filter fun s => s.ctx = f.ep.bind.ctx || s.ctx = f.ctx

/-- The frame's step is admitted, or it needs no admission. -/
def Dev.stepOk (d : Dev) (f : Frame) : Bool := f.st = .admitted || (f.st = .ready && d.setsOf f = [])

/-! ### Estimates and projections -/

def Dev.costOf (d : Dev) (x : Ctx) (k : Nat) : Option Cost :=
  (mget d.images x.image).bind fun i => i.costs[x.firstKernel + k]?

/-- Planned participants of kernel k of a context (R209, R325). -/
def Dev.planned (d : Dev) (ctx : Nat) (x : Ctx) (k : Nat) : Nat :=
  match d.costOf x k with
  | some c => if bit c.flags 0 then 1 + Config.planCount ctx k % 8 else 1
  | none => 1

/-- The value the scheduler would load into a register for kernel k of the frame (R73, R74, R99). -/
def Dev.planReg (d : Dev) (f : Frame) (ctx : Nat) (x : Ctx) (k r : Nat) : Nat :=
  match r with
  | 0 => 0
  | 1 => f.stream
  | 2 => f.num
  | 3 => f.ep.num + 65536 * x.variant
  | 4 => f.crops
  | 5 => f.listOff
  | 6 => 0
  | 7 => d.planned ctx x k
  | _ =>
    if k = 0 then (x.scalars.getD (r - 8) 0).toNat
    else ((((mget d.streams f.stream).map (·.save)).getD []).getD (r - 8) 0).toNat

/-- Smallest width among the cores of a stack in service. -/
def Dev.stackWidth (d : Dev) (k : Nat) : Nat := ((((coresOf k).filter d.inService).map d.width).min?).getD 0

/-- The estimate of R99 in cycles; none: unbounded. -/
def estCycles (c : Cost) (L w : Nat) : Option Nat :=
  if w = 0 then none else some (cdiv ((c.c0 * 65536 + c.c1 * L) * 256) (65536 * w))

/-- The duration E / F of kernel k on a stack at an operating point (R325). -/
def Dev.kernelTime (d : Dev) (f : Frame) (ctx : Nat) (x : Ctx) (k stack op : Nat) : Option Nat :=
  match d.costOf x k with
  | some c => (estCycles c (d.planReg f ctx x k c.lenReg) (d.stackWidth stack)).map fun e =>
      e * period15 op * 840 / d.planned ctx x k
  | none => some 0

/-- Σ of the durations of the kernels not retired. -/
def Dev.restTime (d : Dev) (f : Frame) (ctx : Nat) (x : Ctx) (k0 stack op : Nat) : Option Nat :=
  ((List.range (x.kernelCount - k0)).map fun i => d.kernelTime f ctx x (k0 + i) stack op).foldl
    (fun acc t => match acc, t with
      | some a, some b => some (a + b)
      | _, _ => none) (some 0)

/-- f is ordered before g among LC dispatches (R322). -/
def Dev.lcBefore (d : Dev) (f g : Frame) : Bool :=
  let a := d.deadlineOf f
  let b := d.deadlineOf g
  a < b || (a = b && f.stream < g.stream)

/-- W of the first remaining kernel: the least remaining estimate on the stack and the LC dispatches queued ahead (R325,
R435). -/
def Dev.waitTime (d : Dev) (f : Frame) (stack : Nat) : Nat :=
  let run := (((coresOf stack).filter d.inService).map d.coreLeft).min?.getD 0
  let ahead := d.sched.frames.filter fun g => g.queued && d.frameLc g && d.lcBefore g f &&
    !(g.stream = f.stream && g.num = f.num) && (g.stack.or (d.chooseStack g.ctx (d.suspect g.full))) = some stack
  let ts := ahead.map fun g => match d.ctx? g.ctx with
    | some x => (d.kernelTime g g.ctx x g.kernel stack (d.opProj stack)).getD 0
    | none => 0
  unitsPerTick * d.resetLeft stack + run + ts.foldl (· + ·) 0

/-- Admission time still counted (R325). -/
def Dev.admTime (d : Dev) (f : Frame) : Nat :=
  if d.setsOf f = [] ∨ f.st = .admitted ∨ f.st = .running then 0 else ((mget d.streams f.stream).map (·.admission)).getD 0

/-- The slack of frame f on context ctx from its kernel k0, at an operating point less by drop; none: unbounded (R325). -/
def Dev.slack (d : Dev) (f : Frame) (ctx k0 drop : Nat) : Option Int :=
  match d.ctx? ctx, (f.stack.filter fun _ => ctx = f.ctx).or (d.chooseStack ctx (d.suspect f.full)) with
  | some x, some k =>
    (d.restTime f ctx x k0 k (d.opProj k - drop)).map fun e =>
      (unitsPerTick * d.deadlineOf f : Int) - (unitsPerTick * (d.now + d.admTime f) + d.waitTime f k + e : Nat)
  | _, _ => none

/-- A projection is kept for the governor (R334, R335). -/
def Dev.noteSlack (d : Dev) (f : Frame) (ctx k0 : Nat) : Dev :=
  match d.slack f ctx k0 0, d.slack f ctx k0 1, f.stack.or (d.chooseStack ctx (d.suspect f.full)) with
  | some s, some l, some k =>
    let old := d.sched.slacks.filter fun r => d.now < r.time + 10 ^ 7
    let r : SlackRec := { stack := k, time := d.now, slack := s, low := l, margin := unitsPerTick * f.ep.bind.margin }
    { d with sched := { d.sched with slacks := old ++ [r] } }
  | _, _, _ => d

/-! ### Stream states (R327 to R331) -/

def Dev.modStream (d : Dev) (id : Nat) (g : Stream → Stream) : Dev :=
  match mget d.streams id with
  | some s => { d with streams := mput d.streams id (g s) }
  | none => d

/-- The stream changes state, to be reported with its cause: 0 LOAD, 1 DEADLINE, 2 RECOVERY, 3 HOLD (R331). -/
def Dev.setFallback (d : Dev) (id : Nat) (fb : Bool) (cause : Nat) : Dev :=
  match mget d.streams id with
  | none => d
  | some s =>
    if s.fallback = fb then d
    else
      let d := if fb then d.satFld R.SCH_DL_EVENTS F.SCH_DL_EVENTS_fallbacks 1 else d
      d.modStream id fun s => { s with fallback := fb, report := s.report ++ [(fb, cause)], holdCount := 0 }

/-- The reports of changes of state join the records ahead of a frame (R331). -/
def Dev.takeReports (d : Dev) (f : Frame) : Frame × Dev :=
  let rs := ((mget d.streams f.stream).map (·.report)).getD []
  let recs := rs.map fun r => stateRec f.stream f.num f.stamp f.ep.num 4 (b2n r.1) r.2 0 0 0 0 0 0
  ({ f with ahead := f.ahead ++ recs }, d.modStream f.stream fun s => { s with report := [] })

/-- A frame is voided for its deadline (R327 to R330). -/
def Dev.deadlineVoid (d : Dev) (f : Frame) : Dev :=
  let d := d.logEv { code := Code.deadlineMiss.num, unit := 0x32, stream := f.stream, frame := f.num }
  let d := d.satFld R.SCH_DL_EVENTS F.SCH_DL_EVENTS_voids 1
  let d := d.voidFrame f 1 0
  let d := if ((mget d.streams f.stream).map (·.fallback)).getD false then
      d.modStream f.stream fun s => { s with holdCount := 0 }
    else d
  if f.ep.bind.fallback.isSome then d.setFallback f.stream true 1 else d

/-! ### Descriptors of a context -/

/-- The descriptor table of a context as a bank holds it: slots that are valid. -/
def Dev.ctxDescs (d : Dev) (x : Ctx) : List Desc :=
  match x.banks.head? with
  | some b => (List.range 256).filterMap fun i => parseDesc (d.rdN (b.2 + 64 * i) 64)
  | none => []

/-- Frame-input regions: the descriptors that reach the crops through S5 (R94). -/
def Dev.inputTags (d : Dev) (x : Ctx) : List (Nat × Nat) :=
  ((d.ctxDescs x).filter fun D => D.breg = 5 && D.rcount ≠ 0).map fun D => (D.tagKey, D.rcount)

def Dev.setInputs (d : Dev) (x : Ctx) : Dev :=
  (d.inputTags x).foldl (fun d t => d.setHomeTag t.1 (.ready t.2)) d

/-! ### Dispatch (R67 to R75, R79, R210, R322, R323) -/

/-- Address and instruction count of a kernel's code for a core: the copy on its own stack first (R71, R525). -/
def Dev.codeAt (d : Dev) (x : Ctx) (kernel core : Nat) : Option (Nat × Nat) :=
  let home := (x.code.find? fun c => c.1 = stackOf core).or x.code.head?
  match (mget d.images x.image).bind fun i => i.kernels[kernel]?, home with
  | some k, some c => some (c.2 + (k.1 - x.codeInit), k.2)
  | _, _ => none

/-- The bank a core fills its descriptor cache from (R79). -/
def Dev.bankAt (x : Ctx) (core : Nat) : Option Nat :=
  ((x.banks.find? fun b => b.1 = stackOf core).or x.banks.head?).map (·.2)

/-- The tags that the instructions of a kernel name, with their states (R70). -/
def Dev.kernelTags (d : Dev) (c : Nat) (k : Core) (words : List IWord) : List (Nat × TagState) :=
  let keys := words.flatMap fun w => match d.formOf c k w k.sregs with
    | some f => (f.srcs ++ f.dsts).filterMap fun o => if o.D.rcount = 0 then none else some o.D.tagKey
    | none => []
  (dedup keys).map fun t => (t, mgetD d.home.tags t .free)

/-- The scalar registers loaded at dispatch (R73, R74). -/
def loadSregs (f : Frame) (x : Ctx) (save : List Word) (k s6 s7 : Nat) : List Word :=
  let w := fun (n : Nat) => BitVec.ofNat 32 n
  [0, w f.stream, w f.num, w (f.ep.num + 65536 * x.variant), w f.crops, w f.listOff, w s6, w s7] ++
    (List.range 24).map fun i => (if k = 0 then x.scalars else save).getD i 0

/-- Put a run on a core: checkpoint, scalars, empty tokens, cleared planes; the code fill starts (R70 to R76, R119). -/
def Dev.startRun (d : Dev) (c : Nat) (x : Ctx) (r : Run) (sregs : List Word) : Dev :=
  let words := match d.codeAt x r.kernel c with
    | some (a, n) => (List.range n).map fun i => iwOf (d.rdN (a + 16 * i) 16)
    | none => []
  let table := match Dev.bankAt x c with
    | some b => d.rdN b 16384
    | none => []
  let k := d.core c
  let k : Core := { k with run := some r, sregs := sregs, tokens := [], ibuf := [], filled := false, inflight := [],
                           planeA := none, planeS := none, journal := [], claims := [], waitSince := none,
                           kendIssued := false, lookAhead := [] }
  let tags := d.kernelTags c { k with dcache := table } words
  let d := d.setCore c { k with priv := if r.claiming then tags else [] }
  let d := d.setFld (R.MC_SEQ_STATUS c) F.MC_SEQ_STATUS_context r.ctx
  let d := d.setFld (R.MC_SEQ_STATUS c) F.MC_SEQ_STATUS_busy 1
  let d := d.setPc c 0
  { d with sched := { d.sched with ckpts := mput d.sched.ckpts c { run := r, sregs := sregs, tags := tags } } }

/-- The context's 32 counters are written to 0 (R210). -/
def Dev.zeroCounters (d : Dev) (ctx : Nat) : Dev :=
  { d with home := { d.home with counters := d.home.counters.filter fun e => e.1 % 1024 / 16 ≠ ctx } }

/-- A claiming dispatch of the context has a participant that has not retired KEND (R209). -/
def Dev.claimRunning (d : Dev) (ctx : Nat) : Bool :=
  (List.range 8).any fun c => match (d.core c).run with
    | some r => r.claiming && !r.replay && r.ctx = ctx
    | none => false

/-- The core can take a dispatch: in service, idle, its stack open, no self-test (R48, R52, R67, R431). -/
def Dev.coreOpen (d : Dev) (c : Nat) : Bool :=
  d.inService c && (d.core c).run.isNone && !d.stackHeld (stackOf c) && !d.flag R.CPR_PWR_STATUS F.CPR_PWR_STATUS_entering

/-- The frame's next kernel could be dispatched now, given cores. -/
def Dev.dispatchable (d : Dev) (f : Frame) : Bool :=
  d.stepOk f && match d.ctx? f.ctx with
    | some x => !x.held && !d.faulted f.ctx && decide (f.kernel < x.kernelCount) &&
        !(((d.costOf x f.kernel).map fun c => bit c.flags 0).getD false && d.claimRunning f.ctx)
    | none => false

/-- The stack of a dispatch: fixed by the frame's first kernel (R323). -/
def Dev.dispStack (d : Dev) (f : Frame) : Option Nat := f.stack.or (d.chooseStack f.ctx (d.suspect f.full))

/-- Ready BE contexts, and the one whose turn it is (R322). -/
def Dev.beTurn (d : Dev) : Option Nat :=
  let cs := (d.sched.frames.filter fun f => !d.frameLc f && d.dispatchable f).map (·.ctx)
  (cs.filter (d.sched.rr < ·)).min?.or cs.min?

/-- The dispatch order of R322 allows frame f on these cores now. -/
def Dev.orderOk (d : Dev) (f : Frame) (cores : List Nat) : Bool :=
  let could := fun (g : Frame) => d.frameLc g && d.dispatchable g &&
    cores.any fun c => (d.dispStack g) = some (stackOf c)
  if d.frameLc f then !d.sched.frames.any fun g => could g && d.lcBefore g f
  else
    !d.flag R.SCH_GOV_STATUS F.SCH_GOV_STATUS_be_paused && !d.sched.frames.any could && d.beTurn = some f.ctx &&
    !d.sched.frames.any fun g => !d.frameLc g && d.dispatchable g && g.ctx = f.ctx && decide (g.readySeq < f.readySeq)

/-- The next kernel of frame f starts on the given cores. -/
def Dev.dispatch (d : Dev) (f : Frame) (cores : List Nat) : Dev :=
  match d.ctx? f.ctx, cores with
  | some x, c0 :: _ =>
    let n := cores.length
    let stack := f.stack.getD (stackOf c0)
    let claiming := ((d.costOf x f.kernel).map fun c => bit c.flags 0).getD false
    let est := (d.kernelTime f f.ctx x f.kernel stack (d.opProj stack)).getD 0
    let save := ((mget d.streams f.stream).map (·.save)).getD []
    let d := if f.kernel = 0 then d.setInputs x else d
    let d := if claiming then d.zeroCounters f.ctx else d
    let d := if d.frameLc f then d else
      { d with sched := { d.sched with
          rr := f.ctx,
          beWaits := (d.sched.beWaits.filter fun b => d.now < b.2.1 + 10 ^ 7) ++ [(stack, d.now, d.now - f.readyAt)] } }
    let d := cores.zipIdx.foldl (fun d ci =>
      let gen := d.sched.gen + 1
      let d := { d with sched := { d.sched with gen := gen } }
      let r : Run := {
        ctx := f.ctx, variant := x.variant, kernel := x.firstKernel + f.kernel, count := x.kernelCount, stream := f.stream,
        frame := f.num, epoch := f.ep.num, stamp := f.stamp, s6 := ci.2, s7 := n, claiming := claiming, replay := false,
        gen := gen, stack := stack, revisit := f.revisit, started := d.now, est := est }
      d.startRun ci.1 x r (loadSregs f x save f.kernel ci.2 n)) d
    d.modFrame f.stream f.num f.revisit fun f => { f with st := .running, stack := some stack }
  | _, _ => d

/-! ### The end of a frame -/

/-- Records in the order of R166. -/
def Rec.before (a b : Rec) : Bool :=
  a.kernel < b.kernel || (a.kernel = b.kernel && (a.s6 < b.s6 || (a.s6 = b.s6 && a.seq ≤ b.seq)))

def insRec (r : Rec) : List Rec → List Rec
  | [] => [r]
  | x :: l => if r.before x then r :: x :: l else x :: insRec r l

def sortRecs (l : List Rec) : List Rec := l.foldr insRec []

/-- The records of a frame as they join the ring's queue, the last with bit 14 set (R166, R384). -/
def Dev.frameRecs (d : Dev) (f : Frame) : List WaitRec :=
  let rs := sortRecs f.recs
  let ring := ((mget d.streams f.stream).map (·.ring)).getD 0
  let ws := rs.map fun r => ({ ring := ring, device := false, stream := f.stream, frame := f.num, last := false,
                               bytes := r.bytes, handle := r.handle } : WaitRec)
  (f.ahead.map (d.devRec f.stream f.num false)) ++ match ws.getLast? with
    | some w => ws.dropLast ++ [{ w with last := true, bytes := recBit w.bytes 6 }]
    | none => []

/-- A fallback frame of a FALLBACK stream completes: the hold of R330; suspects keep it at 0 (R332). A BE frame has no
deadline and completes with margin. -/
def Dev.holdStep (d : Dev) (f : Frame) : Dev :=
  match mget d.streams f.stream with
  | none => d
  | some s =>
    if f.revisit || !s.fallback || !f.onFallback || d.suspect f.full || d.faulted f.full then d
    else
      let ok : Bool := !d.frameLc f || match f.fullEst, f.fbEst with
        | some e, some b => decide (unitsPerTick * d.now + e + unitsPerTick * f.ep.bind.margin ≤
            unitsPerTick * d.deadlineOf f + b)
        | _, _ => false
      let n := if ok then s.holdCount + 1 else 0
      if f.ep.bind.hold ≤ n then d.setFallback f.stream false 3
      else d.modStream f.stream fun s => { s with holdCount := n }

/-- The last kernel has retired: the buffer is dropped, the records are released (R166, R302). -/
def Dev.finishFrame (d : Dev) (f : Frame) : Dev :=
  let d := d.holdStep f
  let recs := d.frameRecs f
  let d := (d.freeFrameBuf f).dropFrame f
  if f.revisit then recs.foldl Dev.postRec d else d.release f.stream f.num recs

/-- A kernel of frame f has ended: the next one is queued after a projection, or the frame ends (R326, R328). -/
def Dev.kernelEnded (d : Dev) (f : Frame) : Dev :=
  match d.ctx? f.ctx with
  | none => d.voidFrame f 2 Code.descInvalid.num
  | some x =>
    if x.kernelCount ≤ f.kernel + 1 then d.finishFrame f
    else if d.faulted f.ctx then d.voidFrame f 2 Code.hang.num
    else
      let f' := { f with kernel := f.kernel + 1, st := .admitted }
      let d := d.modFrame f.stream f.num f.revisit fun _ => f'
      if d.frameLc f && !f.revisit then
        let d := d.noteSlack f' f'.ctx f'.kernel
        match d.slack f' f'.ctx f'.kernel 0 with
        | some s => if s < 0 then d.deadlineVoid f' else d
        | none => d.deadlineVoid f'
      else d

end Sys2Proof.Machine
end

