-- ==== Sys2Proof/Machine/Admit.lean ====
section
/-!
DEFINITION. Sequence sets (R184 to R208): headers, slots, leaves, trims, reservations, spills, joins and forks, the admission
of a step, readout holds and the built-in readout kernel.
-/

namespace Sys2Proof.Machine

/-- A set's header (Table Sequence-set header). -/
structure SetH where
  base : Nat
  kind : Nat
  ways : Nat
  cap : Nat
  q : Nat
  pool : Nat
  spill : Nat
  ro : Nat
  score : Nat
  ctx : Nat
  beta : Nat
  roBase : Nat
  deriving DecidableEq, Repr

def Dev.setH (d : Dev) (b : Nat) : SetH :=
  let h := d.rdN b 64
  { base := b, kind := byteAt h 0, ways := byteAt h 1, cap := byteAt h 3, q := 2 ^ byteAt h 4, pool := byteAt h 5,
    spill := byteAt h 6, ro := byteAt h 7, score := byteAt h 8, ctx := byteAt h 9, beta := le h 10 2, roBase := le h 12 6 }

/-- Positions a step appends (R185). -/
def SetH.step (h : SetH) : Nat := if h.kind = 0 then 1 else h.ways

/-- Address of a stream block, of a slot, of a readout ring entry (R185, R205). -/
def SetH.block (h : SetH) (s : Nat) : Nat := h.base + 65536 + 256 * s
def SetH.slot (h : SetH) (s t : Nat) : Nat := h.base + 131072 + 256 * (s * h.q + t)
def SetH.ring (h : SetH) (s t f : Nat) : Nat := h.roBase + 256 * ((s * h.q + t) * 2 ^ h.ro + f % 2 ^ h.ro)

def Dev.live (d : Dev) (a : Nat) : Bool := bit (d.slotStatus a) 0

/-- Reserved page handles of a slot. -/
def Dev.slotResv (d : Dev) (a : Nat) : List Nat :=
  (if bit (d.tblFlags a) 0 then [d.rdLE (a + 8) 4] else []) ++ (if bit (d.tblFlags a) 1 then [d.rdLE (a + 12) 4] else [])

/-- A leave: every page and reservation loses one reference; len, entries and status become 0 (R195). -/
def Dev.slotRelease (d : Dev) (a : Nat) : Dev :=
  let hs := d.slotPages a ++ d.slotResv a
  ((hs.foldl Dev.refDec d).writeRun a (zeros 240)).writeRun (a + 252) [0]

/-- A trim of n pages from the front of a slot (R202). -/
def Dev.slotTrim (d : Dev) (a n : Nat) : Dev :=
  let ps := d.slotPages a
  let len := d.tblLen a
  let trimmed := d.rdLE (a + 240) 4
  let d := (ps.take n).foldl Dev.refDec d
  let d := d.writeRun (a + 16) (padTo ((ps.drop n).flatMap (toLE 4)) 224)
  (d.writeRun a (toLE 4 (len - 32 * n))).writeRun (a + 240) (toLE 4 (trimmed + n))

/-! ### Pages: reservation and spill (R198, R200) -/

/-- The first page of a BE set that a spill may take: address of its entry, its handle, the spill pool. -/
def Dev.spillCand (d : Dev) (pool : Nat) : Option (Nat × Nat × Nat) :=
  let sets := (d.sets.map fun s => d.setH s.base).filter fun h =>
    h.pool = pool && h.spill ≠ 0xFF && !((d.ctx? h.ctx).map (·.lc)).getD false
  (List.range 256).findSome? fun s =>
    if d.sched.frames.any (fun f => f.stream = s && (f.st = .admitted || f.st = .running)) then none
    else sets.findSome? fun h => (List.range h.q).findSome? fun t =>
      let a := h.slot s t
      if !d.live a then none
      else (d.slotPages a).zipIdx.findSome? fun p =>
        if hPool p.1 = pool && d.pageCount p.1 = 1 then some (a + 16 + 4 * p.2, p.1, h.spill) else none

/-- One page spilled; none when no candidate or no spill buffer is left. -/
def Dev.spillOne (d : Dev) (pool : Nat) : Option Dev :=
  match d.spillCand pool with
  | none => none
  | some (e, h, sp) =>
    match d.pop sp 1 with
    | (none, _) => none
    | (some n, d) =>
      let src := d.bufAddr h
      let pz := (span src 4096).filter d.poisonAt
      let d := ((d.noteRead (span src 4096)).writeRun (d.bufAddr n) (d.rdN src 4096)).setPoison
        (pz.map fun a => a - src + d.bufAddr n)
      some ((d.writeRun e (toLE 4 n)).refDec h)

/-- A page for a sequence; an LC sequence spills first. The answer says whether pages were spilled. -/
def Dev.grab (d : Dev) (lc : Bool) (pool : Nat) : Nat → Bool → Option Nat × Dev × Bool
  | 0, sp => (none, d, sp)
  | n + 1, sp =>
    match d.pop pool 1 with
    | (some h, d) => (some h, d, sp)
    | (none, d) =>
      if !lc then (none, d, sp)
      else match d.spillOne pool with
        | some d => d.grab lc pool n true
        | none => (none, d, sp)

/-- A handle into a free reservation field of a slot. -/
def Dev.putResv (d : Dev) (a h : Nat) : Dev :=
  let fl := d.tblFlags a
  if bit fl 0 then (d.writeRun (a + 12) (toLE 4 h)).writeRun (a + 4) (toLE 2 (fl ||| 2))
  else (d.writeRun (a + 8) (toLE 4 h)).writeRun (a + 4) (toLE 2 (fl ||| 1))

/-- The missing pages of a slot, each written into its reservation as it is got; success only with all of them (R198). -/
def Dev.reserve (d : Dev) (lc : Bool) (pool a : Nat) : Nat → Bool → Bool × Dev × Bool
  | 0, sp => (true, d, sp)
  | n + 1, sp =>
    match d.grab lc pool 65536 sp with
    | (some h, d, sp) => (d.putResv a h).reserve lc pool a n sp
    | (none, d, sp) => (false, d, sp)

/-- n pages at once, given back if one is missing (R201). -/
def Dev.takeN (d : Dev) (lc : Bool) (pool : Nat) : Nat → List Nat → Bool → Option (List Nat) × Dev × Bool
  | 0, acc, sp => (some acc, d, sp)
  | n + 1, acc, sp =>
    match d.grab lc pool 65536 sp with
    | (some h, d, sp) => d.takeN lc pool n (acc ++ [h]) sp
    | (none, d, sp) => (none, acc.foldl Dev.refDec d, sp)

/-! ### Joins (R194, R201) -/

/-- A joining slot written: len, entries, trimmed, join frame, live, parent, reservations. -/
def Dev.writeJoin (d : Dev) (a len : Nat) (pages : List Nat) (trimmed frame parent : Nat) (resv : List Nat) : Dev :=
  let d := d.writeRun a (toLE 4 len ++ toLE 4 0 ++ zeros 8 ++ padTo (pages.flatMap (toLE 4)) 224)
  let d := d.writeRun (a + 240) (toLE 4 trimmed ++ toLE 4 0 ++ toLE 4 frame ++ [1, BitVec.ofNat 8 parent, 0, 0])
  resv.foldl (fun d h => d.putResv a h) d

/-- A join admitted whole, or not at all. -/
def Dev.admitJoin (d : Dev) (lc : Bool) (h : SetH) (s t parent frame : Nat) (sp : Bool) : Bool × Dev × Bool :=
  let a := h.slot s t
  let p := h.slot s parent
  if parent < h.q ∧ parent ≠ t ∧ d.live p then
    let len := d.tblLen p
    let pages := d.slotPages p
    let trimmed := d.rdLE (p + 240) 4
    if pages.any (fun x => d.refFault true x 0 ≠ none) then (false, d, sp)
    else
      let d := pages.foldl Dev.refInc d
      let tail := len % 32 ≠ 0
      let need := b2n tail + b2n (needFresh len h.step)
      let pneed := d.needPages p len h.step - d.heldResv p
      match d.takeN lc h.pool (need + pneed) [] sp with
      | (some hs, d, sp) =>
        let d := d.writeJoin a len pages trimmed frame parent (hs.take need)
        (true, (hs.drop need).foldl (fun d x => d.putResv p x) d, sp)
      | (none, d, sp) => (false, pages.foldl Dev.refDec d, sp)
  else
    match d.takeN lc h.pool (b2n (needFresh 0 h.step)) [] sp with
    | (some hs, d, sp) => (true, d.writeJoin a 0 [] 0 frame 0xFF hs, sp)
    | (none, d, sp) => (false, d, sp)

/-! ### Readout (R205 to R208) -/

/-- A record of the built-in readout kernel. -/
def Dev.readoutRec (d : Dev) (r : Readout) (req t lane held trimmed variant : Nat) (top : List (Nat × Nat)) : WaitRec :=
  let epoch := (((mget d.streams r.stream).bind (·.cur)).map (·.num)).getD 0
  let body := toLE 1 t ++ toLE 1 lane ++ toLE 1 top.length ++ toLE 1 0 ++ toLE 4 held ++ toLE 4 trimmed ++ toLE 2 req ++
    toLE 6 0 ++ top.flatMap fun x => toLE 2 x.1 ++ toLE 1 x.2 ++ toLE 1 0
  d.devRec r.stream r.frame false
    (recBytes 9 2 (streamField r.stream false false) r.frame d.now epoch variant body)

/-- The slot's ring entry still serves the request (R206). -/
def Dev.readoutFits (d : Dev) (h : SetH) (s f t : Nat) : Bool :=
  let e := h.ring s t f
  h.kind = 0 && h.ro ≠ 0 && d.live (h.slot s t) && d.rdLE e 4 = f && d.rdLE (e + 17) 1 = 1 &&
    d.rdLE (e + 12) 4 = d.rdLE (h.slot s t + 248) 4

/-- Scratch tables of a set that are in use. -/
def Dev.scratchUsed (d : Dev) (b : Nat) : List Nat :=
  d.readouts.flatMap fun r => (r.scratch.filter fun x => x.base = b).map (·.tbl)

def scratchAddr (x : Scratch) : Nat := x.base + 256 + 256 * x.tbl

/-- One slot of a request: served without positions, given a scratch table, dropped, or left for later. -/
def Dev.readoutSlot (d : Dev) (r : Readout) (b t : Nat) : Readout × Dev :=
  let h := d.setH b
  let req := ((d.sets.find? fun s => s.base = b).map (·.req)).getD 0
  let a := h.slot r.stream t
  let e := h.ring r.stream t r.frame
  if !d.readoutFits h r.stream r.frame t then (r, d)
  else
    let gone := (d.rdLE (a + 240) 4 + 2 ^ 32 - d.rdLE (e + 8) 4) % 2 ^ 32
    let len := d.rdLE (e + 4) 4
    if len ≤ 32 * gone then
      ({ r with emitted := r.emitted + 1 }, d.postRec (d.readoutRec r req t 0 0 len (d.rdLE (e + 16) 1) []))
    else
      match (List.range 4).find? fun i => !(d.scratchUsed b ++ (r.scratch.filter fun x => x.base = b).map (·.tbl)).contains i with
      | none => ({ r with slots := r.slots ++ [(b, t)] }, d)
      | some i =>
        let held := len - 32 * gone
        let n := cdiv held 32
        let pages := (List.range n).map fun j => d.tblEntry a j
        let x : Scratch := { base := b, tbl := i, slot := t }
        let d := pages.foldl Dev.refInc d
        let d := d.writeRun (scratchAddr x) (toLE 4 held ++ zeros 12 ++ pages.flatMap (toLE 4))
        ({ r with scratch := r.scratch ++ [x] }, d)

/-- A request is finished when no slot of it remains (R207, R208). -/
def Dev.readoutSettle (d : Dev) : Dev :=
  let done := d.readouts.filter fun r => r.slots = [] && r.scratch = []
  let d := { d with readouts := d.readouts.filter fun r => !(r.slots = [] && r.scratch = []) }
  done.foldl (fun d r =>
    let d := { d with que := { d.que with cmds := d.que.cmds.filter fun c => !(c.q = r.q && c.cid = r.cid && c.op = 0x28) } }
    d.complete r.q r.cid (if r.emitted = 0 then Code.notFound.num else 0) (toLE 1 r.emitted)) d

/-- The holds of the requests that wait for a stream, on one set (R197, R206). -/
def Dev.takeHolds (d : Dev) (s b : Nat) : Dev :=
  let d := d.readouts.foldl (fun d r0 =>
    match d.readouts.find? fun r => r.q = r0.q && r.cid = r0.cid with
    | none => d
    | some r =>
      if r.stream ≠ s then d
      else
        let mine := r.slots.filter fun x => x.1 = b
        let res := mine.foldl (fun (acc : Readout × Dev) x => acc.2.readoutSlot acc.1 x.1 x.2)
          ({ r with slots := r.slots.filter fun x => x.1 ≠ b }, d)
        { res.2 with readouts := res.2.readouts.map fun (y : Readout) => if y.q = r.q && y.cid = r.cid then res.1 else y }) d
  d.readoutSettle

/-- The 16 highest probabilities, in descending order, ties in ascending age (R208). -/
def topProbs : Nat → List (Nat × Nat) → List (Nat × Nat)
  | 0, _ => []
  | n + 1, l =>
    match l with
    | [] => []
    | x :: r =>
      let best := r.foldl (fun b y => if b.2 < y.2 || (b.2 = y.2 && y.1 < b.1) then y else b) x
      best :: topProbs n (l.filter fun y => y.1 ≠ best.1)

/-- The built-in kernel on one scratch table: a record for each lane, then the holds go (R206). -/
def Dev.readoutRun (d : Dev) (r : Readout) (x : Scratch) : Readout × Dev :=
  let h := d.setH x.base
  let req := ((d.sets.find? fun s => s.base = x.base).map (·.req)).getD 0
  let e := h.ring r.stream x.slot r.frame
  let t := scratchAddr x
  let held := d.tblLen t
  let len := d.rdLE (e + 4) 4
  let variant := d.rdLE (e + 16) 1
  let img := ((d.ctx? h.ctx).map (·.image)).getD 0
  let desc := (d.ctxs.find? fun c => c.2.image = img && c.2.variant = variant).bind fun c =>
    c.2.banks.head?.bind fun b => parseDesc (d.rdN (b.2 + 64 * h.score) 64)
  let wl := 128 / h.ways
  let lanes := (List.range h.ways).map fun lane =>
    let st := (fp32.unpack (d.rdLE (e + 32 + 8 * lane) 4), fp32.unpack (d.rdLE (e + 36 + 8 * lane) 4))
    let ps := (List.range held).map fun j =>
      let q : Int := match desc with
        | some D =>
          let v := (drain { D with etype := .i16 } false none
            (sumZ wl fun y => d.elem .i8 (e + 64 + lane * wl + y) * d.latent t j (lane * wl + y)) 0).1
          softU8 (softProb (fp16.unpack h.beta) st (if v = -32768 then none else some (FV.ofInt v))) j
        | none => clampI (Config.openInt 4 j) 0 255
      (len - 1 - j, q.toNat)
    d.readoutRec r req x.slot lane held (len - held) variant (topProbs 16 ps)
  let pages := d.slotPages t
  let d := lanes.foldl Dev.postRec d
  let d := pages.foldl Dev.refDec d
  ({ r with scratch := r.scratch.filter (· ≠ x), emitted := r.emitted + h.ways }, d)

/-- The readout kernel of a core ends. -/
def Dev.readoutEnd (d : Dev) (c : Nat) : Dev :=
  match d.readouts.findSome? fun r => (r.scratch.find? fun x => x.core = some c).map fun x => (r, x) with
  | none => d
  | some (r, x) =>
    let res := d.readoutRun r x
    ({ res.2 with readouts := res.2.readouts.map fun (y : Readout) => if y.q = r.q && y.cid = r.cid then res.1 else y }).readoutSettle

/-- A readout kernel of a core is aborted: its holds go and its slot waits again (R207, R427). -/
def Dev.readoutAbort (d : Dev) (c : Nat) : Dev :=
  match d.readouts.findSome? fun r => (r.scratch.find? fun x => x.core = some c).map fun x => (r, x) with
  | none => d
  | some (r, x) =>
    let d := (d.slotPages (scratchAddr x)).foldl Dev.refDec d
    let r' := { r with scratch := r.scratch.filter (· ≠ x), slots := (x.base, x.slot) :: r.slots }
    { d with readouts := d.readouts.map fun (y : Readout) => if y.q = r.q && y.cid = r.cid then r' else y }

/-! ### Admission of a step (R197) -/

def maskOf (l : List Nat) : Nat := (l.map (2 ^ ·)).foldl (· ||| ·) 0

/-- What a stage of an admission carries: the device, whether pages were spilled, the slots deferred or pending. -/
structure Adm where
  d : Dev
  spilled : Bool := false
  deferred : List Nat := []
  pending : List (Nat × Nat) := []

/-- A continuing sequence reserves what it needs, or is deferred. -/
def Adm.cont (x : Adm) (lc : Bool) (h : SetH) (s t : Nat) : Adm :=
  let a := h.slot s t
  let d := x.d.writeRun (a + 252) (toLE 1 (x.d.slotStatus a &&& 0xFD))
  let r := d.reserve lc h.pool a (d.needPages a (d.tblLen a) h.step - d.heldResv a) x.spilled
  let d := if r.1 then r.2.1 else r.2.1.writeRun (a + 252) (toLE 1 (r.2.1.slotStatus a ||| 2))
  { x with d := d, spilled := r.2.2, deferred := if r.1 then x.deferred else x.deferred ++ [t] }

/-- A join is admitted, or pends with its parent. -/
def Adm.join (x : Adm) (lc : Bool) (h : SetH) (s frame : Nat) (j : Nat × Nat) : Adm :=
  if x.d.live (h.slot s j.1) then x
  else
    let r := x.d.admitJoin lc h s j.1 j.2 frame x.spilled
    { x with d := r.2.1, spilled := r.2.2, pending := if r.1 then x.pending else x.pending ++ [j] }

/-- Tags of the descriptors that reach the two ranges of a stream block (R186). -/
def Dev.setTags (d : Dev) (x : Ctx) (h : SetH) : Dev :=
  (d.ctxDescs x).foldl (fun d D =>
    let o := D.base - (h.base + 65536)
    if D.rcount = 0 || D.base < h.base + 65536 || h.base + 131072 ≤ D.base || D.layout = .paged then d
    else if o % 256 < 80 then d.setHomeTag D.tagKey .free
    else d.setHomeTag D.tagKey (.ready D.rcount)) d

/-- The admission of frame f for one set; the records it places ahead of the frame. -/
def Dev.admitSet (d : Dev) (f : Frame) (st : SeqSet) : List (List Byte) × Dev :=
  let h := d.setH st.base
  let s := f.stream
  let lc := d.frameLc f
  let blk := h.block s
  let slots := List.range h.q
  let joins := slots.filter (bit (d.rdLE blk 8))
  let leaves := slots.filter (bit (d.rdLE (blk + 8) 8))
  let parent := fun t => d.rdLE (blk + 16 + t) 1
  let old := (slots.filterMap fun t => (mget st.pend (s * h.q + t)).map fun p => (t, p)).filter fun j => !leaves.contains j.1
  let fresh := (joins.filter fun t => !(old.any fun j => j.1 = t)).map fun t => (t, parent t)
  let d := d.writeRun blk (zeros 80)
  let d := leaves.foldl (fun d t => if d.live (h.slot s t) then d.slotRelease (h.slot s t) else d) d
  let exc := fun (d : Dev) t => d.tblLen (h.slot s t) + h.step - 32 * h.cap
  let d := slots.foldl (fun d t =>
    if d.live (h.slot s t) && exc d t ≠ 0 then d.slotTrim (h.slot s t) (cdiv (exc d t) 32) else d) d
  let d := d.takeHolds s st.base
  let x : Adm := { d := d }
  let x := (slots.filter fun t => d.live (h.slot s t)).foldl (fun x t => x.cont lc h s t) x
  let x := (old ++ fresh).foldl (fun x j => x.join lc h s f.num j) x
  let d := x.d
  let live := slots.filter fun t => d.live (h.slot s t)
  let dm := maskOf x.deferred
  let pm := maskOf (x.pending.map (·.1))
  let events := b2n x.spilled + 2 * b2n st.lost
  let d := d.writeRun (blk + 80) (toLE 8 (maskOf live) ++ toLE 8 dm ++ toLE 8 pm ++ toLE 4 f.num ++ toLE 1 events)
  let variant := ((d.ctx? f.ctx).map (·.variant)).getD 0
  let d := if h.kind = 0 ∧ h.ro ≠ 0 then live.foldl (fun d t =>
      let a := h.slot s t
      d.writeRun (h.ring s t f.num) (toLE 4 f.num ++ toLE 4 (d.tblLen a) ++ toLE 4 (d.rdLE (a + 240) 4) ++
        toLE 4 (d.rdLE (a + 248) 4) ++ toLE 1 variant ++ toLE 1 (b2n (!x.deferred.contains t)) ++ zeros 14)) d
    else d
  let d := match d.ctx? f.ctx with
    | some c => d.setTags c h
    | none => d
  let pend := (st.pend.filter fun e => !(s * h.q ≤ e.1 && e.1 < (s + 1) * h.q))
  let pend := x.pending.foldl (fun m j => mput m (s * h.q + j.1) j.2) pend
  let d := { d with sets := d.sets.map fun y => if y.base = st.base then { y with pend := pend, lost := false } else y }
  let rec1 := if dm ≠ 0 ∨ pm ≠ 0 then [stateRec s f.num f.stamp f.ep.num 5 0 0 0 0 0 st.req dm pm] else []
  let rec2 := if st.lost then [stateRec s f.num f.stamp f.ep.num 6 0 0 0 0 0 st.req 0 0] else []
  (rec2 ++ rec1, d)

/-- The step of frame f admitted, set by set (R196); how long it took is not the spec's to say (R325). -/
def Dev.admitStep (d : Dev) (f : Frame) : Dev :=
  let r := (d.setsOf f).foldl (fun (acc : List (List Byte) × Dev) st =>
    let y := acc.2.admitSet f st
    (acc.1 ++ y.1, y.2)) ([], d)
  let v := r.2.fresh
  let d := v.2.modStream f.stream fun s => { s with admission := v.1 % 2 ^ 32 }
  d.modFrame f.stream f.num f.revisit fun g => { g with st := .admitted, ahead := g.ahead ++ r.1 }

/-- Every live slot of a stream in a set is released and its pending joins cancelled (R187, R378). -/
def Dev.releaseStream (d : Dev) (s : Nat) (st : SeqSet) : Dev :=
  let h := d.setH st.base
  let d := (List.range h.q).foldl (fun d t => if d.live (h.slot s t) then d.slotRelease (h.slot s t) else d) d
  { d with sets := d.sets.map fun y => if y.base = st.base then
      { y with pend := y.pend.filter fun e => !(s * h.q ≤ e.1 && e.1 < (s + 1) * h.q) } else y }

end Sys2Proof.Machine
end

