-- ==== Sys2Proof/Machine/Ops.lean ====
section
/-!
DEFINITION. How a command acts on the state: on the device at the present device time, or at an instant that the command
itself says device time has reached.
-/

namespace Sys2Proof.Machine

/-- The command acts on the device alone, at the present device time. -/
def onDev (s : State) (f : Dev → Dev) : Host.Outcome State Fault Refusal :=
  .next { s with d := f { s.d with now := s.tb.time } }

/-- Device time has reached t: it never moves back (R487, log entry 15). -/
def State.reach (s : State) (t : Nat) : State := { s with tb := { s.tb with time := max s.tb.time t } }

/-- The command acts on the device at the instant t it names. -/
def onDevAt (s : State) (t : Nat) (f : Dev → Dev) : Host.Outcome State Fault Refusal := onDev (s.reach t) f

end Sys2Proof.Machine
end

