-- ==== Sys2Proof/Machine/Cmd.lean ====
section
/-!
DEFINITION. The frame of every command of a submission queue: when the device fetches an entry, what the header must hold, the
answer (R356, R369 to R371, R375, R376, R469).
-/

namespace Sys2Proof.Machine

/-- Bytes 16 to 63 that Table Commands names for an opcode; none: an undefined opcode. -/
def cmdNamed (op : Nat) : Option (List (Nat × Nat)) :=
  if op = 0x01 ∨ op = 0x03 then some [(16, 18)]
  else if op = 0x02 ∨ op = 0x04 ∨ op = 0x06 ∨ op = 0x11 ∨ op = 0x35 then some [(16, 17)]
  else if op = 0x05 then some [(16, 18), (24, 32)]
  else if op = 0x10 ∨ op = 0x32 then some []
  else if op = 0x12 then some [(16, 21), (24, 40)]
  else if op = 0x13 then some [(16, 17), (18, 20)]
  else if op = 0x20 then some [(16, 22)]
  else if op = 0x21 then some [(16, 21)]
  else if op = 0x22 then some [(16, 18)]
  else if op = 0x23 ∨ op = 0x2B then some [(16, 20), (24, 32)]
  else if op = 0x24 then some [(16, 24)]
  else if op = 0x25 then some [(18, 20)]
  else if op = 0x26 then some [(18, 21)]
  else if op = 0x27 then some [(16, 19), (20, 24)]
  else if op = 0x28 then some [(16, 18), (20, 24)]
  else if op = 0x29 then some [(16, 18), (24, 40)]
  else if op = 0x2A ∨ op = 0x36 then some [(20, 24)]
  else if op = 0x30 then some [(16, 18)]
  else if op = 0x31 then some [(16, 19)]
  else if op = 0x33 then some [(16, 49)]
  else if op = 0x34 then some [(16, 20)]
  else none

/-- Opcodes whose addr names host memory; DEVICE memory for LOAD_IMAGE and ENCODE (Table Commands). -/
def cmdHost (op : Nat) : Bool := [0x01, 0x03, 0x05, 0x13, 0x21, 0x23, 0x24, 0x26, 0x31, 0x33, 0x34].contains op
def cmdDevice (op : Nat) : Bool := op = 0x10 || op = 0x2B

def eOp (e : List Byte) : Nat := byteAt e 0
def eCid (e : List Byte) : Nat := le e 2 2
def eLen (e : List Byte) : Nat := le e 4 4
def eAddr (e : List Byte) : Nat := le e 8 8

/-- The header and the reserved bytes of an entry are right (R375, R376). -/
def cmdOk (q : Nat) (e : List Byte) : Bool :=
  let op := eOp e
  match cmdNamed op with
  | none => false
  | some l =>
    byteAt e 1 = 0 && ((List.range 48).all fun i => byteAt e (16 + i) = 0 || l.any fun r => r.1 ≤ 16 + i && 16 + i < r.2) &&
    (q = 0 || 6 < op) && (!cmdHost op || eAddr e % 64 = 0) &&
    (!cmdDevice op || (dramBase ≤ eAddr e && eAddr e + eLen e ≤ dramTop))

/-- The device works and takes commands: booted, in Day or in Dawn with the entry steps complete (R359, R466, R469). -/
def Dev.taking (d : Dev) : Bool :=
  d.pwr.booted && (d.pwr.phase = .ready || (d.pwr.phase = .dawn && !d.flag R.CPR_PWR_STATUS F.CPR_PWR_STATUS_entering))

/-- The completion queue of submission queue q has room (R370). -/
def Dev.cqRoom (d : Dev) (q : Nat) : Bool :=
  match (mget d.que.sqs q).bind fun s => mget d.que.cqs s.cq with
  | some c => c.room
  | none => false

/-- The device may fetch an entry of submission queue q now (R356, R363, R369, R370, R377, R383). -/
def Dev.canFetch (d : Dev) (q : Nat) : Bool :=
  match mget d.que.sqs q with
  | some s =>
    d.taking && d.linkUp && (q ≠ 0 || d.fld R.QUE_ADMIN_CFG F.QUE_ADMIN_CFG_svc = 1) && !s.deleting &&
      s.head ≠ s.tail && !d.outstanding q && d.cqRoom q && !d.unitOut (0x100 + q) &&
      d.clocked 2 && d.clocked 4
  | none => false

/-- The entry at the head is fetched. -/
def Dev.fetched (d : Dev) (q : Nat) : Dev :=
  match mget d.que.sqs q with
  | some s => { d with que := { d.que with sqs := mput d.que.sqs q { s with head := (s.head + 1) % s.size } },
                       pwr := { d.pwr with lastActive := d.now }, host := { d.host with dma := mmod d.host.dma q 0 (· + 1) } }
  | none => d

/-- The answer to a command. -/
def Dev.reply (d : Dev) (q : Nat) (e : List Byte) (status : Nat) (result : List Byte := []) : Dev :=
  d.complete q (eCid e) status result

/-- The command is kept until what it waits for has come about. -/
def Dev.keepCmd (d : Dev) (q : Nat) (e : List Byte) (stream : Nat) (arg : Nat := 0) : Dev :=
  { d with que := { d.que with
      cmds := d.que.cmds ++ [{ q := q, cid := eCid e, op := eOp e, stream := stream, arg := arg, entry := e }] } }

/-- Commands that are kept and satisfy p complete with a status. -/
def Dev.endCmds (d : Dev) (p : Cmd → Bool) (status : Nat) (result : List Byte := []) : Dev :=
  let mine := d.que.cmds.filter p
  let d := { d with que := { d.que with cmds := d.que.cmds.filter fun c => !p c } }
  mine.foldl (fun d c => d.complete c.q c.cid status result) d

/-- Queue q's entry e is fetched and executed as the command with opcode op: an undefined opcode or a reserved byte that is
not 0 completes with DESC_INVALID and has no effect (R371, R375); an entry with another command's opcode is not this command. -/
def onCmd (s : State) (op q : Nat) (e : List Byte) (f : Dev → Dev) : Host.Outcome State Fault Refusal :=
  onDev s fun d =>
    if !d.canFetch q then d
    else if cmdNamed (eOp e) ≠ none ∧ eOp e ≠ op then d
    else if cmdOk q e then f (d.fetched q)
    else (d.fetched q).reply q e Code.descInvalid.num

end Sys2Proof.Machine
end

