-- ==== Sys2Proof/Machine/Loader.lean ====
section
/-!
DEFINITION. Program images (R56 to R64, R79, R87, R90, R210, R416, R500, R524 to R526): the checks of an image, placement,
relocation and tag numbers, the contents of regions and banks, loading, unloading, the repair of a bank.
-/

namespace Sys2Proof.Machine

/-! ### Fields of an image -/

/-- Where an image lies: its DRAM address and its size. -/
structure Img where
  addr : Nat
  size : Nat
  deriving DecidableEq, Repr

/-- The little-endian number of n bytes at an offset of the image. -/
def Dev.ig (d : Dev) (g : Img) (o n : Nat) : Nat := d.rdLE (g.addr + o) n

/-- Offset and length of section i: 0 code, 1 descriptor tables, 2 requests, 3 costs, 4 variants, 5 scalars, 6 weights,
7 lookup tables, 8 signature (R56). -/
def Dev.iSec (d : Dev) (g : Img) (i : Nat) : Nat × Nat := (d.ig g (32 + 8 * i) 4, d.ig g (36 + 8 * i) 4)

def Dev.iKernels (d : Dev) (g : Img) : Nat := d.ig g 12 2
def Dev.iDescs (d : Dev) (g : Img) : Nat := d.ig g 14 2
def Dev.iReqs (d : Dev) (g : Img) : Nat := d.ig g 16 2
def Dev.iVars (d : Dev) (g : Img) : Nat := d.ig g 20 2
def Dev.iTags (d : Dev) (g : Img) : Nat := d.ig g 22 2
def Dev.iFlags (d : Dev) (g : Img) : Nat := d.ig g 28 4

/-- Table Program image header and the limits of R59; every section lies in the image behind the header. -/
def Dev.imgHeaderOk (d : Dev) (g : Img) : Bool :=
  let kc := d.iKernels g
  let len := fun i => (d.iSec g i).2
  d.rdN g.addr 4 = [0x5A, 0x56, 0x50, 0x49] && d.ig g 4 2 = 3 && d.ig g 6 2 = 256 && d.ig g 8 4 = g.size && g.size % 64 = 0 &&
  1 ≤ kc && kc ≤ 1024 && 1 ≤ d.iDescs g && d.iDescs g ≤ 256 && 1 ≤ d.iReqs g && d.iReqs g ≤ 512 && d.ig g 18 2 = kc &&
  1 ≤ d.iVars g && d.iVars g ≤ 4 && 1 ≤ d.iTags g && d.iTags g ≤ 1024 && d.ig g 24 2 = 0x7720 && d.ig g 26 1 = 0xB0 &&
  d.ig g 27 1 = 0 && d.iFlags g < 8 && allZero (d.rdN g.addr 256) 136 256 &&
  ((List.range 9).all fun i => len i = 0 || (256 ≤ (d.iSec g i).1 && (d.iSec g i).1 + len i ≤ g.size)) &&
  8 * kc ≤ len 0 && 16 * d.iReqs g ≤ len 2 && 16 * kc ≤ len 3 && 32 * d.iVars g ≤ len 4

/-- The image's DRAM bytes overlap a region of a pool that is not DISABLED, or what is held for a loaded image (R61, R63). -/
def Dev.spaceTaken (d : Dev) (taken : List (Nat × Nat)) (a n : Nat) : Bool :=
  (taken.any fun r => overlaps a n r.1 r.2) ||
  (List.range 64).any fun p => d.poolState p ≠ 0 && overlaps a n (d.poolBase p) (d.poolCount p * d.poolSize p)

/-- A kernel-table entry: offset in the code section, instruction count (R525). -/
def Dev.iKernel (d : Dev) (g : Img) (k : Nat) : Nat × Nat :=
  let o := (d.iSec g 0).1 + 8 * k
  (d.ig g o 4, d.ig g (o + 4) 2)

/-- Instruction j of a kernel as the image holds it. -/
def Dev.iWord (d : Dev) (g : Img) (k : Nat × Nat) (j : Nat) : IWord :=
  iwOf (d.rdN (g.addr + (d.iSec g 0).1 + k.1 + 16 * j) 16)

/-- The word is a CLAIM. -/
def isClaim (w : IWord) : Bool := iOp w = 0x54

/-- Kernel k obeys R525, and its CLAIMs name local counters (R210). -/
def Dev.kernelOk (d : Dev) (g : Img) (k : Nat) : Bool :=
  let e := d.iKernel g k
  e.1 % 64 = 0 && 8 * d.iKernels g ≤ e.1 && 1 ≤ e.2 && e.2 ≤ 4096 && d.ig g ((d.iSec g 0).1 + 8 * k + 6) 2 = 0 &&
  e.1 + 16 * e.2 ≤ (d.iSec g 0).2 && iOp (d.iWord g e (e.2 - 1)) = 0x58 &&
  (List.range e.2).all fun j => !isClaim (d.iWord g e j) || imm (d.iWord g e j) 10 10 < 16

/-- A variant-table entry (R58). -/
structure VarE where
  first : Nat
  count : Nat
  dtab : Nat
  stab : Nat
  resid : Nat
  codeReq : Nat
  deriving DecidableEq, Repr

def Dev.iVar (d : Dev) (g : Img) (v : Nat) : VarE :=
  let o := (d.iSec g 4).1 + 32 * v
  { first := d.ig g o 2, count := d.ig g (o + 2) 2, dtab := d.ig g (o + 4) 2, stab := d.ig g (o + 6) 2,
    resid := d.ig g (o + 8) 1, codeReq := d.ig g (o + 10) 2 }

/-- A cabinet allocation request (R60). -/
structure Req where
  id : Nat
  kind : Nat
  place : Nat
  size : Nat
  ioff : Nat
  ilen : Nat
  deriving DecidableEq, Repr

def Dev.iReq (d : Dev) (g : Img) (i : Nat) : Req :=
  let o := (d.iSec g 2).1 + 16 * i
  { id := d.ig g o 2, kind := d.ig g (o + 2) 1, place := d.ig g (o + 3) 1, size := d.ig g (o + 4) 4,
    ioff := d.ig g (o + 8) 4, ilen := d.ig g (o + 12) 4 }

/-- The request names initial contents. -/
def Req.init (r : Req) : Bool := r.ioff ≠ 0xFFFFFFFF

/-- The section a request's initial contents lie in (R60). -/
def Req.sect (r : Req) : Nat := if r.kind = 0 then 0 else if r.kind = 2 then 7 else 6

def Dev.allReqs (d : Dev) (g : Img) : List Req := (List.range (d.iReqs g)).map (d.iReq g)

/-- Table Cabinet allocation request, R60, R525, R526. -/
def Dev.reqOk (d : Dev) (g : Img) (r : Req) : Bool :=
  r.id < 2048 && r.kind ≤ 6 && r.place ≤ 4 && (r.kind < 5 || r.place = 0) && r.size ≠ 0 && r.size % 65536 = 0 &&
  (!r.init || (r.ilen ≤ r.size && r.ioff + r.ilen ≤ (d.iSec g r.sect).2 && (r.kind ≠ 0 || r.ioff % 64 = 0))) &&
  ((d.allReqs g).filter fun x => x.id = r.id).length = 1

/-- The 64 bytes of slot i of a variant's descriptor table, as the image holds them. -/
def Dev.iSlot (d : Dev) (g : Img) (v : VarE) (i : Nat) : List Byte :=
  d.rdN (g.addr + (d.iSec g 1).1 + 64 * (d.iDescs g * v.dtab + i)) 64

/-- The slots of a variant that are in use: index and bytes (R79). -/
def Dev.iSlots (d : Dev) (g : Img) (v : VarE) : List (Nat × List Byte) :=
  ((List.range (d.iDescs g)).map fun i => (i, d.iSlot g v i)).filter fun s => !allZero s.2 0 64

/-- The base of a slot is relocatable; its request and offset (R64). -/
def relocatable (b : List Byte) : Bool := bit (le b 0 6) 47
def relReq (b : List Byte) : Nat := bits (le b 0 6) 36 11
def relOff (b : List Byte) : Nat := bits (le b 0 6) 0 36

/-- Slots that another descriptor of the table pairs with (R85, R87). -/
def pairedSlots (l : List (Nat × List Byte)) : List Nat :=
  (l.filter fun s => bit (byteAt s.2 57) 0).map fun s => byteAt s.2 56

/-- The image tag number and rcount of a slot. -/
def slotTag (b : List Byte) : Nat := bits (le b 50 2) 0 12
def slotRc (b : List Byte) : Nat := byteAt b 49

/-- R58 for entry v of the variant table. -/
def Dev.varOk (d : Dev) (g : Img) (v : Nat) : Bool :=
  let e := d.iVar g v
  let o := (d.iSec g 4).1 + 32 * v
  let code := (d.allReqs g).find? fun r => r.id = e.codeReq
  1 ≤ e.count && e.first + e.count ≤ d.iKernels g && 64 * d.iDescs g * (e.dtab + 1) ≤ (d.iSec g 1).2 &&
  96 * (e.stab + 1) ≤ (d.iSec g 5).2 && e.resid ≤ 3 && d.ig g (o + 9) 1 = 0 && allZero (d.rdN (g.addr + o) 32) 12 32 &&
  ((List.range (d.iVars g)).all fun u => u = v || (d.iVar g u).dtab ≠ e.dtab) &&
  match code with
  | some r => r.kind = 0 && r.init && (List.range e.count).all fun k =>
      let t := d.iKernel g (e.first + k)
      r.ioff ≤ t.1 && t.1 + 16 * t.2 ≤ r.ioff + r.ilen
  | none => false

/-- Variants that name a request (R524). -/
def Dev.namedBy (d : Dev) (g : Img) (r : Req) : List Nat :=
  (List.range (d.iVars g)).filter fun v =>
    let e := d.iVar g v
    e.codeReq = r.id || (d.iSlots g e).any fun s => relocatable s.2 && relReq s.2 = r.id

/-- The variant a request belongs to; variant 0 for a request that nothing names. -/
def Dev.ownerOf (d : Dev) (g : Img) (r : Req) : Nat := ((d.namedBy g r).head?).getD 0

/-- R524: no request belongs to two variants, but for a kind-3 request of variant 0. -/
def Dev.ownOk (d : Dev) (g : Img) (r : Req) : Bool :=
  (d.namedBy g r).length ≤ 1 || (r.kind = 3 && d.ownerOf g r = 0)

/-- R64 and R87 for the descriptors of a variant: known requests, tags below tag_count. -/
def Dev.slotsOk (d : Dev) (g : Img) (e : VarE) : Bool :=
  let l := d.iSlots g e
  l.all fun s => (!relocatable s.2 || (d.allReqs g).any fun r => r.id = relReq s.2) &&
    ((pairedSlots l).contains s.1 || slotTag s.2 < d.iTags g)

/-- R64: no offset reaches past its region. -/
def Dev.offsetsOk (d : Dev) (g : Img) (e : VarE) : Bool :=
  (d.iSlots g e).all fun s => !relocatable s.2 ||
    (d.allReqs g).all fun r => r.id ≠ relReq s.2 || relOff s.2 < r.size

/-- The cost-table entry of kernel k (R99). -/
def Dev.iCost (d : Dev) (g : Img) (k : Nat) : Option Cost :=
  ((List.range (d.iKernels g)).find? fun i => d.ig g ((d.iSec g 3).1 + 16 * i) 2 = k).map fun i =>
    let o := (d.iSec g 3).1 + 16 * i
    { lenReg := d.ig g (o + 2) 1, flags := d.ig g (o + 3) 1, c0 := d.ig g (o + 4) 4, c1 := d.ig g (o + 8) 4,
      spine := d.ig g (o + 12) 4 }

def Dev.costOk (d : Dev) (g : Img) (k : Nat) : Bool :=
  match d.iCost g k with
  | some c => c.lenReg < 32 && c.flags < 4
  | none => false

/-- The tables of the image obey R58, R60, R64, R87, R99 and R524 to R526. -/
def Dev.imgTablesOk (d : Dev) (g : Img) : Bool :=
  let vs := List.range (d.iVars g)
  ((List.range (d.iKernels g)).all fun k => d.kernelOk g k && d.costOk g k) && ((d.allReqs g).all fun r => d.reqOk g r) &&
  (vs.all fun v => d.varOk g v && d.slotsOk g (d.iVar g v)) && (d.allReqs g).all fun r => d.ownOk g r

/-! ### Signature and hash (R57, R500) -/

def Dev.iSigned (d : Dev) (g : Img) : Bool := bit (d.iFlags g) 0

/-- SHAKE256 over the ranges of R57. -/
def Dev.imgHash (d : Dev) (g : Img) : List Byte :=
  let stop := if d.iSigned g then (d.iSec g 8).1 else g.size
  shake256 (d.rdN g.addr 104 ++ d.rdN (g.addr + 256) (stop - 256)) 32

def Dev.requireSig (d : Dev) : Bool :=
  d.flag R.SEC_POLICY F.SEC_POLICY_otp_enforce || d.flag R.SEC_POLICY F.SEC_POLICY_sw_require

/-- The signature section verifies under the customer key (R500). -/
def Dev.sigOk (d : Dev) (g : Img) : Bool :=
  let s := d.iSec g 8
  d.iSigned g && s.2 = 2888 && d.nv.custKey = some (shake256 (d.rdN (g.addr + s.1) 68) 32) &&
    Config.xmssVerify (d.rdN (g.addr + s.1) 68) (d.rdN (g.addr + s.1 + 68) 2820) (d.rdN (g.addr + 104) 32)

/-- The checks of R63 in its order: the status of the first that fails and, for POISON, the address. -/
def Dev.imgCheck (d : Dev) (g : Img) : Option (Code × Nat) :=
  match if g.size < 256 then none else d.firstPoison (span g.addr 256) with
  | some p => some (.poison, p)
  | none =>
    if g.size < 256 || !d.imgHeaderOk g then some (.descInvalid, 0)
    else if d.spaceTaken d.heldRanges g.addr g.size then some (.addrRange, g.addr)
    else match d.firstPoison (span g.addr g.size) with
      | some p => some (.poison, p)
      | none =>
        if !d.imgTablesOk g then some (.descInvalid, 0)
        else if !((List.range (d.iVars g)).all fun v => d.offsetsOk g (d.iVar g v)) then some (.addrRange, g.addr)
        else if (d.requireSig || d.iSigned g) && !d.sigOk g then some (.sensorAuth, 0)
        else if d.imgHash g ≠ d.rdN (g.addr + 104) 32 then some (.descInvalid, 0)
        else none

/-! ### Placement (R61, R62, R526) -/

/-- Spans a request's kind may lie in, on a stack: first address, first address beyond. -/
def kindSpans (kind stack : Nat) : List (Nat × Nat) :=
  if kind ≤ 3 then [if stack = 0 then (0, 0x3000000) else (0x4000000, 0x7000000)]
  else if kind = 4 then (coresOf stack).map fun c => (opBase c, opBase c + 0x100000)
  else if kind = 5 then [(sstBase, 0x9000000)]
  else [(dramBase, dramTop)]

/-- Bank boundaries at which n bytes fit (R60, R61). -/
def Dev.fits (d : Dev) (taken : List (Nat × Nat)) (spans : List (Nat × Nat)) (n : Nat) : List Nat :=
  spans.flatMap fun s => ((List.range ((s.2 - s.1) / 65536)).map fun i => s.1 + 65536 * i).filter fun a =>
    a + n ≤ s.2 && !d.spaceTaken taken a n

/-- One element of a list, by a fresh free value: R61 leaves the choice among the places to the loader (log entry 17). -/
def Dev.pick (d : Dev) (l : List Nat) : Option Nat × Dev :=
  if l = [] then (none, d) else ((l[d.fresh.1 % l.length]?), d.fresh.2)

/-- n different elements of a list. -/
def Dev.pickN (d : Dev) : Nat → List Nat → List Nat → Option (List Nat) × Dev
  | 0, _, acc => (some acc, d)
  | n + 1, l, acc =>
    match d.pick l with
    | (some x, d) => d.pickN n (l.filter (· ≠ x)) (acc ++ [x])
    | (none, d) => (none, d)

/-- The requests find space on a stack, each at its lowest place. -/
def Dev.fitAll (d : Dev) (stack : Nat) (taken : List (Nat × Nat)) : List Req → Bool
  | [] => true
  | r :: l =>
    match (d.fits taken (kindSpans r.kind stack) r.size).head? with
    | some a => d.fitAll stack ((a, r.size) :: taken) l
    | none => false

/-- Stacks a placement of 1 to 3 names. -/
def fixedStacks (p : Nat) : Option (List Nat) :=
  if p = 1 then some [0] else if p = 2 then some [1] else if p = 3 then some [0, 1] else none

/-- Stacks of a variant's kind-0, kind-1 and kind-2 requests with placement 0 (R58, R526). -/
def Dev.freeStacks (d : Dev) (g : Img) (v : Nat) (taken : List (Nat × Nat)) : List Nat :=
  let mine := (d.allReqs g).filter fun r => d.ownerOf g r = v
  match fixedStacks (d.iVar g v).resid with
  | some l => l
  | none =>
    let can := [0, 1].filter fun k => mine.all fun r => match fixedStacks r.place with
      | some l => l.contains k
      | none => true
    if can.length = 2 then
      if d.fitAll 0 taken (mine.filter fun r => r.kind ≤ 2 && r.place = 0) then [0] else [1]
    else can

/-- Stacks of one low request of a variant, before the copies of R62; v0 are the stacks of variant 0. -/
def lowStacks (r : Req) (own : List Nat) (v0 : List Nat) : List Nat :=
  match fixedStacks r.place with
  | some l => l
  | none => if r.place = 4 then v0 else own

/-- The stacks of a variant: those that hold every low region of it (R526). -/
def Dev.varStacks (d : Dev) (g : Img) (v : Nat) (v0 : List Nat) (taken : List (Nat × Nat)) : List Nat :=
  let low := (d.allReqs g).filter fun r => d.ownerOf g r = v && r.kind ≤ 2
  let own := d.freeStacks g v taken
  [0, 1].filter fun k => low.all fun r => (lowStacks r own v0).contains k

/-- Every variant keeps a stack, and no low request of variant 0 has placement 4 (R526). -/
def Dev.stacksOk (d : Dev) (g : Img) (taken : List (Nat × Nat)) : Bool :=
  let v0 := d.varStacks g 0 [] taken
  ((List.range (d.iVars g)).all fun v => d.varStacks g v v0 taken ≠ []) &&
  (d.allReqs g).all fun r => !(r.kind ≤ 2 && r.place = 4 && d.ownerOf g r = 0)

/-- The stack lists a request is placed on: every list must be met, by one place on one of its stacks. A fallback's low
requests go on both stacks (R62, log entry 18). -/
def Dev.reqStacks (d : Dev) (g : Img) (taken : List (Nat × Nat)) (r : Req) : List (List Nat) :=
  let v0 := d.varStacks g 0 [] taken
  let v := d.ownerOf g r
  if 5 ≤ r.kind then [[2]]
  else if r.kind ≤ 2 then
    (if v = 0 then lowStacks r (d.freeStacks g 0 taken) v0 else [0, 1]).map fun k => [k]
  else match fixedStacks r.place with
    | some l => l.map fun k => [k]
    | none =>
      let pref := if v = 0 || r.place = 4 then v0 else [0, 1]
      if r.place = 4 then v0.map fun k => [k] else [pref ++ [0, 1].filter fun k => !pref.contains k]

/-- What a placement carries: the device, the space taken, the places found (request, stack, address). -/
structure Plc where
  d : Dev
  taken : List (Nat × Nat)
  places : List (Nat × Nat × Nat) := []
  ok : Bool := true

/-- One place for n bytes of a kind on the first stack of a list that has room. -/
def Plc.one (x : Plc) (key kind n : Nat) (on : List Nat) : Plc :=
  if !x.ok then x
  else
    match on.findSome? fun k => match x.d.fits x.taken (kindSpans kind k) n with
        | [] => none
        | l => some (k, l) with
    | none => { x with ok := false }
    | some (k, l) =>
      match x.d.pick l with
      | (some a, d) => { x with d := d, taken := (a, n) :: x.taken, places := x.places ++ [(key, k, a)] }
      | (none, d) => { x with d := d, ok := false }

/-- Key of the descriptor-table bank of a variant. -/
def bankKey (v : Nat) : Nat := 4096 + v

/-- Every request and every bank placed. -/
def Dev.placeAll (d : Dev) (g : Img) : Plc :=
  let taken := (g.addr, g.size) :: d.heldRanges
  let x : Plc := { d := d, taken := taken }
  let x := (d.allReqs g).foldl (fun x r =>
    (d.reqStacks g taken r).foldl (fun (x : Plc) on => x.one r.id r.kind r.size on) x) x
  (List.range (d.iVars g)).foldl (fun x v =>
    let on := (x.places.filter fun p => p.1 = (d.iVar g v).codeReq).map (·.2.1)
    on.foldl (fun (x : Plc) k => x.one (bankKey v) 0 65536 [k]) x) x

/-! ### Relocation and tags (R64, R87, R90) -/

/-- The device address of a slot's base, for the bank on a stack: the copy on that stack, or the first. -/
def reBase (places : List (Nat × Nat × Nat)) (stack : Nat) (b : List Byte) : Nat :=
  if relocatable b then
    let mine := places.filter fun p => p.1 = relReq b
    match (mine.find? fun p => p.2.1 = stack).or mine.head? with
    | some p => p.2.2 + relOff b
    | none => 0
  else le b 0 6

/-- Slots of a variant with a tag, for the bank on a stack: slot, key (home × 4,096 + image tag number), rcount. -/
def Dev.tagUses (d : Dev) (g : Img) (e : VarE) (places : List (Nat × Nat × Nat)) (stack : Nat) : List (Nat × Nat × Nat) :=
  let l := d.iSlots g e
  l.filterMap fun s =>
    if (pairedSlots l).contains s.1 then none
    else (homeOf (reBase places stack s.2)).map fun h => (s.1, h * 4096 + slotTag s.2, slotRc s.2)

/-- The uses of a variant over all its banks. -/
def Dev.varUses (d : Dev) (g : Img) (v : Nat) (places : List (Nat × Nat × Nat)) : List (Nat × Nat × Nat) :=
  (places.filter fun p => p.1 = bankKey v).flatMap fun p => d.tagUses g (d.iVar g v) places p.2.1

/-- R90: no key is named both by a persistent and by another descriptor. -/
def usesOk (l : List (Nat × Nat × Nat)) : Bool :=
  l.all fun a => l.all fun b => a.2.1 ≠ b.2.1 || (a.2.2 = 0) = (b.2.2 = 0)

/-- Tag numbers of a home that are given out. -/
def Dev.usedTags (d : Dev) (h : Nat) (more : List (Nat × Nat)) : List Nat :=
  ((d.ctxs.flatMap fun c => c.2.tagNos) ++ more).filterMap fun t => if t.1 / 4096 = h then some t.2 else none

/-- A tag number for every key of a list. -/
def Dev.giveTags (d : Dev) (more : List (Nat × Nat)) : List Nat → List (Nat × Nat) → Option (List (Nat × Nat)) × Dev
  | [], acc => (some acc, d)
  | k :: r, acc =>
    let free := (List.range 4096).filter fun n => !(d.usedTags (k / 4096) (more ++ acc)).contains n
    match d.pick free with
    | (some n, d) => d.giveTags more r (acc ++ [(k, n)])
    | (none, d) => (none, d)

/-- The tag number of a key. -/
def tagNo (nos : List (Nat × Nat)) (key : Nat) : Nat := ((nos.find? fun t => t.1 = key).map (·.2)).getD 0

/-- The 16 KiB of a bank: relocated, with the tag numbers (R64, R79, R87). -/
def Dev.bankBytes (d : Dev) (g : Img) (e : VarE) (places : List (Nat × Nat × Nat)) (nos : List (Nat × Nat)) (stack : Nat) :
    List Byte :=
  let uses := d.tagUses g e places stack
  padTo ((List.range (d.iDescs g)).flatMap fun i =>
    let b := d.iSlot g e i
    if allZero b 0 64 then b
    else
      let b := patch b 0 (toLE 6 (reBase places stack b))
      match uses.find? fun u => u.1 = i with
      | some u => patch b 50 (toLE 2 (le b 50 2 / 4096 * 4096 + tagNo nos u.2.1))
      | none => b) 16384

/-! ### Contents -/

/-- A CLAIM with its local counter replaced for a context (R210). -/
def claimFor (ctx : Nat) (b : List Byte) : List Byte :=
  let w := iwOf b
  if isClaim w then
    let n := w.toNat
    toLE 16 (n - imm w 10 10 * 1024 + (16 * ctx + imm w 10 10 % 16) * 1024)
  else b

/-- The initial bytes of a region; code gets the counters of the context whose variant it belongs to (R60, R210). -/
def Dev.initBytes (d : Dev) (img : Nat) (r : Region) (kernels : List (Nat × Nat)) (ctx : Option (Nat × Nat × Nat)) : List Byte :=
  let raw := d.rdN (img + r.initOff) r.initLen
  match ctx with
  | some (c, secOff, _) =>
    kernels.foldl (fun b k => (List.range k.2).foldl (fun b j =>
      let o := secOff + k.1 + 16 * j - r.initOff
      if r.initOff ≤ secOff + k.1 + 16 * j && o + 16 ≤ r.initLen then patch b o (claimFor c (slice b o 16)) else b) b) raw
  | none => raw

/-- The context, code-section offset of a region's variant, when the region is its code region. -/
def codeOwner (ids : List Nat) (d : Dev) (g : Img) (r : Region) : Option (Nat × Nat × Nat) :=
  (List.range (d.iVars g)).findSome? fun v =>
    if r.kind = 0 && (d.iVar g v).codeReq = r.req then (ids[v]?).map fun c => (c, (d.iSec g 0).1, v) else none

/-- The kernels of a variant. -/
def Dev.varKernels (d : Dev) (g : Img) (v : Nat) : List (Nat × Nat) :=
  (List.range (d.iVar g v).count).map fun k => d.iKernel g ((d.iVar g v).first + k)

/-- The contents of a region, from the image in DRAM. -/
def Dev.regionBytes (d : Dev) (g : Img) (ids : List Nat) (r : Region) : List Byte :=
  let o := codeOwner ids d g r
  d.initBytes g.addr r (match o with
    | some x => d.varKernels g x.2.2
    | none => []) o

/-- Every copy of a region written: its contents, the rest zero. -/
def Dev.fillRegion (d : Dev) (g : Img) (ids : List Nat) (r : Region) : Dev :=
  let b := d.regionBytes g ids r
  r.places.foldl (fun d p => (d.clear p.2 r.size).writeRun p.2 b) d

/-- The regions of an image as placed. -/
def Dev.regionsOf (d : Dev) (g : Img) (places : List (Nat × Nat × Nat)) : List Region :=
  (d.allReqs g).map fun r =>
    { req := r.id, kind := r.kind, size := r.size, initOff := if r.init then (d.iSec g r.sect).1 + r.ioff else 0,
      initLen := if r.init then r.ilen else 0, variant := d.ownerOf g r,
      places := (places.filter fun p => p.1 = r.id).map (·.2) }

/-! ### Loading (R63) -/

/-- A context made for variant v; its attributes have not been set yet (log entry 3). -/
def Dev.newCtx (d : Dev) (g : Img) (v : Nat) (places : List (Nat × Nat × Nat)) (nos : List (Nat × Nat)) : Ctx :=
  let e := d.iVar g v
  let code := (d.allReqs g).find? fun r => r.id = e.codeReq
  let taken := (g.addr, g.size) :: d.heldRanges
  { image := g.addr, variant := v, firstKernel := e.first, kernelCount := e.count,
    scalars := (List.range 24).map fun i => BitVec.ofNat 32 (d.ig g ((d.iSec g 5).1 + 96 * e.stab + 4 * i) 4),
    banks := (places.filter fun p => p.1 = bankKey v).map (·.2), code := (places.filter fun p => p.1 = e.codeReq).map (·.2),
    codeInit := (code.map (·.ioff)).getD 0,
    onStacks := if v = 0 then d.varStacks g 0 [] taken else [0, 1],
    lc := false, deadline := 0, margin := 0, fallback := none, hold := 30, tagNos := nos,
    descOff := (d.iSec g 1).1 + 64 * d.iDescs g * e.dtab, descLen := d.iDescs g }

/-- The banks of a context written from the image (R79). -/
def Dev.fillBanks (d : Dev) (g : Img) (v : Nat) (places : List (Nat × Nat × Nat)) (nos : List (Nat × Nat)) : Dev :=
  (places.filter fun p => p.1 = bankKey v).foldl (fun d p =>
    (d.clear p.2.2 65536).writeRun p.2.2 (d.bankBytes g (d.iVar g v) places nos p.2.1)) d

/-- Tags of a context: persistent regions READY, all others FREE (R63, R90). -/
def Dev.initTags (d : Dev) (uses : List (Nat × Nat × Nat)) (nos : List (Nat × Nat)) : Dev :=
  uses.foldl (fun d u => d.setHomeTag (u.2.1 / 4096 * 4096 + tagNo nos u.2.1) (if u.2.2 = 0 then .persist else .free)) d

/-- Tag numbers for every variant, in order. -/
def Dev.giveAll (d : Dev) (g : Img) (places : List (Nat × Nat × Nat)) :
    Nat → Nat → List (List (Nat × Nat)) → Option (List (List (Nat × Nat))) × Dev
  | 0, _, acc => (some acc, d)
  | n + 1, v, acc =>
    let keys := dedup ((d.varUses g v places).map (·.2.1))
    match d.giveTags acc.flatten keys [] with
    | (some nos, d) => d.giveAll g places n (v + 1) (acc ++ [nos])
    | (none, d) => (none, d)

/-- What has been allocated is written: regions, banks, tags, contexts, the image. -/
def Dev.commitLoad (d : Dev) (g : Img) (places : List (Nat × Nat × Nat)) (ids : List Nat) (nos : List (List (Nat × Nat))) : Dev :=
  let regions := d.regionsOf g places
  let new := ids.zipIdx.map fun x => (x.1, d.newCtx g x.2 places (nos.getD x.2 []))
  let image : Image := {
    size := g.size, hash := d.rdN (g.addr + 104) 32, signed := d.iSigned g, ctxs := ids, regions := regions,
    kernels := (List.range (d.iKernels g)).map (d.iKernel g),
    costs := (List.range (d.iKernels g)).filterMap (d.iCost g) }
  let d0 := d
  let d := regions.foldl (fun d r => d.fillRegion g ids r) d
  let d := (List.range ids.length).foldl (fun d v => d.fillBanks g v places (nos.getD v [])) d
  let d := (List.range ids.length).foldl (fun d v => d.initTags (d0.varUses g v places) (nos.getD v [])) d
  { d with images := mput d.images g.addr image, ctxs := new.foldl (fun m c => mput m c.1 c.2) d.ctxs }

/-- The load of R63: whole, or nothing allocated; the status and the contexts of the variants. -/
def Dev.loadImg (d : Dev) (g : Img) : Nat × List Nat × Dev :=
  match d.imgCheck g with
  | some (c, a) =>
    let d := if c = .poison then
        (d.noteRead (span g.addr g.size)).logEv { code := c.num, unit := 0x33, addr := a }
      else d
    (c.num, [], d)
  | none =>
    if !d.stacksOk g ((g.addr, g.size) :: d.heldRanges) then (Code.descInvalid.num, [], d)
    else
      let x := d.placeAll g
      let free := (List.range 64).filter fun c => (mget d.ctxs c).isNone
      let back := { d with freeCtr := x.d.freeCtr }
      if !x.ok then (Code.poolEmpty.num, [], back)
      else if !((List.range (d.iVars g)).all fun v => usesOk (d.varUses g v x.places)) then (Code.descInvalid.num, [], back)
      else match back.pickN (d.iVars g) free [] with
        | (none, d') => (Code.poolEmpty.num, [], { d with freeCtr := d'.freeCtr })
        | (some ids, d') =>
          match d'.giveAll g x.places (d.iVars g) 0 [] with
          | (none, d') => (Code.poolEmpty.num, [], { d with freeCtr := d'.freeCtr })
          | (some nos, d') => (0, ids, d'.commitLoad g x.places ids nos)

/-! ### Unloading and repair -/

/-- A stream's epochs, current and staged, of a stream that has a binding (R338). -/
def Stream.epochs (s : Stream) : List Epoch := if s.kind = 2 then [] else s.cur.toList ++ s.staged

/-- The context is bound to a stream, or named in a staged epoch (R66, R338). -/
def Dev.boundCtx (d : Dev) (c : Nat) : Bool :=
  d.streams.any fun s => (s.2.epochs.any fun e => e.bind.ctx = c) ||
    s.2.kind ≠ 2 && s.2.staged.any fun e => e.bind.fallback = some c

/-- The context is named as a fallback (R66). -/
def Dev.namedFallback (d : Dev) (c : Nat) : Bool :=
  (d.ctxs.any fun x => x.2.fallback = some c) || d.streams.any fun s => s.2.epochs.any fun e => e.bind.fallback = some c

/-- Every context of an image goes, with its tags, regions, sets, and its FAULTED bits (R61, R377, R433). -/
def Dev.unloadImg (d : Dev) (img : Nat) : Dev :=
  let ids := ((mget d.images img).map (·.ctxs)).getD []
  let nos := (d.ctxs.filter fun c => ids.contains c.1).flatMap fun c => c.2.tagNos
  let d := nos.foldl (fun d t => d.setHomeTag (t.1 / 4096 * 4096 + t.2) .free) d
  let d := ids.foldl (fun d c =>
    let r := if c < 32 then R.TEL_FAULTED_LO else R.TEL_FAULTED_HI
    d.setReg r (d.reg r &&& ((2 ^ 32 - 1) ^^^ 2 ^ (c % 32)))) d
  { d with
    images := mdel d.images img, ctxs := d.ctxs.filter (fun c => !ids.contains c.1),
    sets := d.sets.filter (fun y => !ids.contains y.ctx),
    cores := mmap d.cores (fun _ k => if (k.dctx.map ids.contains).getD false then { k with dctx := none } else k),
    recov := { d.recov with repair := d.recov.repair.filter fun r => r.1 ≠ img } }

/-- Places of a loaded image, as the loader found them. -/
def Dev.placesOf (d : Dev) (i : Image) : List (Nat × Nat × Nat) :=
  (i.regions.flatMap fun r => r.places.map fun p => (r.req, p)) ++
  i.ctxs.flatMap fun c => match mget d.ctxs c with
    | some x => x.banks.map fun b => (bankKey x.variant, b)
    | none => []

/-- A region copy, or a bank of a variant, that holds an address: region and start, or variant and stack. -/
def Dev.repairTarget (d : Dev) (i : Image) (a : Nat) : Option (Region × Nat) ⊕ Option (Nat × Nat) :=
  match i.regions.findSome? fun r => if 2 < r.kind then none
      else (r.places.find? fun p => p.2 ≤ a && a < p.2 + r.size).map fun p => (r, p.2) with
  | some x => .inl (some x)
  | none => .inr (i.ctxs.findSome? fun c => (mget d.ctxs c).bind fun x =>
      (x.banks.find? fun b => b.2 ≤ a && a < b.2 + 65536).map fun b => (x.variant, b.1))

/-- The bytes of the image in DRAM that the bank at a takes (R416). -/
def Dev.repairSource (d : Dev) (img : Nat) (i : Image) (a : Nat) : List Nat :=
  match d.repairTarget i a with
  | .inl (some (r, p)) => span (img + r.initOff + (a - p)) (min 65536 (r.initLen - (a - p)))
  | .inr (some (v, _)) =>
    match i.ctxs.findSome? fun c => (mget d.ctxs c).filter fun x => x.variant = v with
    | some x => span (img + x.descOff) (64 * x.descLen)
    | none => []
  | _ => []

/-- The bank that starts at a is rewritten from the image (R71, R416). -/
def Dev.rewriteBank (d : Dev) (img : Nat) (i : Image) (a : Nat) : Dev :=
  let g : Img := ⟨img, i.size⟩
  match d.repairTarget i a with
  | .inl (some (r, p)) => d.writeRun a (slice (d.regionBytes g i.ctxs r) (a - p) 65536)
  | .inr (some (v, k)) =>
    let nos := ((i.ctxs.findSome? fun c => (mget d.ctxs c).filter fun x => x.variant = v).map (·.tagNos)).getD []
    d.writeRun a (padTo (d.bankBytes g (d.iVar g v) (d.placesOf i) nos k) 65536)
  | _ => d

/-- The oldest repair ends: the bank is rewritten, or the image's contexts become FAULTED; dispatch is released (R416). -/
def Dev.repairDone (d : Dev) : Dev :=
  match d.recov.repair with
  | [] => d
  | (img, a) :: rest =>
    let d := { d with recov := { d.recov with repair := rest } }
    match mget d.images img with
    | none => d
    | some i =>
      let src := d.repairSource img i a
      let bad := d.firstPoison src
      let d := d.noteRead src
      let d := if bad.isSome then i.ctxs.foldl (fun d c => d.markFaulted c Code.poison.num 0) d else d.rewriteBank img i a
      if rest.any fun r => r.1 = img then d
      else { d with ctxs := mmap d.ctxs fun c x => if i.ctxs.contains c then { x with held := false } else x }

end Sys2Proof.Machine
end

