-- ==== Sys2Proof/Machine/Contexts.lean ====
section
/-!
DEFINITION. Image and context commands: LOAD_IMAGE, UNLOAD, SET_CONTEXT, SEQ_SET (R63, R66, R184, R187, R377), and the end of a
poison repair (R416).
-/

namespace Sys2Proof.Machine

/-- LOAD_IMAGE (R63). -/
def execLoadImage (q : Nat) (e : List Byte) (s : State) : Host.Outcome State Fault Refusal :=
  onCmd s 0x10 q e fun d =>
    let r := d.loadImg ⟨eAddr e, eLen e⟩
    r.2.2.reply q e r.1 (if r.1 = 0 then (List.range 4).flatMap (fun v => toLE 1 (r.2.1.getD v 0xFF)) else [])

/-- UNLOAD: every context of the image, if none is bound or named as a fallback (R66, R377). -/
def execUnload (q : Nat) (e : List Byte) (s : State) : Host.Outcome State Fault Refusal :=
  onCmd s 0x11 q e fun d =>
    match d.ctx? (byteAt e 16) with
    | none => d.reply q e Code.descInvalid.num
    | some x =>
      let ids := ((mget d.images x.image).map (·.ctxs)).getD []
      if ids.any fun c => d.boundCtx c || d.namedFallback c then d.reply q e Code.descInvalid.num
      else (d.unloadImg x.image).reply q e 0

/-- Attributes as a command gives them: class, hold, fallback, deadline, margin at the given offsets (R65, R324). -/
structure Attrs where
  lc : Bool
  hold : Nat
  fallback : Option Nat
  deadline : Nat
  margin : Nat
  deriving DecidableEq, Repr

/-- The attributes are in their ranges for context c (R65, R324, Table Context attributes). -/
def Dev.attrsOk (d : Dev) (c cls : Nat) (a : Attrs) : Bool :=
  match d.ctx? c with
  | none => false
  | some x =>
    cls ≤ 1 && 1 ≤ a.hold && a.hold ≤ 255 &&
    (match a.fallback with
      | none => true
      | some f => f ≠ c && ((d.ctx? f).map (fun y => decide (y.image = x.image))).getD false) &&
    (!a.lc || (10 ^ 4 ≤ a.deadline && a.deadline ≤ 10 ^ 9 && a.margin ≤ a.deadline))

/-- The fallback of an LC context has the LC class while that binding exists (R66). -/
def Dev.lcFallback (d : Dev) (c : Nat) : Bool :=
  (d.ctxs.any fun x => x.2.lc && x.2.fallback = some c)

/-- SET_CONTEXT (R65, R377). -/
def execSetContext (q : Nat) (e : List Byte) (s : State) : Host.Outcome State Fault Refusal :=
  onCmd s 0x12 q e fun d =>
    let c := byteAt e 16
    let fb := byteAt e 20
    let a : Attrs := { lc := byteAt e 17 = 0, hold := le e 18 2, fallback := if fb = 0xFF then none else some fb,
                       deadline := le e 24 8, margin := le e 32 8 }
    if d.boundCtx c || !d.attrsOk c (byteAt e 17) a then d.reply q e Code.descInvalid.num
    else
      let d := { d with ctxs := mmap d.ctxs fun n x => if n = c then
        { x with lc := a.lc, hold := a.hold, fallback := a.fallback, deadline := a.deadline, margin := a.margin } else x }
      d.reply q e 0

/-! ### Sequence sets -/

/-- Table Sequence-set header for a set of context c in a region of n bytes (R184, R185). -/
def Dev.seqHeaderOk (d : Dev) (c n : Nat) (img : Image) (b : List Byte) : Bool :=
  let kind := byteAt b 0
  let ways := byteAt b 1
  let q := 2 ^ byteAt b 4
  let pool := byteAt b 5
  let spill := byteAt b 6
  let ro := byteAt b 7
  kind ≤ 1 && (if kind = 0 then [1, 2, 4].contains ways else [1, 2, 4, 8, 16, 32].contains ways) && 1 ≤ byteAt b 2 &&
  byteAt b 2 ≤ 128 && 1 ≤ byteAt b 3 && byteAt b 3 ≤ 56 && byteAt b 4 ≤ 6 && pool < 32 && d.poolState pool ≠ 0 &&
  d.poolSize pool = 4096 &&
  (spill = 0xFF || (48 ≤ spill && spill < 64 && d.poolState spill ≠ 0 && d.poolSize spill = 4096)) &&
  ro ≤ 6 && (kind = 0 || ro = 0) && byteAt b 9 = c && allZero b 18 64 && 65536 * (q + 2) ≤ n &&
  (ro = 0 || img.regions.any fun r => r.kind = 6 && r.places.any fun p =>
    p.2 ≤ le b 12 6 && le b 12 6 + 65536 * q * 2 ^ ro ≤ p.2 + r.size)

/-- A set may be replaced: no live slot, no pending join, no readout hold, no step in flight (R187). -/
def Dev.setEmpty (d : Dev) (y : SeqSet) : Bool :=
  let h := d.setH y.base
  let fb := (d.ctx? y.ctx).bind (·.fallback)
  ((d.setSlots y).all fun x => !d.live x.2.2) && y.pend = [] &&
  (d.readouts.all fun r => r.slots.all (fun x => x.1 ≠ y.base) && r.scratch.all fun x => x.base ≠ y.base) &&
  d.sched.frames.all fun f => !((f.ep.bind.ctx = h.ctx || f.ctx = h.ctx || fb = some f.ctx) && (f.st = .admitted || f.st = .running))

/-- SEQ_SET (R184, R187). -/
def execSeqSet (q : Nat) (e : List Byte) (data : List Byte) (s : State) : Host.Outcome State Fault Refusal :=
  onCmd s 0x13 q e fun d =>
    let c := byteAt e 16
    let req := le e 18 2
    let b := padTo data 64
    let found := (d.ctx? c).bind fun x => if x.variant ≠ 0 then none else
      (mget d.images x.image).bind fun i =>
        (i.regions.find? fun r => r.req = req && r.kind = 3 && r.variant = 0).bind fun r => (r.places.head?).map fun p => (i, r, p.2)
    match found with
    | none => d.reply q e Code.descInvalid.num
    | some (i, r, base) =>
      let old := d.sets.find? fun y => y.base = base
      let free : Bool := match old with
        | some y => d.setEmpty y
        | none => true
      if eLen e ≠ 64 || !d.seqHeaderOk c r.size i b || !free then d.reply q e Code.descInvalid.num
      else
        let d : Dev := match old with
          | some y => (d.setSlots y).foldl (fun d x => (d.slotResv x.2.2).foldl Dev.refDec d) d
          | none => d
        let d := d.writeRun base b
        let y : SeqSet := { ctx := c, req := req, base := base }
        let d : Dev := { d with sets := (d.sets.filter (fun (z : SeqSet) => z.base ≠ base)) ++ [y] }
        d.reply q e 0

/-- POISON_REPAIR_COMPLETE (R416). -/
def execPoisonRepairComplete (s : State) : Host.Outcome State Fault Refusal := onDev s fun d => d.repairDone

end Sys2Proof.Machine
end

