-- ==== Sys2Proof/Machine/Fabric.lean ====
section
/-!
DEFINITION. Goldom links: flits, packets, credits and replay of a port, routing, transfers, notices, and the stream entries of
the group map (R447 to R456, R459, R460, R464).
-/

namespace Sys2Proof.Machine

/-- Something the device drives other than towards the host. -/
def Dev.out (d : Dev) (w : DevWrite) : Dev := { d with host := { d.host with sent := d.host.sent ++ [w] } }

def Dev.fport (d : Dev) (k : Nat) : FabPort := mgetD d.fab.ports k {}

def Dev.modFport (d : Dev) (k : Nat) (f : FabPort → FabPort) : Dev :=
  { d with fab := { d.fab with ports := mput d.fab.ports k (f (d.fport k)) } }

def Dev.portUp (d : Dev) (k : Nat) : Bool := d.flag (R.FAB_PORT_STATUS k) F.FAB_PORT_STATUS_up

/-! ### Flits and packets (R448 to R450) -/

/-- Table Flit tag. -/
def flitTag (kind : Nat) (last poison : Bool) (vc : Nat) : Byte :=
  BitVec.ofNat 8 (b2n poison + 2 * kind + 8 * b2n last + 16 * vc)

/-- One flit leaves a port. -/
def Dev.sendFlit (d : Dev) (k kind : Nat) (last poison : Bool) (vc : Nat) (b : List Byte) : Dev :=
  d.out (.flit k (rsEncode b (flitTag kind last poison vc)))

/-- A link-control flit: 1 ACK, 2 NAK, 3 CREDIT, 4 RETRAIN. -/
def Dev.sendCtl (d : Dev) (k op seq vc credits : Nat) : Dev :=
  d.sendFlit k 3 true false 0 (padTo (toLE 1 op ++ toLE 2 seq ++ toLE 1 vc ++ toLE 2 credits) 32)

/-- The flits of a packet leave a port under a link sequence. -/
def Dev.sendPkt (d : Dev) (k seq : Nat) (p : FPkt) : Dev :=
  let b := patch p.bytes 4 (toLE 2 seq)
  let n := b.length / 32
  (List.range n).foldl (fun d i =>
    d.sendFlit k (if i = 0 then 1 else 2) (i + 1 = n) (p.poison && i ≠ 0) p.vc (slice b (32 * i) 32)) d

/-- Class of a packet type: ACK, COMMIT and NOTICE are class 0 (R449). -/
def pktClass (type : Nat) : Nat := if type = 3 ∨ type = 5 ∨ type = 6 then 0 else 1

def FabPort.credit (P : FabPort) (vc : Nat) : Nat := mgetD P.credits vc 32

/-- A port that is STOPPING and has drained goes down; a pending enable lets it train again (R464). -/
def Dev.portDrained (d : Dev) (k : Nat) : Dev :=
  let P := d.fport k
  if d.fld (R.FAB_PORT_STATUS k) F.FAB_PORT_STATUS_svc = 2 ∧ P.queue = [] ∧ P.replay = [] then
    let d := d.setFld (R.FAB_PORT_STATUS k) F.FAB_PORT_STATUS_up 0
    let pend := d.flag (R.FAB_PORT_STATUS k) F.FAB_PORT_STATUS_enable_pending
    let d := d.setFld (R.FAB_PORT_STATUS k) F.FAB_PORT_STATUS_enable_pending 0
    d.setFld (R.FAB_PORT_STATUS k) F.FAB_PORT_STATUS_svc (b2n pend)
  else d

/-- Queued packets leave while there is credit and room in the replay buffer, class 0 first (R451, R452). -/
def Dev.pump (k : Nat) : Nat → Dev → Dev
  | 0, d => d
  | n + 1, d =>
    let P := d.fport k
    if !d.portUp k || P.training || 128 ≤ P.replay.length then d
    else
      match (P.queue.find? fun p => p.vc < 2 && P.credit p.vc ≠ 0).or (P.queue.find? fun p => P.credit p.vc ≠ 0) with
      | none => d
      | some p =>
        let d := d.modFport k fun P => { P with
          queue := P.queue.erase p, txSeq := (P.txSeq + 1) % 4096, replay := P.replay ++ [(P.txSeq, p)],
          credits := mset P.credits p.vc 32 (P.credit p.vc - 1) }
        let d := d.sendPkt k P.txSeq p
        let d := match p.src with
          | some s => d.sendCtl s.1 3 0 s.2 1
          | none => d
        Dev.pump k n d

/-- A packet joins a port's queue, or is dropped and counted when the port is down or stopping (R451, R464). -/
def Dev.enqueue (d : Dev) (k : Nat) (p : FPkt) : Dev :=
  if d.portUp k && d.fld (R.FAB_PORT_STATUS k) F.FAB_PORT_STATUS_svc ≠ 2 then
    let d := d.modFport k fun P => { P with queue := P.queue ++ [p] }
    Dev.pump k (d.fport k).queue.length d
  else d.satFld (R.FAB_PORT_ERR k) F.FAB_PORT_ERR_dropped 1

/-! ### Routing (R454, R455) -/

/-- X and Y of a torus; a ring has Y = 1. -/
def GMap.dims (m : GMap) : Nat × Nat := if m.topo = 0 then (m.size, 1) else (m.x, m.y)

/-- The port on which a packet for device t leaves device s. -/
def GMap.port (m : GMap) (s t : Nat) : Option Nat :=
  if s = t then none
  else if m.topo = 2 then (m.devs[s]?).bind fun v => findIx v.peers (· = t)
  else
    let X := m.dims.1
    let Y := m.dims.2
    let dx := (t % X + X - s % X) % X
    let dy := (t / X + Y - s / X) % Y
    if dx ≠ 0 then some (if dx ≤ X - dx then 0 else 1)
    else if dy ≠ 0 then some (if dy ≤ Y - dy then 2 else 3)
    else none

/-- The device at the far side of a port. -/
def GMap.peer (m : GMap) (s k : Nat) : Nat := ((m.devs[s]?).bind fun v => v.peers[k]?).getD 0xFF

/-- The devices a packet visits after s, with fuel for the hops. -/
def GMap.path (m : GMap) : Nat → Nat → Nat → List Nat
  | 0, _, _ => []
  | n + 1, s, t =>
    match m.port s t with
    | none => []
    | some k => m.peer s k :: m.path n (m.peer s k) t

/-- The virtual channel on which a packet leaves device s by port k, having come in on a port (none: it starts here). -/
def GMap.hopVc (m : GMap) (s k : Nat) (inPort : Option Nat) (vc : Nat) : Nat :=
  let base := vc / 2 * 2
  if m.topo = 2 then base
  else
    let X := m.dims.1
    let Y := m.dims.2
    let turned := 2 ≤ k && (inPort.map fun p => decide (p < 2)).getD true
    let cur := if turned then base else vc
    let wraps : Bool := if k = 0 then s % X = X - 1 else if k = 1 then s % X = 0
      else if k = 2 then s / X = Y - 1 else s / X = 0
    if wraps then base + 1 else cur

/-- Device t is down (R459). -/
def Dev.peerDown (d : Dev) (t : Nat) : Bool := bit (d.reg R.FAB_PEERS) t

/-- No device on the way to t, t included, is down. -/
def Dev.reach (d : Dev) (t : Nat) : Bool :=
  match d.fab.map with
  | some m => t ≠ m.self && m.path 32 m.self t ≠ [] && (m.path 32 m.self t).all fun x => !d.peerDown x
  | none => false

/-- A packet takes its route from this device; one whose route passes a device that is down is dropped. -/
def Dev.routePkt (d : Dev) (inPort : Option Nat) (p : FPkt) : Dev :=
  match d.fab.map with
  | none => d
  | some m =>
    let t := byteAt p.bytes 0
    match m.port m.self t with
    | none => d
    | some k =>
      if d.reach t then d.enqueue k { p with vc := m.hopVc m.self k inPort p.vc }
      else d.satFld (R.FAB_PORT_ERR k) F.FAB_PORT_ERR_dropped 1

/-! ### Transfers -/

/-- A packet of this device (Table Packet header). -/
def GMap.packet (m : GMap) (dst type stream part argA argB : Nat) (data : List Byte) : FPkt :=
  let n := cdiv data.length 32
  { vc := 2 * pktClass type
    bytes := toLE 1 dst ++ toLE 1 m.self ++ toLE 1 type ++ toLE 1 n ++ zeros 4 ++ toLE 4 m.gen ++ toLE 2 stream ++
      toLE 2 part ++ toLE 8 argA ++ toLE 8 argB ++ padTo data (32 * n) }

/-- The parts of a transfer: 8 data flits each, the last with fewer than 8 (log entry 19). -/
def parts : Nat → List Byte → List (List Byte)
  | 0, b => [b]
  | n + 1, b => if b.length ≤ 224 then [b] else b.take 256 :: parts n (b.drop 256)

/-- A transfer of any length to a device. -/
def Dev.transfer (d : Dev) (dst type stream argA argB : Nat) (data : List Byte) : Dev :=
  match d.fab.map with
  | none => d
  | some m =>
    ((parts (data.length / 256 + 1) data).zipIdx).foldl (fun d x =>
      d.routePkt none (m.packet dst type stream x.2 argA argB x.1)) d

/-- A NOTICE on every port that is up but one (R459). -/
def Dev.notice (d : Dev) (code dev stream : Nat) (but : Option Nat) : Dev :=
  match d.fab.map with
  | none => d
  | some m => ([0, 1, 2, 3].filter fun k => d.portUp k && some k ≠ but).foldl (fun d k =>
      let t := m.peer m.self k
      if t = 0xFF then d else d.enqueue k (m.packet t 6 stream 0 code dev [])) d

/-! ### Stream entries (R456, R460 to R463) -/

def GEntry.activeDev (e : GEntry) : Nat := if e.activeHome then e.homeDev else e.partDev
def GEntry.standbyDev (e : GEntry) : Nat := if e.activeHome then e.partDev else e.homeDev
def GEntry.activeStream (e : GEntry) : Nat := if e.activeHome then e.homeStream else e.partStream
def GEntry.standbyStream (e : GEntry) : Nat := if e.activeHome then e.partStream else e.homeStream

/-- The entry, with its number, whose active side is this device's stream. -/
def Dev.activeEntry (d : Dev) (stream : Nat) : Option (Nat × GEntry) :=
  d.fab.map.bind fun m => (m.entries.zipIdx.find? fun e => e.1.activeDev = m.self && e.1.activeStream = stream).map
    fun e => (e.2, e.1)

/-- The entry whose standby side is this device's stream. -/
def Dev.standbyEntry (d : Dev) (stream : Nat) : Option (Nat × GEntry) :=
  d.fab.map.bind fun m => (m.entries.zipIdx.find? fun e => e.1.standbyDev = m.self && e.1.standbyStream = stream).map
    fun e => (e.2, e.1)

/-- FAB_PROTECT's counts of entries. -/
def Dev.syncProtect (d : Dev) : Dev :=
  let es := match d.fab.map with
    | some m => (m.entries.filter fun e => e.activeDev = m.self).length + 512 * (m.entries.filter fun e => e.standbyDev = m.self).length
    | none => 0
  (d.setFld R.FAB_PROTECT F.FAB_PROTECT_active (es % 512)).setFld R.FAB_PROTECT F.FAB_PROTECT_standby (es / 512)

/-- Entry j passed through f. -/
def Dev.modEntry (d : Dev) (j : Nat) (f : GEntry → GEntry) : Dev :=
  { d with fab := { d.fab with map := d.fab.map.map fun m =>
      { m with entries := m.entries.zipIdx.map fun e => if e.2 = j then f e.1 else e.1 } } }

/-- Entry j becomes unprotected (R460). -/
def Dev.unprotect (d : Dev) (j stream : Nat) : Dev :=
  let on := (d.fab.map.bind fun m => (m.entries[j]?).map (·.prot)).getD false
  if !on then d
  else
    let d := d.modEntry j fun e => { e with prot := false }
    let d := d.setFld R.FAB_PROTECT F.FAB_PROTECT_unprotected (d.fld R.FAB_PROTECT F.FAB_PROTECT_unprotected ||| 2 ^ j)
    d.health Ev.unprotected.code 0 stream j 0

/-- Entry j becomes protected again (R460). -/
def Dev.protectAgain (d : Dev) (j : Nat) : Dev :=
  let d := d.modEntry j fun e => { e with prot := true }
  d.setFld R.FAB_PROTECT F.FAB_PROTECT_unprotected
    (d.fld R.FAB_PROTECT F.FAB_PROTECT_unprotected &&& ((2 ^ 9 - 1) ^^^ 2 ^ j))

/-- At a refresh point, both sides in reach of each other, the stream's entry is protected again (R460). -/
def Dev.refreshProtect (d : Dev) (stream : Nat) : Dev :=
  match d.activeEntry stream with
  | some (j, e) => if !e.prot && d.reach e.standbyDev then d.protectAgain j else d
  | none => d

/-- The protected entry of a stream that is active here. -/
def Dev.mirrorTo (d : Dev) (stream : Nat) : Option GEntry :=
  (d.activeEntry stream).bind fun x => if x.2.prot then some x.2 else none

/-- MIRROR_CHUNK to the partner: arg_a holds the length, with the epoch in its top 16 bits; arg_b the timestamp (log entry 19). -/
def Dev.mirrorChunk (d : Dev) (e : GEntry) (epoch stamp : Nat) (b : List Byte) : Dev :=
  d.transfer e.standbyDev 1 e.standbyStream (b.length + 2 ^ 48 * epoch) stamp b

/-- The identity of a context on another device: image hash and variant. -/
def Dev.ctxKey (d : Dev) (c : Nat) : List Byte :=
  match mget d.ctxs c with
  | some x => ((mget d.images x.image).map (·.hash)).getD (zeros 32)
  | none => zeros 32

def Dev.ctxVariant (d : Dev) (c : Nat) : Nat := ((mget d.ctxs c).map (·.variant)).getD 0xFF

/-- MIRROR_CONFIG to the partner: sections, variants of the context and of its fallback, image hash, then the settings block
(log entry 19). -/
def Dev.mirrorConfig (d : Dev) (e : GEntry) (epoch sections ctx : Nat) (fb : Option Nat) (b : List Byte) : Dev :=
  let data := toLE 1 sections ++ toLE 1 (d.ctxVariant ctx) ++ toLE 1 ((fb.map d.ctxVariant).getD 0xFF) ++ toLE 1 0 ++ d.ctxKey ctx ++ b
  d.transfer e.standbyDev 2 e.standbyStream 0 epoch data

/-- COMMIT to the partner. -/
def Dev.sendCommit (d : Dev) (e : GEntry) : Dev := d.transfer e.standbyDev 3 e.standbyStream 0 0 []

end Sys2Proof.Machine
end

