-- ==== Sys2Proof/Machine/Streams.lean ====
section
/-!
DEFINITION. What the stream commands use (R262, R276, R277, R290, R291, R298 to R301, R309, R311, R337 to R341, R378 to R380):
epochs, the settings block and its checks, chunks, the clip history, frame numbers, the destruction of a stream.
-/

namespace Sys2Proof.Machine

def Dev.stream? (d : Dev) (id : Nat) : Option Stream := mget d.streams id

/-! ### Epochs -/

/-- The latest epoch, staged or current (R337). -/
def Stream.latest (s : Stream) : Option Epoch := (s.staged.getLast?).or s.cur

/-- The current or staged epoch of a number. -/
def Stream.epoch? (s : Stream) (n : Nat) : Option Epoch := (s.cur.toList ++ s.staged).find? fun e => e.num = n

/-- A staged epoch becomes current: earlier staged ones are discarded, slots of earlier settings return, the context takes the
binding's attributes (R277, R337, R340). -/
def Dev.adoptEpoch (d : Dev) (id : Nat) (e : Epoch) : Dev :=
  match d.stream? id with
  | none => d
  | some s =>
    if !s.staged.contains e then d
    else
      let upto := s.staged.takeWhile (· ≠ e) ++ [e]
      let given := (upto.filter fun x => x.slots ≠ []).map (·.slots)
      let keep := given.getLast?
      let old : List Nat := match keep with
        | some _ => s.slots.map (fun x => x.1) ++ given.dropLast.flatten
        | none => []
      let slots : List (Nat × Option Nat) := match keep with
        | some l => l.map fun h => (h, none)
        | none => s.slots
      let d := d.modStream id fun s => { s with cur := some e, staged := s.staged.drop upto.length, slots := slots }
      let d := old.foldl Dev.refDec d
      if s.kind = 2 then d
      else { d with ctxs := mmap d.ctxs fun n x => if n = e.bind.ctx then
        { x with lc := e.bind.lc, hold := e.bind.hold, fallback := e.bind.fallback, deadline := e.bind.deadline,
                 margin := e.bind.margin } else x }

/-! ### Frame numbers (R14, R283, R313, R385) -/

/-- The number that lies `order` unassigned numbers beyond the next, and the stream with it assigned. -/
def numAt : Nat → Nat → List Nat → Nat → Nat
  | 0, n, _, _ => n
  | k + 1, n, ahead, order =>
    if ahead.contains n then numAt k ((n + 1) % 2 ^ 32) ahead order
    else if order = 0 then n else numAt k ((n + 1) % 2 ^ 32) ahead (order - 1)

def skipNums : Nat → Nat → List Nat → Nat × List Nat
  | 0, n, ahead => (n, ahead)
  | k + 1, n, ahead => if ahead.contains n then skipNums k ((n + 1) % 2 ^ 32) (ahead.filter (· ≠ n)) else (n, ahead)

/-- A frame of the stream gets its number, `order` frames that come before it in output order being numbered later. -/
def Dev.takeNum (d : Dev) (id order : Nat) : Nat × Dev :=
  match d.stream? id with
  | none => (0, d)
  | some s =>
    let n := numAt (s.numAhead.length + order + 1) s.nextFrame s.numAhead order
    let r := skipNums (s.numAhead.length + 1) s.nextFrame (s.numAhead ++ [n])
    (n, d.modStream id fun s => { s with nextFrame := r.1, numAhead := r.2 })

/-! ### The settings block (R380) -/

/-- Bytes 0 to 31. -/
def parseCodec (b : List Byte) : CodecSet :=
  { codec := byteAt b 0, depth := byteAt b 1, dpbSlots := byteAt b 2, refPool := byteAt b 3, maxW := le b 4 2, maxH := le b 6 2,
    lagLimit := byteAt b 8, histPool := byteAt b 9, concealLimit := le b 10 2, histMs := le b 12 4, rateCtl := byteAt b 16,
    qp := byteAt b 17, refreshKind := byteAt b 18, sweepP := byteAt b 19, gopG := le b 20 2, direction := byteAt b 22,
    qpDelta := sext (byteAt b 23) 8, kbps := le b 24 4, clipW := le b 28 2, clipH := le b 30 2 }

/-- A crop request of 32 bytes (R303). -/
def parseCrop (b : List Byte) : CropReq :=
  { x0 := sext (le b 0 4) 32, y0 := sext (le b 4 4) 32, a := sext (le b 8 4) 32, b := sext (le b 12 4) 32,
    c := sext (le b 16 4) 32, d := sext (le b 20 4) 32, track := le b 24 4, valid := bit (byteAt b 28) 0,
    edge := bit (byteAt b 28) 1 }

/-- Bytes 64 to 103, and the host crop requests from byte 256 on. -/
def parseShaper (b : List Byte) : ShaperSet :=
  { inPool := byteAt b 64, letterbox := bit (byteAt b 65) 0, topLeft := bit (byteAt b 65) 1, outW := le b 66 2, outH := le b 68 2,
    pad := [byteAt b 70, byteAt b 71, byteAt b 72], matrix := byteAt b 73, range := byteAt b 74, order := byteAt b 75,
    int8 := byteAt b 76 = 1, layout := byteAt b 77, scalerSet := byteAt b 78, bayer := byteAt b 79, cropW := le b 80 2,
    cropH := le b 82 2, steerBase := le b 84 6, steerMaxAge := byteAt b 90, steerCarry := byteAt b 91 = 1,
    revisitDepth := byteAt b 92, revisitPool := byteAt b 93, toneLo := le b 94 2, toneHi := le b 96 2, maxCrops := le b 98 2,
    crops := (List.range (le b 100 2)).map fun k => parseCrop (slice b (256 + 32 * k) 32) }

/-- Bytes 192 to 215. -/
def parseBind (b : List Byte) : Binding :=
  { ctx := byteAt b 192, lc := byteAt b 193 = 0, hold := le b 194 2,
    fallback := if byteAt b 196 = 0xFF then none else some (byteAt b 196), deadline := le b 200 8, margin := le b 208 8 }

/-- A reference slot's size in bytes (R276). -/
def CodecSet.slotBytes (c : CodecSet) : Nat :=
  let wa := 64 * cdiv c.maxW 64
  let ha := 64 * cdiv c.maxH 64
  wa * ha * 3 * (if c.depth = 10 then 2 else 1) * 257 / 512

/-- Table Decode support: the picture's size and depth lie within the codec's own limits (R262, R266). -/
def sizeOk (codec w h depth : Nat) : Bool :=
  64 ≤ w && 64 ≤ h &&
  (if codec = 0 then w ≤ 4096 && h ≤ 2304 && depth = 8
   else if codec = 1 then w ≤ 4096 && w * h ≤ 8912896 && (depth = 8 || depth = 10)
   else w ≤ 8192 && h ≤ 8192 && depth = 8)

/-- The encode fields of Table Settings block (R264, R266, R288). -/
def CodecSet.encodeOk (c : CodecSet) (kind : Nat) : Bool :=
  if c.codec = 2 then 1 ≤ c.qp && c.qp ≤ 100
  else
    c.rateCtl ≤ 2 && c.refreshKind ≤ 1 && c.direction ≤ 1 && -12 ≤ c.qpDelta && c.qpDelta ≤ 12 &&
    (if c.refreshKind = 1 then 8 ≤ c.sweepP && c.sweepP ≤ 64 else 1 ≤ c.gopG && c.gopG ≤ 300) &&
    (kind ≠ 1 || (1 ≤ c.clipW && c.clipW ≤ 4096 && 1 ≤ c.clipH && c.clipH ≤ 2160))

/-- Table Per-stream codec settings for a stream of a kind. -/
def Dev.codecOk (d : Dev) (kind : Nat) (c : CodecSet) : Bool :=
  c.codec ≤ 2 && (kind ≠ 1 || c.codec ≤ 1) && sizeOk c.codec c.maxW c.maxH c.depth && 1 ≤ c.lagLimit && c.lagLimit ≤ 64 &&
  c.concealLimit ≤ 1024 && c.histMs ≤ 60000 && (c.histMs = 0 || (48 ≤ c.histPool && c.histPool ≤ 63)) &&
  (c.codec = 2 || (1 ≤ c.dpbSlots && c.dpbSlots ≤ 16 && 48 ≤ c.refPool && c.refPool ≤ 63 && c.slotBytes ≤ d.poolSize c.refPool)) &&
  (kind = 0 || (kind = 1 && c.histMs = 0) || c.encodeOk kind)

/-- Bytes of one output of w × h pixels in a layout (R299, R311). -/
def outBytes (s : ShaperSet) (w h : Nat) : Nat :=
  (if s.layout = 0 then (if s.order = 2 then 1 else 3) else if s.layout = 1 then 16 else 32) * w * h

/-- crop_off and crop_stride (R300). -/
def ShaperSet.cropOff (s : ShaperSet) : Nat := if s.outW = 0 then 0 else 256 * cdiv (outBytes s s.outW s.outH) 256
def ShaperSet.cropStride (s : ShaperSet) : Nat := 256 * cdiv (outBytes s s.cropW s.cropH) 256

/-- The scaled size of a W × H picture (R298). -/
def ShaperSet.scaled (s : ShaperSet) (W H : Nat) : Nat × Nat :=
  if !s.letterbox then (s.outW, s.outH)
  else if s.outW * H ≤ s.outH * W then (s.outW, (2 * H * s.outW + W) / (2 * W))
  else ((2 * W * s.outH + H) / (2 * H), s.outH)

/-- The ratio of the scaler lies in 1/16 to 4 on both axes (R298). -/
def ShaperSet.ratioOk (s : ShaperSet) (W H : Nat) : Bool :=
  let r := s.scaled W H
  s.outW = 0 || (W ≤ 16 * r.1 && r.1 ≤ 4 * W && H ≤ 16 * r.2 && r.2 ≤ 4 * H)

/-- Stream-store address of slot 0 of an input pool's crop-list area (R301). -/
def Dev.listBase (d : Dev) (p : Nat) : Nat := sstBase + 8192 * d.fld (R.SHP_LIST p) F.SHP_LIST_list_base

/-- The crop-list area of a pool is usable (R301). -/
def Dev.listOk (d : Dev) (p : Nat) : Bool :=
  let n := 8192 * d.poolCount p
  d.listBase p + n ≤ 0x9000000 &&
  (List.range 16).all fun i => d.poolState (32 + i) = 0 ||
    !overlaps (d.listBase p) n (d.poolBase (32 + i)) (d.poolCount (32 + i) * d.poolSize (32 + i))

/-- Table Shaper settings for a stream of kind 0 or 1 whose pictures are at most maxW × maxH (0: no limit is known). -/
def Dev.shaperOk (d : Dev) (b : List Byte) (s : ShaperSet) (maxW maxH : Nat) : Bool :=
  let dim := fun n => n = 0 || (16 ≤ n && n ≤ 4096)
  s.inPool ≤ 47 && dim s.outW && dim s.outH && s.matrix ≤ 3 && s.range ≤ 2 && s.order ≤ 2 && byteAt b 76 ≤ 1 && s.layout ≤ 2 &&
  s.scalerSet ≤ 2 && s.bayer ≤ 3 && s.maxCrops ≤ 256 &&
  (s.maxCrops = 0 || (8 ≤ s.cropW && s.cropW ≤ 512 && 8 ≤ s.cropH && s.cropH ≤ 512)) && s.crops.length ≤ 256 &&
  (s.steerBase = 0 || (s.steerBase % 8192 = 0 && sstBase ≤ s.steerBase && s.steerBase + 24576 ≤ 0x9000000)) &&
  1 ≤ s.steerMaxAge && s.steerMaxAge ≤ 16 && byteAt b 91 ≤ 1 && s.revisitDepth ≤ 16 && s.toneLo < s.toneHi &&
  (s.revisitDepth = 0 || (32 ≤ s.revisitPool && s.revisitPool ≤ 47 &&
    8192 + s.maxCrops * s.cropStride ≤ d.poolSize s.revisitPool)) &&
  s.cropOff + s.maxCrops * s.cropStride ≤ d.poolSize s.inPool && d.listOk s.inPool &&
  (maxW = 0 || s.ratioOk maxW maxH)

/-- len covers every section and every host crop request (R380). -/
def configCovered (kind sections len : Nat) (b : List Byte) : Bool :=
  (!bit sections 0 || 32 ≤ len) && (!bit sections 2 || 216 ≤ len) &&
  (!bit sections 1 || (104 ≤ len && (kind = 3 || kind = 2 || le b 100 2 = 0 || 256 + 32 * le b 100 2 ≤ len)))

/-- Sections a first CONFIG_STREAM carries (R380). -/
def firstSections (kind sections : Nat) : Bool :=
  (!(kind = 0 || kind = 2) || bit sections 0) && (kind = 2 || (bit sections 1 && bit sections 2))

/-- The sections of a settings block pass their checks for stream s, against the settings that the epoch will have. -/
def Dev.sectionsOk (d : Dev) (kind sections : Nat) (b : List Byte) (codec : CodecSet) : Bool :=
  let a := parseBind b
  (!bit sections 0 || kind = 3 || d.codecOk kind codec) &&
  (!bit sections 1 || kind = 2 ||
    (if kind = 3 then decide ((parseShaper b).inPool ≤ 47)
     else d.shaperOk b (parseShaper b) (if kind = 0 then codec.maxW else 0) codec.maxH)) &&
  (!bit sections 2 || kind = 2 || d.attrsOk a.ctx (byteAt b 193)
    { lc := a.lc, hold := a.hold, fallback := a.fallback, deadline := a.deadline, margin := a.margin })

/-- n buffers of a pool, or none of them (R277). -/
def Dev.popMany (d : Dev) (p : Nat) : Nat → List Nat → Option (List Nat) × Dev
  | 0, acc => (some acc, d)
  | n + 1, acc =>
    match d.pop p 1 with
    | (some h, d) => d.popMany p n (acc ++ [h])
    | (none, d) => (none, acc.foldl Dev.refDec d)

/-- Stage an epoch (R337): the status, and the device. -/
def Dev.stage (d : Dev) (id num sections len : Nat) (b : List Byte) : Nat × Dev :=
  match d.stream? id with
  | none => (Code.descInvalid.num, d)
  | some s =>
    let base : Epoch := (s.latest).getD { num := 0, codec := {}, shaper := {}, bind := {} }
    let gap := match s.latest with
      | some e => (num + 65536 - e.num) % 65536
      | none => 1
    let codec := if bit sections 0 && s.kind ≠ 3 then parseCodec b else base.codec
    let shaper := if !bit sections 1 || s.kind = 2 then base.shaper
      else if s.kind = 3 then { base.shaper with inPool := byteAt b 64 } else parseShaper b
    let bind := if bit sections 2 && s.kind ≠ 2 then parseBind b else base.bind
    if s.destroying || 8 ≤ sections || !configCovered s.kind sections len b || (s.latest = none && !firstSections s.kind sections) then
      (Code.descInvalid.num, d)
    else if gap = 0 ∨ 32768 ≤ gap then (Code.epochMismatch.num, d)
    else if 2 ≤ s.staged.length then (Code.poolEmpty.num, d)
    else if !d.sectionsOk s.kind sections b codec then (Code.descInvalid.num, d)
    else
      let slots := if bit sections 0 && s.kind ≠ 3 && codec.codec ≠ 2 then codec.dpbSlots else 0
      match d.popMany codec.refPool slots [] with
      | (none, d') => (Code.poolEmpty.num, d')
      | (some hs, d) =>
        let e : Epoch := { num := num, codec := codec, shaper := shaper, bind := bind, slots := hs }
        (0, d.modStream id fun s =>
          { s with staged := s.staged ++ [e], avg := if s.cur = none && s.staged = [] then codec.maxW * codec.maxH * 3 / 5 else s.avg })

/-! ### The clip history (R290) -/

/-- The oldest item of a stream's history is released. -/
def Dev.histDrop (d : Dev) (id : Nat) : Dev :=
  match (d.stream? id).map (·.history) with
  | some (x :: r) => (d.modStream id fun s => { s with history := r }).refDec x.handle
  | _ => d

/-- A buffer of the history pool; the stream's oldest data goes first when the pool is empty. -/
def Dev.histPop (d : Dev) (id pool : Nat) : Nat → Option Nat × Dev
  | 0 => (none, d)
  | n + 1 =>
    match d.pop pool 1 with
    | (some h, d) => (some h, d)
    | (none, d) => if ((d.stream? id).map (·.history)).getD [] = [] then (none, d) else (d.histDrop id).histPop id pool n

/-- Data enters the history: a chunk as it was received, or an encoded picture (log entry 20). -/
def Dev.histAdd (d : Dev) (id : Nat) (c : CodecSet) (x : HistItem) (b : List Byte) : Dev :=
  match d.stream? id with
  | none => d
  | some s =>
    let r := if b.length ≤ d.poolSize c.histPool then d.histPop id c.histPool (s.history.length + 1) else (none, d)
    match r with
    | (some h, d) =>
      (d.writeRun (d.bufAddr h) b).modStream id fun s =>
        { s with history := s.history ++ [{ x with handle := h, len := b.length }], histSkip := false }
    | (none, d) =>
      if s.histSkip then d
      else (d.health Ev.historySkip.code 0 id c.histPool 0).modStream id fun s => { s with histSkip := true }

/-! ### Chunks -/

/-- A chunk buffer is released (R279). -/
def Dev.dropChunk (d : Dev) (id : Nat) (c : Chunk) : Dev :=
  (d.modStream id fun s => { s with
    chunks := s.chunks.erase c,
    history := s.history.map fun x => if x.src = some c.handle then { x with src := none } else x }).refDec c.handle

/-- A chunk in a buffer of chunk_pool joins the stream's input, and the history where one is kept (R290, R379). -/
def Dev.takeChunk (d : Dev) (id h : Nat) (e : Epoch) (stamp : Nat) (b : List Byte) : Dev :=
  let c : Chunk := { handle := h, len := b.length, epoch := e.num, stamp := stamp }
  match d.stream? id with
  | none => d
  | some s =>
    let d := if e.codec.codec = 2 then { d with jpeg := { d.jpeg with queue := d.jpeg.queue ++ [(id, c)] } } else d
    let d := d.modStream id fun s => { s with chunks := s.chunks ++ [c] }
    let d := d.setFld R.COD_JPEG_STATUS F.COD_JPEG_STATUS_busy (b2n (d.jpeg.queue ≠ []))
    let d := d.setFld R.COD_JPEG_STATUS F.COD_JPEG_STATUS_queued (min 64 (d.jpeg.queue.length - 1))
    if s.kind = 0 ∧ e.codec.histMs ≠ 0 then
      d.histAdd id e.codec { stamp := stamp, epoch := e.num, frame := 0, handle := 0, len := 0, refresh := e.codec.codec = 2,
                             src := some h } b
    else d

/-! ### The end of a stream (R378) -/

/-- Nothing of the stream is left in the device but what its destruction releases. -/
def Dev.streamIdle (d : Dev) (id : Nat) : Bool :=
  (d.sched.frames.all fun f => f.stream ≠ id) && (d.que.wait.all fun w => w.device || w.stream ≠ id) &&
  (d.engines.all fun e => (e.2.pic.map fun p => decide (p.info.stream ≠ id)).getD true) &&
  ((d.jpeg.img.map fun p => decide (p.info.stream ≠ id)).getD true) &&
  (d.pipes.all fun p => p.2.work.all fun w => w.2.stream ≠ id) &&
  (d.readouts.all fun r => r.stream ≠ id || r.scratch = []) &&
  (List.range 8).all fun c => ((d.core c).run.map fun r => decide (r.stream ≠ id ∨ r.replay)).getD true

/-- Input stops: ports no longer feed the stream. -/
def Dev.stopInput (d : Dev) (id : Nat) : Dev :=
  { (d.modStream id fun s => { s with destroying := true }) with
    ports := mmap d.ports fun _ p => { p with vcs := p.vcs.filter fun v => v.2 ≠ id } }

/-- Every buffer and slot of the stream is released, its sequences leave, its readouts end. -/
def Dev.endStream (d : Dev) (id : Nat) : Dev :=
  match d.stream? id with
  | none => d
  | some s =>
    let hs := s.chunks.map (·.handle) ++ s.slots.map (·.1) ++ s.staged.flatMap (·.slots) ++ s.history.map (·.handle) ++
      s.revisits.map (·.handle) ++ s.clips
    let d := hs.foldl Dev.refDec d
    let d := { d with jpeg := { d.jpeg with queue := d.jpeg.queue.filter fun j => j.1 ≠ id } }
    let d := d.sets.foldl (fun d y => d.releaseStream id y) d
    let d := { d with readouts := d.readouts.map fun (r : Readout) => if r.stream = id then { r with slots := [] } else r }
    let d := d.readoutSettle
    { d with streams := mdel d.streams id,
             engines := mmap d.engines fun _ e => { e with loads := e.loads.filter fun l => l.1 / 2 ≠ id },
             fab := { d.fab with standby := mdel d.fab.standby id } }

/-- A stream is created with no epoch (R378). -/
def Dev.makeStream (d : Dev) (e : List Byte) : Dev :=
  let s : Stream := { kind := byteAt e 18, ring := byteAt e 19, chunkPool := byteAt e 20, recPool := byteAt e 21 }
  { d with streams := mput d.streams (le e 16 2) s }

end Sys2Proof.Machine
end

