-- ==== Sys2Proof/Machine/Codec.lean ====
section
/-!
DEFINITION. The codec engines and the JPEG unit (R262 to R293): the start of a picture, its groups of rows, its end, concealment,
the picture budget, encodes, the service state of an engine.
-/

namespace Sys2Proof.Machine

def Dev.engine (d : Dev) (n : Nat) : Engine := mgetD d.engines n {}

def Dev.modEngine (d : Dev) (n : Nat) (f : Engine → Engine) : Dev := { d with engines := mput d.engines n (f (d.engine n)) }

/-- The engine serves pictures; in Dawn CE0 alone does (R292, R421, R466). -/
def Dev.engineOn (d : Dev) (n : Nat) : Bool :=
  n < 8 && d.fld (R.COD_STATUS n) F.COD_STATUS_svc = 1 && !d.unitOut (0x10 + n) && d.clocked 3 &&
    (n = 0 || d.pwr.phase ≠ .dawn)

/-- The engine works on the picture it has: it is clocked and not in a reset (R421, R480). -/
def Dev.engineLive (d : Dev) (n : Nat) : Bool := n < 8 && !(d.recov.units.any fun x => x.1 = 0x10 + n) && d.clocked 3

/-! ### Engine load (R268) -/

/-- Decode and encode Mpixel/s of the streams given to an engine. -/
def Engine.load (e : Engine) : Nat × Nat :=
  (((e.loads.filter fun l => l.1 % 2 = 0).map (·.2)).foldl (· + ·) 0,
   ((e.loads.filter fun l => l.1 % 2 = 1).map (·.2)).foldl (· + ·) 0)

def Dev.syncLoads (d : Dev) : Dev :=
  (List.range 8).foldl (fun d n =>
    let l := (d.engine n).load
    d.setReg (R.COD_LOAD n) (l.1 % 65536 + 65536 * (l.2 % 65536))) d

/-- The stream's load given to engine n, and to no other. -/
def Dev.giveLoad (d : Dev) (n key mps : Nat) : Dev :=
  let d := { d with engines := mmap d.engines fun _ e => { e with loads := mdel e.loads key } }
  (d.modEngine n fun e => { e with loads := mput e.loads key mps }).syncLoads

/-- The engine's load stays at or below 1,000 with the stream given to it; in Dawn CE0 takes every stream (R268, R467). -/
def Dev.loadOk (d : Dev) (n key mps : Nat) : Bool :=
  let l := ({ d.engine n with loads := mput (d.engine n).loads key mps } : Engine).load
  l.1 + 4 * l.2 ≤ 1000 || d.pwr.phase = .dawn

/-! ### Errors and the budget -/

/-- A decode error is recorded (R278). -/
def Dev.decodeErr (d : Dev) (unit sub stream frame : Nat) : Dev :=
  let d := d.logEv { code := Code.decodeSyntax.num, sub := sub, unit := unit, stream := stream, frame := frame }
  if unit < 0x18 then
    (d.satFld (R.COD_ERRS (unit - 0x10)) F.COD_ERRS_errors 1).setFld (R.COD_STATUS (unit - 0x10)) F.COD_STATUS_last_sub sub
  else d

/-- The budget state after the lag is known at the start of a picture (Table Picture budget states). -/
def Stream.nextBudget (s : Stream) (limit lag refLag : Nat) (refresh : Bool) : Nat :=
  match s.budget with
  | 0 => 0
  | 1 => if limit < lag then 2 else if lag = 0 && s.lastWithin then 0 else 1
  | 2 => if lag ≤ limit then 1 else if limit < refLag then 3 else 2
  | _ => if refresh then (if lag = 0 then 0 else 1) else 3

/-- The stream is in budget state b; a change is reported ahead of a frame (R285). -/
def Dev.setBudget (d : Dev) (id b lag num stamp epoch : Nat) : List (List Byte) × Dev :=
  match d.stream? id with
  | none => ([], d)
  | some s =>
    let say := fun (v : Nat) => stateRec id num stamp epoch 3 v 0 0 0 (min 65535 lag) 0 0 0
    ((if s.skipDue then [say 3] else []) ++ (if s.budget = b then [] else [say b]),
     if s.budget = b && !s.skipDue then d else d.modStream id fun s => { s with budget := b, skipDue := false })

/-- The average and the last outcome after a picture of c counted cycles (R284); the budget B is 4 × A. -/
def Dev.countCycles (d : Dev) (id c : Nat) : Dev :=
  d.modStream id fun s => { s with avg := (15 * s.avg + min c (4 * s.avg)) / 16, lastWithin := c ≤ 4 * s.avg }

/-! ### Rows (R271 to R273, R280) -/

/-- Rows a line ring holds for a picture W samples wide. -/
def ringRows (W : Nat) : Nat := 786432 / (3 * (64 * cdiv W 64))

/-- A sample as it enters the ring (R272). -/
def ringSample (depth x : Nat) : Nat := if depth = 10 then min 255 ((x + 2) / 4) else x % 256

/-- A row in which the blocks of some columns take the co-located samples of the reference row, or mid-grey. -/
def concealRow (W B depth : Nat) (cols : List Nat) (ref : Option (List Nat)) (row : List Nat) : List Nat :=
  let grey := if depth = 10 then 512 else 128
  (List.range (W + (W + 1) / 2)).map fun i =>
    let x := if i < W then i else 2 * (i - W)
    if cols.contains (x / B) then (match ref with
      | some r => r.getD i grey
      | none => grey) else row.getD i 0

/-- Rows that wait enter the ring as it has room. -/
def Engine.flow (e : Engine) (W : Nat) : Engine :=
  let n := ringRows W - e.ring.length
  { e with ring := e.ring ++ e.heldBack.take n, heldBack := e.heldBack.drop n }

/-- The ring carries no picture but this one. -/
def Engine.ringFor (e : Engine) (p : Pic) : Bool :=
  match e.src with
  | none => true
  | some x => x.info.stream = p.info.stream && x.frame = p.frame

/-- A group of rows from the decoder (R273, R280). -/
def Dev.groupWrite (d : Dev) (n : Nat) (rows : List (List Nat)) (cols : List Nat) (sub : Nat) : Dev :=
  let e := d.engine n
  match e.pic with
  | none => d
  | some P =>
    let W := P.info.width
    let rows := rows.take (P.info.height - P.rowsDone.length)
    if P.info.encode then d.wrapFld (R.COD_ROWS n) F.COD_ROWS_rows 1
    else if rows = [] then d
    else if P.analyse && (!e.ringFor P || ringRows W < e.ring.length + rows.length) then
      d.modEngine n fun e => { e with stalled := true }
    else
      let ref := ((d.stream? P.info.stream).map (·.refPic)).getD []
      let fixed := rows.zipIdx.map fun r => concealRow W P.info.groupRows P.info.depth cols ref[P.rowsDone.length + r.2]? r.1
      let P' := { P with rowsDone := P.rowsDone ++ fixed, concealed := P.concealed + cols.length,
                         firstSub := if P.firstSub = 0 then sub else P.firstSub }
      let ring8 := e.heldBack ++ fixed.map fun r => r.map (ringSample P.info.depth)
      let d := if P.analyse then d.modEngine n fun e => { e with
          pic := some P', src := some P', ring := e.ring ++ ring8.take (ring8.length - 8),
          heldBack := ring8.drop (ring8.length - 8), stalled := false }
        else d.modEngine n fun e => { e with pic := some P', stalled := false }
      let d := if sub = 0 then d else d.decodeErr (0x10 + n) sub P.info.stream P.frame
      d.wrapFld (R.COD_ROWS n) F.COD_ROWS_rows 1

/-! ### The start of a picture -/

/-- a comes at or before b in serial order of 32 bits. -/
def seqLe (a b : Nat) : Bool := (b + 2 ^ 32 - a) % 2 ^ 32 < 2 ^ 31

/-- The first n chunks of a stream are consumed. -/
def Dev.useChunks (d : Dev) (id n : Nat) : Dev :=
  (((d.stream? id).map (·.chunks)).getD []).take n |>.foldl (fun d c => d.dropChunk id c) d

/-- The chunk and the history item copied from it learn the number of their first picture, and of refresh points. -/
def Dev.markChunk (d : Dev) (id : Nat) (c : Chunk) (num : Nat) (p : PicInfo) : Dev :=
  d.modStream id fun s => { s with
    chunks := s.chunks.map fun x => if x = c && x.num = none then { x with num := some num } else x,
    history := s.history.map fun x => if x.src = some c.handle then
      { x with frame := if c.num = none then num else x.frame, params := if c.num = none then p.params else x.params,
               refresh := x.refresh || p.refresh } else x }

/-- A picture that is not decoded gets a VOID record (R263, R285, R286). -/
def Dev.skipPic (d : Dev) (p : PicInfo) (c : Chunk) (num reason code : Nat) (ahead : List (List Byte)) : Dev :=
  let unauth := ((d.stream? p.stream).map (·.unauth)).getD false
  (d.voidNum p.stream num c.stamp c.epoch reason code 0 unauth ahead).useChunks p.stream p.used

/-- The picture lies outside Table Decode support or the stream's settings (R263). -/
def picOutside (p : PicInfo) (c : CodecSet) : Bool :=
  !p.supported || c.maxW < p.width || c.maxH < p.height || c.depth < p.depth || c.dpbSlots < p.dpb ||
    !sizeOk c.codec (max 64 p.width) (max 64 p.height) p.depth

/-- Pictures leave the DPB, and a reference picture takes a slot (R277). -/
def takeSlot (l : List (Nat × Option Nat)) (leaves : List Nat) (num : Nat) (isRef : Bool) : List (Nat × Option Nat) :=
  let l := l.map fun x => if (x.2.map leaves.contains).getD false then (x.1, none) else x
  match isRef, findIx l (fun x => x.2 = none) with
  | true, some i => l.modify i fun x => (x.1, some num)
  | _, _ => l

/-- Engine n begins a picture. -/
def Dev.beginPic (d : Dev) (n : Nat) (p : PicInfo) (c : Chunk) (ep : Epoch) (num : Nat) (ahead : List (List Byte))
    (analyse : Bool) : Dev :=
  let P : Pic := { info := p, frame := num, ep := ep, stamp := c.stamp, rowsDone := [], concealed := 0, firstSub := 0,
                   cycles := 0, analyse := analyse }
  let d := d.giveLoad n (2 * p.stream + b2n p.encode) p.mps
  let d := d.modEngine n fun e => { e with pic := some P, stalled := false }
  let d := d.modStream p.stream fun s => { s with slots := takeSlot s.slots p.leaves num p.isRef, engine := some n }
  let d := d.setFld (R.COD_STATUS n) F.COD_STATUS_busy 1
  let d := d.setFld (R.COD_STATUS n) F.COD_STATUS_encoding (b2n p.encode)
  let d := d.setFld (R.COD_STATUS n) F.COD_STATUS_stream p.stream
  if analyse then
    let unauth := ((d.stream? p.stream).map (·.unauth)).getD false
    let f : Frame := { stream := p.stream, num := num, ep := ep, stamp := c.stamp, st := .shaping, ctx := ep.bind.ctx,
                       unauth := unauth, ahead := ahead }
    { d with sched := { d.sched with frames := d.sched.frames ++ [f] } }
  else d

/-- A picture of a standby stream: decoded without analysis (WARM), or only followed (COLD) (R461). -/
def Dev.standbyPic (d : Dev) (n : Nat) (p : PicInfo) (c : Chunk) (ep : Epoch) (warm : Bool) : Dev :=
  let last := (mget d.fab.standby p.stream).bind (·.deltaFrame)
  let num := numAt ((((d.stream? p.stream).map (·.numAhead.length)).getD 0) + p.order + 1)
    (((d.stream? p.stream).map (·.nextFrame)).getD 0) (((d.stream? p.stream).map (·.numAhead)).getD []) p.order
  if warm then
    if !(last.map (seqLe num)).getD false then d
    else
      let d := ((d.takeNum p.stream p.order).2.markChunk p.stream c num p)
      if p.isRef then d.beginPic n p c ep num [] false else d.useChunks p.stream p.used
  else
    let d := ((d.takeNum p.stream p.order).2.markChunk p.stream c num p)
    if p.refresh then d.useChunks p.stream p.chunk else d

/-- A picture of a compressed stream is due on engine n (R263, R270, R274, R278, R283 to R286). -/
def Dev.decodePic (d : Dev) (n : Nat) (s : Stream) (p : PicInfo) (c : Chunk) (ep : Epoch) : Dev :=
  if !p.parsed then (d.decodeErr (0x10 + n) p.err p.stream 0xFFFFFFFF).useChunks p.stream p.used
  else
    let d := (d.adoptEpoch p.stream ep)
    let r := d.takeNum p.stream p.order
    let num := r.1
    let d := r.2.markChunk p.stream c num p
    let d := if p.err = 0 then d else d.decodeErr (0x10 + n) p.err p.stream num
    let bad := picOutside p ep.codec || (s.unsup && !p.refresh)
    let next := s.nextBudget ep.codec.lagLimit p.lag p.refLag p.refresh
    let b := d.setBudget p.stream next p.lag num c.stamp ep.num
    let d := b.2.modStream p.stream fun s => { s with lag := p.lag, refLag := p.refLag, unsup := bad }
    let last := (mget d.fab.standby p.stream).bind (·.deltaFrame)
    let covered := (last.map (seqLe num)).getD false
    if covered then
      if p.isRef then d.beginPic n p c ep num [] false else d.useChunks p.stream p.used
    else if bad then
      (if picOutside p ep.codec then d.decodeErr (0x10 + n) 6 p.stream num else d).skipPic p c num 6 6 b.1
    else if p.rasl then d.skipPic p c num 5 0 b.1
    else if next = 3 then d.skipPic p c num 5 0 b.1
    else if next = 2 && !p.isRef then d.skipPic p c num 4 0 b.1
    else (if p.refresh then d.refreshProtect p.stream else d).beginPic n p c ep num b.1 true

/-- The scheduler gives a picture to engine n. -/
def Dev.startPicture (d : Dev) (n : Nat) (p : PicInfo) : Dev :=
  match d.stream? p.stream with
  | none => d
  | some s =>
    match s.chunks[p.chunk]? with
    | none => d
    | some c =>
      match (s.epoch? c.epoch).or s.cur with
      | none => d
      | some ep =>
        let free := d.engineOn n && (d.engine n).pic.isNone && d.loadOk n (2 * p.stream + b2n p.encode) p.mps
        if !free || s.destroying || p.refsOpen || p.groupRows = 0 || ep.codec.codec = 2 then d
        else if s.kind = 0 && !p.encode then
          match d.standbyEntry p.stream with
          | some en => d.standbyPic n p c ep en.2.warm
          | none => d.decodePic n s p c ep
        else if (s.kind = 1 || s.kind = 2) && p.encode then
          let d := if s.kind = 2 then d.adoptEpoch p.stream ep else d
          let r : Nat × Dev := match c.num with
            | some k => (k, d)
            | none => d.takeNum p.stream 0
          if p.width ≤ 4096 && p.height ≤ 2160 && p.depth = 8 then r.2.beginPic n p c ep r.1 [] false
          else r.2.useChunks p.stream p.used
        else d

/-! ### The end of a picture -/

/-- A STOPPING engine that is idle is OFF, or ON again (R292). -/
def Dev.engineIdle (d : Dev) (n : Nat) : Dev :=
  let d := d.setFld (R.COD_STATUS n) F.COD_STATUS_busy 0
  if d.fld (R.COD_STATUS n) F.COD_STATUS_svc = 2 then
    let on := d.flag (R.COD_STATUS n) F.COD_STATUS_enable_pending
    let d := d.setFld (R.COD_STATUS n) F.COD_STATUS_enable_pending 0
    let d := d.setFld (R.COD_STATUS n) F.COD_STATUS_svc (b2n on)
    if on then d else (d.modEngine n fun e => { e with loads := [] }).syncLoads
  else d

/-- The records that concealment and drift place ahead of a picture's frame (R280, R281). -/
def concealRecs (id num stamp epoch frac sub : Nat) (ends starts : Bool) : List (List Byte) :=
  (if frac = 0 then [] else [stateRec id num stamp epoch 1 0 0 sub frac 0 0 0 0]) ++
  (if ends then [stateRec id num stamp epoch 2 0 0 0 0 0 0 0 0] else []) ++
  (if starts then [stateRec id num stamp epoch 2 1 0 0 0 0 0 0 0] else [])

/-- A picture with concealed blocks is logged, reported and, beyond the limit, replaced by a VOID record (R281, R282). -/
def Dev.concealment (d : Dev) (id num : Nat) (ep : Epoch) (frac sub : Nat) (recs : List (List Byte)) (unit : Nat) : Dev :=
  let d := if frac = 0 then d else
    d.logEv { code := Code.concealed.num, sub := sub, unit := unit, stream := id, frame := num }
  let d := d.modFrame id num false fun f => { f with ahead := f.ahead ++ recs }
  match d.frame? id num false with
  | some f => if ep.codec.concealLimit < frac then d.voidFrame f 3 0 frac else d
  | none => d

/-- The budget state after a decoded picture, with its records; a hard cap leaves it (R284, R285, R287). -/
def Dev.endBudget (d : Dev) (P : Pic) (within : Bool) (lag refLag : Nat) (cap : Bool) : List (List Byte) × Dev :=
  match d.stream? P.info.stream with
  | some s =>
    if cap then ([], d)
    else d.setBudget P.info.stream (if s.budget = 0 then b2n (!within) else s.nextBudget P.ep.codec.lagLimit lag refLag false) lag
      P.frame P.stamp P.ep.num
  | none => ([], d)

/-- The engine gives its picture up; the rows of an analysed one follow those that wait, into the ring as it has room (R273). -/
def Engine.endPic (e : Engine) (P : Pic) (tail : List (List Nat)) : Engine :=
  if P.analyse then
    ({ e with pic := none, stalled := false, src := some { P with rowsDone := [] }, heldBack := e.heldBack ++ tail } : Engine).flow P.info.width
  else { e with pic := none, stalled := false }

/-- A decoded picture ends: what is missing is concealed, the budget and DRIFT follow, its chunks go (R273, R279 to R285). -/
def Dev.endDecode (d : Dev) (n : Nat) (P : Pic) (cycles lag refLag : Nat) (cap : Bool) : Dev :=
  let p := P.info
  let id := p.stream
  let miss := p.height - P.rowsDone.length
  let old := ((d.stream? id).map (·.refPic)).getD []
  let cols := List.range (cdiv p.width p.groupRows)
  let tail := (List.range miss).map fun i => concealRow p.width p.groupRows p.depth cols old[P.rowsDone.length + i]? []
  let sub := if P.firstSub ≠ 0 then P.firstSub else if miss = 0 then 0 else if cap then 8 else 5
  let conc := P.concealed + cdiv miss p.groupRows * cols.length
  let frac := if conc = 0 then 0 else cdiv (1024 * conc) (max 1 p.blocks)
  let d := if miss = 0 then d else d.decodeErr (0x10 + n) (if cap then 8 else 5) id P.frame
  let d := if conc = 0 then d else d.satFld (R.COD_ERRS n) F.COD_ERRS_concealed 1
  let was := ((d.stream? id).map (·.drift)).getD false
  let ends := was && p.refresh
  let starts := p.isRef && conc ≠ 0 && (!was || ends)
  let d := d.modStream id fun s => { s with drift := starts || (s.drift && !p.refresh),
                                            refPic := if p.isRef then P.rowsDone ++ tail else s.refPic }
  let within : Bool := decide (cycles ≤ 4 * ((d.stream? id).map (·.avg)).getD 0)
  let d := d.countCycles id cycles
  let b := d.endBudget P within lag refLag cap
  let d := b.2.modStream id fun s => if cap then s else { s with lag := lag, refLag := refLag }
  let d := d.modEngine n fun e => e.endPic P (tail.map fun (r : List Nat) => r.map (ringSample p.depth))
  let d := if P.analyse then
      d.concealment id P.frame P.ep frac sub (b.1 ++ concealRecs id P.frame P.stamp P.ep.num frac sub ends starts) (0x10 + n)
    else d
  (d.useChunks id p.used).engineIdle n

/-- An encode ends: the coded picture enters the history (R264, R288, R290). -/
def Dev.endEncode (d : Dev) (n : Nat) (P : Pic) (coded : List Byte) : Dev :=
  let d := d.modEngine n fun e => { e with pic := none, stalled := false }
  let d := if P.ep.codec.histMs = 0 then d else
    d.histAdd P.info.stream P.ep.codec { stamp := P.stamp, epoch := P.ep.num, frame := P.frame, handle := 0, len := 0,
                                         refresh := P.info.refresh, params := P.info.params } coded
  (d.useChunks P.info.stream P.info.used).engineIdle n

/-! ### Commands -/

/-- PICTURE_START (R263, R267 to R270, R274, R277, R278, R283, R285, R286). -/
def execPictureStart (engine : Nat) (pic : PicInfo) (s : State) : Host.Outcome State Fault Refusal :=
  onDev s fun d => if d.working && d.pwr.phase ≠ .dusk then d.startPicture engine pic else d

/-- LINE_RING_GROUP_WRITE (R271 to R273, R278, R280). -/
def execLineRingGroupWrite (engine : Nat) (rows : List (List Nat)) (concealed : List Nat) (subcode : Nat) (s : State) :
    Host.Outcome State Fault Refusal :=
  onDev s fun d => if d.engineLive engine then d.groupWrite engine rows (dedup concealed) subcode else d

/-- PICTURE_COMPLETE (R279 to R285, R290). -/
def execPictureComplete (engine cycles lag refLag : Nat) (coded : List Byte) (s : State) : Host.Outcome State Fault Refusal :=
  onDev s fun d =>
    match (d.engine engine).pic.filter fun _ => d.engineLive engine with
    | none => d
    | some P =>
      if P.info.encode then d.endEncode engine P coded
      else if P.analyse && !(d.engine engine).ringFor P then d
      else d.endDecode engine P cycles lag refLag false

/-- HARD_CAP_ABORT: the counted cycles reach 64 × B (R287). -/
def execHardCapAbort (engine : Nat) (s : State) : Host.Outcome State Fault Refusal :=
  onDev s fun d =>
    match (d.engine engine).pic.filter fun _ => d.engineLive engine with
    | none => d
    | some P =>
      if P.info.encode || (P.analyse && !(d.engine engine).ringFor P) then d
      else d.endDecode engine P (256 * ((d.stream? P.info.stream).map (·.avg)).getD 0) 0 0 true

/-- COD_JPEG_STATUS from the jobs that wait. -/
def Dev.syncJpeg (d : Dev) : Dev :=
  (d.setFld R.COD_JPEG_STATUS F.COD_JPEG_STATUS_busy (b2n (d.jpeg.queue ≠ []))).setFld R.COD_JPEG_STATUS
    F.COD_JPEG_STATUS_queued (min 64 (d.jpeg.queue.length - 1))

/-- A decoded still goes to the shaper, with the records of its concealment (R265, R266). -/
def Dev.stillOut (d : Dev) (p : PicInfo) (c : Chunk) (ep : Epoch) (num : Nat) (rows : List (List Nat)) (conc sub : Nat)
    (ahead : List (List Byte)) : Dev :=
  let W := p.width
  let all := (List.range p.height).map fun i => (List.range (W + (W + 1) / 2)).map fun j => ((rows.getD i []).getD j 128) % 256
  let P : Pic := { info := p, frame := num, ep := ep, stamp := c.stamp, rowsDone := all, concealed := conc, firstSub := sub,
                   cycles := 0, analyse := true }
  let frac := if conc = 0 then 0 else cdiv (1024 * conc) (max 1 p.blocks)
  let f : Frame := { stream := p.stream, num := num, ep := ep, stamp := c.stamp, st := .shaping, ctx := ep.bind.ctx, ahead := ahead }
  let d := { d with sched := { d.sched with frames := d.sched.frames ++ [f] },
                    jpeg := { d.jpeg with img := if ep.codec.concealLimit < frac then none else some P } }
  d.concealment p.stream num ep frac sub (concealRecs p.stream num c.stamp ep.num frac sub false false) 0x18

/-- JPEG_JOB_COMPLETE (R265, R266). -/
def execJpegJobComplete (pic : PicInfo) (rows : List (List Nat)) (concealed subcode : Nat) (coded : List Byte) (s : State) :
    Host.Outcome State Fault Refusal :=
  onDev s fun d =>
    match d.jpeg.queue with
    | [] => d
    | (id, c) :: rest =>
      match (d.stream? id).bind fun x => ((x.epoch? c.epoch).or x.cur).map fun ep => (x, ep) with
      | none => d
      | some (x, ep) =>
        if d.jpeg.img.isSome || d.unitOut 0x18 || !d.clocked 3 then d
        else
          let p := { pic with stream := id, isRef := false, refresh := true, chunk := 0, used := 1 }
          let d := { d with jpeg := { d.jpeg with queue := rest, rows := d.jpeg.rows + rows.length + 1 } }
          let d := (d.satFld R.COD_JPEG_STATUS F.COD_JPEG_STATUS_done 1).syncJpeg
          if x.kind = 2 then
            let r := (d.adoptEpoch id ep).takeNum id 0
            let d := if ep.codec.histMs = 0 then r.2 else
              r.2.histAdd id ep.codec { stamp := c.stamp, epoch := ep.num, frame := r.1, handle := 0, len := 0, refresh := true } coded
            d.dropChunk id c
          else if !p.parsed then (d.decodeErr 0x18 p.err id 0xFFFFFFFF).dropChunk id c
          else
            let r := (d.adoptEpoch id ep).takeNum id 0
            let d := r.2.markChunk id c r.1 p
            let next := x.nextBudget ep.codec.lagLimit p.lag 0 true
            let b := d.setBudget id next p.lag r.1 c.stamp ep.num
            let d := b.2.modStream id fun s => { s with lag := p.lag, refLag := 0 }
            let d := (d.countCycles id (6 * p.width * p.height / 5))
            let out := !p.supported || ep.codec.maxW < p.width || ep.codec.maxH < p.height || !(1 ≤ p.width && 1 ≤ p.height)
            let d := if subcode = 0 && p.err = 0 then d else d.decodeErr 0x18 (if subcode = 0 then p.err else subcode) id r.1
            let d := if out then (d.decodeErr 0x18 6 id r.1).voidNum id r.1 c.stamp ep.num 6 6 0 false b.1
              else if next = 2 then d.voidNum id r.1 c.stamp ep.num 4 0 0 false b.1
              else d.stillOut p c ep r.1 rows concealed subcode b.1
            match (d.stream? id).bind fun s => s.chunks.find? fun y => y.handle = c.handle with
            | some y => d.dropChunk id y
            | none => d

/-- A service control: the requested state is written; 0 OFF, 1 ON, 2 STOPPING with its pending enable (R292, R320). -/
def svcNext (svc : Nat) (pend on busy : Bool) : Nat × Bool :=
  if on then (if svc = 0 then (1, false) else if svc = 2 then (2, true) else (svc, false))
  else if svc = 1 then (if busy then (2, false) else (0, false)) else (svc, pend && svc ≠ 2)

/-- COD_CTL_WRITE (R292). -/
def execCodCtlWrite (engine : Nat) (value : Word) (s : State) : Host.Outcome State Fault Refusal :=
  onDev s fun d =>
    if 8 ≤ engine || !d.regOpen (R.COD_CTL engine) then d
    else if d.recov.deadUnits.contains (0x10 + engine) then d.setFld (R.COD_CTL engine) F.COD_CTL_enable (bits value.toNat 0 1)
    else
      let on := value.getLsbD 0
      let d := d.setFld (R.COD_CTL engine) F.COD_CTL_enable (b2n on)
      let n := svcNext (d.fld (R.COD_STATUS engine) F.COD_STATUS_svc) (d.flag (R.COD_STATUS engine) F.COD_STATUS_enable_pending) on
        (d.engine engine).pic.isSome
      let d := d.setFld (R.COD_STATUS engine) F.COD_STATUS_svc n.1
      let d := d.setFld (R.COD_STATUS engine) F.COD_STATUS_enable_pending (b2n n.2)
      if on then d else (d.modEngine engine fun e => { e with loads := [] }).syncLoads

end Sys2Proof.Machine
end

