-- ==== Sys2Proof/Machine/Dram.lean ====
section
/-!
DEFINITION. The DRAM controller and the patrol scrubs (R240 to R243, R388 to R412): requests and their queues, refresh, temperature,
migration into the spare, scrubbing, write-back of corrections.
-/

namespace Sys2Proof.Machine

def Dev.dch (d : Dev) (c : Nat) : DramCh := mgetD d.dram.chs c {}

def Dev.modDch (d : Dev) (c : Nat) (f : DramCh → DramCh) : Dev :=
  { d with dram := { d.dram with chs := mput d.dram.chs c (f (d.dch c)) } }

/-! ### Queues (R398 to R400) -/

/-- Key of the bank a line lies in: rank × 16 + bank group × 4 + bank, and its row (R389). -/
def bankOf (a : Nat) : Nat := rankOf a * 16 + bits (a - dramBase) 13 2 * 4 + bits (a - dramBase) 15 2
def rowOf (a : Nat) : Nat := bits (a - dramBase) 17 15

/-- The bytes of a write and their addresses. -/
def lineBytesAt (line : Nat) (l : List (Option Byte)) : List (Nat × Byte) :=
  l.zipIdx.filterMap fun x => x.1.map fun b => (64 * line + x.2, b)

/-- The oldest queued write leaves its queue for the DRAM; the rank is chosen now (R405). -/
def Dev.popWrite (d : Dev) (c : Nat) : Dev :=
  match (d.dch c).wq with
  | [] => d
  | e :: r =>
    let d := d.modDch c fun q => { q with wq := r, rows := mput q.rows (bankOf (64 * e.1)) (rowOf (64 * e.1)) }
    d.writeCells (lineBytesAt e.1 e.2)

/-- The read that goes next: one that 16 younger reads have passed, one to an open row, the oldest (R398). -/
def DramCh.pickRead (q : DramCh) : Option (Nat × Nat × List Byte) :=
  ((q.rq.find? fun r => 16 ≤ r.2.1).or
    (q.rq.find? fun r => mget q.rows (bankOf (64 * r.1)) = some (rowOf (64 * r.1)))).or q.rq.head?

/-- One read is issued; every older read has been passed by it. -/
def Dev.popRead (d : Dev) (c : Nat) : Dev :=
  let q := d.dch c
  match q.pickRead with
  | none => d
  | some r =>
    let older := q.rq.takeWhile (· ≠ r)
    let rest := (q.rq.dropWhile (· ≠ r)).drop 1
    let d := d.modDch c fun q => { q with
      rq := (older.map fun x => (x.1, x.2.1 + 1, x.2.2)) ++ rest, lastRead := some (r.1, r.2.2),
      rows := mput q.rows (bankOf (64 * r.1)) (rowOf (64 * r.1)) }
    d.noteRead (span (64 * r.1) 64)

/-- A channel issues its next request: a write in a write drain or when no read waits, else a read (R398, R399). -/
def Dev.dramServe (d : Dev) (c : Nat) : Dev :=
  let q := d.dch c
  let drain := 48 ≤ q.wq.length || (q.draining && 16 < q.wq.length)
  let d := if drain = q.draining then d else d.modDch c fun q => { q with draining := drain }
  if drain || q.rq = [] then d.popWrite c else d.popRead c

/-- Every channel issues one request: what the controller does while no command comes (log entry 1). -/
def Dev.dramTick (d : Dev) : Dev :=
  d.dram.chs.foldl (fun d q => if q.2.wq = [] && q.2.rq = [] then d else d.dramServe q.1) d

/-- Both queues of every channel are drained (R397). -/
def Dev.dramDrain (d : Dev) : Dev :=
  d.dram.chs.foldl (fun d q =>
    let d := (List.range q.2.wq.length).foldl (fun d _ => d.popWrite q.1) d
    (List.range q.2.rq.length).foldl (fun d _ => d.popRead q.1) d) d

/-- Two sets of bytes for one line, the later over the earlier. -/
def mergeLine (old new : List (Option Byte)) : List (Option Byte) :=
  (List.range 64).map fun i => (new.getD i none).or (old.getD i none)

/-- A write arrives: merged into its line's entry, or queued while there is room (R398, R400). -/
def Dev.dramWrite (d : Dev) (a : Nat) (l : List (Option Byte)) : Dev :=
  let line := a / 64
  d.modDch (chanOf a) fun q =>
    if q.wq.any fun e => e.1 = line then { q with wq := q.wq.map fun e => if e.1 = line then (line, mergeLine e.2 l) else e }
    else if q.wq.length < 64 then { q with wq := q.wq ++ [(line, mergeLine [] l)] }
    else q

/-- A read arrives: a line wholly in the write queue is answered from there, any other waits in the read queue while there is room;
its data are those of the last write that reached the controller before it (R398, R400). -/
def Dev.dramRead (d : Dev) (a : Nat) : Dev :=
  let line := a / 64
  let data := d.rdN (64 * line) 64
  let whole : Bool := match d.queued a with
    | some l => (List.range 64).all fun i => (l.getD i none).isSome
    | none => false
  d.modDch (chanOf a) fun q =>
    if whole then { q with lastRead := some (line, data) }
    else if q.rq.length < 64 then { q with rq := q.rq ++ [(line, 0, data)] }
    else q

/-- The DRAM takes requests: its channels are trained and not in self-refresh (R393, R397). -/
def Dev.dramUp (d : Dev) (c : Nat) : Bool := d.working && d.clocked 5 && bit (d.fld R.DRC_STATUS F.DRC_STATUS_trained) c

/-- DRAM_REQUEST: a request that finds its queue full waits outside (R398). -/
def execDramRequest (addr : Nat) (write : Option (List (Option Byte))) (s : State) : Host.Outcome State Fault Refusal :=
  onDev s fun d =>
    if addr < dramBase || dramBase + 4 * 2 ^ 32 ≤ addr || !d.dramUp (chanOf addr) then d
    else match write with
      | some l => d.dramWrite addr l
      | none => d.dramRead addr

/-! ### Refresh and temperature (R394 to R396) -/

/-- The bank holds no queued request and no open row. -/
def DramCh.bankIdle (q : DramCh) (k : Nat) : Bool :=
  (mget q.rows k).isNone && !(q.wq.any fun e => bankOf (64 * e.1) = k) && !(q.rq.any fun e => bankOf (64 * e.1) = k)

/-- The bank the next refresh goes to: one that is 8 commands behind, else the next idle one in rotation that is not 8 ahead. -/
def DramCh.refreshPick (q : DramCh) (rank : Nat) : Option Nat :=
  let debt := fun (b : Nat) => mgetD q.debt (16 * rank + b) 0
  let last := mgetD q.rot rank 15
  ((List.range 16).find? fun b => debt b ≤ -128).or
    (((List.range 16).map fun i => (last + 1 + i) % 16).find? fun b => q.bankIdle (16 * rank + b) && decide (debt b < 128))

/-- DRAM_REFRESH_COMMAND: each bank's share grows by one sixteenth of a command, the chosen bank receives one (R394). -/
def execDramRefreshCommand (ch rank : Nat) (s : State) : Host.Outcome State Fault Refusal :=
  onDev s fun d =>
    if 8 ≤ ch || 5 ≤ rank || !d.dramUp ch then d
    else d.modDch ch fun q =>
      let pick := q.refreshPick rank
      let debt := (List.range 16).foldl (fun m b =>
        mput m (16 * rank + b) (max (-128) (mgetD m (16 * rank + b) 0 - 1 + if pick = some b then 16 else 0))) q.debt
      match pick with
      | some b => { q with debt := debt, rot := mput q.rot rank b, rows := mdel q.rows (16 * rank + b) }
      | none => { q with debt := debt }

/-- After self-refresh every bank has received its burst of refresh commands; no row is open (R397). -/
def Dev.dramWake (d : Dev) : Dev :=
  { d with dram := { d.dram with chs := mmap d.dram.chs fun _ q => { q with rows := [], debt := [], draining := false } } }

/-- The hottest of the five dies, with its reading. -/
def hottest (t : List Int) : Nat × Int :=
  (List.range 5).foldl (fun acc i => if acc.2 < t.getD i 0 then (i, t.getD i 0) else acc) (0, t.getD 0 0)

/-- DRAM_TEMP_SAMPLE (R395, R396). -/
def execDramTempSample (temps : List Int) (s : State) : Host.Outcome State Fault Refusal :=
  onDev s fun d =>
    if !d.working then d
    else
      let t := fun (i : Nat) => temps.getD i 0
      let top := hottest temps
      let hot := (List.range 5).filter fun i => decide (85 < t i) || (d.dram.hot.contains i && decide (82 < t i))
      let b := fun (i : Nat) => toU (t i) 8
      let d := d.setReg R.DRC_TEMP0 (b 0 + 2 ^ 8 * b 1 + 2 ^ 16 * b 2 + 2 ^ 24 * b 3)
      let d := d.setReg R.DRC_TEMP1 (b 4 + 2 ^ 8 * toU top.2 8)
      let d := d.setFld R.DRC_STATUS F.DRC_STATUS_refresh_x2 (b2n (hot ≠ []))
      let d := { d with dram := { d.dram with hot := hot } }
      let on := if d.dram.throttled then decide (97 < top.2) else decide (100 < top.2)
      if on = d.dram.throttled then d
      else
        let d := { d with dram := { d.dram with throttled := on } }
        (d.setFld R.DRC_STATUS F.DRC_STATUS_throttled (b2n on)).health Ev.dramTemp.code 0 top.1 (toU top.2 64) (b2n on)

/-! ### Migration (R404 to R411) -/

/-- A codeword as the copy writes it into the spare: corrected data, its poison and compressed bits kept, mig_gen 1; an
uncorrectable one with the data as read and the poison bit (R406, R407). -/
def Dev.copyCw (d : Dev) (src dst : Nat) : Dev :=
  let m := d.mem
  let tag : Byte := if m.judge src = .bad then 5 else (m.tag src &&& 3) ||| 4
  let data := (List.range 32).map fun i => m.byte (32 * src + i)
  let cells := data.zipIdx.foldl (fun c x => mset c (32 * dst + x.2) 0 x.1) m.cells
  let d := { d with mem := { m with cells := cells, tags := mset m.tags dst 0 tag, chk := mdel m.chk dst,
                                    wback := m.wback.filter (· ≠ dst) } }
  d.noteCw false src

/-- One line of the migrating rank is copied: its queued write goes to the old rank first (R406). -/
def Dev.migrateLine (d : Dev) (c : Nat) : Dev :=
  let r := d.fld (R.DRC_CH_MAP c) F.DRC_CH_MAP_mig_rank
  let p := d.fld (R.DRC_CH_MIG c) F.DRC_CH_MIG_ptr
  let a := dramBase + r * 2 ^ 32 + 512 * p + 64 * c
  let die := d.mapDie c r
  let d := match (d.dch c).wq.find? fun e => e.1 = a / 64 with
    | some e => (d.modDch c fun q => { q with wq := q.wq.erase e }).writeCells (lineBytesAt e.1 e.2)
    | none => d
  let cw := fun (k : Nat) => dramPlace k (a - dramBase) / 32
  let d := [0, 1].foldl (fun d i => d.copyCw (cw die + i) (cw 4 + i)) d
  if p + 1 < 2 ^ 23 then d.setFld (R.DRC_CH_MIG c) F.DRC_CH_MIG_ptr (p + 1)
  else
    let d := d.setFld (R.DRC_CH_MAP c) ⟨3 * r, 3⟩ 4
    let d := d.setFld (R.DRC_CH_MAP c) F.DRC_CH_MAP_spare 2
    let d := d.setFld (R.DRC_CH_MIG c) F.DRC_CH_MIG_ptr 0
    ((d.recordRank c).health Ev.dramRank.code 0 c r 1).spareCheck c r

/-- MIGRATION_LINE_COPY (R406 to R408, R411). -/
def execMigrationLineCopy (ch : Nat) (s : State) : Host.Outcome State Fault Refusal :=
  onDev s fun d =>
    if ch < 8 && d.dramUp ch && d.fld (R.DRC_CH_MAP ch) F.DRC_CH_MAP_spare = 1 && !d.flag (R.DRC_CH_MAP ch) F.DRC_CH_MAP_frozen then
      d.migrateLine ch
    else d

/-- mig_gen of a line of the spare, from codeword A, or from codeword B when A is uncorrectable (R409). -/
def Dev.migGen (d : Dev) (c line : Nat) : Bool :=
  let cw := dramPlace 4 (512 * line + 64 * c) / 32
  let t := if d.mem.judge cw = .bad then d.mem.tag (cw + 1) else d.mem.tag cw
  t.getLsbD 2

/-- The binary search for the lowest line with mig_gen 0, in [lo, hi) (R409). -/
def Dev.migSearch (d : Dev) (c : Nat) : Nat → Nat → Nat → Nat
  | 0, lo, _ => lo
  | n + 1, lo, hi =>
    if hi ≤ lo then lo
    else
      let mid := (lo + hi) / 2
      if d.migGen c mid then d.migSearch c n (mid + 1) hi else d.migSearch c n lo mid

/-- The pointers of migrating channels are found again after a level-3 reset, Night or power-on (R409). -/
def Dev.migResume (d : Dev) : Dev :=
  (List.range 8).foldl (fun d c =>
    if d.fld (R.DRC_CH_MAP c) F.DRC_CH_MAP_spare = 1 then
      d.setFld (R.DRC_CH_MIG c) F.DRC_CH_MIG_ptr (min (2 ^ 23 - 1) (d.migSearch c 24 0 (2 ^ 23)))
    else d) d

/-- Training: the channels named fail and stay out of service, with a record each (R393). -/
def Dev.dramTrain (d : Dev) (failed : List Nat) : Dev :=
  let bad := (List.range 8).filter failed.contains
  let d := d.setFld R.DRC_STATUS F.DRC_STATUS_trained
    (((List.range 8).filter fun c => !bad.contains c).map (2 ^ ·)).sum
  bad.foldl (fun d c => d.health Ev.dramRank.code 0 c 0 4) d

/-- Every line of every rank holds zero data and a valid codeword, with mig_gen 1 in the lines of a spare in service (R392). A
codeword that is not listed is such a codeword with every tag bit 0; mig_gen of a spare's whole rank is read nowhere while the spare
is in service, and is not listed. -/
def Dev.dramInit (d : Dev) : Dev :=
  let low := fun (k : Nat) => decide (k < 2 ^ 48)
  { d with mem := { d.mem with
      cells := d.mem.cells.filter (fun c => low c.1), tags := d.mem.tags.filter (fun c => low (32 * c.1)),
      chk := d.mem.chk.filter (fun c => low (32 * c.1)), wback := d.mem.wback.filter fun c => low (32 * c) } }

/-! ### Patrol scrubs (R243, R401) -/

/-- One line of the pass on a channel: the rank's die, and the spare while it serves no rank. -/
def Dev.scrubDie (d : Dev) (c rank : Nat) : Option Nat :=
  if rank < 4 then (if d.mapDie c rank = 7 then none else some (d.mapDie c rank))
  else if d.fld (R.DRC_CH_MAP c) F.DRC_CH_MAP_spare ≤ 1 then some 4 else none

/-- DRAM_SCRUB_READ: the next line on every channel; the operand names the channels where a rewritten codeword reads back
uncorrectable (R401 to R403). -/
def execDramScrubRead (badReadBack : List Nat) (s : State) : Host.Outcome State Fault Refusal :=
  onDev s fun d =>
    if !d.working then d
    else
      let line := d.fld R.DRC_SCRUB F.DRC_SCRUB_line
      let rank := d.fld R.DRC_SCRUB F.DRC_SCRUB_rank
      let d := ((List.range 8).filter d.dramUp).foldl (fun d c =>
        match d.scrubDie c rank with
        | none => d
        | some die =>
          let cw := dramPlace die (512 * line + 64 * c) / 32
          [0, 1].foldl (fun d i => d.noteCw (badReadBack.contains c) (cw + i)) d) d
      if line + 1 < 2 ^ 23 then d.setFld R.DRC_SCRUB F.DRC_SCRUB_line (line + 1)
      else
        let d := d.setFld R.DRC_SCRUB F.DRC_SCRUB_line 0
        if rank < 4 then d.setFld R.DRC_SCRUB F.DRC_SCRUB_rank (rank + 1)
        else (d.setFld R.DRC_SCRUB F.DRC_SCRUB_rank 0).wrapFld R.DRC_SCRUB F.DRC_SCRUB_passes 1

/-- Codewords of a store's patrol scrub: an M-die's cabinets, then its cores' operand stores; the stream store's. -/
def scrubSize (store : Nat) : Nat := if store = 2 then 0x80000 else 0x1A0000

def scrubCw (store i : Nat) : Nat :=
  if store = 2 then sstBase / 32 + i
  else if i < 0x180000 then store * 0x200000 + i
  else opBase (4 * store) / 32 + (i - 0x180000)

/-- CABINET_SCRUB_READ (R243). -/
def execCabinetScrubRead (store : Nat) (s : State) : Host.Outcome State Fault Refusal :=
  onDev s fun d =>
    if 3 ≤ store || !d.working then d
    else
      let i := mgetD d.mem.scrub store 0
      let d := d.noteCw false (scrubCw store i)
      { d with mem := { d.mem with scrub := mput d.mem.scrub store ((i + 1) % scrubSize store) } }

/-- CORRECTION_WRITEBACK: the oldest write-back that is due (R240). -/
def execCorrectionWriteback (s : State) : Host.Outcome State Fault Refusal :=
  onDev s fun d => match d.mem.wback with
    | [] => d
    | cw :: _ => if d.working then d.writeBack cw else d

end Sys2Proof.Machine
end

