-- ==== Sys2Proof/Machine/Mirror.lean ====
section
/-!
DEFINITION. Stream protection (R460 to R463): the step delta, its application on the standby side, promotion. The order of the
items in a delta and the places of their fields are the model's (log entry 19).
-/

namespace Sys2Proof.Machine

/-! ### The step delta (Table Step delta) -/

/-- Sequence sets of a stream's context. -/
def Dev.streamSets (d : Dev) (s : Stream) : List SeqSet :=
  let cs := s.schedCtx.toList ++ (s.cur.map (·.bind.ctx)).toList
  d.sets.filter fun y => cs.contains y.ctx

/-- A slot with the positions it appended: byte 254 its number, byte 255 how many positions follow. -/
def Dev.deltaSlot (d : Dev) (h : SetH) (s t : Nat) : List Byte :=
  let a := h.slot s t
  let len := d.tblLen a
  let n := if bit (d.slotStatus a) 1 then 0 else min h.step len
  patch (d.rdN a 254 ++ [0, 0]) 254 [BitVec.ofNat 8 t, BitVec.ofNat 8 n] ++
    (List.range n).flatMap fun i =>
      let p := len - n + i
      d.rdN (d.bufAddr (d.tblEntry a (p / 32)) + 128 * (p % 32)) 128

/-- A set's stream block, its req_id and slot count, and its live slots. -/
def Dev.deltaSet (d : Dev) (y : SeqSet) (s : Nat) : List Byte :=
  let h := d.setH y.base
  let live := (List.range h.q).filter fun t => d.live (h.slot s t)
  d.rdN (h.block s + 80) 29 ++ toLE 2 y.req ++ toLE 1 live.length ++ live.flatMap fun t => d.deltaSlot h s t

/-- The delta of frame f of a stream. -/
def Dev.stepDelta (d : Dev) (id f epoch : Nat) (s : Stream) : List Byte :=
  let sets := d.streamSets s
  padTo (toLE 4 f ++ toLE 2 epoch ++ toLE 1 (b2n s.fallback) ++ toLE 1 s.budget ++ toLE 2 s.holdCount ++ toLE 2 sets.length ++
    toLE 4 s.nextFrame) 32 ++ padTo (s.save.flatMap fun w => toLE 4 w.toNat) 96 ++ sets.flatMap fun y => d.deltaSet y id

/-- STEP_DELTA leaves for the partner once the index covering frame f has been written (R460). -/
def Dev.sendDelta (d : Dev) (id f epoch : Nat) : Dev :=
  match d.mirrorTo id, d.stream? id with
  | some e, some s => d.transfer e.standbyDev 4 e.standbyStream f epoch (d.stepDelta id f epoch s)
  | _, _ => d

/-- Every mirrored chunk of the stream is one frame: telemetry steps and JPEG stills; they are numbered as they come. -/
def Stream.counted (s : Stream) : Bool := s.kind = 3 || ((s.latest).map fun e => decide (e.codec.codec = 2)).getD false

/-! ### Applying a delta (R461) -/

/-- Pages from the spill pool until there are n of them; none when the pool is empty. -/
def Dev.morePages (d : Dev) (pool : Nat) : Nat → List Nat → Option (List Nat) × Dev
  | 0, ps => (some ps, d)
  | n + 1, ps =>
    match d.pop pool 1 with
    | (some h, d) => d.morePages pool n (ps ++ [h])
    | (none, d) => (none, d)

/-- The page that takes position p is held by this slot alone, or replaced by a copy. -/
def Dev.ownPage (d : Dev) (pool : Nat) (ps : List Nat) (i : Nat) : List Nat × Dev :=
  let h := ps.getD i 0
  if d.pageCount h ≤ 1 then (ps, d)
  else match d.pop pool 1 with
    | (some n, d) => (ps.set i n, (d.writeRun (d.bufAddr n) (d.rdN (d.bufAddr h) 4096)).refDec h)
    | (none, d) => (ps, d)

/-- One slot of a delta and its positions. -/
def Dev.applySlot (d : Dev) (h : SetH) (s : Nat) (b : List Byte) (pos : List (List Byte)) : Dev :=
  let a := h.slot s (byteAt b 254)
  let len := le b 0 4
  let need := cdiv len 32
  let parent := byteAt b 253
  let same := d.live a && d.rdLE (a + 248) 4 = le b 248 4
  let d := if d.live a && !same then d.slotRelease a else d
  let old := if same then d.slotPages a
    else if parent < h.q && d.live (h.slot s parent) then (d.slotPages (h.slot s parent)).take need else []
  let d := if same then d else old.foldl Dev.refInc d
  let gone := if same then le b 240 4 - d.rdLE (a + 240) 4 else 0
  let d := (old.take gone).foldl Dev.refDec d
  let kept := old.drop gone
  let r := d.morePages h.spill (need - kept.length) kept
  match r.1 with
  | none => r.2
  | some ps =>
    let d := r.2
    let first := (len - pos.length) / 32
    let x := (List.range (need - first)).foldl (fun (x : List Nat × Dev) i => x.2.ownPage h.spill x.1 (first + i)) (ps, d)
    let d := (pos.zipIdx).foldl (fun d p =>
      let q := len - pos.length + p.2
      d.writeRun (d.bufAddr (x.1.getD (q / 32) 0) + 128 * (q % 32)) p.1) x.2
    let d := d.writeRun a (b.take 4 ++ zeros 12 ++ padTo (x.1.flatMap (toLE 4)) 224)
    d.writeRun (a + 240) (slice b 240 13 ++ [BitVec.ofNat 8 parent])

/-- The slots of one set of a delta, with fuel for their number; what is left of the bytes. -/
def Dev.applySlots (d : Dev) (h : Option SetH) (s : Nat) : Nat → List Byte → List Nat → Dev × List Byte
  | 0, b, seen =>
    match h with
    | some h => ((List.range h.q).foldl (fun d t =>
        if d.live (h.slot s t) && !seen.contains t then d.slotRelease (h.slot s t) else d) d, b)
    | none => (d, b)
  | n + 1, b, seen =>
    let k := byteAt b 255
    let pos := (List.range k).map fun i => slice b (256 + 128 * i) 128
    let d := match h with
      | some h => d.applySlot h s (b.take 256) pos
      | none => d
    d.applySlots h s n (b.drop (256 + 128 * k)) (byteAt b 254 :: seen)

/-- The sets of a delta. -/
def Dev.applySets (d : Dev) (id : Nat) (s : Stream) : Nat → List Byte → Dev
  | 0, _ => d
  | n + 1, b =>
    let h := ((d.streamSets s).find? fun y => y.req = le b 29 2).map fun y => d.setH y.base
    let d := match h with
      | some h => d.writeRun (h.block id + 80) (b.take 29)
      | none => d
    let r := d.applySlots h id (byteAt b 31) (b.drop 32) []
    r.1.applySets id s n r.2

/-- A delta is applied: the stream's states, its save area, its sequences; input up to the frame is no longer needed where each
chunk is a frame (R460, R461). -/
def Dev.applyDelta (d : Dev) (id : Nat) (b : List Byte) : Dev :=
  match d.stream? id with
  | none => d
  | some s =>
    let f := le b 0 4
    let save := (List.range 24).map fun i => BitVec.ofNat 32 (le b (32 + 4 * i) 4)
    let y := mgetD d.fab.standby id {}
    let d := { d with fab := { d.fab with standby := mput d.fab.standby id { y with deltaFrame := some f } } }
    let d := d.modStream id fun s => { s with
      fallback := byteAt b 6 = 1, budget := byteAt b 7, holdCount := le b 8 2, save := save,
      relNext := (f + 1) % 2 ^ 32, lastIndexed := some f }
    let d := d.applySets id s (le b 10 2) (b.drop 128)
    if s.counted then
      let next := le b 12 4
      let n := s.chunks.length
      let chunks := s.chunks.zipIdx.map fun c => { c.1 with num := some ((next + 2 ^ 32 - n + c.2) % 2 ^ 32) }
      let d := d.modStream id fun s => { s with chunks := chunks, nextFrame := next }
      (chunks.filter fun c => match c.num with
        | some n => (f + 2 ^ 32 - n) % 2 ^ 32 < 2 ^ 31
        | none => false).foldl (fun d c => d.dropChunk id c) d
    else d

/-! ### Promotion (R462) -/

/-- The spill pages of a stream's slots move into the page pool, one page for one page. -/
def Dev.restorePages (d : Dev) (h : SetH) (s : Nat) : Dev :=
  let slots := (List.range h.q).filter fun t => d.live (h.slot s t)
  let pages := dedup (slots.flatMap fun t => (d.slotPages (h.slot s t)).filter fun p => hPool p = h.spill && h.spill ≠ 0xFF)
  pages.foldl (fun d p =>
    match d.pop h.pool 1 with
    | (none, d) => d
    | (some n, d) =>
      let uses := slots.flatMap fun t => ((d.slotPages (h.slot s t)).zipIdx.filter fun x => x.1 = p).map fun x =>
        h.slot s t + 16 + 4 * x.2
      let d := d.writeRun (d.bufAddr n) (d.rdN (d.bufAddr p) 4096)
      let d := uses.foldl (fun d a => d.writeRun a (toLE 4 n)) d
      let d := (List.range (uses.length - 1)).foldl (fun d _ => d.refInc n) d
      uses.foldl (fun d _ => d.refDec p) d) d

/-- A telemetry step whose input was mirrored becomes a frame of the promoted stream. -/
def Dev.takeOver (d : Dev) (id : Nat) (s : Stream) : Dev :=
  s.chunks.foldl (fun d c =>
    match s.epoch? c.epoch with
    | none => d
    | some ep =>
      let d := (d.modStream id fun s => { s with chunks := s.chunks.erase c }).adoptEpoch id ep
      let r := d.takeNum id 0
      let p := ep.shaper.inPool
      let f : Frame := { stream := id, num := r.1, ep := ep, stamp := c.stamp, st := .arrived, ctx := ep.bind.ctx,
                         buf := some c.handle, listOff := (r.2.listBase p + 8192 * hIdx c.handle - sstBase) / 256 }
      { r.2 with sched := { r.2.sched with frames := r.2.sched.frames ++ [f] } }) d

/-- The standby side of entry j takes the stream over. -/
def Dev.promote (d : Dev) (j : Nat) (e : GEntry) : Dev :=
  let id := e.standbyStream
  match d.stream? id with
  | none => d
  | some s =>
    let y := mgetD d.fab.standby id {}
    let d := (d.streamSets s).foldl (fun d x => d.restorePages (d.setH x.base) id) d
    let start := match (s.chunks.head?).bind (·.num) with
      | some n => n
      | none => ((y.deltaFrame.map fun f => (f + 1) % 2 ^ 32)).getD s.nextFrame
    let d := if e.warm && !s.counted then d else d.modStream id fun s => { s with nextFrame := start, numAhead := [] }
    let d := (d.modEntry j fun e => { e with activeHome := !e.activeHome }).syncProtect
    let d := { d with fab := { d.fab with standby := mput d.fab.standby id { y with fresh := true } } }
    let d := if s.kind = 3 then d.takeOver id s
      else if s.counted then { d with jpeg := { d.jpeg with queue := d.jpeg.queue ++ s.chunks.map fun c => (id, c) } }
      else d
    d.health Ev.promoted.code 0 id 0 0

/-- Every entry whose active side is device t and whose standby side is here, with its number. -/
def Dev.standbyOf (d : Dev) (t : Nat) : List (Nat × GEntry) :=
  match d.fab.map with
  | some m => (m.entries.zipIdx.filter fun e => e.1.activeDev = t && e.1.standbyDev = m.self).map fun e => (e.2, e.1)
  | none => []

end Sys2Proof.Machine
end

