-- ==== Sys2Proof/Machine/FabricCmd.lean ====
section
/-!
DEFINITION. Goldom commands (R448 to R464): joining and leaving a group, flits and link control, retrains, peer notices, the
mirrored packets of a protected stream, and the ports' shut-down.
-/

namespace Sys2Proof.Machine

/-! ### The group map (R454, R456, R457) -/

/-- Table Group map, of its bytes. -/
def parseMap (b : List Byte) (self : Nat) : GMap :=
  let n := byteAt b 12
  { groupId := le b 4 4, gen := le b 8 4, size := n, topo := byteAt b 13, x := byteAt b 14, y := byteAt b 15, self := self,
    devs := (List.range n).map fun i =>
      let o := 32 + 32 * i
      { serial := le b o 8, peers := (List.range 4).map fun k => byteAt b (o + 8 + k),
        peerPorts := (List.range 4).map fun k => byteAt b (o + 12 + k) },
    entries := (List.range (le b 16 2)).map fun j =>
      let o := 32 + 32 * n + 16 * j
      { homeStream := le b o 2, homeDev := byteAt b (o + 2), partDev := byteAt b (o + 3), partStream := le b (o + 4) 2,
        warm := byteAt b (o + 6) = 1, activeHome := byteAt b (o + 7) = 0, prot := true } }

/-- Neighbour of device i on port k of a ring or torus, with the port it sits on there; none: the port is not used. -/
def GMap.wired (m : GMap) (i k : Nat) : Option (Nat × Nat) :=
  let X := m.dims.1
  let Y := m.dims.2
  let x := i % X
  let y := i / X
  if m.topo = 0 ∧ 2 ≤ k then none
  else if k = 0 then some ((x + 1) % X + X * y, 1)
  else if k = 1 then some ((x + X - 1) % X + X * y, 0)
  else if k = 2 then some (x + X * ((y + 1) % Y), 3)
  else some (x + X * ((y + Y - 1) % Y), 2)

/-- Table Group wiring holds for device i. -/
def GMap.wireOk (m : GMap) (i : Nat) : Bool :=
  match m.devs[i]? with
  | none => false
  | some v =>
    if m.topo = 2 then
      ((List.range m.size).all fun j => j = i || (v.peers.filter (· = j)).length = 1) &&
      (List.range 4).all fun k =>
        let p := v.peers.getD k 0xFF
        p = 0xFF || (p < m.size && p ≠ i && (match m.devs[p]? with
          | some w =>
            let pp := v.peerPorts.getD k 0xFF
            w.peers[pp]? = some i && w.peerPorts[pp]? = some k
          | none => false))
    else (List.range 4).all fun k => match m.wired i k with
      | some (p, pp) => v.peers[k]? = some p && v.peerPorts[k]? = some pp
      | none => v.peers[k]? = some 0xFF

/-- The sizes Table Group wiring allows. -/
def GMap.sizeOk (m : GMap) : Bool :=
  if m.topo = 0 then 2 ≤ m.size && m.size ≤ 32 && m.x = 0 && m.y = 0
  else if m.topo = 1 then m.size = m.x * m.y && 2 ≤ m.x && m.x ≤ 4 && 2 ≤ m.y && m.y ≤ 8
  else m.topo = 2 && 2 ≤ m.size && m.size ≤ 5 && m.x = 0 && m.y = 0

/-- A stream entry of the map. -/
def GMap.entryOk (m : GMap) (e : GEntry) : Bool := e.homeDev < m.size && e.partDev < m.size && e.homeDev ≠ e.partDev

/-- The bytes obey Table Group map and the map Table Group wiring. -/
def mapOk (b : List Byte) (m : GMap) : Bool :=
  let n := m.size
  let E := le b 16 2
  slice b 0 4 = [0x5A, 0x56, 0x47, 0x4D] && n ≤ 32 && E ≤ 256 && allZero b 18 32 && m.sizeOk &&
  ((List.range n).all fun i => allZero b (48 + 32 * i) (64 + 32 * i)) &&
  ((List.range E).all fun j =>
    let o := 32 + 32 * n + 16 * j
    byteAt b (o + 6) ≤ 1 && byteAt b (o + 7) ≤ 1 && allZero b (o + 8) (o + 16)) &&
  m.entries.all m.entryOk && (List.range n).all m.wireOk

/-- Entries that name this device name a stream of kind 0 or 3 that exists (R457). -/
def Dev.entriesOk (d : Dev) (m : GMap) : Bool :=
  let here := fun (id : Nat) => match d.stream? id with
    | some s => s.kind = 0 || s.kind = 3
    | none => false
  m.entries.all fun e => (e.homeDev ≠ m.self || here e.homeStream) && (e.partDev ≠ m.self || here e.partStream)

/-- Ports that the map gives a peer. -/
def GMap.named (m : GMap) : List Nat := [0, 1, 2, 3].filter fun k => m.peer m.self k ≠ 0xFF

/-- Port k leads to the same device under both maps. -/
def samePeer (old new : GMap) (k : Nat) : Bool :=
  let who := fun (m : GMap) => (m.devs[m.peer m.self k]?).map (·.serial)
  (who old).isSome && who old = who new

/-! ### Ports that train (R451, R457) -/

/-- IDENT leaves a trained port: the serial in arg_a, the device ID in the header (log entry 19). -/
def Dev.sendIdent (d : Dev) (k : Nat) : Dev :=
  match d.fab.join.or d.fab.map with
  | some m => d.enqueue k (m.packet (m.peer m.self k) 7 0xFFFF 0 d.nv.serial 0 [])
  | none => d

/-- A port starts afresh and is to train. -/
def Dev.portStart (d : Dev) (k : Nat) : Dev :=
  let d := d.setFld (R.FAB_PORT_STATUS k) F.FAB_PORT_STATUS_up 0
  let d := d.setFld (R.FAB_PORT_STATUS k) F.FAB_PORT_STATUS_svc 1
  d.modFport k fun _ => { training := true, tryAt := d.now }

/-- A port is trained: what has not been acknowledged is replayed, and IDENT is sent (R451). -/
def Dev.portTrained (d : Dev) (k : Nat) : Dev :=
  let d := d.setFld (R.FAB_PORT_STATUS k) F.FAB_PORT_STATUS_up 1
  let d := d.modFport k fun P => { P with fails := 0, naks := 0, training := false }
  let d := (d.fport k).replay.foldl (fun d x => d.sendPkt k x.1 x.2) d
  (Dev.pump k (d.fport k).queue.length d).sendIdent k

/-- The buffer that a packet of another port held is free again. -/
def Dev.creditBack (d : Dev) (p : FPkt) : Dev :=
  match p.src with
  | some s => d.sendCtl s.1 3 0 s.2 1
  | none => d

/-- A port goes down: packets that wait for it are dropped and counted. -/
def Dev.portDown (d : Dev) (k : Nat) : Dev :=
  let q := (d.fport k).queue
  let d := d.setFld (R.FAB_PORT_STATUS k) F.FAB_PORT_STATUS_up 0
  let d := (d.modFport k fun P => { P with queue := [], training := false, tryAt := d.now }).satFld (R.FAB_PORT_ERR k)
    F.FAB_PORT_ERR_dropped q.length
  q.foldl Dev.creditBack d

/-- A retrain fails; the third failure takes the port down. -/
def Dev.portFailed (d : Dev) (k : Nat) (last : Bool) : Dev :=
  let n := (d.fport k).fails + 1
  let d := d.modFport k fun P => { P with fails := n, training := true }
  if last || 3 ≤ n then d.portDown k else d

/-! ### Installing a map (R456, R457, R462) -/

/-- Entries whose active device is absent from a new map are promoted here. -/
def Dev.promoteAbsent (d : Dev) (m : GMap) : Dev :=
  match d.fab.map with
  | none => d
  | some old =>
    (old.entries.zipIdx.filter fun e => e.1.standbyDev = old.self &&
      !(m.devs.any fun v => ((old.devs[e.1.activeDev]?).map (·.serial)) = some v.serial)).foldl (fun d e => d.promote e.2 e.1) d

/-- The map is in force. -/
def Dev.installMap (d : Dev) (m : GMap) : Dev :=
  let d := d.promoteAbsent m
  let mine := m.entries.filter fun e => e.standbyDev = m.self
  let st := mine.foldl (fun s e => mput s e.standbyStream (mgetD d.fab.standby e.standbyStream {})) []
  let d := { d with fab := { d.fab with map := some m, join := none, joinWait := [], seen := [], standby := st } }
  let d := d.setFld R.FAB_GROUP F.FAB_GROUP_id m.self
  let d := d.setFld R.FAB_GROUP F.FAB_GROUP_size m.size
  let d := d.setFld R.FAB_GROUP F.FAB_GROUP_topology m.topo
  let d := d.setFld R.FAB_GROUP F.FAB_GROUP_gen (m.gen % 2 ^ 19)
  let d := d.setReg R.FAB_PEERS 0
  let d := ([0, 1, 2, 3].filter fun k => !m.named.contains k).foldl (fun d k =>
    (d.portDown k).setFld (R.FAB_PORT_STATUS k) F.FAB_PORT_STATUS_svc 0) d
  (d.setFld R.FAB_PROTECT F.FAB_PROTECT_unprotected 0).syncProtect

/-- Every port that trains has been heard of: the join completes, or the rejoin and UP is sent (R457, R459). -/
def Dev.joinSettle (d : Dev) : Dev :=
  if d.fab.joinWait ≠ [] then d
  else match d.fab.join with
    | some m => (d.installMap m).endCmds (fun c => c.op = 0x31) 0
    | none =>
      if d.fab.rejoin then
        let d := { d with fab := { d.fab with rejoin := false } }
        d.notice 2 ((d.fab.map.map (·.self)).getD 0) 0xFFFF none
      else d

/-- Port k no longer holds up a join. -/
def Dev.joinHeard (d : Dev) (k : Nat) : Dev :=
  if d.fab.joinWait.contains k then
    ({ d with fab := { d.fab with joinWait := d.fab.joinWait.filter (· ≠ k) } }).joinSettle
  else d

/-- A peer is not the one of the map: the join fails and changes nothing; ports of no map are off again (R457). -/
def Dev.joinFail (d : Dev) : Dev :=
  match d.fab.join with
  | none => d
  | some _ =>
    let keep := (d.fab.map.map (·.named)).getD []
    let d := { d with fab := { d.fab with join := none, joinWait := [] } }
    let d := ([0, 1, 2, 3].filter fun k => !keep.contains k).foldl (fun d k =>
      (d.portDown k).setFld (R.FAB_PORT_STATUS k) F.FAB_PORT_STATUS_svc 0) d
    d.endCmds (fun c => c.op = 0x31) Code.descInvalid.num

/-- GROUP_JOIN (R456, R457). While one join waits for its ports, no other is fetched. -/
def execGroupJoin (q : Nat) (e : List Byte) (data : List Byte) (s : State) : Host.Outcome State Fault Refusal :=
  if s.d.fab.join.isSome then onDev s id
  else onCmd s 0x31 q e fun d =>
    let b := padTo data (eLen e)
    let m := parseMap b (byteAt e 16)
    let own := (m.devs[m.self]?).map (·.serial)
    if eLen e < 32 + 32 * m.size + 16 * le b 16 2 || byteAt e 17 ≠ m.size || own ≠ some d.nv.serial || !mapOk b m ||
        !d.entriesOk m then d.reply q e Code.descInvalid.num
    else
      let old : Bool := match d.fab.map with
        | some o => decide (o.groupId = m.groupId ∧ m.gen ≤ o.gen)
        | none => false
      if old then d.reply q e Code.epochMismatch.num
      else
        let kept := fun (k : Nat) => d.portUp k && (match d.fab.map with
          | some o => samePeer o m k
          | none => false)
        let wait := m.named.filter fun k => d.flag (R.FAB_PORT_CTL k) F.FAB_PORT_CTL_enable && !kept k
        let d := wait.foldl Dev.portStart (d.keepCmd q e 0)
        ({ d with fab := { d.fab with join := some m, joinWait := wait } }).joinSettle

/-- The port stops: what waits for it drains first (R464). -/
def Dev.portStop (d : Dev) (k : Nat) : Dev :=
  if d.fld (R.FAB_PORT_STATUS k) F.FAB_PORT_STATUS_svc ≠ 1 then d
  else if d.portUp k then (d.setFld (R.FAB_PORT_STATUS k) F.FAB_PORT_STATUS_svc 2).portDrained k
  else (d.portDown k).setFld (R.FAB_PORT_STATUS k) F.FAB_PORT_STATUS_svc 0

/-- Entries that name device t and this device become unprotected. -/
def Dev.unprotectWith (d : Dev) (t : Nat) : Dev :=
  match d.fab.map with
  | none => d
  | some m =>
    (m.entries.zipIdx.filter fun e => (e.1.homeDev = t || e.1.partDev = t) && (e.1.homeDev = m.self || e.1.partDev = m.self)).foldl
      (fun d e => d.unprotect e.2 (if e.1.homeDev = m.self then e.1.homeStream else e.1.partStream)) d

/-- GROUP_LEAVE (R464). -/
def execGroupLeave (q : Nat) (e : List Byte) (s : State) : Host.Outcome State Fault Refusal :=
  onCmd s 0x32 q e fun d =>
    let self := (d.fab.map.map (·.self)).getD 0
    let d := (d.notice 3 self 0xFFFF none).unprotectWith self
    let d := [0, 1, 2, 3].foldl Dev.portStop d
    let d := { d with fab := { d.fab with map := none, standby := [], seen := [], rejoin := false } }
    let d := (d.setReg R.FAB_GROUP 0).setReg R.FAB_PEERS 0
    d.syncProtect.reply q e 0

/-! ### Mirrored packets (R460 to R462) -/

/-- ACK to the active side. -/
def Dev.sendAck (d : Dev) (e : GEntry) : Dev := d.transfer e.activeDev 5 e.activeStream 0 0 []

/-- A mirrored chunk is taken into the standby's input and acknowledged; without its epoch or a buffer it is not. -/
def Dev.onMirrorChunk (d : Dev) (id epoch stamp : Nat) (b : List Byte) (poison : Bool) : Dev :=
  match d.standbyEntry id, d.stream? id with
  | some (_, e), some x =>
    match x.epoch? epoch with
    | none => d
    | some ep =>
      let pool := if x.kind = 3 then ep.shaper.inPool else x.chunkPool
      if x.destroying || b = [] || d.poolSize pool < b.length then d
      else match d.pop pool 1 with
        | (none, d) => d
        | (some h, d) =>
          let d := d.writeRun (d.bufAddr h) b
          let d := if poison then d.setPoison (span (d.bufAddr h) b.length) else d
          let c : Chunk := { handle := h, len := b.length, epoch := epoch, stamp := stamp, num := some x.nextFrame }
          let d := if x.counted then
              d.modStream id fun s => { s with chunks := s.chunks ++ [c], nextFrame := (s.nextFrame + 1) % 2 ^ 32 }
            else d.takeChunk id h ep stamp b
          let y := mgetD d.fab.standby id {}
          ({ d with fab := { d.fab with standby := mput d.fab.standby id { y with lastChunk := b, committed := false } } }).sendAck e
  | _, _ => d

/-- The context of an image hash and a variant. -/
def Dev.ctxFor (d : Dev) (hash : List Byte) (variant : Nat) : Option Nat :=
  (d.ctxs.find? fun c => decide (c.2.variant = variant) && decide (((mget d.images c.2.image).map (·.hash)) = some hash)).map (·.1)

/-- A mirrored CONFIG_STREAM: its binding names the contexts of the same image and variants here. A configuration that cannot
be staged, or whose image is missing, is not acknowledged (R460, log entry 19). -/
def Dev.onMirrorConfig (d : Dev) (id epoch : Nat) (b : List Byte) : Dev :=
  match d.standbyEntry id with
  | none => d
  | some (_, e) =>
    let sections := byteAt b 0
    let blk := b.drop 36
    let hash := slice b 4 32
    let fbv := byteAt b 2
    let ctx := d.ctxFor hash (byteAt b 1)
    let fb : Option Nat := if fbv = 0xFF then some 0xFF else d.ctxFor hash fbv
    let blk? : Option (List Byte) :=
      if !bit sections 2 then some blk
      else match ctx, fb with
        | some c, some f => some (patch (patch (padTo blk (max 216 blk.length)) 192 (toLE 1 c)) 196 (toLE 1 f))
        | _, _ => none
    match blk? with
    | none => d
    | some blk =>
      let r := d.stage id epoch sections blk.length blk
      if r.1 = 0 then r.2.sendAck e else r.2

/-- COMMIT: the last mirrored chunk's FEED has completed. -/
def Dev.onCommit (d : Dev) (id : Nat) : Dev :=
  { d with fab := { d.fab with standby := mmap d.fab.standby fun n y => if n = id then { y with committed := true } else y } }

/-- STEP_DELTA on the standby side. -/
def Dev.onStepDelta (d : Dev) (id : Nat) (b : List Byte) : Dev :=
  if (d.standbyEntry id).isSome then d.applyDelta id b else d

/-- The command that waits longest for the partner of a stream completes; the answer says whether it was a FEED (R460). -/
def Dev.ackDone (d : Dev) (w : Nat × Nat × Nat × Nat) : Bool × Dev :=
  let d := { d with fab := { d.fab with waitAck := d.fab.waitAck.erase w } }
  match d.que.cmds.find? fun c => c.q = w.2.1 && c.cid = w.2.2.1 with
  | none => (false, d)
  | some c =>
    let d := { d with que := { d.que with cmds := d.que.cmds.erase c } }
    (c.op = 0x23, d.complete c.q c.cid 0 (if c.op = 0x23 then toLE 4 c.arg else []))

/-- ACK on the active side: the command completes, and COMMIT follows a FEED. -/
def Dev.onAck (d : Dev) (id : Nat) : Dev :=
  match d.fab.waitAck.find? fun w => w.1 = id with
  | none => d
  | some w =>
    let r := d.ackDone w
    match r.1, r.2.mirrorTo id with
    | true, some e => r.2.sendCommit e
    | _, _ => r.2

/-- NOTICE (R459, R462, R464). -/
def Dev.onNotice (d : Dev) (k code dev id : Nat) : Dev :=
  match d.fab.map with
  | none => d
  | some m =>
    if code = 4 then
      match d.standbyEntry id with
      | some (j, e) => if e.activeDev = dev then d.promote j e else d
      | none => d
    else if !([1, 2, 3].contains code) || dev = m.self || m.size ≤ dev || mget d.fab.seen dev = some code then d
    else
      let d := { d with fab := { d.fab with seen := mput d.fab.seen dev code } }
      let peers := d.reg R.FAB_PEERS
      let d := d.setReg R.FAB_PEERS (if code = 2 then peers &&& ((2 ^ 32 - 1) ^^^ 2 ^ dev) else peers ||| 2 ^ dev)
      let d := d.notice code dev 0xFFFF (some k)
      let d := d.health (if code = 2 then Ev.peerUp.code else Ev.peerDown.code) 0 dev code 0
      if code = 1 then (d.standbyOf dev).foldl (fun d x => d.promote x.1 x.2) d
      else if code = 3 then d.unprotectWith dev
      else d

/-- IDENT: the peer's serial and ID against the map (R457). -/
def Dev.onIdent (d : Dev) (k id serial : Nat) : Dev :=
  if !d.portUp k then d
  else match d.fab.join.or d.fab.map with
    | none => d.setFld (R.FAB_PORT_STATUS k) F.FAB_PORT_STATUS_peer id
    | some m =>
      let ok := m.peer m.self k = id && ((m.devs[id]?).map (·.serial)) = some serial
      let d := d.setFld (R.FAB_PORT_STATUS k) F.FAB_PORT_STATUS_peer id
      let d := d.setFld (R.FAB_PORT_STATUS k) F.FAB_PORT_STATUS_miswired (b2n !ok)
      if !d.fab.joinWait.contains k then d
      else if ok || d.fab.join.isNone then d.joinHeard k
      else d.joinFail

/-! ### Link control (R450 to R452) -/

/-- ACK: every packet up to the sequence leaves the replay buffer. -/
def Dev.onLinkAck (d : Dev) (k seq : Nat) : Dev :=
  match (d.fport k).replay.findIdx? fun x => x.1 = seq with
  | none => d
  | some i =>
    let d := d.modFport k fun P => { P with replay := P.replay.drop (i + 1), naks := 0 }
    (Dev.pump k (d.fport k).queue.length d).portDrained k

/-- NAK: a replay from the sequence; the eighth for one sequence starts a retrain. -/
def Dev.onLinkNak (d : Dev) (k seq : Nat) : Dev :=
  let P := d.fport k
  let n := if P.nakSeq = seq then P.naks + 1 else 1
  if 8 ≤ n then
    (d.modFport k fun P => { P with naks := 0, nakSeq := seq, training := true }).sendCtl k 4 0 0 0
  else
    let d := d.modFport k fun P => { P with naks := n, nakSeq := seq }
    (P.replay.dropWhile fun x => x.1 ≠ seq).foldl (fun d x => d.sendPkt k x.1 x.2) d

/-- CREDIT: packet buffers of a virtual channel are free. -/
def Dev.onCredit (d : Dev) (k vc n : Nat) : Dev :=
  let d := d.modFport k fun P => { P with credits := mset P.credits vc 32 (min 32 (P.credit vc + n)) }
  (Dev.pump k (d.fport k).queue.length d).portDrained k

/-! ### Flits (R448, R449, R451) -/

/-- A packet for this device, its transfer whole: what the row of its content does. -/
def Dev.consume (d : Dev) (k : Nat) (b : List Byte) (data : List Byte) (poison : Bool) : Dev :=
  let id := le b 12 2
  let a := le b 16 8
  let z := le b 24 8
  match byteAt b 2 with
  | 1 => d.onMirrorChunk id (a / 2 ^ 48) z (data.take (a % 2 ^ 48)) poison
  | 2 => d.onMirrorConfig id z data
  | 3 => d.onCommit id
  | 4 => d.onStepDelta id data
  | 5 => d.onAck id
  | 6 => d.onNotice k a z id
  | 7 => d.onIdent k (byteAt b 1) a
  | _ => d

/-- A packet that is for this device: a part of a transfer is kept until its last part, which has fewer than 8 data flits. -/
def Dev.packetHere (d : Dev) (k : Nat) (b : List Byte) (poison : Bool) : Dev :=
  let type := byteAt b 2
  if [1, 2, 4].contains type then
    let key := (byteAt b 1 * 8 + type) * 65536 + le b 12 2
    let data := (if le b 14 2 = 0 then [] else mgetD d.fab.xfer key []) ++ b.drop 32
    if byteAt b 3 < 8 then ({ d with fab := { d.fab with xfer := mdel d.fab.xfer key } }).consume k b data poison
    else { d with fab := { d.fab with xfer := mput d.fab.xfer key data } }
  else d.consume k b (b.drop 32) poison

/-- A whole packet has come: it is acknowledged, and consumed or passed on (R451, R452, R455). -/
def Dev.packetIn (d : Dev) (k : Nat) : Dev :=
  let P := d.fport k
  let b := P.rx.flatten
  let d := d.modFport k fun P => { P with rx := [], rxPoison := false, rxSeq := (P.rxSeq + 1) % 4096 }
  let d := d.sendCtl k 1 P.rxSeq 0 0
  let t := byteAt b 0
  let pass : Option Nat := match d.fab.map with
    | some m => if byteAt b 2 = 7 || t = m.self then none else m.port m.self t
    | none => none
  match pass with
  | none => (d.sendCtl k 3 0 P.rxVc 1).packetHere k b P.rxPoison
  | some o =>
    if d.reach t && d.portUp o then d.routePkt (some k) { vc := P.rxVc, bytes := b, poison := P.rxPoison, src := some (k, P.rxVc) }
    else (d.satFld (R.FAB_PORT_ERR o) F.FAB_PORT_ERR_dropped 1).sendCtl k 3 0 P.rxVc 1

/-- A link-control flit; a RETRAIN is followed by the port's own retrain, a command of its own. -/
def Dev.control (d : Dev) (k : Nat) (b : List Byte) : Dev :=
  match byteAt b 0 with
  | 1 => d.onLinkAck k (le b 1 2)
  | 2 => d.onLinkNak k (le b 1 2)
  | 3 => d.onCredit k (byteAt b 3) (le b 4 2)
  | 4 => d.modFport k fun P => { P with training := true }
  | _ => d

/-- A flit whose codeword is accepted: its 32 data bytes and its tag. -/
def Dev.flitIn (d : Dev) (k : Nat) (b : List Byte) (tag : Nat) : Dev :=
  let last := bit tag 3
  match bits tag 1 2 with
  | 1 =>
    if le b 4 2 % 4096 ≠ (d.fport k).rxSeq then d.modFport k fun P => { P with rx := [] }
    else
      let d := d.modFport k fun P => { P with rx := [b], rxVc := bits tag 4 2, rxPoison := bit tag 0 }
      if last then d.packetIn k else d
  | 2 =>
    if (d.fport k).rx = [] then d
    else
      let d := d.modFport k fun P => { P with rx := P.rx ++ [b], rxPoison := P.rxPoison || bit tag 0 }
      if last then d.packetIn k else d
  | 3 => d.control k b
  | _ => d

/-- FLIT_RECEIVE (R448, R451). -/
def execFlitReceive (port : Nat) (flit : Flit) (s : State) : Host.Outcome State Fault Refusal :=
  onDev s fun d =>
    if 4 ≤ port || !d.portUp port || flit.length ≠ 36 then d
    else match rsDecode flit with
      | .ok => d.flitIn port ((flit.drop 3).take 32) (byteAt flit 35)
      | .fix p e =>
        let f := flit.set p (flit.getD p 0 ^^^ e)
        (d.satFld (R.FAB_PORT_ERR port) F.FAB_PORT_ERR_corrected 1).flitIn port ((f.drop 3).take 32) (byteAt f 35)
      | .bad =>
        let d := d.modFport port fun P => { P with rx := [], rxPoison := false }
        (d.satFld (R.FAB_PORT_ERR port) F.FAB_PORT_ERR_retries 1).sendCtl port 2 (d.fport port).rxSeq 0 0

/-! ### The rows of the contents -/

/-- A port that receives. -/
def Dev.hears (d : Dev) (k : Nat) : Bool := k < 4 && d.portUp k

/-- MIRROR_CHUNK. -/
def execMirrorChunk (port stream epoch stamp : Nat) (data : List Byte) (s : State) : Host.Outcome State Fault Refusal :=
  onDev s fun d => if d.hears port then d.onMirrorChunk stream epoch stamp data false else d

/-- MIRROR_CONFIG. -/
def execMirrorConfig (port stream epoch : Nat) (data : List Byte) (s : State) : Host.Outcome State Fault Refusal :=
  onDev s fun d => if d.hears port then d.onMirrorConfig stream epoch data else d

/-- COMMIT. -/
def execCommit (port stream : Nat) (s : State) : Host.Outcome State Fault Refusal :=
  onDev s fun d => if d.hears port then d.onCommit stream else d

/-- STEP_DELTA. -/
def execStepDelta (port stream : Nat) (data : List Byte) (s : State) : Host.Outcome State Fault Refusal :=
  onDev s fun d => if d.hears port then d.onStepDelta stream data else d

/-- ACK. -/
def execAck (port stream : Nat) (s : State) : Host.Outcome State Fault Refusal :=
  onDev s fun d => if d.hears port then d.onAck stream else d

/-- NOTICE. -/
def execNotice (port code device stream : Nat) (s : State) : Host.Outcome State Fault Refusal :=
  onDev s fun d => if d.hears port then d.onNotice port code device stream else d

/-- IDENT. -/
def execIdent (port id : Nat) (serial : Nat) (s : State) : Host.Outcome State Fault Refusal :=
  onDev s fun d => if d.hears port then d.onIdent port id serial else d

/-- LINK_ACK. -/
def execLinkAck (port seq : Nat) (s : State) : Host.Outcome State Fault Refusal :=
  onDev s fun d => if d.hears port then d.onLinkAck port seq else d

/-- LINK_NAK. -/
def execLinkNak (port seq : Nat) (s : State) : Host.Outcome State Fault Refusal :=
  onDev s fun d => if d.hears port then d.onLinkNak port seq else d

/-- CREDIT. -/
def execCredit (port vc credits : Nat) (s : State) : Host.Outcome State Fault Refusal :=
  onDev s fun d => if d.hears port && vc < 4 then d.onCredit port vc credits else d

/-! ### Retrains, time-outs, shut-down -/

/-- RETRAIN (R451): a port that is up, or that trains for a join, trains or fails to. -/
def execRetrain (port : Nat) (trained : Bool) (s : State) : Host.Outcome State Fault Refusal :=
  onDev s fun d =>
    let joining := d.fab.joinWait.contains port
    if 4 ≤ port || d.fld (R.FAB_PORT_STATUS port) F.FAB_PORT_STATUS_svc = 0 ||
        !(d.portUp port || joining || (d.fport port).training) then d
    else
      let d := d.satFld (R.FAB_PORT_ERR port) F.FAB_PORT_ERR_retrains 1
      if trained then d.portTrained port
      else if joining then (d.portFailed port true).joinHeard port
      else d.portFailed port false

/-- PORT_RETRAIN_RETRY: a down port, 1 s after the last attempt (R451). -/
def execPortRetrainRetry (port : Nat) (trained : Bool) (s : State) : Host.Outcome State Fault Refusal :=
  if 4 ≤ port || s.d.fld (R.FAB_PORT_STATUS port) F.FAB_PORT_STATUS_svc ≠ 1 || s.d.portUp port || (s.d.fport port).training then
    onDev s id
  else onDevAt s ((s.d.fport port).tryAt + 10 ^ 8) fun d =>
    let d := (d.satFld (R.FAB_PORT_ERR port) F.FAB_PORT_ERR_retrains 1).modFport port fun P => { P with tryAt := d.now }
    if trained then d.portTrained port else d

/-- MIRROR_ACK_TIMEOUT: 10 ms without the partner's ACK (R460). -/
def execMirrorAckTimeout (stream : Nat) (s : State) : Host.Outcome State Fault Refusal :=
  match s.d.fab.waitAck.find? fun w => w.1 = stream with
  | none => onDev s id
  | some w => onDevAt s (w.2.2.2 + 10 ^ 6) fun d =>
    let d := (d.ackDone w).2
    match d.activeEntry stream with
    | some (j, _) => d.unprotect j stream
    | none => d

/-- FAB_PORT_CTL_WRITE (R464). -/
def execFabPortCtlWrite (port : Nat) (value : Word) (s : State) : Host.Outcome State Fault Refusal :=
  onDev s fun d =>
    if 4 ≤ port || !d.regOpen (R.FAB_PORT_CTL port) then d
    else
      let on := value.getLsbD 0
      let svc := d.fld (R.FAB_PORT_STATUS port) F.FAB_PORT_STATUS_svc
      let d := d.setFld (R.FAB_PORT_CTL port) F.FAB_PORT_CTL_enable (b2n on)
      if svc = 2 then d.setFld (R.FAB_PORT_STATUS port) F.FAB_PORT_STATUS_enable_pending (b2n on)
      else if !on then d.portStop port
      else if svc = 0 && (d.fab.map.map (·.named.contains port)).getD false then d.portStart port
      else d

end Sys2Proof.Machine
end

