-- ==== Sys2Proof/Machine/Scheduling.lean ====
section
/-!
DEFINITION. Scheduling commands: readiness, admission, dispatch, code fill, KEND's retirement, deadlines, the governor, DVFS
and the mode (R67 to R79, R166, R196, R209, R224, R322 to R342, R477, R478).
-/

namespace Sys2Proof.Machine

/-! ### Readiness (R94, R322, R326, R327, R332, R341) -/

/-- Units of device-built records waiting for a ring (R374). -/
def Dev.reserveUsed (d : Dev) (ring : Nat) : Nat :=
  ((d.que.wait.filter fun w => w.ring = ring && w.device).map fun w => unitsOf w.bytes).foldl (· + ·) 0

/-- The frame of a stream whose readiness is due: the next in sequence order, then a revisited frame (R196, R322). -/
def Dev.dueFrame (d : Dev) (id : Nat) : Option Frame :=
  match mget d.streams id with
  | none => none
  | some s =>
    if 256 ≤ d.reserveUsed s.ring then none
    else
      (d.sched.frames.find? fun f => f.stream = id && !f.revisit && f.num = s.relNext &&
        (f.st = .arrived || f.st = .waiting)).or
      (d.sched.frames.find? fun f => f.stream = id && f.revisit && f.st = .arrived)

/-- The frame-input tags of a context may be set: all are FREE, or no other frame of the context is under way. -/
def Dev.inputsFree (d : Dev) (ctx : Nat) (x : Ctx) : Bool :=
  (d.inputTags x).all (fun t => mgetD d.home.tags t.1 .free = .free) ||
    !d.sched.frames.any fun f => f.ctx = ctx && (f.queued || f.st = .running)

/-- Frame f becomes ready on a context. -/
def Dev.makeReady (d : Dev) (f : Frame) (ctx : Nat) (x : Ctx) (onFb : Bool) (e b : Option Nat) : Dev :=
  let d := d.setInputs x
  let n := d.sched.readySeq
  let d := { d with sched := { d.sched with readySeq := n + 1 }, pwr := { d.pwr with lastActive := d.now } }
  let f' := { f with st := .ready, ctx := ctx, kernel := 0, stack := none, readyAt := d.now, readySeq := n, fullEst := e,
                     fbEst := b, onFallback := onFb }
  let d := d.modFrame f.stream f.num f.revisit fun _ => f'
  if f.ep.bind.lc && !f.revisit then d.noteSlack f' ctx 0 else d

/-- The total estimate of a context for a frame, on the stack R323 chooses. -/
def Dev.fullTime (d : Dev) (f : Frame) (ctx : Nat) : Option Nat :=
  match d.ctx? ctx, d.chooseStack ctx (d.suspect f.full) with
  | some x, some k => d.restTime f ctx x 0 k (d.opProj k)
  | _, _ => none

/-- What the deadline monitor decides for a frame: run the full model, run the fallback, void it, or let it wait; and
whether the stream is in FALLBACK from the next frame. -/
inductive Decision where
  | full (next : Bool)
  | fallback (next : Bool)
  | void
  | fault
  | wait
  deriving DecidableEq, Repr

def negative (s : Option Int) : Bool := match s with
  | some x => x < 0
  | none => true

/-- Table Readiness decisions, under R332 and R429 for suspects and FAULTED contexts. -/
def Dev.readiness (d : Dev) (f : Frame) (fbState : Bool) : Decision :=
  let b := f.ep.bind
  let fb := b.fallback.filter fun c => (d.ctx? c).isSome && !d.faulted c
  let s := fun c => d.slack f c 0 0
  let margin : Int := unitsPerTick * b.margin
  if d.suspect b.ctx || d.faulted b.ctx then
    match fb with
    | some c => if b.lc && negative (s c) then .void else .fallback true
    | none => if b.lc || d.faulted b.ctx then .fault else .wait
  else if b.fallback.isSome && (fb = none || (fb.map d.suspect).getD false) then .full fbState
  else if !b.lc then (match fb with
    | some _ => if fbState then .fallback true else .full false
    | none => .full false)
  else match fbState, fb with
    | true, some c => if negative (s c) then .void else .fallback true
    | _, _ =>
      let x := s b.ctx
      if !negative x then
        if (match x with
          | some v => decide (v < margin)
          | none => true) then .full fb.isSome else .full false
      else match fb with
        | some c => if negative (s c) then .void else .fallback true
        | none => .void

/-- FRAME_READY on a frame of the stream's own sequence. -/
def Dev.readyOwn (d0 : Dev) (f0 : Frame) : Dev :=
  let b := f0.ep.bind
  match d0.ctx? b.ctx, mget d0.streams f0.stream with
  | none, _ =>
    let r := d0.takeReports f0
    r.2.voidFrame r.1 2 Code.descInvalid.num
  | _, none => d0
  | some x, some s =>
    let moved := s.schedCtx ≠ some b.ctx
    let d := if moved then
        let d := (d0.sets.filter fun y => s.schedCtx = some y.ctx && y.ctx ≠ b.ctx).foldl
          (fun d y => d.releaseStream f0.stream y) d0
        (d.setFallback f0.stream false 0).modStream f0.stream fun s => { s with schedCtx := some b.ctx, holdCount := 0 }
      else if b.fallback = none then d0.setFallback f0.stream false 0 else d0
    let bad := d.suspect b.ctx || d.faulted b.ctx
    let d := if bad && b.fallback.isSome then
        (d.setFallback f0.stream true 2).modStream f0.stream fun s => { s with holdCount := 0 }
      else d
    let fbState := ((mget d.streams f0.stream).map (·.fallback)).getD false
    let go := fun (d : Dev) (f : Frame) (ctx : Nat) (y : Ctx) (onFb next : Bool) =>
      let e := d.fullTime f b.ctx
      let g := b.fallback.bind (d.fullTime f)
      let d := d.makeReady f ctx y onFb e g
      if next && !fbState then d.setFallback f.stream true 1 else d
    match d.readiness f0 fbState with
    | .wait => d0.modFrame f0.stream f0.num false fun f => { f with st := .waiting }
    | .void => let r := d.takeReports f0; r.2.deadlineVoid r.1
    | .fault => let r := d.takeReports f0; r.2.voidFrame r.1 2 Code.hang.num
    | .full next =>
      if !d.inputsFree b.ctx x then d0
      else let r := d.takeReports f0; go r.2 r.1 b.ctx x false next
    | .fallback next =>
      match b.fallback with
      | none => d0
      | some c =>
        match d.ctx? c with
        | none => d0
        | some y =>
          if !d.inputsFree c y then d0
          else let r := d.takeReports f0; go r.2 r.1 c y true next

/-- FRAME_READY (R322, R326, R327). A revisited frame runs the context REVISIT named (R310). -/
def execFrameReady (stream : Nat) (s : State) : Host.Outcome State Fault Refusal :=
  onDev s fun d =>
    if !d.working then d
    else match d.dueFrame stream with
      | none => d
      | some f =>
        if f.revisit then
          match d.ctx? f.ctx with
          | some x =>
            if d.faulted f.ctx || (d.suspect f.ctx && x.lc) then d.voidFrame f 2 Code.hang.num
            else if d.suspect f.ctx then d
            else if d.inputsFree f.ctx x then d.makeReady f f.ctx x false none none else d
          | none => d.voidFrame f 2 Code.descInvalid.num
        else d.readyOwn f

/-! ### Admission -/

/-- Page pools an admission of the frame draws on. -/
def Dev.admPools (d : Dev) (f : Frame) : List Nat := (d.setsOf f).map fun s => (d.setH s.base).pool

/-- The frame waits for its admission. -/
def Dev.admWaits (d : Dev) (f : Frame) : Bool := f.st = .ready && d.setsOf f ≠ []

/-- g is admitted before f where both draw on one pool: LC first, then in readiness order (R197). -/
def Dev.admBefore (d : Dev) (g f : Frame) : Bool :=
  d.admWaits g && (d.admPools g).any ((d.admPools f).contains ·) &&
    ((d.frameLc g && !d.frameLc f) || (d.frameLc g = d.frameLc f && decide (g.readySeq < f.readySeq)))

/-- STEP_ADMISSION (R196, R197). -/
def execStepAdmission (stream : Nat) (s : State) : Host.Outcome State Fault Refusal :=
  onDev s fun d =>
    match d.sched.frames.find? fun f => f.stream = stream && d.admWaits f with
    | some f => if d.working && !d.sched.frames.any (d.admBefore · f) then d.admitStep f else d
    | none => d

/-- READOUT_ADMISSION: an admission of its own, when the stream has no step waiting for one (R206, R207). -/
def execReadoutAdmission (stream : Nat) (s : State) : Host.Outcome State Fault Refusal :=
  onDev s fun d =>
    if d.working && (d.readouts.any fun r => r.stream = stream && r.slots ≠ []) &&
        !d.sched.frames.any (fun f => f.stream = stream && d.admWaits f) then
      d.sets.foldl (fun d y => d.takeHolds stream y.base) d
    else d

/-! ### Dispatch -/

/-- A participant lost to a reset is dispatched again from its checkpoint (R224). -/
def Dev.redispatch (d : Dev) (cp : Ckpt) (c : Nat) : Dev :=
  match d.ctx? cp.run.ctx with
  | none => d
  | some x =>
    let gen := d.sched.gen + 1
    let d := { d with sched := { d.sched with gen := gen, redo := d.sched.redo.erase cp } }
    let d := d.startRun c x { cp.run with gen := gen, started := d.now } cp.sregs
    let d := d.modCore c fun k => { k with priv := cp.tags }
    { d with sched := { d.sched with ckpts := mmod d.sched.ckpts c cp fun y => { y with tags := cp.tags } } }

/-- The built-in readout kernel takes a core; it runs no image code, so it has no fill (R206). -/
def Dev.dispatchReadout (d : Dev) (r : Readout) (x : Scratch) (c : Nat) : Dev :=
  let h := d.setH x.base
  let run : Run := { ctx := h.ctx, variant := 0, kernel := 1024, count := 1, stream := r.stream, frame := r.frame, epoch := 0,
                     stamp := d.now, s6 := 0, s7 := 1, claiming := false, replay := false, gen := d.sched.gen + 1,
                     stack := stackOf c, started := d.now }
  let d := { d with readouts := d.readouts.map fun (y : Readout) =>
    if y.q = r.q && y.cid = r.cid then
      { y with scratch := y.scratch.map fun z => if z = x then { z with core := some c } else z }
    else y }
  let d := d.modCore c fun k => { k with run := some run, filled := true, kendIssued := true, ibuf := [], planeA := none,
                                         planeS := none }
  let d := { d with sched := { d.sched with gen := d.sched.gen + 1 } }
  let d := d.setFld (R.MC_SEQ_STATUS c) F.MC_SEQ_STATUS_context h.ctx
  (d.setFld (R.MC_SEQ_STATUS c) F.MC_SEQ_STATUS_busy 1).setPc c 0

/-- Scratch tables of a stream whose kernel has not been dispatched. -/
def Dev.readoutDue (d : Dev) (id : Nat) : Option (Readout × Scratch) :=
  d.readouts.findSome? fun r => if r.stream = id then (r.scratch.find? fun x => x.core = none).map fun x => (r, x) else none

/-- The cores fit the frame's next kernel: one core of the chosen stack, or 1 to 8 participants, the first on it
(R67, R209, R323). -/
def Dev.coresFit (d : Dev) (f : Frame) (cores : List Nat) : Bool :=
  let claiming : Bool := match d.ctx? f.ctx with
    | some x => ((d.costOf x f.kernel).map fun c => bit c.flags 0).getD false
    | none => false
  cores ≠ [] && dedup cores = cores && cores.all d.coreOpen && (claiming || cores.length = 1) &&
    (cores.head?.map stackOf) = d.dispStack f

/-- KERNEL_DISPATCH: the stream's next kernel, a lost participant, or a readout kernel, on idle cores (R67, R206, R224,
R322, R323). -/
def execKernelDispatch (stream : Nat) (cores : List Nat) (s : State) : Host.Outcome State Fault Refusal :=
  onDev s fun d =>
    if !d.working then d
    else
      let one := match cores with
        | [c] => d.coreOpen c
        | _ => false
      match d.sched.redo.find? fun cp => cp.run.stream = stream && !d.suspect cp.run.ctx, cores with
      | some cp, [c] => if d.coreOpen c then d.redispatch cp c else d
      | _, _ =>
        match d.sched.frames.find? fun f => f.stream = stream && d.dispatchable f && d.orderOk f cores with
        | some f => if d.coresFit f cores then d.dispatch f cores else d
        | none =>
          match d.readoutDue stream, cores with
          | some (r, x), [c] =>
            if one && !d.flag R.SCH_GOV_STATUS F.SCH_GOV_STATUS_be_paused &&
                !d.sched.frames.any (fun g => d.frameLc g && d.dispatchable g && d.dispStack g = some (stackOf c)) then
              d.dispatchReadout r x c
            else d
          | _, _ => d

/-- CODE_FILL_COMPLETE: the instruction buffer and, on a change of context, the descriptor cache are filled; a poisoned word
faults before any instruction issues (R71, R79). -/
def execCodeFillComplete (core : Nat) (s : State) : Host.Outcome State Fault Refusal :=
  onDev s fun d =>
    let k := d.core core
    match k.run with
    | none => d
    | some r =>
      if k.filled then d
      else match d.ctx? r.ctx with
        | none => d
        | some x =>
          match d.codeAt x r.kernel core, Dev.bankAt x core with
          | some (a, n), some b =>
            let change := k.dctx ≠ some r.ctx
            let reads := span a (16 * n) ++ (if change then span b 16384 else [])
            let bad := d.firstPoison reads
            let words := (List.range n).map fun i => iwOf (d.rdN (a + 16 * i) 16)
            let table := if change then d.rdN b 16384 else k.dcache
            let d := d.noteRead reads
            match bad with
            | some p => d.fault core .poison p
            | none => d.modCore core fun k => { k with ibuf := words, filled := true, dcache := table, dctx := some r.ctx }
          | _, _ => d

/-! ### KEND retires -/

/-- A participant waits at its KEND while a share of its dispatch that lost a participant is incomplete (R224). -/
def Dev.shareHolds (d : Dev) (r : Run) : Bool := r.claiming && d.home.shares.any fun s => s.ctx = r.ctx && s.hit

/-- The deferred FREE and REFDEC of the kernel take effect in journal order (R428). -/
def Dev.settleJournal (d : Dev) (c : Nat) : Dev :=
  (d.core c).journal.foldl (fun d j => if j.1 = .dec then d.refDec j.2 else d) d

/-- KEND_RETIRE (R28, R69, R166, R167, R209, R326, R428, R432). -/
def execKendRetire (core : Nat) (s : State) : Host.Outcome State Fault Refusal :=
  onDev s fun d =>
    let k := d.core core
    match k.run with
    | none => d
    | some r =>
      if !k.kendIssued || k.inflight ≠ [] || d.shareHolds r then d
      else if 1024 ≤ r.kernel then (d.readoutEnd core).freeCore core
      else if r.replay then
        let d := (d.accBoundary core).abortCore core
        let d := if r.claiming && !d.claimRunning r.ctx then d.dropShares r.ctx else d
        d.replayNext (stackOf core)
      else
        let d := match k.ibuf[d.pc core]? with
          | some w => d.signal core w
          | none => d
        let d := d.countRetired core
        let d := d.modStream r.stream fun s => { s with save := (d.core core).sregs.drop 8 }
        let d := ((d.settleJournal core).accBoundary core).freeCore core
        let more := r.claiming && (d.claimRunning r.ctx || d.sched.redo.any fun cp => cp.run.ctx = r.ctx)
        if more then d
        else match d.runFrame r with
          | some f => if f.st = .running then d.kernelEnded f else d
          | none => d

/-! ### Deadlines -/

/-- DEADLINE_EXPIRY: device time reaches the deadline of a frame that is ready or further (R328). -/
def execDeadlineExpiry (stream frame : Nat) (s : State) : Host.Outcome State Fault Refusal :=
  match s.d.frame? stream frame false with
  | some f =>
    if f.ep.bind.lc && (f.queued || f.st = .running) then onDevAt s (s.d.deadlineOf f) fun d => d.deadlineVoid f
    else onDev s id
  | none => onDev s id

/-! ### The governor (R334 to R336, R520, R522) -/

/-- Table Power rails: nominal mV and maximum mA of a selector; the array rails stand at their effective voltage. -/
def Dev.railMax (d : Dev) (i : Nat) : Nat :=
  match i with
  | 0 => d.effMv 0 (d.opOf 0) * 26000 / 1000
  | 1 => d.effMv 1 (d.opOf 1) * 26000 / 1000
  | 2 => 4500
  | 3 => 4500
  | 4 => 12800
  | 5 => 3300
  | 6 => 3000
  | _ => 5100

/-- One reading of each rail: device power in mW, the failures in succession, the last good readings (R520). -/
def Dev.railPower (d : Dev) (rails : List (Option (Nat × Nat))) : Nat × SMap Nat × SMap Nat :=
  (List.range 8).foldl (fun acc i =>
    match (rails.getD i none) with
    | some (mv, ma) => (acc.1 + mv * ma / 1000, mput acc.2.1 i 0, mput acc.2.2 i (mv * ma / 1000))
    | none =>
      let n := mgetD acc.2.1 i 0 + 1
      let p := if 2 ≤ n then d.railMax i else mgetD acc.2.2 i (d.railMax i)
      (acc.1 + p, mput acc.2.1 i n, acc.2.2)) (400, d.gov.fails, d.gov.lastGood)

def ms (n : Nat) : Nat := n * 10 ^ 5

/-- t lies within the last n ms. -/
def Dev.within (d : Dev) (t : Option Nat) (n : Nat) : Bool :=
  match t with
  | some t => d.now < t + ms n
  | none => false

/-- One governor step of a stack. -/
def Dev.govStep (d : Dev) (k n : Nat) : Dev :=
  { d.dvfsRequest k n with gov := { d.gov with lastStep := mput d.gov.lastStep k d.now } }

/-- Least slack of the stack's LC frames in the last 100 ms; none: it had none. -/
def Dev.leastSlack (d : Dev) (k : Nat) : Option Int :=
  ((d.sched.slacks.filter fun r => r.stack = k && d.now < r.time + ms 100).map (·.slack)).min?

/-- The stack that R334 lowers: the larger least slack, stack 1 on a tie, among those above OP0. -/
def Dev.lowerPick (d : Dev) : Option Nat :=
  match [0, 1].filter fun k => d.opOf k ≠ 0 && (d.dv k).step = none with
  | [] => none
  | [k] => some k
  | _ => match d.leastSlack 0, d.leastSlack 1 with
    | none, some _ => some 0
    | some a, some b => if b < a then some 0 else some 1
    | _, _ => some 1

def Dev.pauseBe (d : Dev) (b : Bool) : Dev := d.setFld R.SCH_GOV_STATUS F.SCH_GOV_STATUS_be_paused (b2n b)

/-- The average exceeds the envelope (R334). -/
def Dev.govOver (d : Dev) : Dev :=
  if d.opOf 0 = 0 ∧ d.opOf 1 = 0 then d.pauseBe true
  else if d.within d.gov.lastDown 10 then d
  else match d.lowerPick with
    | some k =>
      let d := d.govStep k (d.opOf k - 1)
      { d with gov := { d.gov with lastDown := some d.now, lowered := k :: d.gov.lowered.filter (· ≠ k) } }
    | none => d

/-- A BE frame on the stack has waited more than n ms since it became ready. -/
def Dev.beWaiting (d : Dev) (k n : Nat) : Bool :=
  d.sched.frames.any fun f => f.queued && !d.frameLc f && d.dispStack f = some k && decide (f.readyAt + ms n < d.now)

/-- Conditions of R335. -/
def Dev.wantUp (d : Dev) (k : Nat) : Bool :=
  (d.sched.slacks.any fun r => r.stack = k && decide (d.now < r.time + ms 100) && decide (r.slack < 2 * r.margin)) ||
    d.beWaiting k 100

def Dev.wantDown (d : Dev) (k : Nat) : Bool :=
  (d.sched.slacks.all fun r => r.stack ≠ k || d.now ≥ r.time + ms 100 || decide (2 * (r.margin : Int) ≤ r.low)) &&
  (d.sched.beWaits.all fun b => b.1 ≠ k || d.now ≥ b.2.1 + ms 100 || decide (b.2.2 ≤ ms 10)) && !d.beWaiting k 10

/-- One stack while the average is within the envelope. -/
def Dev.govStack (d : Dev) (calm : Bool) (k : Nat) : Dev :=
  let op := d.opOf k
  let ceil := modeCeil d.mode
  let free := (d.dv k).step = none && !d.within (mget d.gov.lastStep k) 10
  let dawn := d.pwr.phase = .dawn
  if d.mode = 0 ∨ d.flag R.SCH_MODE F.SCH_MODE_pin then
    if op < ceil && !dawn then
      if d.gov.lowered.contains k then
        if d.gov.belowSince.isSome && !d.within d.gov.belowSince 100 && !d.within (mget d.gov.lastStep k) 100 then
          let d := d.govStep k (op + 1)
          if op + 1 = ceil then { d with gov := { d.gov with lowered := d.gov.lowered.filter (· ≠ k) } } else d
        else d
      else d.dvfsRequest k ceil
    else d
  else if free && calm && decide (op < ceil) && !dawn && d.wantUp k then d.govStep k (op + 1)
  else if free && op ≠ 0 && d.wantDown k then d.govStep k (op - 1)
  else d

/-- A thermal warning overrides the mode: one step down per 10 ms, then BE pauses (R522). -/
def Dev.govThermal (d : Dev) : Dev :=
  if d.opOf 0 = 0 ∧ d.opOf 1 = 0 then d.pauseBe true
  else if d.now < d.pwr.lastThermalStep + ms 10 then d
  else
    let d := [0, 1].foldl (fun d k => if d.opOf k ≠ 0 then d.govStep k (d.opOf k - 1) else d) d
    { d with pwr := { d.pwr with lastThermalStep := d.now } }

def Dev.govTick (d : Dev) (rails : List (Option (Nat × Nat))) : Dev :=
  let p := d.railPower rails
  let samples := (p.1 :: d.gov.samples).take 10
  let avg := samples.foldl (· + ·) 0 / samples.length
  let env := modeEnv d.mode
  let calm := 10 * avg ≤ 9 * env
  let d := { d with gov := { d.gov with samples := samples, fails := p.2.1, lastGood := p.2.2, lastTick := d.now,
                                        belowSince := if calm then d.gov.belowSince.or (some d.now) else none } }
  let d := d.setFld R.SCH_GOV_STATUS F.SCH_GOV_STATUS_power (min 65535 (avg / 10))
  let d := if d.pwr.thermal then d.govThermal
    else if env < avg then d.govOver
    else
      let d := if d.gov.belowSince.isSome && !d.within d.gov.belowSince 100 then d.pauseBe false else d
      [0, 1].foldl (fun d k => d.govStack calm k) d
  d.setFld R.SCH_GOV_STATUS F.SCH_GOV_STATUS_env_limited (b2n (d.within d.gov.lastDown 100))

/-- GOVERNOR_TICK: 1 ms after the last (R334). -/
def execGovernorTick (rails : List (Option (Nat × Nat))) (s : State) : Host.Outcome State Fault Refusal :=
  if s.d.working then onDevAt s (s.d.gov.lastTick + ms 1) fun d => d.govTick rails else onDev s id

/-- DVFS_STEP_COMPLETE (R477, R478). -/
def execDvfsStepComplete (stack : Nat) (inRange : Bool) (s : State) : Host.Outcome State Fault Refusal :=
  onDev s fun d => if stack < 2 then d.dvfsEnd stack inRange else d

/-- SCH_MODE_WRITE (R333, R342). -/
def execSchModeWrite (value : Word) (s : State) : Host.Outcome State Fault Refusal :=
  onDev s fun d =>
    if d.regOpen R.SCH_MODE then d.setMode (bits value.toNat 0 2) (bits value.toNat 2 1) else d

end Sys2Proof.Machine
end

