-- ==== Sys2Proof/Machine/Shaper.lean ====
section
/-!
DEFINITION. The frame shaper (R294 to R311): colour conversion, scaling, crops, frame buffers, crop lists, steering tables, the
revisit cache, and the row groups a pipe serves.
-/

namespace Sys2Proof.Machine

/-! ### Pixels of a picture (R296, R297, R318) -/

/-- num / den with 12 fractional bits (log entry 21). -/
def fix12 (num : Int) (den : Nat) : Int := if num * 4096 % den = 0 then num * 4096 / den else Config.fix12 num den

/-- Sample i of row y, the edge row and sample repeated. -/
def smp (rows : List (List Nat)) (y i : Nat) : Nat := (rows.getD (min y (rows.length - 1)) []).getD i 0

/-- The two chroma positions that luma position p lies between, the nearer first, and clamped to n samples. -/
def chromaPair (p n : Nat) : Nat × Nat := (p / 2, if p % 2 = 0 then p / 2 - 1 else min (p / 2 + 1) (n - 1))

/-- Chroma at luma position x, y, in sixteenths: bilinear and centred. at0 gives chroma sample i of chroma row j. -/
def chroma420 (at0 : Nat → Nat → Nat) (cw ch x y : Nat) : Int :=
  let X := chromaPair x cw
  let Y := chromaPair y ch
  (at0 Y.1 X.1 * 9 + at0 Y.1 X.2 * 3 + at0 Y.2 X.1 * 3 + at0 Y.2 X.2 : Nat)

/-- The same where chroma has every row. -/
def chroma422 (at0 : Nat → Nat) (cw x : Nat) : Int :=
  let X := chromaPair x cw
  (at0 X.1 * 12 + at0 X.2 * 4 : Nat)

/-- Kr and Kb of a matrix, in 1/10,000. -/
def lumaWeights (m : Nat) : Int × Int := if m = 1 then (2990, 1140) else if m = 3 then (2627, 593) else (2126, 722)

/-- The matrix and the range in force (R297): 1 BT.601, 2 BT.709, 3 BT.2020; full range. -/
def pickMatrix (setting : Nat) (vui : Option Nat) : Nat :=
  if setting ≠ 0 then setting
  else match vui with
    | some 1 => 2
    | some 5 => 1
    | some 6 => 1
    | some 9 => 3
    | _ => 2

def pickFull (setting : Nat) (flag : Bool) : Bool := if setting = 0 then flag else setting = 2

def clamp8 (v : Int) : Nat := (clampI v 0 255).toNat

/-- R, G, B of luma y and chroma in sixteenths; the fourth is Y (R297). -/
def yccToRgb (m : Nat) (full : Bool) (y : Nat) (cb cr : Int) : List Nat :=
  let k := lumaWeights m
  let y12 := if full then (y : Int) * 4096 else fix12 (((y : Int) - 16) * 255) 219
  let c12 := fun (c : Int) => if full then (c - 2048) * 256 else fix12 ((c - 2048) * 255) 3584
  let r := y12 + fix12 (2 * (10000 - k.1) * c12 cr) (10000 * 4096)
  let b := y12 + fix12 (2 * (10000 - k.2) * c12 cb) (10000 * 4096)
  let g := fix12 (10000 * y12 - k.1 * r - k.2 * b) ((10000 - k.1 - k.2).toNat * 4096)
  [clamp8 (rsh r 12), clamp8 (rsh g 12), clamp8 (rsh b 12), clamp8 (rsh y12 12)]

/-- The mean of neighbours in the demosaic (log entry 21). -/
def dmMean (inside : Bool) (l : List Nat) : Nat :=
  let s := l.foldl (· + ·) 0
  if inside && s % l.length = 0 then s / l.length else Config.demosaic l % 256

/-- Bilinear demosaic (R296): patterns 0 RGGB, 1 GRBG, 2 GBRG, 3 BGGR. -/
def bayerRgb (pat depth W H : Nat) (rows : List (List Nat)) (x y : Nat) : List Nat :=
  let v := fun (yy xx : Int) =>
    let s := smp rows (clampI yy 0 (H - 1)).toNat (clampI xx 0 (W - 1)).toNat
    if depth = 8 then s % 256 else Config.rawTo8 depth s % 256
  let X : Int := x
  let Y : Int := y
  let inside : Bool := 0 < x && x + 1 < W && 0 < y && y + 1 < H
  let cx := (x + pat % 2) % 2
  let cy := (y + pat / 2) % 2
  let own := v Y X
  let hor := dmMean inside [v Y (X - 1), v Y (X + 1)]
  let ver := dmMean inside [v (Y - 1) X, v (Y + 1) X]
  let cross := dmMean inside [v Y (X - 1), v Y (X + 1), v (Y - 1) X, v (Y + 1) X]
  let diag := dmMean inside [v (Y - 1) (X - 1), v (Y - 1) (X + 1), v (Y + 1) (X - 1), v (Y + 1) (X + 1)]
  let rgb := if cy = 0 ∧ cx = 0 then [own, cross, diag]
    else if cy = 0 then [hor, own, ver]
    else if cx = 0 then [ver, own, hor]
    else [diag, cross, own]
  rgb ++ [Config.rgbToY (rgb.getD 0 0) (rgb.getD 1 0) (rgb.getD 2 0) % 256]

/-- Gain and offset of node j × 32 + i: factory and user values, clamped (R318). -/
def gridNode (store cal : List Byte) (n : Nat) : Int × Int :=
  let g := (le store (0x200 + 4 * n) 2 : Nat) + sext (le cal (4 + 4 * n) 2) 16
  let o := sext (le store (0x202 + 4 * n) 2) 16 + sext (le cal (6 + 4 * n) 2) 16
  (clampI g 0x1000 0xFFFF, clampI o (-8192) 8191)

/-- A grid value at a pixel: bilinear, rounded to the nearest integer. -/
def gridAt (f : Nat → Int) (W H x y : Nat) : Int :=
  let dx := max 1 (W - 1)
  let dy := max 1 (H - 1)
  let i := min 30 (31 * x / dx)
  let j := min 22 (23 * y / dy)
  let fx : Int := (31 * x - i * dx : Nat)
  let fy : Int := (23 * y - j * dy : Nat)
  let n := fun jj ii => f (32 * jj + ii)
  let s := (dy - fy) * ((dx - fx) * n j i + fx * n j (i + 1)) + fy * ((dx - fx) * n (j + 1) i + fx * n (j + 1) (i + 1))
  let den : Int := (dx * dy : Nat)
  (2 * s + den) / (2 * den)

/-- A thermal sample through black level, non-uniformity and tone window (R318). -/
def thermalPix (store cal : List Byte) (lo hi W H x y raw : Nat) : Nat :=
  let black := clampI ((le store 0x180 2 : Nat) + sext (le cal 0 4) 32) 0 65535
  let G := gridAt (fun n => (gridNode store cal n).1) W H x y
  let O := gridAt (fun n => (gridNode store cal n).2) W H x y
  let v := clampI (rsh ((raw - black) * G) 14 + O) 0 65535
  (((clampI v lo hi) - lo) * 255 / (hi - lo : Int)).toNat

/-- R, G, B and Y of the picture at a position that lies inside it. -/
def Shaping.px (w : Shaping) (store cal : List Byte) (x y : Nat) : List Nat :=
  let s := w.ep.shaper
  let W := w.width
  let rows := w.rows
  let conv := yccToRgb (pickMatrix s.matrix w.vuiMatrix) (pickFull s.range w.fullRange)
  match w.fmt with
  | 0 =>
    let ch := (w.height + 1) / 2
    let c := fun (k : Nat) => chroma420 (fun j i => smp rows (2 * j + k) (W + i)) ((W + 1) / 2) ch x y
    conv (smp rows y x) (c 0) (c 1)
  | 1 =>
    let c := fun (k : Nat) => chroma422 (fun i => smp rows y (W + k * (W / 2) + i)) (W / 2) x
    conv (smp rows y x) (c 0) (c 1)
  | 2 =>
    let p := (List.range 3).map fun c => smp rows y (3 * x + c) % 256
    p ++ [Config.rgbToY (p.getD 0 0) (p.getD 1 0) (p.getD 2 0) % 256]
  | 3 => bayerRgb s.bayer w.depth W w.height rows x y
  | _ =>
    let v := thermalPix store cal s.toneLo s.toneHi W w.height x y (smp rows y x)
    [v, v, v, v]

/-- Channels of an output, as indices into R, G, B, Y. -/
def outChans (s : ShaperSet) : List Nat := if s.order = 0 then [0, 1, 2] else if s.order = 1 then [2, 1, 0] else [3]

/-- The bytes of one output of w × h pixels (R299); f gives a pixel's value for channel number i of the output. -/
def outFormat (s : ShaperSet) (w h : Nat) (f : Nat → Nat → Nat → Nat) : List Byte :=
  let n := (outChans s).length
  let b := fun (v : Nat) => BitVec.ofNat 8 (if s.int8 then v + 128 else v)
  if s.layout = 0 then
    (List.range n).flatMap fun c => (List.range h).flatMap fun y => (List.range w).map fun x => b (f x y c)
  else
    let k := if s.layout = 1 then 16 else 32
    (List.range h).flatMap fun y => (List.range w).flatMap fun x => padTo ((List.range n).map fun c => b (f x y c)) k

def padValue (s : ShaperSet) (c : Nat) : Nat := s.pad.getD c 0

/-! ### The frame path (R298) -/

/-- A scaler pass over taps, brought to an integer (log entry 21). -/
def scalePass (coef : Nat → Int) (taps : List Int) : Int :=
  let s := (taps.zipIdx.map fun t => coef t.2 * t.1).foldl (· + ·) 0
  if s % 256 = 0 then s / 256 else Config.scaleRound s

/-- The integer part and the phase of an output position on an axis of n source and sn scaled samples. -/
def scalePos (n sn o : Nat) : Int × Nat :=
  let s : Int := (q16 ((2 * o + 1) * n) (2 * sn) : Nat) - 32768
  (s / 65536, (s % 65536 / 1024).toNat)

/-- A pixel of the scaled picture, channel ch of R, G, B, Y. -/
def scalePx (s : ShaperSet) (px : Nat → Nat → List Nat) (W H sw sh x y ch : Nat) : Nat :=
  let X := scalePos W sw x
  let Y := scalePos H sh y
  let col := fun (r : Int) => (List.range 8).map fun (t : Nat) =>
    (((px (clampI (X.1 - 3 + t) 0 (W - 1)).toNat (clampI r 0 (H - 1)).toNat).getD ch 0 : Nat) : Int)
  let rows := (List.range 6).map fun (t : Nat) => scalePass (Config.scalerCoeff s.scalerSet sw W false X.2) (col (Y.1 - 2 + t))
  clamp8 (scalePass (Config.scalerCoeff s.scalerSet sh H true Y.2) rows)

/-- Offsets of the scaled picture in the tensor. -/
def ShaperSet.offsets (s : ShaperSet) (sw sh : Nat) : Nat × Nat :=
  if !s.letterbox || s.topLeft then (0, 0) else ((s.outW - sw) / 2, (s.outH - sh) / 2)

/-- The bytes of the frame tensor. -/
def frameTensor (s : ShaperSet) (px : Nat → Nat → List Nat) (W H : Nat) : List Byte :=
  let r := s.scaled W H
  let o := s.offsets r.1 r.2
  outFormat s s.outW s.outH fun x y c =>
    if o.1 ≤ x && x < o.1 + r.1 && o.2 ≤ y && y < o.2 + r.2 then
      scalePx s px W H r.1 r.2 (x - o.1) (y - o.2) ((outChans s).getD c 0)
    else padValue s c

/-! ### Crops (R303 to R305) -/

/-- The natural level of a crop. -/
def CropReq.level (r : CropReq) : Nat :=
  let m := max (r.a.natAbs + r.b.natAbs) (r.c.natAbs + r.d.natAbs)
  if m < 131072 then 0 else if m < 262144 then 1 else if m < 524288 then 2 else 3

/-- The source point of output pixel (u, v), Q16.16. -/
def CropReq.src (r : CropReq) (u v : Nat) : Int × Int := (r.x0 + r.a * u + r.b * v, r.y0 + r.c * u + r.d * v)

/-- A coordinate at level L. -/
def lvlCoord (x : Int) (L : Nat) : Int := (x + 32768) / 2 ^ L - 32768

/-- The corners of a crop of w × h pixels. -/
def CropReq.corners (r : CropReq) (w h : Nat) : List (Int × Int) :=
  [r.src 0 0, r.src (w - 1) 0, r.src 0 (h - 1), r.src (w - 1) (h - 1)]

/-- Rows of level L that a crop's footprint spans. -/
def CropReq.footprint (r : CropReq) (w h L : Nat) : Nat :=
  let ys := (r.corners w h).map fun c => lvlCoord c.2 L
  let lo := (ys.foldl min (ys.headD 0)) / 65536
  let hi := (ys.foldl max (ys.headD 0) + 65535) / 65536
  (hi - lo + 1).toNat

/-- Rows of the window of level L for a picture W samples wide. -/
def cropWindow (W L : Nat) : Nat := if L = 0 then ringRows W - 8 else min 64 (65536 / (64 * cdiv W 64))

/-- The level a crop is sampled at, if one fits. -/
def CropReq.useLevel (r : CropReq) (W w h : Nat) : Option Nat :=
  ([0, 1, 2, 3].filter fun L => r.level ≤ L).find? fun L => r.footprint w h L ≤ cropWindow W L

/-- A sample of level L, channel number i of the output; outside the picture the edge or the pad value. -/
def lvlPx (s : ShaperSet) (px : Nat → Nat → List Nat) (W H : Nat) (edge : Bool) (L i : Nat) (x y : Int) : Int :=
  let n : Int := 2 ^ L
  let one := fun (xx yy : Int) =>
    if !edge && (xx < 0 || W ≤ xx || yy < 0 || H ≤ yy) then ((padValue s i : Nat) : Int)
    else (((px (clampI xx 0 (W - 1)).toNat (clampI yy 0 (H - 1)).toNat).getD ((outChans s).getD i 0) 0 : Nat) : Int)
  let t := (List.range (2 ^ L)).map fun (dy : Nat) =>
    ((List.range (2 ^ L)).map fun (dx : Nat) => one (n * x + dx) (n * y + dy)).foldl (· + ·) 0
  rsh (t.foldl (· + ·) 0) (2 * L)

/-- The bytes of a crop at level L. -/
def cropBytes (s : ShaperSet) (px : Nat → Nat → List Nat) (W H : Nat) (r : CropReq) (L : Nat) : List Byte :=
  outFormat s s.cropW s.cropH fun u v i =>
    let p := r.src u v
    let x := lvlCoord p.1 L
    let y := lvlCoord p.2 L
    let fx := x % 65536 / 256
    let fy := y % 65536 / 256
    let q := lvlPx s px W H r.edge L i
    let X := x / 65536
    let Y := y / 65536
    clamp8 (rsh ((256 - fy) * ((256 - fx) * q X Y + fx * q (X + 1) Y) + fy * ((256 - fx) * q X (Y + 1) + fx * q (X + 1) (Y + 1))) 16)

/-- The footprint reaches outside the picture. -/
def CropReq.outside (r : CropReq) (W H w h : Nat) : Bool :=
  (r.corners w h).any fun c => c.1 < 0 || 65536 * (W - 1 : Int) < c.1 || c.2 < 0 || 65536 * (H - 1 : Int) < c.2

/-- A crop to be written: source, index, request, level. -/
structure CropJob where
  source : Nat
  index : Nat
  req : CropReq
  level : Nat

/-- The crops of a picture in the order of R305, and how many are dropped. -/
def cropJobs (s : ShaperSet) (W : Nat) (steer : List (Nat × CropReq)) : List CropJob × Nat :=
  let all := ((s.crops.zipIdx.filter fun c => c.1.valid).map fun c => (0, c.2, c.1)) ++ steer.map fun c => (1, c.1, c.2)
  let tried := all.take s.maxCrops
  let fit := tried.filterMap fun c => (c.2.2.useLevel W s.cropW s.cropH).map fun L => (⟨c.1, c.2.1, c.2.2, L⟩ : CropJob)
  (fit, all.length - fit.length)

/-- Table Crop-list entry. -/
def cropEntry (s : ShaperSet) (W H : Nat) (j : CropJob) : List Byte :=
  toLE 1 j.source ++ toLE 1 j.index ++
  toLE 1 (b2n (j.req.outside W H s.cropW s.cropH) + 2 * b2n (decide (j.req.level < j.level))) ++ toLE 1 j.level ++ toLE 4 j.req.track ++
  zeros 8

/-- Table Crop-list header and the entries: 8 KiB. -/
def cropList (w : Shaping) (handle flags dropped : Nat) (jobs : List CropJob) : List Byte :=
  let s := w.ep.shaper
  let r := s.scaled w.width w.height
  let o := s.offsets r.1 r.2
  let q := fun (a b : Nat) => if s.outW = 0 then 0 else fp32.pack (f32div (FV.ofInt a) (FV.ofInt b))
  let th := w.fmt = 4
  padTo (padTo (toLE 4 w.frame ++ toLE 2 w.ep.num ++ toLE 2 jobs.length ++ toLE 4 handle ++ toLE 4 w.steerFrame ++ toLE 1 flags ++
    toLE 1 (min 255 dropped) ++ toLE 2 0 ++ toLE 4 (q r.1 w.width) ++ toLE 4 (q r.2 w.height) ++ toLE 2 o.1 ++ toLE 2 o.2 ++
    toLE 2 w.width ++ toLE 2 w.height ++ toLE 2 (if th then s.toneLo else 0) ++ toLE 2 (if th then s.toneHi else 0)) 256 ++
    jobs.flatMap (cropEntry s w.width w.height)) 8192

/-! ### Steering (R306 to R308) -/

/-- The entries of the steering table used for a frame, the src_frame, the header flags, the addresses read. -/
def Dev.steering (d : Dev) (s : ShaperSet) (frame epoch : Nat) : List (Nat × CropReq) × Nat × Nat × List Nat :=
  if s.steerBase = 0 then ([], 0xFFFFFFFF, 0, [])
  else
    let h := d.rdN s.steerBase 32
    let src := le h 0 4
    let age := (frame + 2 ^ 32 - src) % 2 ^ 32
    let n := min 256 (le h 8 2)
    let half := s.steerBase + 8192 * (byteAt h 6 % 2 + 1)
    let reads := span s.steerBase 32 ++ span half (32 * n)
    if byteAt h 7 = 1 ∧ 1 ≤ age ∧ age ≤ s.steerMaxAge ∧ (le h 4 2 = epoch ∨ s.steerCarry) then
      let es := (List.range n).map fun i => (i, parseCrop (d.rdN (half + 32 * i) 32))
      (es.filter fun e => e.2.valid, src, 1, reads)
    else ([], 0xFFFFFFFF, if byteAt h 7 = 1 then 2 else 0, reads)

/-! ### Pipes -/

def Dev.pipe (d : Dev) (k : Nat) : Pipe := mgetD d.pipes k {}
def Dev.modPipe (d : Dev) (k : Nat) (f : Pipe → Pipe) : Dev := { d with pipes := mput d.pipes k (f (d.pipe k)) }
def Dev.port (d : Dev) (k : Nat) : Port := mgetD d.ports k {}
def Dev.modPort (d : Dev) (k : Nat) (f : Port → Port) : Dev := { d with ports := mput d.ports k (f (d.port k)) }

/-- Source number of a sensor port's virtual channel: 2 for channel 0, 4 to 6 for channels 1 to 3 (3 is the JPEG unit). -/
def vcSource (vc : Nat) : Nat := if vc = 0 then 2 else 3 + vc
def sourceVc (source : Nat) : Option Nat := if source = 2 then some 0 else if 4 ≤ source ∧ source ≤ 6 then some (source - 3) else none

/-- The pipe serves pictures (R421). -/
def Dev.pipeOn (d : Dev) (k : Nat) : Bool := k < 4 && !d.unitOut (0x20 + k) && d.clocked 3

/-- SHP_STATUS.active. -/
def Dev.syncPipe (d : Dev) (k : Nat) : Dev :=
  let w := (d.pipe k).work
  let on := fun (p : Nat → Bool) => b2n (w.any fun x => p x.1)
  d.setFld (R.SHP_STATUS k) F.SHP_STATUS_active (on (· = 0) + 2 * on (· = 1) + 4 * on fun s => (sourceVc s).isSome)

/-- The picture whose first row a source holds, as the pipe takes it up. -/
def Dev.sourcePic (d : Dev) (k source : Nat) : Option Shaping :=
  let ofPic : Pic → Shaping := fun P => {
    stream := P.info.stream, frame := P.frame, ep := P.ep, stamp := P.stamp, width := P.info.width, height := P.info.height,
    vuiMatrix := P.info.vuiMatrix, fullRange := P.info.fullRange, rows := [], buf := none, noBuf := false, steer := [],
    steerFrame := 0, flags := 0 }
  if source ≤ 1 then
    let e := d.engine (2 * k + source)
    if e.ring = [] then none else e.src.map ofPic
  else if source = 3 then (if k = 0 then d.jpeg.img.map ofPic else none)
  else match sourceVc source with
    | none => none
    | some vc =>
      let p := d.port k
      let f := ((p.ended.find? fun x => x.1 = vc).map (·.2)).or (mget p.cur vc)
      match f with
      | some f =>
        if (d.pipe k).fifo.any fun l => l.1 = 4 * f.frame + vc then
          some {
            fmt := f.fmt, depth := f.depth, stream := f.stream, frame := f.frame, ep := f.ep, stamp := f.stamp, width := f.width,
            height := 0, vuiMatrix := none, fullRange := false, rows := [], buf := none, noBuf := false, steer := [],
            steerFrame := 0, flags := 0 }
        else none
      | none => none

/-- SHAPER_PICTURE_START: at the first row the buffer is allocated and the steering table read (R300, R305 to R308). -/
def execShaperPictureStart (pipe source : Nat) (s : State) : Host.Outcome State Fault Refusal :=
  onDev s fun d =>
    if !d.pipeOn pipe || (mget (d.pipe pipe).work source).isSome then d
    else match d.sourcePic pipe source with
      | none => d
      | some w =>
        let live := (d.frame? w.stream w.frame false).isSome
        let r := if live then d.pop w.ep.shaper.inPool 1 else (none, d)
        let d := r.2
        let d := if live && r.1.isNone then d.satFld (R.SHP_STATUS pipe) F.SHP_STATUS_no_buffer 1 else d
        let st := d.steering w.ep.shaper w.frame w.ep.num
        let d := d.noteRead st.2.2.2
        let unauth := ((d.stream? w.stream).map (·.unauth)).getD false
        let w := { w with buf := r.1, noBuf := live && r.1.isNone, steer := st.1, steerFrame := st.2.1,
                          flags := st.2.2.1 + 16 * b2n unauth }
        let d := d.modFrame w.stream w.frame false fun f => { f with buf := r.1 }
        (d.modPipe pipe fun p => { p with work := mput p.work source w }).syncPipe pipe

/-! ### Row groups (R294) -/

/-- Sensor lines of a picture that the pipe has taken up wait. -/
def Pipe.sensorWaits (p : Pipe) : Bool :=
  p.work.any fun w => match sourceVc w.1 with
    | some vc => p.fifo.any fun l => l.1 = 4 * w.2.frame + vc
    | none => false

/-- Rows that a source has for the picture being served. -/
def Dev.rowsReady (d : Dev) (k source : Nat) : Bool :=
  (mget (d.pipe k).work source).isSome &&
    (if source ≤ 1 then (d.engine (2 * k + source)).ring ≠ [] else source = 3 && d.jpeg.img.isSome)

/-- A line as the pipe sees it: its samples, the line above again, or mid-grey (R313). -/
def takeLine (w : Shaping) : Option (List Nat) → List Nat
  | some l => l
  | none =>
    match w.rows.getLast? with
    | some r => r
    | none => List.replicate (w.width * (if w.fmt = 1 then 2 else if w.fmt = 2 then 3 else 1)) (2 ^ (w.depth - 1))

/-- SHAPER_ROW_GROUP: the sensor port first, the other sources in rotation (R294). -/
def execShaperRowGroup (pipe source : Nat) (s : State) : Host.Outcome State Fault Refusal :=
  onDev s fun d =>
    let p := d.pipe pipe
    match mget p.work source with
    | none => d
    | some w =>
      let put := fun (d : Dev) (rows : List (List Nat)) =>
        let d := d.modPipe pipe fun p => { p with work := mput p.work source { w with rows := w.rows ++ rows }, lastSource := source }
        (d.wrapFld (R.SHP_ROWS pipe) F.SHP_ROWS_rows rows.length).setFld (R.SHP_STATUS pipe) F.SHP_STATUS_stream w.stream
      if !d.pipeOn pipe then d
      else match sourceVc source with
        | some vc =>
          match p.fifo.find? fun l => l.1 = 4 * w.frame + vc with
          | none => d
          | some l => put (d.modPipe pipe fun p => { p with fifo := p.fifo.erase l }) [takeLine w l.2]
        | none =>
          let others := [0, 1, 3].any fun x => x ≠ source && d.rowsReady pipe x
          if p.sensorWaits || !d.rowsReady pipe source || (others && p.lastSource = source) then d
          else if source = 3 then
            let rows := (d.jpeg.img.map (·.rowsDone)).getD []
            put { d with jpeg := { d.jpeg with img := none } } rows
          else
            let n := 2 * pipe + source
            let e := d.engine n
            let got := e.ring
            let e' := ({ e with ring := [], ringFirst := e.ringFirst + got.length } : Engine).flow w.width
            let whole := w.height ≤ w.rows.length + got.length
            put (d.modEngine n fun _ => { e' with src := if whole then none else e.src, ringFirst := if whole then 0 else e'.ringFirst }) got

/-! ### The end of a picture (R300 to R302, R309) -/

/-- A picture's crops and crop list written into the revisit cache (R309). -/
def Dev.revisitWrite (d : Dev) (w : Shaping) (dropped : Nat) (jobs : List CropJob) (crops : List (List Byte)) : Dev :=
  let s := w.ep.shaper
  let drop := fun (d : Dev) => match ((d.stream? w.stream).map (·.revisits)).getD [] with
    | x :: r => (d.modStream w.stream fun s => { s with revisits := r }).refDec x.handle
    | [] => d
  if s.revisitDepth = 0 || d.poolSize s.revisitPool < 8192 + s.maxCrops * s.cropStride then d
  else
    let d := if s.revisitDepth ≤ ((d.stream? w.stream).map (·.revisits.length)).getD 0 then drop d else d
    let r : Option Nat × Dev := match d.pop s.revisitPool 1 with
      | (some h, d) => (some h, d)
      | (none, d) => (drop d).pop s.revisitPool 1
    match r with
    | (none, d) => d
    | (some h, d) =>
      let a := d.bufAddr h
      let d := d.writeRun a (cropList w h (w.flags ||| 8) dropped jobs)
      let d := (crops.zipIdx).foldl (fun d c => d.writeRun (a + 8192 + c.2 * s.cropStride) c.1) d
      let it : RevisitItem := { frame := w.frame, epoch := w.ep.num, stamp := w.stamp, handle := h, crops := jobs.length }
      d.modStream w.stream fun s => { s with revisits := s.revisits ++ [it] }

/-- n bytes that nothing constrains. -/
def Dev.freeBytes (d : Dev) (n : Nat) : List Byte × Dev :=
  let v := d.fresh
  ((List.range n).map fun i => BitVec.ofNat 8 (v.1 / 256 ^ i), v.2)

/-- The 4:2:0 copy of a sensor picture that an engine is to encode (R290; how it is scaled is not given: log entry 21). -/
def Dev.clipCopy (d : Dev) (w : Shaping) : Dev :=
  let c := w.ep.codec
  let n := c.clipW * c.clipH * 3 / 2
  if c.histMs = 0 || d.poolSize c.histPool < n then d
  else match d.pop c.histPool 1 with
    | (none, d) => d
    | (some h, d) =>
      let b := d.freeBytes n
      let k : Chunk := { handle := h, len := n, epoch := w.ep.num, stamp := w.stamp, num := some w.frame }
      (b.2.writeRun (d.bufAddr h) b.1).modStream w.stream fun s => { s with chunks := s.chunks ++ [k] }

/-- The outputs of a picture are written (R300, R301, R309). -/
def Dev.writeFrame (d : Dev) (w : Shaping) (store cal : List Byte) (h : Nat) : Dev :=
  let s := w.ep.shaper
  let px := w.px store cal
  let a := d.bufAddr h
  let j := cropJobs s w.width w.steer
  let crops := j.1.map fun c => cropBytes s px w.width w.height c.req c.level
  let d := if s.outW = 0 then d else d.writeRun a (frameTensor s px w.width w.height)
  let d := (crops.zipIdx).foldl (fun d c => d.writeRun (a + s.cropOff + c.2 * s.cropStride) c.1) d
  let slot := d.listBase s.inPool + 8192 * hIdx h
  let d := d.writeRun slot (cropList w h w.flags j.2 j.1)
  let d := d.revisitWrite w j.2 j.1 crops
  d.modFrame w.stream w.frame false fun f =>
    { f with st := .arrived, crops := j.1.length, listOff := (slot - sstBase) / 256 }

/-- The height of the picture of a source, once it is known. -/
def Dev.picHeight (d : Dev) (k source : Nat) (w : Shaping) : Option Nat :=
  match sourceVc source with
  | none => some w.height
  | some vc => ((d.port k).ended.find? fun x => x.1 = vc && x.2.frame = w.frame).bind (·.2.ended)

/-- SHAPER_FRAME_COMPLETE (R13, R15, R300 to R302, R309). -/
def execShaperFrameComplete (pipe source : Nat) (s : State) : Host.Outcome State Fault Refusal :=
  onDev s fun d =>
    match mget (d.pipe pipe).work source with
    | none => d
    | some w =>
      match d.picHeight pipe source w with
      | none => d
      | some H =>
        if w.rows.length < H || !d.pipeOn pipe then d
        else
          let w := { w with height := H }
          let p := d.port pipe
          let store := if (sourceVc source).isSome then p.store else []
          let cal := if (sourceVc source).isSome then p.cal else []
          let d := d.modPipe pipe fun x => { x with work := mdel x.work source }
          let d := d.modPort pipe fun x => { x with ended := x.ended.filter fun y => !(sourceVc source = some y.1 && y.2.frame = w.frame) }
          let d := d.syncPipe pipe
          match d.frame? w.stream w.frame false with
          | none => d
          | some f =>
            match w.buf with
            | none => d.voidFrame f 7 0
            | some h =>
              let d := d.writeFrame w store cal h
              if ((d.stream? w.stream).map (·.kind)).getD 0 = 1 then d.clipCopy w else d

end Sys2Proof.Machine
end

