-- ==== Sys2Proof/Machine/Sensors.lean ====
section
/-!
DEFINITION. Sensor ports and heads (R312 to R320): frames and lines, service of a port, identity stores and their authentication,
operating hours, and the sensor commands.
-/

namespace Sys2Proof.Machine

/-! ### The identity store (R316; offsets inside its header and its second block are the model's: log entry 22) -/

def headKind (b : List Byte) : Nat := byteAt b 6
def headSerial (b : List Byte) : List Byte := slice b 0x70 32
def headLife (b : List Byte) : Nat := le b 0x94 4
def headKey (b : List Byte) : List Byte := slice b 0x100 68

/-- Magic, format, OID, maker and signature of a store (R317). -/
def Dev.headOk (d : Dev) (b : List Byte) : Bool :=
  slice b 0 4 = [0x5A, 0x56, 0x53, 0x48] && le b 4 2 = 1 && le b 0x100 4 = 9 &&
    d.nv.makers.contains (shake256 (headKey b) 32) && Config.xmssVerify (headKey b) (slice b 0xE00 2820) (slice b 0 0xE00)

/-- One step of CRC-32 (IEEE 802.3) on a bit-reversed register. -/
def crcStep (c : BitVec 32) (b : Byte) : BitVec 32 :=
  (List.range 8).foldl (fun (c : BitVec 32) _ => if c.getLsbD 0 then (c >>> 1) ^^^ 0xEDB88320 else c >>> 1) (c ^^^ b.setWidth 32)

def crc32 (l : List Byte) : Nat := (l.foldl crcStep 0xFFFFFFFF ^^^ 0xFFFFFFFF).toNat

/-- An hour record: hours and seq, when its CRC holds. -/
def hourRec (b : List Byte) (o : Nat) : Option (Nat × Nat) :=
  if le b (o + 12) 4 = crc32 (slice b o 12) then some (le b o 4, le b (o + 4) 2) else none

/-- The current hours and seq, and the offset of the older record (R319). -/
def curHours (b : List Byte) : Nat × Nat × Nat :=
  match hourRec b 0x1FE0, hourRec b 0x1FF0 with
  | some a, some z => if (a.2 + 65536 - z.2) % 65536 < 32768 then (a.1, a.2, 0x1FF0) else (z.1, z.2, 0x1FE0)
  | some a, none => (a.1, a.2, 0x1FF0)
  | none, some z => (z.1, z.2, 0x1FE0)
  | none, none => (0, 65535, 0x1FE0)

/-- A head is authenticated, runs by permission, or its port is stopped (R317). -/
def Dev.authHead (d : Dev) (k : Nat) (store : List Byte) (permit : Bool) : Dev :=
  let ok := d.headOk store
  let d := if ok then d else d.logEv { code := Code.sensorAuth.num, unit := 0x28 + k }
  let auth := if ok then 1 else if permit then 3 else 2
  let d := d.setFld (R.SNS_STATUS k) F.SNS_STATUS_auth auth
  let d := d.modPort k fun p => { p with store := store, authed := ok, permit := permit }
  let d := if auth = 2 then d.setFld (R.SNS_STATUS k) F.SNS_STATUS_svc 0 else d
  { d with streams := mmap d.streams fun id s =>
      if (d.port k).vcs.any fun v => v.2 = id then { s with unauth := auth = 3 } else s }

/-! ### Frames (R312 to R314) -/

/-- A head that may send frames is attached and the port runs. -/
def Dev.portRuns (d : Dev) (k : Nat) : Bool :=
  let svc := d.fld (R.SNS_STATUS k) F.SNS_STATUS_svc
  let auth := d.fld (R.SNS_STATUS k) F.SNS_STATUS_auth
  k < 4 && (svc = 1 || svc = 2) && (auth = 1 || auth = 3)

/-- Bytes a line takes in the FIFO: one or two to a sample (log entry 22). -/
def lineBytes (depth : Nat) (l : Option (List Nat)) : Nat :=
  match l with
  | some x => x.length * (if depth ≤ 8 then 1 else 2)
  | none => 0

/-- Bytes in the sensor line FIFO of a pipe. -/
def Dev.fifoBytes (d : Dev) (k : Nat) : Nat :=
  ((d.pipe k).fifo.map fun l =>
    let f := (((d.port k).cur.map (·.2)) ++ (d.port k).ended.map (·.2)).find? fun f => f.frame = l.1 / 4
    lineBytes ((f.map (·.depth)).getD 16) l.2).foldl (· + ·) 0

/-- Lines enter the FIFO of a frame. -/
def Dev.pushLines (d : Dev) (k vc : Nat) (f : SFrame) (ls : List (Option (List Nat))) : Dev :=
  d.modPipe k fun p => { p with fifo := p.fifo ++ ls.map fun l => (4 * f.frame + vc, l) }

/-- Lines of a frame concealed with a subcode. -/
def SFrame.conceal (f : SFrame) (n sub : Nat) : SFrame :=
  { f with count := f.count + n, concealed := f.concealed + n, firstSub := if f.firstSub = 0 && n ≠ 0 then sub else f.firstSub }

/-- A frame's last line has come: what is missing is concealed, R281 and R282 apply (R313). -/
def Dev.endSFrame (d : Dev) (k vc : Nat) (f : SFrame) (height : Nat) : Dev :=
  let miss := height - f.count
  let d := d.pushLines k vc f (List.replicate miss none)
  let f := { f.conceal miss 0x11 with ended := some (max height f.count) }
  let H := max 1 (max height f.count)
  let frac := if f.concealed = 0 then 0 else cdiv (1024 * f.concealed) H
  let d := d.modPort k fun p => { p with cur := mdel p.cur vc, ended := p.ended ++ [(vc, f)], lastH := mput p.lastH vc H }
  let d := d.concealment f.stream f.frame f.ep frac f.firstSub
    (concealRecs f.stream f.frame f.stamp f.ep.num frac f.firstSub false false) (0x28 + k)
  if (d.port k).cur = [] then
    d.modPort k fun p => { p with partHour := p.partHour + (d.now - p.lastSeen.getD d.now), lastSeen := none }
  else d

/-- In Dawn a port passes every dawn_decim-th frame, from the first (R467). -/
def Dev.dawnPass (d : Dev) (k : Nat) : Bool × Dev :=
  let n := max 1 (d.fld R.CPR_PWR_CTL F.CPR_PWR_CTL_dawn_decim)
  if d.pwr.phase = .dawn then
    ((d.port k).decim % n = 0, d.modPort k fun p => { p with decim := p.decim + 1 })
  else (true, d)

/-- FRAME_START (R313, R339, R467). -/
def execFrameStart (port vc : Nat) (s : State) : Host.Outcome State Fault Refusal :=
  onDev s fun d =>
    let p := d.port port
    if !d.portRuns port || 4 ≤ vc || !d.working || d.pwr.phase = .dusk then d
    else
      let d := match mget p.cur vc with
        | some f => d.endSFrame port vc f (mgetD p.lastH vc f.count)
        | none => d
      let d := d.setFld (R.SNS_STATUS port) F.SNS_STATUS_link 1
      match mget p.vcs vc with
      | none => d
      | some id =>
        match (d.stream? id).bind Stream.latest with
        | none => d
        | some ep =>
          let r := d.dawnPass port
          let d := r.2
          if d.fld (R.SNS_STATUS port) F.SNS_STATUS_svc ≠ 1 || !r.1 then d
          else
            let r := (d.adoptEpoch id ep).takeNum id 0
            let unauth := ((d.stream? id).map (·.unauth)).getD false
            let f : SFrame := { stream := id, frame := r.1, ep := ep, stamp := d.now, count := 0, width := 0, fmt := 3, depth := 8,
                                concealed := 0, firstSub := 0 }
            let g : Frame := { stream := id, num := r.1, ep := ep, stamp := d.now, st := .shaping, ctx := ep.bind.ctx, unauth := unauth }
            let d := { r.2 with sched := { r.2.sched with frames := r.2.sched.frames ++ [g] } }
            d.modPort port fun p => { p with cur := mput p.cur vc f, lastSeen := p.lastSeen.or (some d.now) }

/-- Format and sample bits of a data type: 0 to 4 RAW8 to RAW16, 5 YUV422, 6 RGB888, 7 any other; by the head's kind. -/
def lineFmt (dt kind : Nat) : Nat × Nat :=
  if dt = 5 then (1, 8) else if dt = 6 then (2, 8)
  else (if kind = 1 then 4 else 3, [8, 10, 12, 14, 16].getD dt 8)

/-- SENSOR_LINE (R312 to R314). -/
def execSensorLine (port vc dt index : Nat) (samples : List Nat) (crcOk hdrFixed : Bool) (s : State) :
    Host.Outcome State Fault Refusal :=
  onDev s fun d =>
    if !d.portRuns port then d
    else
      let d := if hdrFixed then d.satFld (R.SNS_ERRS port) F.SNS_ERRS_hdr_corrected 1 else d
      let d := if crcOk then d else d.satFld (R.SNS_ERRS port) F.SNS_ERRS_crc 1
      match mget (d.port port).cur vc with
      | none => d
      | some f =>
        if 7 ≤ dt || index < f.count || 4096 ≤ index then d
        else
          let m := lineFmt dt (headKind (d.port port).store)
          let w := samples.length / (if m.1 = 1 then 2 else if m.1 = 2 then 3 else 1)
          let f := if f.width = 0 then { f with width := min 4096 w, fmt := m.1, depth := m.2 } else f
          let miss := index - f.count
          let full := 45056 < d.fifoBytes port + lineBytes f.depth (some samples)
          let good := crcOk && !full
          let f := f.conceal miss 0x11
          let f := if good then { f with count := f.count + 1 } else f.conceal 1 (if crcOk then 0x12 else 0x10)
          let d := d.pushLines port vc f (List.replicate miss none ++ [if good then some samples else none])
          d.modPort port fun p => { p with cur := mput p.cur vc f }

/-- A STOPPING port whose frames have ended is OFF, or ON again (R320). -/
def Dev.portIdle (d : Dev) (k : Nat) : Dev :=
  if d.fld (R.SNS_STATUS k) F.SNS_STATUS_svc = 2 ∧ (d.port k).cur = [] then
    let on := d.flag (R.SNS_STATUS k) F.SNS_STATUS_enable_pending
    (d.setFld (R.SNS_STATUS k) F.SNS_STATUS_enable_pending 0).setFld (R.SNS_STATUS k) F.SNS_STATUS_svc (b2n on)
  else d

/-- FRAME_END (R313, R320). -/
def execFrameEnd (port vc height : Nat) (s : State) : Host.Outcome State Fault Refusal :=
  onDev s fun d =>
    match mget (d.port port).cur vc with
    | none => d
    | some f => if d.portRuns port then (d.endSFrame port vc f (min 4096 height)).portIdle port else d

/-- SNS_CTL_WRITE (R320). -/
def execSnsCtlWrite (port : Nat) (value : Word) (s : State) : Host.Outcome State Fault Refusal :=
  onDev s fun d =>
    if 4 ≤ port || !d.regOpen (R.SNS_CTL port) then d
    else
      let on := value.getLsbD 0
      let d := d.setFld (R.SNS_CTL port) F.SNS_CTL_enable (b2n on)
      let n := svcNext (d.fld (R.SNS_STATUS port) F.SNS_STATUS_svc) (d.flag (R.SNS_STATUS port) F.SNS_STATUS_enable_pending) on
        ((d.port port).cur ≠ [])
      (d.setFld (R.SNS_STATUS port) F.SNS_STATUS_svc n.1).setFld (R.SNS_STATUS port) F.SNS_STATUS_enable_pending (b2n n.2)

/-! ### Operating hours (R319) -/

def hour : Nat := 3600 * 10 ^ 8

/-- The head of a port no longer stands behind cause bit 2; without any such head the bit is cleared (R441). -/
def Dev.headGone (d : Dev) (k : Nat) : Dev :=
  let h := d.fld R.TEL_REPLACE F.TEL_REPLACE_heads
  if !bit h k then d
  else
    let d := d.setFld R.TEL_REPLACE F.TEL_REPLACE_heads (h - 2 ^ k)
    if h = 2 ^ k then d.setFld R.TEL_REPLACE F.TEL_REPLACE_cause (d.fld R.TEL_REPLACE F.TEL_REPLACE_cause &&& (0x1F ^^^ 4)) else d

/-- A head at 90 % of its rated life: the notice bit and the replace request (R319, R441). -/
def Dev.headLifeCheck (d : Dev) (k : Nat) : Dev :=
  let st := (d.port k).store
  let hours := (curHours st).1
  if st ≠ [] && 9 * headLife st ≤ 10 * hours then
    let d := d.setFld (R.SNS_STATUS k) F.SNS_STATUS_life_notice 1
    let d := d.setFld R.TEL_REPLACE F.TEL_REPLACE_heads (d.fld R.TEL_REPLACE F.TEL_REPLACE_heads ||| 2 ^ k)
    d.replaceCause 2 2 k (headLife st - hours)
  else d

/-- HEAD_HOUR: the older hour record is written and read back, once more when the first read-back fails. -/
def execHeadHour (port : Nat) (readBack1 readBack2 : Bool) (s : State) : Host.Outcome State Fault Refusal :=
  onDev s fun d =>
    let p := d.port port
    if 4 ≤ port || p.store = [] || p.partHour + (d.now - p.lastSeen.getD d.now) < hour then d
    else
      let d := d.modPort port fun p => { p with partHour := p.partHour + (d.now - p.lastSeen.getD d.now) - hour,
                                                lastSeen := p.lastSeen.map fun _ => d.now }
      let c := curHours p.store
      let hours := c.1 + 1 + p.carried
      let body := toLE 4 hours ++ toLE 2 (c.2.1 + 1) ++ zeros 6
      let b := body ++ toLE 4 (crc32 body)
      let d := d.out (.i3c port 0x50 (toLE 2 c.2.2 ++ b))
      if !readBack1 && !readBack2 then
        (d.modPort port fun p => { p with carried := p.carried + 1 }).health Ev.headHours.code 0 port hours 0
      else
        let d := d.modPort port fun p => { p with store := patch p.store c.2.2 b, carried := 0 }
        if 9 * headLife p.store ≤ 10 * hours ∧ !d.flag (R.SNS_STATUS port) F.SNS_STATUS_life_notice then
          let d := (d.setFld (R.SNS_STATUS port) F.SNS_STATUS_life_notice 1).health Ev.headHours.code 0 port hours 1
          d.headLifeCheck port
        else d

/-! ### Sensor commands -/

/-- The part of a user calibration record that applies: it names the head's serial first (R318, log entry 22). -/
def calFor (store data : List Byte) : List Byte :=
  if data ≠ [] ∧ slice data 0 32 = headSerial store then data.drop 32 else []

/-- ATTACH_SENSOR (R312, R317, R318). -/
def execAttachSensor (q : Nat) (e : List Byte) (data store : List Byte) (s : State) : Host.Outcome State Fault Refusal :=
  onCmd s 0x24 q e fun d =>
    let id := le e 16 2
    let k := byteAt e 18
    let vc := byteAt e 19
    let lanes := byteAt e 20
    let mbps := le e 22 2
    let st := padTo store 8192
    match d.stream? id with
    | none => d.reply q e Code.descInvalid.num
    | some x =>
      let taken := d.ports.any fun p => p.2.vcs.any fun v => decide (v.2 = id) != (p.1 = k && v.1 = vc)
      let same := headSerial (d.port k).store = headSerial st
      if x.kind ≠ 1 || x.destroying || 4 ≤ k || 4 ≤ vc || !([1, 2, 4].contains lanes) || mbps < 80 || 2500 < mbps || taken then
        d.reply q e Code.descInvalid.num
      else
        let permit := bit (byteAt e 21) 0
        let ok := d.headOk st
        let d := if ok || permit then d.modPort k fun p => { p with
            vcs := mput p.vcs vc id, cal := calFor st (if eAddr e = 0 then [] else padTo data (eLen e)),
            contClock := bit (byteAt e 21) 1, mbps := mbps }
          else d
        let d := d.authHead k st permit
        let d := d.setFld (R.SNS_STATUS k) F.SNS_STATUS_lanes (if lanes = 1 then 0 else if lanes = 2 then 1 else 2)
        let d := if same then d else (d.setFld (R.SNS_STATUS k) F.SNS_STATUS_life_notice 0).headGone k
        let d := d.headLifeCheck k
        d.reply q e (if ok || permit then 0 else Code.sensorAuth.num) (toLE 1 (d.fld (R.SNS_STATUS k) F.SNS_STATUS_auth))

/-- DETACH_SENSOR: the channel no longer feeds its stream; without a channel the port has no head. -/
def execDetachSensor (q : Nat) (e : List Byte) (s : State) : Host.Outcome State Fault Refusal :=
  onCmd s 0x25 q e fun d =>
    let k := byteAt e 18
    let vc := byteAt e 19
    if 4 ≤ k || (mget (d.port k).vcs vc).isNone then d.reply q e Code.descInvalid.num
    else
      let d := d.modPort k fun p => { p with vcs := mdel p.vcs vc }
      let d := if (d.port k).vcs = [] then
          ((d.modPort k fun p => { p with store := [], cal := [], authed := false, permit := false }).setFld (R.SNS_STATUS k)
            F.SNS_STATUS_auth 0).headGone k
        else d
      d.reply q e 0

/-- SENSOR_XFER (R315): data holds the host's bytes of a write, or what the head answered to a read. -/
def execSensorXfer (q : Nat) (e : List Byte) (data : List Byte) (transferred : Nat) (s : State) :
    Host.Outcome State Fault Refusal :=
  onCmd s 0x26 q e fun d =>
    let k := byteAt e 18
    let a := byteAt e 19
    let rd := bit (byteAt e 20) 0
    let n := min transferred (eLen e)
    if 4 ≤ k || 128 ≤ a || eLen e = 0 || 256 < eLen e || (!rd && a = 0x50) then d.reply q e Code.descInvalid.num
    else
      let d := if rd then d.send (.mem (eAddr e) (padTo data n)) else d.out (.i3c k a (padTo data n))
      d.reply q e 0 (toLE 4 n)

end Sys2Proof.Machine
end

