-- ==== Sys2Proof/Machine/Queues.lean ====
section
/-!
DEFINITION. Queues and rings (R367 to R374, R383): doorbells, the admin queue, records into rings; and the commands on queues, on
the mode, the log, the events and buffers (R251, R333, R376, R377, R444).
-/

namespace Sys2Proof.Machine

/-! ### Doorbells (R368) -/

/-- A doorbell value is discarded. -/
def Dev.badDoorbell (d : Dev) (kind n : Nat) : Dev :=
  let d := d.setFld R.QUE_ERR F.QUE_ERR_bad_doorbell 1
  (d.setFld R.QUE_ERR F.QUE_ERR_last n).setFld R.QUE_ERR F.QUE_ERR_kind kind

/-- SQ_TAIL_DOORBELL. -/
def execSqTailDoorbell (q : Nat) (value : Word) (s : State) : Host.Outcome State Fault Refusal :=
  onDev s fun d =>
    let v := bits value.toNat 0 12
    if !d.regOpen (0x20000 + 8 * q) || 64 ≤ q then d
    else match mget d.que.sqs q with
      | none => d.badDoorbell 0 q
      | some s => if s.size ≤ v then d.badDoorbell 0 q else { d with que := { d.que with sqs := mput d.que.sqs q { s with tail := v } } }

/-- Completion entries that wait go out in order while their queues have room (R370). -/
def Dev.flushCpl (d : Dev) : Dev :=
  let l := d.que.cplWait
  l.foldl (fun d c => d.complete c.1 c.2.1 c.2.2.1 c.2.2.2) { d with que := { d.que with cplWait := [] } }

/-- CQ_HEAD_DOORBELL. -/
def execCqHeadDoorbell (q : Nat) (value : Word) (s : State) : Host.Outcome State Fault Refusal :=
  onDev s fun d =>
    let v := bits value.toNat 0 12
    if !d.regOpen (0x20200 + 8 * q) || 64 ≤ q then d
    else match mget d.que.cqs q with
      | none => d.badDoorbell 1 q
      | some c =>
        if c.size ≤ v then d.badDoorbell 1 q
        else ({ d with que := { d.que with cqs := mput d.que.cqs q { c with head := v } } }).flushCpl

/-- RING_READ_DOORBELL: not behind the last accepted count, not ahead of the write count. -/
def execRingReadDoorbell (r : Nat) (value : Word) (s : State) : Host.Outcome State Fault Refusal :=
  onDev s fun d =>
    let v := value.toNat
    if !d.regOpen (0x20400 + 8 * r) || 64 ≤ r then d
    else match mget d.que.rings r with
      | none => d.badDoorbell 2 r
      | some x =>
        if (x.write + 2 ^ 32 - x.read) % 2 ^ 32 < (v + 2 ^ 32 - x.read) % 2 ^ 32 then d.badDoorbell 2 r
        else { d with que := { d.que with rings := mput d.que.rings r { x with read := v } } }

/-- QUE_ADMIN_CFG_WRITE (R383). -/
def execQueAdminCfgWrite (value : Word) (s : State) : Host.Outcome State Fault Refusal :=
  onDev s fun d =>
    if !d.regOpen R.QUE_ADMIN_CFG then d
    else
      let v := value.toNat
      let on := bit v 0
      let svc := d.fld R.QUE_ADMIN_CFG F.QUE_ADMIN_CFG_svc
      let d := if svc = 0 then
          let d := d.setFld R.QUE_ADMIN_CFG F.QUE_ADMIN_CFG_sq_log2 (bits v 1 4)
          let d := d.setFld R.QUE_ADMIN_CFG F.QUE_ADMIN_CFG_cq_log2 (bits v 5 4)
          d.setFld R.QUE_ADMIN_CFG F.QUE_ADMIN_CFG_vector (bits v 9 7)
        else d
      let d := d.setFld R.QUE_ADMIN_CFG F.QUE_ADMIN_CFG_enable (b2n on)
      if svc = 0 then (if on then d.adminStart else d)
      else if svc = 1 then (if on then d else (d.setFld R.QUE_ADMIN_CFG F.QUE_ADMIN_CFG_svc 2).adminSettle)
      else d.setFld R.QUE_ADMIN_CFG F.QUE_ADMIN_CFG_enable_pending (b2n on)

/-! ### Rings (R372 to R374, R363) -/

/-- Units of a ring among the writes that are held. -/
def Dev.heldUnits (d : Dev) (x : Ring) : Nat :=
  (d.host.held.filter fun w => match w with
    | .mem a _ => x.base ≤ a && a < x.base + 64 * x.size
    | _ => false).length

/-- 64-byte units held (HIF_LINK_STATUS.held). -/
def Dev.syncHeld (d : Dev) : Dev :=
  let n := (d.host.held.map fun w => match w with
    | .mem _ b => cdiv b.length 64
    | _ => 1).foldl (· + ·) 0
  d.setFld R.HIF_LINK_STATUS F.HIF_LINK_STATUS_held (min 65535 n)

/-- The buffer of a program record that has been written or discarded returns. -/
def Dev.recDone (d : Dev) (w : WaitRec) : Dev :=
  let d := { d with que := { d.que with wait := d.que.wait.erase w } }
  match w.handle with
  | some h => d.refDec h
  | none => d

/-- A record's units written at the ring's write count. -/
def Dev.writeRec (d : Dev) (r : Nat) (x : Ring) (w : WaitRec) : Dev :=
  let n := unitsOf w.bytes
  let d := (List.range n).foldl (fun d i =>
    d.send (.mem (x.base + 64 * ((x.write + i) % 2 ^ 32 % x.size)) (slice w.bytes (64 * i) 64))) d
  ({ d with que := { d.que with rings := mput d.que.rings r { x with write := (x.write + n) % 2 ^ 32 } },
            host := { d.host with dma := mmod d.host.dma (64 + r) 0 (· + 1) } }).recDone w

/-- A record of ring r is discarded while the link is down (R363). -/
def Dev.discardRec (d : Dev) (r : Nat) (x : Ring) (w : WaitRec) : Dev :=
  let d := { d with que := { d.que with rings := mput d.que.rings r { x with discarded := (x.discarded + unitsOf w.bytes) % 2 ^ 32 } } }
  (d.hifErr F.HIF_ERR_records_lost).recDone w

/-- The records of one release that have room, in order, with fuel for their number. -/
def Dev.writeRelease (d : Dev) (r : Nat) (of : WaitRec) : Nat → Dev
  | 0 => d
  | n + 1 =>
    match mget d.que.rings r, d.que.wait.find? fun w => w.ring = r with
    | some x, some w =>
      let units := unitsOf w.bytes
      if w.stream ≠ of.stream || w.frame ≠ of.frame then d
      else if !d.linkUp && x.size < d.heldUnits x + units then (d.discardRec r x w).writeRelease r of n
      else if x.size - (x.write + 2 ^ 32 - x.read) % 2 ^ 32 < units then d
      else (d.writeRec r x w).writeRelease r of n
    | _, _ => d

/-- Frames whose last record was among those written. -/
def Dev.indexed (d : Dev) (l : List WaitRec) : Dev :=
  l.foldl (fun d w =>
    if w.last && w.stream < 256 then
      (d.modStream w.stream fun s => { s with lastIndexed := some w.frame }).sendDelta w.stream w.frame (le w.bytes 16 2)
    else d) d

/-- RING_RECORD_WRITE: the records, then the index, then the vector (R372, R460). -/
def execRingRecordWrite (ring : Nat) (s : State) : Host.Outcome State Fault Refusal :=
  onDev s fun d =>
    match mget d.que.rings ring, d.que.wait.find? fun w => w.ring = ring with
    | some _, some w =>
      if !d.working || d.unitOut (0x200 + ring) || !d.clocked 2 then d
      else
        let before := d.que.wait
        let d := d.writeRelease ring w d.que.wait.length
        match mget d.que.rings ring with
        | none => d
        | some x =>
          if d.que.wait = before then d
          else
            let d := d.send (.mem x.idxAddr (toLE 4 x.write ++ toLE 4 x.discarded))
            let gone := before.filter fun r => !d.que.wait.contains r
            ((d.raiseVec x.vector).syncHeld).indexed gone
    | _, _ => d

/-! ### Queue commands (R367, R376, R377) -/

def pow2In (n lo hi : Nat) : Bool := lo ≤ n && n ≤ hi && n &&& (n - 1) = 0

/-- CREATE_SQ. -/
def execCreateSq (q : Nat) (e : List Byte) (s : State) : Host.Outcome State Fault Refusal :=
  onCmd s 0x01 q e fun d =>
    let n := byteAt e 16
    let c := byteAt e 17
    if n < 64 && (mget d.que.sqs n).isNone && (mget d.que.cqs c).isSome && n ≠ 0 && pow2In (eLen e) 2 4096 && eAddr e % 4096 = 0 then
      let x : Sq := { base := eAddr e, size := eLen e, cq := c }
      ({ d with que := { d.que with sqs := mput d.que.sqs n x } }).reply q e 0
    else d.reply q e Code.descInvalid.num

/-- DELETE_SQ: completes when every fetched command of the queue has completed. -/
def execDeleteSq (q : Nat) (e : List Byte) (s : State) : Host.Outcome State Fault Refusal :=
  onCmd s 0x02 q e fun d =>
    let n := byteAt e 16
    match mget d.que.sqs n with
    | none => d.reply q e Code.descInvalid.num
    | some x =>
      if n = 0 || x.deleting then d.reply q e Code.descInvalid.num
      else
        let d := { d with que := { d.que with sqs := mput d.que.sqs n { x with deleting := true } } }
        ((d.keepCmd q e n).deleteSettle n).adminSettle

/-- CREATE_CQ. -/
def execCreateCq (q : Nat) (e : List Byte) (s : State) : Host.Outcome State Fault Refusal :=
  onCmd s 0x03 q e fun d =>
    let n := byteAt e 16
    let v := byteAt e 17
    if n < 64 && n ≠ 0 && (mget d.que.cqs n).isNone && 1 ≤ v && v ≤ 127 && pow2In (eLen e) 2 4096 && eAddr e % 4096 = 0 then
      let x : Cq := { base := eAddr e, size := eLen e, vector := v }
      ({ d with que := { d.que with cqs := mput d.que.cqs n x } }).reply q e 0
    else d.reply q e Code.descInvalid.num

/-- DELETE_CQ. -/
def execDeleteCq (q : Nat) (e : List Byte) (s : State) : Host.Outcome State Fault Refusal :=
  onCmd s 0x04 q e fun d =>
    let n := byteAt e 16
    if (mget d.que.cqs n).isNone || d.que.sqs.any (fun x => x.2.cq = n) then d.reply q e Code.descInvalid.num
    else ({ d with que := { d.que with cqs := mdel d.que.cqs n } }).reply q e 0

/-- CREATE_RING. -/
def execCreateRing (q : Nat) (e : List Byte) (s : State) : Host.Outcome State Fault Refusal :=
  onCmd s 0x05 q e fun d =>
    let n := byteAt e 16
    let v := byteAt e 17
    let a := le e 24 8
    if n < 64 && (mget d.que.rings n).isNone && 1 ≤ v && v ≤ 127 && pow2In (eLen e) 64 1048576 && eAddr e % 4096 = 0 && a % 8 = 0 then
      let x : Ring := { base := eAddr e, size := eLen e, vector := v, idxAddr := a }
      ({ d with que := { d.que with rings := mput d.que.rings n x } }).reply q e 0
    else d.reply q e Code.descInvalid.num

/-- DELETE_RING; records that still wait for the ring go with it. -/
def execDeleteRing (q : Nat) (e : List Byte) (s : State) : Host.Outcome State Fault Refusal :=
  onCmd s 0x06 q e fun d =>
    let n := byteAt e 16
    if (mget d.que.rings n).isNone || d.que.evRing = some n || d.streams.any (fun x => x.2.ring = n) then
      d.reply q e Code.descInvalid.num
    else
      let mine := d.que.wait.filter fun w => w.ring = n
      let d := mine.foldl Dev.recDone d
      ({ d with que := { d.que with rings := mdel d.que.rings n } }).reply q e 0

/-! ### Mode, log, events, buffers -/

/-- SET_MODE (R333). -/
def execSetMode (q : Nat) (e : List Byte) (s : State) : Host.Outcome State Fault Refusal :=
  onCmd s 0x30 q e fun d =>
    if 3 < byteAt e 16 || 1 < byteAt e 17 then d.reply q e Code.descInvalid.num
    else (d.setMode (byteAt e 16) (byteAt e 17)).reply q e 0

/-- Table Log entry. -/
def logBytes (x : LogEntry) : List Byte :=
  toLE 4 x.seq ++ toLE 8 x.time ++ toLE 1 x.code ++ toLE 1 x.sub ++ toLE 1 x.unit ++ toLE 1 x.flags ++ toLE 2 x.wher ++
    toLE 2 x.stream ++ toLE 4 x.frame ++ toLE 6 x.addr ++ toLE 2 x.pc

/-- READ_LOG (R443, R444). -/
def execReadLog (q : Nat) (e : List Byte) (s : State) : Host.Outcome State Fault Refusal :=
  onCmd s 0x34 q e fun d =>
    let first := le e 16 4
    let next := d.fld R.TEL_LOG_HEAD F.TEL_LOG_HEAD_next
    if next < first then d.reply q e Code.notFound.num
    else
      let l := ((d.recov.log.reverse.filter fun x => first ≤ x.seq).take (eLen e / 32))
      let d := if l = [] then d else d.send (.mem (eAddr e) (l.flatMap logBytes))
      d.reply q e 0 (toLE 4 l.length ++ toLE 4 (((l.getLast?).map fun x => x.seq + 1).getD first))

/-- SET_EVENTS (R373). -/
def execSetEvents (q : Nat) (e : List Byte) (s : State) : Host.Outcome State Fault Refusal :=
  onCmd s 0x35 q e fun d =>
    let r := byteAt e 16
    if r = 0xFF then ({ d with que := { d.que with evRing := none } }).reply q e 0
    else if (mget d.que.rings r).isNone then d.reply q e Code.descInvalid.num
    else ({ d with que := { d.que with evRing := some r } }).reply q e 0

/-- The entries of the journals for a buffer are removed; every unsettled FREE or REFDEC is logged (R251). -/
def Dev.dropJournal (d : Dev) (h : Nat) : Dev :=
  (List.range 8).foldl (fun d c =>
    let k := d.core c
    let mine := k.journal.filter fun j => j.2 = h
    if mine = [] then d
    else
      let d := mine.foldl (fun d j => match j.1, k.run with
        | .dec, some r => d.logEv { code := Code.doubleFree.num, unit := 0x49 + (if hPool h < 32 then 1 + hPool h / 16 else 0),
                                    addr := d.bufAddr h, wher := r.ctx + 64 * r.kernel }
        | _, _ => d) d
      d.modCore c fun k => { k with journal := k.journal.filter fun j => j.2 ≠ h }) d

/-- FORCE_FREE (R250, R251). -/
def execForceFree (q : Nat) (e : List Byte) (s : State) : Host.Outcome State Fault Refusal :=
  onCmd s 0x36 q e fun d =>
    let h := le e 20 4
    match d.buf h with
    | none => d.reply q e Code.addrRange.num
    | some b =>
      match b.st with
      | .free => d.reply q e Code.doubleFree.num
      | .allocated => ((d.dropJournal h).pushBuf h).reply q e 0
      | .quarantined => ((d.clear (d.bufAddr h) (d.poolSize (hPool h))).pushBuf h).reply q e 0

end Sys2Proof.Machine
end

