-- ==== Sys2Proof/Machine/Power.lean ====
section
/-!
DEFINITION. The power states and the level-3 reset (R436 to R440, R466 to R474, R494 to R499, R516, R517): the boot ROM, what a reset and
Night lose, what a restart and Dawn restore, sleep requests and wakes, Dusk.
-/

namespace Sys2Proof.Machine

/-! ### Phases (R366, R466) -/

def Phase.code : Phase → Nat
  | .booting => 0
  | .ready => 1
  | .resetting => 2
  | .dusk => 3
  | .night => 4
  | .dawn => 5

/-- GLB_ALIVE.state and CPR_PWR_STATUS.state report the phase. -/
def Dev.setPhase (d : Dev) (p : Phase) : Dev :=
  let d := (d.setFld R.GLB_ALIVE F.GLB_ALIVE_state p.code).setFld R.CPR_PWR_STATUS F.CPR_PWR_STATUS_state p.code
  { d with pwr := { d.pwr with phase := p } }

/-- Every switched rail is in regulation (R516). -/
def Dev.railsUp (d : Dev) : Bool := d.pwr.groups = 4 && d.pwr.groupOk

/-- The enables are lowered; a number of them is raised again (R516, R517). -/
def Dev.setGroups (d : Dev) (n : Nat) : Dev := { d with pwr := { d.pwr with groups := n, groupOk := false, failed := false } }

def Dev.setEntering (d : Dev) (b : Bool) : Dev := d.setFld R.CPR_PWR_STATUS F.CPR_PWR_STATUS_entering (b2n b)

/-! ### The boot ROM (R494 to R500) -/

/-- The lowest key slot, not revoked, that holds a hash. -/
def NonVol.keySlot (v : NonVol) (h : List Byte) : Option Nat :=
  (List.range 4).find? fun k => !bit v.revoked k && h ≠ [] && v.keySlots.getD k [] = h

/-- The first check of R494 that a slot fails, as boot_err codes it; 0: the slot boots. -/
def NonVol.slotErr (v : NonVol) (f : FwSlot) : Nat :=
  if (v.keySlot f.keyHash).isNone then 1
  else if !f.sigOk then 2
  else if f.rollback < v.rollback then 3
  else if !f.hashOk then 4
  else 0

/-- Slots A and B in turn: the slot that boots, and the error of the last one that does not. -/
def NonVol.tryBoot (v : NonVol) : Nat → Nat → Option Nat × Nat
  | 0, e => (none, e)
  | n + 1, e =>
    match v.slots[1 - n]? with
    | none => (none, e)
    | some f => if v.slotErr f = 0 then (some (1 - n), e) else v.tryBoot n (v.slotErr f)

/-- Registers that read fuses and the flash header (R348, R499, R510). -/
def Dev.bootFuses (d : Dev) : Dev :=
  let d := d.setFld R.SEC_BOOT_STATUS F.SEC_BOOT_STATUS_revoked d.nv.revoked
  let d := d.setFld R.SEC_BOOT_STATUS F.SEC_BOOT_STATUS_rollback d.nv.rollback
  let d := d.setFld R.SEC_BOOT_STATUS F.SEC_BOOT_STATUS_cust_key_set (b2n d.nv.custKey.isSome)
  let d := d.setFld R.SEC_POLICY F.SEC_POLICY_otp_enforce (b2n d.nv.enforce)
  let d := d.setFld R.SEC_POLICY F.SEC_POLICY_require_customer_sig
    (b2n (d.nv.enforce || d.flag R.SEC_POLICY F.SEC_POLICY_sw_require))
  d.setFld R.HIF_APERTURE_SIZE F.HIF_APERTURE_SIZE_size_log2 (if 28 ≤ d.nv.apLog2 ∧ d.nv.apLog2 ≤ 35 then d.nv.apLog2 else 30)

/-- Firmware runs from a slot with a verified header (R494, R495). -/
def Dev.runFw (d : Dev) (slot : Nat) (f : FwSlot) : Dev :=
  let d := d.setFld R.SEC_BOOT_STATUS F.SEC_BOOT_STATUS_fw_slot slot
  let d := d.setFld R.SEC_BOOT_STATUS F.SEC_BOOT_STATUS_key_slot ((d.nv.keySlot f.keyHash).getD 0)
  { d with pwr := { d.pwr with fw := some f } }

/-- The procedure of R494; when no slot boots, the ROM waits in recovery with the state BOOTING (R495). -/
def Dev.bootRom (d : Dev) : Dev :=
  let d := { d.bootFuses with host := { d.host with cfgLoaded := d.host.cfgLoaded || !d.pins.perstLow } }
  let d := d.setReg R.CPR_CLK_STATUS (d.reg R.CPR_CLK_STATUS ||| 0x41)
  let r := d.nv.tryBoot 2 0
  let d := d.setFld R.SEC_BOOT_STATUS F.SEC_BOOT_STATUS_boot_err r.2
  match r.1.bind fun k => (d.nv.slots[k]?).map fun f => (k, f) with
  | some (k, f) => d.runFw k f
  | none => (d.setFld R.SEC_BOOT_STATUS F.SEC_BOOT_STATUS_fw_slot 2).setPhase .booting

/-- The rails have come up, or PORESET_N has risen: the ROM runs when both hold (R516, R518). -/
def Dev.bootIfPowered (d : Dev) : Dev :=
  if d.railsUp && !d.pins.poresetLow && (d.pwr.phase = .booting || d.pwr.phase = .resetting) && d.pwr.fw.isNone then d.bootRom else d

/-! ### What a level-3 reset and Night lose (R18, R436, R469) -/

/-- Everything stored below the DRAM goes; the 64 header bytes of every set are written again (R204, R437). -/
def Dev.loseStores (d : Dev) : Dev :=
  let hdrs := d.sets.map fun y => (y.base, d.rdN y.base 64)
  let hi := fun (k : Nat) => decide (2 ^ 48 ≤ k)
  let d := { d with mem := { d.mem with
    cells := d.mem.cells.filter (fun c => hi c.1), tags := d.mem.tags.filter (fun c => hi (32 * c.1)),
    chk := d.mem.chk.filter (fun c => hi (32 * c.1)), wback := d.mem.wback.filter (fun c => hi (32 * c)), scrub := [] } }
  hdrs.foldl (fun d h => d.writeRun h.1 h.2) d

/-- What lies outside the always-on domain and the DRAM and is not a register (R18). -/
def Dev.loseWork (d : Dev) : Dev :=
  { d.loseStores with
    cores := [], stool := [], home := {}, bpm := {}, readouts := [], engines := [], jpeg := {}, pipes := [], sched := {}, gov := {},
    dvfs := [], dram := { d.dram with chs := [], hot := [], throttled := false },
    ports := mmap d.ports (fun _ p => { p with cur := [], ended := [] }),
    clk := { d.clk with conn := [], switchAt := [], fmeter := false } }

/-- A register keeps its value through a level-3 reset: GLB_ALIVE, the CPR block, the log, the replace request, the signing registers, and
what firmware restores from the recovery record (R6, R437, R443, R491, R504). -/
def regKept (off : Nat) : Bool :=
  off = R.GLB_ALIVE || off / 65536 = 1 || [R.TEL_LOG_HEAD, R.TEL_REPLACE, R.SCH_MODE, R.SEC_SIG_STATUS, R.SEC_SIG_INDEX_LO,
    R.SEC_SIG_INDEX_HI].contains off || (0xC0000 ≤ off && off < 0xC0800 && off % 32 < 0x18)

/-- The registers after a level-3 reset. -/
def Dev.resetRegs3 (d : Dev) : Dev :=
  let kept := d.regs.filter fun r => regKept r.1
  { d with regs := kept.foldr (fun r m => mput m r.1 r.2) (resetRegs.filter fun r => !regKept r.1) }

/-- Clocks fall back to the dawn oscillator: the PLLs are not ready and nothing switches (R494, R475). -/
def Dev.pllsOff (d : Dev) : Dev :=
  let d := d.setFld R.CPR_CLK_STATUS F.CPR_CLK_STATUS_ready (d.fld R.CPR_CLK_STATUS F.CPR_CLK_STATUS_ready &&& 0x43)
  d.setFld R.CPR_CLK_STATUS F.CPR_CLK_STATUS_switching 0

/-- Both stacks stand at OP0 with no step running. -/
def Dev.opZero (d : Dev) : Dev :=
  [0, 1].foldl (fun d k => (((d.setDv k {}).setOp k 0).setFld R.CPR_DVFS_STATUS (fBusy k) 0).setMv k) d

/-- A stream after a level-3 reset: its current epoch, its binding, its numbers; staged epochs, chunks, histories and caches are gone
(R437). -/
def Stream.restart (s : Stream) : Stream :=
  { s with staged := [], holdCount := 0, schedCtx := none, save := [],
           budget := if s.kind = 0 then 3 else 0, skipDue := s.kind = 0 && (s.skipDue || s.budget ≠ 3), lag := 0, refLag := 0,
           lastWithin := true, drift := false, unsup := false,
           refPic := [], slots := [], chunks := [], engine := none, history := [], histSkip := false, revisits := [], clips := [],
           relHeld := [], admission := 0 }

/-- A stream after Night: its chunks and its revisit cache are gone, its history is kept (R472). -/
def Stream.night (s : Stream) : Stream :=
  { s with revisits := [], chunks := [], refPic := [], engine := none, lag := 0, refLag := 0, slots := s.slots.map (fun x => (x.1, none)),
           budget := if s.kind = 0 then 3 else 0, skipDue := s.kind = 0 && (s.skipDue || s.budget ≠ 3) }

/-- The queues and rings go, with every command and every record that waits (R382). -/
def Dev.loseQueues (d : Dev) : Dev :=
  { d with que := { ({} : Queues) with evRing := d.que.evRing, evSeq := d.que.evSeq },
           host := { d.host with held := [], lossAt := none, lossRec := none, dma := [], apBase := 0 } }

/-- Goldom: nothing in flight, every port down; the map stays for the rejoin (R436, R457). -/
def Dev.loseFabric (d : Dev) : Dev :=
  { d with fab := { ({} : Fabric) with map := d.fab.map, standby := d.fab.standby } }

/-! ### Dusk (R365, R469) -/

/-- Entry to Dusk. -/
def Dev.startDusk (d : Dev) : Dev :=
  let d := d.setPhase .dusk
  { d with pwr := { d.pwr with duskStart := some d.now, sleepPending := false } }

/-- A sleep request (R468, R473). -/
def Dev.sleepReq (d : Dev) : Dev :=
  match d.pwr.phase with
  | .ready => d.startDusk
  | .dawn => if d.flag R.CPR_PWR_STATUS F.CPR_PWR_STATUS_entering then { d with pwr := { d.pwr with sleepPending := true } }
    else d.startDusk
  | .dusk => d.setFld R.CPR_PWR_STATUS F.CPR_PWR_STATUS_wake_pending 0
  | .booting | .resetting => { d with pwr := { d.pwr with sleepPending := true } }
  | .night => d

/-- Dawn begins from Night: the rails are raised again (R470, R516). -/
def Dev.leaveNight (d : Dev) : Dev :=
  let d := (d.setPhase .dawn).setEntering true
  let d := d.satFld R.CPR_PWR_STATUS F.CPR_PWR_STATUS_wakes 1
  ({ d with pwr := { d.pwr with restore := true } }).setGroups 1

/-- A wake with its cause bit (none: a write of target, R468). -/
def Dev.wake (d : Dev) (cause : Option Nat) : Dev :=
  let d := match cause with
    | some c => d.setFld R.CPR_PWR_STATUS F.CPR_PWR_STATUS_cause (d.fld R.CPR_PWR_STATUS F.CPR_PWR_STATUS_cause ||| 2 ^ c)
    | none => d
  let d := { d with pwr := { d.pwr with lastActive := d.now } }
  let aim := fun (d : Dev) =>
    if cause.isSome then d.setFld R.CPR_PWR_CTL F.CPR_PWR_CTL_target (d.fld R.CPR_PWR_CTL F.CPR_PWR_CTL_wake_target + 1) else d
  match d.pwr.phase with
  | .dusk => (aim d).setFld R.CPR_PWR_STATUS F.CPR_PWR_STATUS_wake_pending 1
  | .night => if d.recov.limit || d.pwr.tripped then d else (aim d).leaveNight
  | _ => d

/-- What a set's sequences occupy: every page handle named by its slots, each once. -/
def Dev.setPages (d : Dev) (y : SeqSet) : List Nat :=
  dedup ((d.setSlots y).flatMap fun x => if d.live x.2.2 then d.slotPages x.2.2 else [])

/-- Entries of a set that name page h name n instead; how many there are. -/
def Dev.renamePage (d : Dev) (y : SeqSet) (h n : Nat) : Nat × Dev :=
  let es := (d.setSlots y).flatMap fun x =>
    if d.live x.2.2 then ((d.slotPages x.2.2).zipIdx.filter fun p => p.1 = h).map fun p => x.2.2 + 16 + 4 * p.2 else []
  (es.length, es.foldl (fun d a => d.writeRun a (toLE 4 n)) d)

/-- Bytes copied from one place to another, with their poison. -/
def Dev.copyBytes (d : Dev) (src dst n : Nat) : Dev :=
  let pz := (span src n).filter d.poisonAt
  (d.writeRun dst (d.rdN src n)).setPoison (pz.map fun a => a - src + dst)

/-- Size of the region a set lies in. -/
def Dev.regionSize (d : Dev) (y : SeqSet) : Nat :=
  ((d.images.findSome? fun i => i.2.regions.findSome? fun r =>
    if r.places.any fun p => p.2 = y.base then some r.size else none)).getD 0

def Dev.modSet (d : Dev) (base : Nat) (f : SeqSet → SeqSet) : Dev :=
  { d with sets := d.sets.map fun (y : SeqSet) => if y.base = base then f y else y }

/-- The sequences of a set are lost: spill buffers it holds return to their pool (R204). -/
def Dev.loseSet (d : Dev) (y : SeqSet) : Dev :=
  let h := d.setH y.base
  let hs := (d.setPages y).filter fun p => h.spill ≠ 0xFF && hPool p = h.spill
  let d := (hs ++ y.copy).foldl (fun d p => d.unAlloc p) d
  d.modSet y.base fun z => { z with lost := true, pend := [], copy := [], moved := [] }

/-- A set is saved into its spill pool: reservations released, cabinet pages moved, the region copied; without a pool or a buffer its
sequences are lost (R204). -/
def Dev.saveSet (d : Dev) (y : SeqSet) : Dev :=
  let h := d.setH y.base
  let d := (d.setSlots y).foldl (fun d x =>
    ((d.slotResv x.2.2).foldl Dev.refDec d).writeRun (x.2.2 + 4) [BitVec.ofNat 8 (d.tblFlags x.2.2 / 4 * 4)]) d
  let cab := (d.setPages y).filter fun p => hPool p ≠ h.spill
  let size := d.regionSize y
  match (if h.spill = 0xFF then (none, d) else d.popMany h.spill (cab.length + cdiv size 4096) []) with
  | (none, d) => d.loseSet y
  | (some hs, d) =>
    let d := (cab.zip hs).foldl (fun d p =>
      let r := (d.copyBytes (d.bufAddr p.1) (d.bufAddr p.2) 4096).renamePage y p.1 p.2
      r.2.setBuf p.2 ⟨.allocated, r.1⟩) d
    let copy := hs.drop cab.length
    let d := copy.zipIdx.foldl (fun d p =>
      d.copyBytes (y.base + 4096 * p.2) (d.bufAddr p.1) (min 4096 (size - 4096 * p.2))) d
    d.modSet y.base fun z => { z with copy := copy, moved := hs.take cab.length, pend := [] }

/-- A set is restored: its region, and its cabinet pages into the page pool with the counts of R189 (R204). -/
def Dev.restoreSet (d : Dev) (y : SeqSet) : Dev :=
  if y.copy = [] then d
  else
    let size := d.regionSize y
    let d := y.copy.zipIdx.foldl (fun d p =>
      d.copyBytes (d.bufAddr p.1) (y.base + 4096 * p.2) (min 4096 (size - 4096 * p.2))) d
    let d := y.copy.foldl Dev.unAlloc d
    let h := d.setH y.base
    let d := y.moved.foldl (fun d p =>
      match d.pop h.pool 1 with
      | (none, d) => d
      | (some n, d) =>
        let r := (d.copyBytes (d.bufAddr p) (d.bufAddr n) 4096).renamePage y p n
        (r.2.setBuf n ⟨.allocated, r.1⟩).unAlloc p) d
    d.modSet y.base fun z => { z with copy := [], moved := [] }

/-- Units of ring r among the held writes, and the ring after they are discarded: they count as discarded, and what is written next takes
their places (R365, R372). -/
def Dev.dropHeld (d : Dev) : Dev :=
  let n := d.que.rings.map fun x => (x.1, d.heldUnits x.2)
  let rings := mmap d.que.rings fun r x =>
    let k := ((n.find? fun p => p.1 = r).map (·.2)).getD 0
    { x with write := (x.write + 2 ^ 32 - k) % 2 ^ 32, discarded := (x.discarded + k) % 2 ^ 32 }
  let any := n.any fun p => p.2 ≠ 0
  let d := { d with que := { d.que with rings := rings }, host := { d.host with held := [] } }
  let d := if any then d.hifErr F.HIF_ERR_records_lost else d
  d.syncHeld

/-- Records of rings that exist, waiting while the link is down, are discarded (R363, R365). -/
def Dev.dropWaiting (d : Dev) : Dev :=
  (d.que.wait).foldl (fun d w => match mget d.que.rings w.ring with
    | some x => d.discardRec w.ring x w
    | none => d) d

/-- Units discarded per ring beyond those of an earlier count. -/
def Dev.lossUnits (d : Dev) (before : SMap Ring) : List (Nat × Nat) :=
  d.que.rings.filterMap fun r =>
    let b := ((mget before r.1).map (·.discarded)).getD 0
    let n := (r.2.discarded + 2 ^ 32 - b) % 2 ^ 32
    if n = 0 then none else some (r.1, n)

/-- Step 3 of Dusk with the link down: held writes and waiting records go, and LINK_DISCARD is due (R365). -/
def Dev.linkDiscard (d : Dev) : Dev :=
  match d.host.lossAt with
  | none => d
  | some t =>
    if d.linkUp then d
    else
      let before := d.que.rings
      let d := d.dropWaiting.dropHeld
      { d with host := { d.host with lossRec := some (t, d.pwr.duskStart.getD d.now, d.lossUnits before) } }

/-- Steps 1 to 3 of Dusk are done: no command, no frame and no record that can still be written is left (R469). -/
def Dev.duskDone (d : Dev) : Bool :=
  d.sched.frames = [] && d.streams.all (fun s => s.2.relHeld = []) && d.que.cmds = [] && d.que.cplWait = [] &&
  (!d.linkUp || d.que.wait.all fun w => (mget d.que.rings w.ring).isNone) &&
  (List.range 8).all fun c => (d.core c).run.isNone

/-- Steps 3 to 7 of Dusk (R469). -/
def Dev.enterNight (d : Dev) : Dev :=
  let self := (d.fab.map.map (·.self)).getD 0
  let d := d.linkDiscard
  let d := (d.sets.foldl (fun d y => d.saveSet y) d).notice 1 self 0xFFFF none
  let d := d.streams.foldl (fun d s => s.2.chunks.foldl (fun d c => d.dropChunk s.1 c) d) d
  let bpm := d.bpm
  let d := d.dramDrain.loseWork
  let keep : Bpm := { bpm with
    bufs := bpm.bufs.filter (fun b => 48 ≤ hPool b.1), heads := bpm.heads.filter (fun b => 48 ≤ b.1),
    relink := bpm.relink.filter (fun b => 48 ≤ b.1) }
  let d : Dev := { d with bpm := keep, streams := mmap d.streams fun _ s => s.night }
  let d := d.loseFabric.pllsOff.opZero
  let d := { d with que := { d.que with wait := d.que.wait.map fun (w : WaitRec) => { w with handle := w.handle.filter fun h => 48 ≤ hPool h } } }
  let d := [0, 1, 2, 3].foldl (fun d k => d.setFld (R.FAB_PORT_STATUS k) F.FAB_PORT_STATUS_up 0) d
  let d := (d.setFld R.CPR_CLK_STATUS F.CPR_CLK_STATUS_ready (d.fld R.CPR_CLK_STATUS F.CPR_CLK_STATUS_ready &&& 0x41)).setPhase .night
  let d := d.setGroups 0
  let d := { d with pwr := { d.pwr with duskStart := none } }
  if d.flag R.CPR_PWR_STATUS F.CPR_PWR_STATUS_wake_pending && !d.recov.limit then
    (d.setFld R.CPR_PWR_STATUS F.CPR_PWR_STATUS_wake_pending 0).leaveNight
  else d.setFld R.CPR_PWR_STATUS F.CPR_PWR_STATUS_wake_pending 0

/-! ### The level-3 reset (R360, R436, R440) -/

/-- Ten minutes of device time. -/
def tenMinutes : Nat := 600 * 10 ^ 8

/-- The fourth reset that the device starts itself within ten minutes: it does not restart (R440). -/
def Dev.recoveryLimit (d : Dev) : Dev :=
  let self := (d.fab.map.map (·.self)).getD 0
  let d := { (d.notice 1 self 0xFFFF none) with recov := { d.recov with limit := true } }
  let d := d.replaceCause 4 4 0 0
  (d.health Ev.recoveryLimit.code 0 0 4 0).startDusk

/-- A level-3 reset starts: code of its cause, started by the device itself, and the silent core to be logged. -/
def Dev.startL3 (d : Dev) (code : Nat) (self : Bool) (silent : Option Nat) (keepCfg : Bool := self) : Dev :=
  let recent := d.recov.l3.filter fun t => d.now < t + tenMinutes
  if d.pwr.groups = 0 && d.pwr.phase ≠ .night || d.pwr.tripped then d
  else if self && !d.working then d
  else if self && 3 ≤ recent.length then d.recoveryLimit
  else
    let d := d.notice 1 ((d.fab.map.map (·.self)).getD 0) 0xFFFF none
    let d := (d.dramDrain.loseWork.loseQueues.loseFabric.resetRegs3.pllsOff.opZero).setPhase .resetting
    let d := d.wrapFld R.GLB_ALIVE F.GLB_ALIVE_resets 1
    let d := (d.setEntering false).setFld R.CPR_PWR_STATUS F.CPR_PWR_STATUS_wake_pending 0
    let rc : Recov := { log := d.recov.log, secCount := d.recov.secCount, second := d.recov.second,
                          l3 := if self then recent ++ [d.now] else recent, l3cause := some (code, silent) }
    let cfg := if keepCfg then d.host else { d.host with cfg := {}, vecAddr := [], vecData := [], unmasked := [], pba := [], cfgLoaded := false }
    let d := { d with recov := rc, host := cfg, streams := mmap d.streams (fun _ s => s.restart),
                      otp := {},
                      pwr := { d.pwr with booted := false, fw := none, wasReady := false, duskStart := none, sleepPending := false,
                                          thermal := false, restore := false } }
    (d.setFld R.HIF_LINK_STATUS F.HIF_LINK_STATUS_dl_up 0).setGroups 1

/-! ### Restoring contexts (R437, R471) -/

/-- The image as a place in DRAM. -/
def imgOf (a : Nat) (i : Image) : Img := ⟨a, i.size⟩

/-- Regions, banks and tags of one image come back from its bytes in DRAM; sets keep their headers. -/
def Dev.reloadImg (d : Dev) (a : Nat) (i : Image) : Dev :=
  let g := imgOf a i
  let hdrs := (d.sets.filter fun y => i.ctxs.contains y.ctx).map fun y => (y.base, d.rdN y.base 64)
  let places := d.placesOf i
  let d := i.regions.foldl (fun d r => d.fillRegion g i.ctxs r) d
  let d := i.ctxs.foldl (fun d c => match mget d.ctxs c with
    | none => d
    | some x => (d.fillBanks g x.variant places x.tagNos).initTags (d.varUses g x.variant places) x.tagNos) d
  hdrs.foldl (fun d h => (d.clear h.1 (d.regionSize { ctx := 0, req := 0, base := h.1 })).writeRun h.1 h.2) d

/-- Every image is reloaded; after a level-3 reset one whose hash no longer matches is unloaded (R437). -/
def Dev.reloadAll (d : Dev) (check : Bool) : Dev :=
  d.images.foldl (fun d i =>
    if check && d.imgHash (imgOf i.1 i.2) ≠ i.2.hash then d.unloadImg i.1 else d.reloadImg i.1 i.2) d

/-- Pools are created again with every buffer FREE, where their enable stands (R253, R259, R437, R472). -/
def Dev.remakePools (d : Dev) (ps : List Nat) : Dev :=
  ps.foldl (fun d p =>
    let d := d.setReg (R.BPM_POOL_STAT p) 0
    if d.flag (R.BPM_POOL_CTL p) F.BPM_POOL_CTL_enable then
      let d := d.enablePool p
      if d.poolState p = 3 then d.relinkDone p else d
    else d) d

/-- Clocks are switched to the PLLs that are ready; a domain whose PLL is not ready stays on the dawn oscillator (R479, R494). -/
def Dev.clkBoot (d : Dev) : Dev :=
  let rdy := d.fld R.CPR_CLK_STATUS F.CPR_CLK_STATUS_ready
  (List.range 6).foldl (fun d k =>
    let on := bit rdy (pllOf k)
    let d := d.setFld R.CPR_CLK_SEL ⟨2 * k, 2⟩ (if on then 2 else 0)
    let d := { d with clk := { d.clk with conn := mput d.clk.conn k (if on then 2 else 0) } }
    if on then d else d.setFld R.CPR_CLK_STATUS F.CPR_CLK_STATUS_refused 1) d

/-- The group is rejoined after a level-3 reset or Night: the ports the map names train, and UP follows (R436, R457, R459). -/
def Dev.rejoin (d : Dev) : Dev :=
  match d.fab.map with
  | none => d
  | some m =>
    let d := d.setReg R.FAB_PEERS 0
    let d := d.setFld R.FAB_GROUP F.FAB_GROUP_id m.self
    let d := d.setFld R.FAB_GROUP F.FAB_GROUP_size m.size
    let d := d.setFld R.FAB_GROUP F.FAB_GROUP_topology m.topo
    let d := (d.setFld R.FAB_GROUP F.FAB_GROUP_gen (m.gen % 2 ^ 19)).syncProtect
    let ports := m.named.filter fun k => d.flag (R.FAB_PORT_CTL k) F.FAB_PORT_CTL_enable
    let d := ports.foldl Dev.portStart d
    ({ d with fab := { d.fab with joinWait := ports, rejoin := true } }).joinSettle

/-- Frame numbers from the first whose index has not been written up to the next number each get a VOID record (R439). -/
def Dev.voidUnindexed (d : Dev) (id code : Nat) : Dev :=
  match mget d.streams id with
  | none => d
  | some s =>
    let first := (s.lastIndexed.map fun n => (n + 1) % 2 ^ 32).getD 0
    let next := s.numAhead.foldl (fun n a => if (a + 1 + 2 ^ 32 - n) % 2 ^ 32 < 2 ^ 31 then (a + 1) % 2 ^ 32 else n) s.nextFrame
    let n := (next + 2 ^ 32 - first) % 2 ^ 32
    let ep := (s.cur.map (·.num)).getD 0
    let d := d.modStream id fun s => { s with nextFrame := next, numAhead := [], relNext := first }
    (List.range n).foldl (fun d i =>
      let t := d.fresh
      t.2.voidNum id ((first + i) % 2 ^ 32) t.1 ep 2 code 0 s.unauth []) d

/-- The reference slots of a stream's current epoch are taken again from their pool (R277, R437). -/
def Dev.slotsAgain (d : Dev) (id : Nat) : Dev :=
  match (mget d.streams id).bind (·.cur) with
  | none => d
  | some e =>
    if e.slots = [] then d
    else match d.popMany e.codec.refPool e.codec.dpbSlots [] with
      | (some hs, d) => d.modStream id fun s => { s with slots := hs.map fun h => (h, none), cur := some { e with slots := hs } }
      | (none, d) => d.modStream id fun s => { s with cur := some { e with slots := [] } }

/-- A stream after a level-3 reset: FULL again, its reference slots taken, its open numbers voided (R331, R437, R439). -/
def Dev.restartStream (d : Dev) (id code : Nat) : Dev :=
  let d := (d.slotsAgain id).setFallback id false 2
  if (d.standbyEntry id).isSome then d else d.voidUnindexed id code

end Sys2Proof.Machine
end

