-- ==== Sys2Proof/Machine/PowerCmd.lean ====
section
/-!
DEFINITION. Commands on power, clocks, time, pins and rails (R468 to R490, R516 to R522).
-/

namespace Sys2Proof.Machine

/-! ### Sleep and wake (R468 to R473) -/

/-- Day goes back to Dawn: both stacks are lowered, the ports decimate from the next frame (R466 to R468). -/
def Dev.dayToDawn (d : Dev) : Dev :=
  let d := (d.setPhase .dawn).setEntering false
  let d := [0, 1].foldl (fun d k => d.dvfsRequest k 0) d
  { d with ports := mmap d.ports (fun _ p => { p with decim := 0 }), pwr := { d.pwr with lastActive := d.now } }

/-- The stacks of a device in Day under a mode whose point is not left to the governor start at the mode's ceiling (R333, R471). -/
def Dev.raiseStacks (d : Dev) : Dev :=
  if d.mode = 0 || d.flag R.SCH_MODE F.SCH_MODE_pin then [0, 1].foldl (fun d k => d.dvfsRequest k (modeCeil d.mode)) d else d

/-- Fuses that firmware blows once the device first reads READY after a boot: revoked key slots below the one that verified it, the
anti-rollback count (R497, R498). -/
def Dev.firstReady (d : Dev) : Dev :=
  match d.pwr.fw with
  | none => d
  | some f =>
    if d.pwr.wasReady then d
    else
      let k := d.fld R.SEC_BOOT_STATUS F.SEC_BOOT_STATUS_key_slot
      let rb := if f.commit then max d.nv.rollback (min 64 f.rollback) else d.nv.rollback
      let d := { d with nv := { d.nv with revoked := d.nv.revoked ||| (f.revoke % 2 ^ k), rollback := rb },
                        pwr := { d.pwr with wasReady := true } }
      (d.setFld R.SEC_BOOT_STATUS F.SEC_BOOT_STATUS_revoked d.nv.revoked).setFld R.SEC_BOOT_STATUS F.SEC_BOOT_STATUS_rollback rb

/-- The record of what a link loss discarded is posted when the host brings the device to Day (R365). -/
def Dev.postLoss (d : Dev) : Dev :=
  match d.host.lossRec with
  | none => d
  | some (t0, t1, l) =>
    let per := (List.range 64).flatMap fun r => toLE 2 (((l.find? fun x => x.1 = r).map (·.2)).getD 0)
    ({ d with host := { d.host with lossRec := none, lossAt := none } }).health Ev.linkDiscard.code 0 0 t0 t1 per

/-- Dawn goes on to Day. -/
def Dev.enterDay (d : Dev) : Dev := ((d.setPhase .ready).firstReady.raiseStacks).postLoss

/-- CPR_PWR_CTL_WRITE (R468, R491). -/
def execCprPwrCtlWrite (value : Word) (s : State) : Host.Outcome State Fault Refusal :=
  onDev s fun d =>
    let d := d.busWrite R.CPR_PWR_CTL value.toNat
    let t := d.fld R.CPR_PWR_CTL F.CPR_PWR_CTL_target
    if t = 0 then d.sleepReq
    else match d.pwr.phase with
      | .ready => if t = 1 then d.dayToDawn else d
      | .dawn => if 2 ≤ t && !d.flag R.CPR_PWR_STATUS F.CPR_PWR_STATUS_entering then d.enterDay else d
      | .dusk | .night => d.wake none
      | _ => d

/-- WAKE_N held low for two night-clock cycles (R470). -/
def execWakeN (s : State) : Host.Outcome State Fault Refusal :=
  onDev s fun d => if d.flag R.CPR_WAKE_EN F.CPR_WAKE_EN_wake_n then d.wake (some 1) else d

/-- GPIO_WAKE (R470). -/
def execGpioWake (pin : Nat) (s : State) : Host.Outcome State Fault Refusal :=
  onDev s fun d =>
    if d.flag R.CPR_WAKE_EN F.CPR_WAKE_EN_gpio && pin < 16 && bit (d.fld R.CPR_WAKE_EN F.CPR_WAKE_EN_gpio_mask) pin then d.wake (some 2)
    else d

/-- The wake time in force. -/
def Dev.wakeTime (d : Dev) : Nat := d.clk.wakeTime

/-- WAKE_TIMER: device time has reached the wake time (R470, R488). -/
def execWakeTimer (s : State) : Host.Outcome State Fault Refusal :=
  onDevAt s s.d.wakeTime fun d => if d.flag R.CPR_WAKE_EN F.CPR_WAKE_EN_timer then d.wake (some 0) else d

/-- IN_BAND_INTERRUPT (R315, R470). -/
def execInBandInterrupt (port : Nat) (s : State) : Host.Outcome State Fault Refusal :=
  onDev s fun d =>
    if port < 4 && bit (d.fld R.CPR_WAKE_EN F.CPR_WAKE_EN_ibi) port then
      let d := d.setFld R.CPR_PWR_STATUS F.CPR_PWR_STATUS_ibi_port (d.fld R.CPR_PWR_STATUS F.CPR_PWR_STATUS_ibi_port ||| 2 ^ port)
      d.wake (some 4)
    else d

/-- AUTO_NIGHT_IDLE: Dawn has been idle for idle_ms (R472). -/
def execAutoNightIdle (s : State) : Host.Outcome State Fault Refusal :=
  let idle := max 1 (s.d.fld R.CPR_PWR_CTL F.CPR_PWR_CTL_idle_ms)
  if s.d.pwr.phase = .dawn && !s.d.flag R.CPR_PWR_STATUS F.CPR_PWR_STATUS_entering && s.d.flag R.CPR_PWR_CTL F.CPR_PWR_CTL_auto_night &&
      !(s.d.sched.frames.any fun f => f.queued || f.st = .running || f.st = .waiting) then
    onDevAt s (s.d.pwr.lastActive + ms idle) fun d => d.sleepReq
  else onDev s id

/-! ### Dusk (R469) -/

/-- Frame numbers below the highest one given out that no picture has taken are voided: no more input comes. -/
def Dev.voidHoles (d : Dev) (id : Nat) : Dev :=
  match mget d.streams id with
  | none => d
  | some s =>
    if s.numAhead = [] then d
    else
      let off := fun (n : Nat) => (n + 2 ^ 32 - s.nextFrame) % 2 ^ 32
      let top := (s.numAhead.map off).foldl max 0
      let holes := (List.range top).filter fun i => !(s.numAhead.map off).contains i
      let d := d.modStream id fun s => { s with nextFrame := (s.nextFrame + top + 1) % 2 ^ 32, numAhead := [] }
      let ep := (s.cur.map (·.num)).getD 0
      holes.foldl (fun d i => let t := d.fresh; t.2.voidNum id ((s.nextFrame + i) % 2 ^ 32) t.1 ep 2 0 0 s.unauth []) d

/-- Kernels of frames are aborted, with the shares of claiming dispatches; readouts and replays run on. -/
def Dev.abortFrames (d : Dev) : Dev :=
  let d := (List.range 8).foldl (fun d c => match (d.core c).run with
    | some r => if r.replay || r.kernel = 1024 then d else if r.claiming then (d.abortCore c).dropShares r.ctx else d.abortCore c
    | none => d) d
  { d with sched := { d.sched with redo := [] } }

/-- DUSK_FRAME_TIMEOUT: 200 ms after Dusk began every frame that is left is voided (R469). -/
def execDuskFrameTimeout (s : State) : Host.Outcome State Fault Refusal :=
  match s.d.pwr.phase, s.d.pwr.duskStart with
  | .dusk, some t => onDevAt s (t + ms 200) fun d =>
      let d := d.abortFrames
      let d := d.sched.frames.foldl (fun d f => d.voidFrame f 2 0) d
      d.streams.foldl (fun d x => d.voidHoles x.1) d
  | _, _ => onDev s id

/-- DUSK_COMPLETE (R469). The count N of R489 that Night's time base uses comes from the two oscillators: it is open. -/
def execDuskComplete (s : State) : Host.Outcome State Fault Refusal :=
  if s.d.pwr.phase = .dusk && s.d.duskDone then
    let r := onDev s fun d => d.fresh.2.enterNight
    match r with
    | .next t => .next { t with
        tb := { t.tb with night := t.d.pwr.phase = .night || t.d.pwr.restore, refN := Config.freeValue s.d.freeCtr } }
    | o => o
  else onDev s id

/-! ### Dawn (R48 to R52, R317, R471, R472) -/

/-- A mask of columns as a list, ascending. -/
def colsOf (m : Nat) : List Nat := (List.range 256).filter fun i => bit m i

/-- The user set of a core (R50). -/
def Dev.userCols (d : Dev) (c : Nat) : List Nat :=
  (List.range 256).filter fun i => bit (d.reg (R.MC_USER_BYPASS c (i / 32))) (i % 32)

/-- New columns enter the field set while it has room and flash takes them; the others are bypassed until the next Dawn (R49). -/
def Dev.newField (d : Dev) (c : Nat) (new : List Nat) (flashOk : Bool) : Dev :=
  if new = [] then d
  else
    let old := mgetD d.nv.field c []
    let room := new.take (64 - old.length)
    let d := if flashOk then
        let l := (List.range 256).filter fun i => old.contains i || room.contains i
        { d with nv := { d.nv with field := mput d.nv.field c l } }
      else d.health Ev.fieldRecord.code 0 c 0 new.length
    if flashOk && room.length < new.length then d.health Ev.fieldRecord.code 0 c 2 (new.length - room.length) else d

/-- The bypass set of a core after its self-test: map, width, counts; a narrow core is reported or withdrawn (R46 to R53). -/
def Dev.bypassCore (d : Dev) (c : Nat) (failed : List Nat) (flashOk : Bool) : Dev :=
  let fac := colsOf (mgetD d.nv.factory c 0)
  let old := mgetD d.nv.field c []
  let seen := (List.range 256).filter failed.contains
  let new := seen.filter fun i => !fac.contains i && !old.contains i
  let fld := (List.range 256).filter fun i => old.contains i || new.contains i
  let base := (List.range 256).filter fun i => fac.contains i || fld.contains i
  let user := (d.userCols c).filter fun i => !base.contains i
  let took := if 256 - base.length - user.length < 240 then user.take (256 - base.length - 240) else user
  let all := (List.range 256).filter fun i => base.contains i || took.contains i
  let width := 256 - all.length
  let d := d.newField c new flashOk
  let d := (List.range 8).foldl (fun d j =>
    d.setReg (R.MC_BYPASS_MAP c j) (((List.range 32).filter fun i => all.contains (32 * j + i)).map (2 ^ ·)).sum) d
  let d := d.setFld (R.MC_WIDTH c) F.MC_WIDTH_width (if width < 64 then 0 else width)
  let d := d.setFld (R.MC_WIDTH c) F.MC_WIDTH_fuse_bypassed fac.length
  let d := d.setFld (R.MC_WIDTH c) F.MC_WIDTH_field_bypassed fld.length
  let d := d.setFld (R.MC_ARITH_STATUS c) F.MC_ARITH_STATUS_withdrawn (b2n (width < 64))
  let d := d.setFld (R.MC_ARITH_STATUS c) F.MC_ARITH_STATUS_user_clamped (b2n (took.length < user.length))
  let d := d.setFld (R.MC_ARITH_STATUS c) F.MC_ARITH_STATUS_last_new (min 255 new.length)
  if width < 240 then d.replaceCause 0 0 c width else d

/-- The head of a port is read again at Dawn: another serial is a new attach (R317, R318). -/
def Dev.dawnHead (d : Dev) (k : Nat) (store : List Byte) : Dev :=
  let p := d.port k
  if p.store = [] then d
  else
    let st := padTo store 8192
    let d := if headSerial p.store = headSerial st then d
      else ((d.modPort k fun p => { p with cal := [] }).setFld (R.SNS_STATUS k) F.SNS_STATUS_life_notice 0).headGone k
    (d.authHead k st p.permit).headLifeCheck k

/-- What comes back on the way out of Night (R204, R472). -/
def Dev.restoreNight (d : Dev) : Dev :=
  if !d.pwr.restore then d
  else
    let d := (d.dramWake.migResume.clkBoot).remakePools (List.range 48)
    let d := d.reloadAll false
    let d := d.sets.foldl (fun d y => d.restoreSet y) d
    let d := { d with pwr := { d.pwr with restore := false } }
    (d.setMode (d.fld R.SCH_MODE F.SCH_MODE_mode) (d.fld R.SCH_MODE F.SCH_MODE_pin)).rejoin

/-- Dawn's entry steps end. -/
def Dev.dawnEnd (d : Dev) : Dev :=
  let d := d.setEntering false
  let d := { d with pwr := { d.pwr with booted := true, lastActive := d.now },
                    ports := mmap d.ports fun _ p => { p with decim := 0 } }
  if d.pwr.sleepPending then d.startDusk
  else if 2 ≤ d.fld R.CPR_PWR_CTL F.CPR_PWR_CTL_target then d.enterDay
  else d

/-- DAWN_ENTRY_COMPLETE: columns that failed the self-test by core, the heads' stores by port, whether flash took the field record. -/
def execDawnEntryComplete (failedColumns : List (List Nat)) (stores : List (List Byte)) (flashOk : Bool) (s : State) :
    Host.Outcome State Fault Refusal :=
  onDev s fun d =>
    if d.pwr.phase ≠ .dawn || !d.flag R.CPR_PWR_STATUS F.CPR_PWR_STATUS_entering || !d.railsUp ||
        (List.range 8).any fun c => (d.core c).run.isSome then d
    else
      let d := d.restoreNight
      let d := (List.range 8).foldl (fun d c => d.bypassCore c (failedColumns.getD c []) flashOk) d
      let d := [0, 1, 2, 3].foldl (fun d k => d.dawnHead k (stores.getD k [])) d
      d.dawnEnd

/-! ### Boot and restart (R359, R437, R439) -/

/-- The rank record applies: maps, lost blocks, the replace request (R404, R410, R412, R441). -/
def Dev.rankRecord (d : Dev) : Dev :=
  let d := d.nv.rankRec.foldl (fun d r => d.setReg (R.DRC_CH_MAP r.1) r.2) d
  let d := d.setFld R.DRC_STATUS F.DRC_STATUS_lost_blocks d.nv.lostRec
  let frozen := (List.range 8).any fun c => d.flag (R.DRC_CH_MAP c) F.DRC_CH_MAP_frozen
  let d := if d.nv.lostRec ≠ 0 || frozen then d.dramReplace 0 0 else d.spareCheck 0 0
  d.migResume

/-- What a restart restores of a device that ran before. -/
def Dev.restoreAfterL3 (d : Dev) : Dev :=
  let d := (d.remakePools (List.range 64)).reloadAll true
  let d := { d with sets := d.sets.map fun (y : SeqSet) => { y with lost := true, pend := [], copy := [], moved := [] } }
  let d := { d with streams := d.streams.filter fun x => !x.2.destroying }
  let code := ((d.recov.l3cause).map (·.1)).getD 0
  let d := d.streams.foldl (fun d x => d.restartStream x.1 code) d
  let d := match d.recov.l3cause.bind (·.2) with
    | some u => d.logEv { code := Code.hang.num, unit := u }
    | none => d
  ({ d with recov := { d.recov with l3cause := none } }).rejoin

/-- RESTART_COMPLETE: channels that fail training, and whether the field record verifies (R49, R359, R393, R407, R437). -/
def execRestartComplete (failedChannels : List Nat) (fieldOk : Bool) (s : State) : Host.Outcome State Fault Refusal :=
  onDev s fun d =>
    if d.pwr.fw.isNone || !d.railsUp || !(d.pwr.phase = .booting || d.pwr.phase = .resetting) then d
    else
      let d := d.dramTrain failedChannels
      let d := if d.pwr.cold then d.dramInit else d.dramWake
      let d := { d with pwr := { d.pwr with cold := false } }
      let d := d.rankRecord.clkBoot
      let d := [0, 1].foldl (fun d k => d.setMv k) d
      let d := if fieldOk then d
        else ({ d with nv := { d.nv with field := [] } }).health Ev.fieldRecord.code 0 0 1 0
      let d := if d.flag R.SEC_SIG_STATUS F.SEC_SIG_STATUS_low then d.replaceCause 3 3 0 0 else d
      let d := d.restoreAfterL3
      let d := d.setMode (d.fld R.SCH_MODE F.SCH_MODE_mode) (d.fld R.SCH_MODE F.SCH_MODE_pin)
      (d.setPhase .dawn).setEntering true

/-! ### Device time (R487 to R489) -/

/-- CPR_WAKE_TIME_HI_WRITE: both halves take effect (R488). -/
def execCprWakeTimeHiWrite (value : Word) (s : State) : Host.Outcome State Fault Refusal :=
  onDev s fun d =>
    let d := d.setReg R.CPR_WAKE_TIME_HI value.toNat
    { d with clk := { d.clk with wakeTime := 2 ^ 32 * value.toNat + d.reg R.CPR_WAKE_TIME_LO } }

/-- CPR_TIME_LO_READ: the low word as the completion carries it; the high word is latched (R487). -/
def execCprTimeLoRead (s : State) : Host.Outcome State Fault Refusal :=
  onDev s fun d =>
    let d := (d.setReg R.CPR_TIME_LO d.now).setReg R.CPR_TIME_HI (d.now / 2 ^ 32)
    d.out (.reg R.CPR_TIME_LO (d.now % 2 ^ 32))

/-- REFERENCE_READY: device time starts, or returns to reference increments after Night (R487, R489). -/
def execReferenceReady (s : State) : Host.Outcome State Fault Refusal :=
  let r := onDev s fun d =>
    if d.pwr.phase = .night then d
    else d.setFld R.CPR_CLK_STATUS F.CPR_CLK_STATUS_ready (d.fld R.CPR_CLK_STATUS F.CPR_CLK_STATUS_ready ||| 2)
  match r with
  | .next t => .next (if t.d.pwr.phase = .night then t else { t with tb := { t.tb with running := true, night := false } })
  | o => o

/-! ### PLLs and switches (R475, R479 to R481) -/

/-- PLL_LOCK: ready bits 2 to 5 are PLL_ARR0, PLL_ARR1, PLL_IO, PLL_DRAM (R475). -/
def execPllLock (pll : Nat) (s : State) : Host.Outcome State Fault Refusal :=
  onDev s fun d =>
    if pll < 2 || 6 ≤ pll || !d.railsUp || !bit (d.fld R.CPR_CLK_STATUS F.CPR_CLK_STATUS_ready) 1 then d
    else
      let d := { d with clk := { d.clk with dead := d.clk.dead.filter (· ≠ pll) } }
      d.setFld R.CPR_CLK_STATUS F.CPR_CLK_STATUS_ready (d.fld R.CPR_CLK_STATUS F.CPR_CLK_STATUS_ready ||| 2 ^ pll)

/-- PLL_OUTPUT_LOSS (R480). -/
def execPllOutputLoss (pll : Nat) (s : State) : Host.Outcome State Fault Refusal :=
  onDev s fun d =>
    if pll < 2 || 6 ≤ pll then d
    else
      let d := { d with clk := { d.clk with dead := if d.clk.dead.contains pll then d.clk.dead else d.clk.dead ++ [pll] } }
      d.setFld R.CPR_CLK_STATUS F.CPR_CLK_STATUS_ready (d.fld R.CPR_CLK_STATUS F.CPR_CLK_STATUS_ready &&& (0x7F ^^^ 2 ^ pll))

/-- The READY bit of the source a select value names for a domain. -/
def srcBit (dom sel : Nat) : Nat := if sel = 0 then 0 else if sel = 1 then 1 else pllOf dom

/-- The domain's present source gives no clock. -/
def Dev.oldDead (d : Dev) (dom : Nat) : Bool :=
  let c := mgetD d.clk.conn dom 0
  2 ≤ c && d.clk.dead.contains (pllOf dom)

/-- One domain of a write of CPR_CLK_SEL: refused, switched, or waiting in the multiplexer (R479, R480). -/
def Dev.selectClk (d : Dev) (force : Bool) (dom sel : Nat) : Dev :=
  let cur := d.fld R.CPR_CLK_SEL ⟨2 * dom, 2⟩
  let ready := bit (d.fld R.CPR_CLK_STATUS F.CPR_CLK_STATUS_ready) (srcBit dom sel)
  if sel = cur then d
  else if sel = 3 || (!force && !ready) then d.setFld R.CPR_CLK_STATUS F.CPR_CLK_STATUS_refused 1
  else
    let d := d.setFld R.CPR_CLK_SEL ⟨2 * dom, 2⟩ sel
    if force || (mget d.clk.switchAt dom).isSome then
      let d := d.setFld R.CPR_CLK_STATUS F.CPR_CLK_STATUS_switching (d.fld R.CPR_CLK_STATUS F.CPR_CLK_STATUS_switching ||| 2 ^ dom)
      { d with clk := { d.clk with switchAt := mput d.clk.switchAt dom ((mget d.clk.switchAt dom).getD d.now) } }
    else { d with clk := { d.clk with conn := mput d.clk.conn dom sel } }

/-- CPR_CLK_SEL_WRITE. -/
def execCprClkSelWrite (value : Word) (s : State) : Host.Outcome State Fault Refusal :=
  onDev s fun d =>
    let v := value.toNat
    let d := d.setFld R.CPR_CLK_SEL F.CPR_CLK_SEL_force (bits v 16 1)
    (List.range 6).foldl (fun d k => d.selectClk (bit v 16) k (bits v (2 * k) 2)) d

/-- The multiplexer of a domain stands on its selected source. -/
def Dev.switched (d : Dev) (dom : Nat) : Dev :=
  let d := d.setFld R.CPR_CLK_STATUS F.CPR_CLK_STATUS_switching
    (d.fld R.CPR_CLK_STATUS F.CPR_CLK_STATUS_switching &&& (0x3F ^^^ 2 ^ dom))
  { d with clk := { d.clk with conn := mput d.clk.conn dom (d.fld R.CPR_CLK_SEL ⟨2 * dom, 2⟩), switchAt := mdel d.clk.switchAt dom } }

/-- The clock that a domain is to be switched to runs. -/
def Dev.newAlive (d : Dev) (dom : Nat) : Bool :=
  let sel := d.fld R.CPR_CLK_SEL ⟨2 * dom, 2⟩
  sel < 2 || !d.clk.dead.contains (pllOf dom)

/-- CLOCK_SWITCH_COMPLETE: low phases of both clocks have come; a clock that has stopped gives none (R480). -/
def execClockSwitchComplete (domain : Nat) (s : State) : Host.Outcome State Fault Refusal :=
  onDev s fun d =>
    if domain < 6 && bit (d.fld R.CPR_CLK_STATUS F.CPR_CLK_STATUS_switching) domain && !d.oldDead domain && d.newAlive domain then
      d.switched domain
    else d

/-- FMETER_START (R482). -/
def execFmeterStart (value : Word) (s : State) : Host.Outcome State Fault Refusal :=
  onDev s fun d =>
    let d := d.busWrite R.CPR_FMETER_CTL value.toNat
    if !value.getLsbD 10 then d
    else { (d.setFld R.CPR_FMETER_CTL F.CPR_FMETER_CTL_done 0) with clk := { d.clk with fmeter := true } }

/-- FMETER_DONE: the gate clock as its own subject counts 2^g; any other count comes with the event (R482). -/
def execFmeterDone (count : Nat) (s : State) : Host.Outcome State Fault Refusal :=
  onDev s fun d =>
    if !d.clk.fmeter then d
    else
      let g := min 20 (max 4 (d.fld R.CPR_FMETER_CTL F.CPR_FMETER_CTL_g))
      let own := d.fld R.CPR_FMETER_CTL F.CPR_FMETER_CTL_clk = d.fld R.CPR_FMETER_CTL F.CPR_FMETER_CTL_gate_src
      let d := d.setReg R.CPR_FMETER_COUNT (if own then 2 ^ g else count)
      { (d.setFld R.CPR_FMETER_CTL F.CPR_FMETER_CTL_done 1) with clk := { d.clk with fmeter := false } }

/-! ### Rails (R515 to R517) -/

/-- POWER_GROUP_REGULATED: the rails of the last group raised, or the always-on rails, are in regulation (R516). -/
def execPowerGroupRegulated (s : State) : Host.Outcome State Fault Refusal :=
  onDev s fun d =>
    let n := d.pwr.groups
    if d.pwr.tripped || d.pwr.failed || (n = 0 && d.pwr.phase ≠ .booting) then d
    else if n < 4 then { d with pwr := { d.pwr with groups := n + 1, groupOk := false } }
    else ({ d with pwr := { d.pwr with groupOk := true } }).bootIfPowered

/-- POWER_GROUP_TIMEOUT: every enable drops and the state is held at BOOTING (R516). -/
def execPowerGroupTimeout (s : State) : Host.Outcome State Fault Refusal :=
  onDev s fun d =>
    if d.pwr.groups = 0 || d.pwr.groupOk || d.pwr.tripped then d
    else
      let d := (d.setPhase .booting).setGroups 0
      { d with pwr := { d.pwr with failed := true, failAt := d.now } }

/-- POWER_SEQUENCE_RETRY: 1 s after the failure (R516). -/
def execPowerSequenceRetry (s : State) : Host.Outcome State Fault Refusal :=
  if s.d.pwr.failed then onDevAt s (s.d.pwr.failAt + 10 ^ 8) fun d => d.setGroups 1 else onDev s id

/-! ### Pins (R518, R519) -/

/-- The device as a power-on leaves it: fuses, flash and the trace of what was sent are kept. Whether an epoch fuse whose read-back failed
reads blown at this boot is open (R499, R504, R518). -/
def State.powerOn (s : State) : State :=
  let fuses := s.sec.fuses.filterMap fun f =>
    if f.2 = 1 || Config.freeValue (s.d.freeCtr + f.1) % 2 = 1 then some (f.1, 1) else none
  let used := (fuses.map fun f => f.1 + 1).foldl max 0
  let d : Dev := { regs := resetRegs, nv := s.d.nv, freeCtr := s.d.freeCtr + 4096, host := { sent := s.d.host.sent } }
  let d := d.setFld R.SEC_SIG_STATUS F.SEC_SIG_STATUS_epochs_used used
  let d := d.setFld R.SEC_SIG_STATUS F.SEC_SIG_STATUS_low (b2n (4096 < used + 256))
  let d := d.setFld R.SEC_SIG_STATUS F.SEC_SIG_STATUS_exhausted (b2n (used = 4096))
  { pending := s.pending, sec := { fuses := fuses, epochsUsed := used, spent := s.sec.spent }, d := d }

/-- PORESET_N_ASSERT: a power-on. -/
def execPoresetNAssert (s : State) : Host.Outcome State Fault Refusal := .next s.powerOn

/-- POWER_REMOVAL: DRAM contents and the signing index are lost (R517). -/
def execPowerRemoval (s : State) : Host.Outcome State Fault Refusal := .next s.powerOn

/-- PORESET_N_DEASSERT: the straps are sampled; the boot ROM starts once the rails are up (R518, R519). -/
def execPoresetNDeassert (gpio0 gpio1 : Bool) (s : State) : Host.Outcome State Fault Refusal :=
  onDev s fun d =>
    if !d.pins.poresetLow then d
    else ({ d with pins := { d.pins with poresetLow := false, strap0 := gpio0, strap1 := gpio1 } }).bootIfPowered

/-! ### Thermal limits (R521, R522) -/

/-- A sensor's reading with the user offset, clamped to 10 °C (R490). -/
def Dev.effTemp (d : Dev) (i : Nat) (t : Int) : Int := t + clampI (sext (bits (d.reg R.CPR_CAL_TEMP) (5 * i) 5) 5) (-10) 10

/-- Warning and trip temperatures of the part. -/
def Dev.warnAt (d : Dev) : Int := if d.nv.ordBI then 100 else 90

/-- THERMAL_WARNING: the governor steps down from its next tick on. -/
def execThermalWarning (sensor : Nat) (temp : Int) (s : State) : Host.Outcome State Fault Refusal :=
  onDev s fun d =>
    let t := d.effTemp sensor temp
    if 6 ≤ sensor || !d.working || d.pwr.thermal || t < d.warnAt then d
    else ({ d with pwr := { d.pwr with thermal := true } }).health Ev.thermal.code 0 sensor (toU t 64) 1

/-- THERMAL_WARNING_END: the hottest sensor reads 8 °C or more below the warning. -/
def execThermalWarningEnd (sensor : Nat) (temp : Int) (s : State) : Host.Outcome State Fault Refusal :=
  onDev s fun d =>
    let t := d.effTemp sensor temp
    if 6 ≤ sensor || !d.pwr.thermal || d.warnAt - 8 < t then d
    else ({ d with pwr := { d.pwr with thermal := false } }.pauseBe false).health Ev.thermal.code 0 sensor (toU t 64) 0

/-- THERMAL_TRIP: every enable is driven low without Dusk; the device stays off until PORESET_N is asserted. -/
def execThermalTrip (s : State) : Host.Outcome State Fault Refusal :=
  onDev s fun d =>
    let d := (d.loseWork.loseQueues.loseFabric.pllsOff.setPhase .booting).setGroups 0
    let d := { d with pwr := { d.pwr with tripped := true, booted := false, fw := none, duskStart := none, sleepPending := false } }
    (d.setEntering false).setFld R.HIF_LINK_STATUS F.HIF_LINK_STATUS_dl_up 0

end Sys2Proof.Machine
end

