-- ==== Sys2Proof/Machine/Pcie.lean ====
section
/-!
DEFINITION. The PCIe function (R343 to R365): the aperture, configuration space, MSI-X, power management states, resets from the link,
loss and return of the link.
-/

namespace Sys2Proof.Machine

/-! ### The aperture (R229, R350, R351) -/

/-- The aperture's size in bytes (R348). -/
def Dev.apSize (d : Dev) : Nat := 2 ^ d.fld R.HIF_APERTURE_SIZE F.HIF_APERTURE_SIZE_size_log2

/-- Bytes of an access that lie in a hole or in the reserved range; before the boot or restart is complete all of them do (R229, R359). -/
def Dev.apHoles (d : Dev) (a n : Nat) : List Nat :=
  (span a n).filter fun x => !d.pwr.booted || (rangeOf x).isNone

/-- The access falls on the aperture, and is performed: outside Night. -/
def Dev.apHit (d : Dev) (offset n : Nat) : Bool :=
  d.flag R.HIF_LINK_STATUS F.HIF_LINK_STATUS_dl_up && n ≠ 0 && offset + n ≤ d.apSize

/-- ADDR_RANGE is logged with the first address of a hole. -/
def Dev.logHole (d : Dev) (holes : List Nat) : Dev :=
  match holes with
  | [] => d
  | a :: _ => d.logEv { code := Code.addrRange.num, unit := 0x40, addr := a }

/-- APERTURE_READ: data as read, zeros from holes, EP when a codeword is poisoned. -/
def execApertureRead (offset len : Nat) (s : State) : Host.Outcome State Fault Refusal :=
  onDev s fun d =>
    if !d.apHit offset len then d
    else if d.pwr.phase = .night then d.wake (some 3)
    else
      let a := d.host.apBase + offset
      let holes := d.apHoles a len
      let there := (span a len).filter fun x => !holes.contains x
      let b := (span a len).map fun x => if holes.contains x then 0 else d.rd x
      let bad := d.firstPoison there
      let d := (d.logHole holes).noteRead there
      let d := match bad with
        | some x => d.logEv { code := Code.poison.num, unit := 0x40, addr := x }
        | none => d
      d.out (.cpl b bad.isSome)

/-- APERTURE_WRITE: holes are discarded; a write with EP set is discarded, reported in AER and logged. -/
def execApertureWrite (offset : Nat) (data : List Byte) (ep : Bool) (s : State) : Host.Outcome State Fault Refusal :=
  onDev s fun d =>
    if !d.apHit offset data.length then d
    else if d.pwr.phase = .night then d.wake (some 3)
    else
      let a := d.host.apBase + offset
      if ep then
        let d := { d with host := { d.host with cfg := { d.host.cfg with aerPoisoned := true } } }
        (d.hifErr F.HIF_ERR_poisoned_write).logEv { code := Code.poison.num, unit := 0x40, addr := a }
      else
        let holes := d.apHoles a data.length
        (d.logHole holes).writeCells ((wrAt a data).filter fun w => !holes.contains w.1)

/-- HIF_APERTURE_BASE_HI_WRITE (R350). -/
def execHifApertureBaseHiWrite (value : Word) (s : State) : Host.Outcome State Fault Refusal :=
  onDev s fun d =>
    if !d.regOpen R.HIF_APERTURE_BASE_HI then d
    else
      let hi := bits value.toNat 0 16
      let base := 2 ^ 32 * hi + 2 ^ 24 * d.fld R.HIF_APERTURE_BASE_LO F.HIF_APERTURE_BASE_LO_base_lo
      if 2 ^ 48 < base + d.apSize then d.hifErr F.HIF_ERR_ap_base_err
      else { (d.setReg R.HIF_APERTURE_BASE_HI hi) with host := { d.host with apBase := base } }

/-! ### MSI-X and Bus Master Enable (R353, R364) -/

/-- Pending vectors that are no longer masked send one message each. -/
def Dev.releasePba (d : Dev) : Dev :=
  let go := d.host.pba.filter fun v => !d.vecMasked v
  let d := { d with host := { d.host with pba := d.host.pba.filter fun v => d.vecMasked v } }
  go.foldl (fun d v => d.send (.msix v)) d

/-- Held writes go out in their order once the link and the bus are the device's (R364). -/
def Dev.resume (d : Dev) : Dev :=
  if !d.linkUp then d
  else
    let d := { d with host := { d.host with sent := d.host.sent ++ d.host.held, held := [], lossAt := none } }
    d.syncHeld.releasePba

/-- The mask of a vector, or the Function Mask, is cleared. -/
def Dev.unmask (d : Dev) (v : Option Nat) : Dev :=
  let h := d.host
  let h := match v with
    | some v => { h with unmasked := if h.unmasked.contains v then h.unmasked else h.unmasked ++ [v] }
    | none => { h with cfg := { h.cfg with funcMask := false } }
  ({ d with host := h }).releasePba

/-- MSIX_UNMASK. -/
def execMsixUnmask (vector : Option Nat) (s : State) : Host.Outcome State Fault Refusal :=
  onDev s fun d => match vector with
    | some v => if v < 128 then d.unmask (some v) else d
    | none => d.unmask none

/-- A write of one word of the MSI-X table: address, data and vector control of entry i (R352). -/
def Dev.msixTable (d : Dev) (offset : Nat) (v : Nat) : Dev :=
  let i := offset / 16
  if 128 ≤ i then d
  else
    let h := d.host
    let a := mgetD h.vecAddr i 0
    match offset % 16 / 4 with
    | 0 => { d with host := { h with vecAddr := mset h.vecAddr i 0 (a / 2 ^ 32 * 2 ^ 32 + v / 4 * 4) } }
    | 1 => { d with host := { h with vecAddr := mset h.vecAddr i 0 (a % 2 ^ 32 + 2 ^ 32 * v) } }
    | 2 => { d with host := { h with vecData := mset h.vecData i 0 (BitVec.ofNat 32 v) } }
    | _ => if bit v 0 then { d with host := { h with unmasked := h.unmasked.filter (· ≠ i) } } else d.unmask (some i)

/-! ### Power management states (R357) -/

def Dev.setD3 (d : Dev) (b : Bool) : Dev := { d with host := { d.host with cfg := { d.host.cfg with d3hot := b } } }

def Dev.toD3hot (d : Dev) : Dev := (d.setD3 true).sleepReq
def Dev.toD0 (d : Dev) : Dev := (d.setD3 false).wake (some 3)

/-- POWERSTATE_D3HOT. -/
def execPowerstateD3hot (s : State) : Host.Outcome State Fault Refusal :=
  onDev s fun d => if d.host.cfgLoaded then d.toD3hot else d

/-- POWERSTATE_D0. -/
def execPowerstateD0 (s : State) : Host.Outcome State Fault Refusal :=
  onDev s fun d => if d.host.cfgLoaded then d.toD0 else d

/-- NIGHT_MEMORY_REQUEST: it wakes the device (R358). -/
def execNightMemoryRequest (s : State) : Host.Outcome State Fault Refusal :=
  onDev s fun d => if d.pwr.phase = .night then d.wake (some 3) else d

/-! ### Configuration space (R345 to R348, R359, R360) -/

/-- Size of a BAR pair in bytes. -/
def Dev.barSize (d : Dev) (i : Nat) : Nat := if i = 0 then 2 ^ 25 else if i = 1 then d.apSize else 2 ^ 16

/-- BAR i as read: 64-bit, BAR2/3 prefetchable; bits below the size read 0. -/
def Dev.barRead (d : Dev) (i : Nat) : Nat :=
  let v := (d.host.cfg.bars.getD i 0).toNat
  let n := d.barSize (i / 2)
  if i % 2 = 0 then v / min n (2 ^ 32) * min n (2 ^ 32) + 4 + (if i / 2 = 1 then 8 else 0)
  else v / max 1 (n / 2 ^ 32) * max 1 (n / 2 ^ 32)

/-- Capabilities: offset, identifier, next (Table Configuration capabilities). -/
def capTable : List (Nat × Nat × Nat) :=
  [(0x040, 0x01, 0x50), (0x050, 0x10, 0xB0), (0x0B0, 0x11, 0x00), (0x100, 0x01, 0x148), (0x148, 0x03, 0x158), (0x158, 0x19, 0x178),
   (0x178, 0x25, 0x188), (0x188, 0x26, 0x1B8), (0x1B8, 0x2A, 0x1F0), (0x1F0, 0x27, 0x220), (0x220, 0x18, 0x228), (0x228, 0x1E, 0)]

/-- Length in bytes of what lies between the start of a capability and the next one listed; inside it, registers that the manual does not
give. -/
def inCap (o : Nat) : Bool := (0x40 ≤ o && o < 0xBC) || (0x100 ≤ o && o < 0x238)

/-- The registers of configuration space that the manual gives, by dword offset; where each lies within its capability is PCI's (log
entry 23). -/
def Dev.cfgReg (d : Dev) (o : Nat) : Option Nat :=
  let c := d.host.cfg
  match o with
  | 0x00 => some (0x1F5D + 65536 * 0x7720)
  | 0x04 => some (c.command.toNat + 65536 * 0x0010)
  | 0x08 => some (0xB0 + 256 * 0x120000)
  | 0x0C => some 0
  | 0x10 => some (d.barRead 0)
  | 0x14 => some (d.barRead 1)
  | 0x18 => some (d.barRead 2)
  | 0x1C => some (d.barRead 3)
  | 0x20 => some (d.barRead 4)
  | 0x24 => some (d.barRead 5)
  | 0x2C => some d.nv.subsys
  | 0x34 => some 0x40
  | 0x3C => some 0
  | 0x44 => some ((if c.d3hot then 3 else 0) + 8)
  | 0x58 => some c.devCtl.toNat
  | 0x60 => some (c.linkCtl.toNat + 65536 * (d.fld R.HIF_LINK_STATUS F.HIF_LINK_STATUS_speed +
      16 * d.fld R.HIF_LINK_STATUS F.HIF_LINK_STATUS_width))
  | 0x78 => some c.devCtl2.toNat
  | 0xB0 => some (0x11 + 65536 * (127 + 2 ^ 14 * b2n c.funcMask + 2 ^ 15 * b2n c.msixEn))
  | 0xB4 => some 4
  | 0xB8 => some 0x8004
  | 0x104 => some (2 ^ 12 * b2n c.aerPoisoned)
  | 0x14C => some (d.nv.serial % 2 ^ 32)
  | 0x150 => some (d.nv.serial / 2 ^ 32 % 2 ^ 32)
  | _ =>
    match capTable.find? fun x => x.1 = o with
    | some x => if o < 0x100 then none else some (x.2.1 + 65536 * 1 + 2 ^ 20 * x.2.2)
    | none => if inCap o then none else some 0

/-- A configuration read: its value, a free one where the manual gives none (log entry 23). -/
def Dev.cfgRead (d : Dev) (o : Nat) : Dev :=
  match d.cfgReg o with
  | some v => d.out (.cfgCpl v)
  | none => let f := d.fresh; f.2.out (.cfgCpl (f.1 % 2 ^ 32))

def Dev.setCfg (d : Dev) (f : CfgSpace → CfgSpace) : Dev := { d with host := { d.host with cfg := f d.host.cfg } }

/-- A configuration write; bits outside the registers that the manual names are discarded. -/
def Dev.cfgWrite (d : Dev) (o v : Nat) : Dev :=
  match o with
  | 0x04 => (d.setCfg fun c => { c with command := BitVec.ofNat 16 (v &&& 0x0546) }).resume
  | 0x10 | 0x14 | 0x18 | 0x1C | 0x20 | 0x24 =>
    d.setCfg fun c => { c with bars := c.bars.set ((o - 0x10) / 4) (BitVec.ofNat 32 v) }
  | 0x44 => if v % 4 = 3 then d.toD3hot else if v % 4 = 0 then d.toD0 else d
  | 0x58 => d.setCfg fun c => { c with devCtl := BitVec.ofNat 16 v }
  | 0x60 => d.setCfg fun c => { c with linkCtl := BitVec.ofNat 16 v }
  | 0x78 => d.setCfg fun c => { c with devCtl2 := BitVec.ofNat 16 v }
  | 0xB0 =>
    let d := d.setCfg fun c => { c with msixEn := bit v 31, funcMask := bit v 30 }
    d.releasePba
  | 0x104 => if bit v 12 then d.setCfg fun c => { c with aerPoisoned := false } else d
  | _ => d

/-- CONFIG_REQUEST: Request Retry Status until configuration space is loaded (R359). -/
def execConfigRequest (write : Bool) (offset : Nat) (value : Word) (s : State) : Host.Outcome State Fault Refusal :=
  onDev s fun d =>
    if d.pins.perstLow || 4096 ≤ offset then d
    else if !d.host.cfgLoaded then d.out .retry
    else if write then d.cfgWrite (offset / 4 * 4) value.toNat
    else d.cfgRead (offset / 4 * 4)

/-! ### Resets from the link (R359) -/

/-- HOT_RESET. -/
def execHotReset (s : State) : Host.Outcome State Fault Refusal :=
  onDev s fun d => if d.pins.perstLow || d.pins.poresetLow then d else d.startL3 0 false none

/-- PERST_N_ASSERT; PERST_N is ignored while PORESET_N is low (R518). -/
def execPerstNAssert (s : State) : Host.Outcome State Fault Refusal :=
  onDev s fun d =>
    if d.pins.poresetLow || d.pins.perstLow then d
    else
      let d := d.startL3 0 false none
      { d with pins := { d.pins with perstLow := true } }

/-- PERST_N_DEASSERT: the link trains, and configuration space is loaded once the boot ROM has read the flash header. -/
def execPerstNDeassert (s : State) : Host.Outcome State Fault Refusal :=
  onDev s fun d =>
    if d.pins.poresetLow then d
    else
      let l : Bool := d.host.cfgLoaded || d.pwr.fw.isSome || d.fld R.SEC_BOOT_STATUS F.SEC_BOOT_STATUS_fw_slot == 2
      { d with pins := { d.pins with perstLow := false }, host := { d.host with cfgLoaded := l } }

/-! ### Loss of the link (R363 to R365) -/

/-- DL_DOWN. -/
def execDlDown (s : State) : Host.Outcome State Fault Refusal :=
  onDev s fun d =>
    if !d.flag R.HIF_LINK_STATUS F.HIF_LINK_STATUS_dl_up then d
    else
      let d := d.satFld R.HIF_LINK_STATUS F.HIF_LINK_STATUS_lost 1
      let d := d.setFld R.HIF_LINK_STATUS F.HIF_LINK_STATUS_dl_up 0
      { d with host := { d.host with lossAt := d.host.lossAt.or (some d.now) } }

/-- The hold window in ms (Table HIF_LINK_HOLD). -/
def Dev.holdMs (d : Dev) : Nat := max 100 (min 600000 (d.fld R.HIF_LINK_HOLD F.HIF_LINK_HOLD_hold_ms))

/-- The end of the hold window, while one runs. -/
def Dev.holdEnd (d : Dev) : Option Nat := if d.linkUp then none else d.host.lossAt.map fun t => t + ms d.holdMs

/-- DL_UP: held writes go out, or the window has ended and Dusk has begun. -/
def execDlUp (speed width : Nat) (s : State) : Host.Outcome State Fault Refusal :=
  onDev s fun d =>
    if d.pins.perstLow || d.pins.poresetLow || d.pwr.tripped || !(d.railsUp || d.pwr.phase = .night) then d
    else
      let late : Bool := match d.holdEnd with
        | some t => decide (t ≤ d.now)
        | none => false
      let d := d.setFld R.HIF_LINK_STATUS F.HIF_LINK_STATUS_speed speed
      let d := d.setFld R.HIF_LINK_STATUS F.HIF_LINK_STATUS_width width
      if late && (d.pwr.phase = .ready || d.pwr.phase = .dawn) then
        let d := d.linkDiscard.sleepReq
        (d.setFld R.HIF_LINK_STATUS F.HIF_LINK_STATUS_dl_up 1).resume
      else (d.setFld R.HIF_LINK_STATUS F.HIF_LINK_STATUS_dl_up 1).resume

/-- LINK_HOLD_EXPIRY: the window ends with the link down (R365). -/
def execLinkHoldExpiry (s : State) : Host.Outcome State Fault Refusal :=
  match s.d.holdEnd with
  | some t => onDevAt s t fun d => if d.pwr.phase = .ready || d.pwr.phase = .dawn then d.sleepReq else d
  | none => onDev s id

/-- COMPLETION_TIMEOUT (R344, Table HIF_ERR). -/
def execCompletionTimeout (s : State) : Host.Outcome State Fault Refusal :=
  onDev s fun d => if d.linkUp then d.hifErr F.HIF_ERR_cpl_timeout else d

end Sys2Proof.Machine
end

