-- ==== Sys2Proof/Machine/Progress.lean ====
section
/-!
DEFINITION. Progress of issued work: completions and faults after issue (R92, R106), tokens that arrive or time out (R77, R78),
tag look-ahead and notification (R89), the home's buffer operations (R250 to R260), the Stool engine (R175 to R177).
-/

namespace Sys2Proof.Machine

/-- INSTRUCTION_COMPLETE: an in-flight instruction that is not the Stool engine's completes (R92). -/
def execInstructionComplete (core id : Nat) (s : State) : Host.Outcome State Fault Refusal :=
  onDev s fun d => match d.infl? core id with
    | some x => if iOp x.word = 0x60 || !d.clocked (stackOf core) then d else d.completeFlight core x
    | none => d

/-- INSTRUCTION_FAULT (R106). A queued STOOL has read nothing yet. -/
def execInstructionFault (core id : Nat) (s : State) : Host.Outcome State Fault Refusal :=
  onDev s fun d => match d.infl? core id with
    | some x =>
      if iOp x.word = 0x60 && (mgetD d.stool (stackOf core) {}).running ≠ some (core, id) then d else d.faultFlight core x
    | none => d

/-- TOKEN_TIMEOUT: the core has waited on a token and the timeout is not disabled (R77). -/
def execTokenTimeout (core : Nat) (s : State) : Host.Outcome State Fault Refusal :=
  onDev s fun d =>
    if (d.core core).issuing && (d.core core).waitSince.isSome && d.reg (R.MC_TOKEN_TIMEOUT core) ≠ 0 then
      d.fault core .tokenTimeout 0
    else d

/-- REMOTE_TOKEN_ARRIVE: the oldest remote operation on its way to the core (R78). -/
def execRemoteTokenArrive (core : Nat) (s : State) : Host.Outcome State Fault Refusal :=
  onDev s fun d => match d.home.remote.find? fun r => r.1 = core with
    | some r => { d with home := { d.home with remote := d.home.remote.erase r } }.tokAdd core r.2.1 r.2.2
    | none => d

/-- The tags that block the instruction n after the core's pc. -/
def Dev.blockedAhead (d : Dev) (c n : Nat) : List TagRef :=
  let k := d.core c
  match k.ibuf[d.pc c + n]? with
  | none => []
  | some w => match d.formOf c k w k.sregs with
    | none => []
    | some f => d.issueBlocked k c f (shareUse k c w f)

/-- TAG_CHECK: the look-ahead checks the tags of one of the next eight instructions; a wrong state registers the core with
the home (R89). -/
def execTagCheck (core ahead : Nat) (s : State) : Host.Outcome State Fault Refusal :=
  onDev s fun d =>
    if core < 8 ∧ (d.core core).issuing ∧ ahead < 8 then
      let bad := d.blockedAhead core ahead
      let new := (bad.map fun t => (core, t.key)).filter fun n => !d.home.notes.contains n
      let d := { d with home := { d.home with notes := d.home.notes ++ new } }
      d.modCore core fun k => { k with lookAhead := mput k.lookAhead ahead (decide (bad = [])) }
    else d

/-- TAG_NOTIFY: the home tells a registered core that tags it waits for have changed (R89). -/
def execTagNotify (core : Nat) (s : State) : Host.Outcome State Fault Refusal :=
  onDev s fun d =>
    if core < 8 ∧ d.home.notes.any (fun n => n.1 = core) then
      let still := (List.range 8).flatMap fun n => (d.blockedAhead core n).map (·.key)
      let d' := { d with home := { d.home with notes := d.home.notes.filter fun n => n.1 ≠ core || still.contains n.2 } }
      let d' := d'.modCore core fun k => { k with lookAhead := mmap k.lookAhead fun n _ => decide (d.blockedAhead core n = []) }
      if d.blockedAhead core 0 = [] then d'.setFld (R.MC_SEQ_STATUS core) F.MC_SEQ_STATUS_tag_wait 0 else d'
    else d

/-- POOL_POP: a home pops a buffer for a requester outside a kernel (R252, R254). -/
def execPoolPop (pool count : Nat) (s : State) : Host.Outcome State Fault Refusal :=
  onDev s fun d =>
    let r := d.pop (pool % 64) count
    { r.2 with bpm := { r.2.bpm with lastPop := r.1 } }

/-- BUFFER_REF_OP: a home performs one reference operation outside a kernel; one that R250 refuses changes nothing. -/
def execBufferRefOp (inc : Bool) (handle : Nat) (s : State) : Host.Outcome State Fault Refusal :=
  onDev s fun d => if d.refFault inc handle 0 = none then (if inc then d.refInc handle else d.refDec handle) else d

/-- POOL_REBUILD_COMPLETE (R253). -/
def execPoolRebuildComplete (pool : Nat) (s : State) : Host.Outcome State Fault Refusal :=
  onDev s fun d => if pool < 64 ∧ d.poolState pool = 3 then d.relinkDone pool else d

/-- BPM_POOL_CTL_WRITE (R257, R474). -/
def execBpmPoolCtlWrite (pool : Nat) (value : Word) (s : State) : Host.Outcome State Fault Refusal :=
  onDev s fun d => if pool < 64 ∧ d.regOpen (R.BPM_POOL_CTL pool) then d.poolCtl pool (value.getLsbD 0) else d

/-- STOOL_REQUEST_COMPLETE: the running request of an engine completes and the next starts (R175, R176). -/
def execStoolRequestComplete (die : Nat) (s : State) : Host.Outcome State Fault Refusal :=
  onDev s fun d =>
    let e := mgetD d.stool die {}
    match e.running with
    | none => d
    | some (c, id) =>
      match d.infl? c id with
      | none => d
      | some x =>
        let r := d.resOf c (d.core c) x
        if r.bad ≠ [] then d
        else
          let d := (d.commitRes c r).retireFlight c x
          let d := d.wrapFld (R.STL_DONE die) F.STL_DONE_done 1
          let e := { e with running := none }.advance
          ({ d with stool := mput d.stool die e }).syncStool die

end Sys2Proof.Machine
end

