-- ==== Sys2Proof/Machine/Recovery.lean ====
section
/-!
DEFINITION. Hangs and resets: the hang watch (R418, R419), unit resets (R421, R422), compute resets with their escalation
(R423 to R435), the replays that hang, the watchdog, the clock escape (R481), the end of a second of the log (R444).
-/

namespace Sys2Proof.Machine

/-! ### Units of the hang watch (R418, R419) -/

/-- Units: the codes of Table Unit codes; the DMA engine of queue q is 0x100 + q, of ring r 0x200 + r. -/
def isCoreUnit (u : Nat) : Bool := u < 10
def isMedia (u : Nat) : Bool := (0x10 ≤ u && u ≤ 0x18) || (0x20 ≤ u && u ≤ 0x23)
def isDma (u : Nat) : Bool := (0x100 ≤ u && u < 0x140) || (0x200 ≤ u && u < 0x240)

/-- The code of a unit in the log and in a HEALTH record, and the number of its queue or ring. -/
def unitCode (u : Nat) : Nat := if u < 0x100 then u else 0x41
def unitSub (u : Nat) : Nat := if u < 0x100 then 0 else u % 256

/-- The progress counter of a unit (Table Progress counters). -/
def Dev.progress (d : Dev) (u : Nat) : Nat :=
  if u < 8 then d.reg (R.MC_SEQ_RETIRED u)
  else if u < 10 then d.reg (R.STL_DONE (u - 8))
  else if u < 0x18 then d.reg (R.COD_ROWS (u - 0x10))
  else if u = 0x18 then d.jpeg.rows
  else if u < 0x24 then d.reg (R.SHP_ROWS (u - 0x20))
  else if u < 0x200 then mgetD d.host.dma (u - 0x100) 0
  else mgetD d.host.dma (64 + (u - 0x200)) 0

/-- The reset steps of a stack run. -/
def Dev.inReset (d : Dev) (k : Nat) : Bool :=
  ((d.resetOn k).map fun r => r.resetting.any fun x => x.1 = k).getD false

/-- A core whose issue is blocked on a share held under R224 or R226, or on a home of a stack in reset, is not busy (R419). -/
def Dev.excused (d : Dev) (c : Nat) : Bool :=
  let k := d.core c
  let keys := if k.issuing then (d.blockedAhead c 0).map (·.key) else []
  (keys.any fun t => d.home.shares.any (fun s => s.tag = t && (s.hit || s.lost ≠ [])) || (t / 4096 < 2 && d.inReset (t / 4096))) ||
    (k.kendIssued && k.inflight = [] && (k.run.map d.shareHolds).getD false)

/-- The unit is busy (Table Progress counters). -/
def Dev.unitBusy (d : Dev) (u : Nat) : Bool :=
  if u < 8 then d.flag (R.MC_SEQ_STATUS u) F.MC_SEQ_STATUS_busy && !d.excused u
  else if u < 10 then d.flag (R.STL_STATUS (u - 8)) F.STL_STATUS_busy
  else if u < 0x18 then d.flag (R.COD_STATUS (u - 0x10)) F.COD_STATUS_busy
  else if u = 0x18 then d.flag R.COD_JPEG_STATUS F.COD_JPEG_STATUS_busy
  else if u < 0x24 then d.flag (R.SHP_STATUS (u - 0x20)) F.SHP_STATUS_active
  else if u < 0x200 then
    d.flag R.HIF_LINK_STATUS F.HIF_LINK_STATUS_dl_up &&
      (d.outstanding (u - 0x100) || ((mget d.que.sqs (u - 0x100)).map fun q => decide (q.head ≠ q.tail)).getD false)
  else
    d.flag R.HIF_LINK_STATUS F.HIF_LINK_STATUS_dl_up && d.que.wait.any fun w => w.ring = u - 0x200

/-- A window setting in ms; values outside 1 to 1,000 are taken as the nearer limit (Table TEL_HANG_WINDOW). -/
def clampMs (n : Nat) : Nat := max 1 (min 1000 n)

/-- The window of a unit; a replay has its own (R431). -/
def Dev.windowOf (d : Dev) (u : Nat) : Nat :=
  let core := ms (clampMs (d.fld R.TEL_HANG_WINDOW F.TEL_HANG_WINDOW_core_ms))
  if u < 10 then
    let cs := if u < 8 then [u] else coresOf (u - 8)
    match cs.findSome? fun c => (d.core c).run.filter fun r => r.replay with
    | some r => min core (max (ms 1) (4 * r.est / unitsPerTick))
    | none => core
  else if isMedia u then ms (clampMs (d.fld R.TEL_HANG_WINDOW F.TEL_HANG_WINDOW_media_ms))
  else ms (clampMs (d.fld R.TEL_HANG_WINDOW F.TEL_HANG_WINDOW_dma_ms))

/-! ### Declarations -/

/-- A hang is declared: log, TEL_HANG_STATUS (R421, R446). -/
def Dev.declareHang (d : Dev) (u level flags : Nat) (r : Option Run) : Dev :=
  let e : LogEntry := { code := Code.hang.num, sub := unitSub u, unit := unitCode u, flags := flags }
  let d := d.logEv (match r with
    | some r => { e with wher := r.ctx + 64 * r.kernel, stream := r.stream, frame := r.frame, pc := if u < 8 then d.pc u else 0 }
    | none => e)
  let d := d.setFld R.TEL_HANG_STATUS F.TEL_HANG_STATUS_last_unit (unitCode u)
  let d := d.setFld R.TEL_HANG_STATUS F.TEL_HANG_STATUS_last_level level
  d.satFld R.TEL_HANG_STATUS F.TEL_HANG_STATUS_hangs 1

/-! ### Compute resets (R424, R427 to R432, R435) -/

/-- Kernels on the cores of some stacks with their checkpoints; the built-in readout kernel has none. -/
def Dev.lostRuns (d : Dev) (ks : List Nat) : List (Nat × Run × Ckpt) :=
  (ks.flatMap coresOf).filterMap fun c => match (d.core c).run, mget d.sched.ckpts c with
    | some r, some cp => if r.kernel < 1024 then some (c, r, cp) else none
    | _, _ => none

/-- The frame's binding names a fallback that can run. -/
def Dev.usableFb (d : Dev) (f : Frame) : Bool :=
  !f.revisit && (match f.ep.bind.fallback with
    | some c => (d.ctx? c).isSome && !d.faulted c
    | none => false)

/-- A claiming dispatch that goes on: of a BE frame without a fallback, at level 1 (R224, R332). -/
def Dev.keepsRun (d : Dev) (level : Nat) (r : Run) : Bool :=
  level = 1 && r.claiming && match d.runFrame r with
    | some f => !d.frameLc f && !d.usableFb f
    | none => false

/-- A participant of a dispatch that goes on is lost: its shares are held, its open closings withdrawn (R223, R224, R226). -/
def Dev.loseParticipant (d : Dev) (c : Nat) (r : Run) : Dev :=
  let d := { d with home := { d.home with shares := d.home.shares.map fun (s : Share) =>
    if s.ctx = r.ctx then
      { s with hit := true, lost := if s.lost.contains (stackOf c) then s.lost else s.lost ++ [stackOf c],
               closing := s.closing.filter fun p => p ≠ r.s6 || s.closed.contains p }
    else s } }
  let d := (d.dropRefs c).undoJournal c
  ((d.stoolKeep (stackOf c) fun x => x.1 ≠ c).freeCore c).syncShares

/-- The stack a suspect is replayed on: its own after level 1; after level 2 stack 0 if both hold its variant-0 regions (R435). -/
def Dev.replayStack (d : Dev) (level k : Nat) (cp : Ckpt) : Nat :=
  if level = 1 then k
  else match d.ctx? cp.run.ctx with
    | some x => if x.onStacks.contains 0 then 0 else if x.onStacks.contains 1 then 1 else k
    | none => k

/-- Two runs are of one kernel of one frame. -/
def Run.same (a b : Run) : Bool :=
  a.ctx = b.ctx && a.kernel = b.kernel && a.stream = b.stream && a.frame = b.frame && a.revisit = b.revisit

/-- Replays in ascending context, one per kernel (R431). -/
def sortReplays (l : List (Nat × Ckpt)) : List (Nat × Ckpt) :=
  let one := l.foldl (fun acc x => if acc.any fun y => y.2.run.same x.2.run then acc else acc ++ [x]) []
  (List.range 64).flatMap fun c => one.filter fun x => x.2.run.ctx = c

/-- What becomes of a suspect's frame (R332, R430, R434): at level 2 one in flight is voided; else it is newly ready where it has a
fallback, waits where its context is BE, and is voided where it is LC. -/
def Dev.resetFrame (d : Dev) (level : Nat) (f : Frame) (hit : Bool) : Dev :=
  if (level = 2 && (hit || f.stack.isSome)) || (!d.usableFb f && d.frameLc f) then d.voidFrame f 2 Code.hang.num
  else
    let st : FrameSt := if d.usableFb f || f.revisit then .arrived else .waiting
    (d.freeRecs f.recs).modFrame f.stream f.num f.revisit fun f =>
      { f with st := st, kernel := 0, stack := none, recs := [], onFallback := false }

/-- Streams bound to suspects go to FALLBACK with cause RECOVERY (R332). -/
def Dev.suspectStreams (d : Dev) (cs : List Nat) : Dev :=
  d.streams.foldl (fun d x => match x.2.cur with
    | some e => if cs.contains e.bind.ctx && e.bind.fallback.isSome then
        (d.setFallback x.1 true 2).modStream x.1 fun s => { s with holdCount := 0 }
      else d
    | none => d) d

/-- What runs on the stacks is aborted: kernels, readouts, replays, participants on other stacks of a dispatch that ends. -/
def Dev.abortStacks (d : Dev) (ks : List Nat) (kept gone : List (Nat × Run × Ckpt)) : Dev :=
  let d := kept.foldl (fun d x => d.loseParticipant x.1 x.2.1) d
  let d := { d with sched := { d.sched with redo := d.sched.redo ++ kept.map fun x => x.2.2 } }
  let d := gone.foldl (fun d x => d.abortCore x.1) d
  let d := (ks.flatMap coresOf).foldl (fun d c => if (d.core c).run.isSome then (d.readoutAbort c).freeCore c else d) d
  (dedup ((gone.filter fun x => x.2.1.claiming && !x.2.1.replay).map fun x => x.2.1.ctx)).foldl (fun d ctx =>
    let d := (List.range 8).foldl (fun d x => match (d.core x).run with
      | some q => if q.claiming && !q.replay && q.ctx = ctx then d.abortCore x else d
      | none => d) d
    let d := { d with sched := { d.sched with redo := d.sched.redo.filter fun cp => cp.run.ctx ≠ ctx } }
    d.dropShares ctx) d

/-- A compute reset of some stacks starts; resets that hold one of them go on in it (R424 to R430, R435). -/
def Dev.computeReset (d : Dev) (kind : ResetKind) (ks : List Nat) (cause : Nat) : Dev :=
  let level := if kind = .two then 2 else 1
  let old := d.recov.resets.filter fun r => r.onStacks.any ks.contains
  let all := d.lostRuns ks
  let hits := all.filter fun x => !x.2.1.replay
  let backs := all.filter fun x => x.2.1.replay
  let kept := hits.filter fun x => d.keepsRun level x.2.1
  let gone := hits.filter fun x => !d.keepsRun level x.2.1
  let cs := (List.range 64).filter fun c => hits.any fun x => x.2.1.ctx = c
  let frames := d.sched.frames.filter fun f => gone.any fun x => x.2.1.stream = f.stream && x.2.1.frame = f.num && x.2.1.revisit = f.revisit
  let others := d.sched.frames.filter fun f => f.queued &&
    ((cs.contains f.ctx && (f.stack.map ks.contains).getD true) || (level = 2 && f.stack.isSome))
  let keptFrames := d.sched.frames.filter fun f => kept.any fun x => x.2.1.stream = f.stream && x.2.1.frame = f.num && x.2.1.revisit = f.revisit
  let refs := (frames ++ keptFrames ++ others.filter fun f => f.stack.isSome).filterMap (·.buf)
  let claims := kept.flatMap fun x => (d.core x.1).claims
  let reps := old.flatMap (·.replays) ++ (backs ++ hits).map fun x => (stackOf x.1, x.2.2)
  let r : ResetRun := {
    level := (old.map (·.level)).foldl max level, onStacks := dedup (old.flatMap (·.onStacks) ++ ks),
    resetting := ((old.flatMap (·.resetting)).filter fun x => !ks.contains x.1) ++ ks.map fun k => (k, d.now, kind),
    decl := (old.map (·.decl)).foldl min d.now, cause := ((old.head?).map (·.cause)).getD cause,
    replays := sortReplays (reps.map fun x => (d.replayStack level x.1 x.2, x.2)),
    affected := (List.range 64).filter fun c => cs.contains c || old.any fun r => r.affected.contains c,
    anyFaulted := old.any (·.anyFaulted), refs := old.flatMap (·.refs) ++ refs,
    gens := old.flatMap (·.gens) ++ kept.map fun x => x.2.1.gen, claims := old.flatMap (·.claims) ++ claims }
  let d := refs.foldl Dev.refInc d
  let d := { d with recov := { d.recov with resets := (d.recov.resets.filter fun (x : ResetRun) => !(x.onStacks.any ks.contains)) ++ [r] } }
  let d := d.abortStacks ks kept (gone ++ backs)
  let d := d.suspectStreams cs
  let d := if level = 2 then (dedup (d.sched.redo.map fun (cp : Ckpt) => cp.run.ctx)).foldl (fun d c => d.endClaiming c Code.hang.num) d else d
  let d := frames.foldl (fun d f => d.resetFrame level f true) d
  let d := others.foldl (fun d f => d.resetFrame level f false) d
  d.syncRecov

/-! ### Escalation (R426) -/

/-- A level-2 reset, or level 3 when it is the second within 60 s. -/
def Dev.level2 (d : Dev) (cause : Nat) : Dev :=
  if d.recov.l2.any fun t => d.now < t + 60 * 10 ^ 8 then d.startL3 Code.hang.num true none
  else
    let d := (d.satFld R.TEL_RESETS F.TEL_RESETS_l2 1).setFld R.TEL_HANG_STATUS F.TEL_HANG_STATUS_last_level 2
    ({ d with recov := { d.recov with l2 := [d.now] } }).computeReset .two [0, 1] cause

/-- One level-1 reset of stack k in TEL_RESETS. -/
def Dev.countL1 (d : Dev) (k : Nat) : Dev :=
  d.satFld R.TEL_RESETS (if k = 0 then F.TEL_RESETS_l1_stack0 else F.TEL_RESETS_l1_stack1) 1

/-- A level-1 reset of stack k: a fourth within 10 s, or one beside a level-1 reset of the other stack, is level 2. -/
def Dev.level1 (d : Dev) (k cause : Nat) (core : Bool) : Dev :=
  let beside := core && d.recov.resets.any fun r => r.resetting.any fun x => x.1 ≠ k && x.2.2 = .one
  let recent := d.recov.l1.filter fun x => d.now < x.2 + 10 * 10 ^ 8
  if beside || 3 ≤ (recent.filter fun x => x.1 = k).length then d.level2 cause
  else
    let d := { d with recov := { d.recov with l1 := recent ++ [(k, d.now)] } }
    (d.countL1 k).computeReset .one [k] cause

/-- A replay hangs: its context is FAULTED, and the stack is reset without counting (R431). -/
def Dev.replayHang (d : Dev) (k u : Nat) (r : Run) : Dev :=
  let d := (d.declareHang u 1 2 (some r)).markFaulted r.ctx Code.hang.num r.kernel
  let d := match d.resetOn k with
    | some x => d.putReset k { x with anyFaulted := true }
    | none => d
  (d.countL1 k).computeReset .replay [k] u

/-- A core or a Stool engine hangs. -/
def Dev.coreHang (d : Dev) (u : Nat) : Dev :=
  let k := if u < 8 then stackOf u else u - 8
  match (coresOf k).findSome? fun c => (d.core c).run.filter fun r => r.replay with
  | some r => d.replayHang k u r
  | none =>
    let run := if u < 8 then (d.core u).run else ((mgetD d.stool k {}).running).bind fun x => (d.core x.1).run
    (d.declareHang u 1 0 run).level1 k u true

/-! ### Unit resets (R421, R422) -/

/-- The unit is out of service until the next level-3 reset; its svc field reads OFF. -/
def Dev.retireUnit (d : Dev) (u : Nat) : Dev :=
  let d := { d with recov := { d.recov with deadUnits := d.recov.deadUnits ++ [u] } }
  if 0x10 ≤ u ∧ u < 0x18 then d.setFld (R.COD_STATUS (u - 0x10)) F.COD_STATUS_svc 0
  else if u = 0x100 then d.setFld R.QUE_ADMIN_CFG F.QUE_ADMIN_CFG_svc 0
  else d

/-- A codec engine, the JPEG unit, a pipe or a DMA engine hangs: its reset starts; with its pipe in reset an engine is not reset (R419). -/
def Dev.unitHang (d : Dev) (u : Nat) : Dev :=
  let d := d.declareHang u 0 0 none
  let recent := d.recov.unitHangs.filter fun x => d.now < x.2 + 60 * 10 ^ 8
  let third := 2 ≤ (recent.filter fun x => x.1 = u).length
  let d := { d with recov := { d.recov with unitHangs := recent ++ [(u, d.now)] } }
  if 0x10 ≤ u && u < 0x18 && d.recov.units.any (fun x => x.1 = 0x20 + (u - 0x10) / 2) then d
  else
    let mine := fun (x : Nat × Nat) => 0x20 ≤ u && u < 0x24 && (x.1 = 0x10 + 2 * (u - 0x20) || x.1 = 0x11 + 2 * (u - 0x20))
    let d := { d with recov := { d.recov with units := (d.recov.units.filter fun x => !mine x) ++ [(u, d.now)] } }
    let d := d.satFld R.TEL_RESETS F.TEL_RESETS_unit 1
    if third then d.retireUnit u else d

/-- One sample of a unit's counter (R419). A record holds the counter plus 1, or 0 where the unit was not busy. -/
def Dev.sample (d : Dev) (u : Nat) : Dev :=
  let c := if d.unitBusy u then d.progress u + 1 else 0
  let first := match mget d.recov.samples u with
    | some o => if o.1 = c then o.2.1 else d.now
    | none => d.now
  if c ≠ 0 && first + d.windowOf u ≤ d.now then
    let d := { d with recov := { d.recov with samples := mdel d.recov.samples u } }
    if isCoreUnit u then d.coreHang u else d.unitHang u
  else { d with recov := { d.recov with samples := mput d.recov.samples u (c, first, d.now) } }

/-- HANG_WATCH_SAMPLE: every eighth of the unit's window (R418, R419). -/
def execHangWatchSample (unit : Nat) (s : State) : Host.Outcome State Fault Refusal :=
  let ok := s.d.working && (isCoreUnit unit || isMedia unit || isDma unit) && !s.d.unitOut unit && s.d.clocked 4
  let due := match mget s.d.recov.samples unit with
    | some o => o.2.2 + s.d.windowOf unit / 8
    | none => s.tb.time
  if ok then onDevAt s due fun d => d.sample unit else onDev s id

/-! ### What a unit reset settles (Table Unit resets) -/

/-- The picture of engine n is concealed whole with subcode 0x08; rows the pipe has already taken stand (R281, R421). An encode is
dropped. The cycles it counted are open. -/
def Dev.concealWhole (d : Dev) (n : Nat) : Dev :=
  let e := d.engine n
  match e.pic with
  | none => d
  | some P =>
    if P.info.encode then
      let d := d.modEngine n fun e => { e with pic := none, stalled := false }
      (d.useChunks P.info.stream P.info.used).engineIdle n
    else
      let gone := if P.analyse then P.rowsDone.length - (e.ring.length + e.heldBack.length) else 0
      let d := if P.analyse then d.modEngine n fun e => { e with ring := [], heldBack := [] } else d
      let v := d.fresh
      let d := v.2.endDecode n { P with rowsDone := [], concealed := 0, firstSub := 8 } v.1 0 0 true
      if !P.analyse then d
      else if (d.frame? P.info.stream P.frame false).isNone then
        d.modEngine n fun e => { e with src := none, ring := [], heldBack := [], ringFirst := 0 }
      else d.modEngine n fun e => { e with ring := [], heldBack := (e.ring ++ e.heldBack).drop gone } |>.flow P.info.width

/-- The job of the JPEG unit is given up: its frame is voided. -/
def Dev.jpegReset (d : Dev) : Dev :=
  match d.jpeg.queue with
  | [] => d
  | (id, c) :: rest =>
    let d := ({ d with jpeg := { d.jpeg with queue := rest } }).syncJpeg
    match (d.stream? id).bind fun x => ((x.epoch? c.epoch).or x.cur).map fun ep => (x, ep) with
    | none => d
    | some (x, ep) =>
      let r := (d.adoptEpoch id ep).takeNum id 0
      let d := if x.kind = 2 then r.2 else r.2.voidNum id r.1 c.stamp ep.num 2 Code.hang.num 0 x.unauth []
      d.dropChunk id c

/-- Frames in progress on a pipe: (stream, number). -/
def Dev.pipeFrames (d : Dev) (k : Nat) : List (Nat × Nat) :=
  let p := d.pipe k
  let eng := [2 * k, 2 * k + 1].flatMap fun n =>
    let e := d.engine n
    (if e.ring = [] && e.heldBack = [] then [] else (e.src.map fun P => (P.info.stream, P.frame)).toList) ++
      ((e.pic.filter fun P => P.analyse && P.rowsDone ≠ []).map fun P => (P.info.stream, P.frame)).toList
  let port := d.port k
  let sens := ((port.cur.map fun x => (x.1, x.2)) ++ port.ended).filterMap fun x =>
    if p.fifo.any fun l => l.1 = 4 * x.2.frame + x.1 then some (x.2.stream, x.2.frame) else none
  (p.work.map fun w => (w.2.stream, w.2.frame)) ++ eng ++ sens

/-- Shaper pipe k is reset: its frames are voided, its line rings flushed, the pictures of its engines concealed whole. -/
def Dev.pipeReset (d : Dev) (k : Nat) : Dev :=
  let fs := d.pipeFrames k
  let jpg := (mget (d.pipe k).work 3).isSome
  let d := fs.foldl (fun d x => match d.frame? x.1 x.2 false with
    | some f => d.voidFrame f 2 Code.hang.num
    | none => d) d
  let d := d.modPipe k fun p => { p with work := [], fifo := [] }
  let d := d.modPort k fun p => { p with ended := p.ended.filter fun x => !fs.contains (x.2.stream, x.2.frame) }
  let d := if jpg then { d with jpeg := { d.jpeg with img := none } } else d
  let d := [2 * k, 2 * k + 1].foldl (fun d n =>
    (d.modEngine n fun e => { e with ring := [], heldBack := [], src := none, ringFirst := 0 }).concealWhole n) d
  d.syncPipe k

/-- The readouts of a queue's commands are given up: their holds and their kernels end. -/
def Dev.dropReadouts (d : Dev) (q : Nat) : Dev :=
  let mine := d.readouts.filter fun r => r.q = q
  let d := { d with readouts := d.readouts.filter fun r => r.q ≠ q }
  mine.foldl (fun d r => r.scratch.foldl (fun d x =>
    let d := (d.slotPages (scratchAddr x)).foldl Dev.refDec d
    match x.core with
    | some c => d.freeCore c
    | none => d) d) d

/-- The DMA engine of queue q is reset: the command completes with HANG. -/
def Dev.queueReset (d : Dev) (q : Nat) : Dev :=
  let d := d.dropReadouts q
  let d := { d with que := { d.que with cplWait := d.que.cplWait.map fun (x : Nat × Nat × Nat × List Byte) => if x.1 = q then (x.1, x.2.1, Code.hang.num, []) else x } }
  d.endCmds (fun c => c.q = q) Code.hang.num

/-- What a unit's reset leaves behind. A ring's records are sent as before. -/
def Dev.settleUnit (d : Dev) (u : Nat) : Dev :=
  if 0x10 ≤ u ∧ u < 0x18 then
    let n := u - 0x10
    let d := d.concealWhole n
    (d.modEngine n fun e => { e with loads := [], stalled := false }).syncLoads
  else if u = 0x18 then d.jpegReset
  else if 0x20 ≤ u ∧ u < 0x24 then d.pipeReset (u - 0x20)
  else if 0x100 ≤ u ∧ u < 0x140 then d.queueReset (u - 0x100)
  else d

/-- The rings of an engine still carry an older picture than the one in progress. -/
def Dev.ringBusy (d : Dev) (u : Nat) : Bool :=
  0x10 ≤ u && u < 0x18 && match (d.engine (u - 0x10)).pic with
    | some P => P.analyse && !(d.engine (u - 0x10)).ringFor P
    | none => false

/-- UNIT_RESET_COMPLETE (R421). -/
def execUnitResetComplete (unit : Nat) (s : State) : Host.Outcome State Fault Refusal :=
  onDev s fun d =>
    match d.recov.units.find? fun x => x.1 = unit with
    | none => d
    | some x =>
      if d.ringBusy unit then d
      else
        let d := d.settleUnit unit
        let d := { d with recov := { d.recov with units := d.recov.units.filter fun y => y.1 ≠ unit } }
        d.health Ev.recovery.code 0 0 (unitCode unit) ((d.now - x.2) / 100)

/-- UNIT_RESET_TIMEOUT: 5 ms after the declaration (R422). -/
def execUnitResetTimeout (unit : Nat) (s : State) : Host.Outcome State Fault Refusal :=
  match s.d.recov.units.find? fun x => x.1 = unit with
  | some x => onDevAt s (x.2 + ms 5) fun d => d.startL3 Code.hang.num true none
  | none => onDev s id

/-! ### The end of a compute reset -/

/-- The reset steps that have run longest: stack, start, kind. -/
def Dev.oldestReset (d : Dev) : Option (Nat × Nat × ResetKind) :=
  (d.recov.resets.flatMap (·.resetting)).foldl (fun acc x => match acc with
    | some y => if x.2.1 < y.2.1 then some x else acc
    | none => some x) none

/-- Operand stores, sequencers, drain slots and the registers of a C-die are as after its reset (R18, R424, R6). -/
def Dev.clearDie (d : Dev) (k : Nat) : Dev :=
  let d := (coresOf k).foldl (fun d c =>
    let d := (d.clear (opBase c) 0x100000).setCore c {}
    let d := d.setReg (R.MC_ARITH_STATUS c) (d.reg (R.MC_ARITH_STATUS c) / 8 * 8)
    (d.setReg (R.MC_SEQ_STATUS c) 0).setReg (R.MC_SEQ_RETIRED c) 0) d
  let d := { d with stool := mdel d.stool k }
  (d.setReg (R.STL_STATUS k) 0).setReg (R.STL_DONE k) 0

/-- Orphans are marked and shares are no longer held for these dies (R223, R226). -/
def Dev.markOrphans (d : Dev) (ks : List Nat) (r : ResetRun) : Dev :=
  let shares := d.home.shares.map fun (s : Share) =>
    let mine := (s.issued.filter fun t => r.gens.contains t.2.2 && !s.done.contains t.1).map (·.1)
    { s with orphans := s.orphans ++ mine.filter (fun t => !s.orphans.contains t), lost := s.lost.filter fun k => !ks.contains k }
  let orph := d.home.orphans ++ r.claims.filter fun c => !d.home.orphans.contains c
  ({ d with home := { d.home with shares := shares, orphans := orph } }).shareCheck

/-- COMPUTE_RESET_COMPLETE: the dies are clear, orphans are marked, the replays start (R223, R424, R431, R435). -/
def execComputeResetComplete (s : State) : Host.Outcome State Fault Refusal :=
  onDev s fun d =>
    match d.oldestReset.bind fun x => (d.resetOn x.1).map fun r => (x, r) with
    | none => d
    | some (x, r) =>
      let now := r.resetting.filter fun y => y.2 = x.2
      let ks := now.map (·.1)
      let d := (ks.foldl Dev.clearDie d).putReset x.1
        { r with resetting := r.resetting.filter (fun y => y.2 ≠ x.2), gens := [], claims := [] }
      let d := d.markOrphans ks r
      (ks.foldl Dev.replayNext d).syncRecov

/-- COMPUTE_RESET_TIMEOUT: 30 ms for level 1, 60 ms for level 2 (R426). -/
def execComputeResetTimeout (s : State) : Host.Outcome State Fault Refusal :=
  match s.d.oldestReset with
  | none => onDev s id
  | some x => onDevAt s (x.2.1 + x.2.2.limit) fun d =>
      if x.2.2 = .two then d.startL3 Code.hang.num true none else d.level2 (((d.resetOn x.1).map (·.cause)).getD 0xFF)

/-! ### Level 3 by the device (R420, R426) -/

/-- CC_WATCHDOG_EXPIRY: the heartbeat of a control core has not advanced for 50 ms. -/
def execCcWatchdogExpiry (cc : Nat) (s : State) : Host.Outcome State Fault Refusal :=
  onDev s fun d => if cc < 4 && d.working then d.startL3 Code.hang.num true (some (0x30 + cc)) else d

/-- FIRMWARE_EXCEPTION. No fault code of R414 names it. -/
def execFirmwareException (cc : Nat) (s : State) : Host.Outcome State Fault Refusal :=
  onDev s fun d => if cc < 4 && d.working then d.startL3 0 true none else d

/-- LOG_SECOND_END: device time reaches the end of the aligned second (R444). -/
def execLogSecondEnd (s : State) : Host.Outcome State Fault Refusal :=
  onDevAt s ((s.d.recov.second + 1) * 10 ^ 8) fun d => d.logRoll

/-! ### The clock escape (R481) -/

/-- The escape logic acts on a domain: its selected source is connected, its units are reset. -/
def Dev.escape (d : Dev) (dom : Nat) (self : Bool) : Dev :=
  let d := (d.switched dom).setFld R.CPR_CLK_STATUS F.CPR_CLK_STATUS_escaped 1
  if dom < 2 then d.level1 dom 0xFF false else d.startL3 0 self none true

/-- CPR_CLK_ESC_WRITE: bit d escapes domain d. -/
def execCprClkEscWrite (value : Word) (s : State) : Host.Outcome State Fault Refusal :=
  onDev s fun d => (List.range 6).foldl (fun d k => if value.getLsbD k then d.escape k false else d) d

/-- CLOCK_ESCAPE_AUTO: the control domain's switching bit has read 1 for 1 ms. -/
def execClockEscapeAuto (s : State) : Host.Outcome State Fault Refusal :=
  match mget s.d.clk.switchAt 4 with
  | some t => onDevAt s (t + ms 1) fun d => d.escape 4 true
  | none => onDev s id

end Sys2Proof.Machine
end

