-- ==== Sys2Proof/Machine/Secure.lean ====
section
/-!
DEFINITION. The security engine: signing epochs and indices (R503 to R506), attestation (R507, R508), the recovery image (R495), OTP
commands (R500, R509), the index registers (R510).
-/

namespace Sys2Proof.Machine

/-! ### Signing indices (R503 to R505) -/

/-- Indices of one epoch. -/
def epochSize : Nat := 2 ^ 28

/-- A signature needs a claim first: after power-on, a failed check value, or at the end of the epoch. -/
def Sec.needClaim (x : Sec) : Bool := !(x.checkOk && x.epochOpen && x.next / epochSize + 1 = x.epochsUsed)

/-- The stored next index is advanced; its previous value is spent. -/
def Sec.take (x : Sec) : Sec := { x with next := x.next + 1, spent := x.next :: x.spent, cur := some x.next }

/-- The loop of R504 from fuse e on, at most n fuses, with the read-backs the fuses give. -/
def claimFrom : Nat → Nat → List Bool → SMap Nat → Option Nat × SMap Nat
  | 0, _, _, f => (none, f)
  | n + 1, e, reads, f => if reads.headD true then (some e, mput f e 1) else claimFrom n (e + 1) reads.tail (mput f e 2)

/-- A claim with its read-backs, then the index of the signature; no epoch is left: no index. -/
def Sec.claim (x : Sec) (reads : List Bool) : Sec :=
  match claimFrom (4096 - x.epochsUsed) x.epochsUsed reads x.fuses with
  | (some e, f) => ({ x with fuses := f, epochsUsed := e + 1, next := e * epochSize, checkOk := true, epochOpen := true } : Sec).take
  | (none, f) => { x with fuses := f }

/-- The index of the signature that completes: the one taken when it began, or one that needs a claim. -/
def Sec.forSign (x : Sec) (reads : List Bool) : Sec :=
  if x.cur.isSome then x
  else if x.epochsUsed = 4096 then x
  else if x.needClaim then x.claim reads
  else x.take

/-- A signature begins: its index is taken at once where no claim is needed. -/
def Sec.begin (x : Sec) (waiting : Bool) : Sec :=
  let x := { x with cur := none }
  if waiting && !x.needClaim && x.epochsUsed < 4096 then x.take else x

/-- SEC_SIG_STATUS after a signature; the first time fewer than 256 epochs remain is logged and raises the replace request (R506). -/
def Dev.epochStatus (d : Dev) (x : Sec) (exhausted : Bool) : Dev :=
  let was := d.flag R.SEC_SIG_STATUS F.SEC_SIG_STATUS_low
  let low := 4096 < x.epochsUsed + 256
  let d := d.setFld R.SEC_SIG_STATUS F.SEC_SIG_STATUS_epochs_used x.epochsUsed
  let d := d.setFld R.SEC_SIG_STATUS F.SEC_SIG_STATUS_epoch_open (b2n x.epochOpen)
  let d := d.setFld R.SEC_SIG_STATUS F.SEC_SIG_STATUS_low (b2n low)
  let d := d.setFld R.SEC_SIG_STATUS F.SEC_SIG_STATUS_exhausted (b2n (exhausted || x.epochsUsed = 4096))
  if low && !was then (d.logEv { code := Code.sigEpochLow.num, unit := 0x60 }).replaceCause 3 3 0 0 else d

/-! ### The attestation report (R507) -/

/-- An image entry. -/
def Dev.imageEntry (d : Dev) (i : Image) : List Byte :=
  let ctxOf := fun (v : Nat) => (i.ctxs.find? fun c => ((mget d.ctxs c).map (·.variant)) = some v).getD 0xFF
  padTo (padTo i.hash 32 ++ (List.range 4).flatMap (fun v => toLE 1 (ctxOf v)) ++ toLE 1 (b2n i.signed)) 48

/-- A head entry. -/
def Dev.headEntry (d : Dev) (k : Nat) : List Byte :=
  let st := ((mget d.ports k).map (·.store)).getD []
  padTo (toLE 1 k ++ toLE 1 (d.fld (R.SNS_STATUS k) F.SNS_STATUS_auth) ++ toLE 2 0 ++ toLE 4 (curHours st).1 ++ padTo (slice st 0x40 16) 16 ++
    padTo (headSerial st) 32 ++ shake256 (headKey st) 32) 96

/-- Ports whose heads a report lists: those of a request with bit 0 of byte 48 set. -/
def Dev.attHeads (d : Dev) (e : List Byte) : List Nat :=
  if bit (byteAt e 48) 0 then [0, 1, 2, 3].filter fun k => d.fld (R.SNS_STATUS k) F.SNS_STATUS_auth ≠ 0 else []

/-- Length of the whole report. -/
def Dev.attLen (d : Dev) (e : List Byte) : Nat := 256 + 48 * d.images.length + 96 * (d.attHeads e).length + 19914

/-- The report up to its signature, with time, index and epochs_used still open. -/
def Dev.attBody (d : Dev) (e : List Byte) : List Byte :=
  let v := d.nv
  let fw := d.pwr.fw.getD { keyHash := [], sigOk := false, hashOk := false }
  let boot := d.fld R.SEC_BOOT_STATUS F.SEC_BOOT_STATUS_fw_slot + 4 * d.fld R.SEC_BOOT_STATUS F.SEC_BOOT_STATUS_key_slot + 16 * v.revoked
  toLE 4 0x5241565A ++ toLE 2 1 ++ toLE 2 0 ++ toLE 4 (d.attLen e) ++ toLE 2 d.images.length ++ toLE 1 (d.attHeads e).length ++ toLE 1 0 ++
    slice e 16 32 ++ toLE 8 v.serial ++ zeros 18 ++ toLE 1 v.rollback ++ toLE 1 boot ++ toLE 4 fw.version ++
    toLE 4 (d.reg R.SEC_POLICY) ++ toLE 1 (d.fld R.GLB_ALIVE F.GLB_ALIVE_resets) ++ zeros 11 ++ padTo fw.hashes 96 ++
    shake256 v.makers.flatten 32 ++ padTo (v.custKey.getD []) 32 ++
    d.images.flatMap (fun i => d.imageEntry i.2) ++ (d.attHeads e).flatMap d.headEntry

/-- The signed report with the certificate behind it. -/
def Dev.attReport (d : Dev) (body : List Byte) (i used : Nat) : List Byte :=
  let body := patch body 56 (toLE 8 d.now ++ toLE 8 i ++ toLE 2 used)
  body ++ padTo (Config.xmssmtSign i body) 9893 ++ padTo d.nv.cert 10021

/-- ATTEST requests that wait for their signature, in order. -/
def Dev.attWaiting (d : Dev) : List Cmd := d.que.cmds.filter fun c => c.op = 0x33

/-- ATTEST: the report is built and kept behind the entry; the first of the line begins its signature (R505 to R508). -/
def execAttest (q : Nat) (e : List Byte) (s : State) : Host.Outcome State Fault Refusal :=
  let r := onCmd s 0x33 q e fun d =>
    if d.flag R.SEC_SIG_STATUS F.SEC_SIG_STATUS_exhausted then d.reply q e Code.sigEpochLow.num
    else if eLen e < d.attLen e then d.reply q e Code.descInvalid.num (toLE 4 (d.attLen e))
    else d.keepCmd q (padTo e 64 ++ d.attBody e) 0 (d.attLen e)
  match r with
  | .next t => if s.d.attWaiting = [] && t.d.attWaiting ≠ [] then .next { t with sec := t.sec.begin true } else .next t
  | o => o

/-- The request at the head of the line is answered. -/
def Dev.attDone (d : Dev) (x : Sec) : Dev :=
  match d.attWaiting with
  | [] => d
  | c :: _ =>
    let d := ({ d with que := { d.que with cmds := d.que.cmds.erase c } }).epochStatus x x.cur.isNone
    match x.cur with
    | none => d.complete c.q c.cid Code.sigEpochLow.num
    | some i =>
      let rep := d.attReport (c.entry.drop 64) i x.epochsUsed
      (d.send (.mem (eAddr c.entry) rep)).complete c.q c.cid 0 (toLE 4 rep.length)

/-- ATTEST_SIGN_COMPLETE, with the read-backs of the fuses a claim blows (R504, R505, R508). -/
def execAttestSignComplete (fuseReads : List Bool) (s : State) : Host.Outcome State Fault Refusal :=
  if s.d.attWaiting = [] || !s.d.working then onDev s id
  else
    let x := s.sec.forSign fuseReads
    match onDev s fun d => d.attDone x with
    | .next t => .next { t with sec := x.begin (t.d.attWaiting ≠ []) }
    | o => o

/-- SEC_SIG_INDEX_LO_READ: the low word as the completion carries it; the high word is latched (R510). -/
def execSecSigIndexLoRead (s : State) : Host.Outcome State Fault Refusal :=
  onDev s fun d =>
    if !d.regOpen R.SEC_SIG_INDEX_LO then d.out (.reg R.SEC_SIG_INDEX_LO 0)
    else
      let d := (d.setReg R.SEC_SIG_INDEX_LO s.sec.next).setReg R.SEC_SIG_INDEX_HI (s.sec.next / 2 ^ 32)
      d.out (.reg R.SEC_SIG_INDEX_LO (s.sec.next % 2 ^ 32))

/-! ### The recovery image (R495) -/

def recWindow : Nat := 0x200000

/-- Bytes of the recovery window. -/
def Dev.recBytesAt (d : Dev) (o n : Nat) : List Byte := (List.range n).map fun i => mgetD d.otp.recWin (o + i) 0

/-- The image in the recovery window as a slot (Table Firmware image header). -/
def Dev.recSlot (d : Dev) : FwSlot :=
  let h := d.recBytesAt 0 256
  let key := slice h 128 68
  let l1 := le h 16 4
  let l2 := le h 20 4
  let l3 := le h 24 4
  let fits : Bool := l1 ≤ 0x100000 && 4096 + l1 + l2 + l3 ≤ recWindow
  { keyHash := shake256 key 32, sigOk := Config.xmssVerify key (d.recBytesAt 256 2820) h,
    hashOk := fits && shake256 (d.recBytesAt 4096 l1) 32 = slice h 32 32 && shake256 (d.recBytesAt (4096 + l1) l2) 32 = slice h 64 32 &&
      shake256 (d.recBytesAt (4096 + l1 + l2) l3) 32 = slice h 96 32,
    rollback := byteAt h 12, version := le h 8 4, revoke := byteAt h 14 % 16, commit := bit (byteAt h 13) 0, hashes := slice h 32 96 }

/-- The ROM waits in recovery. -/
def Dev.inRecovery (d : Dev) : Bool :=
  d.fld R.SEC_BOOT_STATUS F.SEC_BOOT_STATUS_fw_slot = 2 && d.pwr.fw.isNone && d.pwr.phase = .booting && !d.pins.poresetLow && d.railsUp

/-- SEC_RECOVERY_GO. -/
def execSecRecoveryGo (s : State) : Host.Outcome State Fault Refusal :=
  onDev s fun d =>
    if !d.inRecovery then d
    else
      let f := d.recSlot
      if d.nv.slotErr f = 0 then (d.setFld R.SEC_BOOT_STATUS F.SEC_BOOT_STATUS_boot_err 0).runFw 2 f
      else d.setFld R.SEC_BOOT_STATUS F.SEC_BOOT_STATUS_boot_err 5

/-! ### OTP commands (R509) -/

/-- A write of SEC_OTP_CMD that starts op; while one runs it is ignored and sets err. -/
def Dev.otpStart (d : Dev) (op : Nat) : Dev :=
  if !d.regOpen R.SEC_OTP_CMD then d
  else if d.otp.running.isSome then d.setFld R.SEC_OTP_CMD F.SEC_OTP_CMD_err 1
  else { (d.setFld R.SEC_OTP_CMD F.SEC_OTP_CMD_busy 1) with otp := { d.otp with running := some op } }

/-- PROGRAM_KEY_HASH: op 1. -/
def execProgramKeyHash (s : State) : Host.Outcome State Fault Refusal := onDev s fun d => d.otpStart 1

/-- BLOW_ENFORCEMENT_FUSE: op 2. -/
def execBlowEnforcementFuse (s : State) : Host.Outcome State Fault Refusal := onDev s fun d => d.otpStart 2

/-- Op 1 programs the hash that SEC_OTP_DATA holds, unless one is programmed. -/
def Dev.otpProgram (d : Dev) : Dev :=
  if d.nv.custKey.isSome then d.setFld R.SEC_OTP_CMD F.SEC_OTP_CMD_err 1
  else
    let h := (List.range 8).flatMap fun i => toLE 4 (mgetD d.otp.data i 0).toNat
    ({ d with nv := { d.nv with custKey := some h } }).setFld R.SEC_BOOT_STATUS F.SEC_BOOT_STATUS_cust_key_set 1

/-- Op 2 blows the enforcement fuse, if a hash is programmed. -/
def Dev.otpEnforce (d : Dev) : Dev :=
  if d.nv.custKey.isNone then d.setFld R.SEC_OTP_CMD F.SEC_OTP_CMD_err 1
  else
    let d := ({ d with nv := { d.nv with enforce := true } }).setFld R.SEC_POLICY F.SEC_POLICY_otp_enforce 1
    d.setFld R.SEC_POLICY F.SEC_POLICY_require_customer_sig 1

/-- OTP_COMMAND_COMPLETE. -/
def execOtpCommandComplete (s : State) : Host.Outcome State Fault Refusal :=
  onDev s fun d =>
    match d.otp.running with
    | none => d
    | some op =>
      let d := { (d.setFld R.SEC_OTP_CMD F.SEC_OTP_CMD_busy 0) with otp := { d.otp with running := none } }
      if op = 1 then d.otpProgram else d.otpEnforce

end Sys2Proof.Machine
end

