-- ==== Sys2Proof/Machine/RegWrite.lean ====
section
/-!
DEFINITION. A host write of 32 bits to BAR0 or to the MSI-X table (R4, R5, R6, R258, R349, R352, R383, R490, R495, R500, R509): the access
codes of the register's table, and what a write starts. A register that has a row of its own takes that row's meaning.
-/

namespace Sys2Proof.Machine

/-- BPM_POOL_BASE, CFG and COUNT take writes only in a DISABLED pool with no enable pending (R258). -/
def Dev.poolWrite (d : Dev) (off v : Nat) : Dev :=
  let p := (off - 0xC0000) / 0x20
  if d.poolState p = 0 && !d.flag (R.BPM_POOL_STAT p) F.BPM_POOL_STAT_enable_pending then d.busWrite off v
  else d.setFld (R.BPM_POOL_STAT p) F.BPM_POOL_STAT_cfg_err 1

/-- Frequency in kHz of a clock by its identifier (R16, R475, R476, R482, R483); 0: no clock. -/
def Dev.clockKhz (d : Dev) (c : Nat) : Nat :=
  let dom := fun (k own : Nat) =>
    match mgetD d.clk.conn k 0 with
    | 0 => 16000
    | 1 => 25000
    | _ => if d.clk.dead.contains (pllOf k) then 0 else own
  let arr := fun (k : Nat) => [62500, 125000, 187500, 250000].getD (d.opOf k) 0
  match c with
  | 0 => 25000
  | 1 => 33
  | 2 => 16000
  | 3 => 100000
  | 4 => dom 0 (arr 0)
  | 5 => dom 1 (arr 1)
  | 6 => dom 2 800000
  | 7 => dom 3 600000
  | 8 => dom 4 1200000
  | 9 => dom 5 533000
  | _ => if c < 14 then ((mget d.ports (c - 10)).map (·.mbps)).getD 0 * 125 else 0

/-- A write of CPR_CLKMON: an output above 100 MHz is held low and sets sel_err (R483). -/
def Dev.clkmonWrite (d : Dev) (v : Nat) : Dev :=
  let d := d.busWrite R.CPR_CLKMON v
  let fast := 100000 * 2 ^ d.fld R.CPR_CLKMON F.CPR_CLKMON_k < d.clockKhz (d.fld R.CPR_CLKMON F.CPR_CLKMON_clk)
  d.setFld R.CPR_CLKMON F.CPR_CLKMON_sel_err (b2n (d.flag R.CPR_CLKMON F.CPR_CLKMON_enable && fast))

/-- A write of CPR_CAL_VMARGIN: the present point's voltage changes in a DVFS step of the same frequency (R490). -/
def Dev.marginWrite (d : Dev) (k v : Nat) : Dev :=
  let old := d.effMv k (d.opOf k)
  let d := d.setReg (R.CPR_CAL_VMARGIN k) v
  if !d.working || (d.dv k).step ≠ none || d.effMv k (d.opOf k) = old then d
  else (d.setDv k { d.dv k with step := some (d.opOf k, false) }).setFld R.CPR_DVFS_STATUS (fBusy k) 1

/-- A write of SEC_POLICY: sw_require holds until the next level-3 reset (R500). -/
def Dev.policyWrite (d : Dev) (v : Nat) : Dev :=
  let d := d.busWrite R.SEC_POLICY v
  d.setFld R.SEC_POLICY F.SEC_POLICY_require_customer_sig
    (b2n (d.flag R.SEC_POLICY F.SEC_POLICY_otp_enforce || d.flag R.SEC_POLICY F.SEC_POLICY_sw_require))

/-- A write of QUE_ADMIN_SQ or CQ: only while the queue is OFF; bits 11 to 0 of a low word read 0 (R383). -/
def Dev.adminBase (d : Dev) (off v : Nat) : Dev :=
  if d.fld R.QUE_ADMIN_CFG F.QUE_ADMIN_CFG_svc ≠ 0 then d
  else d.setReg off (if off % 8 = 0 then v / 4096 * 4096 else v)

/-- A register without a row of its own. -/
def Dev.plainWrite (d : Dev) (off v : Nat) : Dev :=
  if !d.regOpen off then d
  else if 0xC0000 ≤ off && off < 0xC0800 && off % 0x20 ≤ 0xC then d.poolWrite off v
  else if off = R.CPR_CLKMON then d.clkmonWrite v
  else if off = R.CPR_CAL_VMARGIN 0 then d.marginWrite 0 v
  else if off = R.CPR_CAL_VMARGIN 1 then d.marginWrite 1 v
  else if off = R.SEC_POLICY then d.policyWrite v
  else if R.QUE_ADMIN_SQ_LO ≤ off && off ≤ R.QUE_ADMIN_CQ_HI && off % 4 = 0 then d.adminBase off v
  else if R.SEC_OTP_DATA 0 ≤ off && off ≤ R.SEC_OTP_DATA 7 && off % 4 = 0 then
    { d with otp := { d.otp with data := mput d.otp.data ((off - R.SEC_OTP_DATA 0) / 4) (BitVec.ofNat 32 v) } }
  else d.busWrite off v

/-- Four bytes of the recovery window, while the ROM waits there (R495). -/
def Dev.recoveryWrite (d : Dev) (off v : Nat) : Dev :=
  if !d.inRecovery then d
  else
    let w := (toLE 4 v).zipIdx.foldl (fun m b => mset m (off - 0x1000000 + b.2) 0 b.1) d.otp.recWin
    { d with otp := { d.otp with recWin := w } }

/-- A write of SEC_OTP_CMD: err is cleared by 1, then the op starts (R509). -/
def Dev.otpWrite (d : Dev) (v : Nat) : Dev :=
  if !d.regOpen R.SEC_OTP_CMD then d
  else
    let d := d.busWrite R.SEC_OTP_CMD v
    if d.otp.running.isSome then d.setFld R.SEC_OTP_CMD F.SEC_OTP_CMD_err 1
    else if v % 4 = 1 || v % 4 = 2 then d.otpStart (v % 4) else d

/-- The index of an array of registers that an offset falls on. -/
def arrIx (base stride n off : Nat) : Option Nat :=
  if base ≤ off && (off - base) % stride = 0 && (off - base) / stride < n then some ((off - base) / stride) else none

/-- What a doorbell of a queue or ring reads as: the last value accepted (R368). -/
def Dev.doorbell (d : Dev) (off : Nat) : Option Nat :=
  match arrIx 0x20000 8 64 off, arrIx 0x20200 8 64 off, arrIx 0x20400 8 64 off with
  | some i, _, _ => some (((mget d.que.sqs i).map (·.tail)).getD 0)
  | _, some i, _ => some (((mget d.que.cqs i).map (·.head)).getD 0)
  | _, _, some i => some (((mget d.que.rings i).map (·.read)).getD 0)
  | none, none, none => none

/-- What a host read of a register returns, and the device after it: the counts of BPM_POOL_FREE come from the side table, doorbells
from the queues; device time is latched; a closed block answers 0 (R4, R260, R349, R358, R359, R368, R487). -/
def Dev.hostRead (d : Dev) (off : Nat) : Nat × Dev :=
  if !d.regOpen off then (0, d)
  else if off = R.CPR_TIME_LO then
    (d.now % 2 ^ 32, (d.setReg R.CPR_TIME_LO d.now).setReg R.CPR_TIME_HI (d.now / 2 ^ 32))
  else match arrIx (R.BPM_POOL_FREE 0) 0x20 64 off with
    | some p => (d.freeCount p + 2 ^ 26 * min 63 (d.bufsIn p .quarantined).length, d)
    | none => match d.doorbell off with
      | some v => (v, d)
      | none => d.busRead off

/-- REGISTER_WRITE. -/
def execRegisterWrite (offset : Nat) (value : Word) (s : State) : Host.Outcome State Fault Refusal :=
  let v := value.toNat
  match arrIx 0x20000 8 64 offset, arrIx 0x20200 8 64 offset, arrIx 0x20400 8 64 offset with
  | some i, _, _ => execSqTailDoorbell i value s
  | _, some i, _ => execCqHeadDoorbell i value s
  | _, _, some i => execRingReadDoorbell i value s
  | none, none, none =>
    match arrIx (R.BPM_POOL_CTL 0) 0x20 64 offset, arrIx (R.COD_CTL 0) 0x2000 8 offset, arrIx (R.SNS_CTL 0) 0x1000 4 offset,
        arrIx (R.FAB_PORT_CTL 0) 0x100 4 offset with
    | some i, _, _, _ => execBpmPoolCtlWrite i value s
    | _, some i, _, _ => execCodCtlWrite i value s
    | _, _, some i, _ => execSnsCtlWrite i value s
    | _, _, _, some i => execFabPortCtlWrite i value s
    | none, none, none, none =>
      if offset = R.SCH_MODE then execSchModeWrite value s
      else if offset = R.QUE_ADMIN_CFG then execQueAdminCfgWrite value s
      else if offset = R.HIF_APERTURE_BASE_HI then execHifApertureBaseHiWrite value s
      else if offset = R.CPR_PWR_CTL then execCprPwrCtlWrite value s
      else if offset = R.CPR_WAKE_TIME_HI then execCprWakeTimeHiWrite value s
      else if offset = R.CPR_CLK_SEL then execCprClkSelWrite value s
      else if offset = R.CPR_CLK_ESC then execCprClkEscWrite value s
      else if offset = R.CPR_FMETER_CTL then execFmeterStart value s
      else if offset = R.SEC_RECOVERY then (if bit v 0 then execSecRecoveryGo s else onDev s id)
      else onDev s fun d =>
        if offset = R.SEC_OTP_CMD then d.otpWrite v
        else if 0x2000000 ≤ offset then (if d.pwr.phase = .night then d else d.msixTable (offset - 0x2000000) v)
        else if 0x1000000 ≤ offset && offset < 0x1200000 then d.recoveryWrite offset v
        else d.plainWrite offset v

end Sys2Proof.Machine
end

