-- ==== Sys2Proof/Machine/StreamCmd.lean ====
section
/-!
DEFINITION. Stream commands: CREATE_STREAM, CONFIG_STREAM, DESTROY_STREAM, FEED, ENCODE, REVISIT, READOUT, CLIP_REQ, RELEASE, and
the expiry of history (R206, R290, R291, R310, R337 to R341, R378 to R381, R460 to R462).
-/

namespace Sys2Proof.Machine

/-- Stream ID of bytes 16 and 17 of a command. -/
def eStream (e : List Byte) : Nat := le e 16 2

/-- CREATE_STREAM (R378). -/
def execCreateStream (q : Nat) (e : List Byte) (s : State) : Host.Outcome State Fault Refusal :=
  onCmd s 0x20 q e fun d =>
    let id := eStream e
    let ok := id < 256 && byteAt e 18 ≤ 3 && (mget d.que.rings (byteAt e 19)).isSome && 32 ≤ byteAt e 20 && byteAt e 20 ≤ 47 &&
      32 ≤ byteAt e 21 && byteAt e 21 ≤ 47
    if !ok then d.reply q e Code.descInvalid.num
    else match d.stream? id with
      | none => (d.makeStream e).reply q e 0
      | some x =>
        if x.destroying && !(d.que.cmds.any fun c => c.op = 0x20 && c.stream = id) then d.keepCmd q e id
        else d.reply q e Code.descInvalid.num

/-- A command that the partner's ACK completes is kept (R460). -/
def Dev.awaitAck (d : Dev) (q : Nat) (e : List Byte) (id arg : Nat) : Dev :=
  let d := d.keepCmd q e id arg
  { d with fab := { d.fab with waitAck := d.fab.waitAck ++ [(id, q, eCid e, d.now)] } }

/-- CONFIG_STREAM (R337, R380, R460, R461). -/
def execConfigStream (q : Nat) (e : List Byte) (data : List Byte) (s : State) : Host.Outcome State Fault Refusal :=
  onCmd s 0x21 q e fun d =>
    let id := eStream e
    let b := padTo data (eLen e)
    if (d.standbyEntry id).isSome then d.reply q e Code.descInvalid.num
    else
      let r := d.stage id (le e 18 2) (byteAt e 20) (eLen e) b
      if r.1 ≠ 0 then r.2.reply q e r.1
      else match r.2.mirrorTo id, (r.2.stream? id).bind Stream.latest with
        | some en, some ep =>
          (r.2.mirrorConfig en ep.num (byteAt e 20) ep.bind.ctx ep.bind.fallback b).awaitAck q e id 0
        | _, _ => r.2.reply q e 0

/-- DESTROY_STREAM (R378). -/
def execDestroyStream (q : Nat) (e : List Byte) (s : State) : Host.Outcome State Fault Refusal :=
  onCmd s 0x22 q e fun d =>
    let id := eStream e
    match d.stream? id with
    | none => d.reply q e Code.descInvalid.num
    | some x =>
      let d := if x.destroying then d.endCmds (fun c => c.op = 0x20 && c.stream = id) Code.descInvalid.num else d.stopInput id
      d.keepCmd q e id

/-- STREAM_DESTROY_COMPLETE: nothing of the stream is left; its destructions complete, then a waiting create takes effect
(R378). -/
def execStreamDestroyComplete (stream : Nat) (s : State) : Host.Outcome State Fault Refusal :=
  onDev s fun d =>
    match d.stream? stream with
    | none => d
    | some x =>
      if !x.destroying || !d.streamIdle stream then d
      else
        let d := d.endStream stream
        let d := d.endCmds (fun c => c.op = 0x22 && c.stream = stream) 0
        match d.que.cmds.find? fun c => c.op = 0x20 && c.stream = stream with
        | some c =>
          let ok := (mget d.que.rings (byteAt c.entry 19)).isSome
          let d := if ok then d.makeStream c.entry else d
          d.endCmds (fun x => x.op = 0x20 && x.stream = stream) (if ok then 0 else Code.descInvalid.num)
        | none => d

/-! ### FEED and ENCODE -/

/-- One step of a telemetry stream: its input lies in a buffer of in_pool (R379). -/
def Dev.feedStep (d : Dev) (id h : Nat) (ep : Epoch) (stamp : Nat) : Dev :=
  let d := d.adoptEpoch id ep
  let r := d.takeNum id 0
  let p := ep.shaper.inPool
  let off := (r.2.listBase p + 8192 * hIdx h - sstBase) / 256
  let f : Frame := { stream := id, num := r.1, ep := ep, stamp := stamp, st := .arrived, ctx := ep.bind.ctx, buf := some h,
                     crops := 0, listOff := off }
  { r.2 with sched := { r.2.sched with frames := r.2.sched.frames ++ [f] } }

/-- An accepted chunk is mirrored and waits for the ACK, or the command completes (R379, R460). -/
def Dev.feedDone (d : Dev) (q : Nat) (e : List Byte) (id h epoch stamp : Nat) (b : List Byte) : Dev :=
  match d.mirrorTo id with
  | some en => (d.mirrorChunk en epoch stamp b).awaitAck q e id h
  | none => d.reply q e 0 (toLE 4 h)

/-- The chunk repeats the last mirrored one, as the first FEED after a promotion (R462). -/
def Dev.inDoubt (d : Dev) (id : Nat) (b : List Byte) : Bool :=
  match mget d.fab.standby id with
  | some y => y.fresh && y.lastChunk = b
  | none => false

/-- A FEED clears the mark of a promotion. -/
def Dev.clearFresh (d : Dev) (id : Nat) : Dev :=
  { d with fab := { d.fab with standby := mmap d.fab.standby fun n y => if n = id then { y with fresh := false } else y } }

/-- A chunk whose epoch is neither current nor staged (R339). -/
def Dev.badEpoch (d : Dev) (q : Nat) (e : List Byte) (id : Nat) : Dev :=
  (d.logEv { code := Code.epochMismatch.num, unit := 0x40, stream := id, frame := 0xFFFFFFFF }).reply q e Code.epochMismatch.num

/-- The capture timestamp of a FEED or an ENCODE. -/
def Dev.feedStamp (d : Dev) (e : List Byte) : Nat := if le e 24 8 = 0 then d.now else le e 24 8

/-- FEED (R379, R460 to R462). -/
def execFeed (q : Nat) (e : List Byte) (data : List Byte) (s : State) : Host.Outcome State Fault Refusal :=
  onCmd s 0x23 q e fun d =>
    let id := eStream e
    let b := padTo data (eLen e)
    match d.stream? id with
    | none => d.reply q e Code.descInvalid.num
    | some x =>
      if x.destroying || (d.standbyEntry id).isSome || !(x.kind = 0 || x.kind = 3) || eLen e = 0 ||
          d.poolSize x.chunkPool < eLen e then d.reply q e Code.descInvalid.num
      else match x.epoch? (le e 18 2) with
        | none => d.badEpoch q e id
        | some ep =>
          if d.inDoubt id b then (d.clearFresh id).reply q e 0
          else
            let d := d.clearFresh id
            let pool := if x.kind = 3 then ep.shaper.inPool else x.chunkPool
            if d.poolSize pool < eLen e then d.reply q e Code.descInvalid.num
            else match d.pop pool 1 with
              | (none, d) => d.reply q e Code.poolEmpty.num
              | (some h, d) =>
                let stamp := d.feedStamp e
                let d := d.writeRun (d.bufAddr h) b
                let d := if x.kind = 3 then d.feedStep id h ep stamp else d.takeChunk id h ep stamp b
                d.feedDone q e id h ep.num stamp b

/-- ENCODE (R379): a picture of device memory becomes the input of an encode session. -/
def execEncode (q : Nat) (e : List Byte) (s : State) : Host.Outcome State Fault Refusal :=
  onCmd s 0x2B q e fun d =>
    let id := eStream e
    match d.stream? id with
    | none => d.reply q e Code.descInvalid.num
    | some x =>
      if x.destroying || x.kind ≠ 2 || eLen e = 0 || d.poolSize x.chunkPool < eLen e then d.reply q e Code.descInvalid.num
      else match x.epoch? (le e 18 2) with
        | none => d.badEpoch q e id
        | some ep =>
          match d.pop x.chunkPool 1 with
          | (none, d) => d.reply q e Code.poolEmpty.num
          | (some h, d) =>
            let src := span (eAddr e) (eLen e)
            let pz := (src.filter d.poisonAt).map fun a => a - eAddr e + d.bufAddr h
            let b := d.rdN (eAddr e) (eLen e)
            let d := ((d.noteRead src).writeRun (d.bufAddr h) b).setPoison pz
            (d.takeChunk id h ep (d.feedStamp e) b).reply q e 0

/-! ### REVISIT and READOUT -/

/-- REVISIT (R310, R381). A frame that is being revisited already is not queued again. -/
def execRevisit (q : Nat) (e : List Byte) (s : State) : Host.Outcome State Fault Refusal :=
  onCmd s 0x27 q e fun d =>
    let id := eStream e
    let c := byteAt e 18
    let num := le e 20 4
    match d.stream? id, d.ctx? c with
    | some x, some _ =>
      if x.destroying then d.reply q e Code.descInvalid.num
      else match x.revisits.find? fun r => r.frame = num, x.cur with
        | some r, some ep =>
          if (d.frame? id num true).isSome then d.reply q e 0
          else
            let f : Frame := {
              stream := id, num := num, ep := { ep with num := r.epoch, slots := [] }, stamp := r.stamp, st := .arrived,
              revisit := true, ctx := c, buf := some r.handle, crops := r.crops,
              listOff := (d.bufAddr r.handle - sstBase) / 256, unauth := x.unauth }
            let d := d.refInc r.handle
            ({ d with sched := { d.sched with frames := d.sched.frames ++ [f] } }).reply q e 0
        | _, _ => d.reply q e Code.notFound.num
    | _, _ => d.reply q e Code.descInvalid.num

/-- READOUT (R206 to R208, R381): the slots it covers wait for an admission. -/
def execReadout (q : Nat) (e : List Byte) (s : State) : Host.Outcome State Fault Refusal :=
  onCmd s 0x28 q e fun d =>
    let id := eStream e
    let num := le e 20 4
    match d.stream? id with
    | none => d.reply q e Code.descInvalid.num
    | some x =>
      let ctxs := x.schedCtx.toList ++ (x.cur.map (·.bind.ctx)).toList
      let mine := d.sets.filter fun y => ctxs.contains y.ctx
      let slots := mine.flatMap fun y =>
        let h := d.setH y.base
        ((List.range h.q).filter fun t => d.readoutFits h id num t).map fun t => (y.base, t)
      if slots = [] then d.reply q e Code.notFound.num
      else
        let r : Readout := { stream := id, frame := num, q := q, cid := eCid e, slots := slots, scratch := [], emitted := 0 }
        ({ d with readouts := d.readouts ++ [r] }).keepCmd q e id

/-! ### Clips (R291, R381) -/

/-- The items of a clip of [t0, t1): from the refresh point it starts at; whether its start is truncated. -/
def clipItems (l : List HistItem) (t0 t1 : Nat) : List HistItem × Bool :=
  let before := (l.filter fun x => x.refresh && x.stamp ≤ t0).getLast?
  match before.or (l.find? fun x => x.refresh && x.stamp < t1) with
  | none => ([], false)
  | some x => ((l.dropWhile (· ≠ x)).filter fun y => y.stamp < t1, before.isNone)

/-- CLIP_REQ (R291, R381, R527). -/
def execClipReq (q : Nat) (e : List Byte) (s : State) : Host.Outcome State Fault Refusal :=
  onCmd s 0x29 q e fun d =>
    let id := eStream e
    let t0 := le e 24 8
    let t1 := le e 32 8
    match d.stream? id with
    | none => d.reply q e Code.descInvalid.num
    | some x =>
      match x.cur with
      | none => d.reply q e Code.descInvalid.num
      | some ep =>
        if t1 ≤ t0 || x.kind = 3 || ep.codec.histMs = 0 then d.reply q e Code.descInvalid.num
        else
          let c := clipItems x.history t0 t1
          match c.1.head?, c.1.getLast? with
          | some a, some z =>
            let bytes := a.params ++ c.1.flatMap fun y => d.rdN (d.bufAddr y.handle) y.len
            let src := c.1.flatMap fun y => span (d.bufAddr y.handle) y.len
            if d.poolSize ep.codec.histPool < bytes.length then d.reply q e Code.descInvalid.num
            else match d.pop ep.codec.histPool 1 with
              | (none, d) => d.reply q e Code.poolEmpty.num
              | (some h, d) =>
                let d := (d.noteRead src).writeRun (d.bufAddr h) bytes
                let d := d.modStream id fun s => { s with clips := s.clips ++ [h] }
                let body := toLE 4 h ++ toLE 4 bytes.length ++ toLE 4 z.frame ++ toLE 1 (b2n c.2) ++ toLE 1 ep.codec.codec ++
                  zeros 6 ++ toLE 8 (d.bufAddr h)
                let r := recBytes 7 1 (streamField id false false) a.frame a.stamp a.epoch 0xFF body
                (d.postRec (d.devRec id a.frame false r)).reply q e 0
          | _, _ => d.reply q e Code.notFound.num

/-- RELEASE (R381). -/
def execRelease (q : Nat) (e : List Byte) (s : State) : Host.Outcome State Fault Refusal :=
  onCmd s 0x2A q e fun d =>
    let h := le e 20 4
    if d.streams.any fun x => x.2.clips.contains h then
      let d := { d with streams := mmap d.streams fun _ x => { x with clips := x.clips.erase h } }
      (d.refDec h).reply q e 0
    else d.reply q e Code.addrRange.num

/-- HISTORY_EXPIRY: the oldest item of a history reaches the age of history_ms and is released (R290). -/
def execHistoryExpiry (stream : Nat) (s : State) : Host.Outcome State Fault Refusal :=
  match s.d.stream? stream with
  | none => onDev s id
  | some x =>
    match x.history with
    | [] => onDev s id
    | h :: _ => onDevAt s (h.stamp + 10 ^ 5 * ((x.cur.map (·.codec.histMs)).getD 0)) fun d => d.histDrop stream

end Sys2Proof.Machine
end

