-- ==== Sys2Proof/Machine/WelineCtl.lean ====
section
/-!
DEFINITION. Pool, counter and sequencer instructions (R158 to R167, R210, R211, R428): ALLOC, FREE, REFINC, REFDEC, CLAIM,
LOOP, BR, SETS, SALU, WAIT, SIGNAL, NOP and KEND.
-/

namespace Sys2Proof.Machine

/-! ### Instructions that complete at issue -/

/-- A sequencer instruction: its field check, its wait, and its effect on the device; go gives the next pc (R72, R76). -/
def Dev.issueSeq (d : Dev) (c : Nat) (w : IWord) (ok : Bool) (next : Nat) (eff : Dev → Dev) : Dev :=
  if !ok then d.fault c .descInvalid 0
  else if !d.waitOk c w then d.setWaits c true []
  else (((eff ((d.takeWait c w).clearWaits c)).setPc c next).signal c w).countRetired c

/-- A scalar register of core c set (R73). -/
def Dev.setS (d : Dev) (c i v : Nat) : Dev := d.modCore c fun k => { k with sregs := setSreg k.sregs i v }

def Dev.getS (d : Dev) (c i : Nat) : Nat := sreg (d.core c).sregs i

/-- A 32-bit number as signed. -/
def s32 (n : Nat) : Int := sext n 32

/-- SETS: S[rd] takes the value. -/
def Dev.doSets (d : Dev) (c : Nat) (w : IWord) : Dev :=
  d.issueSeq c w (reservedOk w 0 (31 ||| (2 ^ 32 - 1) * 2 ^ 32)) (d.pc c + 1) fun d => d.setS c (imm w 0 5) (imm w 32 32)

/-- Table SALU operations. -/
def saluOp (op a b : Nat) : Nat :=
  match op with
  | 0x0 => a + b
  | 0x1 => a + (2 ^ 32 - b)
  | 0x2 => a * b
  | 0x3 => a &&& b
  | 0x4 => a ||| b
  | 0x5 => a ^^^ b
  | 0x6 => a * 2 ^ (b % 32)
  | 0x7 => a / 2 ^ (b % 32)
  | 0x8 => toU (s32 a / 2 ^ (b % 32)) 32
  | 0x9 => if s32 b < s32 a then b else a
  | 0xA => if s32 a < s32 b then b else a
  | 0xB => min a b
  | 0xC => max a b
  | 0xD => b2n (decide (s32 a < s32 b))
  | _ => b2n (decide (a < b))

def Dev.doSalu (d : Dev) (c : Nat) (w : IWord) : Dev :=
  let op := bits (iMod w) 0 4
  let b := if modBit w 4 then imm w 32 32 else d.getS c (imm w 10 5)
  d.issueSeq c w (reservedOk w 31 ((2 ^ 15 - 1) ||| (2 ^ 32 - 1) * 2 ^ 32) && op ≠ 15) (d.pc c + 1)
    fun d => d.setS c (imm w 0 5) (saluOp op (d.getS c (imm w 5 5)) b)

/-- The target of a branch, none outside instructions 0 to KEND (R162). -/
def Dev.target (d : Dev) (c : Nat) (w : IWord) : Option Nat :=
  let t : Int := d.pc c + sext (imm w 16 16) 16
  if 0 ≤ t ∧ t < (d.core c).ibuf.length then some t.toNat else none

/-- LOOP (R162). -/
def Dev.doLoop (d : Dev) (c : Nat) (w : IWord) : Dev :=
  let rc := imm w 0 5
  let v := (d.getS c rc + (2 ^ 32 - 1)) % 2 ^ 32
  match d.target c w with
  | some t =>
    d.issueSeq c w (reservedOk w 0 (31 ||| (2 ^ 16 - 1) * 2 ^ 16) && rc ≠ 0) (if v ≠ 0 then t else d.pc c + 1)
      fun d => d.setS c rc v
  | none => d.fault c .descInvalid 0

/-- Table Branch conditions. -/
def taken (cond a b : Nat) : Bool :=
  match cond with
  | 0 => true
  | 1 => a = b
  | 2 => a ≠ b
  | 3 => s32 a < s32 b
  | 4 => s32 b ≤ s32 a
  | 5 => a < b
  | _ => b ≤ a

/-- BR (R162). -/
def Dev.doBr (d : Dev) (c : Nat) (w : IWord) : Dev :=
  let cond := bits (iMod w) 0 3
  let b := if modBit w 3 then imm w 32 32 else d.getS c (imm w 5 5)
  match d.target c w with
  | some t =>
    d.issueSeq c w (reservedOk w 15 ((2 ^ 10 - 1) ||| (2 ^ 48 - 1) * 2 ^ 16) && cond ≠ 7)
      (if taken cond (d.getS c (imm w 0 5)) b then t else d.pc c + 1) fun d => d
  | none => d.fault c .descInvalid 0

/-- The core that runs the same kernel with index i (R78, R163). -/
def Dev.peerCore (d : Dev) (c i : Nat) : Option Nat :=
  match (d.core c).run with
  | some r =>
    if i = r.s6 then some c
    else (List.range 8).find? fun x => match (d.core x).run with
      | some q => q.ctx = r.ctx && q.kernel = r.kernel && q.stream = r.stream && q.frame = r.frame && q.s6 = i
      | none => false
  | none => none

/-- Fields of WAIT and SIGNAL: amount not 0, and a remote core below S7 (R163). -/
def Dev.waitFieldsOk (d : Dev) (c : Nat) (w : IWord) : Bool :=
  reservedOk w 1 (2 ^ 17 - 1) && imm w 6 8 ≠ 0 &&
  (!modBit w 0 || decide (imm w 14 3 < (((d.core c).run.map (·.s7)).getD 1)))

/-- WAIT: both decrements at issue (R163). -/
def Dev.doWait (d : Dev) (c : Nat) (w : IWord) : Dev :=
  let n := imm w 6 8
  let t := imm w 0 6
  let x := if modBit w 0 then d.peerCore c (imm w 14 3) else some c
  if !d.waitFieldsOk c w then d.fault c .descInvalid 0
  else
    match x with
    | none => d.setWaits c true []
    | some x =>
      let own := if iWaitEn w then (if x = c ∧ iWaitTok w = t then n + 1 else n) else n
      if d.tok x t < own || !d.waitOk c w then d.setWaits c true []
      else d.issueSeq c w true (d.pc c + 1) fun d => d.tokSub x t n

/-- SIGNAL: adds n at issue, on this core or after the reach on another (R78, R163). -/
def Dev.doSignal (d : Dev) (c : Nat) (w : IWord) : Dev :=
  d.issueSeq c w (d.waitFieldsOk c w) (d.pc c + 1) fun d =>
    if modBit w 0 then
      match d.peerCore c (imm w 14 3) with
      | some x => { d with home := { d.home with remote := d.home.remote ++ [(x, imm w 0 6, imm w 6 8)] } }
      | none => d
    else d.tokAdd c (imm w 0 6) (imm w 6 8)

/-- KEND issues after every earlier instruction has issued; it retires by KEND_RETIRE (R69, R167). -/
def Dev.doKend (d : Dev) (c : Nat) (w : IWord) : Dev :=
  if !reservedOk w 0 0 then d.fault c .descInvalid 0
  else if !d.waitOk c w then d.setWaits c true []
  else ((d.takeWait c w).clearWaits c).modCore c fun k => { k with kendIssued := true }

/-! ### Pools and counters -/

/-- The home's journal takes one more operation (R428). -/
def Dev.journalRoom (d : Dev) (c : Nat) : Bool :=
  decide ((d.core c).journal.length + ((d.core c).inflight.filter fun x => isPoolOp x.word).length < 256)

/-- ALLOC (R159). -/
def Dev.doAlloc (d : Dev) (c : Nat) (w : IWord) : Dev :=
  let k := d.core c
  if !reservedOk w 1 ((2 ^ 15 - 1) ||| (2 ^ 6 - 1) * 2 ^ 16 ||| (2 ^ 8 - 1) * 2 ^ 24) || !d.journalRoom c then
    d.fault c .descInvalid 0
  else if !d.waitOk c w then d.setWaits c true []
  else if !k.unitRoom d c .atomics w then d.setWaits c false []
  else
    let p := if imm w 10 5 = 0 then imm w 16 6 else sreg k.sregs (imm w 10 5) % 64
    let pc := d.pc c
    let d := (d.takeWait c w).clearWaits c
    let fin := fun (d : Dev) => ((d.setPc c (pc + 1)).signal c w).countRetired c
    match d.pop p (imm w 24 8) with
    | (some h, d) =>
      let d := d.modCore c fun k => { k with journal := k.journal ++ [(.alloc, h)] }
      let d := d.setS c (imm w 0 5) h
      fin (if modBit w 0 then d.setS c (imm w 5 5) 0 else d)
    | (none, d) => if modBit w 0 then fin (d.setS c (imm w 5 5) 5) else d.fault c .poolEmpty 0

/-- FREE, REFINC and REFDEC issue; the home answers by INSTRUCTION_COMPLETE or INSTRUCTION_FAULT (R160). -/
def Dev.issuePool (d : Dev) (c : Nat) (w : IWord) : Dev :=
  let k := d.core c
  if !reservedOk w 0 31 || !d.journalRoom c then d.fault c .descInvalid 0
  else if !d.waitOk c w then d.setWaits c true []
  else if !k.unitRoom d c .atomics w then d.setWaits c false []
  else
    let pc := d.pc c
    (((d.takeWait c w).clearWaits c).setPc c (pc + 1)).putFlight c { id := k.nextId, word := w, pc := pc, sregs := k.sregs }

/-- The lowest orphaned tile of a counter: those of its shares and those not bound to a share (R211). -/
def Dev.orphanOf (d : Dev) (ctr : Nat) : Option Nat :=
  ((d.home.shares.filter fun s => s.counter = some ctr).flatMap (·.orphans) ++
    (d.home.orphans.filter fun o => o.1 = ctr).map (·.2)).min?

/-- An orphan is handed out, once (R211, R223). -/
def Dev.takeOrphan (d : Dev) (ctr t : Nat) : Dev :=
  let inShare := d.home.shares.any fun s => s.counter = some ctr && s.orphans.contains t
  let hand := fun (s : Share) => if s.counter = some ctr then
      { s with orphans := s.orphans.filter (· ≠ t), issued := s.issued.filter fun x => x.1 ≠ t } else s
  let d := if inShare then { d with home := { d.home with shares := d.home.shares.map hand } }
    else { d with home := { d.home with orphans := d.home.orphans.filter (· ≠ (ctr, t)) } }
  (d.wrapFld (R.CAB_WC_REISSUED (ctr / 1024)) F.CAB_WC_REISSUED_reissued 1).syncShares

/-- CLAIM: a tiling claim takes an orphan first; every other takes the counter (R161, R211). -/
def Dev.doClaim (d : Dev) (c : Nat) (w : IWord) : Dev :=
  let k := d.core c
  let ctr := 1024 * imm w 20 1 + imm w 10 10
  let tiling := (k.run.map (·.claiming)).getD false && !modBit w 0 && imm w 32 16 = 1
  if !k.unitRoom d c .atomics w && d.waitOk c w then d.setWaits c false []
  else d.issueSeq c w (reservedOk w 1 ((2 ^ 21 - 1) ||| (2 ^ 16 - 1) * 2 ^ 32)) (d.pc c + 1) fun d =>
    let old := (mgetD d.home.counters ctr 0).toNat
    let step := if modBit w 0 then sreg k.sregs (imm w 5 5) else imm w 32 16
    let bump := fun (d : Dev) => { d with home := { d.home with
      counters := mset d.home.counters ctr 0 (BitVec.ofNat 32 (old + step)) } }
    let (v, d) := if tiling then
        match d.orphanOf ctr with
        | some t => (t, d.takeOrphan ctr t)
        | none => (old, bump d)
      else (old, bump d)
    let d := if tiling then d.modCore c fun k => { k with claims := (ctr, v) :: k.claims.filter fun x => x.1 ≠ ctr } else d
    d.setS c (imm w 0 5) v

/-! ### The commands -/

/-- ALLOC (R159). -/
def execAlloc (core : Nat) (s : State) : Host.Outcome State Fault Refusal :=
  onDev s fun d => d.onOp core 0x40 fun w => d.doAlloc core w

/-- FREE (R160). -/
def execFree (core : Nat) (s : State) : Host.Outcome State Fault Refusal :=
  onDev s fun d => d.onOp core 0x41 fun w => d.issuePool core w

/-- REFINC (R160). -/
def execRefinc (core : Nat) (s : State) : Host.Outcome State Fault Refusal :=
  onDev s fun d => d.onOp core 0x42 fun w => d.issuePool core w

/-- REFDEC (R160). -/
def execRefdec (core : Nat) (s : State) : Host.Outcome State Fault Refusal :=
  onDev s fun d => d.onOp core 0x43 fun w => d.issuePool core w

/-- CLAIM (R161, R211). -/
def execClaim (core : Nat) (s : State) : Host.Outcome State Fault Refusal :=
  onDev s fun d => d.onOp core 0x54 fun w => d.doClaim core w

/-- LOOP (R162). -/
def execLoop (core : Nat) (s : State) : Host.Outcome State Fault Refusal :=
  onDev s fun d => d.onOp core 0x50 fun w => d.doLoop core w

/-- BR (R162). -/
def execBr (core : Nat) (s : State) : Host.Outcome State Fault Refusal :=
  onDev s fun d => d.onOp core 0x51 fun w => d.doBr core w

/-- SETS (R162). -/
def execSets (core : Nat) (s : State) : Host.Outcome State Fault Refusal :=
  onDev s fun d => d.onOp core 0x52 fun w => d.doSets core w

/-- SALU (R162). -/
def execSalu (core : Nat) (s : State) : Host.Outcome State Fault Refusal :=
  onDev s fun d => d.onOp core 0x53 fun w => d.doSalu core w

/-- WAIT (R163). -/
def execWait (core : Nat) (s : State) : Host.Outcome State Fault Refusal :=
  onDev s fun d => d.onOp core 0x55 fun w => d.doWait core w

/-- SIGNAL (R163, R164). -/
def execSignal (core : Nat) (s : State) : Host.Outcome State Fault Refusal :=
  onDev s fun d => d.onOp core 0x56 fun w => d.doSignal core w

/-- NOP (R167). -/
def execNop (core : Nat) (s : State) : Host.Outcome State Fault Refusal :=
  onDev s fun d => d.onOp core 0x5F fun w => d.issueSeq core w (reservedOk w 0 0) (d.pc core + 1) fun d => d

/-- KEND (R69, R167). -/
def execKend (core : Nat) (s : State) : Host.Outcome State Fault Refusal :=
  onDev s fun d => d.onOp core 0x58 fun w => d.doKend core w

end Sys2Proof.Machine
end

