-- ==== Sys2Proof/Machine/WelineData.lean ====
section
/-!
DEFINITION. The Weline instructions with region operands (R109 to R157, R165, R168): each command offers the instruction at
the pc of a core to the issue rule. What the instruction writes, it writes when it completes (Progress).
-/

namespace Sys2Proof.Machine

/-- MOVE (R109 to R111). -/
def execMove (core : Nat) (s : State) : Host.Outcome State Fault Refusal :=
  onDev s fun d => d.issueData core 0x01

/-- MOVE2D (R112). -/
def execMove2d (core : Nat) (s : State) : Host.Outcome State Fault Refusal :=
  onDev s fun d => d.issueData core 0x02

/-- GATHER (R114). -/
def execGather (core : Nat) (s : State) : Host.Outcome State Fault Refusal :=
  onDev s fun d => d.issueData core 0x03

/-- LDW (R120, R121). -/
def execLdw (core : Nat) (s : State) : Host.Outcome State Fault Refusal :=
  onDev s fun d => d.issueData core 0x08

/-- LDW4 (R123). -/
def execLdw4 (core : Nat) (s : State) : Host.Outcome State Fault Refusal :=
  onDev s fun d => d.issueData core 0x09

/-- MATMUL (R125 to R127). -/
def execMatmul (core : Nat) (s : State) : Host.Outcome State Fault Refusal :=
  onDev s fun d => d.issueData core 0x10

/-- EWISE (R130). -/
def execEwise (core : Nat) (s : State) : Host.Outcome State Fault Refusal :=
  onDev s fun d => d.issueData core 0x12

/-- CONV (R132 to R134). -/
def execConv (core : Nat) (s : State) : Host.Outcome State Fault Refusal :=
  onDev s fun d => d.issueData core 0x18

/-- VOP (R139). -/
def execVop (core : Nat) (s : State) : Host.Outcome State Fault Refusal :=
  onDev s fun d => d.issueData core 0x20

/-- VLUT (R140). -/
def execVlut (core : Nat) (s : State) : Host.Outcome State Fault Refusal :=
  onDev s fun d => d.issueData core 0x21

/-- SOFTMAX (R143). -/
def execSoftmax (core : Nat) (s : State) : Host.Outcome State Fault Refusal :=
  onDev s fun d => d.issueData core 0x22

/-- NORM (R144). -/
def execNorm (core : Nat) (s : State) : Host.Outcome State Fault Refusal :=
  onDev s fun d => d.issueData core 0x23

/-- POOL (R145). -/
def execPool (core : Nat) (s : State) : Host.Outcome State Fault Refusal :=
  onDev s fun d => d.issueData core 0x24

/-- RESIZE (R146). -/
def execResize (core : Nat) (s : State) : Host.Outcome State Fault Refusal :=
  onDev s fun d => d.issueData core 0x25

/-- DWCONV (R147). -/
def execDwconv (core : Nat) (s : State) : Host.Outcome State Fault Refusal :=
  onDev s fun d => d.issueData core 0x26

/-- ATTQK (R151, R152). -/
def execAttqk (core : Nat) (s : State) : Host.Outcome State Fault Refusal :=
  onDev s fun d => d.issueData core 0x30

/-- ATTPV (R154). -/
def execAttpv (core : Nat) (s : State) : Host.Outcome State Fault Refusal :=
  onDev s fun d => d.issueData core 0x31

/-- KVAPP (R155, R156, R192). -/
def execKvapp (core : Nat) (s : State) : Host.Outcome State Fault Refusal :=
  onDev s fun d => d.issueData core 0x32

/-- KVEXP (R157). -/
def execKvexp (core : Nat) (s : State) : Host.Outcome State Fault Refusal :=
  onDev s fun d => d.issueData core 0x33

/-- ROWSTAT (R142). -/
def execRowstat (core : Nat) (s : State) : Host.Outcome State Fault Refusal :=
  onDev s fun d => d.issueData core 0x34

/-- EMIT (R165). -/
def execEmit (core : Nat) (s : State) : Host.Outcome State Fault Refusal :=
  onDev s fun d => d.issueData core 0x57

/-- STOOL (R168). -/
def execStool (core : Nat) (s : State) : Host.Outcome State Fault Refusal :=
  onDev s fun d => d.issueData core 0x60

end Sys2Proof.Machine
end

