-- ==== Sys2Proof/Machine/Dispatch.lean ====
section
/-!
DEFINITION. The dispatch of the commands: one arm per row of the table.
-/

namespace Sys2Proof.Machine

def exec (i : Instr) (s : State) : Host.Outcome State Fault Refusal :=
  match i with
  | .move core => Sys2Proof.Machine.execMove core s
  | .move2d core => Sys2Proof.Machine.execMove2d core s
  | .gather core => Sys2Proof.Machine.execGather core s
  | .ldw core => Sys2Proof.Machine.execLdw core s
  | .ldw4 core => Sys2Proof.Machine.execLdw4 core s
  | .matmul core => Sys2Proof.Machine.execMatmul core s
  | .ewise core => Sys2Proof.Machine.execEwise core s
  | .conv core => Sys2Proof.Machine.execConv core s
  | .vop core => Sys2Proof.Machine.execVop core s
  | .vlut core => Sys2Proof.Machine.execVlut core s
  | .softmax core => Sys2Proof.Machine.execSoftmax core s
  | .norm core => Sys2Proof.Machine.execNorm core s
  | .pool core => Sys2Proof.Machine.execPool core s
  | .resize core => Sys2Proof.Machine.execResize core s
  | .dwconv core => Sys2Proof.Machine.execDwconv core s
  | .attqk core => Sys2Proof.Machine.execAttqk core s
  | .attpv core => Sys2Proof.Machine.execAttpv core s
  | .kvapp core => Sys2Proof.Machine.execKvapp core s
  | .kvexp core => Sys2Proof.Machine.execKvexp core s
  | .rowstat core => Sys2Proof.Machine.execRowstat core s
  | .alloc core => Sys2Proof.Machine.execAlloc core s
  | .free core => Sys2Proof.Machine.execFree core s
  | .refinc core => Sys2Proof.Machine.execRefinc core s
  | .refdec core => Sys2Proof.Machine.execRefdec core s
  | .claim core => Sys2Proof.Machine.execClaim core s
  | .loop core => Sys2Proof.Machine.execLoop core s
  | .br core => Sys2Proof.Machine.execBr core s
  | .sets core => Sys2Proof.Machine.execSets core s
  | .salu core => Sys2Proof.Machine.execSalu core s
  | .wait core => Sys2Proof.Machine.execWait core s
  | .signal core => Sys2Proof.Machine.execSignal core s
  | .emit core => Sys2Proof.Machine.execEmit core s
  | .nop core => Sys2Proof.Machine.execNop core s
  | .kend core => Sys2Proof.Machine.execKend core s
  | .stool core => Sys2Proof.Machine.execStool core s
  | .kendRetire core => Sys2Proof.Machine.execKendRetire core s
  | .instructionComplete core id => Sys2Proof.Machine.execInstructionComplete core id s
  | .instructionFault core id => Sys2Proof.Machine.execInstructionFault core id s
  | .poisonRepairComplete => Sys2Proof.Machine.execPoisonRepairComplete s
  | .tokenTimeout core => Sys2Proof.Machine.execTokenTimeout core s
  | .remoteTokenArrive core => Sys2Proof.Machine.execRemoteTokenArrive core s
  | .tagCheck core ahead => Sys2Proof.Machine.execTagCheck core ahead s
  | .tagNotify core => Sys2Proof.Machine.execTagNotify core s
  | .poolPop pool count => Sys2Proof.Machine.execPoolPop pool count s
  | .bufferRefOp inc handle => Sys2Proof.Machine.execBufferRefOp inc handle s
  | .poolRebuildComplete pool => Sys2Proof.Machine.execPoolRebuildComplete pool s
  | .bpmPoolCtlWrite pool value => Sys2Proof.Machine.execBpmPoolCtlWrite pool value s
  | .stoolRequestComplete die => Sys2Proof.Machine.execStoolRequestComplete die s
  | .frameReady stream => Sys2Proof.Machine.execFrameReady stream s
  | .kernelDispatch stream cores => Sys2Proof.Machine.execKernelDispatch stream cores s
  | .codeFillComplete core => Sys2Proof.Machine.execCodeFillComplete core s
  | .stepAdmission stream => Sys2Proof.Machine.execStepAdmission stream s
  | .readoutAdmission stream => Sys2Proof.Machine.execReadoutAdmission stream s
  | .deadlineExpiry stream frame => Sys2Proof.Machine.execDeadlineExpiry stream frame s
  | .governorTick rails => Sys2Proof.Machine.execGovernorTick rails s
  | .dvfsStepComplete stack inRange => Sys2Proof.Machine.execDvfsStepComplete stack inRange s
  | .schModeWrite value => Sys2Proof.Machine.execSchModeWrite value s
  | .pictureStart engine pic => Sys2Proof.Machine.execPictureStart engine pic s
  | .lineRingGroupWrite engine rows concealed subcode => Sys2Proof.Machine.execLineRingGroupWrite engine rows concealed subcode s
  | .pictureComplete engine cycles lag refLag coded => Sys2Proof.Machine.execPictureComplete engine cycles lag refLag coded s
  | .hardCapAbort engine => Sys2Proof.Machine.execHardCapAbort engine s
  | .jpegJobComplete pic rows concealed subcode coded => Sys2Proof.Machine.execJpegJobComplete pic rows concealed subcode coded s
  | .codCtlWrite engine value => Sys2Proof.Machine.execCodCtlWrite engine value s
  | .shaperPictureStart pipe source => Sys2Proof.Machine.execShaperPictureStart pipe source s
  | .shaperRowGroup pipe source => Sys2Proof.Machine.execShaperRowGroup pipe source s
  | .shaperFrameComplete pipe source => Sys2Proof.Machine.execShaperFrameComplete pipe source s
  | .frameStart port vc => Sys2Proof.Machine.execFrameStart port vc s
  | .sensorLine port vc dt index samples crcOk hdrFixed => Sys2Proof.Machine.execSensorLine port vc dt index samples crcOk hdrFixed s
  | .frameEnd port vc height => Sys2Proof.Machine.execFrameEnd port vc height s
  | .inBandInterrupt port => Sys2Proof.Machine.execInBandInterrupt port s
  | .snsCtlWrite port value => Sys2Proof.Machine.execSnsCtlWrite port value s
  | .headHour port readBack1 readBack2 => Sys2Proof.Machine.execHeadHour port readBack1 readBack2 s
  | .historyExpiry stream => Sys2Proof.Machine.execHistoryExpiry stream s
  | .ringRecordWrite ring => Sys2Proof.Machine.execRingRecordWrite ring s
  | .sqTailDoorbell q value => Sys2Proof.Machine.execSqTailDoorbell q value s
  | .cqHeadDoorbell q value => Sys2Proof.Machine.execCqHeadDoorbell q value s
  | .ringReadDoorbell r value => Sys2Proof.Machine.execRingReadDoorbell r value s
  | .queAdminCfgWrite value => Sys2Proof.Machine.execQueAdminCfgWrite value s
  | .createSq q e => Sys2Proof.Machine.execCreateSq q e s
  | .deleteSq q e => Sys2Proof.Machine.execDeleteSq q e s
  | .createCq q e => Sys2Proof.Machine.execCreateCq q e s
  | .deleteCq q e => Sys2Proof.Machine.execDeleteCq q e s
  | .createRing q e => Sys2Proof.Machine.execCreateRing q e s
  | .deleteRing q e => Sys2Proof.Machine.execDeleteRing q e s
  | .loadImage q e => Sys2Proof.Machine.execLoadImage q e s
  | .unload q e => Sys2Proof.Machine.execUnload q e s
  | .setContext q e => Sys2Proof.Machine.execSetContext q e s
  | .seqSet q e data => Sys2Proof.Machine.execSeqSet q e data s
  | .createStream q e => Sys2Proof.Machine.execCreateStream q e s
  | .configStream q e data => Sys2Proof.Machine.execConfigStream q e data s
  | .destroyStream q e => Sys2Proof.Machine.execDestroyStream q e s
  | .streamDestroyComplete stream => Sys2Proof.Machine.execStreamDestroyComplete stream s
  | .feed q e data => Sys2Proof.Machine.execFeed q e data s
  | .attachSensor q e data store => Sys2Proof.Machine.execAttachSensor q e data store s
  | .detachSensor q e => Sys2Proof.Machine.execDetachSensor q e s
  | .sensorXfer q e data transferred => Sys2Proof.Machine.execSensorXfer q e data transferred s
  | .revisit q e => Sys2Proof.Machine.execRevisit q e s
  | .readout q e => Sys2Proof.Machine.execReadout q e s
  | .clipReq q e => Sys2Proof.Machine.execClipReq q e s
  | .release q e => Sys2Proof.Machine.execRelease q e s
  | .encode q e => Sys2Proof.Machine.execEncode q e s
  | .setMode q e => Sys2Proof.Machine.execSetMode q e s
  | .groupJoin q e data => Sys2Proof.Machine.execGroupJoin q e data s
  | .groupLeave q e => Sys2Proof.Machine.execGroupLeave q e s
  | .attest q e => Sys2Proof.Machine.execAttest q e s
  | .attestSignComplete fuseReads => Sys2Proof.Machine.execAttestSignComplete fuseReads s
  | .readLog q e => Sys2Proof.Machine.execReadLog q e s
  | .setEvents q e => Sys2Proof.Machine.execSetEvents q e s
  | .forceFree q e => Sys2Proof.Machine.execForceFree q e s
  | .apertureRead offset len => Sys2Proof.Machine.execApertureRead offset len s
  | .apertureWrite offset data ep => Sys2Proof.Machine.execApertureWrite offset data ep s
  | .hifApertureBaseHiWrite value => Sys2Proof.Machine.execHifApertureBaseHiWrite value s
  | .configRequest write offset value => Sys2Proof.Machine.execConfigRequest write offset value s
  | .msixUnmask vector => Sys2Proof.Machine.execMsixUnmask vector s
  | .powerstateD3hot => Sys2Proof.Machine.execPowerstateD3hot s
  | .powerstateD0 => Sys2Proof.Machine.execPowerstateD0 s
  | .nightMemoryRequest => Sys2Proof.Machine.execNightMemoryRequest s
  | .hotReset => Sys2Proof.Machine.execHotReset s
  | .perstNAssert => Sys2Proof.Machine.execPerstNAssert s
  | .perstNDeassert => Sys2Proof.Machine.execPerstNDeassert s
  | .dlDown => Sys2Proof.Machine.execDlDown s
  | .dlUp speed width => Sys2Proof.Machine.execDlUp speed width s
  | .linkHoldExpiry => Sys2Proof.Machine.execLinkHoldExpiry s
  | .dramRequest addr write => Sys2Proof.Machine.execDramRequest addr write s
  | .migrationLineCopy ch => Sys2Proof.Machine.execMigrationLineCopy ch s
  | .dramRefreshCommand ch rank => Sys2Proof.Machine.execDramRefreshCommand ch rank s
  | .dramTempSample temps => Sys2Proof.Machine.execDramTempSample temps s
  | .dramScrubRead badReadBack => Sys2Proof.Machine.execDramScrubRead badReadBack s
  | .cabinetScrubRead store => Sys2Proof.Machine.execCabinetScrubRead store s
  | .correctionWriteback => Sys2Proof.Machine.execCorrectionWriteback s
  | .hangWatchSample unit => Sys2Proof.Machine.execHangWatchSample unit s
  | .unitResetComplete unit => Sys2Proof.Machine.execUnitResetComplete unit s
  | .unitResetTimeout unit => Sys2Proof.Machine.execUnitResetTimeout unit s
  | .computeResetComplete => Sys2Proof.Machine.execComputeResetComplete s
  | .computeResetTimeout => Sys2Proof.Machine.execComputeResetTimeout s
  | .ccWatchdogExpiry cc => Sys2Proof.Machine.execCcWatchdogExpiry cc s
  | .restartComplete failedChannels fieldOk => Sys2Proof.Machine.execRestartComplete failedChannels fieldOk s
  | .logSecondEnd => Sys2Proof.Machine.execLogSecondEnd s
  | .flitReceive port flit => Sys2Proof.Machine.execFlitReceive port flit s
  | .mirrorChunk port stream epoch stamp data => Sys2Proof.Machine.execMirrorChunk port stream epoch stamp data s
  | .mirrorConfig port stream epoch data => Sys2Proof.Machine.execMirrorConfig port stream epoch data s
  | .commit port stream => Sys2Proof.Machine.execCommit port stream s
  | .stepDelta port stream data => Sys2Proof.Machine.execStepDelta port stream data s
  | .ack port stream => Sys2Proof.Machine.execAck port stream s
  | .notice port code device stream => Sys2Proof.Machine.execNotice port code device stream s
  | .ident port id serial => Sys2Proof.Machine.execIdent port id serial s
  | .linkAck port seq => Sys2Proof.Machine.execLinkAck port seq s
  | .linkNak port seq => Sys2Proof.Machine.execLinkNak port seq s
  | .credit port vc credits => Sys2Proof.Machine.execCredit port vc credits s
  | .retrain port trained => Sys2Proof.Machine.execRetrain port trained s
  | .portRetrainRetry port trained => Sys2Proof.Machine.execPortRetrainRetry port trained s
  | .mirrorAckTimeout stream => Sys2Proof.Machine.execMirrorAckTimeout stream s
  | .fabPortCtlWrite port value => Sys2Proof.Machine.execFabPortCtlWrite port value s
  | .cprPwrCtlWrite value => Sys2Proof.Machine.execCprPwrCtlWrite value s
  | .wakeN => Sys2Proof.Machine.execWakeN s
  | .gpioWake pin => Sys2Proof.Machine.execGpioWake pin s
  | .wakeTimer => Sys2Proof.Machine.execWakeTimer s
  | .dawnEntryComplete failedColumns stores flashOk => Sys2Proof.Machine.execDawnEntryComplete failedColumns stores flashOk s
  | .duskFrameTimeout => Sys2Proof.Machine.execDuskFrameTimeout s
  | .duskComplete => Sys2Proof.Machine.execDuskComplete s
  | .autoNightIdle => Sys2Proof.Machine.execAutoNightIdle s
  | .cprWakeTimeHiWrite value => Sys2Proof.Machine.execCprWakeTimeHiWrite value s
  | .cprTimeLoRead => Sys2Proof.Machine.execCprTimeLoRead s
  | .pllLock pll => Sys2Proof.Machine.execPllLock pll s
  | .cprClkSelWrite value => Sys2Proof.Machine.execCprClkSelWrite value s
  | .clockSwitchComplete domain => Sys2Proof.Machine.execClockSwitchComplete domain s
  | .cprClkEscWrite value => Sys2Proof.Machine.execCprClkEscWrite value s
  | .clockEscapeAuto => Sys2Proof.Machine.execClockEscapeAuto s
  | .fmeterStart value => Sys2Proof.Machine.execFmeterStart value s
  | .fmeterDone count => Sys2Proof.Machine.execFmeterDone count s
  | .poresetNAssert => Sys2Proof.Machine.execPoresetNAssert s
  | .poresetNDeassert gpio0 gpio1 => Sys2Proof.Machine.execPoresetNDeassert gpio0 gpio1 s
  | .powerGroupRegulated => Sys2Proof.Machine.execPowerGroupRegulated s
  | .powerGroupTimeout => Sys2Proof.Machine.execPowerGroupTimeout s
  | .powerSequenceRetry => Sys2Proof.Machine.execPowerSequenceRetry s
  | .thermalWarning sensor temp => Sys2Proof.Machine.execThermalWarning sensor temp s
  | .thermalWarningEnd sensor temp => Sys2Proof.Machine.execThermalWarningEnd sensor temp s
  | .thermalTrip => Sys2Proof.Machine.execThermalTrip s
  | .secRecoveryGo => Sys2Proof.Machine.execSecRecoveryGo s
  | .programKeyHash => Sys2Proof.Machine.execProgramKeyHash s
  | .blowEnforcementFuse => Sys2Proof.Machine.execBlowEnforcementFuse s
  | .otpCommandComplete => Sys2Proof.Machine.execOtpCommandComplete s
  | .secSigIndexLoRead => Sys2Proof.Machine.execSecSigIndexLoRead s
  | .registerWrite offset value => Sys2Proof.Machine.execRegisterWrite offset value s
  | .powerRemoval => Sys2Proof.Machine.execPowerRemoval s
  | .pllOutputLoss pll => Sys2Proof.Machine.execPllOutputLoss pll s
  | .firmwareException cc => Sys2Proof.Machine.execFirmwareException cc s
  | .completionTimeout => Sys2Proof.Machine.execCompletionTimeout s
  | .referenceReady => Sys2Proof.Machine.execReferenceReady s

end Sys2Proof.Machine
end

