-- ==== Sys2Proof/Machine/Tick.lean ====
section
/-!
DEFINITION. What passes while no command comes: the time base advances by one cycle of its clock (R487, R489, R490), and the DRAM
controller issues one request per channel (R397 to R400). Log entry 1.
-/

namespace Sys2Proof.Machine

/-- The effective rate trim in 1/16 ppm (R490). -/
def Dev.rate (d : Dev) : Int := clampI (Config.factoryRate + sext (d.fld R.CPR_CAL_MISC F.CPR_CAL_MISC_rate) 16) (-3200) 3200

/-- One reference cycle in 2^−24 units of 10 ns: 4 × (1 + ρ) (R487). -/
def refStep (r : Int) : Nat :=
  let n := (2 ^ 26 * (16000000 + r)).toNat
  if n % 16000000 = 0 then n / 16000000 else Config.rateStep r

/-- One night-clock cycle: 4 × N / 32,768 × (1 + ρ) (R489). -/
def nightCycle (N : Nat) (r : Int) : Nat :=
  let n := (2048 * (N : Int) * (16000000 + r)).toNat
  if n % 16000000 = 0 then n / 16000000 else Config.nightStep N r

/-- The time base after one cycle of the clock that drives it. -/
def TimeBase.cycle (t : TimeBase) (r : Int) : TimeBase :=
  if !t.running then t
  else
    let a := t.frac + (if t.night then nightCycle t.refN r else refStep r)
    { t with time := t.time + a / 2 ^ 24, frac := a % 2 ^ 24 }

/-- One cycle without a command. -/
def State.tick (s : State) : State :=
  let tb := s.tb.cycle s.d.rate
  let d := { s.d with now := tb.time }
  { s with tb := tb, d := if d.working && d.clocked 5 then d.dramTick else d }

end Sys2Proof.Machine
end

