-- ==== Sys2Proof/Laws/Map.lean ====
section
/-!
SUPPORT. Laws of sparse maps and of the registers kept in one: what an update leaves at its own key and at every other, that the
canonical form is kept, what a field reads after it or another has been set.
-/

namespace Sys2Proof.Machine

variable {α : Type}

/-! ### Look-up after an update -/

@[simp] theorem mget_nil (k : Nat) : mget ([] : SMap α) k = none := rfl

@[simp] theorem mget_mput_same (m : SMap α) (k : Nat) (v : α) : mget (mput m k v) k = some v := by
  induction m with
  | nil => simp [mput, mget]
  | cons p r ih =>
    obtain ⟨j, w⟩ := p
    by_cases h : k < j
    · simp [mput, h, mget]
    · by_cases h' : k = j
      · subst h'; simp [mput, mget]
      · simp [mput, h, h', mget, Ne.symm h', ih]

theorem mget_mput_ne (m : SMap α) {k i : Nat} (v : α) (hne : i ≠ k) : mget (mput m k v) i = mget m i := by
  induction m with
  | nil => simp [mput, mget, Ne.symm hne]
  | cons p r ih =>
    obtain ⟨j, w⟩ := p
    by_cases h : k < j
    · simp [mput, h, mget, Ne.symm hne]
    · by_cases h' : k = j
      · subst h'; simp [mput, mget, Ne.symm hne]
      · simp [mput, h, h', mget, ih]

theorem mput_mput (m : SMap α) (k : Nat) (v w : α) : mput (mput m k v) k w = mput m k w := by
  induction m with
  | nil => simp [mput]
  | cons p r ih =>
    obtain ⟨j, x⟩ := p
    by_cases h : k < j
    · simp [mput, h]
    · by_cases h' : k = j
      · subst h'; simp [mput]
      · simp [mput, h, h', ih]

@[simp] theorem mget_mdel_same (m : SMap α) (k : Nat) : mget (mdel m k) k = none := by
  induction m with
  | nil => rfl
  | cons p r ih =>
    obtain ⟨j, w⟩ := p
    by_cases h : j = k
    · simpa [mdel, h] using ih
    · simpa [mdel, h, mget] using ih

theorem mget_mdel_ne (m : SMap α) {k i : Nat} (hne : i ≠ k) : mget (mdel m k) i = mget m i := by
  induction m with
  | nil => rfl
  | cons p r ih =>
    obtain ⟨j, w⟩ := p
    by_cases h : j = k
    · subst h; simpa [mdel, mget, Ne.symm hne] using ih
    · by_cases h' : j = i
      · subst h'; simp [mdel, h, mget]
      · simpa [mdel, h, mget, h'] using ih

@[simp] theorem mgetD_mput_same (m : SMap α) (k : Nat) (v w : α) : mgetD (mput m k v) k w = v := by simp [mgetD]

theorem mgetD_mput_ne (m : SMap α) {k i : Nat} (v w : α) (h : i ≠ k) : mgetD (mput m k v) i w = mgetD m i w := by
  simp [mgetD, mget_mput_ne m v h]

@[simp] theorem mgetD_mset_same [DecidableEq α] (m : SMap α) (k : Nat) (z v : α) : mgetD (mset m k z v) k z = v := by
  by_cases h : v = z <;> simp [mset, h, mgetD]

theorem mgetD_mset_ne [DecidableEq α] (m : SMap α) {k i : Nat} (z v w : α) (h : i ≠ k) :
    mgetD (mset m k z v) i w = mgetD m i w := by
  by_cases hv : v = z <;> simp [mset, hv, mgetD, mget_mput_ne m _ h, mget_mdel_ne m h]

@[simp] theorem mgetD_mmod_same (m : SMap α) (k : Nat) (z : α) (f : α → α) : mgetD (mmod m k z f) k z = f (mgetD m k z) := by
  simp [mmod]

theorem mgetD_mmod_ne (m : SMap α) {k i : Nat} (z : α) (f : α → α) (h : i ≠ k) : mgetD (mmod m k z f) i z = mgetD m i z := by
  simp [mmod, mgetD_mput_ne m _ _ h]

/-! ### The canonical form -/

theorem SMap.wf_iff (m : SMap α) : SMap.wf m = true ↔ m.Pairwise (fun p q => p.1 < q.1) := by
  induction m with
  | nil => simp [SMap.wf]
  | cons p r ih =>
    cases r with
    | nil => obtain ⟨a, v⟩ := p; simp [SMap.wf]
    | cons q s =>
      obtain ⟨a, v⟩ := p
      obtain ⟨b, w⟩ := q
      simp only [SMap.wf, Bool.and_eq_true, decide_eq_true_eq, ih, List.pairwise_cons]
      constructor
      · rintro ⟨hab, hb, hs⟩
        refine ⟨?_, hb, hs⟩
        intro x hx
        rcases List.mem_cons.1 hx with rfl | hx
        · exact hab
        · exact Nat.lt_trans hab (hb x hx)
      · rintro ⟨ha, hb, hs⟩
        exact ⟨ha (b, w) (List.mem_cons_self ..), hb, hs⟩

theorem mem_mput {m : SMap α} {k : Nat} {v : α} {p : Nat × α} (h : p ∈ mput m k v) : p = (k, v) ∨ p ∈ m := by
  induction m with
  | nil => simp_all [mput]
  | cons q r ih =>
    obtain ⟨j, w⟩ := q
    simp only [mput] at h
    split at h
    · simpa using h
    · split at h
      · rcases List.mem_cons.1 h with h | h
        · exact .inl h
        · exact .inr (List.mem_cons_of_mem _ h)
      · rcases List.mem_cons.1 h with h | h
        · exact .inr (h ▸ List.mem_cons_self ..)
        · exact (ih h).imp id (List.mem_cons_of_mem _)

theorem mput_wf {m : SMap α} (h : SMap.wf m = true) (k : Nat) (v : α) : SMap.wf (mput m k v) = true := by
  rw [SMap.wf_iff] at h ⊢
  induction m with
  | nil => simp [mput]
  | cons q r ih =>
    obtain ⟨j, w⟩ := q
    obtain ⟨hj, hr⟩ := List.pairwise_cons.1 h
    simp only [mput]
    split
    · rename_i hk
      refine List.pairwise_cons.2 ⟨?_, h⟩
      intro p hp
      rcases List.mem_cons.1 hp with rfl | hp
      · exact hk
      · exact Nat.lt_trans hk (hj p hp)
    · split
      · rename_i hkj; subst hkj
        exact List.pairwise_cons.2 ⟨fun p hp => hj p hp, hr⟩
      · refine List.pairwise_cons.2 ⟨?_, ih hr⟩
        intro p hp
        rcases mem_mput hp with rfl | hp
        · show j < k; omega
        · exact hj p hp

theorem filter_wf {m : SMap α} (h : SMap.wf m = true) (p : Nat × α → Bool) : SMap.wf (m.filter p) = true := by
  rw [SMap.wf_iff] at h ⊢
  exact h.filter p

theorem mdel_wf {m : SMap α} (h : SMap.wf m = true) (k : Nat) : SMap.wf (mdel m k) = true := filter_wf h _

theorem mset_wf [DecidableEq α] {m : SMap α} (h : SMap.wf m = true) (k : Nat) (z v : α) : SMap.wf (mset m k z v) = true := by
  by_cases hv : v = z <;> simp [mset, hv, mput_wf h, mdel_wf h]

/-- No entry equal to the default is listed after an update that keeps it so. -/
theorem mset_ne [DecidableEq α] {m : SMap α} {z : α} (h : m.all (·.2 ≠ z) = true) (k : Nat) (v : α) :
    (mset m k z v).all (·.2 ≠ z) = true := by
  simp only [List.all_eq_true, decide_eq_true_eq] at h ⊢
  intro p hp
  by_cases hv : v = z
  · simp only [mset, hv, if_true, mdel] at hp
    exact h p (List.mem_of_mem_filter hp)
  · simp only [mset, hv, if_false] at hp
    rcases mem_mput hp with rfl | hp
    · exact hv
    · exact h p hp

/-! ### Registers and fields -/

@[simp] theorem Dev.reg_setReg_same (d : Dev) (o v : Nat) : (d.setReg o v).reg o = v % 2 ^ 32 := by
  simp [Dev.reg, Dev.setReg]

theorem Dev.reg_setReg_ne (d : Dev) {o i : Nat} (v : Nat) (h : i ≠ o) : (d.setReg o v).reg i = d.reg i := by
  simp only [Dev.reg, Dev.setReg, mgetD_mset_ne d.regs _ _ _ h]

theorem Dev.reg_setFld_ne (d : Dev) {o i : Nat} (f : Fld) (n : Nat) (h : i ≠ o) : (d.setFld o f n).reg i = d.reg i :=
  d.reg_setReg_ne _ h

theorem Dev.fld_setReg_ne (d : Dev) {o i : Nat} (v : Nat) (g : Fld) (h : i ≠ o) : (d.setReg o v).fld i g = d.fld i g := by
  simp only [Dev.fld, d.reg_setReg_ne v h]

theorem Dev.fld_setFld_ne (d : Dev) {o i : Nat} (f g : Fld) (n : Nat) (h : i ≠ o) : (d.setFld o f n).fld i g = d.fld i g :=
  d.fld_setReg_ne _ g h

/-- A register holds 32 bits. -/
theorem Dev.reg_lt (d : Dev) (o : Nat) : d.reg o < 2 ^ 32 := (mgetD d.regs o 0).isLt

theorem Fld.put_lt {f : Fld} (hf : f.lsb + f.w ≤ 32) {v : Nat} (hv : v < 2 ^ 32) (n : Nat) : f.put v n < 2 ^ 32 := by
  unfold Fld.put
  have h1 : v % 2 ^ f.lsb < 2 ^ f.lsb := Nat.mod_lt _ (Nat.two_pow_pos _)
  have h2 : n % 2 ^ f.w < 2 ^ f.w := Nat.mod_lt _ (Nat.two_pow_pos _)
  have h3 : n % 2 ^ f.w * 2 ^ f.lsb + 2 ^ f.lsb ≤ 2 ^ (f.lsb + f.w) := by
    rw [Nat.pow_add, ← Nat.succ_mul, Nat.mul_comm (2 ^ f.lsb)]
    exact Nat.mul_le_mul_right _ h2
  have h4 : v / 2 ^ (f.lsb + f.w) * 2 ^ (f.lsb + f.w) + 2 ^ (f.lsb + f.w) ≤ 2 ^ 32 := by
    have e : (2 : Nat) ^ 32 = 2 ^ (32 - (f.lsb + f.w)) * 2 ^ (f.lsb + f.w) := by rw [← Nat.pow_add]; congr 1; omega
    rw [e] at hv ⊢
    rw [← Nat.succ_mul]
    exact Nat.mul_le_mul_right _ (Nat.div_lt_of_lt_mul (by rw [Nat.mul_comm]; exact hv))
  omega

/-- A field reads back what was put into it, cut to its width. -/
theorem Fld.get_put (f : Fld) (v n : Nat) : f.get (f.put v n) = n % 2 ^ f.w := by
  unfold Fld.get Fld.put bits
  have h1 : v % 2 ^ f.lsb < 2 ^ f.lsb := Nat.mod_lt _ (Nat.two_pow_pos _)
  have e : v / 2 ^ (f.lsb + f.w) * 2 ^ (f.lsb + f.w) + n % 2 ^ f.w * 2 ^ f.lsb + v % 2 ^ f.lsb =
      v % 2 ^ f.lsb + 2 ^ f.lsb * (n % 2 ^ f.w + 2 ^ f.w * (v / 2 ^ (f.lsb + f.w))) := by
    rw [Nat.pow_add]; ring
  rw [e, Nat.add_mul_div_left _ _ (Nat.two_pow_pos _), Nat.div_eq_of_lt h1, Nat.zero_add, Nat.add_mul_mod_self_left,
    Nat.mod_mod]

/-- A field that does not meet another keeps its value when the other is set. -/
theorem Fld.get_put_ne {f g : Fld} (h : g.lsb + g.w ≤ f.lsb ∨ f.lsb + f.w ≤ g.lsb) (v n : Nat) : g.get (f.put v n) = g.get v := by
  unfold Fld.get Fld.put bits
  have h1 : v % 2 ^ f.lsb < 2 ^ f.lsb := Nat.mod_lt _ (Nat.two_pow_pos _)
  rcases h with h | h
  · have e : v / 2 ^ (f.lsb + f.w) * 2 ^ (f.lsb + f.w) + n % 2 ^ f.w * 2 ^ f.lsb + v % 2 ^ f.lsb =
        v % 2 ^ f.lsb + 2 ^ f.lsb * (n % 2 ^ f.w + 2 ^ f.w * (v / 2 ^ (f.lsb + f.w))) := by rw [Nat.pow_add]; ring
    obtain ⟨k, hk⟩ := Nat.exists_eq_add_of_le h
    have key : ∀ x : Nat, x / 2 ^ g.lsb % 2 ^ g.w = x % 2 ^ f.lsb / 2 ^ g.lsb % 2 ^ g.w := by
      intro x
      rw [hk, Nat.add_assoc, Nat.pow_add 2 g.lsb, Nat.mod_mul_right_div_self, Nat.pow_add 2 g.w, Nat.mod_mul_right_mod]
    rw [key, key v, e, Nat.add_mul_mod_self_left, Nat.mod_mod]
  · obtain ⟨k, hk⟩ := Nat.exists_eq_add_of_le h
    have h2 : n % 2 ^ f.w * 2 ^ f.lsb + v % 2 ^ f.lsb < 2 ^ (f.lsb + f.w) := by
      have h3 : n % 2 ^ f.w < 2 ^ f.w := Nat.mod_lt _ (Nat.two_pow_pos _)
      have h4 : n % 2 ^ f.w * 2 ^ f.lsb + 2 ^ f.lsb ≤ 2 ^ (f.lsb + f.w) := by
        rw [Nat.pow_add, ← Nat.succ_mul, Nat.mul_comm (2 ^ f.lsb)]
        exact Nat.mul_le_mul_right _ h3
      omega
    have key : ∀ x : Nat, x / 2 ^ g.lsb = x / 2 ^ (f.lsb + f.w) / 2 ^ k := by
      intro x; rw [hk, Nat.pow_add, Nat.div_div_eq_div_mul]
    rw [key, key v, Nat.add_assoc, Nat.add_comm (_ * _), Nat.add_mul_div_right _ _ (Nat.two_pow_pos _), Nat.div_eq_of_lt h2,
      Nat.zero_add]

/-- A field that has been set reads the value, cut to its width. -/
theorem Dev.fld_setFld_same (d : Dev) (o : Nat) (f : Fld) (n : Nat) (hf : f.lsb + f.w ≤ 32) :
    (d.setFld o f n).fld o f = n % 2 ^ f.w := by
  simp only [Dev.fld, Dev.setFld, Dev.reg_setReg_same, Nat.mod_eq_of_lt (Fld.put_lt hf (d.reg_lt o) n), Fld.get_put]

/-- Another field of the same register keeps its value. -/
theorem Dev.fld_setFld_other (d : Dev) (o : Nat) {f g : Fld} (n : Nat) (hf : f.lsb + f.w ≤ 32)
    (h : g.lsb + g.w ≤ f.lsb ∨ f.lsb + f.w ≤ g.lsb) : (d.setFld o f n).fld o g = d.fld o g := by
  simp only [Dev.fld, Dev.setFld, Dev.reg_setReg_same, Nat.mod_eq_of_lt (Fld.put_lt hf (d.reg_lt o) n), Fld.get_put_ne h]

end Sys2Proof.Machine
end

