-- ==== Sys2Proof/Laws/State.lean ====
section
/-!
SUPPORT. What each named update of the device leaves as it was, one lemma for each update and each field of the state it does not
touch, so that no proof unfolds a record update.
-/

namespace Sys2Proof.Machine

/-! ### The state -/

@[simp] theorem State.reach_d (s : State) (t : Nat) : (s.reach t).d = s.d := rfl
@[simp] theorem State.reach_sec (s : State) (t : Nat) : (s.reach t).sec = s.sec := rfl
@[simp] theorem State.reach_pending (s : State) (t : Nat) : (s.reach t).pending = s.pending := rfl
@[simp] theorem State.reach_time (s : State) (t : Nat) : (s.reach t).tb.time = max s.tb.time t := rfl

/-- A fold keeps what each of its steps keeps. -/
theorem foldl_keeps {β γ : Type} (g : Dev → γ) (f : Dev → β → Dev) (h : ∀ d b, g (f d b) = g d) (l : List β) (d : Dev) :
    g (l.foldl f d) = g d := by
  induction l generalizing d with
  | nil => rfl
  | cons b r ih => rw [List.foldl_cons, ih, h]

variable (d : Dev)

/-! ### setReg -/

@[simp] theorem Dev.setReg_now (o v : Nat) : (d.setReg o v).now = d.now := rfl
@[simp] theorem Dev.setReg_freeCtr (o v : Nat) : (d.setReg o v).freeCtr = d.freeCtr := rfl
@[simp] theorem Dev.setReg_mem (o v : Nat) : (d.setReg o v).mem = d.mem := rfl
@[simp] theorem Dev.setReg_cores (o v : Nat) : (d.setReg o v).cores = d.cores := rfl
@[simp] theorem Dev.setReg_stool (o v : Nat) : (d.setReg o v).stool = d.stool := rfl
@[simp] theorem Dev.setReg_home (o v : Nat) : (d.setReg o v).home = d.home := rfl
@[simp] theorem Dev.setReg_bpm (o v : Nat) : (d.setReg o v).bpm = d.bpm := rfl
@[simp] theorem Dev.setReg_images (o v : Nat) : (d.setReg o v).images = d.images := rfl
@[simp] theorem Dev.setReg_ctxs (o v : Nat) : (d.setReg o v).ctxs = d.ctxs := rfl
@[simp] theorem Dev.setReg_streams (o v : Nat) : (d.setReg o v).streams = d.streams := rfl
@[simp] theorem Dev.setReg_sets (o v : Nat) : (d.setReg o v).sets = d.sets := rfl
@[simp] theorem Dev.setReg_readouts (o v : Nat) : (d.setReg o v).readouts = d.readouts := rfl
@[simp] theorem Dev.setReg_engines (o v : Nat) : (d.setReg o v).engines = d.engines := rfl
@[simp] theorem Dev.setReg_jpeg (o v : Nat) : (d.setReg o v).jpeg = d.jpeg := rfl
@[simp] theorem Dev.setReg_pipes (o v : Nat) : (d.setReg o v).pipes = d.pipes := rfl
@[simp] theorem Dev.setReg_ports (o v : Nat) : (d.setReg o v).ports = d.ports := rfl
@[simp] theorem Dev.setReg_sched (o v : Nat) : (d.setReg o v).sched = d.sched := rfl
@[simp] theorem Dev.setReg_gov (o v : Nat) : (d.setReg o v).gov = d.gov := rfl
@[simp] theorem Dev.setReg_dvfs (o v : Nat) : (d.setReg o v).dvfs = d.dvfs := rfl
@[simp] theorem Dev.setReg_host (o v : Nat) : (d.setReg o v).host = d.host := rfl
@[simp] theorem Dev.setReg_que (o v : Nat) : (d.setReg o v).que = d.que := rfl
@[simp] theorem Dev.setReg_dram (o v : Nat) : (d.setReg o v).dram = d.dram := rfl
@[simp] theorem Dev.setReg_recov (o v : Nat) : (d.setReg o v).recov = d.recov := rfl
@[simp] theorem Dev.setReg_fab (o v : Nat) : (d.setReg o v).fab = d.fab := rfl
@[simp] theorem Dev.setReg_pwr (o v : Nat) : (d.setReg o v).pwr = d.pwr := rfl
@[simp] theorem Dev.setReg_clk (o v : Nat) : (d.setReg o v).clk = d.clk := rfl
@[simp] theorem Dev.setReg_pins (o v : Nat) : (d.setReg o v).pins = d.pins := rfl
@[simp] theorem Dev.setReg_nv (o v : Nat) : (d.setReg o v).nv = d.nv := rfl
@[simp] theorem Dev.setReg_otp (o v : Nat) : (d.setReg o v).otp = d.otp := rfl

/-! ### setFld -/

@[simp] theorem Dev.setFld_now (o : Nat) (f : Fld) (n : Nat) : (d.setFld o f n).now = d.now := by simp [Dev.setFld]
@[simp] theorem Dev.setFld_freeCtr (o : Nat) (f : Fld) (n : Nat) : (d.setFld o f n).freeCtr = d.freeCtr := by simp [Dev.setFld]
@[simp] theorem Dev.setFld_mem (o : Nat) (f : Fld) (n : Nat) : (d.setFld o f n).mem = d.mem := by simp [Dev.setFld]
@[simp] theorem Dev.setFld_cores (o : Nat) (f : Fld) (n : Nat) : (d.setFld o f n).cores = d.cores := by simp [Dev.setFld]
@[simp] theorem Dev.setFld_stool (o : Nat) (f : Fld) (n : Nat) : (d.setFld o f n).stool = d.stool := by simp [Dev.setFld]
@[simp] theorem Dev.setFld_home (o : Nat) (f : Fld) (n : Nat) : (d.setFld o f n).home = d.home := by simp [Dev.setFld]
@[simp] theorem Dev.setFld_bpm (o : Nat) (f : Fld) (n : Nat) : (d.setFld o f n).bpm = d.bpm := by simp [Dev.setFld]
@[simp] theorem Dev.setFld_images (o : Nat) (f : Fld) (n : Nat) : (d.setFld o f n).images = d.images := by simp [Dev.setFld]
@[simp] theorem Dev.setFld_ctxs (o : Nat) (f : Fld) (n : Nat) : (d.setFld o f n).ctxs = d.ctxs := by simp [Dev.setFld]
@[simp] theorem Dev.setFld_streams (o : Nat) (f : Fld) (n : Nat) : (d.setFld o f n).streams = d.streams := by simp [Dev.setFld]
@[simp] theorem Dev.setFld_sets (o : Nat) (f : Fld) (n : Nat) : (d.setFld o f n).sets = d.sets := by simp [Dev.setFld]
@[simp] theorem Dev.setFld_readouts (o : Nat) (f : Fld) (n : Nat) : (d.setFld o f n).readouts = d.readouts := by simp [Dev.setFld]
@[simp] theorem Dev.setFld_engines (o : Nat) (f : Fld) (n : Nat) : (d.setFld o f n).engines = d.engines := by simp [Dev.setFld]
@[simp] theorem Dev.setFld_jpeg (o : Nat) (f : Fld) (n : Nat) : (d.setFld o f n).jpeg = d.jpeg := by simp [Dev.setFld]
@[simp] theorem Dev.setFld_pipes (o : Nat) (f : Fld) (n : Nat) : (d.setFld o f n).pipes = d.pipes := by simp [Dev.setFld]
@[simp] theorem Dev.setFld_ports (o : Nat) (f : Fld) (n : Nat) : (d.setFld o f n).ports = d.ports := by simp [Dev.setFld]
@[simp] theorem Dev.setFld_sched (o : Nat) (f : Fld) (n : Nat) : (d.setFld o f n).sched = d.sched := by simp [Dev.setFld]
@[simp] theorem Dev.setFld_gov (o : Nat) (f : Fld) (n : Nat) : (d.setFld o f n).gov = d.gov := by simp [Dev.setFld]
@[simp] theorem Dev.setFld_dvfs (o : Nat) (f : Fld) (n : Nat) : (d.setFld o f n).dvfs = d.dvfs := by simp [Dev.setFld]
@[simp] theorem Dev.setFld_host (o : Nat) (f : Fld) (n : Nat) : (d.setFld o f n).host = d.host := by simp [Dev.setFld]
@[simp] theorem Dev.setFld_que (o : Nat) (f : Fld) (n : Nat) : (d.setFld o f n).que = d.que := by simp [Dev.setFld]
@[simp] theorem Dev.setFld_dram (o : Nat) (f : Fld) (n : Nat) : (d.setFld o f n).dram = d.dram := by simp [Dev.setFld]
@[simp] theorem Dev.setFld_recov (o : Nat) (f : Fld) (n : Nat) : (d.setFld o f n).recov = d.recov := by simp [Dev.setFld]
@[simp] theorem Dev.setFld_fab (o : Nat) (f : Fld) (n : Nat) : (d.setFld o f n).fab = d.fab := by simp [Dev.setFld]
@[simp] theorem Dev.setFld_pwr (o : Nat) (f : Fld) (n : Nat) : (d.setFld o f n).pwr = d.pwr := by simp [Dev.setFld]
@[simp] theorem Dev.setFld_clk (o : Nat) (f : Fld) (n : Nat) : (d.setFld o f n).clk = d.clk := by simp [Dev.setFld]
@[simp] theorem Dev.setFld_pins (o : Nat) (f : Fld) (n : Nat) : (d.setFld o f n).pins = d.pins := by simp [Dev.setFld]
@[simp] theorem Dev.setFld_nv (o : Nat) (f : Fld) (n : Nat) : (d.setFld o f n).nv = d.nv := by simp [Dev.setFld]
@[simp] theorem Dev.setFld_otp (o : Nat) (f : Fld) (n : Nat) : (d.setFld o f n).otp = d.otp := by simp [Dev.setFld]

/-! ### satFld -/

@[simp] theorem Dev.satFld_now (o : Nat) (f : Fld) (n : Nat) : (d.satFld o f n).now = d.now := by simp [Dev.satFld]
@[simp] theorem Dev.satFld_freeCtr (o : Nat) (f : Fld) (n : Nat) : (d.satFld o f n).freeCtr = d.freeCtr := by simp [Dev.satFld]
@[simp] theorem Dev.satFld_mem (o : Nat) (f : Fld) (n : Nat) : (d.satFld o f n).mem = d.mem := by simp [Dev.satFld]
@[simp] theorem Dev.satFld_cores (o : Nat) (f : Fld) (n : Nat) : (d.satFld o f n).cores = d.cores := by simp [Dev.satFld]
@[simp] theorem Dev.satFld_stool (o : Nat) (f : Fld) (n : Nat) : (d.satFld o f n).stool = d.stool := by simp [Dev.satFld]
@[simp] theorem Dev.satFld_home (o : Nat) (f : Fld) (n : Nat) : (d.satFld o f n).home = d.home := by simp [Dev.satFld]
@[simp] theorem Dev.satFld_bpm (o : Nat) (f : Fld) (n : Nat) : (d.satFld o f n).bpm = d.bpm := by simp [Dev.satFld]
@[simp] theorem Dev.satFld_images (o : Nat) (f : Fld) (n : Nat) : (d.satFld o f n).images = d.images := by simp [Dev.satFld]
@[simp] theorem Dev.satFld_ctxs (o : Nat) (f : Fld) (n : Nat) : (d.satFld o f n).ctxs = d.ctxs := by simp [Dev.satFld]
@[simp] theorem Dev.satFld_streams (o : Nat) (f : Fld) (n : Nat) : (d.satFld o f n).streams = d.streams := by simp [Dev.satFld]
@[simp] theorem Dev.satFld_sets (o : Nat) (f : Fld) (n : Nat) : (d.satFld o f n).sets = d.sets := by simp [Dev.satFld]
@[simp] theorem Dev.satFld_readouts (o : Nat) (f : Fld) (n : Nat) : (d.satFld o f n).readouts = d.readouts := by simp [Dev.satFld]
@[simp] theorem Dev.satFld_engines (o : Nat) (f : Fld) (n : Nat) : (d.satFld o f n).engines = d.engines := by simp [Dev.satFld]
@[simp] theorem Dev.satFld_jpeg (o : Nat) (f : Fld) (n : Nat) : (d.satFld o f n).jpeg = d.jpeg := by simp [Dev.satFld]
@[simp] theorem Dev.satFld_pipes (o : Nat) (f : Fld) (n : Nat) : (d.satFld o f n).pipes = d.pipes := by simp [Dev.satFld]
@[simp] theorem Dev.satFld_ports (o : Nat) (f : Fld) (n : Nat) : (d.satFld o f n).ports = d.ports := by simp [Dev.satFld]
@[simp] theorem Dev.satFld_sched (o : Nat) (f : Fld) (n : Nat) : (d.satFld o f n).sched = d.sched := by simp [Dev.satFld]
@[simp] theorem Dev.satFld_gov (o : Nat) (f : Fld) (n : Nat) : (d.satFld o f n).gov = d.gov := by simp [Dev.satFld]
@[simp] theorem Dev.satFld_dvfs (o : Nat) (f : Fld) (n : Nat) : (d.satFld o f n).dvfs = d.dvfs := by simp [Dev.satFld]
@[simp] theorem Dev.satFld_host (o : Nat) (f : Fld) (n : Nat) : (d.satFld o f n).host = d.host := by simp [Dev.satFld]
@[simp] theorem Dev.satFld_que (o : Nat) (f : Fld) (n : Nat) : (d.satFld o f n).que = d.que := by simp [Dev.satFld]
@[simp] theorem Dev.satFld_dram (o : Nat) (f : Fld) (n : Nat) : (d.satFld o f n).dram = d.dram := by simp [Dev.satFld]
@[simp] theorem Dev.satFld_recov (o : Nat) (f : Fld) (n : Nat) : (d.satFld o f n).recov = d.recov := by simp [Dev.satFld]
@[simp] theorem Dev.satFld_fab (o : Nat) (f : Fld) (n : Nat) : (d.satFld o f n).fab = d.fab := by simp [Dev.satFld]
@[simp] theorem Dev.satFld_pwr (o : Nat) (f : Fld) (n : Nat) : (d.satFld o f n).pwr = d.pwr := by simp [Dev.satFld]
@[simp] theorem Dev.satFld_clk (o : Nat) (f : Fld) (n : Nat) : (d.satFld o f n).clk = d.clk := by simp [Dev.satFld]
@[simp] theorem Dev.satFld_pins (o : Nat) (f : Fld) (n : Nat) : (d.satFld o f n).pins = d.pins := by simp [Dev.satFld]
@[simp] theorem Dev.satFld_nv (o : Nat) (f : Fld) (n : Nat) : (d.satFld o f n).nv = d.nv := by simp [Dev.satFld]
@[simp] theorem Dev.satFld_otp (o : Nat) (f : Fld) (n : Nat) : (d.satFld o f n).otp = d.otp := by simp [Dev.satFld]

/-! ### wrapFld -/

@[simp] theorem Dev.wrapFld_now (o : Nat) (f : Fld) (n : Nat) : (d.wrapFld o f n).now = d.now := by simp [Dev.wrapFld]
@[simp] theorem Dev.wrapFld_freeCtr (o : Nat) (f : Fld) (n : Nat) : (d.wrapFld o f n).freeCtr = d.freeCtr := by simp [Dev.wrapFld]
@[simp] theorem Dev.wrapFld_mem (o : Nat) (f : Fld) (n : Nat) : (d.wrapFld o f n).mem = d.mem := by simp [Dev.wrapFld]
@[simp] theorem Dev.wrapFld_cores (o : Nat) (f : Fld) (n : Nat) : (d.wrapFld o f n).cores = d.cores := by simp [Dev.wrapFld]
@[simp] theorem Dev.wrapFld_stool (o : Nat) (f : Fld) (n : Nat) : (d.wrapFld o f n).stool = d.stool := by simp [Dev.wrapFld]
@[simp] theorem Dev.wrapFld_home (o : Nat) (f : Fld) (n : Nat) : (d.wrapFld o f n).home = d.home := by simp [Dev.wrapFld]
@[simp] theorem Dev.wrapFld_bpm (o : Nat) (f : Fld) (n : Nat) : (d.wrapFld o f n).bpm = d.bpm := by simp [Dev.wrapFld]
@[simp] theorem Dev.wrapFld_images (o : Nat) (f : Fld) (n : Nat) : (d.wrapFld o f n).images = d.images := by simp [Dev.wrapFld]
@[simp] theorem Dev.wrapFld_ctxs (o : Nat) (f : Fld) (n : Nat) : (d.wrapFld o f n).ctxs = d.ctxs := by simp [Dev.wrapFld]
@[simp] theorem Dev.wrapFld_streams (o : Nat) (f : Fld) (n : Nat) : (d.wrapFld o f n).streams = d.streams := by simp [Dev.wrapFld]
@[simp] theorem Dev.wrapFld_sets (o : Nat) (f : Fld) (n : Nat) : (d.wrapFld o f n).sets = d.sets := by simp [Dev.wrapFld]
@[simp] theorem Dev.wrapFld_readouts (o : Nat) (f : Fld) (n : Nat) : (d.wrapFld o f n).readouts = d.readouts := by simp [Dev.wrapFld]
@[simp] theorem Dev.wrapFld_engines (o : Nat) (f : Fld) (n : Nat) : (d.wrapFld o f n).engines = d.engines := by simp [Dev.wrapFld]
@[simp] theorem Dev.wrapFld_jpeg (o : Nat) (f : Fld) (n : Nat) : (d.wrapFld o f n).jpeg = d.jpeg := by simp [Dev.wrapFld]
@[simp] theorem Dev.wrapFld_pipes (o : Nat) (f : Fld) (n : Nat) : (d.wrapFld o f n).pipes = d.pipes := by simp [Dev.wrapFld]
@[simp] theorem Dev.wrapFld_ports (o : Nat) (f : Fld) (n : Nat) : (d.wrapFld o f n).ports = d.ports := by simp [Dev.wrapFld]
@[simp] theorem Dev.wrapFld_sched (o : Nat) (f : Fld) (n : Nat) : (d.wrapFld o f n).sched = d.sched := by simp [Dev.wrapFld]
@[simp] theorem Dev.wrapFld_gov (o : Nat) (f : Fld) (n : Nat) : (d.wrapFld o f n).gov = d.gov := by simp [Dev.wrapFld]
@[simp] theorem Dev.wrapFld_dvfs (o : Nat) (f : Fld) (n : Nat) : (d.wrapFld o f n).dvfs = d.dvfs := by simp [Dev.wrapFld]
@[simp] theorem Dev.wrapFld_host (o : Nat) (f : Fld) (n : Nat) : (d.wrapFld o f n).host = d.host := by simp [Dev.wrapFld]
@[simp] theorem Dev.wrapFld_que (o : Nat) (f : Fld) (n : Nat) : (d.wrapFld o f n).que = d.que := by simp [Dev.wrapFld]
@[simp] theorem Dev.wrapFld_dram (o : Nat) (f : Fld) (n : Nat) : (d.wrapFld o f n).dram = d.dram := by simp [Dev.wrapFld]
@[simp] theorem Dev.wrapFld_recov (o : Nat) (f : Fld) (n : Nat) : (d.wrapFld o f n).recov = d.recov := by simp [Dev.wrapFld]
@[simp] theorem Dev.wrapFld_fab (o : Nat) (f : Fld) (n : Nat) : (d.wrapFld o f n).fab = d.fab := by simp [Dev.wrapFld]
@[simp] theorem Dev.wrapFld_pwr (o : Nat) (f : Fld) (n : Nat) : (d.wrapFld o f n).pwr = d.pwr := by simp [Dev.wrapFld]
@[simp] theorem Dev.wrapFld_clk (o : Nat) (f : Fld) (n : Nat) : (d.wrapFld o f n).clk = d.clk := by simp [Dev.wrapFld]
@[simp] theorem Dev.wrapFld_pins (o : Nat) (f : Fld) (n : Nat) : (d.wrapFld o f n).pins = d.pins := by simp [Dev.wrapFld]
@[simp] theorem Dev.wrapFld_nv (o : Nat) (f : Fld) (n : Nat) : (d.wrapFld o f n).nv = d.nv := by simp [Dev.wrapFld]
@[simp] theorem Dev.wrapFld_otp (o : Nat) (f : Fld) (n : Nat) : (d.wrapFld o f n).otp = d.otp := by simp [Dev.wrapFld]

/-! ### setCore -/

@[simp] theorem Dev.setCore_now (c : Nat) (k : Core) : (d.setCore c k).now = d.now := rfl
@[simp] theorem Dev.setCore_freeCtr (c : Nat) (k : Core) : (d.setCore c k).freeCtr = d.freeCtr := rfl
@[simp] theorem Dev.setCore_mem (c : Nat) (k : Core) : (d.setCore c k).mem = d.mem := rfl
@[simp] theorem Dev.setCore_regs (c : Nat) (k : Core) : (d.setCore c k).regs = d.regs := rfl
@[simp] theorem Dev.setCore_stool (c : Nat) (k : Core) : (d.setCore c k).stool = d.stool := rfl
@[simp] theorem Dev.setCore_home (c : Nat) (k : Core) : (d.setCore c k).home = d.home := rfl
@[simp] theorem Dev.setCore_bpm (c : Nat) (k : Core) : (d.setCore c k).bpm = d.bpm := rfl
@[simp] theorem Dev.setCore_images (c : Nat) (k : Core) : (d.setCore c k).images = d.images := rfl
@[simp] theorem Dev.setCore_ctxs (c : Nat) (k : Core) : (d.setCore c k).ctxs = d.ctxs := rfl
@[simp] theorem Dev.setCore_streams (c : Nat) (k : Core) : (d.setCore c k).streams = d.streams := rfl
@[simp] theorem Dev.setCore_sets (c : Nat) (k : Core) : (d.setCore c k).sets = d.sets := rfl
@[simp] theorem Dev.setCore_readouts (c : Nat) (k : Core) : (d.setCore c k).readouts = d.readouts := rfl
@[simp] theorem Dev.setCore_engines (c : Nat) (k : Core) : (d.setCore c k).engines = d.engines := rfl
@[simp] theorem Dev.setCore_jpeg (c : Nat) (k : Core) : (d.setCore c k).jpeg = d.jpeg := rfl
@[simp] theorem Dev.setCore_pipes (c : Nat) (k : Core) : (d.setCore c k).pipes = d.pipes := rfl
@[simp] theorem Dev.setCore_ports (c : Nat) (k : Core) : (d.setCore c k).ports = d.ports := rfl
@[simp] theorem Dev.setCore_sched (c : Nat) (k : Core) : (d.setCore c k).sched = d.sched := rfl
@[simp] theorem Dev.setCore_gov (c : Nat) (k : Core) : (d.setCore c k).gov = d.gov := rfl
@[simp] theorem Dev.setCore_dvfs (c : Nat) (k : Core) : (d.setCore c k).dvfs = d.dvfs := rfl
@[simp] theorem Dev.setCore_host (c : Nat) (k : Core) : (d.setCore c k).host = d.host := rfl
@[simp] theorem Dev.setCore_que (c : Nat) (k : Core) : (d.setCore c k).que = d.que := rfl
@[simp] theorem Dev.setCore_dram (c : Nat) (k : Core) : (d.setCore c k).dram = d.dram := rfl
@[simp] theorem Dev.setCore_recov (c : Nat) (k : Core) : (d.setCore c k).recov = d.recov := rfl
@[simp] theorem Dev.setCore_fab (c : Nat) (k : Core) : (d.setCore c k).fab = d.fab := rfl
@[simp] theorem Dev.setCore_pwr (c : Nat) (k : Core) : (d.setCore c k).pwr = d.pwr := rfl
@[simp] theorem Dev.setCore_clk (c : Nat) (k : Core) : (d.setCore c k).clk = d.clk := rfl
@[simp] theorem Dev.setCore_pins (c : Nat) (k : Core) : (d.setCore c k).pins = d.pins := rfl
@[simp] theorem Dev.setCore_nv (c : Nat) (k : Core) : (d.setCore c k).nv = d.nv := rfl
@[simp] theorem Dev.setCore_otp (c : Nat) (k : Core) : (d.setCore c k).otp = d.otp := rfl

/-! ### modCore -/

@[simp] theorem Dev.modCore_now (c : Nat) (f : Core → Core) : (d.modCore c f).now = d.now := by simp [Dev.modCore]
@[simp] theorem Dev.modCore_freeCtr (c : Nat) (f : Core → Core) : (d.modCore c f).freeCtr = d.freeCtr := by simp [Dev.modCore]
@[simp] theorem Dev.modCore_mem (c : Nat) (f : Core → Core) : (d.modCore c f).mem = d.mem := by simp [Dev.modCore]
@[simp] theorem Dev.modCore_regs (c : Nat) (f : Core → Core) : (d.modCore c f).regs = d.regs := by simp [Dev.modCore]
@[simp] theorem Dev.modCore_stool (c : Nat) (f : Core → Core) : (d.modCore c f).stool = d.stool := by simp [Dev.modCore]
@[simp] theorem Dev.modCore_home (c : Nat) (f : Core → Core) : (d.modCore c f).home = d.home := by simp [Dev.modCore]
@[simp] theorem Dev.modCore_bpm (c : Nat) (f : Core → Core) : (d.modCore c f).bpm = d.bpm := by simp [Dev.modCore]
@[simp] theorem Dev.modCore_images (c : Nat) (f : Core → Core) : (d.modCore c f).images = d.images := by simp [Dev.modCore]
@[simp] theorem Dev.modCore_ctxs (c : Nat) (f : Core → Core) : (d.modCore c f).ctxs = d.ctxs := by simp [Dev.modCore]
@[simp] theorem Dev.modCore_streams (c : Nat) (f : Core → Core) : (d.modCore c f).streams = d.streams := by simp [Dev.modCore]
@[simp] theorem Dev.modCore_sets (c : Nat) (f : Core → Core) : (d.modCore c f).sets = d.sets := by simp [Dev.modCore]
@[simp] theorem Dev.modCore_readouts (c : Nat) (f : Core → Core) : (d.modCore c f).readouts = d.readouts := by simp [Dev.modCore]
@[simp] theorem Dev.modCore_engines (c : Nat) (f : Core → Core) : (d.modCore c f).engines = d.engines := by simp [Dev.modCore]
@[simp] theorem Dev.modCore_jpeg (c : Nat) (f : Core → Core) : (d.modCore c f).jpeg = d.jpeg := by simp [Dev.modCore]
@[simp] theorem Dev.modCore_pipes (c : Nat) (f : Core → Core) : (d.modCore c f).pipes = d.pipes := by simp [Dev.modCore]
@[simp] theorem Dev.modCore_ports (c : Nat) (f : Core → Core) : (d.modCore c f).ports = d.ports := by simp [Dev.modCore]
@[simp] theorem Dev.modCore_sched (c : Nat) (f : Core → Core) : (d.modCore c f).sched = d.sched := by simp [Dev.modCore]
@[simp] theorem Dev.modCore_gov (c : Nat) (f : Core → Core) : (d.modCore c f).gov = d.gov := by simp [Dev.modCore]
@[simp] theorem Dev.modCore_dvfs (c : Nat) (f : Core → Core) : (d.modCore c f).dvfs = d.dvfs := by simp [Dev.modCore]
@[simp] theorem Dev.modCore_host (c : Nat) (f : Core → Core) : (d.modCore c f).host = d.host := by simp [Dev.modCore]
@[simp] theorem Dev.modCore_que (c : Nat) (f : Core → Core) : (d.modCore c f).que = d.que := by simp [Dev.modCore]
@[simp] theorem Dev.modCore_dram (c : Nat) (f : Core → Core) : (d.modCore c f).dram = d.dram := by simp [Dev.modCore]
@[simp] theorem Dev.modCore_recov (c : Nat) (f : Core → Core) : (d.modCore c f).recov = d.recov := by simp [Dev.modCore]
@[simp] theorem Dev.modCore_fab (c : Nat) (f : Core → Core) : (d.modCore c f).fab = d.fab := by simp [Dev.modCore]
@[simp] theorem Dev.modCore_pwr (c : Nat) (f : Core → Core) : (d.modCore c f).pwr = d.pwr := by simp [Dev.modCore]
@[simp] theorem Dev.modCore_clk (c : Nat) (f : Core → Core) : (d.modCore c f).clk = d.clk := by simp [Dev.modCore]
@[simp] theorem Dev.modCore_pins (c : Nat) (f : Core → Core) : (d.modCore c f).pins = d.pins := by simp [Dev.modCore]
@[simp] theorem Dev.modCore_nv (c : Nat) (f : Core → Core) : (d.modCore c f).nv = d.nv := by simp [Dev.modCore]
@[simp] theorem Dev.modCore_otp (c : Nat) (f : Core → Core) : (d.modCore c f).otp = d.otp := by simp [Dev.modCore]

/-! ### setPc -/

@[simp] theorem Dev.setPc_now (c n : Nat) : (d.setPc c n).now = d.now := by simp [Dev.setPc]
@[simp] theorem Dev.setPc_freeCtr (c n : Nat) : (d.setPc c n).freeCtr = d.freeCtr := by simp [Dev.setPc]
@[simp] theorem Dev.setPc_mem (c n : Nat) : (d.setPc c n).mem = d.mem := by simp [Dev.setPc]
@[simp] theorem Dev.setPc_cores (c n : Nat) : (d.setPc c n).cores = d.cores := by simp [Dev.setPc]
@[simp] theorem Dev.setPc_stool (c n : Nat) : (d.setPc c n).stool = d.stool := by simp [Dev.setPc]
@[simp] theorem Dev.setPc_home (c n : Nat) : (d.setPc c n).home = d.home := by simp [Dev.setPc]
@[simp] theorem Dev.setPc_bpm (c n : Nat) : (d.setPc c n).bpm = d.bpm := by simp [Dev.setPc]
@[simp] theorem Dev.setPc_images (c n : Nat) : (d.setPc c n).images = d.images := by simp [Dev.setPc]
@[simp] theorem Dev.setPc_ctxs (c n : Nat) : (d.setPc c n).ctxs = d.ctxs := by simp [Dev.setPc]
@[simp] theorem Dev.setPc_streams (c n : Nat) : (d.setPc c n).streams = d.streams := by simp [Dev.setPc]
@[simp] theorem Dev.setPc_sets (c n : Nat) : (d.setPc c n).sets = d.sets := by simp [Dev.setPc]
@[simp] theorem Dev.setPc_readouts (c n : Nat) : (d.setPc c n).readouts = d.readouts := by simp [Dev.setPc]
@[simp] theorem Dev.setPc_engines (c n : Nat) : (d.setPc c n).engines = d.engines := by simp [Dev.setPc]
@[simp] theorem Dev.setPc_jpeg (c n : Nat) : (d.setPc c n).jpeg = d.jpeg := by simp [Dev.setPc]
@[simp] theorem Dev.setPc_pipes (c n : Nat) : (d.setPc c n).pipes = d.pipes := by simp [Dev.setPc]
@[simp] theorem Dev.setPc_ports (c n : Nat) : (d.setPc c n).ports = d.ports := by simp [Dev.setPc]
@[simp] theorem Dev.setPc_sched (c n : Nat) : (d.setPc c n).sched = d.sched := by simp [Dev.setPc]
@[simp] theorem Dev.setPc_gov (c n : Nat) : (d.setPc c n).gov = d.gov := by simp [Dev.setPc]
@[simp] theorem Dev.setPc_dvfs (c n : Nat) : (d.setPc c n).dvfs = d.dvfs := by simp [Dev.setPc]
@[simp] theorem Dev.setPc_host (c n : Nat) : (d.setPc c n).host = d.host := by simp [Dev.setPc]
@[simp] theorem Dev.setPc_que (c n : Nat) : (d.setPc c n).que = d.que := by simp [Dev.setPc]
@[simp] theorem Dev.setPc_dram (c n : Nat) : (d.setPc c n).dram = d.dram := by simp [Dev.setPc]
@[simp] theorem Dev.setPc_recov (c n : Nat) : (d.setPc c n).recov = d.recov := by simp [Dev.setPc]
@[simp] theorem Dev.setPc_fab (c n : Nat) : (d.setPc c n).fab = d.fab := by simp [Dev.setPc]
@[simp] theorem Dev.setPc_pwr (c n : Nat) : (d.setPc c n).pwr = d.pwr := by simp [Dev.setPc]
@[simp] theorem Dev.setPc_clk (c n : Nat) : (d.setPc c n).clk = d.clk := by simp [Dev.setPc]
@[simp] theorem Dev.setPc_pins (c n : Nat) : (d.setPc c n).pins = d.pins := by simp [Dev.setPc]
@[simp] theorem Dev.setPc_nv (c n : Nat) : (d.setPc c n).nv = d.nv := by simp [Dev.setPc]
@[simp] theorem Dev.setPc_otp (c n : Nat) : (d.setPc c n).otp = d.otp := by simp [Dev.setPc]

/-! ### setS -/

@[simp] theorem Dev.setS_now (c i v : Nat) : (d.setS c i v).now = d.now := by simp [Dev.setS]
@[simp] theorem Dev.setS_freeCtr (c i v : Nat) : (d.setS c i v).freeCtr = d.freeCtr := by simp [Dev.setS]
@[simp] theorem Dev.setS_mem (c i v : Nat) : (d.setS c i v).mem = d.mem := by simp [Dev.setS]
@[simp] theorem Dev.setS_regs (c i v : Nat) : (d.setS c i v).regs = d.regs := by simp [Dev.setS]
@[simp] theorem Dev.setS_stool (c i v : Nat) : (d.setS c i v).stool = d.stool := by simp [Dev.setS]
@[simp] theorem Dev.setS_home (c i v : Nat) : (d.setS c i v).home = d.home := by simp [Dev.setS]
@[simp] theorem Dev.setS_bpm (c i v : Nat) : (d.setS c i v).bpm = d.bpm := by simp [Dev.setS]
@[simp] theorem Dev.setS_images (c i v : Nat) : (d.setS c i v).images = d.images := by simp [Dev.setS]
@[simp] theorem Dev.setS_ctxs (c i v : Nat) : (d.setS c i v).ctxs = d.ctxs := by simp [Dev.setS]
@[simp] theorem Dev.setS_streams (c i v : Nat) : (d.setS c i v).streams = d.streams := by simp [Dev.setS]
@[simp] theorem Dev.setS_sets (c i v : Nat) : (d.setS c i v).sets = d.sets := by simp [Dev.setS]
@[simp] theorem Dev.setS_readouts (c i v : Nat) : (d.setS c i v).readouts = d.readouts := by simp [Dev.setS]
@[simp] theorem Dev.setS_engines (c i v : Nat) : (d.setS c i v).engines = d.engines := by simp [Dev.setS]
@[simp] theorem Dev.setS_jpeg (c i v : Nat) : (d.setS c i v).jpeg = d.jpeg := by simp [Dev.setS]
@[simp] theorem Dev.setS_pipes (c i v : Nat) : (d.setS c i v).pipes = d.pipes := by simp [Dev.setS]
@[simp] theorem Dev.setS_ports (c i v : Nat) : (d.setS c i v).ports = d.ports := by simp [Dev.setS]
@[simp] theorem Dev.setS_sched (c i v : Nat) : (d.setS c i v).sched = d.sched := by simp [Dev.setS]
@[simp] theorem Dev.setS_gov (c i v : Nat) : (d.setS c i v).gov = d.gov := by simp [Dev.setS]
@[simp] theorem Dev.setS_dvfs (c i v : Nat) : (d.setS c i v).dvfs = d.dvfs := by simp [Dev.setS]
@[simp] theorem Dev.setS_host (c i v : Nat) : (d.setS c i v).host = d.host := by simp [Dev.setS]
@[simp] theorem Dev.setS_que (c i v : Nat) : (d.setS c i v).que = d.que := by simp [Dev.setS]
@[simp] theorem Dev.setS_dram (c i v : Nat) : (d.setS c i v).dram = d.dram := by simp [Dev.setS]
@[simp] theorem Dev.setS_recov (c i v : Nat) : (d.setS c i v).recov = d.recov := by simp [Dev.setS]
@[simp] theorem Dev.setS_fab (c i v : Nat) : (d.setS c i v).fab = d.fab := by simp [Dev.setS]
@[simp] theorem Dev.setS_pwr (c i v : Nat) : (d.setS c i v).pwr = d.pwr := by simp [Dev.setS]
@[simp] theorem Dev.setS_clk (c i v : Nat) : (d.setS c i v).clk = d.clk := by simp [Dev.setS]
@[simp] theorem Dev.setS_pins (c i v : Nat) : (d.setS c i v).pins = d.pins := by simp [Dev.setS]
@[simp] theorem Dev.setS_nv (c i v : Nat) : (d.setS c i v).nv = d.nv := by simp [Dev.setS]
@[simp] theorem Dev.setS_otp (c i v : Nat) : (d.setS c i v).otp = d.otp := by simp [Dev.setS]

/-! ### tokSub -/

@[simp] theorem Dev.tokSub_now (c t n : Nat) : (d.tokSub c t n).now = d.now := by simp [Dev.tokSub]
@[simp] theorem Dev.tokSub_freeCtr (c t n : Nat) : (d.tokSub c t n).freeCtr = d.freeCtr := by simp [Dev.tokSub]
@[simp] theorem Dev.tokSub_mem (c t n : Nat) : (d.tokSub c t n).mem = d.mem := by simp [Dev.tokSub]
@[simp] theorem Dev.tokSub_regs (c t n : Nat) : (d.tokSub c t n).regs = d.regs := by simp [Dev.tokSub]
@[simp] theorem Dev.tokSub_stool (c t n : Nat) : (d.tokSub c t n).stool = d.stool := by simp [Dev.tokSub]
@[simp] theorem Dev.tokSub_home (c t n : Nat) : (d.tokSub c t n).home = d.home := by simp [Dev.tokSub]
@[simp] theorem Dev.tokSub_bpm (c t n : Nat) : (d.tokSub c t n).bpm = d.bpm := by simp [Dev.tokSub]
@[simp] theorem Dev.tokSub_images (c t n : Nat) : (d.tokSub c t n).images = d.images := by simp [Dev.tokSub]
@[simp] theorem Dev.tokSub_ctxs (c t n : Nat) : (d.tokSub c t n).ctxs = d.ctxs := by simp [Dev.tokSub]
@[simp] theorem Dev.tokSub_streams (c t n : Nat) : (d.tokSub c t n).streams = d.streams := by simp [Dev.tokSub]
@[simp] theorem Dev.tokSub_sets (c t n : Nat) : (d.tokSub c t n).sets = d.sets := by simp [Dev.tokSub]
@[simp] theorem Dev.tokSub_readouts (c t n : Nat) : (d.tokSub c t n).readouts = d.readouts := by simp [Dev.tokSub]
@[simp] theorem Dev.tokSub_engines (c t n : Nat) : (d.tokSub c t n).engines = d.engines := by simp [Dev.tokSub]
@[simp] theorem Dev.tokSub_jpeg (c t n : Nat) : (d.tokSub c t n).jpeg = d.jpeg := by simp [Dev.tokSub]
@[simp] theorem Dev.tokSub_pipes (c t n : Nat) : (d.tokSub c t n).pipes = d.pipes := by simp [Dev.tokSub]
@[simp] theorem Dev.tokSub_ports (c t n : Nat) : (d.tokSub c t n).ports = d.ports := by simp [Dev.tokSub]
@[simp] theorem Dev.tokSub_sched (c t n : Nat) : (d.tokSub c t n).sched = d.sched := by simp [Dev.tokSub]
@[simp] theorem Dev.tokSub_gov (c t n : Nat) : (d.tokSub c t n).gov = d.gov := by simp [Dev.tokSub]
@[simp] theorem Dev.tokSub_dvfs (c t n : Nat) : (d.tokSub c t n).dvfs = d.dvfs := by simp [Dev.tokSub]
@[simp] theorem Dev.tokSub_host (c t n : Nat) : (d.tokSub c t n).host = d.host := by simp [Dev.tokSub]
@[simp] theorem Dev.tokSub_que (c t n : Nat) : (d.tokSub c t n).que = d.que := by simp [Dev.tokSub]
@[simp] theorem Dev.tokSub_dram (c t n : Nat) : (d.tokSub c t n).dram = d.dram := by simp [Dev.tokSub]
@[simp] theorem Dev.tokSub_recov (c t n : Nat) : (d.tokSub c t n).recov = d.recov := by simp [Dev.tokSub]
@[simp] theorem Dev.tokSub_fab (c t n : Nat) : (d.tokSub c t n).fab = d.fab := by simp [Dev.tokSub]
@[simp] theorem Dev.tokSub_pwr (c t n : Nat) : (d.tokSub c t n).pwr = d.pwr := by simp [Dev.tokSub]
@[simp] theorem Dev.tokSub_clk (c t n : Nat) : (d.tokSub c t n).clk = d.clk := by simp [Dev.tokSub]
@[simp] theorem Dev.tokSub_pins (c t n : Nat) : (d.tokSub c t n).pins = d.pins := by simp [Dev.tokSub]
@[simp] theorem Dev.tokSub_nv (c t n : Nat) : (d.tokSub c t n).nv = d.nv := by simp [Dev.tokSub]
@[simp] theorem Dev.tokSub_otp (c t n : Nat) : (d.tokSub c t n).otp = d.otp := by simp [Dev.tokSub]

/-! ### countRetired -/

@[simp] theorem Dev.countRetired_now (c : Nat) : (d.countRetired c).now = d.now := by simp [Dev.countRetired]
@[simp] theorem Dev.countRetired_freeCtr (c : Nat) : (d.countRetired c).freeCtr = d.freeCtr := by simp [Dev.countRetired]
@[simp] theorem Dev.countRetired_mem (c : Nat) : (d.countRetired c).mem = d.mem := by simp [Dev.countRetired]
@[simp] theorem Dev.countRetired_cores (c : Nat) : (d.countRetired c).cores = d.cores := by simp [Dev.countRetired]
@[simp] theorem Dev.countRetired_stool (c : Nat) : (d.countRetired c).stool = d.stool := by simp [Dev.countRetired]
@[simp] theorem Dev.countRetired_home (c : Nat) : (d.countRetired c).home = d.home := by simp [Dev.countRetired]
@[simp] theorem Dev.countRetired_bpm (c : Nat) : (d.countRetired c).bpm = d.bpm := by simp [Dev.countRetired]
@[simp] theorem Dev.countRetired_images (c : Nat) : (d.countRetired c).images = d.images := by simp [Dev.countRetired]
@[simp] theorem Dev.countRetired_ctxs (c : Nat) : (d.countRetired c).ctxs = d.ctxs := by simp [Dev.countRetired]
@[simp] theorem Dev.countRetired_streams (c : Nat) : (d.countRetired c).streams = d.streams := by simp [Dev.countRetired]
@[simp] theorem Dev.countRetired_sets (c : Nat) : (d.countRetired c).sets = d.sets := by simp [Dev.countRetired]
@[simp] theorem Dev.countRetired_readouts (c : Nat) : (d.countRetired c).readouts = d.readouts := by simp [Dev.countRetired]
@[simp] theorem Dev.countRetired_engines (c : Nat) : (d.countRetired c).engines = d.engines := by simp [Dev.countRetired]
@[simp] theorem Dev.countRetired_jpeg (c : Nat) : (d.countRetired c).jpeg = d.jpeg := by simp [Dev.countRetired]
@[simp] theorem Dev.countRetired_pipes (c : Nat) : (d.countRetired c).pipes = d.pipes := by simp [Dev.countRetired]
@[simp] theorem Dev.countRetired_ports (c : Nat) : (d.countRetired c).ports = d.ports := by simp [Dev.countRetired]
@[simp] theorem Dev.countRetired_sched (c : Nat) : (d.countRetired c).sched = d.sched := by simp [Dev.countRetired]
@[simp] theorem Dev.countRetired_gov (c : Nat) : (d.countRetired c).gov = d.gov := by simp [Dev.countRetired]
@[simp] theorem Dev.countRetired_dvfs (c : Nat) : (d.countRetired c).dvfs = d.dvfs := by simp [Dev.countRetired]
@[simp] theorem Dev.countRetired_host (c : Nat) : (d.countRetired c).host = d.host := by simp [Dev.countRetired]
@[simp] theorem Dev.countRetired_que (c : Nat) : (d.countRetired c).que = d.que := by simp [Dev.countRetired]
@[simp] theorem Dev.countRetired_dram (c : Nat) : (d.countRetired c).dram = d.dram := by simp [Dev.countRetired]
@[simp] theorem Dev.countRetired_recov (c : Nat) : (d.countRetired c).recov = d.recov := by simp [Dev.countRetired]
@[simp] theorem Dev.countRetired_fab (c : Nat) : (d.countRetired c).fab = d.fab := by simp [Dev.countRetired]
@[simp] theorem Dev.countRetired_pwr (c : Nat) : (d.countRetired c).pwr = d.pwr := by simp [Dev.countRetired]
@[simp] theorem Dev.countRetired_clk (c : Nat) : (d.countRetired c).clk = d.clk := by simp [Dev.countRetired]
@[simp] theorem Dev.countRetired_pins (c : Nat) : (d.countRetired c).pins = d.pins := by simp [Dev.countRetired]
@[simp] theorem Dev.countRetired_nv (c : Nat) : (d.countRetired c).nv = d.nv := by simp [Dev.countRetired]
@[simp] theorem Dev.countRetired_otp (c : Nat) : (d.countRetired c).otp = d.otp := by simp [Dev.countRetired]

/-! ### setHomeTag -/

@[simp] theorem Dev.setHomeTag_now (k : Nat) (v : TagState) : (d.setHomeTag k v).now = d.now := rfl
@[simp] theorem Dev.setHomeTag_freeCtr (k : Nat) (v : TagState) : (d.setHomeTag k v).freeCtr = d.freeCtr := rfl
@[simp] theorem Dev.setHomeTag_mem (k : Nat) (v : TagState) : (d.setHomeTag k v).mem = d.mem := rfl
@[simp] theorem Dev.setHomeTag_regs (k : Nat) (v : TagState) : (d.setHomeTag k v).regs = d.regs := rfl
@[simp] theorem Dev.setHomeTag_cores (k : Nat) (v : TagState) : (d.setHomeTag k v).cores = d.cores := rfl
@[simp] theorem Dev.setHomeTag_stool (k : Nat) (v : TagState) : (d.setHomeTag k v).stool = d.stool := rfl
@[simp] theorem Dev.setHomeTag_bpm (k : Nat) (v : TagState) : (d.setHomeTag k v).bpm = d.bpm := rfl
@[simp] theorem Dev.setHomeTag_images (k : Nat) (v : TagState) : (d.setHomeTag k v).images = d.images := rfl
@[simp] theorem Dev.setHomeTag_ctxs (k : Nat) (v : TagState) : (d.setHomeTag k v).ctxs = d.ctxs := rfl
@[simp] theorem Dev.setHomeTag_streams (k : Nat) (v : TagState) : (d.setHomeTag k v).streams = d.streams := rfl
@[simp] theorem Dev.setHomeTag_sets (k : Nat) (v : TagState) : (d.setHomeTag k v).sets = d.sets := rfl
@[simp] theorem Dev.setHomeTag_readouts (k : Nat) (v : TagState) : (d.setHomeTag k v).readouts = d.readouts := rfl
@[simp] theorem Dev.setHomeTag_engines (k : Nat) (v : TagState) : (d.setHomeTag k v).engines = d.engines := rfl
@[simp] theorem Dev.setHomeTag_jpeg (k : Nat) (v : TagState) : (d.setHomeTag k v).jpeg = d.jpeg := rfl
@[simp] theorem Dev.setHomeTag_pipes (k : Nat) (v : TagState) : (d.setHomeTag k v).pipes = d.pipes := rfl
@[simp] theorem Dev.setHomeTag_ports (k : Nat) (v : TagState) : (d.setHomeTag k v).ports = d.ports := rfl
@[simp] theorem Dev.setHomeTag_sched (k : Nat) (v : TagState) : (d.setHomeTag k v).sched = d.sched := rfl
@[simp] theorem Dev.setHomeTag_gov (k : Nat) (v : TagState) : (d.setHomeTag k v).gov = d.gov := rfl
@[simp] theorem Dev.setHomeTag_dvfs (k : Nat) (v : TagState) : (d.setHomeTag k v).dvfs = d.dvfs := rfl
@[simp] theorem Dev.setHomeTag_host (k : Nat) (v : TagState) : (d.setHomeTag k v).host = d.host := rfl
@[simp] theorem Dev.setHomeTag_que (k : Nat) (v : TagState) : (d.setHomeTag k v).que = d.que := rfl
@[simp] theorem Dev.setHomeTag_dram (k : Nat) (v : TagState) : (d.setHomeTag k v).dram = d.dram := rfl
@[simp] theorem Dev.setHomeTag_recov (k : Nat) (v : TagState) : (d.setHomeTag k v).recov = d.recov := rfl
@[simp] theorem Dev.setHomeTag_fab (k : Nat) (v : TagState) : (d.setHomeTag k v).fab = d.fab := rfl
@[simp] theorem Dev.setHomeTag_pwr (k : Nat) (v : TagState) : (d.setHomeTag k v).pwr = d.pwr := rfl
@[simp] theorem Dev.setHomeTag_clk (k : Nat) (v : TagState) : (d.setHomeTag k v).clk = d.clk := rfl
@[simp] theorem Dev.setHomeTag_pins (k : Nat) (v : TagState) : (d.setHomeTag k v).pins = d.pins := rfl
@[simp] theorem Dev.setHomeTag_nv (k : Nat) (v : TagState) : (d.setHomeTag k v).nv = d.nv := rfl
@[simp] theorem Dev.setHomeTag_otp (k : Nat) (v : TagState) : (d.setHomeTag k v).otp = d.otp := rfl

/-! ### setDv -/

@[simp] theorem Dev.setDv_now (k : Nat) (v : Dvfs) : (d.setDv k v).now = d.now := rfl
@[simp] theorem Dev.setDv_freeCtr (k : Nat) (v : Dvfs) : (d.setDv k v).freeCtr = d.freeCtr := rfl
@[simp] theorem Dev.setDv_mem (k : Nat) (v : Dvfs) : (d.setDv k v).mem = d.mem := rfl
@[simp] theorem Dev.setDv_regs (k : Nat) (v : Dvfs) : (d.setDv k v).regs = d.regs := rfl
@[simp] theorem Dev.setDv_cores (k : Nat) (v : Dvfs) : (d.setDv k v).cores = d.cores := rfl
@[simp] theorem Dev.setDv_stool (k : Nat) (v : Dvfs) : (d.setDv k v).stool = d.stool := rfl
@[simp] theorem Dev.setDv_home (k : Nat) (v : Dvfs) : (d.setDv k v).home = d.home := rfl
@[simp] theorem Dev.setDv_bpm (k : Nat) (v : Dvfs) : (d.setDv k v).bpm = d.bpm := rfl
@[simp] theorem Dev.setDv_images (k : Nat) (v : Dvfs) : (d.setDv k v).images = d.images := rfl
@[simp] theorem Dev.setDv_ctxs (k : Nat) (v : Dvfs) : (d.setDv k v).ctxs = d.ctxs := rfl
@[simp] theorem Dev.setDv_streams (k : Nat) (v : Dvfs) : (d.setDv k v).streams = d.streams := rfl
@[simp] theorem Dev.setDv_sets (k : Nat) (v : Dvfs) : (d.setDv k v).sets = d.sets := rfl
@[simp] theorem Dev.setDv_readouts (k : Nat) (v : Dvfs) : (d.setDv k v).readouts = d.readouts := rfl
@[simp] theorem Dev.setDv_engines (k : Nat) (v : Dvfs) : (d.setDv k v).engines = d.engines := rfl
@[simp] theorem Dev.setDv_jpeg (k : Nat) (v : Dvfs) : (d.setDv k v).jpeg = d.jpeg := rfl
@[simp] theorem Dev.setDv_pipes (k : Nat) (v : Dvfs) : (d.setDv k v).pipes = d.pipes := rfl
@[simp] theorem Dev.setDv_ports (k : Nat) (v : Dvfs) : (d.setDv k v).ports = d.ports := rfl
@[simp] theorem Dev.setDv_sched (k : Nat) (v : Dvfs) : (d.setDv k v).sched = d.sched := rfl
@[simp] theorem Dev.setDv_gov (k : Nat) (v : Dvfs) : (d.setDv k v).gov = d.gov := rfl
@[simp] theorem Dev.setDv_host (k : Nat) (v : Dvfs) : (d.setDv k v).host = d.host := rfl
@[simp] theorem Dev.setDv_que (k : Nat) (v : Dvfs) : (d.setDv k v).que = d.que := rfl
@[simp] theorem Dev.setDv_dram (k : Nat) (v : Dvfs) : (d.setDv k v).dram = d.dram := rfl
@[simp] theorem Dev.setDv_recov (k : Nat) (v : Dvfs) : (d.setDv k v).recov = d.recov := rfl
@[simp] theorem Dev.setDv_fab (k : Nat) (v : Dvfs) : (d.setDv k v).fab = d.fab := rfl
@[simp] theorem Dev.setDv_pwr (k : Nat) (v : Dvfs) : (d.setDv k v).pwr = d.pwr := rfl
@[simp] theorem Dev.setDv_clk (k : Nat) (v : Dvfs) : (d.setDv k v).clk = d.clk := rfl
@[simp] theorem Dev.setDv_pins (k : Nat) (v : Dvfs) : (d.setDv k v).pins = d.pins := rfl
@[simp] theorem Dev.setDv_nv (k : Nat) (v : Dvfs) : (d.setDv k v).nv = d.nv := rfl
@[simp] theorem Dev.setDv_otp (k : Nat) (v : Dvfs) : (d.setDv k v).otp = d.otp := rfl

/-! ### setOp -/

@[simp] theorem Dev.setOp_now (k n : Nat) : (d.setOp k n).now = d.now := by simp [Dev.setOp]
@[simp] theorem Dev.setOp_freeCtr (k n : Nat) : (d.setOp k n).freeCtr = d.freeCtr := by simp [Dev.setOp]
@[simp] theorem Dev.setOp_mem (k n : Nat) : (d.setOp k n).mem = d.mem := by simp [Dev.setOp]
@[simp] theorem Dev.setOp_cores (k n : Nat) : (d.setOp k n).cores = d.cores := by simp [Dev.setOp]
@[simp] theorem Dev.setOp_stool (k n : Nat) : (d.setOp k n).stool = d.stool := by simp [Dev.setOp]
@[simp] theorem Dev.setOp_home (k n : Nat) : (d.setOp k n).home = d.home := by simp [Dev.setOp]
@[simp] theorem Dev.setOp_bpm (k n : Nat) : (d.setOp k n).bpm = d.bpm := by simp [Dev.setOp]
@[simp] theorem Dev.setOp_images (k n : Nat) : (d.setOp k n).images = d.images := by simp [Dev.setOp]
@[simp] theorem Dev.setOp_ctxs (k n : Nat) : (d.setOp k n).ctxs = d.ctxs := by simp [Dev.setOp]
@[simp] theorem Dev.setOp_streams (k n : Nat) : (d.setOp k n).streams = d.streams := by simp [Dev.setOp]
@[simp] theorem Dev.setOp_sets (k n : Nat) : (d.setOp k n).sets = d.sets := by simp [Dev.setOp]
@[simp] theorem Dev.setOp_readouts (k n : Nat) : (d.setOp k n).readouts = d.readouts := by simp [Dev.setOp]
@[simp] theorem Dev.setOp_engines (k n : Nat) : (d.setOp k n).engines = d.engines := by simp [Dev.setOp]
@[simp] theorem Dev.setOp_jpeg (k n : Nat) : (d.setOp k n).jpeg = d.jpeg := by simp [Dev.setOp]
@[simp] theorem Dev.setOp_pipes (k n : Nat) : (d.setOp k n).pipes = d.pipes := by simp [Dev.setOp]
@[simp] theorem Dev.setOp_ports (k n : Nat) : (d.setOp k n).ports = d.ports := by simp [Dev.setOp]
@[simp] theorem Dev.setOp_sched (k n : Nat) : (d.setOp k n).sched = d.sched := by simp [Dev.setOp]
@[simp] theorem Dev.setOp_gov (k n : Nat) : (d.setOp k n).gov = d.gov := by simp [Dev.setOp]
@[simp] theorem Dev.setOp_dvfs (k n : Nat) : (d.setOp k n).dvfs = d.dvfs := by simp [Dev.setOp]
@[simp] theorem Dev.setOp_host (k n : Nat) : (d.setOp k n).host = d.host := by simp [Dev.setOp]
@[simp] theorem Dev.setOp_que (k n : Nat) : (d.setOp k n).que = d.que := by simp [Dev.setOp]
@[simp] theorem Dev.setOp_dram (k n : Nat) : (d.setOp k n).dram = d.dram := by simp [Dev.setOp]
@[simp] theorem Dev.setOp_recov (k n : Nat) : (d.setOp k n).recov = d.recov := by simp [Dev.setOp]
@[simp] theorem Dev.setOp_fab (k n : Nat) : (d.setOp k n).fab = d.fab := by simp [Dev.setOp]
@[simp] theorem Dev.setOp_pwr (k n : Nat) : (d.setOp k n).pwr = d.pwr := by simp [Dev.setOp]
@[simp] theorem Dev.setOp_clk (k n : Nat) : (d.setOp k n).clk = d.clk := by simp [Dev.setOp]
@[simp] theorem Dev.setOp_pins (k n : Nat) : (d.setOp k n).pins = d.pins := by simp [Dev.setOp]
@[simp] theorem Dev.setOp_nv (k n : Nat) : (d.setOp k n).nv = d.nv := by simp [Dev.setOp]
@[simp] theorem Dev.setOp_otp (k n : Nat) : (d.setOp k n).otp = d.otp := by simp [Dev.setOp]

/-! ### setMv -/

@[simp] theorem Dev.setMv_now (k : Nat) : (d.setMv k).now = d.now := by simp [Dev.setMv]
@[simp] theorem Dev.setMv_freeCtr (k : Nat) : (d.setMv k).freeCtr = d.freeCtr := by simp [Dev.setMv]
@[simp] theorem Dev.setMv_mem (k : Nat) : (d.setMv k).mem = d.mem := by simp [Dev.setMv]
@[simp] theorem Dev.setMv_cores (k : Nat) : (d.setMv k).cores = d.cores := by simp [Dev.setMv]
@[simp] theorem Dev.setMv_stool (k : Nat) : (d.setMv k).stool = d.stool := by simp [Dev.setMv]
@[simp] theorem Dev.setMv_home (k : Nat) : (d.setMv k).home = d.home := by simp [Dev.setMv]
@[simp] theorem Dev.setMv_bpm (k : Nat) : (d.setMv k).bpm = d.bpm := by simp [Dev.setMv]
@[simp] theorem Dev.setMv_images (k : Nat) : (d.setMv k).images = d.images := by simp [Dev.setMv]
@[simp] theorem Dev.setMv_ctxs (k : Nat) : (d.setMv k).ctxs = d.ctxs := by simp [Dev.setMv]
@[simp] theorem Dev.setMv_streams (k : Nat) : (d.setMv k).streams = d.streams := by simp [Dev.setMv]
@[simp] theorem Dev.setMv_sets (k : Nat) : (d.setMv k).sets = d.sets := by simp [Dev.setMv]
@[simp] theorem Dev.setMv_readouts (k : Nat) : (d.setMv k).readouts = d.readouts := by simp [Dev.setMv]
@[simp] theorem Dev.setMv_engines (k : Nat) : (d.setMv k).engines = d.engines := by simp [Dev.setMv]
@[simp] theorem Dev.setMv_jpeg (k : Nat) : (d.setMv k).jpeg = d.jpeg := by simp [Dev.setMv]
@[simp] theorem Dev.setMv_pipes (k : Nat) : (d.setMv k).pipes = d.pipes := by simp [Dev.setMv]
@[simp] theorem Dev.setMv_ports (k : Nat) : (d.setMv k).ports = d.ports := by simp [Dev.setMv]
@[simp] theorem Dev.setMv_sched (k : Nat) : (d.setMv k).sched = d.sched := by simp [Dev.setMv]
@[simp] theorem Dev.setMv_gov (k : Nat) : (d.setMv k).gov = d.gov := by simp [Dev.setMv]
@[simp] theorem Dev.setMv_dvfs (k : Nat) : (d.setMv k).dvfs = d.dvfs := by simp [Dev.setMv]
@[simp] theorem Dev.setMv_host (k : Nat) : (d.setMv k).host = d.host := by simp [Dev.setMv]
@[simp] theorem Dev.setMv_que (k : Nat) : (d.setMv k).que = d.que := by simp [Dev.setMv]
@[simp] theorem Dev.setMv_dram (k : Nat) : (d.setMv k).dram = d.dram := by simp [Dev.setMv]
@[simp] theorem Dev.setMv_recov (k : Nat) : (d.setMv k).recov = d.recov := by simp [Dev.setMv]
@[simp] theorem Dev.setMv_fab (k : Nat) : (d.setMv k).fab = d.fab := by simp [Dev.setMv]
@[simp] theorem Dev.setMv_pwr (k : Nat) : (d.setMv k).pwr = d.pwr := by simp [Dev.setMv]
@[simp] theorem Dev.setMv_clk (k : Nat) : (d.setMv k).clk = d.clk := by simp [Dev.setMv]
@[simp] theorem Dev.setMv_pins (k : Nat) : (d.setMv k).pins = d.pins := by simp [Dev.setMv]
@[simp] theorem Dev.setMv_nv (k : Nat) : (d.setMv k).nv = d.nv := by simp [Dev.setMv]
@[simp] theorem Dev.setMv_otp (k : Nat) : (d.setMv k).otp = d.otp := by simp [Dev.setMv]

/-! ### modFrame -/

@[simp] theorem Dev.modFrame_now (st n : Nat) (r : Bool) (g : Frame → Frame) : (d.modFrame st n r g).now = d.now := rfl
@[simp] theorem Dev.modFrame_freeCtr (st n : Nat) (r : Bool) (g : Frame → Frame) : (d.modFrame st n r g).freeCtr = d.freeCtr := rfl
@[simp] theorem Dev.modFrame_mem (st n : Nat) (r : Bool) (g : Frame → Frame) : (d.modFrame st n r g).mem = d.mem := rfl
@[simp] theorem Dev.modFrame_regs (st n : Nat) (r : Bool) (g : Frame → Frame) : (d.modFrame st n r g).regs = d.regs := rfl
@[simp] theorem Dev.modFrame_cores (st n : Nat) (r : Bool) (g : Frame → Frame) : (d.modFrame st n r g).cores = d.cores := rfl
@[simp] theorem Dev.modFrame_stool (st n : Nat) (r : Bool) (g : Frame → Frame) : (d.modFrame st n r g).stool = d.stool := rfl
@[simp] theorem Dev.modFrame_home (st n : Nat) (r : Bool) (g : Frame → Frame) : (d.modFrame st n r g).home = d.home := rfl
@[simp] theorem Dev.modFrame_bpm (st n : Nat) (r : Bool) (g : Frame → Frame) : (d.modFrame st n r g).bpm = d.bpm := rfl
@[simp] theorem Dev.modFrame_images (st n : Nat) (r : Bool) (g : Frame → Frame) : (d.modFrame st n r g).images = d.images := rfl
@[simp] theorem Dev.modFrame_ctxs (st n : Nat) (r : Bool) (g : Frame → Frame) : (d.modFrame st n r g).ctxs = d.ctxs := rfl
@[simp] theorem Dev.modFrame_streams (st n : Nat) (r : Bool) (g : Frame → Frame) : (d.modFrame st n r g).streams = d.streams := rfl
@[simp] theorem Dev.modFrame_sets (st n : Nat) (r : Bool) (g : Frame → Frame) : (d.modFrame st n r g).sets = d.sets := rfl
@[simp] theorem Dev.modFrame_readouts (st n : Nat) (r : Bool) (g : Frame → Frame) : (d.modFrame st n r g).readouts = d.readouts := rfl
@[simp] theorem Dev.modFrame_engines (st n : Nat) (r : Bool) (g : Frame → Frame) : (d.modFrame st n r g).engines = d.engines := rfl
@[simp] theorem Dev.modFrame_jpeg (st n : Nat) (r : Bool) (g : Frame → Frame) : (d.modFrame st n r g).jpeg = d.jpeg := rfl
@[simp] theorem Dev.modFrame_pipes (st n : Nat) (r : Bool) (g : Frame → Frame) : (d.modFrame st n r g).pipes = d.pipes := rfl
@[simp] theorem Dev.modFrame_ports (st n : Nat) (r : Bool) (g : Frame → Frame) : (d.modFrame st n r g).ports = d.ports := rfl
@[simp] theorem Dev.modFrame_gov (st n : Nat) (r : Bool) (g : Frame → Frame) : (d.modFrame st n r g).gov = d.gov := rfl
@[simp] theorem Dev.modFrame_dvfs (st n : Nat) (r : Bool) (g : Frame → Frame) : (d.modFrame st n r g).dvfs = d.dvfs := rfl
@[simp] theorem Dev.modFrame_host (st n : Nat) (r : Bool) (g : Frame → Frame) : (d.modFrame st n r g).host = d.host := rfl
@[simp] theorem Dev.modFrame_que (st n : Nat) (r : Bool) (g : Frame → Frame) : (d.modFrame st n r g).que = d.que := rfl
@[simp] theorem Dev.modFrame_dram (st n : Nat) (r : Bool) (g : Frame → Frame) : (d.modFrame st n r g).dram = d.dram := rfl
@[simp] theorem Dev.modFrame_recov (st n : Nat) (r : Bool) (g : Frame → Frame) : (d.modFrame st n r g).recov = d.recov := rfl
@[simp] theorem Dev.modFrame_fab (st n : Nat) (r : Bool) (g : Frame → Frame) : (d.modFrame st n r g).fab = d.fab := rfl
@[simp] theorem Dev.modFrame_pwr (st n : Nat) (r : Bool) (g : Frame → Frame) : (d.modFrame st n r g).pwr = d.pwr := rfl
@[simp] theorem Dev.modFrame_clk (st n : Nat) (r : Bool) (g : Frame → Frame) : (d.modFrame st n r g).clk = d.clk := rfl
@[simp] theorem Dev.modFrame_pins (st n : Nat) (r : Bool) (g : Frame → Frame) : (d.modFrame st n r g).pins = d.pins := rfl
@[simp] theorem Dev.modFrame_nv (st n : Nat) (r : Bool) (g : Frame → Frame) : (d.modFrame st n r g).nv = d.nv := rfl
@[simp] theorem Dev.modFrame_otp (st n : Nat) (r : Bool) (g : Frame → Frame) : (d.modFrame st n r g).otp = d.otp := rfl

/-! ### dropFrame -/

@[simp] theorem Dev.dropFrame_now (f : Frame) : (d.dropFrame f).now = d.now := rfl
@[simp] theorem Dev.dropFrame_freeCtr (f : Frame) : (d.dropFrame f).freeCtr = d.freeCtr := rfl
@[simp] theorem Dev.dropFrame_mem (f : Frame) : (d.dropFrame f).mem = d.mem := rfl
@[simp] theorem Dev.dropFrame_regs (f : Frame) : (d.dropFrame f).regs = d.regs := rfl
@[simp] theorem Dev.dropFrame_cores (f : Frame) : (d.dropFrame f).cores = d.cores := rfl
@[simp] theorem Dev.dropFrame_stool (f : Frame) : (d.dropFrame f).stool = d.stool := rfl
@[simp] theorem Dev.dropFrame_home (f : Frame) : (d.dropFrame f).home = d.home := rfl
@[simp] theorem Dev.dropFrame_bpm (f : Frame) : (d.dropFrame f).bpm = d.bpm := rfl
@[simp] theorem Dev.dropFrame_images (f : Frame) : (d.dropFrame f).images = d.images := rfl
@[simp] theorem Dev.dropFrame_ctxs (f : Frame) : (d.dropFrame f).ctxs = d.ctxs := rfl
@[simp] theorem Dev.dropFrame_streams (f : Frame) : (d.dropFrame f).streams = d.streams := rfl
@[simp] theorem Dev.dropFrame_sets (f : Frame) : (d.dropFrame f).sets = d.sets := rfl
@[simp] theorem Dev.dropFrame_readouts (f : Frame) : (d.dropFrame f).readouts = d.readouts := rfl
@[simp] theorem Dev.dropFrame_engines (f : Frame) : (d.dropFrame f).engines = d.engines := rfl
@[simp] theorem Dev.dropFrame_jpeg (f : Frame) : (d.dropFrame f).jpeg = d.jpeg := rfl
@[simp] theorem Dev.dropFrame_pipes (f : Frame) : (d.dropFrame f).pipes = d.pipes := rfl
@[simp] theorem Dev.dropFrame_ports (f : Frame) : (d.dropFrame f).ports = d.ports := rfl
@[simp] theorem Dev.dropFrame_gov (f : Frame) : (d.dropFrame f).gov = d.gov := rfl
@[simp] theorem Dev.dropFrame_dvfs (f : Frame) : (d.dropFrame f).dvfs = d.dvfs := rfl
@[simp] theorem Dev.dropFrame_host (f : Frame) : (d.dropFrame f).host = d.host := rfl
@[simp] theorem Dev.dropFrame_que (f : Frame) : (d.dropFrame f).que = d.que := rfl
@[simp] theorem Dev.dropFrame_dram (f : Frame) : (d.dropFrame f).dram = d.dram := rfl
@[simp] theorem Dev.dropFrame_recov (f : Frame) : (d.dropFrame f).recov = d.recov := rfl
@[simp] theorem Dev.dropFrame_fab (f : Frame) : (d.dropFrame f).fab = d.fab := rfl
@[simp] theorem Dev.dropFrame_pwr (f : Frame) : (d.dropFrame f).pwr = d.pwr := rfl
@[simp] theorem Dev.dropFrame_clk (f : Frame) : (d.dropFrame f).clk = d.clk := rfl
@[simp] theorem Dev.dropFrame_pins (f : Frame) : (d.dropFrame f).pins = d.pins := rfl
@[simp] theorem Dev.dropFrame_nv (f : Frame) : (d.dropFrame f).nv = d.nv := rfl
@[simp] theorem Dev.dropFrame_otp (f : Frame) : (d.dropFrame f).otp = d.otp := rfl

/-! ### out -/

@[simp] theorem Dev.out_now (w : DevWrite) : (d.out w).now = d.now := rfl
@[simp] theorem Dev.out_freeCtr (w : DevWrite) : (d.out w).freeCtr = d.freeCtr := rfl
@[simp] theorem Dev.out_mem (w : DevWrite) : (d.out w).mem = d.mem := rfl
@[simp] theorem Dev.out_regs (w : DevWrite) : (d.out w).regs = d.regs := rfl
@[simp] theorem Dev.out_cores (w : DevWrite) : (d.out w).cores = d.cores := rfl
@[simp] theorem Dev.out_stool (w : DevWrite) : (d.out w).stool = d.stool := rfl
@[simp] theorem Dev.out_home (w : DevWrite) : (d.out w).home = d.home := rfl
@[simp] theorem Dev.out_bpm (w : DevWrite) : (d.out w).bpm = d.bpm := rfl
@[simp] theorem Dev.out_images (w : DevWrite) : (d.out w).images = d.images := rfl
@[simp] theorem Dev.out_ctxs (w : DevWrite) : (d.out w).ctxs = d.ctxs := rfl
@[simp] theorem Dev.out_streams (w : DevWrite) : (d.out w).streams = d.streams := rfl
@[simp] theorem Dev.out_sets (w : DevWrite) : (d.out w).sets = d.sets := rfl
@[simp] theorem Dev.out_readouts (w : DevWrite) : (d.out w).readouts = d.readouts := rfl
@[simp] theorem Dev.out_engines (w : DevWrite) : (d.out w).engines = d.engines := rfl
@[simp] theorem Dev.out_jpeg (w : DevWrite) : (d.out w).jpeg = d.jpeg := rfl
@[simp] theorem Dev.out_pipes (w : DevWrite) : (d.out w).pipes = d.pipes := rfl
@[simp] theorem Dev.out_ports (w : DevWrite) : (d.out w).ports = d.ports := rfl
@[simp] theorem Dev.out_sched (w : DevWrite) : (d.out w).sched = d.sched := rfl
@[simp] theorem Dev.out_gov (w : DevWrite) : (d.out w).gov = d.gov := rfl
@[simp] theorem Dev.out_dvfs (w : DevWrite) : (d.out w).dvfs = d.dvfs := rfl
@[simp] theorem Dev.out_que (w : DevWrite) : (d.out w).que = d.que := rfl
@[simp] theorem Dev.out_dram (w : DevWrite) : (d.out w).dram = d.dram := rfl
@[simp] theorem Dev.out_recov (w : DevWrite) : (d.out w).recov = d.recov := rfl
@[simp] theorem Dev.out_fab (w : DevWrite) : (d.out w).fab = d.fab := rfl
@[simp] theorem Dev.out_pwr (w : DevWrite) : (d.out w).pwr = d.pwr := rfl
@[simp] theorem Dev.out_clk (w : DevWrite) : (d.out w).clk = d.clk := rfl
@[simp] theorem Dev.out_pins (w : DevWrite) : (d.out w).pins = d.pins := rfl
@[simp] theorem Dev.out_nv (w : DevWrite) : (d.out w).nv = d.nv := rfl
@[simp] theorem Dev.out_otp (w : DevWrite) : (d.out w).otp = d.otp := rfl

/-! ### modFport -/

@[simp] theorem Dev.modFport_now (k : Nat) (f : FabPort → FabPort) : (d.modFport k f).now = d.now := rfl
@[simp] theorem Dev.modFport_freeCtr (k : Nat) (f : FabPort → FabPort) : (d.modFport k f).freeCtr = d.freeCtr := rfl
@[simp] theorem Dev.modFport_mem (k : Nat) (f : FabPort → FabPort) : (d.modFport k f).mem = d.mem := rfl
@[simp] theorem Dev.modFport_regs (k : Nat) (f : FabPort → FabPort) : (d.modFport k f).regs = d.regs := rfl
@[simp] theorem Dev.modFport_cores (k : Nat) (f : FabPort → FabPort) : (d.modFport k f).cores = d.cores := rfl
@[simp] theorem Dev.modFport_stool (k : Nat) (f : FabPort → FabPort) : (d.modFport k f).stool = d.stool := rfl
@[simp] theorem Dev.modFport_home (k : Nat) (f : FabPort → FabPort) : (d.modFport k f).home = d.home := rfl
@[simp] theorem Dev.modFport_bpm (k : Nat) (f : FabPort → FabPort) : (d.modFport k f).bpm = d.bpm := rfl
@[simp] theorem Dev.modFport_images (k : Nat) (f : FabPort → FabPort) : (d.modFport k f).images = d.images := rfl
@[simp] theorem Dev.modFport_ctxs (k : Nat) (f : FabPort → FabPort) : (d.modFport k f).ctxs = d.ctxs := rfl
@[simp] theorem Dev.modFport_streams (k : Nat) (f : FabPort → FabPort) : (d.modFport k f).streams = d.streams := rfl
@[simp] theorem Dev.modFport_sets (k : Nat) (f : FabPort → FabPort) : (d.modFport k f).sets = d.sets := rfl
@[simp] theorem Dev.modFport_readouts (k : Nat) (f : FabPort → FabPort) : (d.modFport k f).readouts = d.readouts := rfl
@[simp] theorem Dev.modFport_engines (k : Nat) (f : FabPort → FabPort) : (d.modFport k f).engines = d.engines := rfl
@[simp] theorem Dev.modFport_jpeg (k : Nat) (f : FabPort → FabPort) : (d.modFport k f).jpeg = d.jpeg := rfl
@[simp] theorem Dev.modFport_pipes (k : Nat) (f : FabPort → FabPort) : (d.modFport k f).pipes = d.pipes := rfl
@[simp] theorem Dev.modFport_ports (k : Nat) (f : FabPort → FabPort) : (d.modFport k f).ports = d.ports := rfl
@[simp] theorem Dev.modFport_sched (k : Nat) (f : FabPort → FabPort) : (d.modFport k f).sched = d.sched := rfl
@[simp] theorem Dev.modFport_gov (k : Nat) (f : FabPort → FabPort) : (d.modFport k f).gov = d.gov := rfl
@[simp] theorem Dev.modFport_dvfs (k : Nat) (f : FabPort → FabPort) : (d.modFport k f).dvfs = d.dvfs := rfl
@[simp] theorem Dev.modFport_host (k : Nat) (f : FabPort → FabPort) : (d.modFport k f).host = d.host := rfl
@[simp] theorem Dev.modFport_que (k : Nat) (f : FabPort → FabPort) : (d.modFport k f).que = d.que := rfl
@[simp] theorem Dev.modFport_dram (k : Nat) (f : FabPort → FabPort) : (d.modFport k f).dram = d.dram := rfl
@[simp] theorem Dev.modFport_recov (k : Nat) (f : FabPort → FabPort) : (d.modFport k f).recov = d.recov := rfl
@[simp] theorem Dev.modFport_pwr (k : Nat) (f : FabPort → FabPort) : (d.modFport k f).pwr = d.pwr := rfl
@[simp] theorem Dev.modFport_clk (k : Nat) (f : FabPort → FabPort) : (d.modFport k f).clk = d.clk := rfl
@[simp] theorem Dev.modFport_pins (k : Nat) (f : FabPort → FabPort) : (d.modFport k f).pins = d.pins := rfl
@[simp] theorem Dev.modFport_nv (k : Nat) (f : FabPort → FabPort) : (d.modFport k f).nv = d.nv := rfl
@[simp] theorem Dev.modFport_otp (k : Nat) (f : FabPort → FabPort) : (d.modFport k f).otp = d.otp := rfl

/-! ### setPhase -/

@[simp] theorem Dev.setPhase_now (p : Phase) : (d.setPhase p).now = d.now := by simp [Dev.setPhase]
@[simp] theorem Dev.setPhase_freeCtr (p : Phase) : (d.setPhase p).freeCtr = d.freeCtr := by simp [Dev.setPhase]
@[simp] theorem Dev.setPhase_mem (p : Phase) : (d.setPhase p).mem = d.mem := by simp [Dev.setPhase]
@[simp] theorem Dev.setPhase_cores (p : Phase) : (d.setPhase p).cores = d.cores := by simp [Dev.setPhase]
@[simp] theorem Dev.setPhase_stool (p : Phase) : (d.setPhase p).stool = d.stool := by simp [Dev.setPhase]
@[simp] theorem Dev.setPhase_home (p : Phase) : (d.setPhase p).home = d.home := by simp [Dev.setPhase]
@[simp] theorem Dev.setPhase_bpm (p : Phase) : (d.setPhase p).bpm = d.bpm := by simp [Dev.setPhase]
@[simp] theorem Dev.setPhase_images (p : Phase) : (d.setPhase p).images = d.images := by simp [Dev.setPhase]
@[simp] theorem Dev.setPhase_ctxs (p : Phase) : (d.setPhase p).ctxs = d.ctxs := by simp [Dev.setPhase]
@[simp] theorem Dev.setPhase_streams (p : Phase) : (d.setPhase p).streams = d.streams := by simp [Dev.setPhase]
@[simp] theorem Dev.setPhase_sets (p : Phase) : (d.setPhase p).sets = d.sets := by simp [Dev.setPhase]
@[simp] theorem Dev.setPhase_readouts (p : Phase) : (d.setPhase p).readouts = d.readouts := by simp [Dev.setPhase]
@[simp] theorem Dev.setPhase_engines (p : Phase) : (d.setPhase p).engines = d.engines := by simp [Dev.setPhase]
@[simp] theorem Dev.setPhase_jpeg (p : Phase) : (d.setPhase p).jpeg = d.jpeg := by simp [Dev.setPhase]
@[simp] theorem Dev.setPhase_pipes (p : Phase) : (d.setPhase p).pipes = d.pipes := by simp [Dev.setPhase]
@[simp] theorem Dev.setPhase_ports (p : Phase) : (d.setPhase p).ports = d.ports := by simp [Dev.setPhase]
@[simp] theorem Dev.setPhase_sched (p : Phase) : (d.setPhase p).sched = d.sched := by simp [Dev.setPhase]
@[simp] theorem Dev.setPhase_gov (p : Phase) : (d.setPhase p).gov = d.gov := by simp [Dev.setPhase]
@[simp] theorem Dev.setPhase_dvfs (p : Phase) : (d.setPhase p).dvfs = d.dvfs := by simp [Dev.setPhase]
@[simp] theorem Dev.setPhase_host (p : Phase) : (d.setPhase p).host = d.host := by simp [Dev.setPhase]
@[simp] theorem Dev.setPhase_que (p : Phase) : (d.setPhase p).que = d.que := by simp [Dev.setPhase]
@[simp] theorem Dev.setPhase_dram (p : Phase) : (d.setPhase p).dram = d.dram := by simp [Dev.setPhase]
@[simp] theorem Dev.setPhase_recov (p : Phase) : (d.setPhase p).recov = d.recov := by simp [Dev.setPhase]
@[simp] theorem Dev.setPhase_fab (p : Phase) : (d.setPhase p).fab = d.fab := by simp [Dev.setPhase]
@[simp] theorem Dev.setPhase_clk (p : Phase) : (d.setPhase p).clk = d.clk := by simp [Dev.setPhase]
@[simp] theorem Dev.setPhase_pins (p : Phase) : (d.setPhase p).pins = d.pins := by simp [Dev.setPhase]
@[simp] theorem Dev.setPhase_nv (p : Phase) : (d.setPhase p).nv = d.nv := by simp [Dev.setPhase]
@[simp] theorem Dev.setPhase_otp (p : Phase) : (d.setPhase p).otp = d.otp := by simp [Dev.setPhase]

/-! ### setGroups -/

@[simp] theorem Dev.setGroups_now (n : Nat) : (d.setGroups n).now = d.now := rfl
@[simp] theorem Dev.setGroups_freeCtr (n : Nat) : (d.setGroups n).freeCtr = d.freeCtr := rfl
@[simp] theorem Dev.setGroups_mem (n : Nat) : (d.setGroups n).mem = d.mem := rfl
@[simp] theorem Dev.setGroups_regs (n : Nat) : (d.setGroups n).regs = d.regs := rfl
@[simp] theorem Dev.setGroups_cores (n : Nat) : (d.setGroups n).cores = d.cores := rfl
@[simp] theorem Dev.setGroups_stool (n : Nat) : (d.setGroups n).stool = d.stool := rfl
@[simp] theorem Dev.setGroups_home (n : Nat) : (d.setGroups n).home = d.home := rfl
@[simp] theorem Dev.setGroups_bpm (n : Nat) : (d.setGroups n).bpm = d.bpm := rfl
@[simp] theorem Dev.setGroups_images (n : Nat) : (d.setGroups n).images = d.images := rfl
@[simp] theorem Dev.setGroups_ctxs (n : Nat) : (d.setGroups n).ctxs = d.ctxs := rfl
@[simp] theorem Dev.setGroups_streams (n : Nat) : (d.setGroups n).streams = d.streams := rfl
@[simp] theorem Dev.setGroups_sets (n : Nat) : (d.setGroups n).sets = d.sets := rfl
@[simp] theorem Dev.setGroups_readouts (n : Nat) : (d.setGroups n).readouts = d.readouts := rfl
@[simp] theorem Dev.setGroups_engines (n : Nat) : (d.setGroups n).engines = d.engines := rfl
@[simp] theorem Dev.setGroups_jpeg (n : Nat) : (d.setGroups n).jpeg = d.jpeg := rfl
@[simp] theorem Dev.setGroups_pipes (n : Nat) : (d.setGroups n).pipes = d.pipes := rfl
@[simp] theorem Dev.setGroups_ports (n : Nat) : (d.setGroups n).ports = d.ports := rfl
@[simp] theorem Dev.setGroups_sched (n : Nat) : (d.setGroups n).sched = d.sched := rfl
@[simp] theorem Dev.setGroups_gov (n : Nat) : (d.setGroups n).gov = d.gov := rfl
@[simp] theorem Dev.setGroups_dvfs (n : Nat) : (d.setGroups n).dvfs = d.dvfs := rfl
@[simp] theorem Dev.setGroups_host (n : Nat) : (d.setGroups n).host = d.host := rfl
@[simp] theorem Dev.setGroups_que (n : Nat) : (d.setGroups n).que = d.que := rfl
@[simp] theorem Dev.setGroups_dram (n : Nat) : (d.setGroups n).dram = d.dram := rfl
@[simp] theorem Dev.setGroups_recov (n : Nat) : (d.setGroups n).recov = d.recov := rfl
@[simp] theorem Dev.setGroups_fab (n : Nat) : (d.setGroups n).fab = d.fab := rfl
@[simp] theorem Dev.setGroups_clk (n : Nat) : (d.setGroups n).clk = d.clk := rfl
@[simp] theorem Dev.setGroups_pins (n : Nat) : (d.setGroups n).pins = d.pins := rfl
@[simp] theorem Dev.setGroups_nv (n : Nat) : (d.setGroups n).nv = d.nv := rfl
@[simp] theorem Dev.setGroups_otp (n : Nat) : (d.setGroups n).otp = d.otp := rfl

/-! ### setEntering -/

@[simp] theorem Dev.setEntering_now (b : Bool) : (d.setEntering b).now = d.now := by simp [Dev.setEntering]
@[simp] theorem Dev.setEntering_freeCtr (b : Bool) : (d.setEntering b).freeCtr = d.freeCtr := by simp [Dev.setEntering]
@[simp] theorem Dev.setEntering_mem (b : Bool) : (d.setEntering b).mem = d.mem := by simp [Dev.setEntering]
@[simp] theorem Dev.setEntering_cores (b : Bool) : (d.setEntering b).cores = d.cores := by simp [Dev.setEntering]
@[simp] theorem Dev.setEntering_stool (b : Bool) : (d.setEntering b).stool = d.stool := by simp [Dev.setEntering]
@[simp] theorem Dev.setEntering_home (b : Bool) : (d.setEntering b).home = d.home := by simp [Dev.setEntering]
@[simp] theorem Dev.setEntering_bpm (b : Bool) : (d.setEntering b).bpm = d.bpm := by simp [Dev.setEntering]
@[simp] theorem Dev.setEntering_images (b : Bool) : (d.setEntering b).images = d.images := by simp [Dev.setEntering]
@[simp] theorem Dev.setEntering_ctxs (b : Bool) : (d.setEntering b).ctxs = d.ctxs := by simp [Dev.setEntering]
@[simp] theorem Dev.setEntering_streams (b : Bool) : (d.setEntering b).streams = d.streams := by simp [Dev.setEntering]
@[simp] theorem Dev.setEntering_sets (b : Bool) : (d.setEntering b).sets = d.sets := by simp [Dev.setEntering]
@[simp] theorem Dev.setEntering_readouts (b : Bool) : (d.setEntering b).readouts = d.readouts := by simp [Dev.setEntering]
@[simp] theorem Dev.setEntering_engines (b : Bool) : (d.setEntering b).engines = d.engines := by simp [Dev.setEntering]
@[simp] theorem Dev.setEntering_jpeg (b : Bool) : (d.setEntering b).jpeg = d.jpeg := by simp [Dev.setEntering]
@[simp] theorem Dev.setEntering_pipes (b : Bool) : (d.setEntering b).pipes = d.pipes := by simp [Dev.setEntering]
@[simp] theorem Dev.setEntering_ports (b : Bool) : (d.setEntering b).ports = d.ports := by simp [Dev.setEntering]
@[simp] theorem Dev.setEntering_sched (b : Bool) : (d.setEntering b).sched = d.sched := by simp [Dev.setEntering]
@[simp] theorem Dev.setEntering_gov (b : Bool) : (d.setEntering b).gov = d.gov := by simp [Dev.setEntering]
@[simp] theorem Dev.setEntering_dvfs (b : Bool) : (d.setEntering b).dvfs = d.dvfs := by simp [Dev.setEntering]
@[simp] theorem Dev.setEntering_host (b : Bool) : (d.setEntering b).host = d.host := by simp [Dev.setEntering]
@[simp] theorem Dev.setEntering_que (b : Bool) : (d.setEntering b).que = d.que := by simp [Dev.setEntering]
@[simp] theorem Dev.setEntering_dram (b : Bool) : (d.setEntering b).dram = d.dram := by simp [Dev.setEntering]
@[simp] theorem Dev.setEntering_recov (b : Bool) : (d.setEntering b).recov = d.recov := by simp [Dev.setEntering]
@[simp] theorem Dev.setEntering_fab (b : Bool) : (d.setEntering b).fab = d.fab := by simp [Dev.setEntering]
@[simp] theorem Dev.setEntering_pwr (b : Bool) : (d.setEntering b).pwr = d.pwr := by simp [Dev.setEntering]
@[simp] theorem Dev.setEntering_clk (b : Bool) : (d.setEntering b).clk = d.clk := by simp [Dev.setEntering]
@[simp] theorem Dev.setEntering_pins (b : Bool) : (d.setEntering b).pins = d.pins := by simp [Dev.setEntering]
@[simp] theorem Dev.setEntering_nv (b : Bool) : (d.setEntering b).nv = d.nv := by simp [Dev.setEntering]
@[simp] theorem Dev.setEntering_otp (b : Bool) : (d.setEntering b).otp = d.otp := by simp [Dev.setEntering]

/-! ### setCfg -/

@[simp] theorem Dev.setCfg_now (f : CfgSpace → CfgSpace) : (d.setCfg f).now = d.now := rfl
@[simp] theorem Dev.setCfg_freeCtr (f : CfgSpace → CfgSpace) : (d.setCfg f).freeCtr = d.freeCtr := rfl
@[simp] theorem Dev.setCfg_mem (f : CfgSpace → CfgSpace) : (d.setCfg f).mem = d.mem := rfl
@[simp] theorem Dev.setCfg_regs (f : CfgSpace → CfgSpace) : (d.setCfg f).regs = d.regs := rfl
@[simp] theorem Dev.setCfg_cores (f : CfgSpace → CfgSpace) : (d.setCfg f).cores = d.cores := rfl
@[simp] theorem Dev.setCfg_stool (f : CfgSpace → CfgSpace) : (d.setCfg f).stool = d.stool := rfl
@[simp] theorem Dev.setCfg_home (f : CfgSpace → CfgSpace) : (d.setCfg f).home = d.home := rfl
@[simp] theorem Dev.setCfg_bpm (f : CfgSpace → CfgSpace) : (d.setCfg f).bpm = d.bpm := rfl
@[simp] theorem Dev.setCfg_images (f : CfgSpace → CfgSpace) : (d.setCfg f).images = d.images := rfl
@[simp] theorem Dev.setCfg_ctxs (f : CfgSpace → CfgSpace) : (d.setCfg f).ctxs = d.ctxs := rfl
@[simp] theorem Dev.setCfg_streams (f : CfgSpace → CfgSpace) : (d.setCfg f).streams = d.streams := rfl
@[simp] theorem Dev.setCfg_sets (f : CfgSpace → CfgSpace) : (d.setCfg f).sets = d.sets := rfl
@[simp] theorem Dev.setCfg_readouts (f : CfgSpace → CfgSpace) : (d.setCfg f).readouts = d.readouts := rfl
@[simp] theorem Dev.setCfg_engines (f : CfgSpace → CfgSpace) : (d.setCfg f).engines = d.engines := rfl
@[simp] theorem Dev.setCfg_jpeg (f : CfgSpace → CfgSpace) : (d.setCfg f).jpeg = d.jpeg := rfl
@[simp] theorem Dev.setCfg_pipes (f : CfgSpace → CfgSpace) : (d.setCfg f).pipes = d.pipes := rfl
@[simp] theorem Dev.setCfg_ports (f : CfgSpace → CfgSpace) : (d.setCfg f).ports = d.ports := rfl
@[simp] theorem Dev.setCfg_sched (f : CfgSpace → CfgSpace) : (d.setCfg f).sched = d.sched := rfl
@[simp] theorem Dev.setCfg_gov (f : CfgSpace → CfgSpace) : (d.setCfg f).gov = d.gov := rfl
@[simp] theorem Dev.setCfg_dvfs (f : CfgSpace → CfgSpace) : (d.setCfg f).dvfs = d.dvfs := rfl
@[simp] theorem Dev.setCfg_que (f : CfgSpace → CfgSpace) : (d.setCfg f).que = d.que := rfl
@[simp] theorem Dev.setCfg_dram (f : CfgSpace → CfgSpace) : (d.setCfg f).dram = d.dram := rfl
@[simp] theorem Dev.setCfg_recov (f : CfgSpace → CfgSpace) : (d.setCfg f).recov = d.recov := rfl
@[simp] theorem Dev.setCfg_fab (f : CfgSpace → CfgSpace) : (d.setCfg f).fab = d.fab := rfl
@[simp] theorem Dev.setCfg_pwr (f : CfgSpace → CfgSpace) : (d.setCfg f).pwr = d.pwr := rfl
@[simp] theorem Dev.setCfg_clk (f : CfgSpace → CfgSpace) : (d.setCfg f).clk = d.clk := rfl
@[simp] theorem Dev.setCfg_pins (f : CfgSpace → CfgSpace) : (d.setCfg f).pins = d.pins := rfl
@[simp] theorem Dev.setCfg_nv (f : CfgSpace → CfgSpace) : (d.setCfg f).nv = d.nv := rfl
@[simp] theorem Dev.setCfg_otp (f : CfgSpace → CfgSpace) : (d.setCfg f).otp = d.otp := rfl

/-! ### setD3 -/

@[simp] theorem Dev.setD3_now (b : Bool) : (d.setD3 b).now = d.now := rfl
@[simp] theorem Dev.setD3_freeCtr (b : Bool) : (d.setD3 b).freeCtr = d.freeCtr := rfl
@[simp] theorem Dev.setD3_mem (b : Bool) : (d.setD3 b).mem = d.mem := rfl
@[simp] theorem Dev.setD3_regs (b : Bool) : (d.setD3 b).regs = d.regs := rfl
@[simp] theorem Dev.setD3_cores (b : Bool) : (d.setD3 b).cores = d.cores := rfl
@[simp] theorem Dev.setD3_stool (b : Bool) : (d.setD3 b).stool = d.stool := rfl
@[simp] theorem Dev.setD3_home (b : Bool) : (d.setD3 b).home = d.home := rfl
@[simp] theorem Dev.setD3_bpm (b : Bool) : (d.setD3 b).bpm = d.bpm := rfl
@[simp] theorem Dev.setD3_images (b : Bool) : (d.setD3 b).images = d.images := rfl
@[simp] theorem Dev.setD3_ctxs (b : Bool) : (d.setD3 b).ctxs = d.ctxs := rfl
@[simp] theorem Dev.setD3_streams (b : Bool) : (d.setD3 b).streams = d.streams := rfl
@[simp] theorem Dev.setD3_sets (b : Bool) : (d.setD3 b).sets = d.sets := rfl
@[simp] theorem Dev.setD3_readouts (b : Bool) : (d.setD3 b).readouts = d.readouts := rfl
@[simp] theorem Dev.setD3_engines (b : Bool) : (d.setD3 b).engines = d.engines := rfl
@[simp] theorem Dev.setD3_jpeg (b : Bool) : (d.setD3 b).jpeg = d.jpeg := rfl
@[simp] theorem Dev.setD3_pipes (b : Bool) : (d.setD3 b).pipes = d.pipes := rfl
@[simp] theorem Dev.setD3_ports (b : Bool) : (d.setD3 b).ports = d.ports := rfl
@[simp] theorem Dev.setD3_sched (b : Bool) : (d.setD3 b).sched = d.sched := rfl
@[simp] theorem Dev.setD3_gov (b : Bool) : (d.setD3 b).gov = d.gov := rfl
@[simp] theorem Dev.setD3_dvfs (b : Bool) : (d.setD3 b).dvfs = d.dvfs := rfl
@[simp] theorem Dev.setD3_que (b : Bool) : (d.setD3 b).que = d.que := rfl
@[simp] theorem Dev.setD3_dram (b : Bool) : (d.setD3 b).dram = d.dram := rfl
@[simp] theorem Dev.setD3_recov (b : Bool) : (d.setD3 b).recov = d.recov := rfl
@[simp] theorem Dev.setD3_fab (b : Bool) : (d.setD3 b).fab = d.fab := rfl
@[simp] theorem Dev.setD3_pwr (b : Bool) : (d.setD3 b).pwr = d.pwr := rfl
@[simp] theorem Dev.setD3_clk (b : Bool) : (d.setD3 b).clk = d.clk := rfl
@[simp] theorem Dev.setD3_pins (b : Bool) : (d.setD3 b).pins = d.pins := rfl
@[simp] theorem Dev.setD3_nv (b : Bool) : (d.setD3 b).nv = d.nv := rfl
@[simp] theorem Dev.setD3_otp (b : Bool) : (d.setD3 b).otp = d.otp := rfl

/-! ### logRaw -/

@[simp] theorem Dev.logRaw_now (e : LogEntry) : (d.logRaw e).now = d.now := by simp [Dev.logRaw]
@[simp] theorem Dev.logRaw_freeCtr (e : LogEntry) : (d.logRaw e).freeCtr = d.freeCtr := by simp [Dev.logRaw]
@[simp] theorem Dev.logRaw_mem (e : LogEntry) : (d.logRaw e).mem = d.mem := by simp [Dev.logRaw]
@[simp] theorem Dev.logRaw_cores (e : LogEntry) : (d.logRaw e).cores = d.cores := by simp [Dev.logRaw]
@[simp] theorem Dev.logRaw_stool (e : LogEntry) : (d.logRaw e).stool = d.stool := by simp [Dev.logRaw]
@[simp] theorem Dev.logRaw_home (e : LogEntry) : (d.logRaw e).home = d.home := by simp [Dev.logRaw]
@[simp] theorem Dev.logRaw_bpm (e : LogEntry) : (d.logRaw e).bpm = d.bpm := by simp [Dev.logRaw]
@[simp] theorem Dev.logRaw_images (e : LogEntry) : (d.logRaw e).images = d.images := by simp [Dev.logRaw]
@[simp] theorem Dev.logRaw_ctxs (e : LogEntry) : (d.logRaw e).ctxs = d.ctxs := by simp [Dev.logRaw]
@[simp] theorem Dev.logRaw_streams (e : LogEntry) : (d.logRaw e).streams = d.streams := by simp [Dev.logRaw]
@[simp] theorem Dev.logRaw_sets (e : LogEntry) : (d.logRaw e).sets = d.sets := by simp [Dev.logRaw]
@[simp] theorem Dev.logRaw_readouts (e : LogEntry) : (d.logRaw e).readouts = d.readouts := by simp [Dev.logRaw]
@[simp] theorem Dev.logRaw_engines (e : LogEntry) : (d.logRaw e).engines = d.engines := by simp [Dev.logRaw]
@[simp] theorem Dev.logRaw_jpeg (e : LogEntry) : (d.logRaw e).jpeg = d.jpeg := by simp [Dev.logRaw]
@[simp] theorem Dev.logRaw_pipes (e : LogEntry) : (d.logRaw e).pipes = d.pipes := by simp [Dev.logRaw]
@[simp] theorem Dev.logRaw_ports (e : LogEntry) : (d.logRaw e).ports = d.ports := by simp [Dev.logRaw]
@[simp] theorem Dev.logRaw_sched (e : LogEntry) : (d.logRaw e).sched = d.sched := by simp [Dev.logRaw]
@[simp] theorem Dev.logRaw_gov (e : LogEntry) : (d.logRaw e).gov = d.gov := by simp [Dev.logRaw]
@[simp] theorem Dev.logRaw_dvfs (e : LogEntry) : (d.logRaw e).dvfs = d.dvfs := by simp [Dev.logRaw]
@[simp] theorem Dev.logRaw_host (e : LogEntry) : (d.logRaw e).host = d.host := by simp [Dev.logRaw]
@[simp] theorem Dev.logRaw_que (e : LogEntry) : (d.logRaw e).que = d.que := by simp [Dev.logRaw]
@[simp] theorem Dev.logRaw_dram (e : LogEntry) : (d.logRaw e).dram = d.dram := by simp [Dev.logRaw]
@[simp] theorem Dev.logRaw_fab (e : LogEntry) : (d.logRaw e).fab = d.fab := by simp [Dev.logRaw]
@[simp] theorem Dev.logRaw_pwr (e : LogEntry) : (d.logRaw e).pwr = d.pwr := by simp [Dev.logRaw]
@[simp] theorem Dev.logRaw_clk (e : LogEntry) : (d.logRaw e).clk = d.clk := by simp [Dev.logRaw]
@[simp] theorem Dev.logRaw_pins (e : LogEntry) : (d.logRaw e).pins = d.pins := by simp [Dev.logRaw]
@[simp] theorem Dev.logRaw_nv (e : LogEntry) : (d.logRaw e).nv = d.nv := by simp [Dev.logRaw]
@[simp] theorem Dev.logRaw_otp (e : LogEntry) : (d.logRaw e).otp = d.otp := by simp [Dev.logRaw]

/-! ### send -/

@[simp] theorem Dev.send_now (w : DevWrite) : (d.send w).now = d.now := by unfold Dev.send; split <;> simp
@[simp] theorem Dev.send_freeCtr (w : DevWrite) : (d.send w).freeCtr = d.freeCtr := by unfold Dev.send; split <;> simp
@[simp] theorem Dev.send_mem (w : DevWrite) : (d.send w).mem = d.mem := by unfold Dev.send; split <;> simp
@[simp] theorem Dev.send_regs (w : DevWrite) : (d.send w).regs = d.regs := by unfold Dev.send; split <;> simp
@[simp] theorem Dev.send_cores (w : DevWrite) : (d.send w).cores = d.cores := by unfold Dev.send; split <;> simp
@[simp] theorem Dev.send_stool (w : DevWrite) : (d.send w).stool = d.stool := by unfold Dev.send; split <;> simp
@[simp] theorem Dev.send_home (w : DevWrite) : (d.send w).home = d.home := by unfold Dev.send; split <;> simp
@[simp] theorem Dev.send_bpm (w : DevWrite) : (d.send w).bpm = d.bpm := by unfold Dev.send; split <;> simp
@[simp] theorem Dev.send_images (w : DevWrite) : (d.send w).images = d.images := by unfold Dev.send; split <;> simp
@[simp] theorem Dev.send_ctxs (w : DevWrite) : (d.send w).ctxs = d.ctxs := by unfold Dev.send; split <;> simp
@[simp] theorem Dev.send_streams (w : DevWrite) : (d.send w).streams = d.streams := by unfold Dev.send; split <;> simp
@[simp] theorem Dev.send_sets (w : DevWrite) : (d.send w).sets = d.sets := by unfold Dev.send; split <;> simp
@[simp] theorem Dev.send_readouts (w : DevWrite) : (d.send w).readouts = d.readouts := by unfold Dev.send; split <;> simp
@[simp] theorem Dev.send_engines (w : DevWrite) : (d.send w).engines = d.engines := by unfold Dev.send; split <;> simp
@[simp] theorem Dev.send_jpeg (w : DevWrite) : (d.send w).jpeg = d.jpeg := by unfold Dev.send; split <;> simp
@[simp] theorem Dev.send_pipes (w : DevWrite) : (d.send w).pipes = d.pipes := by unfold Dev.send; split <;> simp
@[simp] theorem Dev.send_ports (w : DevWrite) : (d.send w).ports = d.ports := by unfold Dev.send; split <;> simp
@[simp] theorem Dev.send_sched (w : DevWrite) : (d.send w).sched = d.sched := by unfold Dev.send; split <;> simp
@[simp] theorem Dev.send_gov (w : DevWrite) : (d.send w).gov = d.gov := by unfold Dev.send; split <;> simp
@[simp] theorem Dev.send_dvfs (w : DevWrite) : (d.send w).dvfs = d.dvfs := by unfold Dev.send; split <;> simp
@[simp] theorem Dev.send_que (w : DevWrite) : (d.send w).que = d.que := by unfold Dev.send; split <;> simp
@[simp] theorem Dev.send_dram (w : DevWrite) : (d.send w).dram = d.dram := by unfold Dev.send; split <;> simp
@[simp] theorem Dev.send_recov (w : DevWrite) : (d.send w).recov = d.recov := by unfold Dev.send; split <;> simp
@[simp] theorem Dev.send_fab (w : DevWrite) : (d.send w).fab = d.fab := by unfold Dev.send; split <;> simp
@[simp] theorem Dev.send_pwr (w : DevWrite) : (d.send w).pwr = d.pwr := by unfold Dev.send; split <;> simp
@[simp] theorem Dev.send_clk (w : DevWrite) : (d.send w).clk = d.clk := by unfold Dev.send; split <;> simp
@[simp] theorem Dev.send_pins (w : DevWrite) : (d.send w).pins = d.pins := by unfold Dev.send; split <;> simp
@[simp] theorem Dev.send_nv (w : DevWrite) : (d.send w).nv = d.nv := by unfold Dev.send; split <;> simp
@[simp] theorem Dev.send_otp (w : DevWrite) : (d.send w).otp = d.otp := by unfold Dev.send; split <;> simp

/-! ### raiseVec -/

@[simp] theorem Dev.raiseVec_now (v : Nat) : (d.raiseVec v).now = d.now := by unfold Dev.raiseVec; split; split; all_goals simp
@[simp] theorem Dev.raiseVec_freeCtr (v : Nat) : (d.raiseVec v).freeCtr = d.freeCtr := by unfold Dev.raiseVec; split; split; all_goals simp
@[simp] theorem Dev.raiseVec_mem (v : Nat) : (d.raiseVec v).mem = d.mem := by unfold Dev.raiseVec; split; split; all_goals simp
@[simp] theorem Dev.raiseVec_regs (v : Nat) : (d.raiseVec v).regs = d.regs := by unfold Dev.raiseVec; split; split; all_goals simp
@[simp] theorem Dev.raiseVec_cores (v : Nat) : (d.raiseVec v).cores = d.cores := by unfold Dev.raiseVec; split; split; all_goals simp
@[simp] theorem Dev.raiseVec_stool (v : Nat) : (d.raiseVec v).stool = d.stool := by unfold Dev.raiseVec; split; split; all_goals simp
@[simp] theorem Dev.raiseVec_home (v : Nat) : (d.raiseVec v).home = d.home := by unfold Dev.raiseVec; split; split; all_goals simp
@[simp] theorem Dev.raiseVec_bpm (v : Nat) : (d.raiseVec v).bpm = d.bpm := by unfold Dev.raiseVec; split; split; all_goals simp
@[simp] theorem Dev.raiseVec_images (v : Nat) : (d.raiseVec v).images = d.images := by unfold Dev.raiseVec; split; split; all_goals simp
@[simp] theorem Dev.raiseVec_ctxs (v : Nat) : (d.raiseVec v).ctxs = d.ctxs := by unfold Dev.raiseVec; split; split; all_goals simp
@[simp] theorem Dev.raiseVec_streams (v : Nat) : (d.raiseVec v).streams = d.streams := by unfold Dev.raiseVec; split; split; all_goals simp
@[simp] theorem Dev.raiseVec_sets (v : Nat) : (d.raiseVec v).sets = d.sets := by unfold Dev.raiseVec; split; split; all_goals simp
@[simp] theorem Dev.raiseVec_readouts (v : Nat) : (d.raiseVec v).readouts = d.readouts := by unfold Dev.raiseVec; split; split; all_goals simp
@[simp] theorem Dev.raiseVec_engines (v : Nat) : (d.raiseVec v).engines = d.engines := by unfold Dev.raiseVec; split; split; all_goals simp
@[simp] theorem Dev.raiseVec_jpeg (v : Nat) : (d.raiseVec v).jpeg = d.jpeg := by unfold Dev.raiseVec; split; split; all_goals simp
@[simp] theorem Dev.raiseVec_pipes (v : Nat) : (d.raiseVec v).pipes = d.pipes := by unfold Dev.raiseVec; split; split; all_goals simp
@[simp] theorem Dev.raiseVec_ports (v : Nat) : (d.raiseVec v).ports = d.ports := by unfold Dev.raiseVec; split; split; all_goals simp
@[simp] theorem Dev.raiseVec_sched (v : Nat) : (d.raiseVec v).sched = d.sched := by unfold Dev.raiseVec; split; split; all_goals simp
@[simp] theorem Dev.raiseVec_gov (v : Nat) : (d.raiseVec v).gov = d.gov := by unfold Dev.raiseVec; split; split; all_goals simp
@[simp] theorem Dev.raiseVec_dvfs (v : Nat) : (d.raiseVec v).dvfs = d.dvfs := by unfold Dev.raiseVec; split; split; all_goals simp
@[simp] theorem Dev.raiseVec_que (v : Nat) : (d.raiseVec v).que = d.que := by unfold Dev.raiseVec; split; split; all_goals simp
@[simp] theorem Dev.raiseVec_dram (v : Nat) : (d.raiseVec v).dram = d.dram := by unfold Dev.raiseVec; split; split; all_goals simp
@[simp] theorem Dev.raiseVec_recov (v : Nat) : (d.raiseVec v).recov = d.recov := by unfold Dev.raiseVec; split; split; all_goals simp
@[simp] theorem Dev.raiseVec_fab (v : Nat) : (d.raiseVec v).fab = d.fab := by unfold Dev.raiseVec; split; split; all_goals simp
@[simp] theorem Dev.raiseVec_pwr (v : Nat) : (d.raiseVec v).pwr = d.pwr := by unfold Dev.raiseVec; split; split; all_goals simp
@[simp] theorem Dev.raiseVec_clk (v : Nat) : (d.raiseVec v).clk = d.clk := by unfold Dev.raiseVec; split; split; all_goals simp
@[simp] theorem Dev.raiseVec_pins (v : Nat) : (d.raiseVec v).pins = d.pins := by unfold Dev.raiseVec; split; split; all_goals simp
@[simp] theorem Dev.raiseVec_nv (v : Nat) : (d.raiseVec v).nv = d.nv := by unfold Dev.raiseVec; split; split; all_goals simp
@[simp] theorem Dev.raiseVec_otp (v : Nat) : (d.raiseVec v).otp = d.otp := by unfold Dev.raiseVec; split; split; all_goals simp

/-! ### hifErr -/

@[simp] theorem Dev.hifErr_now (f : Fld) : (d.hifErr f).now = d.now := by unfold Dev.hifErr; split <;> simp
@[simp] theorem Dev.hifErr_freeCtr (f : Fld) : (d.hifErr f).freeCtr = d.freeCtr := by unfold Dev.hifErr; split <;> simp
@[simp] theorem Dev.hifErr_mem (f : Fld) : (d.hifErr f).mem = d.mem := by unfold Dev.hifErr; split <;> simp
@[simp] theorem Dev.hifErr_cores (f : Fld) : (d.hifErr f).cores = d.cores := by unfold Dev.hifErr; split <;> simp
@[simp] theorem Dev.hifErr_stool (f : Fld) : (d.hifErr f).stool = d.stool := by unfold Dev.hifErr; split <;> simp
@[simp] theorem Dev.hifErr_home (f : Fld) : (d.hifErr f).home = d.home := by unfold Dev.hifErr; split <;> simp
@[simp] theorem Dev.hifErr_bpm (f : Fld) : (d.hifErr f).bpm = d.bpm := by unfold Dev.hifErr; split <;> simp
@[simp] theorem Dev.hifErr_images (f : Fld) : (d.hifErr f).images = d.images := by unfold Dev.hifErr; split <;> simp
@[simp] theorem Dev.hifErr_ctxs (f : Fld) : (d.hifErr f).ctxs = d.ctxs := by unfold Dev.hifErr; split <;> simp
@[simp] theorem Dev.hifErr_streams (f : Fld) : (d.hifErr f).streams = d.streams := by unfold Dev.hifErr; split <;> simp
@[simp] theorem Dev.hifErr_sets (f : Fld) : (d.hifErr f).sets = d.sets := by unfold Dev.hifErr; split <;> simp
@[simp] theorem Dev.hifErr_readouts (f : Fld) : (d.hifErr f).readouts = d.readouts := by unfold Dev.hifErr; split <;> simp
@[simp] theorem Dev.hifErr_engines (f : Fld) : (d.hifErr f).engines = d.engines := by unfold Dev.hifErr; split <;> simp
@[simp] theorem Dev.hifErr_jpeg (f : Fld) : (d.hifErr f).jpeg = d.jpeg := by unfold Dev.hifErr; split <;> simp
@[simp] theorem Dev.hifErr_pipes (f : Fld) : (d.hifErr f).pipes = d.pipes := by unfold Dev.hifErr; split <;> simp
@[simp] theorem Dev.hifErr_ports (f : Fld) : (d.hifErr f).ports = d.ports := by unfold Dev.hifErr; split <;> simp
@[simp] theorem Dev.hifErr_sched (f : Fld) : (d.hifErr f).sched = d.sched := by unfold Dev.hifErr; split <;> simp
@[simp] theorem Dev.hifErr_gov (f : Fld) : (d.hifErr f).gov = d.gov := by unfold Dev.hifErr; split <;> simp
@[simp] theorem Dev.hifErr_dvfs (f : Fld) : (d.hifErr f).dvfs = d.dvfs := by unfold Dev.hifErr; split <;> simp
@[simp] theorem Dev.hifErr_que (f : Fld) : (d.hifErr f).que = d.que := by unfold Dev.hifErr; split <;> simp
@[simp] theorem Dev.hifErr_dram (f : Fld) : (d.hifErr f).dram = d.dram := by unfold Dev.hifErr; split <;> simp
@[simp] theorem Dev.hifErr_recov (f : Fld) : (d.hifErr f).recov = d.recov := by unfold Dev.hifErr; split <;> simp
@[simp] theorem Dev.hifErr_fab (f : Fld) : (d.hifErr f).fab = d.fab := by unfold Dev.hifErr; split <;> simp
@[simp] theorem Dev.hifErr_pwr (f : Fld) : (d.hifErr f).pwr = d.pwr := by unfold Dev.hifErr; split <;> simp
@[simp] theorem Dev.hifErr_clk (f : Fld) : (d.hifErr f).clk = d.clk := by unfold Dev.hifErr; split <;> simp
@[simp] theorem Dev.hifErr_pins (f : Fld) : (d.hifErr f).pins = d.pins := by unfold Dev.hifErr; split <;> simp
@[simp] theorem Dev.hifErr_nv (f : Fld) : (d.hifErr f).nv = d.nv := by unfold Dev.hifErr; split <;> simp
@[simp] theorem Dev.hifErr_otp (f : Fld) : (d.hifErr f).otp = d.otp := by unfold Dev.hifErr; split <;> simp

/-! ### tokAdd -/

@[simp] theorem Dev.tokAdd_now (c t n : Nat) : (d.tokAdd c t n).now = d.now := by unfold Dev.tokAdd; simp only []; split <;> simp
@[simp] theorem Dev.tokAdd_freeCtr (c t n : Nat) : (d.tokAdd c t n).freeCtr = d.freeCtr := by unfold Dev.tokAdd; simp only []; split <;> simp
@[simp] theorem Dev.tokAdd_mem (c t n : Nat) : (d.tokAdd c t n).mem = d.mem := by unfold Dev.tokAdd; simp only []; split <;> simp
@[simp] theorem Dev.tokAdd_stool (c t n : Nat) : (d.tokAdd c t n).stool = d.stool := by unfold Dev.tokAdd; simp only []; split <;> simp
@[simp] theorem Dev.tokAdd_home (c t n : Nat) : (d.tokAdd c t n).home = d.home := by unfold Dev.tokAdd; simp only []; split <;> simp
@[simp] theorem Dev.tokAdd_bpm (c t n : Nat) : (d.tokAdd c t n).bpm = d.bpm := by unfold Dev.tokAdd; simp only []; split <;> simp
@[simp] theorem Dev.tokAdd_images (c t n : Nat) : (d.tokAdd c t n).images = d.images := by unfold Dev.tokAdd; simp only []; split <;> simp
@[simp] theorem Dev.tokAdd_ctxs (c t n : Nat) : (d.tokAdd c t n).ctxs = d.ctxs := by unfold Dev.tokAdd; simp only []; split <;> simp
@[simp] theorem Dev.tokAdd_streams (c t n : Nat) : (d.tokAdd c t n).streams = d.streams := by unfold Dev.tokAdd; simp only []; split <;> simp
@[simp] theorem Dev.tokAdd_sets (c t n : Nat) : (d.tokAdd c t n).sets = d.sets := by unfold Dev.tokAdd; simp only []; split <;> simp
@[simp] theorem Dev.tokAdd_readouts (c t n : Nat) : (d.tokAdd c t n).readouts = d.readouts := by unfold Dev.tokAdd; simp only []; split <;> simp
@[simp] theorem Dev.tokAdd_engines (c t n : Nat) : (d.tokAdd c t n).engines = d.engines := by unfold Dev.tokAdd; simp only []; split <;> simp
@[simp] theorem Dev.tokAdd_jpeg (c t n : Nat) : (d.tokAdd c t n).jpeg = d.jpeg := by unfold Dev.tokAdd; simp only []; split <;> simp
@[simp] theorem Dev.tokAdd_pipes (c t n : Nat) : (d.tokAdd c t n).pipes = d.pipes := by unfold Dev.tokAdd; simp only []; split <;> simp
@[simp] theorem Dev.tokAdd_ports (c t n : Nat) : (d.tokAdd c t n).ports = d.ports := by unfold Dev.tokAdd; simp only []; split <;> simp
@[simp] theorem Dev.tokAdd_sched (c t n : Nat) : (d.tokAdd c t n).sched = d.sched := by unfold Dev.tokAdd; simp only []; split <;> simp
@[simp] theorem Dev.tokAdd_gov (c t n : Nat) : (d.tokAdd c t n).gov = d.gov := by unfold Dev.tokAdd; simp only []; split <;> simp
@[simp] theorem Dev.tokAdd_dvfs (c t n : Nat) : (d.tokAdd c t n).dvfs = d.dvfs := by unfold Dev.tokAdd; simp only []; split <;> simp
@[simp] theorem Dev.tokAdd_host (c t n : Nat) : (d.tokAdd c t n).host = d.host := by unfold Dev.tokAdd; simp only []; split <;> simp
@[simp] theorem Dev.tokAdd_que (c t n : Nat) : (d.tokAdd c t n).que = d.que := by unfold Dev.tokAdd; simp only []; split <;> simp
@[simp] theorem Dev.tokAdd_dram (c t n : Nat) : (d.tokAdd c t n).dram = d.dram := by unfold Dev.tokAdd; simp only []; split <;> simp
@[simp] theorem Dev.tokAdd_recov (c t n : Nat) : (d.tokAdd c t n).recov = d.recov := by unfold Dev.tokAdd; simp only []; split <;> simp
@[simp] theorem Dev.tokAdd_fab (c t n : Nat) : (d.tokAdd c t n).fab = d.fab := by unfold Dev.tokAdd; simp only []; split <;> simp
@[simp] theorem Dev.tokAdd_pwr (c t n : Nat) : (d.tokAdd c t n).pwr = d.pwr := by unfold Dev.tokAdd; simp only []; split <;> simp
@[simp] theorem Dev.tokAdd_clk (c t n : Nat) : (d.tokAdd c t n).clk = d.clk := by unfold Dev.tokAdd; simp only []; split <;> simp
@[simp] theorem Dev.tokAdd_pins (c t n : Nat) : (d.tokAdd c t n).pins = d.pins := by unfold Dev.tokAdd; simp only []; split <;> simp
@[simp] theorem Dev.tokAdd_nv (c t n : Nat) : (d.tokAdd c t n).nv = d.nv := by unfold Dev.tokAdd; simp only []; split <;> simp
@[simp] theorem Dev.tokAdd_otp (c t n : Nat) : (d.tokAdd c t n).otp = d.otp := by unfold Dev.tokAdd; simp only []; split <;> simp

/-! ### setTag -/

@[simp] theorem Dev.setTag_now (c : Nat) (t : TagRef) (v : TagState) : (d.setTag c t v).now = d.now := by unfold Dev.setTag; split <;> simp
@[simp] theorem Dev.setTag_freeCtr (c : Nat) (t : TagRef) (v : TagState) : (d.setTag c t v).freeCtr = d.freeCtr := by unfold Dev.setTag; split <;> simp
@[simp] theorem Dev.setTag_mem (c : Nat) (t : TagRef) (v : TagState) : (d.setTag c t v).mem = d.mem := by unfold Dev.setTag; split <;> simp
@[simp] theorem Dev.setTag_regs (c : Nat) (t : TagRef) (v : TagState) : (d.setTag c t v).regs = d.regs := by unfold Dev.setTag; split <;> simp
@[simp] theorem Dev.setTag_stool (c : Nat) (t : TagRef) (v : TagState) : (d.setTag c t v).stool = d.stool := by unfold Dev.setTag; split <;> simp
@[simp] theorem Dev.setTag_bpm (c : Nat) (t : TagRef) (v : TagState) : (d.setTag c t v).bpm = d.bpm := by unfold Dev.setTag; split <;> simp
@[simp] theorem Dev.setTag_images (c : Nat) (t : TagRef) (v : TagState) : (d.setTag c t v).images = d.images := by unfold Dev.setTag; split <;> simp
@[simp] theorem Dev.setTag_ctxs (c : Nat) (t : TagRef) (v : TagState) : (d.setTag c t v).ctxs = d.ctxs := by unfold Dev.setTag; split <;> simp
@[simp] theorem Dev.setTag_streams (c : Nat) (t : TagRef) (v : TagState) : (d.setTag c t v).streams = d.streams := by unfold Dev.setTag; split <;> simp
@[simp] theorem Dev.setTag_sets (c : Nat) (t : TagRef) (v : TagState) : (d.setTag c t v).sets = d.sets := by unfold Dev.setTag; split <;> simp
@[simp] theorem Dev.setTag_readouts (c : Nat) (t : TagRef) (v : TagState) : (d.setTag c t v).readouts = d.readouts := by unfold Dev.setTag; split <;> simp
@[simp] theorem Dev.setTag_engines (c : Nat) (t : TagRef) (v : TagState) : (d.setTag c t v).engines = d.engines := by unfold Dev.setTag; split <;> simp
@[simp] theorem Dev.setTag_jpeg (c : Nat) (t : TagRef) (v : TagState) : (d.setTag c t v).jpeg = d.jpeg := by unfold Dev.setTag; split <;> simp
@[simp] theorem Dev.setTag_pipes (c : Nat) (t : TagRef) (v : TagState) : (d.setTag c t v).pipes = d.pipes := by unfold Dev.setTag; split <;> simp
@[simp] theorem Dev.setTag_ports (c : Nat) (t : TagRef) (v : TagState) : (d.setTag c t v).ports = d.ports := by unfold Dev.setTag; split <;> simp
@[simp] theorem Dev.setTag_sched (c : Nat) (t : TagRef) (v : TagState) : (d.setTag c t v).sched = d.sched := by unfold Dev.setTag; split <;> simp
@[simp] theorem Dev.setTag_gov (c : Nat) (t : TagRef) (v : TagState) : (d.setTag c t v).gov = d.gov := by unfold Dev.setTag; split <;> simp
@[simp] theorem Dev.setTag_dvfs (c : Nat) (t : TagRef) (v : TagState) : (d.setTag c t v).dvfs = d.dvfs := by unfold Dev.setTag; split <;> simp
@[simp] theorem Dev.setTag_host (c : Nat) (t : TagRef) (v : TagState) : (d.setTag c t v).host = d.host := by unfold Dev.setTag; split <;> simp
@[simp] theorem Dev.setTag_que (c : Nat) (t : TagRef) (v : TagState) : (d.setTag c t v).que = d.que := by unfold Dev.setTag; split <;> simp
@[simp] theorem Dev.setTag_dram (c : Nat) (t : TagRef) (v : TagState) : (d.setTag c t v).dram = d.dram := by unfold Dev.setTag; split <;> simp
@[simp] theorem Dev.setTag_recov (c : Nat) (t : TagRef) (v : TagState) : (d.setTag c t v).recov = d.recov := by unfold Dev.setTag; split <;> simp
@[simp] theorem Dev.setTag_fab (c : Nat) (t : TagRef) (v : TagState) : (d.setTag c t v).fab = d.fab := by unfold Dev.setTag; split <;> simp
@[simp] theorem Dev.setTag_pwr (c : Nat) (t : TagRef) (v : TagState) : (d.setTag c t v).pwr = d.pwr := by unfold Dev.setTag; split <;> simp
@[simp] theorem Dev.setTag_clk (c : Nat) (t : TagRef) (v : TagState) : (d.setTag c t v).clk = d.clk := by unfold Dev.setTag; split <;> simp
@[simp] theorem Dev.setTag_pins (c : Nat) (t : TagRef) (v : TagState) : (d.setTag c t v).pins = d.pins := by unfold Dev.setTag; split <;> simp
@[simp] theorem Dev.setTag_nv (c : Nat) (t : TagRef) (v : TagState) : (d.setTag c t v).nv = d.nv := by unfold Dev.setTag; split <;> simp
@[simp] theorem Dev.setTag_otp (c : Nat) (t : TagRef) (v : TagState) : (d.setTag c t v).otp = d.otp := by unfold Dev.setTag; split <;> simp

/-! ### modStream -/

@[simp] theorem Dev.modStream_now (i : Nat) (g : Stream → Stream) : (d.modStream i g).now = d.now := by unfold Dev.modStream; split <;> simp
@[simp] theorem Dev.modStream_freeCtr (i : Nat) (g : Stream → Stream) : (d.modStream i g).freeCtr = d.freeCtr := by unfold Dev.modStream; split <;> simp
@[simp] theorem Dev.modStream_mem (i : Nat) (g : Stream → Stream) : (d.modStream i g).mem = d.mem := by unfold Dev.modStream; split <;> simp
@[simp] theorem Dev.modStream_regs (i : Nat) (g : Stream → Stream) : (d.modStream i g).regs = d.regs := by unfold Dev.modStream; split <;> simp
@[simp] theorem Dev.modStream_cores (i : Nat) (g : Stream → Stream) : (d.modStream i g).cores = d.cores := by unfold Dev.modStream; split <;> simp
@[simp] theorem Dev.modStream_stool (i : Nat) (g : Stream → Stream) : (d.modStream i g).stool = d.stool := by unfold Dev.modStream; split <;> simp
@[simp] theorem Dev.modStream_home (i : Nat) (g : Stream → Stream) : (d.modStream i g).home = d.home := by unfold Dev.modStream; split <;> simp
@[simp] theorem Dev.modStream_bpm (i : Nat) (g : Stream → Stream) : (d.modStream i g).bpm = d.bpm := by unfold Dev.modStream; split <;> simp
@[simp] theorem Dev.modStream_images (i : Nat) (g : Stream → Stream) : (d.modStream i g).images = d.images := by unfold Dev.modStream; split <;> simp
@[simp] theorem Dev.modStream_ctxs (i : Nat) (g : Stream → Stream) : (d.modStream i g).ctxs = d.ctxs := by unfold Dev.modStream; split <;> simp
@[simp] theorem Dev.modStream_sets (i : Nat) (g : Stream → Stream) : (d.modStream i g).sets = d.sets := by unfold Dev.modStream; split <;> simp
@[simp] theorem Dev.modStream_readouts (i : Nat) (g : Stream → Stream) : (d.modStream i g).readouts = d.readouts := by unfold Dev.modStream; split <;> simp
@[simp] theorem Dev.modStream_engines (i : Nat) (g : Stream → Stream) : (d.modStream i g).engines = d.engines := by unfold Dev.modStream; split <;> simp
@[simp] theorem Dev.modStream_jpeg (i : Nat) (g : Stream → Stream) : (d.modStream i g).jpeg = d.jpeg := by unfold Dev.modStream; split <;> simp
@[simp] theorem Dev.modStream_pipes (i : Nat) (g : Stream → Stream) : (d.modStream i g).pipes = d.pipes := by unfold Dev.modStream; split <;> simp
@[simp] theorem Dev.modStream_ports (i : Nat) (g : Stream → Stream) : (d.modStream i g).ports = d.ports := by unfold Dev.modStream; split <;> simp
@[simp] theorem Dev.modStream_sched (i : Nat) (g : Stream → Stream) : (d.modStream i g).sched = d.sched := by unfold Dev.modStream; split <;> simp
@[simp] theorem Dev.modStream_gov (i : Nat) (g : Stream → Stream) : (d.modStream i g).gov = d.gov := by unfold Dev.modStream; split <;> simp
@[simp] theorem Dev.modStream_dvfs (i : Nat) (g : Stream → Stream) : (d.modStream i g).dvfs = d.dvfs := by unfold Dev.modStream; split <;> simp
@[simp] theorem Dev.modStream_host (i : Nat) (g : Stream → Stream) : (d.modStream i g).host = d.host := by unfold Dev.modStream; split <;> simp
@[simp] theorem Dev.modStream_que (i : Nat) (g : Stream → Stream) : (d.modStream i g).que = d.que := by unfold Dev.modStream; split <;> simp
@[simp] theorem Dev.modStream_dram (i : Nat) (g : Stream → Stream) : (d.modStream i g).dram = d.dram := by unfold Dev.modStream; split <;> simp
@[simp] theorem Dev.modStream_recov (i : Nat) (g : Stream → Stream) : (d.modStream i g).recov = d.recov := by unfold Dev.modStream; split <;> simp
@[simp] theorem Dev.modStream_fab (i : Nat) (g : Stream → Stream) : (d.modStream i g).fab = d.fab := by unfold Dev.modStream; split <;> simp
@[simp] theorem Dev.modStream_pwr (i : Nat) (g : Stream → Stream) : (d.modStream i g).pwr = d.pwr := by unfold Dev.modStream; split <;> simp
@[simp] theorem Dev.modStream_clk (i : Nat) (g : Stream → Stream) : (d.modStream i g).clk = d.clk := by unfold Dev.modStream; split <;> simp
@[simp] theorem Dev.modStream_pins (i : Nat) (g : Stream → Stream) : (d.modStream i g).pins = d.pins := by unfold Dev.modStream; split <;> simp
@[simp] theorem Dev.modStream_nv (i : Nat) (g : Stream → Stream) : (d.modStream i g).nv = d.nv := by unfold Dev.modStream; split <;> simp
@[simp] theorem Dev.modStream_otp (i : Nat) (g : Stream → Stream) : (d.modStream i g).otp = d.otp := by unfold Dev.modStream; split <;> simp

/-! ### logSummaries -/

@[simp] theorem Dev.logSummaries_now : (d.logSummaries).now = d.now := by
  unfold Dev.logSummaries
  exact foldl_keeps (fun d => d.now) _ (fun d b => by split <;> simp) _ d
@[simp] theorem Dev.logSummaries_freeCtr : (d.logSummaries).freeCtr = d.freeCtr := by
  unfold Dev.logSummaries
  exact foldl_keeps (fun d => d.freeCtr) _ (fun d b => by split <;> simp) _ d
@[simp] theorem Dev.logSummaries_mem : (d.logSummaries).mem = d.mem := by
  unfold Dev.logSummaries
  exact foldl_keeps (fun d => d.mem) _ (fun d b => by split <;> simp) _ d
@[simp] theorem Dev.logSummaries_cores : (d.logSummaries).cores = d.cores := by
  unfold Dev.logSummaries
  exact foldl_keeps (fun d => d.cores) _ (fun d b => by split <;> simp) _ d
@[simp] theorem Dev.logSummaries_stool : (d.logSummaries).stool = d.stool := by
  unfold Dev.logSummaries
  exact foldl_keeps (fun d => d.stool) _ (fun d b => by split <;> simp) _ d
@[simp] theorem Dev.logSummaries_home : (d.logSummaries).home = d.home := by
  unfold Dev.logSummaries
  exact foldl_keeps (fun d => d.home) _ (fun d b => by split <;> simp) _ d
@[simp] theorem Dev.logSummaries_bpm : (d.logSummaries).bpm = d.bpm := by
  unfold Dev.logSummaries
  exact foldl_keeps (fun d => d.bpm) _ (fun d b => by split <;> simp) _ d
@[simp] theorem Dev.logSummaries_images : (d.logSummaries).images = d.images := by
  unfold Dev.logSummaries
  exact foldl_keeps (fun d => d.images) _ (fun d b => by split <;> simp) _ d
@[simp] theorem Dev.logSummaries_ctxs : (d.logSummaries).ctxs = d.ctxs := by
  unfold Dev.logSummaries
  exact foldl_keeps (fun d => d.ctxs) _ (fun d b => by split <;> simp) _ d
@[simp] theorem Dev.logSummaries_streams : (d.logSummaries).streams = d.streams := by
  unfold Dev.logSummaries
  exact foldl_keeps (fun d => d.streams) _ (fun d b => by split <;> simp) _ d
@[simp] theorem Dev.logSummaries_sets : (d.logSummaries).sets = d.sets := by
  unfold Dev.logSummaries
  exact foldl_keeps (fun d => d.sets) _ (fun d b => by split <;> simp) _ d
@[simp] theorem Dev.logSummaries_readouts : (d.logSummaries).readouts = d.readouts := by
  unfold Dev.logSummaries
  exact foldl_keeps (fun d => d.readouts) _ (fun d b => by split <;> simp) _ d
@[simp] theorem Dev.logSummaries_engines : (d.logSummaries).engines = d.engines := by
  unfold Dev.logSummaries
  exact foldl_keeps (fun d => d.engines) _ (fun d b => by split <;> simp) _ d
@[simp] theorem Dev.logSummaries_jpeg : (d.logSummaries).jpeg = d.jpeg := by
  unfold Dev.logSummaries
  exact foldl_keeps (fun d => d.jpeg) _ (fun d b => by split <;> simp) _ d
@[simp] theorem Dev.logSummaries_pipes : (d.logSummaries).pipes = d.pipes := by
  unfold Dev.logSummaries
  exact foldl_keeps (fun d => d.pipes) _ (fun d b => by split <;> simp) _ d
@[simp] theorem Dev.logSummaries_ports : (d.logSummaries).ports = d.ports := by
  unfold Dev.logSummaries
  exact foldl_keeps (fun d => d.ports) _ (fun d b => by split <;> simp) _ d
@[simp] theorem Dev.logSummaries_sched : (d.logSummaries).sched = d.sched := by
  unfold Dev.logSummaries
  exact foldl_keeps (fun d => d.sched) _ (fun d b => by split <;> simp) _ d
@[simp] theorem Dev.logSummaries_gov : (d.logSummaries).gov = d.gov := by
  unfold Dev.logSummaries
  exact foldl_keeps (fun d => d.gov) _ (fun d b => by split <;> simp) _ d
@[simp] theorem Dev.logSummaries_dvfs : (d.logSummaries).dvfs = d.dvfs := by
  unfold Dev.logSummaries
  exact foldl_keeps (fun d => d.dvfs) _ (fun d b => by split <;> simp) _ d
@[simp] theorem Dev.logSummaries_host : (d.logSummaries).host = d.host := by
  unfold Dev.logSummaries
  exact foldl_keeps (fun d => d.host) _ (fun d b => by split <;> simp) _ d
@[simp] theorem Dev.logSummaries_que : (d.logSummaries).que = d.que := by
  unfold Dev.logSummaries
  exact foldl_keeps (fun d => d.que) _ (fun d b => by split <;> simp) _ d
@[simp] theorem Dev.logSummaries_dram : (d.logSummaries).dram = d.dram := by
  unfold Dev.logSummaries
  exact foldl_keeps (fun d => d.dram) _ (fun d b => by split <;> simp) _ d
@[simp] theorem Dev.logSummaries_fab : (d.logSummaries).fab = d.fab := by
  unfold Dev.logSummaries
  exact foldl_keeps (fun d => d.fab) _ (fun d b => by split <;> simp) _ d
@[simp] theorem Dev.logSummaries_pwr : (d.logSummaries).pwr = d.pwr := by
  unfold Dev.logSummaries
  exact foldl_keeps (fun d => d.pwr) _ (fun d b => by split <;> simp) _ d
@[simp] theorem Dev.logSummaries_clk : (d.logSummaries).clk = d.clk := by
  unfold Dev.logSummaries
  exact foldl_keeps (fun d => d.clk) _ (fun d b => by split <;> simp) _ d
@[simp] theorem Dev.logSummaries_pins : (d.logSummaries).pins = d.pins := by
  unfold Dev.logSummaries
  exact foldl_keeps (fun d => d.pins) _ (fun d b => by split <;> simp) _ d
@[simp] theorem Dev.logSummaries_nv : (d.logSummaries).nv = d.nv := by
  unfold Dev.logSummaries
  exact foldl_keeps (fun d => d.nv) _ (fun d b => by split <;> simp) _ d
@[simp] theorem Dev.logSummaries_otp : (d.logSummaries).otp = d.otp := by
  unfold Dev.logSummaries
  exact foldl_keeps (fun d => d.otp) _ (fun d b => by split <;> simp) _ d

/-! ### logRoll -/

@[simp] theorem Dev.logRoll_now : (d.logRoll).now = d.now := by unfold Dev.logRoll; split <;> simp
@[simp] theorem Dev.logRoll_freeCtr : (d.logRoll).freeCtr = d.freeCtr := by unfold Dev.logRoll; split <;> simp
@[simp] theorem Dev.logRoll_mem : (d.logRoll).mem = d.mem := by unfold Dev.logRoll; split <;> simp
@[simp] theorem Dev.logRoll_cores : (d.logRoll).cores = d.cores := by unfold Dev.logRoll; split <;> simp
@[simp] theorem Dev.logRoll_stool : (d.logRoll).stool = d.stool := by unfold Dev.logRoll; split <;> simp
@[simp] theorem Dev.logRoll_home : (d.logRoll).home = d.home := by unfold Dev.logRoll; split <;> simp
@[simp] theorem Dev.logRoll_bpm : (d.logRoll).bpm = d.bpm := by unfold Dev.logRoll; split <;> simp
@[simp] theorem Dev.logRoll_images : (d.logRoll).images = d.images := by unfold Dev.logRoll; split <;> simp
@[simp] theorem Dev.logRoll_ctxs : (d.logRoll).ctxs = d.ctxs := by unfold Dev.logRoll; split <;> simp
@[simp] theorem Dev.logRoll_streams : (d.logRoll).streams = d.streams := by unfold Dev.logRoll; split <;> simp
@[simp] theorem Dev.logRoll_sets : (d.logRoll).sets = d.sets := by unfold Dev.logRoll; split <;> simp
@[simp] theorem Dev.logRoll_readouts : (d.logRoll).readouts = d.readouts := by unfold Dev.logRoll; split <;> simp
@[simp] theorem Dev.logRoll_engines : (d.logRoll).engines = d.engines := by unfold Dev.logRoll; split <;> simp
@[simp] theorem Dev.logRoll_jpeg : (d.logRoll).jpeg = d.jpeg := by unfold Dev.logRoll; split <;> simp
@[simp] theorem Dev.logRoll_pipes : (d.logRoll).pipes = d.pipes := by unfold Dev.logRoll; split <;> simp
@[simp] theorem Dev.logRoll_ports : (d.logRoll).ports = d.ports := by unfold Dev.logRoll; split <;> simp
@[simp] theorem Dev.logRoll_sched : (d.logRoll).sched = d.sched := by unfold Dev.logRoll; split <;> simp
@[simp] theorem Dev.logRoll_gov : (d.logRoll).gov = d.gov := by unfold Dev.logRoll; split <;> simp
@[simp] theorem Dev.logRoll_dvfs : (d.logRoll).dvfs = d.dvfs := by unfold Dev.logRoll; split <;> simp
@[simp] theorem Dev.logRoll_host : (d.logRoll).host = d.host := by unfold Dev.logRoll; split <;> simp
@[simp] theorem Dev.logRoll_que : (d.logRoll).que = d.que := by unfold Dev.logRoll; split <;> simp
@[simp] theorem Dev.logRoll_dram : (d.logRoll).dram = d.dram := by unfold Dev.logRoll; split <;> simp
@[simp] theorem Dev.logRoll_fab : (d.logRoll).fab = d.fab := by unfold Dev.logRoll; split <;> simp
@[simp] theorem Dev.logRoll_pwr : (d.logRoll).pwr = d.pwr := by unfold Dev.logRoll; split <;> simp
@[simp] theorem Dev.logRoll_clk : (d.logRoll).clk = d.clk := by unfold Dev.logRoll; split <;> simp
@[simp] theorem Dev.logRoll_pins : (d.logRoll).pins = d.pins := by unfold Dev.logRoll; split <;> simp
@[simp] theorem Dev.logRoll_nv : (d.logRoll).nv = d.nv := by unfold Dev.logRoll; split <;> simp
@[simp] theorem Dev.logRoll_otp : (d.logRoll).otp = d.otp := by unfold Dev.logRoll; split <;> simp

/-! ### logEv -/

@[simp] theorem Dev.logEv_now (e : LogEntry) : (d.logEv e).now = d.now := by unfold Dev.logEv; simp only []; split <;> simp
@[simp] theorem Dev.logEv_freeCtr (e : LogEntry) : (d.logEv e).freeCtr = d.freeCtr := by unfold Dev.logEv; simp only []; split <;> simp
@[simp] theorem Dev.logEv_mem (e : LogEntry) : (d.logEv e).mem = d.mem := by unfold Dev.logEv; simp only []; split <;> simp
@[simp] theorem Dev.logEv_cores (e : LogEntry) : (d.logEv e).cores = d.cores := by unfold Dev.logEv; simp only []; split <;> simp
@[simp] theorem Dev.logEv_stool (e : LogEntry) : (d.logEv e).stool = d.stool := by unfold Dev.logEv; simp only []; split <;> simp
@[simp] theorem Dev.logEv_home (e : LogEntry) : (d.logEv e).home = d.home := by unfold Dev.logEv; simp only []; split <;> simp
@[simp] theorem Dev.logEv_bpm (e : LogEntry) : (d.logEv e).bpm = d.bpm := by unfold Dev.logEv; simp only []; split <;> simp
@[simp] theorem Dev.logEv_images (e : LogEntry) : (d.logEv e).images = d.images := by unfold Dev.logEv; simp only []; split <;> simp
@[simp] theorem Dev.logEv_ctxs (e : LogEntry) : (d.logEv e).ctxs = d.ctxs := by unfold Dev.logEv; simp only []; split <;> simp
@[simp] theorem Dev.logEv_streams (e : LogEntry) : (d.logEv e).streams = d.streams := by unfold Dev.logEv; simp only []; split <;> simp
@[simp] theorem Dev.logEv_sets (e : LogEntry) : (d.logEv e).sets = d.sets := by unfold Dev.logEv; simp only []; split <;> simp
@[simp] theorem Dev.logEv_readouts (e : LogEntry) : (d.logEv e).readouts = d.readouts := by unfold Dev.logEv; simp only []; split <;> simp
@[simp] theorem Dev.logEv_engines (e : LogEntry) : (d.logEv e).engines = d.engines := by unfold Dev.logEv; simp only []; split <;> simp
@[simp] theorem Dev.logEv_jpeg (e : LogEntry) : (d.logEv e).jpeg = d.jpeg := by unfold Dev.logEv; simp only []; split <;> simp
@[simp] theorem Dev.logEv_pipes (e : LogEntry) : (d.logEv e).pipes = d.pipes := by unfold Dev.logEv; simp only []; split <;> simp
@[simp] theorem Dev.logEv_ports (e : LogEntry) : (d.logEv e).ports = d.ports := by unfold Dev.logEv; simp only []; split <;> simp
@[simp] theorem Dev.logEv_sched (e : LogEntry) : (d.logEv e).sched = d.sched := by unfold Dev.logEv; simp only []; split <;> simp
@[simp] theorem Dev.logEv_gov (e : LogEntry) : (d.logEv e).gov = d.gov := by unfold Dev.logEv; simp only []; split <;> simp
@[simp] theorem Dev.logEv_dvfs (e : LogEntry) : (d.logEv e).dvfs = d.dvfs := by unfold Dev.logEv; simp only []; split <;> simp
@[simp] theorem Dev.logEv_host (e : LogEntry) : (d.logEv e).host = d.host := by unfold Dev.logEv; simp only []; split <;> simp
@[simp] theorem Dev.logEv_que (e : LogEntry) : (d.logEv e).que = d.que := by unfold Dev.logEv; simp only []; split <;> simp
@[simp] theorem Dev.logEv_dram (e : LogEntry) : (d.logEv e).dram = d.dram := by unfold Dev.logEv; simp only []; split <;> simp
@[simp] theorem Dev.logEv_fab (e : LogEntry) : (d.logEv e).fab = d.fab := by unfold Dev.logEv; simp only []; split <;> simp
@[simp] theorem Dev.logEv_pwr (e : LogEntry) : (d.logEv e).pwr = d.pwr := by unfold Dev.logEv; simp only []; split <;> simp
@[simp] theorem Dev.logEv_clk (e : LogEntry) : (d.logEv e).clk = d.clk := by unfold Dev.logEv; simp only []; split <;> simp
@[simp] theorem Dev.logEv_pins (e : LogEntry) : (d.logEv e).pins = d.pins := by unfold Dev.logEv; simp only []; split <;> simp
@[simp] theorem Dev.logEv_nv (e : LogEntry) : (d.logEv e).nv = d.nv := by unfold Dev.logEv; simp only []; split <;> simp
@[simp] theorem Dev.logEv_otp (e : LogEntry) : (d.logEv e).otp = d.otp := by unfold Dev.logEv; simp only []; split <;> simp

/-! ### postRec -/

@[simp] theorem Dev.postRec_now (r : WaitRec) : (d.postRec r).now = d.now := rfl
@[simp] theorem Dev.postRec_freeCtr (r : WaitRec) : (d.postRec r).freeCtr = d.freeCtr := rfl
@[simp] theorem Dev.postRec_mem (r : WaitRec) : (d.postRec r).mem = d.mem := rfl
@[simp] theorem Dev.postRec_regs (r : WaitRec) : (d.postRec r).regs = d.regs := rfl
@[simp] theorem Dev.postRec_cores (r : WaitRec) : (d.postRec r).cores = d.cores := rfl
@[simp] theorem Dev.postRec_stool (r : WaitRec) : (d.postRec r).stool = d.stool := rfl
@[simp] theorem Dev.postRec_home (r : WaitRec) : (d.postRec r).home = d.home := rfl
@[simp] theorem Dev.postRec_bpm (r : WaitRec) : (d.postRec r).bpm = d.bpm := rfl
@[simp] theorem Dev.postRec_images (r : WaitRec) : (d.postRec r).images = d.images := rfl
@[simp] theorem Dev.postRec_ctxs (r : WaitRec) : (d.postRec r).ctxs = d.ctxs := rfl
@[simp] theorem Dev.postRec_streams (r : WaitRec) : (d.postRec r).streams = d.streams := rfl
@[simp] theorem Dev.postRec_sets (r : WaitRec) : (d.postRec r).sets = d.sets := rfl
@[simp] theorem Dev.postRec_readouts (r : WaitRec) : (d.postRec r).readouts = d.readouts := rfl
@[simp] theorem Dev.postRec_engines (r : WaitRec) : (d.postRec r).engines = d.engines := rfl
@[simp] theorem Dev.postRec_jpeg (r : WaitRec) : (d.postRec r).jpeg = d.jpeg := rfl
@[simp] theorem Dev.postRec_pipes (r : WaitRec) : (d.postRec r).pipes = d.pipes := rfl
@[simp] theorem Dev.postRec_ports (r : WaitRec) : (d.postRec r).ports = d.ports := rfl
@[simp] theorem Dev.postRec_sched (r : WaitRec) : (d.postRec r).sched = d.sched := rfl
@[simp] theorem Dev.postRec_gov (r : WaitRec) : (d.postRec r).gov = d.gov := rfl
@[simp] theorem Dev.postRec_dvfs (r : WaitRec) : (d.postRec r).dvfs = d.dvfs := rfl
@[simp] theorem Dev.postRec_host (r : WaitRec) : (d.postRec r).host = d.host := rfl
@[simp] theorem Dev.postRec_dram (r : WaitRec) : (d.postRec r).dram = d.dram := rfl
@[simp] theorem Dev.postRec_recov (r : WaitRec) : (d.postRec r).recov = d.recov := rfl
@[simp] theorem Dev.postRec_fab (r : WaitRec) : (d.postRec r).fab = d.fab := rfl
@[simp] theorem Dev.postRec_pwr (r : WaitRec) : (d.postRec r).pwr = d.pwr := rfl
@[simp] theorem Dev.postRec_clk (r : WaitRec) : (d.postRec r).clk = d.clk := rfl
@[simp] theorem Dev.postRec_pins (r : WaitRec) : (d.postRec r).pins = d.pins := rfl
@[simp] theorem Dev.postRec_nv (r : WaitRec) : (d.postRec r).nv = d.nv := rfl
@[simp] theorem Dev.postRec_otp (r : WaitRec) : (d.postRec r).otp = d.otp := rfl

/-! ### health -/

@[simp] theorem Dev.health_now (a b c x y : Nat) (l : List Byte) : (d.health a b c x y l).now = d.now := by unfold Dev.health; simp only []; split <;> simp
@[simp] theorem Dev.health_freeCtr (a b c x y : Nat) (l : List Byte) : (d.health a b c x y l).freeCtr = d.freeCtr := by unfold Dev.health; simp only []; split <;> simp
@[simp] theorem Dev.health_mem (a b c x y : Nat) (l : List Byte) : (d.health a b c x y l).mem = d.mem := by unfold Dev.health; simp only []; split <;> simp
@[simp] theorem Dev.health_cores (a b c x y : Nat) (l : List Byte) : (d.health a b c x y l).cores = d.cores := by unfold Dev.health; simp only []; split <;> simp
@[simp] theorem Dev.health_stool (a b c x y : Nat) (l : List Byte) : (d.health a b c x y l).stool = d.stool := by unfold Dev.health; simp only []; split <;> simp
@[simp] theorem Dev.health_home (a b c x y : Nat) (l : List Byte) : (d.health a b c x y l).home = d.home := by unfold Dev.health; simp only []; split <;> simp
@[simp] theorem Dev.health_bpm (a b c x y : Nat) (l : List Byte) : (d.health a b c x y l).bpm = d.bpm := by unfold Dev.health; simp only []; split <;> simp
@[simp] theorem Dev.health_images (a b c x y : Nat) (l : List Byte) : (d.health a b c x y l).images = d.images := by unfold Dev.health; simp only []; split <;> simp
@[simp] theorem Dev.health_ctxs (a b c x y : Nat) (l : List Byte) : (d.health a b c x y l).ctxs = d.ctxs := by unfold Dev.health; simp only []; split <;> simp
@[simp] theorem Dev.health_streams (a b c x y : Nat) (l : List Byte) : (d.health a b c x y l).streams = d.streams := by unfold Dev.health; simp only []; split <;> simp
@[simp] theorem Dev.health_sets (a b c x y : Nat) (l : List Byte) : (d.health a b c x y l).sets = d.sets := by unfold Dev.health; simp only []; split <;> simp
@[simp] theorem Dev.health_readouts (a b c x y : Nat) (l : List Byte) : (d.health a b c x y l).readouts = d.readouts := by unfold Dev.health; simp only []; split <;> simp
@[simp] theorem Dev.health_engines (a b c x y : Nat) (l : List Byte) : (d.health a b c x y l).engines = d.engines := by unfold Dev.health; simp only []; split <;> simp
@[simp] theorem Dev.health_jpeg (a b c x y : Nat) (l : List Byte) : (d.health a b c x y l).jpeg = d.jpeg := by unfold Dev.health; simp only []; split <;> simp
@[simp] theorem Dev.health_pipes (a b c x y : Nat) (l : List Byte) : (d.health a b c x y l).pipes = d.pipes := by unfold Dev.health; simp only []; split <;> simp
@[simp] theorem Dev.health_ports (a b c x y : Nat) (l : List Byte) : (d.health a b c x y l).ports = d.ports := by unfold Dev.health; simp only []; split <;> simp
@[simp] theorem Dev.health_sched (a b c x y : Nat) (l : List Byte) : (d.health a b c x y l).sched = d.sched := by unfold Dev.health; simp only []; split <;> simp
@[simp] theorem Dev.health_gov (a b c x y : Nat) (l : List Byte) : (d.health a b c x y l).gov = d.gov := by unfold Dev.health; simp only []; split <;> simp
@[simp] theorem Dev.health_dvfs (a b c x y : Nat) (l : List Byte) : (d.health a b c x y l).dvfs = d.dvfs := by unfold Dev.health; simp only []; split <;> simp
@[simp] theorem Dev.health_dram (a b c x y : Nat) (l : List Byte) : (d.health a b c x y l).dram = d.dram := by unfold Dev.health; simp only []; split <;> simp
@[simp] theorem Dev.health_fab (a b c x y : Nat) (l : List Byte) : (d.health a b c x y l).fab = d.fab := by unfold Dev.health; simp only []; split <;> simp
@[simp] theorem Dev.health_pwr (a b c x y : Nat) (l : List Byte) : (d.health a b c x y l).pwr = d.pwr := by unfold Dev.health; simp only []; split <;> simp
@[simp] theorem Dev.health_clk (a b c x y : Nat) (l : List Byte) : (d.health a b c x y l).clk = d.clk := by unfold Dev.health; simp only []; split <;> simp
@[simp] theorem Dev.health_pins (a b c x y : Nat) (l : List Byte) : (d.health a b c x y l).pins = d.pins := by unfold Dev.health; simp only []; split <;> simp
@[simp] theorem Dev.health_nv (a b c x y : Nat) (l : List Byte) : (d.health a b c x y l).nv = d.nv := by unfold Dev.health; simp only []; split <;> simp
@[simp] theorem Dev.health_otp (a b c x y : Nat) (l : List Byte) : (d.health a b c x y l).otp = d.otp := by unfold Dev.health; simp only []; split <;> simp

/-! ### replaceCause -/

@[simp] theorem Dev.replaceCause_now (a b x y : Nat) : (d.replaceCause a b x y).now = d.now := by unfold Dev.replaceCause; simp only []; split <;> simp
@[simp] theorem Dev.replaceCause_freeCtr (a b x y : Nat) : (d.replaceCause a b x y).freeCtr = d.freeCtr := by unfold Dev.replaceCause; simp only []; split <;> simp
@[simp] theorem Dev.replaceCause_mem (a b x y : Nat) : (d.replaceCause a b x y).mem = d.mem := by unfold Dev.replaceCause; simp only []; split <;> simp
@[simp] theorem Dev.replaceCause_cores (a b x y : Nat) : (d.replaceCause a b x y).cores = d.cores := by unfold Dev.replaceCause; simp only []; split <;> simp
@[simp] theorem Dev.replaceCause_stool (a b x y : Nat) : (d.replaceCause a b x y).stool = d.stool := by unfold Dev.replaceCause; simp only []; split <;> simp
@[simp] theorem Dev.replaceCause_home (a b x y : Nat) : (d.replaceCause a b x y).home = d.home := by unfold Dev.replaceCause; simp only []; split <;> simp
@[simp] theorem Dev.replaceCause_bpm (a b x y : Nat) : (d.replaceCause a b x y).bpm = d.bpm := by unfold Dev.replaceCause; simp only []; split <;> simp
@[simp] theorem Dev.replaceCause_images (a b x y : Nat) : (d.replaceCause a b x y).images = d.images := by unfold Dev.replaceCause; simp only []; split <;> simp
@[simp] theorem Dev.replaceCause_ctxs (a b x y : Nat) : (d.replaceCause a b x y).ctxs = d.ctxs := by unfold Dev.replaceCause; simp only []; split <;> simp
@[simp] theorem Dev.replaceCause_streams (a b x y : Nat) : (d.replaceCause a b x y).streams = d.streams := by unfold Dev.replaceCause; simp only []; split <;> simp
@[simp] theorem Dev.replaceCause_sets (a b x y : Nat) : (d.replaceCause a b x y).sets = d.sets := by unfold Dev.replaceCause; simp only []; split <;> simp
@[simp] theorem Dev.replaceCause_readouts (a b x y : Nat) : (d.replaceCause a b x y).readouts = d.readouts := by unfold Dev.replaceCause; simp only []; split <;> simp
@[simp] theorem Dev.replaceCause_engines (a b x y : Nat) : (d.replaceCause a b x y).engines = d.engines := by unfold Dev.replaceCause; simp only []; split <;> simp
@[simp] theorem Dev.replaceCause_jpeg (a b x y : Nat) : (d.replaceCause a b x y).jpeg = d.jpeg := by unfold Dev.replaceCause; simp only []; split <;> simp
@[simp] theorem Dev.replaceCause_pipes (a b x y : Nat) : (d.replaceCause a b x y).pipes = d.pipes := by unfold Dev.replaceCause; simp only []; split <;> simp
@[simp] theorem Dev.replaceCause_ports (a b x y : Nat) : (d.replaceCause a b x y).ports = d.ports := by unfold Dev.replaceCause; simp only []; split <;> simp
@[simp] theorem Dev.replaceCause_sched (a b x y : Nat) : (d.replaceCause a b x y).sched = d.sched := by unfold Dev.replaceCause; simp only []; split <;> simp
@[simp] theorem Dev.replaceCause_gov (a b x y : Nat) : (d.replaceCause a b x y).gov = d.gov := by unfold Dev.replaceCause; simp only []; split <;> simp
@[simp] theorem Dev.replaceCause_dvfs (a b x y : Nat) : (d.replaceCause a b x y).dvfs = d.dvfs := by unfold Dev.replaceCause; simp only []; split <;> simp
@[simp] theorem Dev.replaceCause_dram (a b x y : Nat) : (d.replaceCause a b x y).dram = d.dram := by unfold Dev.replaceCause; simp only []; split <;> simp
@[simp] theorem Dev.replaceCause_fab (a b x y : Nat) : (d.replaceCause a b x y).fab = d.fab := by unfold Dev.replaceCause; simp only []; split <;> simp
@[simp] theorem Dev.replaceCause_pwr (a b x y : Nat) : (d.replaceCause a b x y).pwr = d.pwr := by unfold Dev.replaceCause; simp only []; split <;> simp
@[simp] theorem Dev.replaceCause_clk (a b x y : Nat) : (d.replaceCause a b x y).clk = d.clk := by unfold Dev.replaceCause; simp only []; split <;> simp
@[simp] theorem Dev.replaceCause_pins (a b x y : Nat) : (d.replaceCause a b x y).pins = d.pins := by unfold Dev.replaceCause; simp only []; split <;> simp
@[simp] theorem Dev.replaceCause_nv (a b x y : Nat) : (d.replaceCause a b x y).nv = d.nv := by unfold Dev.replaceCause; simp only []; split <;> simp
@[simp] theorem Dev.replaceCause_otp (a b x y : Nat) : (d.replaceCause a b x y).otp = d.otp := by unfold Dev.replaceCause; simp only []; split <;> simp

/-! ### takeWait -/

@[simp] theorem Dev.takeWait_now (c : Nat) (w : IWord) : (d.takeWait c w).now = d.now := by unfold Dev.takeWait; split <;> simp
@[simp] theorem Dev.takeWait_freeCtr (c : Nat) (w : IWord) : (d.takeWait c w).freeCtr = d.freeCtr := by unfold Dev.takeWait; split <;> simp
@[simp] theorem Dev.takeWait_mem (c : Nat) (w : IWord) : (d.takeWait c w).mem = d.mem := by unfold Dev.takeWait; split <;> simp
@[simp] theorem Dev.takeWait_regs (c : Nat) (w : IWord) : (d.takeWait c w).regs = d.regs := by unfold Dev.takeWait; split <;> simp
@[simp] theorem Dev.takeWait_stool (c : Nat) (w : IWord) : (d.takeWait c w).stool = d.stool := by unfold Dev.takeWait; split <;> simp
@[simp] theorem Dev.takeWait_home (c : Nat) (w : IWord) : (d.takeWait c w).home = d.home := by unfold Dev.takeWait; split <;> simp
@[simp] theorem Dev.takeWait_bpm (c : Nat) (w : IWord) : (d.takeWait c w).bpm = d.bpm := by unfold Dev.takeWait; split <;> simp
@[simp] theorem Dev.takeWait_images (c : Nat) (w : IWord) : (d.takeWait c w).images = d.images := by unfold Dev.takeWait; split <;> simp
@[simp] theorem Dev.takeWait_ctxs (c : Nat) (w : IWord) : (d.takeWait c w).ctxs = d.ctxs := by unfold Dev.takeWait; split <;> simp
@[simp] theorem Dev.takeWait_streams (c : Nat) (w : IWord) : (d.takeWait c w).streams = d.streams := by unfold Dev.takeWait; split <;> simp
@[simp] theorem Dev.takeWait_sets (c : Nat) (w : IWord) : (d.takeWait c w).sets = d.sets := by unfold Dev.takeWait; split <;> simp
@[simp] theorem Dev.takeWait_readouts (c : Nat) (w : IWord) : (d.takeWait c w).readouts = d.readouts := by unfold Dev.takeWait; split <;> simp
@[simp] theorem Dev.takeWait_engines (c : Nat) (w : IWord) : (d.takeWait c w).engines = d.engines := by unfold Dev.takeWait; split <;> simp
@[simp] theorem Dev.takeWait_jpeg (c : Nat) (w : IWord) : (d.takeWait c w).jpeg = d.jpeg := by unfold Dev.takeWait; split <;> simp
@[simp] theorem Dev.takeWait_pipes (c : Nat) (w : IWord) : (d.takeWait c w).pipes = d.pipes := by unfold Dev.takeWait; split <;> simp
@[simp] theorem Dev.takeWait_ports (c : Nat) (w : IWord) : (d.takeWait c w).ports = d.ports := by unfold Dev.takeWait; split <;> simp
@[simp] theorem Dev.takeWait_sched (c : Nat) (w : IWord) : (d.takeWait c w).sched = d.sched := by unfold Dev.takeWait; split <;> simp
@[simp] theorem Dev.takeWait_gov (c : Nat) (w : IWord) : (d.takeWait c w).gov = d.gov := by unfold Dev.takeWait; split <;> simp
@[simp] theorem Dev.takeWait_dvfs (c : Nat) (w : IWord) : (d.takeWait c w).dvfs = d.dvfs := by unfold Dev.takeWait; split <;> simp
@[simp] theorem Dev.takeWait_host (c : Nat) (w : IWord) : (d.takeWait c w).host = d.host := by unfold Dev.takeWait; split <;> simp
@[simp] theorem Dev.takeWait_que (c : Nat) (w : IWord) : (d.takeWait c w).que = d.que := by unfold Dev.takeWait; split <;> simp
@[simp] theorem Dev.takeWait_dram (c : Nat) (w : IWord) : (d.takeWait c w).dram = d.dram := by unfold Dev.takeWait; split <;> simp
@[simp] theorem Dev.takeWait_recov (c : Nat) (w : IWord) : (d.takeWait c w).recov = d.recov := by unfold Dev.takeWait; split <;> simp
@[simp] theorem Dev.takeWait_fab (c : Nat) (w : IWord) : (d.takeWait c w).fab = d.fab := by unfold Dev.takeWait; split <;> simp
@[simp] theorem Dev.takeWait_pwr (c : Nat) (w : IWord) : (d.takeWait c w).pwr = d.pwr := by unfold Dev.takeWait; split <;> simp
@[simp] theorem Dev.takeWait_clk (c : Nat) (w : IWord) : (d.takeWait c w).clk = d.clk := by unfold Dev.takeWait; split <;> simp
@[simp] theorem Dev.takeWait_pins (c : Nat) (w : IWord) : (d.takeWait c w).pins = d.pins := by unfold Dev.takeWait; split <;> simp
@[simp] theorem Dev.takeWait_nv (c : Nat) (w : IWord) : (d.takeWait c w).nv = d.nv := by unfold Dev.takeWait; split <;> simp
@[simp] theorem Dev.takeWait_otp (c : Nat) (w : IWord) : (d.takeWait c w).otp = d.otp := by unfold Dev.takeWait; split <;> simp

/-! ### signal -/

@[simp] theorem Dev.signal_now (c : Nat) (w : IWord) : (d.signal c w).now = d.now := by unfold Dev.signal; split <;> simp
@[simp] theorem Dev.signal_freeCtr (c : Nat) (w : IWord) : (d.signal c w).freeCtr = d.freeCtr := by unfold Dev.signal; split <;> simp
@[simp] theorem Dev.signal_mem (c : Nat) (w : IWord) : (d.signal c w).mem = d.mem := by unfold Dev.signal; split <;> simp
@[simp] theorem Dev.signal_stool (c : Nat) (w : IWord) : (d.signal c w).stool = d.stool := by unfold Dev.signal; split <;> simp
@[simp] theorem Dev.signal_home (c : Nat) (w : IWord) : (d.signal c w).home = d.home := by unfold Dev.signal; split <;> simp
@[simp] theorem Dev.signal_bpm (c : Nat) (w : IWord) : (d.signal c w).bpm = d.bpm := by unfold Dev.signal; split <;> simp
@[simp] theorem Dev.signal_images (c : Nat) (w : IWord) : (d.signal c w).images = d.images := by unfold Dev.signal; split <;> simp
@[simp] theorem Dev.signal_ctxs (c : Nat) (w : IWord) : (d.signal c w).ctxs = d.ctxs := by unfold Dev.signal; split <;> simp
@[simp] theorem Dev.signal_streams (c : Nat) (w : IWord) : (d.signal c w).streams = d.streams := by unfold Dev.signal; split <;> simp
@[simp] theorem Dev.signal_sets (c : Nat) (w : IWord) : (d.signal c w).sets = d.sets := by unfold Dev.signal; split <;> simp
@[simp] theorem Dev.signal_readouts (c : Nat) (w : IWord) : (d.signal c w).readouts = d.readouts := by unfold Dev.signal; split <;> simp
@[simp] theorem Dev.signal_engines (c : Nat) (w : IWord) : (d.signal c w).engines = d.engines := by unfold Dev.signal; split <;> simp
@[simp] theorem Dev.signal_jpeg (c : Nat) (w : IWord) : (d.signal c w).jpeg = d.jpeg := by unfold Dev.signal; split <;> simp
@[simp] theorem Dev.signal_pipes (c : Nat) (w : IWord) : (d.signal c w).pipes = d.pipes := by unfold Dev.signal; split <;> simp
@[simp] theorem Dev.signal_ports (c : Nat) (w : IWord) : (d.signal c w).ports = d.ports := by unfold Dev.signal; split <;> simp
@[simp] theorem Dev.signal_sched (c : Nat) (w : IWord) : (d.signal c w).sched = d.sched := by unfold Dev.signal; split <;> simp
@[simp] theorem Dev.signal_gov (c : Nat) (w : IWord) : (d.signal c w).gov = d.gov := by unfold Dev.signal; split <;> simp
@[simp] theorem Dev.signal_dvfs (c : Nat) (w : IWord) : (d.signal c w).dvfs = d.dvfs := by unfold Dev.signal; split <;> simp
@[simp] theorem Dev.signal_host (c : Nat) (w : IWord) : (d.signal c w).host = d.host := by unfold Dev.signal; split <;> simp
@[simp] theorem Dev.signal_que (c : Nat) (w : IWord) : (d.signal c w).que = d.que := by unfold Dev.signal; split <;> simp
@[simp] theorem Dev.signal_dram (c : Nat) (w : IWord) : (d.signal c w).dram = d.dram := by unfold Dev.signal; split <;> simp
@[simp] theorem Dev.signal_recov (c : Nat) (w : IWord) : (d.signal c w).recov = d.recov := by unfold Dev.signal; split <;> simp
@[simp] theorem Dev.signal_fab (c : Nat) (w : IWord) : (d.signal c w).fab = d.fab := by unfold Dev.signal; split <;> simp
@[simp] theorem Dev.signal_pwr (c : Nat) (w : IWord) : (d.signal c w).pwr = d.pwr := by unfold Dev.signal; split <;> simp
@[simp] theorem Dev.signal_clk (c : Nat) (w : IWord) : (d.signal c w).clk = d.clk := by unfold Dev.signal; split <;> simp
@[simp] theorem Dev.signal_pins (c : Nat) (w : IWord) : (d.signal c w).pins = d.pins := by unfold Dev.signal; split <;> simp
@[simp] theorem Dev.signal_nv (c : Nat) (w : IWord) : (d.signal c w).nv = d.nv := by unfold Dev.signal; split <;> simp
@[simp] theorem Dev.signal_otp (c : Nat) (w : IWord) : (d.signal c w).otp = d.otp := by unfold Dev.signal; split <;> simp

/-! ### setWaits -/

@[simp] theorem Dev.setWaits_now (c : Nat) (b : Bool) (l : List TagRef) : (d.setWaits c b l).now = d.now := by simp [Dev.setWaits]
@[simp] theorem Dev.setWaits_freeCtr (c : Nat) (b : Bool) (l : List TagRef) : (d.setWaits c b l).freeCtr = d.freeCtr := by simp [Dev.setWaits]
@[simp] theorem Dev.setWaits_mem (c : Nat) (b : Bool) (l : List TagRef) : (d.setWaits c b l).mem = d.mem := by simp [Dev.setWaits]
@[simp] theorem Dev.setWaits_stool (c : Nat) (b : Bool) (l : List TagRef) : (d.setWaits c b l).stool = d.stool := by simp [Dev.setWaits]
@[simp] theorem Dev.setWaits_bpm (c : Nat) (b : Bool) (l : List TagRef) : (d.setWaits c b l).bpm = d.bpm := by simp [Dev.setWaits]
@[simp] theorem Dev.setWaits_images (c : Nat) (b : Bool) (l : List TagRef) : (d.setWaits c b l).images = d.images := by simp [Dev.setWaits]
@[simp] theorem Dev.setWaits_ctxs (c : Nat) (b : Bool) (l : List TagRef) : (d.setWaits c b l).ctxs = d.ctxs := by simp [Dev.setWaits]
@[simp] theorem Dev.setWaits_streams (c : Nat) (b : Bool) (l : List TagRef) : (d.setWaits c b l).streams = d.streams := by simp [Dev.setWaits]
@[simp] theorem Dev.setWaits_sets (c : Nat) (b : Bool) (l : List TagRef) : (d.setWaits c b l).sets = d.sets := by simp [Dev.setWaits]
@[simp] theorem Dev.setWaits_readouts (c : Nat) (b : Bool) (l : List TagRef) : (d.setWaits c b l).readouts = d.readouts := by simp [Dev.setWaits]
@[simp] theorem Dev.setWaits_engines (c : Nat) (b : Bool) (l : List TagRef) : (d.setWaits c b l).engines = d.engines := by simp [Dev.setWaits]
@[simp] theorem Dev.setWaits_jpeg (c : Nat) (b : Bool) (l : List TagRef) : (d.setWaits c b l).jpeg = d.jpeg := by simp [Dev.setWaits]
@[simp] theorem Dev.setWaits_pipes (c : Nat) (b : Bool) (l : List TagRef) : (d.setWaits c b l).pipes = d.pipes := by simp [Dev.setWaits]
@[simp] theorem Dev.setWaits_ports (c : Nat) (b : Bool) (l : List TagRef) : (d.setWaits c b l).ports = d.ports := by simp [Dev.setWaits]
@[simp] theorem Dev.setWaits_sched (c : Nat) (b : Bool) (l : List TagRef) : (d.setWaits c b l).sched = d.sched := by simp [Dev.setWaits]
@[simp] theorem Dev.setWaits_gov (c : Nat) (b : Bool) (l : List TagRef) : (d.setWaits c b l).gov = d.gov := by simp [Dev.setWaits]
@[simp] theorem Dev.setWaits_dvfs (c : Nat) (b : Bool) (l : List TagRef) : (d.setWaits c b l).dvfs = d.dvfs := by simp [Dev.setWaits]
@[simp] theorem Dev.setWaits_host (c : Nat) (b : Bool) (l : List TagRef) : (d.setWaits c b l).host = d.host := by simp [Dev.setWaits]
@[simp] theorem Dev.setWaits_que (c : Nat) (b : Bool) (l : List TagRef) : (d.setWaits c b l).que = d.que := by simp [Dev.setWaits]
@[simp] theorem Dev.setWaits_dram (c : Nat) (b : Bool) (l : List TagRef) : (d.setWaits c b l).dram = d.dram := by simp [Dev.setWaits]
@[simp] theorem Dev.setWaits_recov (c : Nat) (b : Bool) (l : List TagRef) : (d.setWaits c b l).recov = d.recov := by simp [Dev.setWaits]
@[simp] theorem Dev.setWaits_fab (c : Nat) (b : Bool) (l : List TagRef) : (d.setWaits c b l).fab = d.fab := by simp [Dev.setWaits]
@[simp] theorem Dev.setWaits_pwr (c : Nat) (b : Bool) (l : List TagRef) : (d.setWaits c b l).pwr = d.pwr := by simp [Dev.setWaits]
@[simp] theorem Dev.setWaits_clk (c : Nat) (b : Bool) (l : List TagRef) : (d.setWaits c b l).clk = d.clk := by simp [Dev.setWaits]
@[simp] theorem Dev.setWaits_pins (c : Nat) (b : Bool) (l : List TagRef) : (d.setWaits c b l).pins = d.pins := by simp [Dev.setWaits]
@[simp] theorem Dev.setWaits_nv (c : Nat) (b : Bool) (l : List TagRef) : (d.setWaits c b l).nv = d.nv := by simp [Dev.setWaits]
@[simp] theorem Dev.setWaits_otp (c : Nat) (b : Bool) (l : List TagRef) : (d.setWaits c b l).otp = d.otp := by simp [Dev.setWaits]

/-! ### clearWaits -/

@[simp] theorem Dev.clearWaits_now (c : Nat) : (d.clearWaits c).now = d.now := by simp [Dev.clearWaits]
@[simp] theorem Dev.clearWaits_freeCtr (c : Nat) : (d.clearWaits c).freeCtr = d.freeCtr := by simp [Dev.clearWaits]
@[simp] theorem Dev.clearWaits_mem (c : Nat) : (d.clearWaits c).mem = d.mem := by simp [Dev.clearWaits]
@[simp] theorem Dev.clearWaits_stool (c : Nat) : (d.clearWaits c).stool = d.stool := by simp [Dev.clearWaits]
@[simp] theorem Dev.clearWaits_bpm (c : Nat) : (d.clearWaits c).bpm = d.bpm := by simp [Dev.clearWaits]
@[simp] theorem Dev.clearWaits_images (c : Nat) : (d.clearWaits c).images = d.images := by simp [Dev.clearWaits]
@[simp] theorem Dev.clearWaits_ctxs (c : Nat) : (d.clearWaits c).ctxs = d.ctxs := by simp [Dev.clearWaits]
@[simp] theorem Dev.clearWaits_streams (c : Nat) : (d.clearWaits c).streams = d.streams := by simp [Dev.clearWaits]
@[simp] theorem Dev.clearWaits_sets (c : Nat) : (d.clearWaits c).sets = d.sets := by simp [Dev.clearWaits]
@[simp] theorem Dev.clearWaits_readouts (c : Nat) : (d.clearWaits c).readouts = d.readouts := by simp [Dev.clearWaits]
@[simp] theorem Dev.clearWaits_engines (c : Nat) : (d.clearWaits c).engines = d.engines := by simp [Dev.clearWaits]
@[simp] theorem Dev.clearWaits_jpeg (c : Nat) : (d.clearWaits c).jpeg = d.jpeg := by simp [Dev.clearWaits]
@[simp] theorem Dev.clearWaits_pipes (c : Nat) : (d.clearWaits c).pipes = d.pipes := by simp [Dev.clearWaits]
@[simp] theorem Dev.clearWaits_ports (c : Nat) : (d.clearWaits c).ports = d.ports := by simp [Dev.clearWaits]
@[simp] theorem Dev.clearWaits_sched (c : Nat) : (d.clearWaits c).sched = d.sched := by simp [Dev.clearWaits]
@[simp] theorem Dev.clearWaits_gov (c : Nat) : (d.clearWaits c).gov = d.gov := by simp [Dev.clearWaits]
@[simp] theorem Dev.clearWaits_dvfs (c : Nat) : (d.clearWaits c).dvfs = d.dvfs := by simp [Dev.clearWaits]
@[simp] theorem Dev.clearWaits_host (c : Nat) : (d.clearWaits c).host = d.host := by simp [Dev.clearWaits]
@[simp] theorem Dev.clearWaits_que (c : Nat) : (d.clearWaits c).que = d.que := by simp [Dev.clearWaits]
@[simp] theorem Dev.clearWaits_dram (c : Nat) : (d.clearWaits c).dram = d.dram := by simp [Dev.clearWaits]
@[simp] theorem Dev.clearWaits_recov (c : Nat) : (d.clearWaits c).recov = d.recov := by simp [Dev.clearWaits]
@[simp] theorem Dev.clearWaits_fab (c : Nat) : (d.clearWaits c).fab = d.fab := by simp [Dev.clearWaits]
@[simp] theorem Dev.clearWaits_pwr (c : Nat) : (d.clearWaits c).pwr = d.pwr := by simp [Dev.clearWaits]
@[simp] theorem Dev.clearWaits_clk (c : Nat) : (d.clearWaits c).clk = d.clk := by simp [Dev.clearWaits]
@[simp] theorem Dev.clearWaits_pins (c : Nat) : (d.clearWaits c).pins = d.pins := by simp [Dev.clearWaits]
@[simp] theorem Dev.clearWaits_nv (c : Nat) : (d.clearWaits c).nv = d.nv := by simp [Dev.clearWaits]
@[simp] theorem Dev.clearWaits_otp (c : Nat) : (d.clearWaits c).otp = d.otp := by simp [Dev.clearWaits]

/-! ### dvfsStart -/

@[simp] theorem Dev.dvfsStart_now (k : Nat) : (d.dvfsStart k).now = d.now := by unfold Dev.dvfsStart; simp only []; split_ifs <;> simp
@[simp] theorem Dev.dvfsStart_freeCtr (k : Nat) : (d.dvfsStart k).freeCtr = d.freeCtr := by unfold Dev.dvfsStart; simp only []; split_ifs <;> simp
@[simp] theorem Dev.dvfsStart_mem (k : Nat) : (d.dvfsStart k).mem = d.mem := by unfold Dev.dvfsStart; simp only []; split_ifs <;> simp
@[simp] theorem Dev.dvfsStart_cores (k : Nat) : (d.dvfsStart k).cores = d.cores := by unfold Dev.dvfsStart; simp only []; split_ifs <;> simp
@[simp] theorem Dev.dvfsStart_stool (k : Nat) : (d.dvfsStart k).stool = d.stool := by unfold Dev.dvfsStart; simp only []; split_ifs <;> simp
@[simp] theorem Dev.dvfsStart_home (k : Nat) : (d.dvfsStart k).home = d.home := by unfold Dev.dvfsStart; simp only []; split_ifs <;> simp
@[simp] theorem Dev.dvfsStart_bpm (k : Nat) : (d.dvfsStart k).bpm = d.bpm := by unfold Dev.dvfsStart; simp only []; split_ifs <;> simp
@[simp] theorem Dev.dvfsStart_images (k : Nat) : (d.dvfsStart k).images = d.images := by unfold Dev.dvfsStart; simp only []; split_ifs <;> simp
@[simp] theorem Dev.dvfsStart_ctxs (k : Nat) : (d.dvfsStart k).ctxs = d.ctxs := by unfold Dev.dvfsStart; simp only []; split_ifs <;> simp
@[simp] theorem Dev.dvfsStart_streams (k : Nat) : (d.dvfsStart k).streams = d.streams := by unfold Dev.dvfsStart; simp only []; split_ifs <;> simp
@[simp] theorem Dev.dvfsStart_sets (k : Nat) : (d.dvfsStart k).sets = d.sets := by unfold Dev.dvfsStart; simp only []; split_ifs <;> simp
@[simp] theorem Dev.dvfsStart_readouts (k : Nat) : (d.dvfsStart k).readouts = d.readouts := by unfold Dev.dvfsStart; simp only []; split_ifs <;> simp
@[simp] theorem Dev.dvfsStart_engines (k : Nat) : (d.dvfsStart k).engines = d.engines := by unfold Dev.dvfsStart; simp only []; split_ifs <;> simp
@[simp] theorem Dev.dvfsStart_jpeg (k : Nat) : (d.dvfsStart k).jpeg = d.jpeg := by unfold Dev.dvfsStart; simp only []; split_ifs <;> simp
@[simp] theorem Dev.dvfsStart_pipes (k : Nat) : (d.dvfsStart k).pipes = d.pipes := by unfold Dev.dvfsStart; simp only []; split_ifs <;> simp
@[simp] theorem Dev.dvfsStart_ports (k : Nat) : (d.dvfsStart k).ports = d.ports := by unfold Dev.dvfsStart; simp only []; split_ifs <;> simp
@[simp] theorem Dev.dvfsStart_sched (k : Nat) : (d.dvfsStart k).sched = d.sched := by unfold Dev.dvfsStart; simp only []; split_ifs <;> simp
@[simp] theorem Dev.dvfsStart_gov (k : Nat) : (d.dvfsStart k).gov = d.gov := by unfold Dev.dvfsStart; simp only []; split_ifs <;> simp
@[simp] theorem Dev.dvfsStart_host (k : Nat) : (d.dvfsStart k).host = d.host := by unfold Dev.dvfsStart; simp only []; split_ifs <;> simp
@[simp] theorem Dev.dvfsStart_que (k : Nat) : (d.dvfsStart k).que = d.que := by unfold Dev.dvfsStart; simp only []; split_ifs <;> simp
@[simp] theorem Dev.dvfsStart_dram (k : Nat) : (d.dvfsStart k).dram = d.dram := by unfold Dev.dvfsStart; simp only []; split_ifs <;> simp
@[simp] theorem Dev.dvfsStart_recov (k : Nat) : (d.dvfsStart k).recov = d.recov := by unfold Dev.dvfsStart; simp only []; split_ifs <;> simp
@[simp] theorem Dev.dvfsStart_fab (k : Nat) : (d.dvfsStart k).fab = d.fab := by unfold Dev.dvfsStart; simp only []; split_ifs <;> simp
@[simp] theorem Dev.dvfsStart_pwr (k : Nat) : (d.dvfsStart k).pwr = d.pwr := by unfold Dev.dvfsStart; simp only []; split_ifs <;> simp
@[simp] theorem Dev.dvfsStart_clk (k : Nat) : (d.dvfsStart k).clk = d.clk := by unfold Dev.dvfsStart; simp only []; split_ifs <;> simp
@[simp] theorem Dev.dvfsStart_pins (k : Nat) : (d.dvfsStart k).pins = d.pins := by unfold Dev.dvfsStart; simp only []; split_ifs <;> simp
@[simp] theorem Dev.dvfsStart_nv (k : Nat) : (d.dvfsStart k).nv = d.nv := by unfold Dev.dvfsStart; simp only []; split_ifs <;> simp
@[simp] theorem Dev.dvfsStart_otp (k : Nat) : (d.dvfsStart k).otp = d.otp := by unfold Dev.dvfsStart; simp only []; split_ifs <;> simp

/-! ### dvfsRequest -/

@[simp] theorem Dev.dvfsRequest_now (k n : Nat) : (d.dvfsRequest k n).now = d.now := by unfold Dev.dvfsRequest; simp
@[simp] theorem Dev.dvfsRequest_freeCtr (k n : Nat) : (d.dvfsRequest k n).freeCtr = d.freeCtr := by unfold Dev.dvfsRequest; simp
@[simp] theorem Dev.dvfsRequest_mem (k n : Nat) : (d.dvfsRequest k n).mem = d.mem := by unfold Dev.dvfsRequest; simp
@[simp] theorem Dev.dvfsRequest_cores (k n : Nat) : (d.dvfsRequest k n).cores = d.cores := by unfold Dev.dvfsRequest; simp
@[simp] theorem Dev.dvfsRequest_stool (k n : Nat) : (d.dvfsRequest k n).stool = d.stool := by unfold Dev.dvfsRequest; simp
@[simp] theorem Dev.dvfsRequest_home (k n : Nat) : (d.dvfsRequest k n).home = d.home := by unfold Dev.dvfsRequest; simp
@[simp] theorem Dev.dvfsRequest_bpm (k n : Nat) : (d.dvfsRequest k n).bpm = d.bpm := by unfold Dev.dvfsRequest; simp
@[simp] theorem Dev.dvfsRequest_images (k n : Nat) : (d.dvfsRequest k n).images = d.images := by unfold Dev.dvfsRequest; simp
@[simp] theorem Dev.dvfsRequest_ctxs (k n : Nat) : (d.dvfsRequest k n).ctxs = d.ctxs := by unfold Dev.dvfsRequest; simp
@[simp] theorem Dev.dvfsRequest_streams (k n : Nat) : (d.dvfsRequest k n).streams = d.streams := by unfold Dev.dvfsRequest; simp
@[simp] theorem Dev.dvfsRequest_sets (k n : Nat) : (d.dvfsRequest k n).sets = d.sets := by unfold Dev.dvfsRequest; simp
@[simp] theorem Dev.dvfsRequest_readouts (k n : Nat) : (d.dvfsRequest k n).readouts = d.readouts := by unfold Dev.dvfsRequest; simp
@[simp] theorem Dev.dvfsRequest_engines (k n : Nat) : (d.dvfsRequest k n).engines = d.engines := by unfold Dev.dvfsRequest; simp
@[simp] theorem Dev.dvfsRequest_jpeg (k n : Nat) : (d.dvfsRequest k n).jpeg = d.jpeg := by unfold Dev.dvfsRequest; simp
@[simp] theorem Dev.dvfsRequest_pipes (k n : Nat) : (d.dvfsRequest k n).pipes = d.pipes := by unfold Dev.dvfsRequest; simp
@[simp] theorem Dev.dvfsRequest_ports (k n : Nat) : (d.dvfsRequest k n).ports = d.ports := by unfold Dev.dvfsRequest; simp
@[simp] theorem Dev.dvfsRequest_sched (k n : Nat) : (d.dvfsRequest k n).sched = d.sched := by unfold Dev.dvfsRequest; simp
@[simp] theorem Dev.dvfsRequest_gov (k n : Nat) : (d.dvfsRequest k n).gov = d.gov := by unfold Dev.dvfsRequest; simp
@[simp] theorem Dev.dvfsRequest_host (k n : Nat) : (d.dvfsRequest k n).host = d.host := by unfold Dev.dvfsRequest; simp
@[simp] theorem Dev.dvfsRequest_que (k n : Nat) : (d.dvfsRequest k n).que = d.que := by unfold Dev.dvfsRequest; simp
@[simp] theorem Dev.dvfsRequest_dram (k n : Nat) : (d.dvfsRequest k n).dram = d.dram := by unfold Dev.dvfsRequest; simp
@[simp] theorem Dev.dvfsRequest_recov (k n : Nat) : (d.dvfsRequest k n).recov = d.recov := by unfold Dev.dvfsRequest; simp
@[simp] theorem Dev.dvfsRequest_fab (k n : Nat) : (d.dvfsRequest k n).fab = d.fab := by unfold Dev.dvfsRequest; simp
@[simp] theorem Dev.dvfsRequest_pwr (k n : Nat) : (d.dvfsRequest k n).pwr = d.pwr := by unfold Dev.dvfsRequest; simp
@[simp] theorem Dev.dvfsRequest_clk (k n : Nat) : (d.dvfsRequest k n).clk = d.clk := by unfold Dev.dvfsRequest; simp
@[simp] theorem Dev.dvfsRequest_pins (k n : Nat) : (d.dvfsRequest k n).pins = d.pins := by unfold Dev.dvfsRequest; simp
@[simp] theorem Dev.dvfsRequest_nv (k n : Nat) : (d.dvfsRequest k n).nv = d.nv := by unfold Dev.dvfsRequest; simp
@[simp] theorem Dev.dvfsRequest_otp (k n : Nat) : (d.dvfsRequest k n).otp = d.otp := by unfold Dev.dvfsRequest; simp

end Sys2Proof.Machine
end

