-- ==== Sys2Proof/Laws/Mem.lean ====
section
/-!
SUPPORT. The stores: every memory operation keeps the canonical form; a byte that has been written reads back, every other byte
reads as before.
-/

namespace Sys2Proof.Machine

theorem Memory.wf_iff (m : Memory) : m.wf = true ↔ SMap.wf m.cells = true ∧ SMap.wf m.tags = true ∧ SMap.wf m.chk = true ∧
    m.cells.all (·.2 ≠ 0) = true ∧ m.tags.all (·.2 ≠ 0) = true := by
  simp [Memory.wf, Bool.and_eq_true, and_assoc]

/-- Reset memory lists nothing, in the canonical form. -/
theorem reset_mem_wf : State.reset.d.mem.wf = true := rfl

/-! ### Updates of one field of the stores -/

theorem Memory.wf_cells {m : Memory} (h : m.wf = true) (p : Nat) (b : Byte) :
    ({ m with cells := mset m.cells p 0 b } : Memory).wf = true := by
  rw [Memory.wf_iff] at h ⊢
  exact ⟨mset_wf h.1 _ _ _, h.2.1, h.2.2.1, mset_ne h.2.2.2.1 _ _, h.2.2.2.2⟩

theorem Memory.wf_tags {m : Memory} (h : m.wf = true) (c : Nat) (b : Byte) :
    ({ m with tags := mset m.tags c 0 b } : Memory).wf = true := by
  rw [Memory.wf_iff] at h ⊢
  exact ⟨h.1, mset_wf h.2.1 _ _ _, h.2.2.1, h.2.2.2.1, mset_ne h.2.2.2.2 _ _⟩

theorem Memory.wf_chk {m : Memory} (h : m.wf = true) (c : Nat) : ({ m with chk := mdel m.chk c } : Memory).wf = true := by
  rw [Memory.wf_iff] at h ⊢
  exact ⟨h.1, h.2.1, mdel_wf h.2.2.1 _, h.2.2.2⟩

theorem Memory.wf_wback {m : Memory} (h : m.wf = true) (l : List Nat) : ({ m with wback := l } : Memory).wf = true := h

theorem Memory.wf_filter {m : Memory} (h : m.wf = true) (p : Host.Cell → Bool) (q : Nat × Byte → Bool) (r : Nat × BitVec 24 → Bool) :
    ({ m with cells := m.cells.filter p, tags := m.tags.filter q, chk := m.chk.filter r } : Memory).wf = true := by
  rw [Memory.wf_iff] at h ⊢
  refine ⟨filter_wf h.1 _, filter_wf h.2.1 _, filter_wf h.2.2.1 _, ?_, ?_⟩
  · exact List.all_eq_true.2 fun x hx => List.all_eq_true.1 h.2.2.2.1 x (List.mem_of_mem_filter hx)
  · exact List.all_eq_true.2 fun x hx => List.all_eq_true.1 h.2.2.2.2 x (List.mem_of_mem_filter hx)

/-! ### The memory operations keep the canonical form -/

/-- A fold of steps that keep the canonical form keeps it. -/
theorem foldl_memWf {β : Type} (f : Dev → β → Dev) (hf : ∀ d b, d.mem.wf = true → (f d b).mem.wf = true) (l : List β) (d : Dev)
    (h : d.mem.wf = true) : (l.foldl f d).mem.wf = true := by
  induction l generalizing d with
  | nil => exact h
  | cons b r ih => exact ih _ (hf d b h)

variable {d : Dev}

@[simp] theorem Dev.dramReplace_mem (c r : Nat) : (d.dramReplace c r).mem = d.mem := by simp [Dev.dramReplace]
@[simp] theorem Dev.spareCheck_mem (c r : Nat) : (d.spareCheck c r).mem = d.mem := by
  unfold Dev.spareCheck; split <;> simp
@[simp] theorem Dev.recordRank_mem (c : Nat) : (d.recordRank c).mem = d.mem := rfl
@[simp] theorem Dev.mapOut_mem (c r : Nat) : (d.mapOut c r).mem = d.mem := by simp [Dev.mapOut]

theorem Dev.rankFail_mem (c die : Nat) : (d.rankFail c die).mem = d.mem := by
  unfold Dev.rankFail
  simp only []
  repeat' split
  all_goals simp

theorem Dev.countFail_mem (p : Nat) (b : Bool) : (d.countFail p b).mem = d.mem := by
  unfold Dev.countFail
  simp only []
  split
  · simp [Dev.rankFail_mem]
  · rfl

theorem Dev.rewritePoison_memWf (h : d.mem.wf = true) (cw : Nat) : (d.rewritePoison cw).mem.wf = true := by
  unfold Dev.rewritePoison
  split
  · exact h
  · exact Memory.wf_chk (Memory.wf_tags h _ _) _

theorem Dev.noteCw_memWf (h : d.mem.wf = true) (b : Bool) (cw : Nat) : (d.noteCw b cw).mem.wf = true := by
  unfold Dev.noteCw
  simp only []
  split
  · exact h
  · split
    · simpa using h
    · simpa using Memory.wf_wback h _
  · split
    · rw [Dev.countFail_mem]; simpa using Dev.rewritePoison_memWf (by simpa using h) _
    · simpa using Dev.rewritePoison_memWf (by simpa using h) _

theorem Dev.noteRead_memWf (h : d.mem.wf = true) (as : List Nat) : (d.noteRead as).mem.wf = true := by
  unfold Dev.noteRead
  refine foldl_memWf _ (fun d l h => by simpa using h) _ _ ?_
  exact foldl_memWf _ (fun d l h => Dev.noteCw_memWf h _ _) _ _ h

/-- What a pending correction makes of the stores before the codeword counts as accepted. -/
theorem Dev.writeBack_memWf (h : d.mem.wf = true) (cw : Nat) : (d.writeBack cw).mem.wf = true := by
  unfold Dev.writeBack
  refine Memory.wf_wback ?_ _
  cases hj : d.mem.judge cw with
  | ok => exact Memory.wf_chk h _
  | bad => exact h
  | fix q e =>
    simp only [reduceCtorEq, if_false]
    refine Memory.wf_chk ?_ _
    split
    · exact Memory.wf_cells h _ _
    · split
      · exact Memory.wf_tags h _ _
      · exact h

theorem Dev.putByte_memWf (h : d.mem.wf = true) (a : Nat) (b : Byte) : (d.putByte a b).mem.wf = true := by
  unfold Dev.putByte
  split
  · exact h
  · split
    · exact h
    · exact Memory.wf_cells h _ _

theorem Dev.prepCw_memWf (h : d.mem.wf = true) (p : Nat) (w : Bool) : (d.prepCw p w).mem.wf = true := by
  unfold Dev.prepCw
  simp only []
  refine Memory.wf_wback (Memory.wf_chk (Memory.wf_tags ?_ _ _) _) _
  cases w
  · exact Dev.writeBack_memWf (Dev.noteCw_memWf h _ _) _
  · exact h

theorem Dev.writeRun_memWf (h : d.mem.wf = true) (a : Nat) (bs : List Byte) : (d.writeRun a bs).mem.wf = true := by
  unfold Dev.writeRun
  simp only []
  refine foldl_memWf _ (fun d x h => Dev.putByte_memWf h _ _) _ _ ?_
  split
  · exact h
  · refine foldl_memWf _ (fun d c h => ?_) _ _ h
    split
    · split
      · exact h
      · exact Dev.prepCw_memWf h _ _
    · simpa using h

theorem Dev.writeCells_memWf (h : d.mem.wf = true) (ws : List (Nat × Byte)) : (d.writeCells ws).mem.wf = true :=
  foldl_memWf _ (fun _ _ h => Dev.writeRun_memWf h _ _) _ _ h

theorem Dev.setPoison_memWf (h : d.mem.wf = true) (as : List Nat) : (d.setPoison as).mem.wf = true := by
  refine foldl_memWf _ (fun d a h => ?_) _ _ h
  split
  · exact Memory.wf_tags h _ _
  · exact h

theorem Dev.zeroRange_memWf (h : d.mem.wf = true) (a n : Nat) : (d.zeroRange a n).mem.wf = true :=
  Memory.wf_filter h _ _ _

theorem Dev.clear_memWf (h : d.mem.wf = true) (a n : Nat) : (d.clear a n).mem.wf = true := by
  unfold Dev.clear
  split
  · exact Dev.zeroRange_memWf h _ _
  · exact Dev.writeRun_memWf h _ _

/-! ### A byte written and read -/

/-- Where an address lies depends on the registers alone. -/
theorem Dev.place_congr {d e : Dev} (h : d.regs = e.regs) (a : Nat) : d.place a = e.place a := by
  have hr : d.reg = e.reg := funext fun o => by simp only [Dev.reg, h]
  have hm : d.mapDie = e.mapDie := funext fun x => funext fun y => by unfold Dev.mapDie; rw [hr]
  have hf : ∀ o f, d.fld o f = e.fld o f := fun o f => by unfold Dev.fld; rw [hr]
  have hd : ∀ c r l, d.dieOf c r l = e.dieOf c r l := fun c r l => by
    unfold Dev.dieOf
    rw [hm]
    simp only [hf]
  unfold Dev.place
  rw [hd]

theorem Dev.queued_congr {d e : Dev} (h : d.dram = e.dram) (a : Nat) : d.queued a = e.queued a := by
  simp [Dev.queued, h]

/-- A place whose check symbols are the encoder's reads as it stands. -/
theorem Memory.byte_clean {m : Memory} {p : Nat} (h : mget m.chk (p / 32) = none) : m.byte p = mgetD m.cells p 0 := by
  have e : rsDelta 0#24 = .ok := by decide
  simp [Memory.byte, Memory.judge, mgetD, h, e]

/-- The byte put at an address is what the address reads as. -/
theorem Dev.rd_putByte_same {a p : Nat} (b : Byte) (hq : d.queued a = none) (hp : d.place a = some p)
    (hc : mget d.mem.chk (p / 32) = none) : (d.putByte a b).rd a = b := by
  have hp' : (d.putByte a b).place a = some p := by
    rw [Dev.place_congr (e := d) (by simp [Dev.putByte, hq, hp])]; exact hp
  have hq' : (d.putByte a b).queued a = none := by
    rw [Dev.queued_congr (e := d) (by simp [Dev.putByte, hq, hp])]; exact hq
  unfold Dev.rd
  rw [hq', hp']
  simp [Dev.putByte, hq, hp, Memory.byte_clean, hc]

/-- Every address that lies elsewhere reads as before. -/
theorem Dev.rd_putByte_ne {a p i : Nat} (b : Byte) (hq : d.queued a = none) (hp : d.place a = some p)
    (hi : d.place i ≠ some p) : (d.putByte a b).rd i = d.rd i := by
  have hp' : (d.putByte a b).place i = d.place i := Dev.place_congr (by simp [Dev.putByte, hq, hp]) i
  have hq' : (d.putByte a b).queued i = d.queued i := Dev.queued_congr (by simp [Dev.putByte, hq, hp]) i
  unfold Dev.rd
  rw [hq', hp']
  cases hpl : d.place i with
  | none => rfl
  | some r =>
    have hr : r ≠ p := fun e => hi (by rw [hpl, e])
    simp [Dev.putByte, hq, hp, Memory.byte, Memory.judge, mgetD_mset_ne _ _ _ _ hr]

end Sys2Proof.Machine
end

