-- ==== Sys2Proof/Safety.lean ====
section
/-!
DEFINITION. The terms of the claims. What counts as a safe run: the signing indices are spent once each, device time does not move back.
When a command has its own effect, and what the commands of one family have in common: what they leave as it was.
-/

namespace Sys2Proof.Machine

/-- The discipline of R503 to R505: every index taken is taken once; its epoch's fuse is blown and counted; while an epoch is open, every
index taken from it lies below the stored next index. -/
def Sec.Inv (x : Sec) : Prop :=
  x.spent.Nodup ∧
  (∀ i ∈ x.spent, mget x.fuses (i / epochSize) = some 1) ∧
  (∀ e, mget x.fuses e = some 1 → e < x.epochsUsed) ∧
  SMap.wf x.fuses = true ∧ (∀ p ∈ x.fuses, p.1 < 4096) ∧ x.epochsUsed ≤ 4096 ∧
  (x.epochOpen = true → epochSize * x.epochsUsed ≤ x.next + epochSize ∧ x.next ≤ epochSize * x.epochsUsed ∧ 0 < x.epochsUsed ∧
    mget x.fuses (x.epochsUsed - 1) = some 1 ∧ ∀ i ∈ x.spent, i < x.next)

/-- A command that is a power-on of the device (R517, R518). -/
def Instr.powersOn : Instr → Bool
  | .poresetNAssert => true
  | .powerRemoval => true
  | _ => false

/-- The device at the instant of a command: its clock reads the present device time. -/
def State.here (s : State) : Dev := { s.d with now := s.tb.time }

/-- The command answers a next state of which P holds. -/
def Answers (c : Instr) (s : State) (P : State → Prop) : Prop := ∃ t, exec c s = .next t ∧ P t

/-! ### Weline instructions -/

/-- Core c is issuing, its clock runs, and the instruction at its pc is w with opcode op (R72, R103). -/
def Dev.atInstr (d : Dev) (c op : Nat) (w : IWord) : Prop :=
  c < 8 ∧ (d.core c).issuing = true ∧ d.clocked (stackOf c) = true ∧ d.nextWord c = some w ∧ iOp w = op

/-- Nothing changes but the scalar registers, tokens and wait of core c, tokens of other cores, the sequencer's two registers of core c,
and what the homes hold of notifications and of remote token operations. -/
structure Dev.CoreOnly (d e : Dev) (c : Nat) : Prop where
  rest : e = { d with regs := e.regs, cores := e.cores, home := { d.home with notes := e.home.notes, remote := e.home.remote } }
  regs : ∀ o, o ≠ R.MC_SEQ_STATUS c → o ≠ R.MC_SEQ_RETIRED c → e.reg o = d.reg o
  context : e.fld (R.MC_SEQ_STATUS c) F.MC_SEQ_STATUS_context = d.fld (R.MC_SEQ_STATUS c) F.MC_SEQ_STATUS_context
  busy : e.fld (R.MC_SEQ_STATUS c) F.MC_SEQ_STATUS_busy = d.fld (R.MC_SEQ_STATUS c) F.MC_SEQ_STATUS_busy
  fault : e.fld (R.MC_SEQ_STATUS c) F.MC_SEQ_STATUS_fault = d.fld (R.MC_SEQ_STATUS c) F.MC_SEQ_STATUS_fault
  others : ∀ i, i ≠ c → e.core i = { d.core i with tokens := (e.core i).tokens }
  own : e.core c = { d.core c with sregs := (e.core c).sregs, tokens := (e.core c).tokens, waitSince := (e.core c).waitSince }

/-- Core c has issued and completed an instruction: its pc is next, MC_SEQ_RETIRED has counted it, it waits for nothing; nothing else
changes but what CoreOnly lets change, and device time is the present (R72, R76). -/
def Issued (s t : State) (c next : Nat) : Prop :=
  t = { s with d := t.d } ∧ Dev.CoreOnly s.here t.d c ∧ t.d.pc c = next % 2 ^ 12 ∧
  t.d.reg (R.MC_SEQ_RETIRED c) = (s.d.reg (R.MC_SEQ_RETIRED c) + 1) % 2 ^ 32 ∧
  t.d.flag (R.MC_SEQ_STATUS c) F.MC_SEQ_STATUS_tok_wait = false ∧
  t.d.flag (R.MC_SEQ_STATUS c) F.MC_SEQ_STATUS_tag_wait = false ∧ (t.d.core c).waitSince = none

/-- Token counts with n taken from token x of core c, and with n added, saturating at 255 (R76). -/
def tokMinus (T : Nat → Nat → Nat) (c x n : Nat) : Nat → Nat → Nat := fun i j => if i = c ∧ j = x then T c x - n else T i j
def tokPlus (T : Nat → Nat → Nat) (c x n : Nat) : Nat → Nat → Nat := fun i j => if i = c ∧ j = x then min 255 (T c x + n) else T i j

/-- Token counts after the wait field of w on core c, and after its signal field (R76). -/
def tokWait (T : Nat → Nat → Nat) (c : Nat) (w : IWord) : Nat → Nat → Nat := if iWaitEn w then tokMinus T c (iWaitTok w) 1 else T
def tokSignal (T : Nat → Nat → Nat) (c : Nat) (w : IWord) : Nat → Nat → Nat := if iSigEn w then tokPlus T c (iSigTok w) 1 else T

/-- Table SALU operations, on 32-bit words. -/
def saluWord (op : Nat) (a b : Word) : Word :=
  match op with
  | 0x0 => a + b
  | 0x1 => a - b
  | 0x2 => a * b
  | 0x3 => a &&& b
  | 0x4 => a ||| b
  | 0x5 => a ^^^ b
  | 0x6 => a <<< (b.toNat % 32)
  | 0x7 => a >>> (b.toNat % 32)
  | 0x8 => a.sshiftRight (b.toNat % 32)
  | 0x9 => if a.slt b then a else b
  | 0xA => if a.slt b then b else a
  | 0xB => if a.ult b then a else b
  | 0xC => if a.ult b then b else a
  | 0xD => if a.slt b then 1 else 0
  | _ => if a.ult b then 1 else 0

/-- Table Branch conditions, on 32-bit words. -/
def branchWord (cond : Nat) (a b : Word) : Bool :=
  match cond with
  | 0 => true
  | 1 => a == b
  | 2 => a != b
  | 3 => a.slt b
  | 4 => b.sle a
  | 5 => a.ult b
  | _ => b.ule a

/-- The word in scalar register i; S0 reads 0 (R73). -/
def sWord (l : List Word) (i : Nat) : Word := if i = 0 then 0 else l.getD i 0

/-- Scalar registers with v in register i; a write of S0 is ignored (R73). -/
def sPut (l : List Word) (i : Nat) (v : Word) : List Word := if i = 0 then l else l.set i v

/-- The instruction's fields are in order and its wait token is there. -/
def Dev.seqReady (d : Dev) (c op : Nat) (w : IWord) (fields : Bool) : Prop :=
  d.atInstr c op w ∧ fields = true ∧ d.waitOk c w = true

/-- The next state is the fault DESC_INVALID of core c (R103, R105). -/
def FaultsInvalid (i : Instr) (s : State) (c : Nat) : Prop :=
  exec i s = .next { s with d := s.here.fault c .descInvalid 0 }

/-! ### Memory -/

/-- The address lies in a place of its own, in no line that waits in a write queue. -/
def Dev.writable (d : Dev) (a : Nat) : Prop := d.queued a = none ∧ ∃ p, d.place a = some p ∧ ∀ x, d.place x = some p → x = a

/-- The last byte that a list of writes leaves at an address. -/
def lastAt : List (Nat × Byte) → Nat → Option Byte
  | [], _ => none
  | w :: r, x => (lastAt r x).or (if w.1 = x then some w.2 else none)

/-- Nothing changes but bytes, tag symbols, DRAM write queues, and the DRAM's counts of uncorrectable codewords; no check error appears. -/
structure Dev.BytesOnly (d e : Dev) : Prop where
  rest : e = { d with mem := e.mem, regs := e.regs, dram := e.dram }
  regs : ∀ o, (∀ c < 8, o ≠ R.DRC_CH_ECC c) → e.reg o = d.reg o
  chk : e.mem.chk = []

/-! ### The end of an instruction -/

/-- From d to e, instruction x of core c, of form f and result r, has completed and retired (R92). -/
structure Dev.Retired (d e : Dev) (c : Nat) (x : InFlight) (f : Form) (r : Res) : Prop where
  rest : e = { d with mem := e.mem, regs := e.regs, que := e.que, recov := e.recov, host := e.host, dram := e.dram, nv := e.nv, cores := e.cores, stool := e.stool, bpm := e.bpm, freeCtr := e.freeCtr, home := { d.home with tags := e.home.tags, refs := e.home.refs, locks := e.home.locks } }
  regs : ∀ o, 0x100000 ≤ o → o < 0x180000 → o ≠ R.MC_SEQ_STATUS c → o ≠ R.MC_SEQ_RETIRED c → o ≠ R.MC_ARITH_STATUS c → e.reg o = d.reg o
  others : ∀ i, i ≠ c → e.core i = d.core i
  sregs : (e.core c).sregs = (d.core c).sregs
  flight : (e.core c).inflight = (d.core c).inflight.filter fun y => y.id ≠ x.id
  pc : e.pc c = d.pc c
  count : e.reg (R.MC_SEQ_RETIRED c) = (d.reg (R.MC_SEQ_RETIRED c) + 1) % 2 ^ 32
  tok : e.tok = tokSignal d.tok c x.word
  written : ∀ y ∈ f.writes (d.core c) c, e.tag c y = .ready y.rcount
  read : ∀ y, hasTag (f.writes (d.core c) c) y = false →
    e.tag c y = if hasTag (f.reads (d.core c) c) y = true then (d.tag c y).retire else d.tag c y
  accSat : e.flag (R.MC_ARITH_STATUS c) F.MC_ARITH_STATUS_acc_sat = (r.acc || d.flag (R.MC_ARITH_STATUS c) F.MC_ARITH_STATUS_acc_sat)
  vecSat : e.flag (R.MC_ARITH_STATUS c) F.MC_ARITH_STATUS_vec_sat = (r.vsat || d.flag (R.MC_ARITH_STATUS c) F.MC_ARITH_STATUS_vec_sat)
  vecNan : e.flag (R.MC_ARITH_STATUS c) F.MC_ARITH_STATUS_vec_nan = (r.vnan || d.flag (R.MC_ARITH_STATUS c) F.MC_ARITH_STATUS_vec_nan)
  noRefs : (∀ y ∈ e.home.refs, y.2 ≠ (c, x.id)) ∧ ∀ y ∈ e.home.locks, y.2 ≠ (c, x.id)
  bytes : d.mem.chk = [] → (∀ w ∈ r.ws, d.writable w.1) → (∀ y ∈ d.home.refs, y.2 ≠ (c, x.id)) →
    ∀ a, e.rd a = (lastAt r.ws a).getD (d.rd a)

/-! ### The abort of a kernel -/

/-- Core c holds no dispatch, no instruction, no token, no wait, and no claim on the homes. -/
structure Dev.Freed (e : Dev) (c : Nat) : Prop where
  run : (e.core c).run = none
  inflight : (e.core c).inflight = []
  tokens : (e.core c).tokens = []
  claims : (e.core c).claims = []
  journal : (e.core c).journal = []
  waits : (e.core c).waitSince = none
  kend : (e.core c).kendIssued = false
  busy : e.fld (R.MC_SEQ_STATUS c) F.MC_SEQ_STATUS_busy = 0
  tagWait : e.fld (R.MC_SEQ_STATUS c) F.MC_SEQ_STATUS_tag_wait = 0
  tokWait : e.fld (R.MC_SEQ_STATUS c) F.MC_SEQ_STATUS_tok_wait = 0
  refs : ∀ r ∈ e.home.refs, r.2.1 ≠ c
  locks : ∀ l ∈ e.home.locks, l.2.1 ≠ c
  remote : ∀ r ∈ e.home.remote, r.1 ≠ c

/-- Only the cores cs, their sequencers' registers, the Stool engines, tags and what the homes hold for those cores, the frames, the
streams, the contexts' repairs, the pools and the stores change. -/
structure Dev.AbortOnly (d e : Dev) (cs : List Nat) : Prop where
  rest : e = { d with mem := e.mem, regs := e.regs, que := e.que, recov := e.recov, host := e.host, dram := e.dram, nv := e.nv, bpm := e.bpm, freeCtr := e.freeCtr, streams := e.streams, ctxs := e.ctxs, cores := e.cores, stool := e.stool, home := e.home, sched := { d.sched with frames := e.sched.frames, ckpts := e.sched.ckpts } }
  others : ∀ i, i ∉ cs → e.core i = d.core i
  regs : ∀ o, 0x100000 ≤ o → o < 0x180000 → (∀ c ∈ cs, o ≠ R.MC_SEQ_STATUS c ∧ o ≠ R.MC_ARITH_STATUS c) → e.reg o = d.reg o
  marks : ∀ o, o = R.TEL_FAULTED_LO ∨ o = R.TEL_FAULTED_HI → e.reg o = d.reg o
  refs : ∀ r ∈ e.home.refs, r ∈ d.home.refs
  locks : ∀ r ∈ e.home.locks, r ∈ d.home.locks
  remote : ∀ r ∈ e.home.remote, r ∈ d.home.remote
  sregs : ∀ i, (e.core i).sregs = (d.core i).sregs

/-- What a fault of core c leaves: every participant is free, the code stands in MC_SEQ_STATUS, the frame of the run is gone; other cores
and other frames are as they were. -/
structure Dev.Aborted (d e : Dev) (c : Nat) (code : Code) (r : Run) : Prop where
  only : Dev.AbortOnly d e (c :: d.participants c)
  freed : ∀ x ∈ d.participants c, Dev.Freed e x
  fault : e.fld (R.MC_SEQ_STATUS c) F.MC_SEQ_STATUS_fault = code.num % 2 ^ 8
  voided : ∀ f, d.runFrame r = some f →
    e.sched.frames = d.sched.frames.filter fun g => !(g.stream = f.stream && g.num = f.num && g.revisit = f.revisit)
  kept : d.runFrame r = none → e.sched.frames = d.sched.frames

end Sys2Proof.Machine
end

