-- ==== Sys2Proof/Laws/Ops.lean ====
section
/-!
SUPPORT. What the shared operations do, said once each: acting on the device, issuing an instruction of a core, answering a command of a
submission queue.
-/

namespace Sys2Proof.Machine

/-! ### Acting on the device -/

/-- Two devices that agree in every field are one. -/
theorem Dev.eq_of {d e : Dev} (h1 : d.now = e.now) (h2 : d.freeCtr = e.freeCtr) (h3 : d.mem = e.mem) (h4 : d.regs = e.regs)
    (h5 : d.cores = e.cores) (h6 : d.stool = e.stool) (h7 : d.home = e.home) (h8 : d.bpm = e.bpm) (h9 : d.images = e.images)
    (h10 : d.ctxs = e.ctxs) (h11 : d.streams = e.streams) (h12 : d.sets = e.sets) (h13 : d.readouts = e.readouts)
    (h14 : d.engines = e.engines) (h15 : d.jpeg = e.jpeg) (h16 : d.pipes = e.pipes) (h17 : d.ports = e.ports)
    (h18 : d.sched = e.sched) (h19 : d.gov = e.gov) (h20 : d.dvfs = e.dvfs) (h21 : d.host = e.host) (h22 : d.que = e.que)
    (h23 : d.dram = e.dram) (h24 : d.recov = e.recov) (h25 : d.fab = e.fab) (h26 : d.pwr = e.pwr) (h27 : d.clk = e.clk)
    (h28 : d.pins = e.pins) (h29 : d.nv = e.nv) (h30 : d.otp = e.otp) : d = e := by
  cases d; cases e
  simp only at *
  subst_vars
  rfl

variable {s : State} {d : Dev}

/-- A command that acts on the device alone always answers a next state. -/
theorem onDev_next (s : State) (f : Dev → Dev) : onDev s f = .next { s with d := f { s.d with now := s.tb.time } } := rfl

/-! ### Cores -/

@[simp] theorem Dev.core_setCore_same (d : Dev) (c : Nat) (k : Core) : (d.setCore c k).core c = k := by
  simp [Dev.core, Dev.setCore]

theorem Dev.core_setCore_ne (d : Dev) {c i : Nat} (k : Core) (h : i ≠ c) : (d.setCore c k).core i = d.core i := by
  simp [Dev.core, Dev.setCore, mgetD_mput_ne d.cores k {} h]

@[simp] theorem Dev.core_modCore_same (d : Dev) (c : Nat) (f : Core → Core) : (d.modCore c f).core c = f (d.core c) := by
  simp [Dev.modCore]

theorem Dev.core_modCore_ne (d : Dev) {c i : Nat} (f : Core → Core) (h : i ≠ c) : (d.modCore c f).core i = d.core i := by
  simp [Dev.modCore, Dev.core_setCore_ne _ _ h]

theorem Dev.core_congr {d e : Dev} (h : d.cores = e.cores) (c : Nat) : d.core c = e.core c := by simp [Dev.core, h]

@[simp] theorem Dev.core_setReg (d : Dev) (o v c : Nat) : (d.setReg o v).core c = d.core c := Dev.core_congr (by simp) c
@[simp] theorem Dev.core_setFld (d : Dev) (o : Nat) (f : Fld) (n c : Nat) : (d.setFld o f n).core c = d.core c :=
  Dev.core_congr (by simp) c
@[simp] theorem Dev.core_setPc (d : Dev) (i n c : Nat) : (d.setPc i n).core c = d.core c := Dev.core_congr (by simp) c
@[simp] theorem Dev.core_countRetired (d : Dev) (i c : Nat) : (d.countRetired i).core c = d.core c := Dev.core_congr (by simp) c

/-- The register of a device whose registers are another's. -/
theorem Dev.reg_congr {d e : Dev} (h : d.regs = e.regs) (o : Nat) : d.reg o = e.reg o := by simp [Dev.reg, h]
theorem Dev.fld_congr {d e : Dev} (h : d.regs = e.regs) (o : Nat) (f : Fld) : d.fld o f = e.fld o f := by
  simp [Dev.fld, Dev.reg_congr h]

@[simp] theorem Dev.reg_modCore (d : Dev) (c o : Nat) (f : Core → Core) : (d.modCore c f).reg o = d.reg o := Dev.reg_congr (by simp) o
@[simp] theorem Dev.fld_modCore (d : Dev) (c o : Nat) (f : Core → Core) (g : Fld) : (d.modCore c f).fld o g = d.fld o g :=
  Dev.fld_congr (by simp) o g

/-- The tokens of a core after a token is taken, and after one is added. -/
theorem Dev.tok_tokSub (d : Dev) (c t n i x : Nat) :
    (d.tokSub c t n).tok i x = if i = c ∧ x = t then d.tok c t - n else d.tok i x := by
  unfold Dev.tok Dev.tokSub
  by_cases hi : i = c
  · subst hi
    by_cases hx : x = t
    · subst hx; simp
    · simp [hx, mgetD_mput_ne _ _ _ hx]
  · simp [hi, Dev.core_modCore_ne d _ hi]

theorem Dev.tok_tokAdd (d : Dev) (c t n i x : Nat) :
    (d.tokAdd c t n).tok i x = if i = c ∧ x = t then min 255 (d.tok c t + n) else d.tok i x := by
  have hc : ∀ j, (if 255 < mgetD (d.core c).tokens t 0 + n then d.setFld (R.MC_SEQ_STATUS c) F.MC_SEQ_STATUS_tok_sat 1 else d).core j = d.core j := by
    intro j; split <;> simp
  unfold Dev.tok Dev.tokAdd
  simp only []
  by_cases hi : i = c
  · subst hi
    by_cases hx : x = t
    · subst hx; simp
    · simp [hx, hc, mgetD_mput_ne _ _ _ hx]
  · simp [hi, Dev.core_modCore_ne _ _ hi, hc]

theorem Dev.tok_congr {d e : Dev} (h : d.cores = e.cores) (c t : Nat) : d.tok c t = e.tok c t := by
  simp [Dev.tok, Dev.core_congr h]

/-! ### Instructions that complete at issue -/

theorem Dev.CoreOnly.refl (d : Dev) (c : Nat) : Dev.CoreOnly d d c := ⟨rfl, fun _ _ _ => rfl, rfl, rfl, rfl, fun _ _ => rfl, rfl⟩

theorem Dev.CoreOnly.trans {d e f : Dev} {c : Nat} (h : Dev.CoreOnly d e c) (g : Dev.CoreOnly e f c) : Dev.CoreOnly d f c where
  rest := by rw [g.rest, h.rest]
  regs o h1 h2 := (g.regs o h1 h2).trans (h.regs o h1 h2)
  context := g.context.trans h.context
  busy := g.busy.trans h.busy
  fault := g.fault.trans h.fault
  others i hi := by rw [g.others i hi, h.others i hi]
  own := by rw [g.own, h.own]

theorem Dev.coreOnly_setFld (d : Dev) (c : Nat) (f : Fld) (n : Nat) (hf : f.lsb + f.w ≤ 32)
    (h : ∀ g ∈ [F.MC_SEQ_STATUS_context, F.MC_SEQ_STATUS_busy, F.MC_SEQ_STATUS_fault],
      g.lsb + g.w ≤ f.lsb ∨ f.lsb + f.w ≤ g.lsb) : Dev.CoreOnly d (d.setFld (R.MC_SEQ_STATUS c) f n) c where
  rest := by apply Dev.eq_of <;> simp
  regs o h1 _ := d.reg_setFld_ne f n h1
  context := d.fld_setFld_other _ n hf (h _ (by simp))
  busy := d.fld_setFld_other _ n hf (h _ (by simp))
  fault := d.fld_setFld_other _ n hf (h _ (by simp))
  others i _ := by simp
  own := by simp

theorem retired_ne_status (c : Nat) : R.MC_SEQ_STATUS c ≠ R.MC_SEQ_RETIRED c := by simp only [R.MC_SEQ_STATUS, R.MC_SEQ_RETIRED]; omega

theorem Dev.coreOnly_countRetired (d : Dev) (c : Nat) : Dev.CoreOnly d (d.countRetired c) c where
  rest := by apply Dev.eq_of <;> simp
  regs o _ h2 := d.reg_setFld_ne _ _ h2
  context := d.fld_setFld_ne _ _ _ (retired_ne_status c)
  busy := d.fld_setFld_ne _ _ _ (retired_ne_status c)
  fault := d.fld_setFld_ne _ _ _ (retired_ne_status c)
  others i _ := by simp
  own := by simp

theorem Dev.coreOnly_modTokens (d : Dev) (c i : Nat) (f : Core → SMap Nat) :
    Dev.CoreOnly d (d.modCore i fun k => { k with tokens := f k }) c where
  rest := by apply Dev.eq_of <;> simp
  regs o _ _ := by simp
  context := by simp
  busy := by simp
  fault := by simp
  others j _ := by
    by_cases h : j = i
    · subst h; simp
    · simp [Dev.core_modCore_ne d _ h]
  own := by
    by_cases h : c = i
    · subst h; simp
    · simp [Dev.core_modCore_ne d _ h]

theorem Dev.coreOnly_tokSub (d : Dev) (c i t n : Nat) : Dev.CoreOnly d (d.tokSub i t n) c := d.coreOnly_modTokens c i _

theorem Dev.coreOnly_tokAdd (d : Dev) (c t n : Nat) : Dev.CoreOnly d (d.tokAdd c t n) c := by
  unfold Dev.tokAdd
  simp only []
  split
  · refine Dev.CoreOnly.trans (d.coreOnly_setFld c _ 1 (by decide) (by decide)) (Dev.coreOnly_modTokens _ c c fun k => mput k.tokens t _)
  · exact Dev.coreOnly_modTokens _ c c fun k => mput k.tokens t _

theorem Dev.coreOnly_modOwn (d : Dev) (c : Nat) (f : Core → List Word) (g : Core → Option Nat) :
    Dev.CoreOnly d (d.modCore c fun k => { k with sregs := f k, waitSince := g k }) c where
  rest := by apply Dev.eq_of <;> simp
  regs o _ _ := by simp
  context := by simp
  busy := by simp
  fault := by simp
  others j h := by simp [Dev.core_modCore_ne d _ h]
  own := by simp

theorem Dev.coreOnly_setS (d : Dev) (c i v : Nat) : Dev.CoreOnly d (d.setS c i v) c :=
  d.coreOnly_modOwn c (fun k => setSreg k.sregs i v) (fun k => k.waitSince)

theorem Dev.coreOnly_notes (d : Dev) (c : Nat) (l : List (Nat × Nat)) :
    Dev.CoreOnly d { d with home := { d.home with notes := l } } c := ⟨rfl, fun _ _ _ => rfl, rfl, rfl, rfl, fun _ _ => rfl, rfl⟩

theorem Dev.coreOnly_remote (d : Dev) (c : Nat) (l : List (Nat × Nat × Nat)) :
    Dev.CoreOnly d { d with home := { d.home with remote := l } } c := ⟨rfl, fun _ _ _ => rfl, rfl, rfl, rfl, fun _ _ => rfl, rfl⟩

theorem Dev.coreOnly_setWaits (d : Dev) (c : Nat) (b : Bool) (l : List TagRef) : Dev.CoreOnly d (d.setWaits c b l) c := by
  unfold Dev.setWaits
  refine .trans (d.coreOnly_setFld c _ _ (by decide) (by decide)) (.trans (Dev.coreOnly_setFld _ c _ _ (by decide) (by decide))
    (.trans (Dev.coreOnly_notes _ c _) (Dev.coreOnly_modOwn _ c (fun k => k.sregs) _)))

theorem Dev.coreOnly_clearWaits (d : Dev) (c : Nat) : Dev.CoreOnly d (d.clearWaits c) c :=
  .trans (d.coreOnly_setWaits c false []) (Dev.coreOnly_notes _ c _)

theorem Dev.coreOnly_takeWait (d : Dev) (c : Nat) (w : IWord) : Dev.CoreOnly d (d.takeWait c w) c := by
  unfold Dev.takeWait
  split
  · exact d.coreOnly_tokSub c c _ _
  · exact .refl d c

theorem Dev.coreOnly_signal (d : Dev) (c : Nat) (w : IWord) : Dev.CoreOnly d (d.signal c w) c := by
  unfold Dev.signal
  split
  · exact d.coreOnly_tokAdd c _ _
  · exact .refl d c

theorem Dev.coreOnly_setPc (d : Dev) (c n : Nat) : Dev.CoreOnly d (d.setPc c n) c :=
  d.coreOnly_setFld c _ n (by decide) (by decide)

/-- An effect that leaves alone the count of retired instructions, the wait bits and the wait of core c. -/
structure Quiet (c : Nat) (f : Dev → Dev) : Prop where
  only : ∀ d, Dev.CoreOnly d (f d) c
  retired : ∀ d, (f d).reg (R.MC_SEQ_RETIRED c) = d.reg (R.MC_SEQ_RETIRED c)
  tokWait : ∀ d, (f d).fld (R.MC_SEQ_STATUS c) F.MC_SEQ_STATUS_tok_wait = d.fld (R.MC_SEQ_STATUS c) F.MC_SEQ_STATUS_tok_wait
  tagWait : ∀ d, (f d).fld (R.MC_SEQ_STATUS c) F.MC_SEQ_STATUS_tag_wait = d.fld (R.MC_SEQ_STATUS c) F.MC_SEQ_STATUS_tag_wait
  since : ∀ d, ((f d).core c).waitSince = (d.core c).waitSince

theorem quiet_id (c : Nat) : Quiet c fun d => d := ⟨fun d => .refl d c, fun _ => rfl, fun _ => rfl, fun _ => rfl, fun _ => rfl⟩

theorem quiet_tokSub (c i t n : Nat) : Quiet c fun d => d.tokSub i t n :=
  ⟨fun d => d.coreOnly_tokSub c i t n, fun d => by simp [Dev.tokSub], fun d => by simp [Dev.tokSub], fun d => by simp [Dev.tokSub],
   fun d => by
    by_cases h : c = i
    · subst h; simp [Dev.tokSub]
    · simp [Dev.tokSub, Dev.core_modCore_ne d _ h]⟩

theorem quiet_tokAdd (c t n : Nat) : Quiet c fun d => d.tokAdd c t n := by
  refine ⟨fun d => d.coreOnly_tokAdd c t n, fun d => ?_, fun d => ?_, fun d => ?_, fun d => ?_⟩ <;>
    simp only [Dev.tokAdd] <;> split <;> simp [Dev.reg_setFld_ne _ _ _ (retired_ne_status c).symm]
  · exact Dev.fld_setFld_other _ _ _ (by decide) (by decide)
  · exact Dev.fld_setFld_other _ _ _ (by decide) (by decide)

theorem quiet_setS (c i v : Nat) : Quiet c fun d => d.setS c i v :=
  ⟨fun d => d.coreOnly_setS c i v, fun d => by simp [Dev.setS], fun d => by simp [Dev.setS], fun d => by simp [Dev.setS],
   fun d => by simp [Dev.setS]⟩

theorem quiet_signal (c : Nat) (w : IWord) : Quiet c fun d => d.signal c w := by
  unfold Dev.signal
  split
  · exact quiet_tokAdd c _ _
  · exact quiet_id c

theorem quiet_setPc (c n : Nat) : Quiet c fun d => d.setPc c n :=
  ⟨fun d => d.coreOnly_setPc c n, fun d => d.reg_setFld_ne _ _ (retired_ne_status c).symm,
   fun d => d.fld_setFld_other _ _ (by decide) (by decide), fun d => d.fld_setFld_other _ _ (by decide) (by decide),
   fun d => by simp⟩

theorem quiet_remote (c : Nat) (l : Dev → List (Nat × Nat × Nat)) :
    Quiet c fun d => { d with home := { d.home with remote := l d } } :=
  ⟨fun d => d.coreOnly_remote c _, fun _ => rfl, fun _ => rfl, fun _ => rfl, fun _ => rfl⟩

theorem Dev.clearWaits_cores (d : Dev) (c : Nat) :
    (d.clearWaits c).cores = (d.modCore c fun k => { k with waitSince := none }).cores := by
  simp [Dev.clearWaits, Dev.setWaits, Dev.modCore, Dev.setCore, Dev.core]

/-- Issue that no longer waits. -/
theorem Dev.clearWaits_bits (d : Dev) (c : Nat) :
    (d.clearWaits c).fld (R.MC_SEQ_STATUS c) F.MC_SEQ_STATUS_tok_wait = 0 ∧
    (d.clearWaits c).fld (R.MC_SEQ_STATUS c) F.MC_SEQ_STATUS_tag_wait = 0 ∧ ((d.clearWaits c).core c).waitSince = none ∧
    (d.clearWaits c).reg (R.MC_SEQ_RETIRED c) = d.reg (R.MC_SEQ_RETIRED c) ∧ (d.clearWaits c).pc c = d.pc c := by
  have h : (d.clearWaits c).regs = ((d.setFld (R.MC_SEQ_STATUS c) F.MC_SEQ_STATUS_tok_wait 0).setFld (R.MC_SEQ_STATUS c) F.MC_SEQ_STATUS_tag_wait 0).regs := by
    simp [Dev.clearWaits, Dev.setWaits, b2n]
  refine ⟨?_, ?_, ?_, ?_, ?_⟩
  · rw [Dev.fld_congr h, Dev.fld_setFld_other _ _ _ (by decide) (by decide), Dev.fld_setFld_same _ _ _ _ (by decide)]; simp
  · rw [Dev.fld_congr h, Dev.fld_setFld_same _ _ _ _ (by decide)]; simp
  · rw [Dev.core_congr (d.clearWaits_cores c), Dev.core_modCore_same]
  · rw [Dev.reg_congr h, Dev.reg_setFld_ne _ _ _ (retired_ne_status c).symm, Dev.reg_setFld_ne _ _ _ (retired_ne_status c).symm]
  · unfold Dev.pc
    rw [Dev.fld_congr h, Dev.fld_setFld_other _ _ _ (by decide) (by decide), Dev.fld_setFld_other _ _ _ (by decide) (by decide)]

@[simp] theorem Dev.clearWaits_tok (d : Dev) (c i x : Nat) : (d.clearWaits c).tok i x = d.tok i x := by
  have h : ∀ e : Dev, ∀ l : Option Nat, (e.modCore c fun k => { k with waitSince := l }).tok i x = e.tok i x := by
    intro e l
    unfold Dev.tok
    by_cases hi : i = c
    · subst hi; simp
    · rw [Dev.core_modCore_ne _ _ hi]
  rw [Dev.tok_congr (d.clearWaits_cores c), h]

theorem Dev.clearWaits_sregs (d : Dev) (c : Nat) : ((d.clearWaits c).core c).sregs = (d.core c).sregs := by
  rw [Dev.core_congr (d.clearWaits_cores c), Dev.core_modCore_same]

theorem Dev.takeWait_tok (d : Dev) (c : Nat) (w : IWord) : (d.takeWait c w).tok = Machine.tokWait d.tok c w := by
  funext i x
  unfold Dev.takeWait Machine.tokWait
  split
  · rw [Dev.tok_tokSub]; rfl
  · rfl

theorem Dev.signal_tok (d : Dev) (c : Nat) (w : IWord) : (d.signal c w).tok = tokSignal d.tok c w := by
  funext i x
  unfold Dev.signal tokSignal
  split
  · rw [Dev.tok_tokAdd]; rfl
  · rfl

theorem Dev.tokAdd_sregs (d : Dev) (c t n i : Nat) : ((d.tokAdd c t n).core i).sregs = (d.core i).sregs := by
  unfold Dev.tokAdd
  simp only []
  by_cases h : i = c
  · subst h
    rw [Dev.core_modCore_same]
    split <;> simp
  · rw [Dev.core_modCore_ne _ _ h]
    split <;> simp

theorem Dev.signal_sregs (d : Dev) (c i : Nat) (w : IWord) : ((d.signal c w).core i).sregs = (d.core i).sregs := by
  unfold Dev.signal
  split
  · exact d.tokAdd_sregs c _ _ i
  · rfl

theorem Dev.takeWait_sregs (d : Dev) (c : Nat) (w : IWord) : ((d.takeWait c w).core c).sregs = (d.core c).sregs := by
  unfold Dev.takeWait
  split
  · simp [Dev.tokSub]
  · rfl

/-- What an instruction does that completes at issue: all but its effect on tokens and scalar registers. -/
theorem Dev.issueSeq_done {d : Dev} {c : Nat} {w : IWord} {next : Nat} {eff : Dev → Dev} (hq : Quiet c eff)
    (hw : d.waitOk c w = true) :
    Dev.CoreOnly d (d.issueSeq c w true next eff) c ∧ (d.issueSeq c w true next eff).pc c = next % 2 ^ 12 ∧
    (d.issueSeq c w true next eff).reg (R.MC_SEQ_RETIRED c) = (d.reg (R.MC_SEQ_RETIRED c) + 1) % 2 ^ 32 ∧
    (d.issueSeq c w true next eff).flag (R.MC_SEQ_STATUS c) F.MC_SEQ_STATUS_tok_wait = false ∧
    (d.issueSeq c w true next eff).flag (R.MC_SEQ_STATUS c) F.MC_SEQ_STATUS_tag_wait = false ∧
    ((d.issueSeq c w true next eff).core c).waitSince = none := by
  have e : d.issueSeq c w true next eff = (((eff ((d.takeWait c w).clearWaits c)).setPc c next).signal c w).countRetired c := by
    simp [Dev.issueSeq, hw]
  have hb := Dev.clearWaits_bits (d.takeWait c w) c
  have hr : (d.takeWait c w).reg (R.MC_SEQ_RETIRED c) = d.reg (R.MC_SEQ_RETIRED c) := by
    unfold Dev.takeWait; split
    · simp [Dev.tokSub]
    · rfl
  have hs := quiet_signal c w
  have hp := quiet_setPc c next
  rw [e]
  refine ⟨?_, ?_, ?_, ?_, ?_, ?_⟩
  · exact .trans (d.coreOnly_takeWait c w) (.trans (Dev.coreOnly_clearWaits _ c) (.trans (hq.only _) (.trans (hp.only _)
      (.trans (hs.only _) (Dev.coreOnly_countRetired _ c)))))
  · unfold Dev.pc Dev.countRetired Dev.wrapFld
    rw [Dev.fld_setFld_ne _ _ _ _ (retired_ne_status c)]
    have hpc : ∀ x : Dev, (x.signal c w).fld (R.MC_SEQ_STATUS c) F.MC_SEQ_STATUS_pc = x.fld (R.MC_SEQ_STATUS c) F.MC_SEQ_STATUS_pc := by
      intro x
      unfold Dev.signal Dev.tokAdd
      split
      · simp only [Dev.fld_modCore]
        split
        · exact Dev.fld_setFld_other _ _ _ (by decide) (by decide)
        · rfl
      · rfl
    rw [hpc]
    exact Dev.fld_setFld_same _ _ _ _ (by decide)
  · simp only [Dev.countRetired, Dev.wrapFld, Dev.setFld, Dev.reg_setReg_same, Dev.fld]
    rw [hs.retired, hp.retired, hq.retired, hb.2.2.2.1, hr]
    have hl := d.reg_lt (R.MC_SEQ_RETIRED c)
    simp only [Fld.put, Fld.get, bits]
    omega
  · have h1 := fun n => (Dev.fld_setFld_ne ((((eff ((d.takeWait c w).clearWaits c)).setPc c next).signal c w)) F.MC_SEQ_RETIRED_retired
      F.MC_SEQ_STATUS_tok_wait n (retired_ne_status c)).trans ((hs.tokWait _).trans ((hp.tokWait _).trans ((hq.tokWait _).trans hb.1)))
    exact decide_eq_false (not_not.2 (h1 _))
  · have h1 := fun n => (Dev.fld_setFld_ne ((((eff ((d.takeWait c w).clearWaits c)).setPc c next).signal c w)) F.MC_SEQ_RETIRED_retired
      F.MC_SEQ_STATUS_tag_wait n (retired_ne_status c)).trans ((hs.tagWait _).trans ((hp.tagWait _).trans ((hq.tagWait _).trans hb.2.1)))
    exact decide_eq_false (not_not.2 (h1 _))
  · rw [Dev.core_countRetired, hs.since, hp.since, hq.since, hb.2.2.1]

/-- The tokens after an instruction that completes at issue. -/
theorem Dev.issueSeq_tok {d : Dev} {c : Nat} {w : IWord} {next : Nat} {eff : Dev → Dev} (hw : d.waitOk c w = true) :
    (d.issueSeq c w true next eff).tok = tokSignal (eff ((d.takeWait c w).clearWaits c)).tok c w := by
  have e : d.issueSeq c w true next eff = (((eff ((d.takeWait c w).clearWaits c)).setPc c next).signal c w).countRetired c := by
    simp [Dev.issueSeq, hw]
  rw [e]
  funext i x
  rw [Dev.tok_congr (e := ((eff ((d.takeWait c w).clearWaits c)).setPc c next).signal c w) (by simp), Dev.signal_tok]
  rw [show ((eff ((d.takeWait c w).clearWaits c)).setPc c next).tok = (eff ((d.takeWait c w).clearWaits c)).tok from
    funext fun i => funext fun x => Dev.tok_congr (by simp) i x]

/-- The scalar registers after an instruction that completes at issue. -/
theorem Dev.issueSeq_sregs {d : Dev} {c : Nat} {w : IWord} {next : Nat} {eff : Dev → Dev} (hw : d.waitOk c w = true) :
    ((d.issueSeq c w true next eff).core c).sregs = ((eff ((d.takeWait c w).clearWaits c)).core c).sregs := by
  have e : d.issueSeq c w true next eff = (((eff ((d.takeWait c w).clearWaits c)).setPc c next).signal c w).countRetired c := by
    simp [Dev.issueSeq, hw]
  rw [e, Dev.core_countRetired, Dev.signal_sregs, Dev.core_setPc]

/-! ### Devices that agree outside a core's sequencer -/

/-- The stores, the DRAM queues, the pools and every register below the cores' blocks are the same. -/
structure Dev.Agree (d e : Dev) : Prop where
  mem : e.mem = d.mem
  dram : e.dram = d.dram
  bpm : e.bpm = d.bpm
  reg : ∀ o, o < 0x100000 → e.reg o = d.reg o

theorem Dev.Agree.fld {d e : Dev} (h : Dev.Agree d e) {o : Nat} (ho : o < 0x100000) (f : Fld) : e.fld o f = d.fld o f := by
  simp only [Dev.fld, h.reg o ho]

theorem chanOf_lt (a : Nat) : chanOf a < 8 := by unfold chanOf bits; exact Nat.mod_lt _ (by decide)

theorem Dev.Agree.place {d e : Dev} (h : Dev.Agree d e) (a : Nat) : e.place a = d.place a := by
  have hc := chanOf_lt a
  have h1 : R.DRC_CH_MAP (chanOf a) < 0x100000 := by simp only [R.DRC_CH_MAP]; omega
  have h2 : R.DRC_CH_MIG (chanOf a) < 0x100000 := by simp only [R.DRC_CH_MIG]; omega
  have hm : ∀ x, e.mapDie (chanOf a) x = d.mapDie (chanOf a) x := fun x => by simp only [Dev.mapDie, h.reg _ h1]
  unfold Dev.place
  split
  · rfl
  · congr 1
    unfold Dev.dieOf
    rw [hm, h.fld (show R.DRC_STATUS < 0x100000 by decide), h.fld h1, h.fld h1, h.fld h2]

theorem Dev.Agree.queued {d e : Dev} (h : Dev.Agree d e) (a : Nat) : e.queued a = d.queued a := by simp only [Dev.queued, h.dram]

/-- Every byte reads the same. -/
theorem Dev.Agree.rd {d e : Dev} (h : Dev.Agree d e) (a : Nat) : e.rd a = d.rd a := by
  unfold Dev.rd; rw [h.queued, h.place, h.mem]

theorem Dev.Agree.rdLE {d e : Dev} (h : Dev.Agree d e) (a n : Nat) : e.rdLE a n = d.rdLE a n := by
  unfold Dev.rdLE Dev.rdN; simp only [h.rd]

theorem Dev.Agree.poisonAt {d e : Dev} (h : Dev.Agree d e) : e.poisonAt = d.poisonAt := by
  funext a; unfold Dev.poisonAt; rw [h.queued, h.place, h.mem]

theorem Dev.Agree.trans {d e f : Dev} (h : Dev.Agree d e) (g : Dev.Agree e f) : Dev.Agree d f :=
  ⟨g.mem.trans h.mem, g.dram.trans h.dram, g.bpm.trans h.bpm, fun o ho => (g.reg o ho).trans (h.reg o ho)⟩

theorem Dev.CoreOnly.agree {d e : Dev} {c : Nat} (h : Dev.CoreOnly d e c) : Dev.Agree d e := by
  refine ⟨?_, ?_, ?_, fun o ho => h.regs o ?_ ?_⟩
  · rw [h.rest]
  · rw [h.rest]
  · rw [h.rest]
  · simp only [R.MC_SEQ_STATUS]; omega
  · simp only [R.MC_SEQ_RETIRED]; omega

section
variable {d e : Dev} (h : Dev.Agree d e) {p : Nat} (hp : p < 64)
include h hp

theorem Dev.Agree.poolState : e.poolState p = d.poolState p := h.fld (by simp only [R.BPM_POOL_STAT]; omega) _
theorem Dev.Agree.poolCount : e.poolCount p = d.poolCount p := h.fld (by simp only [R.BPM_POOL_COUNT]; omega) _
theorem Dev.Agree.poolSize : e.poolSize p = d.poolSize p := by
  unfold Dev.poolSize; rw [h.fld (by simp only [R.BPM_POOL_CFG]; omega)]
theorem Dev.Agree.poolBase : e.poolBase p = d.poolBase p := by
  unfold Dev.poolBase; rw [h.fld (by simp only [R.BPM_POOL_BASE_HI]; omega), h.reg _ (by simp only [R.BPM_POOL_BASE_LO]; omega)]
end

theorem hPool_lt (x : Nat) : hPool x < 64 := Nat.mod_lt _ (by decide)

theorem Dev.Agree.bufAddr {d e : Dev} (h : Dev.Agree d e) (x : Nat) : e.bufAddr x = d.bufAddr x := by
  unfold Dev.bufAddr; rw [h.poolBase (hPool_lt x), h.poolSize (hPool_lt x)]

theorem Dev.Agree.buf {d e : Dev} (h : Dev.Agree d e) (x : Nat) : e.buf x = d.buf x := by
  unfold Dev.buf; simp only [h.poolState (hPool_lt x), h.poolCount (hPool_lt x), h.bpm]

theorem Dev.Agree.guardOk {d e : Dev} (h : Dev.Agree d e) (x : Nat) : e.guardOk x = d.guardOk x := by
  unfold Dev.guardOk Dev.firstPoison
  simp only [h.bufAddr, h.rdLE, h.poolCount (hPool_lt x), h.poisonAt, h.buf]

/-- Reading bytes of a store without check errors leaves the device as it is, where every byte has its place. -/
theorem Dev.noteRead_clean {d : Dev} (hc : d.mem.chk = []) {as : List Nat} (hp : ∀ a ∈ as, d.place a ≠ none) : d.noteRead as = d := by
  unfold Dev.noteRead
  have h1 : (as.filter fun a => d.place a = none) = [] := by
    rw [List.filter_eq_nil_iff]; intro a ha; simpa using hp a ha
  simp only [hc, List.filter_nil, List.map_nil, List.foldl_nil, h1]
  rfl

/-! ### The registers the log and the reports touch -/

section
variable {o : Nat}

theorem Dev.reg_logRaw (d : Dev) (e : LogEntry) (h : o ≠ R.TEL_LOG_HEAD) : (d.logRaw e).reg o = d.reg o := by
  have : (d.logRaw e).reg o = (d.setFld R.TEL_LOG_HEAD F.TEL_LOG_HEAD_next (d.fld R.TEL_LOG_HEAD F.TEL_LOG_HEAD_next + 1)).reg o :=
    Dev.reg_congr (by simp only [Dev.logRaw]) o
  rw [this, Dev.reg_setFld_ne _ _ _ h]

theorem Dev.reg_logSummaries (d : Dev) (h : o ≠ R.TEL_LOG_HEAD) : d.logSummaries.reg o = d.reg o := by
  unfold Dev.logSummaries
  refine foldl_keeps (fun d => d.reg o) _ (fun d b => ?_) _ d
  split
  · rfl
  · exact d.reg_logRaw _ h

theorem Dev.reg_logRoll (d : Dev) (h : o ≠ R.TEL_LOG_HEAD) : d.logRoll.reg o = d.reg o := by
  unfold Dev.logRoll
  split
  · rfl
  · exact d.reg_logSummaries h

theorem Dev.reg_logEv (d : Dev) (e : LogEntry) (h : o ≠ R.TEL_LOG_HEAD) : (d.logEv e).reg o = d.reg o := by
  unfold Dev.logEv
  simp only []
  split
  · rw [Dev.reg_logRaw _ _ h]; exact (Dev.reg_congr (by simp only []) o).trans (d.reg_logRoll h)
  · exact (Dev.reg_congr (by simp only []) o).trans (d.reg_logRoll h)

theorem Dev.reg_raiseVec (d : Dev) (v : Nat) : (d.raiseVec v).reg o = d.reg o := Dev.reg_congr (by simp) o
theorem Dev.reg_send (d : Dev) (w : DevWrite) : (d.send w).reg o = d.reg o := Dev.reg_congr (by simp) o

theorem Dev.reg_health (d : Dev) (a b c x y : Nat) (l : List Byte) (h : o ≠ R.TEL_LOG_HEAD) :
    (d.health a b c x y l).reg o = d.reg o := by
  unfold Dev.health
  simp only []
  split
  · exact Dev.reg_congr (by simp) o
  · rw [Dev.reg_raiseVec, Dev.reg_logEv _ _ h]; exact Dev.reg_congr (by simp) o

theorem Dev.reg_replaceCause (d : Dev) (a b x y : Nat) (h : o ≠ R.TEL_LOG_HEAD) (h' : o ≠ R.TEL_REPLACE) :
    (d.replaceCause a b x y).reg o = d.reg o := by
  unfold Dev.replaceCause
  simp only []
  split
  · rfl
  · rw [Dev.reg_raiseVec, Dev.reg_health _ _ _ _ _ _ _ h, Dev.reg_setFld_ne _ _ _ h']
end

/-- Reading a byte depends on the stores, the DRAM queues and the DRAM controller's registers alone. -/
theorem Dev.rd_of_regs {d e : Dev} (hm : e.mem = d.mem) (hd : e.dram = d.dram)
    (hr : ∀ o, 0xd0000 ≤ o → o < 0xe0000 → e.reg o = d.reg o) (a : Nat) : e.rd a = d.rd a := by
  have hc := chanOf_lt a
  have h1 : e.reg (R.DRC_CH_MAP (chanOf a)) = d.reg (R.DRC_CH_MAP (chanOf a)) := hr _ (by simp only [R.DRC_CH_MAP]; omega) (by simp only [R.DRC_CH_MAP]; omega)
  have h2 : e.reg (R.DRC_CH_MIG (chanOf a)) = d.reg (R.DRC_CH_MIG (chanOf a)) := hr _ (by simp only [R.DRC_CH_MIG]; omega) (by simp only [R.DRC_CH_MIG]; omega)
  have h3 : e.reg R.DRC_STATUS = d.reg R.DRC_STATUS := hr _ (by decide) (by decide)
  have hp : e.place a = d.place a := by
    unfold Dev.place
    split
    · rfl
    · congr 1
      unfold Dev.dieOf Dev.mapDie Dev.fld
      rw [h1, h2, h3]
  have hq : e.queued a = d.queued a := by simp only [Dev.queued, hd]
  unfold Dev.rd; rw [hq, hp, hm]

/-! ### What the stores' operations leave alone -/

/-- The register lies outside what an access to the stores may count or log: not TEL_LOG_HEAD or TEL_REPLACE, not the DRAM controller's
block, not the counters of the cabinet and the scratch stores. -/
def inBlocks (o : Nat) : Prop := o < 0x4000c ∨ o = 0x40018 ∨ o = 0x4001c ∨ (0x50000 ≤ o ∧ o < 0xd0000) ∨ (0xe0000 ≤ o ∧ o < 0x200000)

/-- Nothing changes but the stores, the registers that count and log their accesses, queues, the log, what waits for the host, the DRAM
controller and flash. -/
structure Dev.StoresOnly (d e : Dev) : Prop where
  rest : e = { d with mem := e.mem, regs := e.regs, que := e.que, recov := e.recov, host := e.host, dram := e.dram, nv := e.nv }
  regs : ∀ o, inBlocks o → e.reg o = d.reg o

theorem Dev.StoresOnly.refl (d : Dev) : Dev.StoresOnly d d := ⟨rfl, fun _ _ => rfl⟩

theorem Dev.StoresOnly.trans {d e f : Dev} (h : Dev.StoresOnly d e) (g : Dev.StoresOnly e f) : Dev.StoresOnly d f :=
  ⟨by rw [g.rest, h.rest], fun o h1 => (g.regs o h1).trans (h.regs o h1)⟩

theorem Dev.StoresOnly.foldl {β : Type} {f : Dev → β → Dev} (hf : ∀ d b, Dev.StoresOnly d (f d b)) (l : List β) (d : Dev) :
    Dev.StoresOnly d (l.foldl f d) := by
  induction l generalizing d with
  | nil => exact .refl d
  | cons b r ih => exact (hf d b).trans (ih _)

/-- A register that an access to the stores may change. -/
def awayFromCores (o : Nat) : Prop := ¬ inBlocks o

theorem drcMap_away {c : Nat} (hc : c < 8) : awayFromCores (R.DRC_CH_MAP c) := by simp only [awayFromCores, inBlocks, R.DRC_CH_MAP]; omega
theorem drcMig_away {c : Nat} (hc : c < 8) : awayFromCores (R.DRC_CH_MIG c) := by simp only [awayFromCores, inBlocks, R.DRC_CH_MIG]; omega
theorem drcEcc_away {c : Nat} (hc : c < 8) : awayFromCores (R.DRC_CH_ECC c) := by simp only [awayFromCores, inBlocks, R.DRC_CH_ECC]; omega
theorem eccReg_away (p : Nat) : awayFromCores (eccReg p) := by
  have := Nat.mod_lt (p / 2 ^ 6) (Nat.two_pow_pos 3)
  unfold eccReg awayFromCores inBlocks
  simp only [R.DRC_CH_ECC, R.CAB_ECC_COUNT, R.SST_ECC_COUNT, bits]
  split_ifs <;> omega

section
variable (d : Dev)

theorem Dev.storesOnly_setFld {o : Nat} (f : Fld) (n : Nat) (h : awayFromCores o) : Dev.StoresOnly d (d.setFld o f n) :=
  ⟨by apply Dev.eq_of <;> simp, fun i h1 => d.reg_setFld_ne _ _ (fun e => h (e ▸ h1))⟩
theorem Dev.storesOnly_mem (m : Memory) : Dev.StoresOnly d { d with mem := m } := ⟨rfl, fun _ _ => rfl⟩
theorem Dev.storesOnly_dram (x : Dram) : Dev.StoresOnly d { d with dram := x } := ⟨rfl, fun _ _ => rfl⟩
theorem Dev.storesOnly_satFld {o : Nat} (f : Fld) (n : Nat) (h : awayFromCores o) : Dev.StoresOnly d (d.satFld o f n) :=
  d.storesOnly_setFld f _ h
theorem Dev.storesOnly_logEv (e : LogEntry) : Dev.StoresOnly d (d.logEv e) :=
  ⟨by apply Dev.eq_of <;> simp, fun i h1 => d.reg_logEv e (by simp only [inBlocks] at h1; simp only [R.TEL_LOG_HEAD]; omega)⟩
theorem Dev.storesOnly_health (a b c x y : Nat) (l : List Byte) : Dev.StoresOnly d (d.health a b c x y l) :=
  ⟨by apply Dev.eq_of <;> simp, fun i h1 => d.reg_health _ _ _ _ _ _ (by simp only [inBlocks] at h1; simp only [R.TEL_LOG_HEAD]; omega)⟩
theorem Dev.storesOnly_replaceCause (a b x y : Nat) : Dev.StoresOnly d (d.replaceCause a b x y) :=
  ⟨by apply Dev.eq_of <;> simp, fun i h1 => d.reg_replaceCause _ _ _ _ (by simp only [inBlocks] at h1; simp only [R.TEL_LOG_HEAD]; omega)
    (by simp only [inBlocks] at h1; simp only [R.TEL_REPLACE]; omega)⟩
theorem Dev.storesOnly_dramReplace (c r : Nat) : Dev.StoresOnly d (d.dramReplace c r) := d.storesOnly_replaceCause _ _ _ _
theorem Dev.storesOnly_spareCheck (c r : Nat) : Dev.StoresOnly d (d.spareCheck c r) := by
  unfold Dev.spareCheck; split
  · exact d.storesOnly_dramReplace c r
  · exact .refl d
theorem Dev.storesOnly_recordRank (c : Nat) : Dev.StoresOnly d (d.recordRank c) := ⟨rfl, fun _ _ => rfl⟩
theorem Dev.storesOnly_mapOut {c : Nat} (hc : c < 8) (r : Nat) : Dev.StoresOnly d (d.mapOut c r) :=
  .trans (d.storesOnly_setFld _ _ (drcMap_away hc)) (.trans (Dev.storesOnly_setFld _ _ _ (by simp only [awayFromCores, inBlocks, R.DRC_STATUS]; omega)) (.trans (Dev.storesOnly_recordRank _ _)
    (.trans (Dev.storesOnly_health _ _ _ _ _ _ _) (Dev.storesOnly_dramReplace _ _ _))))

theorem Dev.storesOnly_rankFail {c : Nat} (hc : c < 8) (die : Nat) : Dev.StoresOnly d (d.rankFail c die) := by
  unfold Dev.rankFail
  simp only []
  split
  · refine .trans ?_ (.trans (Dev.storesOnly_recordRank _ _) (.trans (Dev.storesOnly_health _ _ _ _ _ _ _) (Dev.storesOnly_spareCheck _ _ _)))
    split
    · exact d.storesOnly_setFld _ _ (drcMap_away hc)
    · split
      · exact .trans (d.storesOnly_setFld _ _ (drcMap_away hc)) (Dev.storesOnly_dramReplace _ _ _)
      · split
        · exact .trans (d.storesOnly_setFld _ _ (drcMap_away hc)) (Dev.storesOnly_mapOut _ hc _)
        · exact .refl d
  · split
    · exact .refl d
    · split
      · exact .trans (d.storesOnly_setFld _ _ (drcMap_away hc)) (.trans (Dev.storesOnly_setFld _ _ _ (drcMap_away hc))
          (.trans (Dev.storesOnly_setFld _ _ _ (drcMig_away hc)) (.trans (Dev.storesOnly_recordRank _ _) (Dev.storesOnly_health _ _ _ _ _ _ _))))
      · split
        · exact .refl d
        · exact d.storesOnly_mapOut hc _

theorem Dev.storesOnly_countFail (p : Nat) (b : Bool) : Dev.StoresOnly d (d.countFail p b) := by
  have hc : bits p 6 3 < 8 := Nat.mod_lt _ (by decide)
  unfold Dev.countFail
  simp only []
  split
  · exact .trans (d.storesOnly_dram _) (Dev.storesOnly_rankFail _ hc _)
  · exact d.storesOnly_dram _

theorem Dev.storesOnly_rewritePoison (cw : Nat) : Dev.StoresOnly d (d.rewritePoison cw) := by
  unfold Dev.rewritePoison; split
  · exact .refl d
  · exact d.storesOnly_mem _

theorem Dev.storesOnly_noteCw (b : Bool) (cw : Nat) : Dev.StoresOnly d (d.noteCw b cw) := by
  unfold Dev.noteCw
  simp only []
  split
  · exact .refl d
  · split
    · exact d.storesOnly_satFld _ _ (eccReg_away _)
    · exact .trans (d.storesOnly_satFld _ _ (eccReg_away _)) (Dev.storesOnly_mem _ _)
  · refine .trans (.trans (.trans (d.storesOnly_satFld (o := eccReg (32 * cw)) F.CAB_ECC_COUNT_uncorrectable 1 (eccReg_away _))
      (Dev.storesOnly_rewritePoison _ cw))
      (Dev.storesOnly_logEv _ { code := Code.poison.num, unit := eccUnit (32 * cw), addr := d.unplace (32 * cw) })) ?_
    split
    · exact Dev.storesOnly_countFail _ _ _
    · exact .refl _

theorem Dev.storesOnly_noteRead (as : List Nat) : Dev.StoresOnly d (d.noteRead as) :=
  .trans (.foldl (fun d cw => d.storesOnly_noteCw false cw) _ d) (.foldl (fun d _ => d.storesOnly_satFld _ 1 (drcEcc_away (chanOf_lt _))) _ _)

theorem Dev.storesOnly_writeBack (cw : Nat) : Dev.StoresOnly d (d.writeBack cw) := d.storesOnly_mem _

theorem Dev.storesOnly_putByte (a : Nat) (b : Byte) : Dev.StoresOnly d (d.putByte a b) := by
  unfold Dev.putByte
  split
  · exact d.storesOnly_dram _
  · split
    · exact .refl d
    · exact d.storesOnly_mem _

theorem Dev.storesOnly_prepCw (p : Nat) (w : Bool) : Dev.StoresOnly d (d.prepCw p w) := by
  unfold Dev.prepCw
  simp only []
  cases w
  · exact .trans (.trans (d.storesOnly_noteCw false (p / 32)) (Dev.storesOnly_writeBack _ _)) (Dev.storesOnly_mem _ _)
  · exact d.storesOnly_mem _

theorem Dev.storesOnly_writeRun (a : Nat) (bs : List Byte) : Dev.StoresOnly d (d.writeRun a bs) := by
  unfold Dev.writeRun
  simp only []
  refine .trans ?_ (.foldl (fun d _ => d.storesOnly_putByte _ _) _ _)
  split
  · exact .refl d
  · refine .foldl (fun d c => ?_) _ _
    split
    · split
      · exact .refl d
      · exact d.storesOnly_prepCw _ _
    · exact d.storesOnly_satFld _ _ (drcEcc_away (chanOf_lt _))

theorem Dev.storesOnly_writeCells (ws : List (Nat × Byte)) : Dev.StoresOnly d (d.writeCells ws) :=
  .foldl (fun d _ => d.storesOnly_writeRun _ _) _ _

theorem Dev.storesOnly_setPoison (as : List Nat) : Dev.StoresOnly d (d.setPoison as) := by
  refine .foldl (fun d a => ?_) _ _
  split
  · exact d.storesOnly_mem _
  · exact .refl d

theorem Dev.storesOnly_clear (a n : Nat) : Dev.StoresOnly d (d.clear a n) := by
  unfold Dev.clear; split
  · exact d.storesOnly_mem _
  · exact d.storesOnly_writeRun _ _
end

end Sys2Proof.Machine
end

