-- ==== Sys2Proof/Laws/Bytes.lean ====
section
/-!
SUPPORT. What a write leaves in memory: on stores without check errors, every byte written reads as written and every other byte as
before; reading, poisoning and counting change no byte.
-/

namespace Sys2Proof.Machine

/-- Bytes, check symbols, DRAM queues and places are the same. -/
structure Dev.SameBytes (d e : Dev) : Prop where
  cells : e.mem.cells = d.mem.cells
  chk : e.mem.chk = d.mem.chk
  dram : e.dram = d.dram
  place : e.place = d.place

theorem Dev.SameBytes.refl (d : Dev) : Dev.SameBytes d d := ⟨rfl, rfl, rfl, rfl⟩
theorem Dev.SameBytes.trans {d e f : Dev} (h : Dev.SameBytes d e) (g : Dev.SameBytes e f) : Dev.SameBytes d f :=
  ⟨g.cells.trans h.cells, g.chk.trans h.chk, g.dram.trans h.dram, g.place.trans h.place⟩

theorem Dev.SameBytes.queued {d e : Dev} (h : Dev.SameBytes d e) : e.queued = d.queued := by
  funext a; unfold Dev.queued; rw [h.dram]

/-- Every byte reads the same. -/
theorem Dev.SameBytes.rd {d e : Dev} (h : Dev.SameBytes d e) : e.rd = d.rd := by
  funext a
  unfold Dev.rd
  rw [h.queued, h.place]
  simp only [Memory.byte, Memory.judge, h.cells, h.chk]

theorem Dev.SameBytes.foldl {β : Type} {f : Dev → β → Dev} (l : List β) (d : Dev)
    (hf : ∀ e b, b ∈ l → Dev.SameBytes d e → Dev.SameBytes e (f e b)) : Dev.SameBytes d (l.foldl f d) := by
  have key : ∀ (l' : List β) (e : Dev), (∀ b ∈ l', b ∈ l) → Dev.SameBytes d e → Dev.SameBytes d (l'.foldl f e) := by
    intro l'
    induction l' with
    | nil => intro e _ h; exact h
    | cons b r ih => intro e hb h; exact ih _ (fun x hx => hb x (List.mem_cons_of_mem _ hx)) (h.trans (hf e b (hb b (List.mem_cons_self)) h))
  exact key l d (fun _ h => h) (.refl d)

/-- The registers a place depends on. -/
def Dev.mapRegs (o : Nat) : Prop := o = R.DRC_STATUS ∨ ∃ c < 8, o = R.DRC_CH_MAP c ∨ o = R.DRC_CH_MIG c

theorem Dev.place_of_regs {d e : Dev} (h : ∀ o, Dev.mapRegs o → e.reg o = d.reg o) : e.place = d.place := by
  funext a
  have hc := chanOf_lt a
  have h1 := h (R.DRC_CH_MAP (chanOf a)) (.inr ⟨_, hc, .inl rfl⟩)
  have h2 := h (R.DRC_CH_MIG (chanOf a)) (.inr ⟨_, hc, .inr rfl⟩)
  have h3 := h R.DRC_STATUS (.inl rfl)
  unfold Dev.place
  split
  · rfl
  · congr 1
    unfold Dev.dieOf Dev.mapDie Dev.fld
    rw [h1, h2, h3]

/-- A register that no place depends on. -/
theorem Dev.sameBytes_setFld (d : Dev) {o : Nat} (f : Fld) (n : Nat) (h : ¬ Dev.mapRegs o) : Dev.SameBytes d (d.setFld o f n) :=
  ⟨by simp, by simp, by simp, Dev.place_of_regs fun i hi => d.reg_setFld_ne f n fun e => h (e ▸ hi)⟩

theorem not_mapRegs_ecc {c : Nat} (hc : c < 8) : ¬ Dev.mapRegs (R.DRC_CH_ECC c) := by
  rintro (h | ⟨k, hk, h | h⟩)
  · simp only [R.DRC_CH_ECC, R.DRC_STATUS] at h; omega
  · simp only [R.DRC_CH_ECC, R.DRC_CH_MAP] at h; omega
  · simp only [R.DRC_CH_ECC, R.DRC_CH_MIG] at h; omega

theorem not_mapRegs_high {o : Nat} (h : 0xe0000 ≤ o) : ¬ Dev.mapRegs o := by
  rintro (e | ⟨k, hk, e | e⟩)
  · simp only [R.DRC_STATUS] at e; omega
  · simp only [R.DRC_CH_MAP] at e; omega
  · simp only [R.DRC_CH_MIG] at e; omega

theorem Memory.judge_clean {m : Memory} (h : m.chk = []) (cw : Nat) : m.judge cw = .ok := by
  have e : rsDelta 0#24 = .ok := by decide
  simp [Memory.judge, mgetD, h, e]

/-- Reading bytes of a store without check errors changes no byte. -/
theorem Dev.sameBytes_noteRead (d : Dev) (hc : d.mem.chk = []) (as : List Nat) : Dev.SameBytes d (d.noteRead as) := by
  unfold Dev.noteRead
  simp only [hc, List.filter_nil, List.map_nil, List.foldl_nil]
  exact .foldl _ _ fun e b _ _ => e.sameBytes_setFld _ _ (not_mapRegs_ecc (chanOf_lt _))

theorem Dev.sameBytes_setPoison (d : Dev) (as : List Nat) : Dev.SameBytes d (d.setPoison as) := by
  refine .foldl _ _ fun e b _ _ => ?_
  split
  · exact ⟨rfl, rfl, rfl, rfl⟩
  · exact .refl e

theorem Dev.sameBytes_prepCw (d : Dev) (hc : d.mem.chk = []) (p : Nat) (w : Bool) : Dev.SameBytes d (d.prepCw p w) := by
  have hd : mdel ([] : SMap (BitVec 24)) (p / 32) = [] := rfl
  unfold Dev.prepCw
  cases w
  · have h1 : d.noteCw false (p / 32) = d := by unfold Dev.noteCw; simp only [Memory.judge_clean hc]
    have h2 : (d.writeBack (p / 32)) = { d with mem := { d.mem with wback := d.mem.wback.filter (· ≠ p / 32) } } := by
      unfold Dev.writeBack
      simp only [Memory.judge_clean hc]
      simp [hc, mdel]
    simp only [Bool.false_eq_true, if_false, h1, h2]
    exact ⟨rfl, by simp [hc, mdel], rfl, Dev.place_of_regs fun _ _ => rfl⟩
  · exact ⟨rfl, by simp [hc, mdel], rfl, Dev.place_of_regs fun _ _ => rfl⟩

/-- An address below the DRAM is writable. -/
theorem Dev.writable_low (d : Dev) {a : Nat} (h : a < dramBase) : d.writable a := by
  refine ⟨by simp [Dev.queued, h], a, by simp [Dev.place, h], fun x hx => ?_⟩
  unfold Dev.place at hx
  split at hx
  · simpa using hx
  · cases hd : d.dieOf (chanOf x) (rankOf x) (lineOf x) with
    | none => simp [hd] at hx
    | some e =>
      simp only [hd, Option.map_some, Option.some.injEq, dramPlace] at hx
      simp only [dramBase] at h
      omega

theorem mget_writes (ws : List (Nat × Byte)) (m : SMap Byte) (x : Nat) :
    mget (ws.foldl (fun m w => mput m w.1 w.2) m) x = (lastAt ws x).or (mget m x) := by
  induction ws generalizing m with
  | nil => rfl
  | cons w r ih =>
    rw [List.foldl_cons, ih, lastAt]
    by_cases h : w.1 = x
    · subst h; cases lastAt r w.1 <;> simp
    · rw [mget_mput_ne _ _ (Ne.symm h)]; cases lastAt r x <;> simp [h]

/-- Bytes put one by one. -/
theorem Dev.rd_puts (ws : List (Nat × Byte)) (d : Dev) (hc : d.mem.chk = []) (hw : ∀ w ∈ ws, d.writable w.1) :
    let e := ws.foldl (fun d w => d.putByte w.1 w.2) d
    (∀ x, e.rd x = (lastAt ws x).getD (d.rd x)) ∧ e.mem.chk = [] ∧ e.place = d.place ∧ e.queued = d.queued := by
  induction ws generalizing d with
  | nil => exact ⟨fun x => rfl, hc, rfl, rfl⟩
  | cons w r ih =>
    obtain ⟨hq, p, hp, hu⟩ := hw w (List.mem_cons_self)
    have e1 : d.putByte w.1 w.2 = { d with mem := { d.mem with cells := mset d.mem.cells p 0 w.2 } } := by
      unfold Dev.putByte; rw [hq, hp]
    have hp' : (d.putByte w.1 w.2).place = d.place := by rw [e1]; exact funext fun a => Dev.place_congr rfl a
    have hq' : (d.putByte w.1 w.2).queued = d.queued := by rw [e1]; exact funext fun a => Dev.queued_congr rfl a
    have hc' : (d.putByte w.1 w.2).mem.chk = [] := by rw [e1]; exact hc
    have hw' : ∀ v ∈ r, (d.putByte w.1 w.2).writable v.1 := by
      intro v hv; have := hw v (List.mem_cons_of_mem _ hv); unfold Dev.writable; rw [hp', hq']; exact this
    obtain ⟨i1, i2, i3, i4⟩ := ih _ hc' hw'
    simp only [List.foldl_cons]
    refine ⟨fun x => ?_, i2, i3.trans hp', i4.trans hq'⟩
    rw [i1, lastAt]
    cases lastAt r x with
    | some b => simp
    | none =>
      by_cases h : w.1 = x
      · subst h
        simp [Dev.rd_putByte_same w.2 hq hp (by rw [hc]; rfl)]
      · have : d.place x ≠ some p := fun hx => h (hu x hx).symm
        simp [h, Dev.rd_putByte_ne w.2 hq hp this]

theorem Dev.SameBytes.writable {d e : Dev} (h : Dev.SameBytes d e) {a : Nat} : e.writable a ↔ d.writable a := by
  unfold Dev.writable; rw [h.queued, h.place]

/-- The writes of a run. -/
def runWrites (a : Nat) (bs : List Byte) : List (Nat × Byte) := (bs.zipIdx).map fun x => (a + x.2, x.1)

/-- A run written. -/
theorem Dev.rd_writeRun (d : Dev) (hc : d.mem.chk = []) (a : Nat) (bs : List Byte) (hw : ∀ w ∈ runWrites a bs, d.writable w.1) :
    let e := d.writeRun a bs
    (∀ x, e.rd x = (lastAt (runWrites a bs) x).getD (d.rd x)) ∧ e.mem.chk = [] ∧ e.place = d.place ∧ e.queued = d.queued := by
  unfold Dev.writeRun
  simp only []
  have hz : ∀ e : Dev, (bs.zipIdx).foldl (fun d x => d.putByte (a + x.2) x.1) e = (runWrites a bs).foldl (fun d w => d.putByte w.1 w.2) e := by
    intro e; rw [runWrites, List.foldl_map]
  simp only [hz]
  have hs : Dev.SameBytes d (if bs.length = 0 then d else
      ((List.range ((a + bs.length - 1) / 32 + 1 - a / 32)).map (a / 32 + ·)).foldl (fun d c =>
        match d.place (32 * c) with
        | some p => if (d.queued (32 * c)).isSome then d else d.prepCw p (a ≤ 32 * c && 32 * c + 32 ≤ a + bs.length)
        | none => d.satFld (R.DRC_CH_ECC (chanOf (32 * c))) F.DRC_CH_ECC_uncorrectable 1) d) := by
    split
    · exact .refl d
    · refine .foldl _ _ fun e b _ he => ?_
      split
      · split
        · exact .refl e
        · exact e.sameBytes_prepCw (by rw [he.chk, hc]) _ _
      · exact e.sameBytes_setFld _ _ (not_mapRegs_ecc (chanOf_lt _))
  generalize (if bs.length = 0 then d else _) = g at *
  obtain ⟨i1, i2, i3, i4⟩ := Dev.rd_puts (runWrites a bs) g (by rw [hs.chk, hc]) (fun w h => hs.writable.2 (hw w h))
  refine ⟨fun x => ?_, i2, i3.trans hs.place, i4.trans hs.queued⟩
  have := i1 x
  rw [hs.rd] at this
  exact this

theorem lastAt_run (a : Nat) (bs : List Byte) (x : Nat) : lastAt (runWrites a bs) x = if a ≤ x then bs[x - a]? else none := by
  unfold runWrites
  have key : ∀ (bs : List Byte) (k : Nat), lastAt ((bs.zipIdx k).map fun x => (a + x.2, x.1)) x = if a + k ≤ x then bs[x - (a + k)]? else none := by
    intro bs
    induction bs with
    | nil => intro k; simp [lastAt]
    | cons b r ih =>
      intro k
      rw [List.zipIdx_cons, List.map_cons, lastAt, ih]
      by_cases h : a + k = x
      · subst h; simp
      · simp only [h, if_false, Option.or_none]
        by_cases h2 : a + k ≤ x
        · have h3 : a + (k + 1) ≤ x := by omega
          rw [if_pos h2, if_pos h3, show x - (a + k) = (x - (a + (k + 1))) + 1 by omega]
          simp
        · have h3 : ¬ a + (k + 1) ≤ x := by omega
          rw [if_neg h2, if_neg h3]
  simpa using key bs 0

/-- What runs write: the same as the list they were split from, where its addresses rise. -/
theorem splitRuns_writes (m : List (Nat × Byte)) : (splitRuns m).flatMap (fun r => runWrites r.1 r.2) = m := by
  have hrun : ∀ (a : Nat) (b : Byte) (bs : List Byte), runWrites a (b :: bs) = (a, b) :: runWrites (a + 1) bs := by
    intro a b bs
    unfold runWrites
    rw [List.zipIdx_cons, List.map_cons, List.zipIdx_eq_zip_range', List.zipIdx_eq_zip_range']
    simp only [Nat.add_zero, Nat.zero_add, List.cons.injEq, true_and]
    rw [show List.range' 1 bs.length = (List.range' 0 bs.length).map (1 + ·) by simp [List.range'_eq_map_range]]
    rw [List.zip_map_right, List.map_map]
    congr 1
    funext x
    simp [Nat.add_assoc]
  induction m with
  | nil => rfl
  | cons w r ih =>
    obtain ⟨a, b⟩ := w
    unfold splitRuns
    cases hs : splitRuns r with
    | nil => rw [hs] at ih; simp at ih; subst ih; simp [hrun]; rfl
    | cons q qs =>
      obtain ⟨a', bs⟩ := q
      rw [hs] at ih
      simp only []
      split
      · rename_i h
        simp only [List.flatMap_cons, hrun] at ih ⊢
        rw [h, List.cons_append, ih]
      · simp only [List.flatMap_cons, hrun] at ih ⊢
        rw [ih]; rfl

theorem lastAt_append (a b : List (Nat × Byte)) (x : Nat) : lastAt (a ++ b) x = (lastAt b x).or (lastAt a x) := by
  induction a with
  | nil => simp [lastAt]
  | cons w r ih => rw [List.cons_append, lastAt, ih, lastAt]; cases lastAt b x <;> simp

/-- With rising addresses the last byte at an address is the one listed for it. -/
theorem lastAt_wf {m : SMap Byte} (h : m.Pairwise fun p q => p.1 < q.1) (x : Nat) : lastAt m x = mget m x := by
  induction m with
  | nil => rfl
  | cons w r ih =>
    rw [List.pairwise_cons] at h
    rw [lastAt, ih h.2]
    obtain ⟨a, b⟩ := w
    have hn : ∀ (r : SMap Byte), (∀ q ∈ r, a < q.1) → mget r a = none := by
      intro r
      induction r with
      | nil => intro _; rfl
      | cons q s ihs =>
        intro hq
        have h1 := hq q (List.mem_cons_self)
        obtain ⟨j, v⟩ := q
        simp only [mget]
        rw [if_neg (by simp at h1; omega)]
        exact ihs fun z hz => hq z (List.mem_cons_of_mem _ hz)
    simp only [mget]
    by_cases hx : a = x
    · subst hx; simp [hn r h.1]
    · simp [hx]

/-- Scattered bytes written: every address reads the last byte written there, every other address as before. -/
theorem Dev.rd_writeCells (d : Dev) (hc : d.mem.chk = []) (ws : List (Nat × Byte)) (hw : ∀ w ∈ ws, d.writable w.1) :
    let e := d.writeCells ws
    (∀ x, e.rd x = (lastAt ws x).getD (d.rd x)) ∧ e.mem.chk = [] ∧ e.place = d.place ∧ e.queued = d.queued := by
  unfold Dev.writeCells
  have hwf : SMap.wf (ws.foldl (fun m w => mput m w.1 w.2) ([] : SMap Byte)) = true := by
    have : ∀ (ws : List (Nat × Byte)) (m : SMap Byte), SMap.wf m = true → SMap.wf (ws.foldl (fun m w => mput m w.1 w.2) m) = true := by
      intro ws
      induction ws with
      | nil => intro m h; exact h
      | cons w r ih => intro m h; exact ih _ (mput_wf h _ _)
    exact this ws [] rfl
  have hm := fun x => mget_writes ws [] x
  have hmem : ∀ p ∈ ws.foldl (fun m w => mput m w.1 w.2) ([] : SMap Byte), ∃ w ∈ ws, w.1 = p.1 := by
    have : ∀ (ws : List (Nat × Byte)) (m : SMap Byte) (p : Nat × Byte), p ∈ ws.foldl (fun m w => mput m w.1 w.2) m → p ∈ m ∨ ∃ w ∈ ws, w.1 = p.1 := by
      intro ws
      induction ws with
      | nil => intro m p h; exact .inl h
      | cons w r ih =>
        intro m p h
        rcases ih _ p h with h | ⟨v, hv, he⟩
        · rcases mem_mput h with h | h
          · exact .inr ⟨w, List.mem_cons_self, by rw [h]⟩
          · exact .inl h
        · exact .inr ⟨v, List.mem_cons_of_mem _ hv, he⟩
    intro p hp
    exact (this ws [] p hp).elim (fun h => by simp at h) id
  generalize ws.foldl (fun m w => mput m w.1 w.2) ([] : SMap Byte) = m at *
  have hruns : ∀ (rs : List (Nat × List Byte)) (d : Dev), d.mem.chk = [] → (∀ r ∈ rs, ∀ w ∈ runWrites r.1 r.2, d.writable w.1) →
      let e := rs.foldl (fun d r => d.writeRun r.1 r.2) d
      (∀ x, e.rd x = (lastAt (rs.flatMap fun r => runWrites r.1 r.2) x).getD (d.rd x)) ∧ e.mem.chk = [] ∧ e.place = d.place ∧ e.queued = d.queued := by
    intro rs
    induction rs with
    | nil => intro d h _; exact ⟨fun x => rfl, h, rfl, rfl⟩
    | cons r q ih =>
      intro d h hr
      obtain ⟨j1, j2, j3, j4⟩ := d.rd_writeRun h r.1 r.2 (hr r (List.mem_cons_self))
      obtain ⟨i1, i2, i3, i4⟩ := ih (d.writeRun r.1 r.2) j2 fun s hs w hw' => by
        have := hr s (List.mem_cons_of_mem _ hs) w hw'
        unfold Dev.writable; rw [j3, j4]; exact this
      refine ⟨fun x => ?_, i2, i3.trans j3, i4.trans j4⟩
      simp only [List.foldl_cons]
      rw [i1, j1, List.flatMap_cons, lastAt_append]
      cases lastAt (q.flatMap fun r => runWrites r.1 r.2) x <;> simp
  obtain ⟨r1, r2, r3, r4⟩ := hruns (splitRuns m) d hc fun r hr w hw' => by
    have : w ∈ (splitRuns m).flatMap fun r => runWrites r.1 r.2 := List.mem_flatMap.2 ⟨r, hr, hw'⟩
    rw [splitRuns_writes] at this
    obtain ⟨v, hv, he⟩ := hmem w this
    rw [← he]; exact hw v hv
  refine ⟨fun x => ?_, r2, r3, r4⟩
  rw [r1, splitRuns_writes, lastAt_wf ((SMap.wf_iff m).1 hwf), hm]
  simp

/-! ### On stores without check errors -/

theorem Dev.BytesOnly.refl {d : Dev} (h : d.mem.chk = []) : Dev.BytesOnly d d := ⟨rfl, fun _ _ => rfl, h⟩
theorem Dev.BytesOnly.trans {d e f : Dev} (h : Dev.BytesOnly d e) (g : Dev.BytesOnly e f) : Dev.BytesOnly d f :=
  ⟨by rw [g.rest, h.rest], fun o ho => (g.regs o ho).trans (h.regs o ho), g.chk⟩
theorem Dev.BytesOnly.foldl {β : Type} {f : Dev → β → Dev} (hf : ∀ d b, d.mem.chk = [] → Dev.BytesOnly d (f d b)) (l : List β) (d : Dev)
    (h : d.mem.chk = []) : Dev.BytesOnly d (l.foldl f d) := by
  induction l generalizing d with
  | nil => exact .refl h
  | cons b r ih => exact (hf d b h).trans (ih _ (hf d b h).chk)

theorem Dev.bytesOnly_mem (d : Dev) (m : Memory) (hm : m.chk = []) : Dev.BytesOnly d { d with mem := m } := ⟨rfl, fun _ _ => rfl, hm⟩

section
variable (d : Dev) (h : d.mem.chk = [])
include h

theorem Dev.bytesOnly_dram (x : Dram) : Dev.BytesOnly d { d with dram := x } := ⟨rfl, fun _ _ => rfl, h⟩
theorem Dev.bytesOnly_ecc {c : Nat} (hc : c < 8) (f : Fld) (n : Nat) : Dev.BytesOnly d (d.satFld (R.DRC_CH_ECC c) f n) :=
  ⟨by apply Dev.eq_of <;> simp, fun o ho => d.reg_setFld_ne _ _ (ho c hc), by simpa using h⟩

theorem Dev.bytesOnly_noteRead (as : List Nat) : Dev.BytesOnly d (d.noteRead as) := by
  unfold Dev.noteRead
  simp only [h, List.filter_nil, List.map_nil, List.foldl_nil]
  exact .foldl (fun d _ hd => d.bytesOnly_ecc hd (chanOf_lt _) _ 1) _ _ h

theorem Dev.bytesOnly_putByte (a : Nat) (b : Byte) : Dev.BytesOnly d (d.putByte a b) := by
  unfold Dev.putByte
  split
  · exact d.bytesOnly_dram h _
  · split
    · exact .refl h
    · exact d.bytesOnly_mem _ h

theorem Dev.bytesOnly_prepCw (p : Nat) (w : Bool) : Dev.BytesOnly d (d.prepCw p w) := by
  have hs := d.sameBytes_prepCw h p w
  have hm : ∃ m : Memory, d.prepCw p w = { d with mem := m } := by
    unfold Dev.prepCw
    cases w
    · have h1 : d.noteCw false (p / 32) = d := by unfold Dev.noteCw; simp only [Memory.judge_clean h]
      simp only [Bool.false_eq_true, if_false, h1]
      exact ⟨_, rfl⟩
    · exact ⟨_, rfl⟩
  obtain ⟨m, hm⟩ := hm
  have hc : (d.prepCw p w).mem.chk = [] := by rw [hs.chk, h]
  rw [hm] at hc ⊢
  exact d.bytesOnly_mem m hc

theorem Dev.bytesOnly_writeRun (a : Nat) (bs : List Byte) : Dev.BytesOnly d (d.writeRun a bs) := by
  unfold Dev.writeRun
  simp only []
  have h1 : ∀ e : Dev, Dev.BytesOnly d e → Dev.BytesOnly d ((bs.zipIdx).foldl (fun d x => d.putByte (a + x.2) x.1) e) := fun e he =>
    he.trans (.foldl (fun d _ hd => d.bytesOnly_putByte hd _ _) _ _ he.chk)
  refine h1 _ ?_
  split
  · exact .refl h
  · refine .foldl (fun d c hd => ?_) _ _ h
    split
    · split
      · exact .refl hd
      · exact d.bytesOnly_prepCw hd _ _
    · exact d.bytesOnly_ecc hd (chanOf_lt _) _ 1

theorem Dev.bytesOnly_writeCells (ws : List (Nat × Byte)) : Dev.BytesOnly d (d.writeCells ws) :=
  .foldl (fun d _ hd => d.bytesOnly_writeRun hd _ _) _ _ h

theorem Dev.bytesOnly_setPoison (as : List Nat) : Dev.BytesOnly d (d.setPoison as) := by
  refine .foldl (fun d a hd => ?_) _ _ h
  split
  · exact d.bytesOnly_mem _ hd
  · exact .refl hd

theorem Dev.bytesOnly_clear (a n : Nat) : Dev.BytesOnly d (d.clear a n) := by
  unfold Dev.clear
  split
  · refine d.bytesOnly_mem _ ?_
    simp [h]
  · exact d.bytesOnly_writeRun h _ _
end

end Sys2Proof.Machine
end

