-- ==== Sys2Proof/Laws/Issue.lean ====
section
/-!
SUPPORT. The commands of the sequencer: what an instruction at the pc of a core does, from the device at the command's instant.
-/

namespace Sys2Proof.Machine

variable {s : State} {c op : Nat} {w : IWord}

theorem onOp_at {d : Dev} (h : d.atInstr c op w) (f : IWord → Dev) : d.onOp c op f = f w := by
  obtain ⟨h1, h2, h3, h4, h5⟩ := h
  simp [Dev.onOp, h1, h2, h3, h4, h5]

/-- A command that acts on the device alone, from the device at its instant. -/
theorem answers_dev {i : Instr} {f : Dev → Dev} {P : State → Prop} (he : exec i s = onDev s f)
    (hp : P { s with d := f s.here }) : Answers i s P := ⟨_, he, hp⟩

/-- An instruction's command, from the device at its instant. -/
theorem answers_here {i : Instr} {f : Dev → IWord → Dev} {P : State → Prop} (he : exec i s = onDev s fun d => d.onOp c op (f d))
    (ha : s.here.atInstr c op w) (hp : P { s with d := f s.here w }) : Answers i s P := by
  refine ⟨_, he, ?_⟩
  have : s.here.onOp c op (f s.here) = f s.here w := onOp_at ha _
  rw [← this] at hp
  exact hp

theorem issued_of {d e : Dev} {next : Nat} (hd : s.here = d)
  (h : Dev.CoreOnly d e c ∧ e.pc c = next % 2 ^ 12 ∧ e.reg (R.MC_SEQ_RETIRED c) = (d.reg (R.MC_SEQ_RETIRED c) + 1) % 2 ^ 32 ∧
    e.flag (R.MC_SEQ_STATUS c) F.MC_SEQ_STATUS_tok_wait = false ∧ e.flag (R.MC_SEQ_STATUS c) F.MC_SEQ_STATUS_tag_wait = false ∧
    (e.core c).waitSince = none) : Issued s { s with d := e } c next := by
  subst hd
  exact ⟨rfl, h⟩

theorem tok_start (d : Dev) : ((d.takeWait c w).clearWaits c).tok = tokWait d.tok c w := by
  rw [← Dev.takeWait_tok]; funext i x; simp
theorem sregs_start (d : Dev) : (((d.takeWait c w).clearWaits c).core c).sregs = (d.core c).sregs := by
  rw [Dev.clearWaits_sregs, Dev.takeWait_sregs]

theorem setS_tok (d : Dev) (i v : Nat) : (d.setS c i v).tok = d.tok := by
  funext j x
  unfold Dev.tok Dev.setS
  by_cases h : j = c
  · subst h; simp
  · rw [Dev.core_modCore_ne _ _ h]
theorem setS_sregs (d : Dev) (i v : Nat) : ((d.setS c i v).core c).sregs = sPut (d.core c).sregs i (BitVec.ofNat 32 v) := by
  simp [Dev.setS, setSreg, sPut]
theorem getS_eq (d : Dev) (i : Nat) : d.getS c i = (sWord (d.core c).sregs i).toNat := by
  simp only [Dev.getS, sreg, sWord]; split <;> rfl

theorem sext_word (a : Word) : s32 a.toNat = a.toInt := by
  simp only [s32, sext]
  rw [BitVec.toInt_eq_msb_cond, BitVec.msb_eq_getLsbD_last]
  simp only [BitVec.getLsbD, show 32 - 1 = 31 by rfl]
  have := a.isLt
  split <;> rename_i h <;> omega

theorem salu_word (op : Nat) (a b : Word) (h : op < 15) : BitVec.ofNat 32 (saluOp op a.toNat b.toNat) = saluWord op a b := by
  have ha := a.isLt
  have hb := b.isLt
  have hs : ∀ x y : Word, x.slt y = decide (x.toInt < y.toInt) := fun x y => rfl
  have hu : ∀ x y : Word, x.ult y = decide (x.toNat < y.toNat) := fun x y => rfl
  interval_cases op <;> simp only [saluOp, saluWord]
  · apply BitVec.eq_of_toNat_eq; simp
  · apply BitVec.eq_of_toNat_eq; simp [BitVec.toNat_sub]; omega
  · apply BitVec.eq_of_toNat_eq; simp
  · apply BitVec.eq_of_toNat_eq
    rw [BitVec.toNat_ofNat, BitVec.toNat_and, Nat.mod_eq_of_lt]
    exact Nat.lt_of_le_of_lt Nat.and_le_left ha
  · apply BitVec.eq_of_toNat_eq
    rw [BitVec.toNat_ofNat, BitVec.toNat_or, Nat.mod_eq_of_lt]
    exact Nat.or_lt_two_pow ha hb
  · apply BitVec.eq_of_toNat_eq
    rw [BitVec.toNat_ofNat, BitVec.toNat_xor, Nat.mod_eq_of_lt]
    exact Nat.xor_lt_two_pow ha hb
  · apply BitVec.eq_of_toNat_eq; simp [BitVec.toNat_shiftLeft, Nat.shiftLeft_eq]
  · apply BitVec.eq_of_toNat_eq
    rw [BitVec.toNat_ofNat, BitVec.toNat_ushiftRight, Nat.shiftRight_eq_div_pow, Nat.mod_eq_of_lt]
    exact Nat.lt_of_le_of_lt (Nat.div_le_self _ _) ha
  · apply BitVec.eq_of_toInt_eq
    rw [BitVec.toInt_sshiftRight, sext_word, Int.shiftRight_eq_div_pow]
    simp only [toU]
    rw [show ∀ n, (BitVec.ofNat 32 n).toInt = (n : Int).bmod (2 ^ 32) from fun n => BitVec.toInt_ofNat ..]
    have h1 := BitVec.toInt_lt (x := a); have h2 := BitVec.le_toInt (x := a)
    have hp : (0:Int) < ((2 ^ (b.toNat % 32) : Nat) : Int) := by exact_mod_cast Nat.two_pow_pos _
    have h3 : a.toInt / ((2 ^ (b.toNat % 32) : Nat) : Int) ≤ 2 ^ 31 - 1 := by
      apply Int.le_of_lt_add_one
      apply Int.ediv_lt_of_lt_mul hp
      simp at h1
      nlinarith
    have h4 : - 2 ^ 31 ≤ a.toInt / ((2 ^ (b.toNat % 32) : Nat) : Int) := by
      apply Int.le_ediv_of_mul_le hp
      simp at h2
      nlinarith
    push_cast at h3 h4 ⊢
    generalize a.toInt / 2 ^ (b.toNat % 32) = z at h3 h4 ⊢
    rw [Int.toNat_of_nonneg (Int.emod_nonneg _ (by decide))]
    simp only [Int.bmod]
    omega
  · rw [sext_word, sext_word, hs]
    by_cases h1 : b.toInt < a.toInt
    · have h2 : ¬ a.toInt < b.toInt := by omega
      simp [h1, h2]
    · by_cases h2 : a.toInt < b.toInt
      · simp [h1, h2]
      · have : a = b := BitVec.eq_of_toInt_eq (by omega)
        subst this; simp
  · rw [sext_word, sext_word, hs]
    by_cases h1 : a.toInt < b.toInt <;> simp [h1]
  · rw [hu]
    by_cases h1 : a.toNat < b.toNat
    · simp [h1, Nat.min_eq_left (Nat.le_of_lt h1)]
    · simp [h1, Nat.min_eq_right (Nat.le_of_not_lt h1)]
  · rw [hu]
    by_cases h1 : a.toNat < b.toNat
    · simp [h1, Nat.max_eq_right (Nat.le_of_lt h1)]
    · simp [h1, Nat.max_eq_left (Nat.le_of_not_lt h1)]
  · rw [sext_word, sext_word, hs]
    by_cases h1 : a.toInt < b.toInt <;> simp [h1, b2n]
  · rw [hu]
    by_cases h1 : a.toNat < b.toNat <;> simp [h1, b2n]

theorem imm_lt (a n : Nat) : imm w a n < 2 ^ n := Nat.mod_lt _ (Nat.two_pow_pos _)

theorem quiet_setS' (c : Nat) (i v : Dev → Nat) : Quiet c fun d => d.setS c (i d) (v d) :=
  ⟨fun d => d.coreOnly_setS c _ _, fun d => by simp [Dev.setS], fun d => by simp [Dev.setS], fun d => by simp [Dev.setS],
   fun d => by simp [Dev.setS]⟩

theorem seq_tok {d : Dev} {next : Nat} {eff : Dev → Dev} (hw : d.waitOk c w = true) (he : ∀ d, (eff d).tok = d.tok) :
    (d.issueSeq c w true next eff).tok = tokSignal (tokWait d.tok c w) c w := by
  rw [Dev.issueSeq_tok hw, he, tok_start]
theorem sext_half (n : Nat) : sext n 16 = (BitVec.ofNat 16 n).toInt := by
  simp only [sext]
  rw [BitVec.toInt_eq_msb_cond, BitVec.msb_eq_getLsbD_last, BitVec.getLsbD_ofNat, BitVec.toNat_ofNat]
  simp only [show 16 - 1 = 15 by rfl]
  cases n.testBit 15 <;> simp

theorem target_eq (d : Dev) : d.target c w =
    if 0 ≤ (d.pc c : Int) + (BitVec.ofNat 16 (imm w 16 16)).toInt ∧
      (d.pc c : Int) + (BitVec.ofNat 16 (imm w 16 16)).toInt < (d.core c).ibuf.length then
      some ((d.pc c : Int) + (BitVec.ofNat 16 (imm w 16 16)).toInt).toNat else none := by
  simp only [Dev.target, sext_half]

theorem target_some {d : Dev} {n : Nat} (h : (n : Int) = d.pc c + (BitVec.ofNat 16 (imm w 16 16)).toInt)
    (hn : n < (d.core c).ibuf.length) : d.target c w = some n := by
  rw [target_eq, ← h]
  simp [hn]

theorem target_none {d : Dev}
    (h : ¬ ∃ n : Nat, n < (d.core c).ibuf.length ∧ (n : Int) = d.pc c + (BitVec.ofNat 16 (imm w 16 16)).toInt) : d.target c w = none := by
  rw [target_eq]
  split
  · rename_i hz
    refine absurd ⟨((d.pc c : Int) + (BitVec.ofNat 16 (imm w 16 16)).toInt).toNat, ?_, ?_⟩ h <;> omega
  · rfl
theorem faults_here {i : Instr} {f : Dev → IWord → Dev} (he : exec i s = onDev s fun d => d.onOp c op (f d))
    (ha : s.here.atInstr c op w) (hp : f s.here w = s.here.fault c .descInvalid 0) : FaultsInvalid i s c := by
  have h : s.here.onOp c op (f s.here) = f s.here w := onOp_at ha _
  unfold FaultsInvalid
  rw [he, ← hp, ← h]
  rfl

theorem loop_value (a : Word) : BitVec.ofNat 32 ((a.toNat + (2 ^ 32 - 1)) % 2 ^ 32) = a - 1 := by
  apply BitVec.eq_of_toNat_eq
  have := a.isLt
  simp [BitVec.toNat_sub]; omega
theorem loop_zero (a : Word) : (a.toNat + (2 ^ 32 - 1)) % 2 ^ 32 ≠ 0 ↔ ¬ a = 1 := by
  have := a.isLt
  constructor
  · rintro h rfl; exact h rfl
  · intro h h2; apply h; apply BitVec.eq_of_toNat_eq; simp; omega

theorem branch_word (cond : Nat) (a b : Word) : taken cond a.toNat b.toNat = branchWord cond a b := by
  have hu : ∀ x y : Word, x.ult y = decide (x.toNat < y.toNat) := fun x y => rfl
  have hl : ∀ x y : Word, x.ule y = decide (x.toNat ≤ y.toNat) := fun x y => rfl
  have hs : ∀ x y : Word, x.slt y = decide (x.toInt < y.toInt) := fun x y => rfl
  have ht : ∀ x y : Word, x.sle y = decide (x.toInt ≤ y.toInt) := fun x y => rfl
  unfold taken
  split
  · rfl
  · rw [Bool.eq_iff_iff]; simp [branchWord, BitVec.toNat_inj]
  · rw [Bool.eq_iff_iff]; simp [branchWord, BitVec.toNat_inj]
  · rw [sext_word, sext_word]; exact (hs a b).symm
  · rw [sext_word, sext_word]; exact (ht b a).symm
  · exact (hu a b).symm
  · rename_i h1 h2 h3 h4 h5 h6
    have : branchWord cond a b = b.ule a := by
      unfold branchWord; split <;> first | rfl | exact absurd rfl (by assumption)
    rw [this]; exact (hl b a).symm

theorem issueSeq_bad {d : Dev} {next : Nat} {eff : Dev → Dev} : d.issueSeq c w false next eff = d.fault c .descInvalid 0 := by
  simp [Dev.issueSeq]
theorem tokSub_sregs (d : Dev) (x t n i : Nat) : ((d.tokSub x t n).core i).sregs = (d.core i).sregs := by
  unfold Dev.tokSub
  by_cases h : i = x
  · subst h; simp
  · rw [Dev.core_modCore_ne _ _ h]

theorem start_sregs_all (d : Dev) (i : Nat) : (((d.takeWait c w).clearWaits c).core i).sregs = (d.core i).sregs := by
  by_cases h : i = c
  · subst h; exact sregs_start d
  · rw [Dev.core_congr (Dev.clearWaits_cores _ c), Dev.core_modCore_ne _ _ h]
    unfold Dev.takeWait
    split
    · exact tokSub_sregs d _ _ _ i
    · rfl

theorem seq_sregs_all {d : Dev} {next : Nat} {eff : Dev → Dev} (hw : d.waitOk c w = true)
    (he : ∀ d i, ((eff d).core i).sregs = (d.core i).sregs) (i : Nat) :
    ((d.issueSeq c w true next eff).core i).sregs = (d.core i).sregs := by
  have e : d.issueSeq c w true next eff = (((eff ((d.takeWait c w).clearWaits c)).setPc c next).signal c w).countRetired c := by
    simp [Dev.issueSeq, hw]
  rw [e, Dev.core_countRetired, Dev.signal_sregs, Dev.core_setPc, he, start_sregs_all]

theorem start_remote (d : Dev) : ((d.takeWait c w).clearWaits c).home.remote = d.home.remote := by
  have h : ∀ d : Dev, (d.clearWaits c).home.remote = d.home.remote := by
    intro d; simp [Dev.clearWaits, Dev.setWaits]
  rw [h]; unfold Dev.takeWait; split <;> simp

theorem seq_remote {d : Dev} {next : Nat} {eff : Dev → Dev} (hw : d.waitOk c w = true) :
    (d.issueSeq c w true next eff).home.remote = (eff ((d.takeWait c w).clearWaits c)).home.remote := by
  have e : d.issueSeq c w true next eff = (((eff ((d.takeWait c w).clearWaits c)).setPc c next).signal c w).countRetired c := by
    simp [Dev.issueSeq, hw]
  rw [e]
  simp

theorem runOf_start (d : Dev) (i : Nat) : (((d.takeWait c w).clearWaits c).core i).run = (d.core i).run := by
  rw [Dev.core_congr (Dev.clearWaits_cores _ c)]
  have h : ∀ e : Dev, ((e.modCore c fun k => { k with waitSince := none }).core i).run = (e.core i).run := by
    intro e
    by_cases h : i = c
    · subst h; simp
    · rw [Dev.core_modCore_ne _ _ h]
  rw [h]
  unfold Dev.takeWait
  split
  · unfold Dev.tokSub
    by_cases h : i = c
    · subst h; simp
    · rw [Dev.core_modCore_ne _ _ h]
  · rfl

theorem peer_start (d : Dev) (n : Nat) : ((d.takeWait c w).clearWaits c).peerCore c n = d.peerCore c n := by
  unfold Dev.peerCore
  simp only [runOf_start]


end Sys2Proof.Machine
end

