-- ==== Sys2Proof/Laws/Tags.lean ====
section
/-!
SUPPORT. Residency tags: what setting one leaves at it and at every other, for one tag and for the tags of an instruction.
-/

namespace Sys2Proof.Machine

/-- Two references name one tag. -/
def TagRef.same (t u : TagRef) : Bool := decide (t.key = u.key) && decide (t.own = u.own)

theorem TagRef.same_iff {t u : TagRef} : t.same u = true ↔ t.key = u.key ∧ t.own = u.own := by simp [TagRef.same]

theorem hasTag_cons (t u : TagRef) (l : List TagRef) : hasTag (t :: l) u = (t.same u || hasTag l u) := by
  simp [hasTag, TagRef.same]

@[simp] theorem hasTag_nil (u : TagRef) : hasTag [] u = false := rfl

theorem hasTag_iff {l : List TagRef} {u : TagRef} : hasTag l u = true ↔ ∃ t ∈ l, t.same u = true := by
  simp [hasTag, TagRef.same]

theorem hasTag_self {l : List TagRef} {u : TagRef} (h : u ∈ l) : hasTag l u = true :=
  hasTag_iff.2 ⟨u, h, by simp [TagRef.same]⟩

theorem hasTag_congr {l : List TagRef} {t u : TagRef} (h : t.same u = true) : hasTag l t = hasTag l u := by
  rw [TagRef.same_iff] at h
  simp [hasTag, h.1, h.2]

/-- One tag set: it reads the new state, every other its own. -/
theorem Dev.tag_setTag (d : Dev) (c : Nat) (t u : TagRef) (v : TagState) :
    (d.setTag c t v).tag c u = if t.same u = true then v else d.tag c u := by
  unfold Dev.tag Dev.setTag TagRef.same
  cases ht : t.own <;> cases hu : u.own <;> simp
  · by_cases h : t.key = u.key
    · simp [h, Dev.setHomeTag]
    · simp [h, Dev.setHomeTag, mgetD_mset_ne _ _ _ _ (Ne.symm h)]
  · simp [Dev.core]
  · by_cases h : t.key = u.key
    · simp [h]
    · simp [h, mgetD_mput_ne _ _ _ (Ne.symm h)]

theorem Dev.tag_congr {d e : Dev} {c : Nat} (h : (e.core c).priv = (d.core c).priv) (g : e.home.tags = d.home.tags) (u : TagRef) :
    e.tag c u = d.tag c u := by unfold Dev.tag; rw [h, g]

/-- The tags of a list set by their own references. -/
theorem Dev.tag_fold (d : Dev) (c : Nat) (l : List TagRef) (g : TagRef → TagState)
    (hg : ∀ t ∈ l, ∀ u ∈ l, t.same u = true → g t = g u) :
    (∀ t ∈ l, (l.foldl (fun d t => d.setTag c t (g t)) d).tag c t = g t) ∧
    (∀ u, hasTag l u = false → (l.foldl (fun d t => d.setTag c t (g t)) d).tag c u = d.tag c u) := by
  induction l generalizing d with
  | nil => simp
  | cons a r ih =>
    have hr := fun d => ih d fun t ht u hu => hg t (List.mem_cons_of_mem _ ht) u (List.mem_cons_of_mem _ hu)
    refine ⟨fun t ht => ?_, fun u hu => ?_⟩
    · by_cases h : hasTag r t = true
      · obtain ⟨y, hy, hs⟩ := hasTag_iff.1 h
        have h1 := (hr (d.setTag c a (g a))).1 y hy
        have h2 : ∀ e : Dev, e.tag c t = e.tag c y := by
          intro e; rw [TagRef.same_iff] at hs; simp [Dev.tag, hs.1, hs.2]
        rw [List.foldl_cons, h2, h1]
        exact hg y (List.mem_cons_of_mem _ hy) t ht hs
      · rw [List.foldl_cons, (hr _).2 t (by simpa using h), Dev.tag_setTag]
        rcases List.mem_cons.1 ht with rfl | h'
        · simp [TagRef.same]
        · exact absurd (hasTag_self h') h
    · rw [hasTag_cons] at hu
      simp at hu
      rw [List.foldl_cons, (hr _).2 u hu.2, Dev.tag_setTag, hu.1]
      simp

/-- The tags of a list without repeats changed by what they hold. -/
theorem Dev.tag_map (d : Dev) (c : Nat) (l : List TagRef) (g : TagState → TagState)
    (hn : l.Pairwise fun t u => t.same u = false) (u : TagRef) :
    (l.foldl (fun d t => d.setTag c t (g (d.tag c t))) d).tag c u = if hasTag l u = true then g (d.tag c u) else d.tag c u := by
  induction l generalizing d with
  | nil => simp
  | cons a r ih =>
    rw [List.pairwise_cons] at hn
    rw [List.foldl_cons, ih _ hn.2, Dev.tag_setTag, hasTag_cons]
    by_cases h : a.same u = true
    · have h2 : d.tag c a = d.tag c u := by rw [TagRef.same_iff] at h; simp [Dev.tag, h.1, h.2]
      have h3 : hasTag r u = false := by
        rw [Bool.eq_false_iff]; intro hr
        obtain ⟨y, hy, hs⟩ := hasTag_iff.1 hr
        have := hn.1 y hy
        rw [TagRef.same_iff] at h hs
        simp [TagRef.same, h.1, h.2, hs.1, hs.2] at this
      simp [h, h2, h3]
    · simp [h]

theorem dedupTags_spec (l : List TagRef) :
    (dedupTags l).Pairwise (fun t u => t.same u = false) ∧ (∀ t ∈ dedupTags l, t ∈ l) ∧ ∀ u, hasTag (dedupTags l) u = hasTag l u := by
  have key : ∀ (l acc : List TagRef), acc.Pairwise (fun t u => t.same u = false) →
      let r := l.foldl (fun acc t => if acc.any (fun u => u.key = t.key && u.own = t.own) then acc else acc ++ [t]) acc
      r.Pairwise (fun t u => t.same u = false) ∧ (∀ t ∈ r, t ∈ acc ∨ t ∈ l) ∧ ∀ u, hasTag r u = (hasTag acc u || hasTag l u) := by
    intro l
    induction l with
    | nil => intro acc h; exact ⟨h, fun t ht => .inl ht, fun u => by simp⟩
    | cons a r ih =>
      intro acc h
      simp only [List.foldl_cons]
      split
      · rename_i hc
        obtain ⟨h1, h2, h3⟩ := ih acc h
        refine ⟨h1, fun t ht => (h2 t ht).elim .inl fun x => .inr (List.mem_cons_of_mem _ x), fun u => ?_⟩
        rw [h3, hasTag_cons]
        have ha : hasTag acc a = true := hc
        by_cases h : a.same u = true
        · rw [hasTag_congr h] at ha; simp [ha]
        · simp [h]
      · rename_i hc
        have ha : hasTag acc a = false := by simpa [hasTag] using hc
        have hp : (acc ++ [a]).Pairwise (fun t u => t.same u = false) := by
          rw [List.pairwise_append]
          refine ⟨h, by simp, fun t ht u hu => ?_⟩
          rw [List.mem_singleton] at hu; subst hu
          rw [Bool.eq_false_iff]; intro hs
          rw [Bool.eq_false_iff] at ha
          exact ha (hasTag_iff.2 ⟨t, ht, hs⟩)
        obtain ⟨h1, h2, h3⟩ := ih _ hp
        refine ⟨h1, fun t ht => ?_, fun u => ?_⟩
        · rcases h2 t ht with h | h
          · rcases List.mem_append.1 h with h | h
            · exact .inl h
            · rw [List.mem_singleton] at h; subst h; exact .inr (List.mem_cons_self)
          · exact .inr (List.mem_cons_of_mem _ h)
        · rw [h3, hasTag_cons]
          have : hasTag (acc ++ [a]) u = (hasTag acc u || a.same u) := by simp [hasTag, TagRef.same]
          rw [this, Bool.or_assoc]
  obtain ⟨h1, h2, h3⟩ := key l [] List.Pairwise.nil
  exact ⟨h1, fun t ht => by simpa using h2 t ht, fun u => by simpa [dedupTags] using h3 u⟩

/-- Tags settle at retirement: the written ones READY, the read ones with one reader fewer. -/
theorem settle_tags (d : Dev) (c : Nat) (reads writes : List TagRef)
    (hr : reads.Pairwise fun t u => t.same u = false) (hw : writes.Pairwise fun t u => t.same u = false) :
    (∀ x ∈ writes, (d.settleTags c reads writes).tag c x = .ready x.rcount) ∧
    (∀ x, hasTag writes x = false → (d.settleTags c reads writes).tag c x = if hasTag reads x = true then (d.tag c x).retire else d.tag c x) := by
  have hu : ∀ t ∈ writes, ∀ u ∈ writes, t.same u = true → TagState.ready t.rcount = .ready u.rcount := by
    intro t ht u hu hs
    by_contra hne
    have h1 : ∀ l : List TagRef, l.Pairwise (fun t u => t.same u = false) → t ∈ l → u ∈ l → t.same u = true → t = u := by
      intro l hl
      induction l with
      | nil => intro h; simp at h
      | cons a r ih =>
        rw [List.pairwise_cons] at hl
        intro h1 h2 h3
        rcases List.mem_cons.1 h1 with rfl | h4 <;> rcases List.mem_cons.1 h2 with rfl | h5
        · rfl
        · simp [hl.1 u h5] at h3
        · have := hl.1 t h4
          rw [TagRef.same_iff] at h3
          simp [TagRef.same, h3.1, h3.2] at this
        · exact ih hl.2 h4 h5 h3
    have := h1 writes hw ht hu hs
    rw [this] at hne; exact hne rfl
  have hf := Dev.tag_fold d c writes (fun t => .ready t.rcount) hu
  have hp : (reads.filter fun t => !hasTag writes t).Pairwise fun t u => t.same u = false := hr.sublist List.filter_sublist
  unfold Dev.settleTags
  simp only []
  have hm : ∀ x, hasTag (reads.filter fun t => !hasTag writes t) x = (hasTag reads x && !hasTag writes x) := by
    intro x
    rw [Bool.eq_iff_iff, hasTag_iff, Bool.and_eq_true, hasTag_iff]
    constructor
    · rintro ⟨t, ht, hs⟩
      rw [List.mem_filter] at ht
      exact ⟨⟨t, ht.1, hs⟩, by rw [← hasTag_congr hs]; exact ht.2⟩
    · rintro ⟨⟨t, ht, hs⟩, h2⟩
      exact ⟨t, List.mem_filter.2 ⟨ht, by rw [hasTag_congr hs]; exact h2⟩, hs⟩
  refine ⟨fun x hx => ?_, fun x hx => ?_⟩
  · rw [Dev.tag_map _ c _ TagState.retire hp, hm, hasTag_self hx]
    simp [hf.1 x hx]
  · rw [Dev.tag_map _ c _ TagState.retire hp, hm, hx, hf.2 x hx]
    simp

end Sys2Proof.Machine
end

