-- ==== Sys2Proof/Laws/Pools.lean ====
section
/-!
SUPPORT. What the pools' operations leave alone: everything but the stores, the pools, registers outside the cores' and the Stool engines'
blocks, and what is reported.
-/

namespace Sys2Proof.Machine

/-- The register lies outside the blocks of the pools, the cores and the Stool engines and outside what an access to the stores may count or log. -/
def aside (o : Nat) : Prop := o < 0x4000c ∨ o = 0x40018 ∨ o = 0x4001c ∨ (0x50000 ≤ o ∧ o < 0xc0000) ∨ (0xe0000 ≤ o ∧ o < 0x100000)

/-- Nothing changes but the stores, the pools, registers outside the cores' and the Stool engines' blocks, queues, the log, what waits for
the host, the DRAM controller, flash and the count of free values. -/
structure Dev.PoolOnly (d e : Dev) : Prop where
  rest : e = { d with mem := e.mem, regs := e.regs, que := e.que, recov := e.recov, host := e.host, dram := e.dram, nv := e.nv, bpm := e.bpm, freeCtr := e.freeCtr }
  regs : ∀ o, 0x100000 ≤ o → o < 0x200000 → e.reg o = d.reg o
  marks : ∀ o, aside o → e.reg o = d.reg o

theorem Dev.PoolOnly.refl (d : Dev) : Dev.PoolOnly d d := ⟨rfl, fun _ _ _ => rfl, fun _ _ => rfl⟩
theorem Dev.PoolOnly.trans {d e f : Dev} (h : Dev.PoolOnly d e) (g : Dev.PoolOnly e f) : Dev.PoolOnly d f :=
  ⟨by rw [g.rest, h.rest], fun o h1 h2 => (g.regs o h1 h2).trans (h.regs o h1 h2), fun o h1 => (g.marks o h1).trans (h.marks o h1)⟩
theorem Dev.PoolOnly.foldl {β : Type} {f : Dev → β → Dev} (hf : ∀ d b, Dev.PoolOnly d (f d b)) (l : List β) (d : Dev) :
    Dev.PoolOnly d (l.foldl f d) := by
  induction l generalizing d with
  | nil => exact .refl d
  | cons b r ih => exact (hf d b).trans (ih _)

theorem Dev.StoresOnly.pool {d e : Dev} (h : Dev.StoresOnly d e) : Dev.PoolOnly d e := by
  have hb : e.bpm = d.bpm := by rw [h.rest]
  have hf : e.freeCtr = d.freeCtr := by rw [h.rest]
  refine ⟨?_, fun o h1 h2 => h.regs o (by simp only [inBlocks]; omega), fun o h1 => h.regs o (by simp only [inBlocks, aside] at h1 ⊢; omega)⟩
  rw [hb, hf]; exact h.rest

section
variable (d : Dev)

theorem Dev.poolOnly_bpm (x : Bpm) : Dev.PoolOnly d { d with bpm := x } := ⟨rfl, fun _ _ _ => rfl, fun _ _ => rfl⟩
theorem Dev.poolOnly_setFld {o : Nat} (f : Fld) (n : Nat) (h : 0xc0000 ≤ o ∧ o < 0xd0000 ∨ 0x200000 ≤ o) : Dev.PoolOnly d (d.setFld o f n) :=
  ⟨by apply Dev.eq_of <;> simp, fun i h1 h2 => d.reg_setFld_ne _ _ (fun e => by omega), fun i h1 => d.reg_setFld_ne _ _ (fun e => by simp only [aside] at h1; omega)⟩

theorem Dev.poolOnly_stat {p : Nat} (f : Fld) (n : Nat) (hp : p < 64) : Dev.PoolOnly d (d.setFld (R.BPM_POOL_STAT p) f n) :=
  d.poolOnly_setFld f n (.inl (by simp only [R.BPM_POOL_STAT]; omega))

theorem Dev.poolOnly_lowFell {p : Nat} (hp : p < 64) : Dev.PoolOnly d (d.lowFell p) := by
  unfold Dev.lowFell
  simp only []
  split
  · exact .refl d
  · split
    · exact d.poolOnly_stat _ _ hp
    · exact .trans (.trans (d.poolOnly_stat _ _ hp) (Dev.poolOnly_bpm _ _)) (Dev.storesOnly_health _ _ _ _ _ _ _).pool

theorem Dev.poolOnly_lowRose (p : Nat) : Dev.PoolOnly d (d.lowRose p) := by
  unfold Dev.lowRose
  split
  · exact d.poolOnly_bpm _
  · exact .refl d

theorem Dev.poolOnly_startRebuild {p : Nat} (hp : p < 64) : Dev.PoolOnly d (d.startRebuild p) := by
  unfold Dev.startRebuild
  have h := d.poolOnly_stat (p := p) F.BPM_POOL_STAT_state 3 hp
  generalize hs : d.setFld (R.BPM_POOL_STAT p) F.BPM_POOL_STAT_state 3 = e at *
  refine h.trans (f := { e with bpm := { d.bpm with relink := mput d.bpm.relink p (0, []) } }) (e.poolOnly_bpm _)

theorem Dev.poolOnly_enablePool {p : Nat} (hp : p < 64) : Dev.PoolOnly d (d.enablePool p) := by
  unfold Dev.enablePool
  split
  · exact .trans (d.poolOnly_bpm _) (Dev.poolOnly_startRebuild _ hp)
  · exact d.poolOnly_stat _ _ hp

theorem Dev.poolOnly_stopCheck {p : Nat} (hp : p < 64) : Dev.PoolOnly d (d.stopCheck p) := by
  unfold Dev.stopCheck
  split
  · simp only []
    have h : ∀ b : Bpm, Dev.PoolOnly d { d.setFld (R.BPM_POOL_STAT p) F.BPM_POOL_STAT_state 0 with bpm := b } := fun b =>
      .trans (d.poolOnly_stat F.BPM_POOL_STAT_state 0 hp) (Dev.poolOnly_bpm _ b)
    have h1 := h { d.bpm with bufs := d.bpm.bufs.filter fun e => hPool e.1 ≠ p, heads := mdel d.bpm.heads p, relink := mdel d.bpm.relink p }
    split
    · exact h1.trans (.trans (Dev.poolOnly_stat _ _ _ hp) (Dev.poolOnly_enablePool _ hp))
    · exact h1
  · exact .refl d

theorem Dev.poolOnly_setBuf (h : Nat) (b : Buf) : Dev.PoolOnly d (d.setBuf h b) := ⟨rfl, fun _ _ _ => rfl, fun _ _ => rfl⟩

theorem Dev.poolOnly_pushBuf (h : Nat) : Dev.PoolOnly d (d.pushBuf h) := by
  unfold Dev.pushBuf
  simp only []
  refine .trans (d.poolOnly_setBuf h ⟨.free, 0⟩) (.trans ?_ (.trans (Dev.poolOnly_lowRose _ _) (Dev.poolOnly_stopCheck _ (hPool_lt h))))
  generalize d.setBuf h ⟨.free, 0⟩ = e
  split
  · exact ⟨rfl, fun _ _ _ => rfl, fun _ _ => rfl⟩
  · have h1 := e.storesOnly_writeRun (e.bufAddr h) (freeHeader (mgetD e.bpm.heads (hPool h) nullHandle) h)
    generalize e.writeRun (e.bufAddr h) _ = g at *
    exact h1.pool.trans (g.poolOnly_bpm _)

theorem Dev.poolOnly_refInc (h : Nat) : Dev.PoolOnly d (d.refInc h) := by
  unfold Dev.refInc
  split
  · split
    · exact d.poolOnly_setBuf _ _
    · exact .refl d
  · exact .refl d

theorem Dev.poolOnly_refDec (h : Nat) : Dev.PoolOnly d (d.refDec h) := by
  unfold Dev.refDec
  split
  · split
    · split
      · exact d.poolOnly_pushBuf _
      · exact d.poolOnly_setBuf _ _
    · exact .refl d
  · exact .refl d

theorem Dev.poolOnly_unAlloc (h : Nat) : Dev.PoolOnly d (d.unAlloc h) := by
  unfold Dev.unAlloc
  split
  · split
    · exact d.poolOnly_pushBuf _
    · exact .refl d
  · exact .refl d

theorem Dev.poolOnly_unInc (h : Nat) : Dev.PoolOnly d (d.unInc h) := by
  unfold Dev.unInc
  split
  · split
    · exact d.poolOnly_setBuf _ _
    · exact .refl d
  · exact .refl d

theorem Dev.poolOnly_popOne {p : Nat} (n : Nat) (hp : p < 64) : Dev.PoolOnly d (d.popOne p n).2 := by
  unfold Dev.popOne
  split
  · exact .refl d
  · split
    · exact .refl d
    · rename_i i _
      simp only []
      have h1 := (d.storesOnly_noteRead (span (d.bufAddr (mkHandle p i)) 16)).pool
      generalize d.noteRead _ = e at *
      split
      · exact h1.trans (.trans (e.poolOnly_bpm _) (.trans (Dev.poolOnly_setBuf _ _ _) (Dev.poolOnly_lowFell _ hp)))
      · refine h1.trans (.trans ?_ (.trans (Dev.poolOnly_stat _ _ _ hp) (.trans (Dev.storesOnly_health _ _ _ _ _ _ _).pool (Dev.poolOnly_startRebuild _ hp))))
        have h2 : ∀ b : Bool, Dev.PoolOnly e (if b then e.setBuf (mkHandle p i) ⟨.quarantined, 0⟩ else e) := by
          intro b; cases b
          · exact .refl e
          · exact Dev.poolOnly_setBuf _ _ _
        split <;> exact h2 _

theorem Dev.fbPool_lt (p : Nat) : d.fld (R.BPM_POOL_CFG p) F.BPM_POOL_CFG_fb_pool < 64 := Nat.mod_lt _ (by decide)

theorem Dev.poolOnly_popChain (n k p : Nat) : Dev.PoolOnly d (d.popChain n k p).2 := by
  induction k generalizing d p with
  | zero => exact .refl d
  | succ k ih =>
    unfold Dev.popChain
    simp only []
    have h := d.poolOnly_popOne n (d.fbPool_lt p)
    generalize d.popOne (d.fld (R.BPM_POOL_CFG p) F.BPM_POOL_CFG_fb_pool) n = r at *
    obtain ⟨o, e⟩ := r
    cases o with
    | some x => exact h
    | none => exact Dev.PoolOnly.trans (e := e) h (ih e _)

theorem Dev.poolOnly_pop {p : Nat} (n : Nat) (hp : p < 64) : Dev.PoolOnly d (d.pop p n).2 := by
  unfold Dev.pop
  have h := d.poolOnly_popOne n hp
  generalize d.popOne p n = r at *
  obtain ⟨o, e⟩ := r
  cases o with
  | some x => exact h
  | none =>
    simp only []
    split
    · have h2 := e.poolOnly_popChain n (e.fld (R.BPM_POOL_CFG p) F.BPM_POOL_CFG_fb_depth) p
      generalize e.popChain n _ p = r at *
      obtain ⟨o, g⟩ := r
      cases o with
      | some x => exact h.trans (h2.trans (Dev.poolOnly_stat _ _ _ hp))
      | none => exact h.trans h2
    · exact h
end

end Sys2Proof.Machine
end

