-- ==== Sys2Proof/Laws/Kernel.lean ====
section
/-!
SUPPORT. The abort of a kernel: what it leaves of the cores it frees, and that it leaves every other core alone.
-/

namespace Sys2Proof.Machine

/-! ### Voiding a frame -/

/-- Nothing changes but what the pools' operations change, the streams and the list of frames. -/
structure Dev.VoidOnly (d e : Dev) : Prop where
  rest : e = { d with mem := e.mem, regs := e.regs, que := e.que, recov := e.recov, host := e.host, dram := e.dram, nv := e.nv, bpm := e.bpm, freeCtr := e.freeCtr, streams := e.streams, sched := { d.sched with frames := e.sched.frames } }
  regs : ∀ o, 0x100000 ≤ o → o < 0x200000 → e.reg o = d.reg o
  marks : ∀ o, aside o → e.reg o = d.reg o

theorem Dev.VoidOnly.refl (d : Dev) : Dev.VoidOnly d d := ⟨rfl, fun _ _ _ => rfl, fun _ _ => rfl⟩
theorem Dev.VoidOnly.trans {d e f : Dev} (h : Dev.VoidOnly d e) (g : Dev.VoidOnly e f) : Dev.VoidOnly d f :=
  ⟨by rw [g.rest, h.rest], fun o h1 h2 => (g.regs o h1 h2).trans (h.regs o h1 h2), fun o h1 => (g.marks o h1).trans (h.marks o h1)⟩
theorem Dev.PoolOnly.void {d e : Dev} (h : Dev.PoolOnly d e) : Dev.VoidOnly d e := by
  have h1 : e.streams = d.streams := by rw [h.rest]
  have h2 : e.sched = d.sched := by rw [h.rest]
  refine ⟨?_, h.regs, h.marks⟩
  rw [h1, h2]; exact h.rest

section
variable (d : Dev)

theorem Dev.poolOnly_freeRecs (rs : List Rec) : Dev.PoolOnly d (d.freeRecs rs) := by
  refine .foldl (fun d r => ?_) _ _
  split
  · exact d.poolOnly_refDec _
  · exact .refl d

theorem Dev.poolOnly_freeFrameBuf (f : Frame) : Dev.PoolOnly d (d.freeFrameBuf f) := by
  unfold Dev.freeFrameBuf
  split
  · exact d.poolOnly_refDec _
  · exact .refl d

theorem Dev.voidOnly_postRec (r : WaitRec) : Dev.VoidOnly d (d.postRec r) := ⟨rfl, fun _ _ _ => rfl, fun _ _ => rfl⟩

theorem Dev.voidOnly_foldl {β : Type} {f : Dev → β → Dev} (hf : ∀ d b, Dev.VoidOnly d (f d b)) (l : List β) (d : Dev) :
    Dev.VoidOnly d (l.foldl f d) := by
  induction l generalizing d with
  | nil => exact .refl d
  | cons b r ih => exact (hf d b).trans (ih _)

theorem Dev.voidOnly_streams (m : SMap Stream) : Dev.VoidOnly d { d with streams := m } := ⟨rfl, fun _ _ _ => rfl, fun _ _ => rfl⟩

theorem Dev.voidOnly_release (s n : Nat) (rs : List WaitRec) : Dev.VoidOnly d (d.release s n rs) := by
  unfold Dev.release
  split
  · exact Dev.voidOnly_foldl (fun d r => d.voidOnly_postRec r) _ _
  · exact .trans (d.voidOnly_streams _) (Dev.voidOnly_foldl (fun d r => d.voidOnly_postRec r) _ _)

theorem Dev.voidOnly_voidFrame (f : Frame) (a b c : Nat) : Dev.VoidOnly d (d.voidFrame f a b c) := by
  unfold Dev.voidFrame
  have h : Dev.VoidOnly d (((d.freeRecs f.recs).freeFrameBuf f).dropFrame f) :=
    ((d.poolOnly_freeRecs _).trans (Dev.poolOnly_freeFrameBuf _ f)).void.trans ⟨rfl, fun _ _ _ => rfl, fun _ _ => rfl⟩
  simp only []
  split
  · exact h.trans (Dev.voidOnly_postRec _ _)
  · exact h.trans (Dev.voidOnly_release _ _ _ _)

theorem Dev.postRec_frames (r : WaitRec) : (d.postRec r).sched = d.sched := rfl

theorem Dev.release_sched (s n : Nat) (rs : List WaitRec) : (d.release s n rs).sched = d.sched := by
  have hf : ∀ (l : List WaitRec) (d : Dev), (l.foldl Dev.postRec d).sched = d.sched := by
    intro l
    induction l with
    | nil => intro d; rfl
    | cons a r ih => intro d; rw [List.foldl_cons, ih]; rfl
  unfold Dev.release
  split
  · exact hf _ _
  · exact (hf _ _)

/-- The frame voided is gone, every other frame stays. -/
theorem Dev.voidFrame_frames (f : Frame) (a b c : Nat) : (d.voidFrame f a b c).sched.frames =
    d.sched.frames.filter fun g => !(g.stream = f.stream && g.num = f.num && g.revisit = f.revisit) := by
  have h : (((d.freeRecs f.recs).freeFrameBuf f).dropFrame f).sched.frames =
      d.sched.frames.filter fun g => !(g.stream = f.stream && g.num = f.num && g.revisit = f.revisit) := by
    have h1 := ((d.poolOnly_freeRecs f.recs).trans (Dev.poolOnly_freeFrameBuf _ f)).rest
    have h2 : ((d.freeRecs f.recs).freeFrameBuf f).sched = d.sched := by rw [h1]
    simp only [Dev.dropFrame, h2]
  unfold Dev.voidFrame
  simp only []
  split
  · exact h
  · unfold Dev.voidNum; rw [Dev.release_sched]; exact h
end

/-! ### Freeing cores -/

theorem Dev.AbortOnly.refl (d : Dev) (cs : List Nat) : Dev.AbortOnly d d cs :=
  ⟨rfl, fun _ _ => rfl, fun _ _ _ _ => rfl, fun _ _ => rfl, fun _ h => h, fun _ h => h, fun _ h => h, fun _ => rfl⟩
theorem Dev.AbortOnly.trans {d e f : Dev} {cs : List Nat} (h : Dev.AbortOnly d e cs) (g : Dev.AbortOnly e f cs) : Dev.AbortOnly d f cs :=
  ⟨by rw [g.rest, h.rest], fun i hi => (g.others i hi).trans (h.others i hi), fun o h1 h2 h3 => (g.regs o h1 h2 h3).trans (h.regs o h1 h2 h3),
   fun o h1 => (g.marks o h1).trans (h.marks o h1),
   fun r hr => h.refs r (g.refs r hr), fun r hr => h.locks r (g.locks r hr), fun r hr => h.remote r (g.remote r hr),
   fun i => (g.sregs i).trans (h.sregs i)⟩
theorem Dev.AbortOnly.mono {d e : Dev} {cs ds : List Nat} (h : Dev.AbortOnly d e cs) (hs : ∀ c ∈ cs, c ∈ ds) : Dev.AbortOnly d e ds :=
  ⟨h.rest, fun i hi => h.others i fun hc => hi (hs i hc), fun o h1 h2 h3 => h.regs o h1 h2 fun c hc => h3 c (hs c hc), h.marks, h.refs, h.locks, h.remote, h.sregs⟩

theorem Dev.VoidOnly.abort {d e : Dev} (h : Dev.VoidOnly d e) (cs : List Nat) : Dev.AbortOnly d e cs := by
  have hc : e.cores = d.cores := by rw [h.rest]
  have hh : e.home = d.home := by rw [h.rest]
  have hs : e.stool = d.stool := by rw [h.rest]
  have hx : e.ctxs = d.ctxs := by rw [h.rest]
  have hk : e.sched.ckpts = d.sched.ckpts := by rw [h.rest]
  refine ⟨?_, fun i _ => Dev.core_congr hc i, fun o h1 h2 _ => h.regs o h1 (by omega), fun o h1 => h.marks o (by simp only [aside, R.TEL_FAULTED_LO, R.TEL_FAULTED_HI] at h1 ⊢; omega), ?_, ?_, ?_, fun i => by rw [Dev.core_congr hc]⟩
  · rw [hc, hh, hs, hx, hk]; exact h.rest
  all_goals rw [hh]; exact fun _ hr => hr

theorem Dev.PoolOnly.abort {d e : Dev} (h : Dev.PoolOnly d e) (cs : List Nat) : Dev.AbortOnly d e cs := h.void.abort cs

theorem Dev.AbortOnly.foldl {β : Type} {f : Dev → β → Dev} {cs : List Nat} (hf : ∀ d b, Dev.AbortOnly d (f d b) cs) (l : List β) (d : Dev) :
    Dev.AbortOnly d (l.foldl f d) cs := by
  induction l generalizing d with
  | nil => exact .refl d cs
  | cons b r ih => exact (hf d b).trans (ih _)

section
variable (d : Dev) (c : Nat)

theorem Dev.abortOnly_setFld {o : Nat} (f : Fld) (n : Nat) (ho : o = R.MC_SEQ_STATUS c ∨ o = R.MC_ARITH_STATUS c ∨ 0x180000 ≤ o) :
    Dev.AbortOnly d (d.setFld o f n) [c] := by
  refine ⟨by apply Dev.eq_of <;> simp, fun i _ => by simp, fun i h1 h2 h3 => d.reg_setFld_ne _ _ fun e => ?_, fun i h1 => d.reg_setFld_ne _ _ fun e => ?_, ?_, ?_, ?_, fun i => by simp⟩
  · have := h3 c (List.mem_singleton.2 rfl)
    rcases ho with h | h | h <;> omega
  · simp only [R.TEL_FAULTED_LO, R.TEL_FAULTED_HI] at h1
    simp only [R.MC_SEQ_STATUS, R.MC_ARITH_STATUS] at ho
    omega
  all_goals simp

theorem Dev.abortOnly_core (g : Core → Core) (hg : ∀ k, (g k).sregs = k.sregs) : Dev.AbortOnly d (d.modCore c g) [c] := by
  refine ⟨by apply Dev.eq_of <;> simp, fun i hi => Dev.core_modCore_ne d g (by simpa using hi), fun o _ _ _ => by simp, fun o _ => by simp, ?_, ?_, ?_, fun i => ?_⟩
  · simp
  · simp
  · simp
  · by_cases h : i = c
    · subst h; simp [hg]
    · rw [Dev.core_modCore_ne d g h]

theorem Dev.abortOnly_restoreTags : Dev.AbortOnly d (d.restoreTags c) [c] := by
  unfold Dev.restoreTags
  split
  · refine .foldl (fun d t => ?_) _ _
    exact ⟨rfl, fun _ _ => rfl, fun _ _ _ _ => rfl, fun _ _ => rfl, fun _ h => h, fun _ h => h, fun _ h => h, fun _ => rfl⟩
  · exact .refl d [c]

theorem Dev.abortOnly_dropRefs : Dev.AbortOnly d (d.dropRefs c) [c] ∧ (∀ r ∈ (d.dropRefs c).home.refs, r.2.1 ≠ c) ∧
    (∀ l ∈ (d.dropRefs c).home.locks, l.2.1 ≠ c) := by
  unfold Dev.dropRefs
  simp only []
  have h1 : Dev.AbortOnly d { d with home := { d.home with refs := d.home.refs.filter (fun r => r.2.1 ≠ c), locks := d.home.locks.filter (fun l => l.2.1 ≠ c), notes := d.home.notes.filter (fun n => n.1 ≠ c) } } [c] :=
    ⟨rfl, fun _ _ => rfl, fun _ _ _ _ => rfl, fun _ _ => rfl, fun r h => (List.mem_filter.1 h).1, fun r h => (List.mem_filter.1 h).1, fun _ h => h, fun _ => rfl⟩
  have h2 : ∀ r ∈ d.home.refs.filter (fun r => r.2.1 ≠ c), r.2.1 ≠ c := fun r h => by simpa using (List.mem_filter.1 h).2
  have h3 : ∀ r ∈ d.home.locks.filter (fun r => r.2.1 ≠ c), r.2.1 ≠ c := fun r h => by simpa using (List.mem_filter.1 h).2
  generalize hE : { d with home := { d.home with refs := d.home.refs.filter (fun r => r.2.1 ≠ c), locks := d.home.locks.filter (fun l => l.2.1 ≠ c), notes := d.home.notes.filter (fun n => n.1 ≠ c) } } = e at *
  have h4 : e.home.refs = d.home.refs.filter (fun r => r.2.1 ≠ c) ∧ e.home.locks = d.home.locks.filter (fun l => l.2.1 ≠ c) := by rw [← hE]; exact ⟨rfl, rfl⟩
  have h5 : Dev.PoolOnly e ((d.home.refs.filter fun r => r.2.1 = c).foldl (fun d r => d.refDec r.1) e) := .foldl (fun d r => d.poolOnly_refDec _) _ _
  generalize (d.home.refs.filter fun r => r.2.1 = c).foldl (fun d r => d.refDec r.1) e = g at *
  have h6 : g.home = e.home := by rw [h5.rest]
  refine ⟨h1.trans (h5.abort [c]), ?_, ?_⟩
  · rw [h6, h4.1]; exact h2
  · rw [h6, h4.2]; exact h3

theorem Dev.abortOnly_undoJournal : Dev.AbortOnly d (d.undoJournal c) [c] ∧ ((d.undoJournal c).core c).journal = [] := by
  unfold Dev.undoJournal
  simp only []
  refine ⟨.trans (.foldl (fun d j => ?_) _ _) (Dev.abortOnly_core _ c _ fun k => rfl), by simp⟩
  split
  · exact (d.poolOnly_unAlloc _).abort _
  · exact (d.poolOnly_unInc _).abort _
  · exact .refl d [c]

theorem Dev.abortOnly_syncStool (n : Nat) : Dev.AbortOnly d (d.syncStool n) [c] := by
  have h := fun (d : Dev) f v => d.abortOnly_setFld c (o := R.STL_STATUS n) f v (.inr (.inr (by simp only [R.STL_STATUS]; omega)))
  unfold Dev.syncStool
  simp only []
  split
  · exact .trans (h _ _ _) (.trans (h _ _ _) (.trans (h _ _ _) (h _ _ _)))
  · exact .trans (h _ _ _) (h _ _ _)

theorem Dev.abortOnly_stoolKeep (n : Nat) (p : Nat × Nat → Bool) : Dev.AbortOnly d (d.stoolKeep n p) [c] := by
  unfold Dev.stoolKeep
  simp only []
  generalize StoolEng.advance _ = q
  exact .trans (e := { d with stool := mput d.stool n q }) ⟨rfl, fun _ _ => rfl, fun _ _ _ _ => rfl, fun _ _ => rfl, fun _ h => h, fun _ h => h, fun _ h => h, fun _ => rfl⟩ (Dev.abortOnly_syncStool _ c n)

theorem Dev.syncStool_cores (n : Nat) : (d.syncStool n).cores = d.cores ∧ (d.syncStool n).home = d.home := by
  unfold Dev.syncStool
  simp only []
  split <;> simp

theorem Dev.idleBits_spec (e : Dev) (c : Nat) :
    Dev.AbortOnly e (e.idleBits c) [c] ∧ (e.idleBits c).core c = e.core c ∧ (e.idleBits c).fld (R.MC_SEQ_STATUS c) F.MC_SEQ_STATUS_busy = 0 ∧
    (e.idleBits c).fld (R.MC_SEQ_STATUS c) F.MC_SEQ_STATUS_tag_wait = 0 ∧ (e.idleBits c).fld (R.MC_SEQ_STATUS c) F.MC_SEQ_STATUS_tok_wait = 0 ∧
    (e.idleBits c).home = e.home := by
  unfold Dev.idleBits
  refine ⟨.trans (e.abortOnly_setFld c _ _ (.inl rfl)) (.trans (Dev.abortOnly_setFld _ c _ _ (.inl rfl)) (Dev.abortOnly_setFld _ c _ _ (.inl rfl))), by simp, ?_, ?_, ?_, by simp⟩
  · rw [Dev.fld_setFld_other _ _ _ (by decide) (by decide), Dev.fld_setFld_other _ _ _ (by decide) (by decide), Dev.fld_setFld_same _ _ _ _ (by decide)]; simp
  · rw [Dev.fld_setFld_other _ _ _ (by decide) (by decide), Dev.fld_setFld_same _ _ _ _ (by decide)]; simp
  · rw [Dev.fld_setFld_same _ _ _ _ (by decide)]; simp

theorem Dev.forget_spec (g : Dev) (c : Nat) : Dev.AbortOnly g (g.forget c) [c] :=
  ⟨rfl, fun _ _ => rfl, fun _ _ _ _ => rfl, fun _ _ => rfl, fun _ h => h, fun _ h => h, fun _ h => (List.mem_filter.1 h).1, fun _ => rfl⟩

theorem Dev.forget_regs (g : Dev) (c : Nat) : (g.forget c).regs = g.regs ∧ (g.forget c).cores = g.cores ∧ (g.forget c).home.refs = g.home.refs ∧
    (g.forget c).home.locks = g.home.locks ∧ ∀ r ∈ (g.forget c).home.remote, r.1 ≠ c :=
  ⟨rfl, rfl, rfl, rfl, fun r hr => by simpa using (List.mem_filter.1 hr).2⟩

/-- The core is free, and nothing else changes but its registers. -/
theorem Dev.freeCore_spec : Dev.AbortOnly d (d.freeCore c) [c] ∧
    (d.freeCore c).core c = (d.core c).blank ∧
    (d.freeCore c).fld (R.MC_SEQ_STATUS c) F.MC_SEQ_STATUS_busy = 0 ∧ (d.freeCore c).fld (R.MC_SEQ_STATUS c) F.MC_SEQ_STATUS_tag_wait = 0 ∧
    (d.freeCore c).fld (R.MC_SEQ_STATUS c) F.MC_SEQ_STATUS_tok_wait = 0 ∧ (∀ r ∈ (d.freeCore c).home.remote, r.1 ≠ c) ∧
    (d.freeCore c).home.refs = d.home.refs ∧ (d.freeCore c).home.locks = d.home.locks := by
  unfold Dev.freeCore
  have h0 := d.abortOnly_core c Core.blank fun _ => rfl
  have hc := Dev.core_modCore_same d c Core.blank
  have hh : (d.modCore c Core.blank).home = d.home := by simp
  generalize d.modCore c Core.blank = e at *
  obtain ⟨h1, k1, b1, t1, w1, m1⟩ := e.idleBits_spec c
  generalize e.idleBits c = g at *
  have h2 := g.forget_spec c
  obtain ⟨f1, f2, f3, f4, f5⟩ := g.forget_regs c
  generalize g.forget c = x at *
  refine ⟨h0.trans (h1.trans h2), ?_, ?_, ?_, ?_, f5, ?_, ?_⟩
  · rw [Dev.core_congr f2, k1, hc]
  · rw [Dev.fld_congr f1, b1]
  · rw [Dev.fld_congr f1, t1]
  · rw [Dev.fld_congr f1, w1]
  · rw [f3, m1, hh]
  · rw [f4, m1, hh]

theorem Dev.abortCore_spec : Dev.AbortOnly d (d.abortCore c) [c] ∧ Dev.Freed (d.abortCore c) c := by
  unfold Dev.abortCore
  simp only []
  have h1 := d.abortOnly_restoreTags c
  generalize d.restoreTags c = e1 at *
  obtain ⟨h2, r2, l2⟩ := e1.abortOnly_dropRefs c
  generalize e1.dropRefs c = e2 at *
  obtain ⟨h3, j3⟩ := e2.abortOnly_undoJournal c
  generalize e2.undoJournal c = e3 at *
  have h4 := e3.abortOnly_stoolKeep c (stackOf c) fun r => r.1 ≠ c
  have c4 : (e3.stoolKeep (stackOf c) fun r => r.1 ≠ c).cores = e3.cores ∧ (e3.stoolKeep (stackOf c) fun r => r.1 ≠ c).home = e3.home := by
    unfold Dev.stoolKeep
    simp only []
    exact Dev.syncStool_cores _ _
  generalize (e3.stoolKeep (stackOf c) fun r => r.1 ≠ c) = e4 at *
  obtain ⟨h5, k5, b5, t5, w5, m5, r5, l5⟩ := e4.freeCore_spec c
  generalize e4.freeCore c = e5 at *
  refine ⟨h1.trans (h2.trans (h3.trans (h4.trans h5))), ?_⟩
  refine ⟨by rw [k5]; rfl, by rw [k5]; rfl, by rw [k5]; rfl, by rw [k5]; rfl, ?_, by rw [k5]; rfl, by rw [k5]; rfl, b5, t5, w5, ?_, ?_, m5⟩
  · rw [k5]; show (e4.core c).journal = []; rw [Dev.core_congr c4.1]; exact j3
  · intro r hr; rw [r5, c4.2] at hr; exact r2 r (h3.refs r hr)
  · intro r hr; rw [l5, c4.2] at hr; exact l2 r (h3.locks r hr)

theorem Dev.abortCore_frames : ((d.accBoundary c).abortCore c).sched.frames = d.sched.frames := by
  have h1 : (d.accBoundary c).sched = d.sched := by
    unfold Dev.accBoundary
    split
    · rfl
    · split <;> simp
  rw [← h1]
  generalize d.accBoundary c = e
  unfold Dev.abortCore
  simp only []
  have h2 : (e.restoreTags c).sched = e.sched := by
    unfold Dev.restoreTags
    split
    · exact foldl_keeps (fun d : Dev => d.sched) (fun d (t : Nat × TagState) => d.setHomeTag t.1 t.2) (fun d b => rfl) _ e
    · rfl
  have h3 : ∀ e : Dev, (e.dropRefs c).sched = e.sched := by
    intro e
    unfold Dev.dropRefs
    exact foldl_keeps (fun d : Dev => d.sched) _ (fun d b => by rw [(d.poolOnly_refDec _).rest]) _ _
  have h4 : ∀ e : Dev, (e.undoJournal c).sched = e.sched := by
    intro e
    unfold Dev.undoJournal
    simp only [Dev.modCore_sched]
    refine foldl_keeps (fun d : Dev => d.sched) _ (fun d b => ?_) _ _
    split
    · rw [(d.poolOnly_unAlloc _).rest]
    · rw [(d.poolOnly_unInc _).rest]
    · rfl
  have h5 : ∀ (e : Dev) n p, (e.stoolKeep n p).sched = e.sched := by
    intro e n p
    unfold Dev.stoolKeep Dev.syncStool
    simp only []
    split <;> simp
  have h6 : ∀ e : Dev, (e.freeCore c).sched.frames = e.sched.frames := by
    intro e
    unfold Dev.freeCore Dev.forget Dev.idleBits
    simp
  rw [h6, h5, h4, h3, h2]

/-- A core that is free stays so when others are aborted. -/
theorem Dev.Freed.keep {d e : Dev} {c x : Nat} (h : Dev.Freed d c) (hc : c < 8) (g : Dev.AbortOnly d e [x]) (hx : c ≠ x) : Dev.Freed e c := by
  have hk := g.others c (by simpa using hx)
  have hr : e.reg (R.MC_SEQ_STATUS c) = d.reg (R.MC_SEQ_STATUS c) := g.regs _ (by simp only [R.MC_SEQ_STATUS]; omega) (by simp only [R.MC_SEQ_STATUS]; omega)
    fun y hy => by
      simp only [List.mem_singleton] at hy; subst hy
      simp only [R.MC_SEQ_STATUS, R.MC_ARITH_STATUS]; omega
  refine ⟨by rw [hk]; exact h.run, by rw [hk]; exact h.inflight, by rw [hk]; exact h.tokens, by rw [hk]; exact h.claims,
    by rw [hk]; exact h.journal, by rw [hk]; exact h.waits, by rw [hk]; exact h.kend, ?_, ?_, ?_, fun r hr => h.refs r (g.refs r hr),
    fun r hr => h.locks r (g.locks r hr), fun r hr => h.remote r (g.remote r hr)⟩
  · unfold Dev.fld; rw [hr]; exact h.busy
  · unfold Dev.fld; rw [hr]; exact h.tagWait
  · unfold Dev.fld; rw [hr]; exact h.tokWait

theorem Dev.abortOnly_accBoundary : Dev.AbortOnly d (d.accBoundary c) [c] := by
  unfold Dev.accBoundary
  split
  · exact .refl d [c]
  · split
    · exact .trans (d.abortOnly_setFld c _ _ (.inr (.inl rfl))) ((Dev.storesOnly_logEv _ _).pool.abort [c])
    · exact .refl d [c]
end

/-- Every core of a list aborted. -/
theorem Dev.abortCores_spec (cs : List Nat) (hcs : ∀ c ∈ cs, c < 8) (d : Dev) :
    let e := cs.foldl (fun d x => (d.accBoundary x).abortCore x) d
    Dev.AbortOnly d e cs ∧ ∀ c ∈ cs, Dev.Freed e c := by
  have key : ∀ (l : List Nat) (d : Dev), (∀ c ∈ l, c < 8) → ∀ ks : List Nat, (∀ c ∈ ks, c < 8 ∧ Dev.Freed d c) →
      let e := l.foldl (fun d x => (d.accBoundary x).abortCore x) d
      Dev.AbortOnly d e l ∧ (∀ c ∈ l, Dev.Freed e c) ∧ ∀ c ∈ ks, Dev.Freed e c := by
    intro l
    induction l with
    | nil => intro d _ ks hk; exact ⟨.refl d [], by simp, fun c hc => (hk c hc).2⟩
    | cons x r ih =>
      intro d hl ks hk
      obtain ⟨a1, a2⟩ := (d.accBoundary x).abortCore_spec x
      have a0 := (d.abortOnly_accBoundary x).trans a1
      have hx := hl x (List.mem_cons_self)
      obtain ⟨i1, i2, i3⟩ := ih ((d.accBoundary x).abortCore x) (fun c hc => hl c (List.mem_cons_of_mem _ hc)) (x :: ks) (by
        intro c hc
        rcases List.mem_cons.1 hc with rfl | hc
        · exact ⟨hx, a2⟩
        · refine ⟨(hk c hc).1, ?_⟩
          by_cases h : c = x
          · subst h; exact a2
          · exact (hk c hc).2.keep (hk c hc).1 a0 h)
      simp only [List.foldl_cons]
      refine ⟨(a0.mono fun c hc => ?_).trans (i1.mono fun c hc => List.mem_cons_of_mem _ hc), fun c hc => ?_, fun c hc => i3 c (List.mem_cons_of_mem _ hc)⟩
      · rw [List.mem_singleton] at hc; subst hc; exact List.mem_cons_self
      · rcases List.mem_cons.1 hc with rfl | hc
        · exact i3 c (List.mem_cons_self)
        · exact i2 c hc
  have := key cs d hcs [] (by simp)
  exact ⟨this.1, this.2.1⟩

theorem Dev.abortOnly_syncShares (d : Dev) (cs : List Nat) : Dev.AbortOnly d d.syncShares cs := by
  unfold Dev.syncShares
  refine .foldl (fun d k => ?_) _ _
  simp only []
  have h : ∀ (d : Dev) (o : Nat) f v, 0x200000 ≤ o → Dev.AbortOnly d (d.setFld o f v) cs := fun d o f v ho =>
    ⟨by apply Dev.eq_of <;> simp, fun i _ => by simp, fun i _ h2 _ => d.reg_setFld_ne _ _ (by omega), fun i h1 => d.reg_setFld_ne _ _ (by simp only [R.TEL_FAULTED_LO, R.TEL_FAULTED_HI] at h1; omega), by simp, by simp, by simp, fun i => by simp⟩
  have hr : 0x200000 ≤ R.CAB_WC_STATUS k := by simp only [R.CAB_WC_STATUS]; omega
  exact .trans (h _ _ _ _ hr) (.trans (h _ _ _ _ hr) (h _ _ _ _ hr))

theorem Dev.abortOnly_shares (d : Dev) (cs : List Nat) (a : List Share) (b : List (Nat × Nat)) (m : SMap Word) :
    Dev.AbortOnly d { d with home := { d.home with shares := a, orphans := b, counters := m } } cs :=
  ⟨rfl, fun _ _ => rfl, fun _ _ _ _ => rfl, fun _ _ => rfl, fun _ h => h, fun _ h => h, fun _ h => h, fun _ => rfl⟩

theorem Dev.abortOnly_dropShares (d : Dev) (ctx : Nat) (cs : List Nat) : Dev.AbortOnly d (d.dropShares ctx) cs ∧
    (d.dropShares ctx).home.refs = d.home.refs ∧ (d.dropShares ctx).home.locks = d.home.locks ∧ (d.dropShares ctx).home.remote = d.home.remote := by
  have hs : ∀ e : Dev, e.syncShares.home = e.home := by
    intro e
    unfold Dev.syncShares
    simp [List.foldl]
  unfold Dev.dropShares
  simp only []
  exact ⟨.trans (d.abortOnly_shares cs _ _ _) (Dev.abortOnly_syncShares _ cs), by rw [hs], by rw [hs], by rw [hs]⟩

/-- A freed core's facts survive any change of other things. -/
theorem Dev.Freed.of_only {d e : Dev} {c : Nat} (h : Dev.Freed d c) (hk : e.core c = d.core c)
    (hb : ∀ f ∈ [F.MC_SEQ_STATUS_busy, F.MC_SEQ_STATUS_tag_wait, F.MC_SEQ_STATUS_tok_wait], e.fld (R.MC_SEQ_STATUS c) f = d.fld (R.MC_SEQ_STATUS c) f)
    (h1 : ∀ r ∈ e.home.refs, r ∈ d.home.refs) (h2 : ∀ r ∈ e.home.locks, r ∈ d.home.locks) (h3 : ∀ r ∈ e.home.remote, r ∈ d.home.remote) :
    Dev.Freed e c :=
  ⟨by rw [hk]; exact h.run, by rw [hk]; exact h.inflight, by rw [hk]; exact h.tokens, by rw [hk]; exact h.claims,
    by rw [hk]; exact h.journal, by rw [hk]; exact h.waits, by rw [hk]; exact h.kend,
    (hb _ (by simp)).trans h.busy, (hb _ (by simp)).trans h.tagWait, (hb _ (by simp)).trans h.tokWait,
    fun r hr => h.refs r (h1 r hr), fun r hr => h.locks r (h2 r hr), fun r hr => h.remote r (h3 r hr)⟩

theorem Dev.participants_lt (d : Dev) {c : Nat} (hc : c < 8) : ∀ x ∈ d.participants c, x < 8 := by
  unfold Dev.participants
  intro x hx
  split at hx
  · simp at hx
  · split at hx
    · have := (List.mem_filter.1 hx).1; simpa using this
    · simp at hx; omega

/-- The abort of a kernel that is no replay: every participant is free, the fault code stands in MC_SEQ_STATUS, the frame is gone; other
cores are as they were. -/
theorem Dev.abortKernel_spec (d : Dev) {c : Nat} (hc : c < 8) (code : Code) (addr : Nat) {r : Run} (hr : (d.core c).run = some r)
    (hp : r.replay = false) :
    let e := d.abortKernel c code addr
    Dev.AbortOnly d e (c :: d.participants c) ∧ (∀ x ∈ d.participants c, Dev.Freed e x) ∧
    e.fld (R.MC_SEQ_STATUS c) F.MC_SEQ_STATUS_fault = code.num % 2 ^ 8 ∧
    (∀ f, d.runFrame r = some f →
      e.sched.frames = d.sched.frames.filter fun g => !(g.stream = f.stream && g.num = f.num && g.revisit = f.revisit)) ∧
    (d.runFrame r = none → e.sched.frames = d.sched.frames) := by
  unfold Dev.abortKernel
  rw [hr]
  simp only [hp, Bool.false_eq_true, if_false]
  have hlt := d.participants_lt hc
  obtain ⟨a1, a2⟩ := Dev.abortCores_spec (d.participants c) hlt d
  have af : ((d.participants c).foldl (fun d x => (d.accBoundary x).abortCore x) d).sched.frames = d.sched.frames := by
    have h1 : ∀ (l : List Nat) (d : Dev), (l.foldl (fun d x => (d.accBoundary x).abortCore x) d).sched.frames = d.sched.frames := by
      intro l
      induction l with
      | nil => intro d; rfl
      | cons x r ih => intro d; rw [List.foldl_cons, ih]; exact Dev.abortCore_frames d x
    exact h1 _ _
  generalize hE : (d.participants c).foldl (fun d x => (d.accBoundary x).abortCore x) d = e at *
  have b : ∃ g, (if r.claiming then e.dropShares r.ctx else e) = g ∧ Dev.AbortOnly e g (c :: d.participants c) ∧ g.cores = e.cores ∧
      (∀ x < 8, g.reg (R.MC_SEQ_STATUS x) = e.reg (R.MC_SEQ_STATUS x)) ∧ g.sched = e.sched := by
    refine ⟨_, rfl, ?_⟩
    split
    · have h := (e.abortOnly_dropShares r.ctx [])
      refine ⟨h.1.mono (by simp), ?_, fun x hx => h.1.regs _ ?_ ?_ (by simp), ?_⟩
      · unfold Dev.dropShares Dev.syncShares; simp [List.foldl]
      · simp only [R.MC_SEQ_STATUS]; omega
      · simp only [R.MC_SEQ_STATUS]; omega
      · unfold Dev.dropShares Dev.syncShares; simp [List.foldl]
    · exact ⟨.refl _ _, rfl, fun _ _ => rfl, rfl⟩
  obtain ⟨g, hg, b1, b2, b3, b4⟩ := b
  rw [hg]
  have ff : ∀ g : Dev, (g.setFld (R.MC_SEQ_STATUS c) F.MC_SEQ_STATUS_fault code.num).fld (R.MC_SEQ_STATUS c) F.MC_SEQ_STATUS_fault = code.num % 2 ^ 8 := fun g =>
    Dev.fld_setFld_same _ _ _ _ (by decide)
  have c1 := g.abortOnly_setFld c (o := R.MC_SEQ_STATUS c) F.MC_SEQ_STATUS_fault code.num (.inl rfl)
  have cf : ∀ x, x < 8 → ∀ f ∈ [F.MC_SEQ_STATUS_busy, F.MC_SEQ_STATUS_tag_wait, F.MC_SEQ_STATUS_tok_wait],
      (g.setFld (R.MC_SEQ_STATUS c) F.MC_SEQ_STATUS_fault code.num).fld (R.MC_SEQ_STATUS x) f = g.fld (R.MC_SEQ_STATUS x) f := by
    intro x hx f hf
    by_cases h : x = c
    · subst h
      refine Dev.fld_setFld_other _ _ _ (by decide) ?_
      simp only [List.mem_cons, List.mem_nil_iff, or_false] at hf
      rcases hf with rfl | rfl | rfl <;> decide
    · exact Dev.fld_setFld_ne _ _ _ _ (by simp only [R.MC_SEQ_STATUS]; omega)
  have cc : ∀ x, (g.setFld (R.MC_SEQ_STATUS c) F.MC_SEQ_STATUS_fault code.num).core x = g.core x := fun x => by simp
  have cs : (g.setFld (R.MC_SEQ_STATUS c) F.MC_SEQ_STATUS_fault code.num).sched = g.sched := by simp
  have ch : (g.setFld (R.MC_SEQ_STATUS c) F.MC_SEQ_STATUS_fault code.num).home = g.home := by simp
  have cfault := ff g
  generalize g.setFld (R.MC_SEQ_STATUS c) F.MC_SEQ_STATUS_fault code.num = x at *
  generalize ({ code := code.num, unit := c, flags := 0, wher := r.ctx + 64 * r.kernel, stream := r.stream, frame := r.frame, addr := addr, pc := d.pc c } : LogEntry) = le
  have l1 := (x.storesOnly_logEv le).pool
  have lsch : (x.logEv le).sched = x.sched := by simp
  generalize x.logEv le = y at *
  have hall : Dev.AbortOnly d y (c :: d.participants c) := (a1.mono fun _ h => List.mem_cons_of_mem _ h).trans
    (b1.trans ((c1.mono fun _ h => by rw [List.mem_singleton] at h; subst h; exact List.mem_cons_self).trans (l1.abort _)))
  have hfr : ∀ z ∈ d.participants c, Dev.Freed y z := by
    intro z hz
    have hz8 := hlt z hz
    have hy : y.core z = x.core z := Dev.core_congr (by rw [l1.rest]) z
    have hyh : y.home = x.home := by rw [l1.rest]
    have hyr : y.reg (R.MC_SEQ_STATUS z) = x.reg (R.MC_SEQ_STATUS z) := l1.regs _ (by simp only [R.MC_SEQ_STATUS]; omega) (by simp only [R.MC_SEQ_STATUS]; omega)
    refine (a2 z hz).of_only ?_ ?_ ?_ ?_ ?_
    · rw [hy, cc, Dev.core_congr b2]
    · intro f hf
      have h3 := cf z hz8 f hf
      unfold Dev.fld at h3 ⊢
      rw [hyr, h3, b3 z hz8]
    · intro w hw; rw [hyh, ch] at hw; exact b1.refs w hw
    · intro w hw; rw [hyh, ch] at hw; exact b1.locks w hw
    · intro w hw; rw [hyh, ch] at hw; exact b1.remote w hw
  have hyf : y.fld (R.MC_SEQ_STATUS c) F.MC_SEQ_STATUS_fault = code.num % 2 ^ 8 := by
    rw [← cfault]; unfold Dev.fld
    rw [l1.regs _ (by simp only [R.MC_SEQ_STATUS]; omega) (by simp only [R.MC_SEQ_STATUS]; omega)]
  have hys : y.sched.frames = d.sched.frames := by rw [lsch, cs, b4, af]
  have hrun : y.runFrame r = d.runFrame r := by unfold Dev.runFrame Dev.frame?; rw [hys]
  rw [hrun]
  cases hf : d.runFrame r with
  | none => exact ⟨hall, hfr, hyf, fun f h => by simp at h, fun _ => hys⟩
  | some f =>
    simp only []
    have v := y.voidOnly_voidFrame f 2 code.num 0
    have vf := y.voidFrame_frames f 2 code.num 0
    generalize y.voidFrame f 2 code.num 0 = z at *
    refine ⟨hall.trans (v.abort _), fun w hw => ?_, ?_, fun g hg => ?_, fun h => by simp at h⟩
    · have hw8 := hlt w hw
      refine (hfr w hw).of_only (Dev.core_congr (by rw [v.rest]) w) ?_ ?_ ?_ ?_
      · intro f _; unfold Dev.fld; rw [v.regs _ (by simp only [R.MC_SEQ_STATUS]; omega) (by simp only [R.MC_SEQ_STATUS]; omega)]
      all_goals rw [show z.home = y.home by rw [v.rest]]; exact fun _ h => h
    · unfold Dev.fld at hyf ⊢; rw [v.regs _ (by simp only [R.MC_SEQ_STATUS]; omega) (by simp only [R.MC_SEQ_STATUS]; omega)]; exact hyf
    · simp at hg; subst hg; rw [vf, hys]

/-- Nothing changes but the contexts' repairs, the stores, registers outside the cores' and the Stool engines' blocks, queues, the log,
what waits for the host, the DRAM controller and flash. -/
structure Dev.RepairOnly (d e : Dev) : Prop where
  rest : e = { d with mem := e.mem, regs := e.regs, que := e.que, recov := e.recov, host := e.host, dram := e.dram, nv := e.nv, ctxs := e.ctxs }
  regs : ∀ o, 0x100000 ≤ o → o < 0x200000 → e.reg o = d.reg o
  marks : ∀ o, o = R.TEL_FAULTED_LO ∨ o = R.TEL_FAULTED_HI → e.reg o = d.reg o

theorem Dev.repairOnly_poisonFollow (d : Dev) (a : Nat) : Dev.RepairOnly d (d.poisonFollow a) := by
  unfold Dev.poisonFollow
  split
  · exact ⟨rfl, fun _ _ _ => rfl, fun _ _ => rfl⟩
  · have h : Dev.StoresOnly d (d.leavePoisoned a) := by
      unfold Dev.leavePoisoned
      refine .foldl (fun d st => .foldl (fun d x => ?_) _ _) _ _
      split
      · exact d.storesOnly_writeRun _ _
      · exact .refl d
    have hx : (d.leavePoisoned a).ctxs = d.ctxs := by rw [h.rest]
    refine ⟨?_, fun o h1 h2 => h.regs o (by simp only [inBlocks]; omega), fun o h1 => h.regs o (by simp only [inBlocks, R.TEL_FAULTED_LO, R.TEL_FAULTED_HI] at h1 ⊢; omega)⟩
    rw [hx]; exact h.rest

theorem Dev.RepairOnly.abort {d e : Dev} (h : Dev.RepairOnly d e) (cs : List Nat) : Dev.AbortOnly d e cs := by
  have hc : e.cores = d.cores := by rw [h.rest]
  have hh : e.home = d.home := by rw [h.rest]
  have hs : e.stool = d.stool := by rw [h.rest]
  have hb : e.bpm = d.bpm := by rw [h.rest]
  have hf : e.freeCtr = d.freeCtr := by rw [h.rest]
  have hm : e.streams = d.streams := by rw [h.rest]
  have hk : e.sched = d.sched := by rw [h.rest]
  refine ⟨?_, fun i _ => Dev.core_congr hc i, fun o h1 h2 _ => h.regs o h1 (by omega), h.marks, ?_, ?_, ?_, fun i => by rw [Dev.core_congr hc]⟩
  · rw [hc, hh, hs, hb, hf, hm, hk]; exact h.rest
  all_goals rw [hh]; exact fun _ hr => hr

theorem Dev.fault_spec (d : Dev) {c : Nat} (hc : c < 8) (code : Code) (addr : Nat) {r : Run} (hr : (d.core c).run = some r)
    (hp : r.replay = false) : Dev.Aborted d (d.fault c code addr) c code r := by
  obtain ⟨a1, a2, a3, a4, a5⟩ := d.abortKernel_spec hc code addr hr hp
  unfold Dev.fault
  simp only []
  generalize d.abortKernel c code addr = e at *
  split
  · have h := e.repairOnly_poisonFollow addr
    generalize e.poisonFollow addr = g at *
    have hk : g.sched = e.sched := by rw [h.rest]
    have hh : g.home = e.home := by rw [h.rest]
    have hf : ∀ x < 8, ∀ f, g.fld (R.MC_SEQ_STATUS x) f = e.fld (R.MC_SEQ_STATUS x) f := fun x hx f => by
      unfold Dev.fld; rw [h.regs _ (by simp only [R.MC_SEQ_STATUS]; omega) (by simp only [R.MC_SEQ_STATUS]; omega)]
    refine ⟨a1.trans (h.abort _), fun x hx => (a2 x hx).of_only (Dev.core_congr (by rw [h.rest]) x) (fun f _ => hf x (d.participants_lt hc x hx) f)
      ?_ ?_ ?_, by rw [hf c hc, a3], fun f hf => by rw [hk]; exact a4 f hf, fun hn => by rw [hk]; exact a5 hn⟩ <;> rw [hh] <;> exact fun _ h => h
  · exact ⟨a1, a2, a3, a4, a5⟩

end Sys2Proof.Machine
end

