-- ==== Sys2Proof/Laws/Retire.lean ====
section
/-!
SUPPORT. The end of an instruction in flight: its result committed, its tags settled, its references dropped, its token signalled.
-/

namespace Sys2Proof.Machine

variable {c : Nat} {w : IWord}

/-- What a commit changes. -/
structure CommitOnly (d e : Dev) (c : Nat) : Prop where
  rest : e = { d with mem := e.mem, regs := e.regs, que := e.que, recov := e.recov, host := e.host, dram := e.dram, nv := e.nv }
  regs : ∀ o, inBlocks o → o ≠ R.MC_ARITH_STATUS c → e.reg o = d.reg o

theorem CommitOnly.trans {d e f : Dev} (h : CommitOnly d e c) (g : CommitOnly e f c) : CommitOnly d f c :=
  ⟨by rw [g.rest, h.rest], fun o h1 h2 => (g.regs o h1 h2).trans (h.regs o h1 h2)⟩
theorem CommitOnly.of {d e : Dev} (h : Dev.StoresOnly d e) : CommitOnly d e c := ⟨h.rest, fun o h1 _ => h.regs o h1⟩
theorem commitOnly_arith (d : Dev) (f : Fld) (n : Nat) : CommitOnly d (d.setFld (R.MC_ARITH_STATUS c) f n) c :=
  ⟨by apply Dev.eq_of <;> simp, fun o _ h => d.reg_setFld_ne _ _ h⟩
theorem commitOnly_refl (d : Dev) : CommitOnly d d c := ⟨rfl, fun _ _ _ => rfl⟩

theorem arith_not_mapRegs : ¬ Dev.mapRegs (R.MC_ARITH_STATUS c) := not_mapRegs_high (by simp only [R.MC_ARITH_STATUS]; omega)

theorem setFlag_spec (d : Dev) (b : Bool) (f : Fld) (h1 : f.lsb + f.w ≤ 32) (h2 : 0 < f.w) :
    let e := if b then d.setFld (R.MC_ARITH_STATUS c) f 1 else d
    CommitOnly d e c ∧ Dev.SameBytes d e ∧ e.flag (R.MC_ARITH_STATUS c) f = (b || d.flag (R.MC_ARITH_STATUS c) f) ∧
    ∀ g : Fld, (g.lsb + g.w ≤ f.lsb ∨ f.lsb + f.w ≤ g.lsb) → e.flag (R.MC_ARITH_STATUS c) g = d.flag (R.MC_ARITH_STATUS c) g := by
  cases b
  · exact ⟨commitOnly_refl d, .refl d, by simp, fun _ _ => rfl⟩
  · refine ⟨commitOnly_arith d f 1, d.sameBytes_setFld f 1 arith_not_mapRegs, ?_, fun g hg => ?_⟩
    · simp only [if_true, Bool.true_or]
      unfold Dev.flag
      rw [Dev.fld_setFld_same _ _ _ _ h1]
      have : 1 < 2 ^ f.w := Nat.one_lt_two_pow (by omega)
      simp [Nat.mod_eq_of_lt this]
    · simp only [if_true]
      unfold Dev.flag; rw [Dev.fld_setFld_other _ _ _ h1 hg]

theorem setFlags_spec (d : Dev) (r : Res) : CommitOnly d (d.setFlags c r) c ∧ Dev.SameBytes d (d.setFlags c r) ∧
    (d.setFlags c r).flag (R.MC_ARITH_STATUS c) F.MC_ARITH_STATUS_acc_sat = (r.acc || d.flag (R.MC_ARITH_STATUS c) F.MC_ARITH_STATUS_acc_sat) ∧
    (d.setFlags c r).flag (R.MC_ARITH_STATUS c) F.MC_ARITH_STATUS_vec_sat = (r.vsat || d.flag (R.MC_ARITH_STATUS c) F.MC_ARITH_STATUS_vec_sat) ∧
    (d.setFlags c r).flag (R.MC_ARITH_STATUS c) F.MC_ARITH_STATUS_vec_nan = (r.vnan || d.flag (R.MC_ARITH_STATUS c) F.MC_ARITH_STATUS_vec_nan) := by
  unfold Dev.setFlags
  simp only []
  obtain ⟨a1, a2, a3, a4⟩ := setFlag_spec (c := c) d r.acc F.MC_ARITH_STATUS_acc_sat (by decide) (by decide)
  generalize (if r.acc = true then d.setFld (R.MC_ARITH_STATUS c) F.MC_ARITH_STATUS_acc_sat 1 else d) = x at *
  obtain ⟨b1, b2, b3, b4⟩ := setFlag_spec (c := c) x r.vsat F.MC_ARITH_STATUS_vec_sat (by decide) (by decide)
  generalize (if r.vsat = true then x.setFld (R.MC_ARITH_STATUS c) F.MC_ARITH_STATUS_vec_sat 1 else x) = y at *
  obtain ⟨c1, c2, c3, c4⟩ := setFlag_spec (c := c) y r.vnan F.MC_ARITH_STATUS_vec_nan (by decide) (by decide)
  generalize (if r.vnan = true then y.setFld (R.MC_ARITH_STATUS c) F.MC_ARITH_STATUS_vec_nan 1 else y) = z at *
  refine ⟨a1.trans (b1.trans c1), a2.trans (b2.trans c2), ?_, ?_, ?_⟩
  · rw [c4 _ (by decide), b4 _ (by decide), a3]
  · rw [c4 _ (by decide), b3, a4 _ (by decide)]
  · rw [c3, b4 _ (by decide), a4 _ (by decide)]

theorem commitRes_spec (d : Dev) (r : Res) (hc : c < 8) : CommitOnly d (d.commitRes c r) c ∧
    (d.mem.chk = [] → (∀ w ∈ r.ws, d.writable w.1) → (∀ a, (d.commitRes c r).rd a = (lastAt r.ws a).getD (d.rd a)) ∧ (d.commitRes c r).mem.chk = []) ∧
    (d.commitRes c r).flag (R.MC_ARITH_STATUS c) F.MC_ARITH_STATUS_acc_sat = (r.acc || d.flag (R.MC_ARITH_STATUS c) F.MC_ARITH_STATUS_acc_sat) ∧
    (d.commitRes c r).flag (R.MC_ARITH_STATUS c) F.MC_ARITH_STATUS_vec_sat = (r.vsat || d.flag (R.MC_ARITH_STATUS c) F.MC_ARITH_STATUS_vec_sat) ∧
    (d.commitRes c r).flag (R.MC_ARITH_STATUS c) F.MC_ARITH_STATUS_vec_nan = (r.vnan || d.flag (R.MC_ARITH_STATUS c) F.MC_ARITH_STATUS_vec_nan) := by
  unfold Dev.commitRes
  have s1 := d.storesOnly_noteRead r.reads
  have b1 := fun h => d.sameBytes_noteRead h r.reads
  generalize d.noteRead r.reads = e1 at *
  have s2 := e1.storesOnly_writeCells r.ws
  have b2 := fun h => e1.rd_writeCells h r.ws
  simp only [] at b2
  generalize e1.writeCells r.ws = e2 at *
  have s3 := e2.storesOnly_setPoison r.pz
  have b3 := e2.sameBytes_setPoison r.pz
  generalize e2.setPoison r.pz = e3 at *
  have s4 := setFlags_spec (c := c) e3 r
  have hs := s1.trans (s2.trans s3)
  have hin : inBlocks (R.MC_ARITH_STATUS c) := by simp only [inBlocks, R.MC_ARITH_STATUS]; omega
  have hf : ∀ f, e3.flag (R.MC_ARITH_STATUS c) f = d.flag (R.MC_ARITH_STATUS c) f := fun f => by
    unfold Dev.flag Dev.fld; rw [hs.regs _ hin]
  obtain ⟨s41, s42, s43, s44, s45⟩ := s4
  rw [hf] at s43 s44 s45
  refine ⟨(CommitOnly.of hs).trans s41, fun h hw => ?_, s43, s44, s45⟩
  have q1 := b1 h
  obtain ⟨q2, q3, _, _⟩ := b2 (by rw [q1.chk, h]) fun w hw' => q1.writable.2 (hw w hw')
  refine ⟨fun a => ?_, ?_⟩
  · rw [s42.rd, b3.rd, q2, q1.rd]
  · rw [s42.chk, b3.chk, q3]

theorem attpv_tags (d e : Dev) (c : Nat) (k : Core) (w : IWord) (l : List Word) :
    (attpvForm e c k w l).srcs = (attpvForm d c k w l).srcs ∧ (attpvForm e c k w l).dsts = (attpvForm d c k w l).dsts := by
  unfold attpvForm
  generalize k.opd l (iD w) = x
  generalize k.opd l (iA w) = y
  generalize k.opd l (iC w) = z
  cases x <;> cases y <;> cases z <;> exact ⟨rfl, rfl⟩

theorem kvexp_tags (d e : Dev) (k : Core) (w : IWord) (l : List Word) :
    (kvexpForm e k w l).srcs = (kvexpForm d k w l).srcs ∧ (kvexpForm e k w l).dsts = (kvexpForm d k w l).dsts := by
  unfold kvexpForm
  generalize k.opd l (iD w) = x
  generalize k.opd l (iB w) = y
  generalize k.opd l (iC w) = z
  cases x <;> cases y <;> cases z <;> exact ⟨rfl, rfl⟩

theorem formOf_same (d e : Dev) (c : Nat) (k : Core) (w : IWord) (l : List Word) (h1 : iOp w ≠ 0x31) (h2 : iOp w ≠ 0x32)
    (h3 : iOp w ≠ 0x33) : e.formOf c k w l = d.formOf c k w l := by
  unfold Dev.formOf
  split <;> first | contradiction | rfl

theorem formOf_tags {d e : Dev} {k : Core} {w : IWord} {l : List Word} {f : Form} (hk : iOp w ≠ 0x32) (h : d.formOf c k w l = some f) :
    ∃ g, e.formOf c k w l = some g ∧ g.srcs = f.srcs ∧ g.dsts = f.dsts := by
  by_cases h1 : iOp w = 0x31
  · have q : ∀ x : Dev, x.formOf c k w l = some (attpvForm x c k w l) := fun x => by unfold Dev.formOf; simp only [h1]
    rw [q] at h
    cases h
    exact ⟨_, q e, attpv_tags d e c k w l⟩
  · by_cases h3 : iOp w = 0x33
    · have q : ∀ x : Dev, x.formOf c k w l = some (kvexpForm x k w l) := fun x => by unfold Dev.formOf; simp only [h3]
      rw [q] at h
      cases h
      exact ⟨_, q e, kvexp_tags d e k w l⟩
    · exact ⟨f, (formOf_same d e c k w l h1 hk h3).trans h, rfl, rfl⟩

theorem setTags_cores (d : Dev) (c : Nat) (l : List TagRef) (g : Dev → TagRef → TagState) :
    let e := l.foldl (fun d t => d.setTag c t (g d t)) d
    e = { d with cores := e.cores, home := { d.home with tags := e.home.tags } } ∧ (∀ i, i ≠ c → e.core i = d.core i) ∧
    e.core c = { d.core c with priv := (e.core c).priv } := by
  induction l generalizing d with
  | nil => exact ⟨rfl, fun _ _ => rfl, rfl⟩
  | cons a r ih =>
    have hs : ∀ d : Dev, ∀ v, d.setTag c a v = { d with cores := (d.setTag c a v).cores, home := { d.home with tags := (d.setTag c a v).home.tags } } ∧
        (∀ i, i ≠ c → (d.setTag c a v).core i = d.core i) ∧ (d.setTag c a v).core c = { d.core c with priv := ((d.setTag c a v).core c).priv } := by
      intro d v
      unfold Dev.setTag
      split
      · exact ⟨by apply Dev.eq_of <;> simp, fun i hi => Dev.core_modCore_ne _ _ hi, by simp⟩
      · exact ⟨rfl, fun _ _ => rfl, rfl⟩
    obtain ⟨i1, i2, i3⟩ := ih (d.setTag c a (g d a))
    obtain ⟨j1, j2, j3⟩ := hs d (g d a)
    simp only [List.foldl_cons]
    generalize d.setTag c a (g d a) = x at *
    generalize r.foldl (fun d t => d.setTag c t (g d t)) x = y at *
    refine ⟨?_, fun i hi => (i2 i hi).trans (j2 i hi), ?_⟩
    · rw [i1, j1]
    · rw [i3, j3]

theorem settle_cores (d : Dev) (c : Nat) (reads writes : List TagRef) :
    let e := d.settleTags c reads writes
    e = { d with cores := e.cores, home := { d.home with tags := e.home.tags } } ∧ (∀ i, i ≠ c → e.core i = d.core i) ∧
    e.core c = { d.core c with priv := (e.core c).priv } := by
  unfold Dev.settleTags
  obtain ⟨a1, a2, a3⟩ := setTags_cores d c writes fun _ t => .ready t.rcount
  simp only []
  generalize writes.foldl (fun d t => d.setTag c t (.ready t.rcount)) d = x at *
  obtain ⟨b1, b2, b3⟩ := setTags_cores x c (reads.filter fun t => !hasTag writes t) fun d t => (d.tag c t).retire
  generalize (reads.filter fun t => !hasTag writes t).foldl (fun d t => d.setTag c t (d.tag c t).retire) x = y at *
  refine ⟨by rw [b1, a1], fun i hi => (b2 i hi).trans (a2 i hi), by rw [b3, a3]⟩

theorem dropPages_spec (d : Dev) (c id : Nat) :
    let e := d.dropPages c id
    e = { d with mem := e.mem, regs := e.regs, que := e.que, recov := e.recov, host := e.host, dram := e.dram, nv := e.nv, bpm := e.bpm, freeCtr := e.freeCtr, home := { d.home with refs := e.home.refs, locks := e.home.locks } } ∧
    (∀ o, 0x100000 ≤ o → o < 0x200000 → e.reg o = d.reg o) ∧ (∀ y ∈ e.home.refs, y.2 ≠ (c, id)) ∧ (∀ y ∈ e.home.locks, y.2 ≠ (c, id)) ∧
    ((∀ y ∈ d.home.refs, y.2 ≠ (c, id)) → e.rd = d.rd) := by
  unfold Dev.dropPages
  simp only []
  have h2 : ∀ r ∈ d.home.refs.filter (fun r => r.2 ≠ (c, id)), r.2 ≠ (c, id) := fun r h => by simpa using (List.mem_filter.1 h).2
  have h3 : ∀ r ∈ d.home.locks.filter (fun r => r.2 ≠ (c, id)), r.2 ≠ (c, id) := fun r h => by simpa using (List.mem_filter.1 h).2
  have hrd : ({ d with home := { d.home with refs := d.home.refs.filter (fun r => r.2 ≠ (c, id)), locks := d.home.locks.filter (fun l => l.2 ≠ (c, id)) } } : Dev).rd = d.rd := by
    funext a; exact Dev.rd_of_regs rfl rfl (fun _ _ _ => rfl) a
  have hc : ({ d with home := { d.home with refs := d.home.refs.filter (fun r => r.2 ≠ (c, id)), locks := d.home.locks.filter (fun l => l.2 ≠ (c, id)) } } : Dev) = { d with home := { d.home with refs := d.home.refs.filter (fun r => r.2 ≠ (c, id)), locks := d.home.locks.filter (fun l => l.2 ≠ (c, id)) } } := rfl
  have hg : ∀ o, ({ d with home := { d.home with refs := d.home.refs.filter (fun r => r.2 ≠ (c, id)), locks := d.home.locks.filter (fun l => l.2 ≠ (c, id)) } } : Dev).reg o = d.reg o := fun _ => rfl
  have hm : (∀ y ∈ d.home.refs, y.2 ≠ (c, id)) → (d.home.refs.filter fun r => r.2 = (c, id)) = [] := fun h => by
    rw [List.filter_eq_nil_iff]; intro y hy; simpa using h y hy
  have hh : ({ d with home := { d.home with refs := d.home.refs.filter (fun r => r.2 ≠ (c, id)), locks := d.home.locks.filter (fun l => l.2 ≠ (c, id)) } } : Dev).home = { d.home with refs := d.home.refs.filter (fun r => r.2 ≠ (c, id)), locks := d.home.locks.filter (fun l => l.2 ≠ (c, id)) } := rfl
  generalize hE : ({ d with home := { d.home with refs := d.home.refs.filter (fun r => r.2 ≠ (c, id)), locks := d.home.locks.filter (fun l => l.2 ≠ (c, id)) } } : Dev) = e at *
  have h5 : Dev.PoolOnly e ((d.home.refs.filter fun r => r.2 = (c, id)).foldl (fun d r => d.refDec r.1) e) := .foldl (fun d r => d.poolOnly_refDec _) _ _
  have h6 : (∀ y ∈ d.home.refs, y.2 ≠ (c, id)) → (d.home.refs.filter fun r => r.2 = (c, id)).foldl (fun d r => d.refDec r.1) e = e := fun h => by rw [hm h]; rfl
  generalize (d.home.refs.filter fun r => r.2 = (c, id)).foldl (fun d r => d.refDec r.1) e = g at *
  have hgh : g.home = e.home := by rw [h5.rest]
  refine ⟨?_, fun o h1 h2 => (h5.regs o h1 h2).trans (hg o), ?_, ?_, fun h => by rw [h6 h, hrd]⟩
  · have := h5.rest
    rw [hgh, hh]
    rw [← hE] at this
    exact this
  · rw [hgh, hh]; exact h2
  · rw [hgh, hh]; exact h3

theorem signal_count (e : Dev) (hc : c < 8) :
    let g := (e.signal c w).countRetired c
    g = { e with regs := g.regs, cores := g.cores } ∧ (∀ o, o ≠ R.MC_SEQ_STATUS c → o ≠ R.MC_SEQ_RETIRED c → g.reg o = e.reg o) ∧
    (∀ i, i ≠ c → g.core i = e.core i) ∧ g.core c = { e.core c with tokens := (g.core c).tokens } ∧ g.pc c = e.pc c ∧
    g.reg (R.MC_SEQ_RETIRED c) = (e.reg (R.MC_SEQ_RETIRED c) + 1) % 2 ^ 32 ∧ g.tok = tokSignal e.tok c w := by
  have hq := quiet_signal c w
  have h1 := hq.only e
  have hr := hq.retired e
  have ht := Dev.signal_tok e c w
  have hp : (e.signal c w).fld (R.MC_SEQ_STATUS c) F.MC_SEQ_STATUS_pc = e.fld (R.MC_SEQ_STATUS c) F.MC_SEQ_STATUS_pc := by
    unfold Dev.signal Dev.tokAdd
    split
    · simp only [Dev.fld_modCore]
      split
      · exact Dev.fld_setFld_other _ _ _ (by decide) (by decide)
      · rfl
    · rfl
  have hrest : e.signal c w = { e with regs := (e.signal c w).regs, cores := (e.signal c w).cores } := by
    unfold Dev.signal
    split
    · unfold Dev.tokAdd; simp only []; split <;> (apply Dev.eq_of <;> simp)
    · rfl
  have ho : ∀ i, i ≠ c → (e.signal c w).core i = e.core i := by
    intro i hi
    unfold Dev.signal
    split
    · unfold Dev.tokAdd
      simp only []
      rw [Dev.core_modCore_ne _ _ hi]
      split <;> simp
    · rfl
  have hown : (e.signal c w).core c = { e.core c with tokens := ((e.signal c w).core c).tokens } := by
    unfold Dev.signal
    split
    · unfold Dev.tokAdd
      simp only []
      rw [Dev.core_modCore_same]
      split <;> simp
    · rfl
  generalize e.signal c w = x at *
  refine ⟨?_, fun o h1' h2 => ?_, fun i hi => ?_, ?_, ?_, ?_, ?_⟩
  · have : x.countRetired c = { x with regs := (x.countRetired c).regs } := by apply Dev.eq_of <;> simp
    generalize hz : x.countRetired c = z at *
    have hzc : z.cores = x.cores := by rw [this]
    rw [hzc]; rw [this]; rw [hrest]
  · exact (x.reg_setFld_ne _ _ h2).trans (h1.regs o h1' h2)
  · rw [Dev.core_countRetired, ho i hi]
  · rw [Dev.core_countRetired]; exact hown
  · unfold Dev.pc Dev.countRetired Dev.wrapFld
    rw [Dev.fld_setFld_ne _ _ _ _ (retired_ne_status c), hp]
  · simp only [Dev.countRetired, Dev.wrapFld, Dev.setFld, Dev.reg_setReg_same, Dev.fld]
    rw [hr]
    have hl := e.reg_lt (R.MC_SEQ_RETIRED c)
    simp only [Fld.put, Fld.get, bits]
    omega
  · rw [← ht]; funext i y; exact Dev.tok_congr (by simp) i y

theorem retire_spec (d : Dev) (x : InFlight) (f : Form) (hc : c < 8) (ha : x.share = none) (hf : d.formOf c (d.core c) x.word x.sregs = some f) :
    let e := d.retireFlight c x
    e = { d with mem := e.mem, regs := e.regs, que := e.que, recov := e.recov, host := e.host, dram := e.dram, nv := e.nv, cores := e.cores, bpm := e.bpm, freeCtr := e.freeCtr, home := { d.home with tags := e.home.tags, refs := e.home.refs, locks := e.home.locks } } ∧
    (∀ o, 0x100000 ≤ o → o < 0x200000 → o ≠ R.MC_SEQ_STATUS c → o ≠ R.MC_SEQ_RETIRED c → e.reg o = d.reg o) ∧
    (∀ i, i ≠ c → e.core i = d.core i) ∧ (e.core c).sregs = (d.core c).sregs ∧
    (e.core c).inflight = ((d.core c).inflight.filter fun y => y.id ≠ x.id) ∧ e.pc c = d.pc c ∧
    e.reg (R.MC_SEQ_RETIRED c) = (d.reg (R.MC_SEQ_RETIRED c) + 1) % 2 ^ 32 ∧ e.tok = tokSignal d.tok c x.word ∧
    (∀ y ∈ f.writes (d.core c) c, e.tag c y = .ready y.rcount) ∧
    (∀ y, hasTag (f.writes (d.core c) c) y = false → e.tag c y = if hasTag (f.reads (d.core c) c) y = true then (d.tag c y).retire else d.tag c y) ∧
    ((∀ y ∈ e.home.refs, y.2 ≠ (c, x.id)) ∧ ∀ y ∈ e.home.locks, y.2 ≠ (c, x.id)) ∧
    ((∀ y ∈ d.home.refs, y.2 ≠ (c, x.id)) → e.rd = d.rd) := by
  unfold Dev.retireFlight
  simp only []
  rw [hf, ha]
  simp only []
  have hR := (dedupTags_spec (f.srcs.filterMap ((d.core c).tagRef c))).1
  have hW := (dedupTags_spec (f.dsts.filterMap ((d.core c).tagRef c))).1
  obtain ⟨t1, t2⟩ := settle_tags d c (f.reads (d.core c) c) (f.writes (d.core c) c) hR hW
  obtain ⟨a1, a2, a3⟩ := settle_cores d c (f.reads (d.core c) c) (f.writes (d.core c) c)
  generalize d.settleTags c (f.reads (d.core c) c) (f.writes (d.core c) c) = e1 at *
  obtain ⟨p1, p2, p3, p4, p5⟩ := dropPages_spec e1 c x.id
  generalize e1.dropPages c x.id = e2 at *
  have hd : e2.dropFlight c x.id = { e2 with cores := (e2.dropFlight c x.id).cores } ∧ (∀ i, i ≠ c → (e2.dropFlight c x.id).core i = e2.core i) ∧
      (e2.dropFlight c x.id).core c = { e2.core c with inflight := (e2.core c).inflight.filter fun y => y.id ≠ x.id } := by
    unfold Dev.dropFlight
    exact ⟨by apply Dev.eq_of <;> simp, fun i hi => Dev.core_modCore_ne _ _ hi, by simp⟩
  generalize e2.dropFlight c x.id = e3 at *
  have hp : ∃ e4, (if iOp x.word = 0x30 ∨ iOp x.word = 0x31 then e3.modCore c fun k => { k with planeA := none, planeS := none } else e3) = e4 ∧
      e4 = { e3 with cores := e4.cores } ∧ (∀ i, i ≠ c → e4.core i = e3.core i) ∧
      e4.core c = { e3.core c with planeA := (e4.core c).planeA, planeS := (e4.core c).planeS } := by
    refine ⟨_, rfl, ?_⟩
    split
    · exact ⟨by apply Dev.eq_of <;> simp, fun i hi => Dev.core_modCore_ne _ _ hi, by simp⟩
    · exact ⟨rfl, fun _ _ => rfl, rfl⟩
  obtain ⟨e4, he4, q1, q2, q3⟩ := hp
  rw [he4]
  obtain ⟨s1, s2, s3, s4, s5, s6, s7⟩ := signal_count (w := x.word) e4 hc
  generalize (e4.signal c x.word).countRetired c = e5 at *
  obtain ⟨d1, d2, d3⟩ := hd
  have k2 : ∀ i, e2.core i = e1.core i := fun i => Dev.core_congr (by rw [p1]) i
  have r4 : e4.regs = e2.regs := by rw [q1, d1]
  have r1 : e1.regs = d.regs := by rw [a1]
  have h4 : e4.home = e2.home := by rw [q1, d1]
  have h5 : e5.home = e2.home := by rw [s1, h4]
  have h2t : e2.home.tags = e1.home.tags := by rw [p1]
  have hcore : e5.core c = { d.core c with priv := (e1.core c).priv, inflight := (d.core c).inflight.filter (fun y => y.id ≠ x.id), planeA := (e4.core c).planeA, planeS := (e4.core c).planeS, tokens := (e5.core c).tokens } := by
    rw [s4, q3, d3, k2, a3]
  have htag : ∀ y, e5.tag c y = e1.tag c y := fun y => Dev.tag_congr (by rw [hcore]) (by rw [h5, h2t]) y
  have hreg : ∀ o, 0x100000 ≤ o → o < 0x200000 → o ≠ R.MC_SEQ_STATUS c → o ≠ R.MC_SEQ_RETIRED c → e5.reg o = d.reg o := fun o g1 g2 g3 g4 => by
    rw [s2 o g3 g4, Dev.reg_congr r4, p2 o g1 g2, Dev.reg_congr r1]
  have hreg4 : ∀ o, 0x100000 ≤ o → o < 0x200000 → e4.reg o = d.reg o := fun o g1 g2 => by
    rw [Dev.reg_congr r4, p2 o g1 g2, Dev.reg_congr r1]
  refine ⟨?_, hreg, fun i hi => ?_, by rw [hcore], by rw [hcore], ?_, ?_, ?_, fun y hy => ?_, fun y hy => ?_, ⟨?_, ?_⟩, fun hn => ?_⟩
  · have e5m : e5.mem = e2.mem := by rw [s1, q1, d1]
    have e5q : e5.que = e2.que := by rw [s1, q1, d1]
    have e5r : e5.recov = e2.recov := by rw [s1, q1, d1]
    have e5h : e5.host = e2.host := by rw [s1, q1, d1]
    have e5d : e5.dram = e2.dram := by rw [s1, q1, d1]
    have e5n : e5.nv = e2.nv := by rw [s1, q1, d1]
    have e5b : e5.bpm = e2.bpm := by rw [s1, q1, d1]
    have e5f : e5.freeCtr = e2.freeCtr := by rw [s1, q1, d1]
    rw [e5m, e5q, e5r, e5h, e5d, e5n, e5b, e5f, h5]
    rw [s1, q1, d1, p1, a1]
  · rw [s3 i hi, q2 i hi, d2 i hi, k2, a2 i hi]
  · rw [s5]; unfold Dev.pc Dev.fld; rw [hreg4 _ (by simp only [R.MC_SEQ_STATUS]; omega) (by simp only [R.MC_SEQ_STATUS]; omega)]
  · rw [s6, hreg4 _ (by simp only [R.MC_SEQ_RETIRED]; omega) (by simp only [R.MC_SEQ_RETIRED]; omega)]
  · rw [s7]
    have : e4.tok = d.tok := by
      funext i y
      unfold Dev.tok
      by_cases hi : i = c
      · subst hi; rw [q3, d3, k2, a3]
      · rw [q2 i hi, d2 i hi, k2, a2 i hi]
    rw [this]
  · rw [htag, t1 y hy]
  · rw [htag, t2 y hy]
  · rw [h5]; exact p3
  · rw [h5]; exact p4
  · have h15 : e5.rd = e2.rd := by
      funext a
      refine Dev.rd_of_regs (by rw [s1, q1, d1]) (by rw [s1, q1, d1]) (fun o g1 g2 => ?_) a
      rw [s2 o (by simp only [R.MC_SEQ_STATUS]; omega) (by simp only [R.MC_SEQ_RETIRED]; omega), Dev.reg_congr r4]
    have h1 : e1.home.refs = d.home.refs := by rw [a1]
    rw [h15, p5 (by rw [h1]; exact hn)]
    funext a
    exact Dev.rd_of_regs (by rw [a1]) (by rw [a1]) (fun o _ _ => Dev.reg_congr r1 o) a

/-- Committed and retired. -/
theorem committed (d : Dev) (x : InFlight) (f : Form) (r : Res) (hc : c < 8) (ha : x.share = none) (hk : iOp x.word ≠ 0x32)
    (hf : d.formOf c (d.core c) x.word x.sregs = some f) : Dev.Retired d ((d.commitRes c r).retireFlight c x) c x f r ∧
    ((d.commitRes c r).retireFlight c x).stool = d.stool ∧ (∀ o, 0x180000 ≤ o → o < 0x200000 → ((d.commitRes c r).retireFlight c x).reg o = d.reg o) := by
  obtain ⟨c1, c2, c3, c4, c5⟩ := commitRes_spec (c := c) d r hc
  obtain ⟨g, hg, hs, hd⟩ := formOf_tags (e := d.commitRes c r) hk hf
  generalize d.commitRes c r = y at *
  have hcore : ∀ i, y.core i = d.core i := fun i => Dev.core_congr (by rw [c1.rest]) i
  have hw : g.writes (y.core c) c = f.writes (d.core c) c := by unfold Form.writes; rw [hd, hcore]
  have hr : g.reads (y.core c) c = f.reads (d.core c) c := by unfold Form.reads; rw [hs, hcore]
  have hhome : y.home = d.home := by rw [c1.rest]
  have htag : ∀ z, y.tag c z = d.tag c z := fun z => Dev.tag_congr (by rw [hcore]) (by rw [hhome]) z
  obtain ⟨r1, r2, r3, r4, r5, r6, r7, r8, r9, r10, r11, r12⟩ := retire_spec y x g hc ha (by rw [hcore]; exact hg)
  rw [hw] at r9 r10
  rw [hr] at r10
  generalize y.retireFlight c x = z at *
  have hin : ∀ o, 0x100000 ≤ o → o < 0x200000 → inBlocks o := fun o a b => by simp only [inBlocks]; omega
  have hreg : ∀ o, 0x100000 ≤ o → o < 0x200000 → o ≠ R.MC_SEQ_STATUS c → o ≠ R.MC_SEQ_RETIRED c → o ≠ R.MC_ARITH_STATUS c → z.reg o = d.reg o :=
    fun o a b p q s => (r2 o a b p q).trans (c1.regs o (hin o a b) s)
  have hfl : ∀ f, z.flag (R.MC_ARITH_STATUS c) f = y.flag (R.MC_ARITH_STATUS c) f := fun f => by
    unfold Dev.flag Dev.fld
    rw [r2 _ (by simp only [R.MC_ARITH_STATUS]; omega) (by simp only [R.MC_ARITH_STATUS]; omega) (by simp only [R.MC_ARITH_STATUS, R.MC_SEQ_STATUS]; omega) (by simp only [R.MC_ARITH_STATUS, R.MC_SEQ_RETIRED]; omega)]
  refine ⟨⟨?_, fun o a b p q s => hreg o a (by omega) p q s, fun i hi => (r3 i hi).trans (hcore i), by rw [r4, hcore], by rw [r5, hcore], ?_, ?_, ?_,
    r9, fun w hw' => by rw [r10 w hw', htag], by rw [hfl, c3], by rw [hfl, c4], by rw [hfl, c5], r11, fun h1 h2 h3 a => ?_⟩, ?_, fun o a b => ?_⟩
  · have hst : z.stool = d.stool := by rw [r1, c1.rest]
    rw [hst]
    rw [r1]
    rw [hhome]
    rw [c1.rest]
  · rw [r6]; unfold Dev.pc Dev.fld; rw [c1.regs _ (hin _ (by simp only [R.MC_SEQ_STATUS]; omega) (by simp only [R.MC_SEQ_STATUS]; omega)) (by simp only [R.MC_ARITH_STATUS, R.MC_SEQ_STATUS]; omega)]
  · rw [r7, c1.regs _ (hin _ (by simp only [R.MC_SEQ_RETIRED]; omega) (by simp only [R.MC_SEQ_RETIRED]; omega)) (by simp only [R.MC_ARITH_STATUS, R.MC_SEQ_RETIRED]; omega)]
  · rw [r8]; congr 1; funext i t; unfold Dev.tok; rw [hcore]
  · obtain ⟨m1, _⟩ := c2 h1 h2
    rw [r12 (by rw [hhome]; exact h3), m1]
  · rw [r1, c1.rest]
  · exact hreg o (by omega) b (by simp only [R.MC_SEQ_STATUS]; omega) (by simp only [R.MC_SEQ_RETIRED]; omega) (by simp only [R.MC_ARITH_STATUS]; omega)

end Sys2Proof.Machine
end

