-- ==== Sys2Proof/Certificates/Slice0/Obligations.lean ====
section
/-!
DEFINITION. The statements: what each family of commands does, and what every step keeps. The helpers stand beside the statements
that use them.
-/

open Sys2Proof Sys2Proof.Machine

/-- SETS and SALU (R162): the value, the tokens, the pc and the frame. -/
def Obligations.ScalarInstructions : Prop :=
  (∀ (s : State) (c : Nat) (w : IWord), s.here.seqReady c 0x52 w (reservedOk w 0 (31 ||| (2 ^ 32 - 1) * 2 ^ 32)) →
    Answers (.sets c) s fun t => Issued s t c (s.here.pc c + 1) ∧ t.d.tok = tokSignal (tokWait s.here.tok c w) c w ∧
      (t.d.core c).sregs = sPut (s.here.core c).sregs (imm w 0 5) (BitVec.ofNat 32 (imm w 32 32))) ∧
  (∀ (s : State) (c : Nat) (w : IWord),
    s.here.seqReady c 0x53 w (reservedOk w 31 ((2 ^ 15 - 1) ||| (2 ^ 32 - 1) * 2 ^ 32) && bits (iMod w) 0 4 ≠ 15) →
    Answers (.salu c) s fun t => Issued s t c (s.here.pc c + 1) ∧ t.d.tok = tokSignal (tokWait s.here.tok c w) c w ∧
      (t.d.core c).sregs = sPut (s.here.core c).sregs (imm w 0 5) (saluWord (bits (iMod w) 0 4)
        (sWord (s.here.core c).sregs (imm w 5 5))
        (if modBit w 4 then BitVec.ofNat 32 (imm w 32 32) else sWord (s.here.core c).sregs (imm w 10 5))))

/-- R162, whole: LOOP and BR, the faults, and that all four complete at issue. -/
def Obligations.LoopAndBranch : Prop :=
  (∀ (s : State) (c n : Nat) (w : IWord),
    s.here.seqReady c 0x50 w (reservedOk w 0 (31 ||| (2 ^ 16 - 1) * 2 ^ 16) && imm w 0 5 ≠ 0) →
    (n : Int) = s.here.pc c + (BitVec.ofNat 16 (imm w 16 16)).toInt → n < (s.here.core c).ibuf.length →
    Answers (.loop c) s fun t =>
      Issued s t c (if sWord (s.here.core c).sregs (imm w 0 5) = 1 then s.here.pc c + 1 else n) ∧
      t.d.tok = tokSignal (tokWait s.here.tok c w) c w ∧
      (t.d.core c).sregs = (s.here.core c).sregs.set (imm w 0 5) (sWord (s.here.core c).sregs (imm w 0 5) - 1)) ∧
  (∀ (s : State) (c n : Nat) (w : IWord),
    s.here.seqReady c 0x51 w (reservedOk w 15 ((2 ^ 10 - 1) ||| (2 ^ 48 - 1) * 2 ^ 16) && bits (iMod w) 0 3 ≠ 7) →
    (n : Int) = s.here.pc c + (BitVec.ofNat 16 (imm w 16 16)).toInt → n < (s.here.core c).ibuf.length →
    Answers (.br c) s fun t =>
      Issued s t c (if branchWord (bits (iMod w) 0 3) (sWord (s.here.core c).sregs (imm w 0 5))
        (if modBit w 3 then BitVec.ofNat 32 (imm w 32 32) else sWord (s.here.core c).sregs (imm w 5 5)) then n else s.here.pc c + 1) ∧
      t.d.tok = tokSignal (tokWait s.here.tok c w) c w ∧ (t.d.core c).sregs = (s.here.core c).sregs) ∧
  (∀ (s : State) (c : Nat) (w : IWord), s.here.atInstr c 0x50 w ∨ s.here.atInstr c 0x51 w →
    (¬ ∃ n : Nat, n < (s.here.core c).ibuf.length ∧ (n : Int) = s.here.pc c + (BitVec.ofNat 16 (imm w 16 16)).toInt) →
    (iOp w = 0x50 → FaultsInvalid (.loop c) s c) ∧ (iOp w = 0x51 → FaultsInvalid (.br c) s c)) ∧
  (∀ (s : State) (c : Nat) (w : IWord), s.here.atInstr c 0x50 w → imm w 0 5 = 0 → FaultsInvalid (.loop c) s c) ∧
  (∀ (s : State) (c : Nat) (w : IWord), s.here.atInstr c 0x51 w → bits (iMod w) 0 3 = 7 → FaultsInvalid (.br c) s c) ∧
  (∀ (s : State) (c : Nat) (w : IWord), s.here.atInstr c 0x53 w → bits (iMod w) 0 4 = 15 → FaultsInvalid (.salu c) s c) ∧
  (∀ (s : State) (c : Nat) (w : IWord), s.here.seqReady c 0x52 w (reservedOk w 0 (31 ||| (2 ^ 32 - 1) * 2 ^ 32)) →
    Answers (.sets c) s fun t => Issued s t c (s.here.pc c + 1) ∧
      (imm w 0 5 = 0 → (t.d.core c).sregs = (s.here.core c).sregs)) ∧
  (∀ (s : State) (c : Nat) (w : IWord),
    s.here.seqReady c 0x53 w (reservedOk w 31 ((2 ^ 15 - 1) ||| (2 ^ 32 - 1) * 2 ^ 32) && bits (iMod w) 0 4 ≠ 15) →
    Answers (.salu c) s fun t => Issued s t c (s.here.pc c + 1) ∧
      (imm w 0 5 = 0 → (t.d.core c).sregs = (s.here.core c).sregs))

/-- WAIT and SIGNAL (R163) on this core and on another, and NOP (R167). -/
def Obligations.Tokens : Prop :=
  (∀ (s : State) (c x : Nat) (w : IWord), s.here.seqReady c 0x55 w (s.here.waitFieldsOk c w) →
    (if modBit w 0 then s.here.peerCore c (imm w 14 3) = some x else x = c) →
    imm w 6 8 + (if iWaitEn w ∧ x = c ∧ iWaitTok w = imm w 0 6 then 1 else 0) ≤ s.here.tok x (imm w 0 6) →
    Answers (.wait c) s fun t => Issued s t c (s.here.pc c + 1) ∧
      t.d.tok = tokSignal (tokMinus (tokWait s.here.tok c w) x (imm w 0 6) (imm w 6 8)) c w ∧
      (∀ i, (t.d.core i).sregs = (s.here.core i).sregs) ∧ t.d.home.remote = s.here.home.remote) ∧
  (∀ (s : State) (c : Nat) (w : IWord), s.here.seqReady c 0x56 w (s.here.waitFieldsOk c w) → modBit w 0 = false →
    Answers (.signal c) s fun t => Issued s t c (s.here.pc c + 1) ∧
      t.d.tok = tokSignal (tokPlus (tokWait s.here.tok c w) c (imm w 0 6) (imm w 6 8)) c w ∧
      (∀ i, (t.d.core i).sregs = (s.here.core i).sregs) ∧ t.d.home.remote = s.here.home.remote) ∧
  (∀ (s : State) (c x : Nat) (w : IWord), s.here.seqReady c 0x56 w (s.here.waitFieldsOk c w) → modBit w 0 = true →
    s.here.peerCore c (imm w 14 3) = some x →
    Answers (.signal c) s fun t => Issued s t c (s.here.pc c + 1) ∧ t.d.tok = tokSignal (tokWait s.here.tok c w) c w ∧
      (∀ i, (t.d.core i).sregs = (s.here.core i).sregs) ∧
      t.d.home.remote = s.here.home.remote ++ [(x, imm w 0 6, imm w 6 8)]) ∧
  (∀ (s : State) (c : Nat) (w : IWord), s.here.seqReady c 0x5F w (reservedOk w 0 0) →
    Answers (.nop c) s fun t => Issued s t c (s.here.pc c + 1) ∧ t.d.tok = tokSignal (tokWait s.here.tok c w) c w ∧
      (∀ i, (t.d.core i).sregs = (s.here.core i).sregs) ∧ t.d.home.remote = s.here.home.remote)

/-- KEND at issue (R167); where the pc stays is the model's choice (log entry 30). -/
def Obligations.KendIssues : Prop :=
  ∀ (s : State) (c : Nat) (w : IWord), s.here.seqReady c 0x58 w (reservedOk w 0 0) →
    Answers (.kend c) s fun t =>
      t = { s with d := { s.here with regs := t.d.regs, cores := t.d.cores, home := { s.here.home with notes := t.d.home.notes } } } ∧
      t.d.tok = tokWait s.here.tok c w ∧ t.d.pc c = s.here.pc c ∧ (t.d.core c).kendIssued = true ∧
      (∀ o, o ≠ R.MC_SEQ_STATUS c → t.d.reg o = s.here.reg o) ∧ (∀ i, i ≠ c → t.d.core i = s.here.core i) ∧
      (∀ i, (t.d.core i).sregs = (s.here.core i).sregs)

namespace Sys2Proof.Machine

/-- Pool p is ENABLED and the head of its list, index i, passes the guard (R252). -/
def Dev.canPop (d : Dev) (p i : Nat) : Prop :=
  p < 64 ∧ i < 2 ^ 26 ∧ d.poolState p = 1 ∧ mget d.bpm.heads p = some i ∧ d.guardOk (mkHandle p i) = true

/-- The head of pool p, index i, has been popped with count n; every other buffer and pool is as it was. -/
def Popped (d e : Dev) (p i n : Nat) : Prop :=
  mget e.bpm.bufs (mkHandle p i) = some ⟨.allocated, n⟩ ∧
  (∀ h, h ≠ mkHandle p i → mget e.bpm.bufs h = mget d.bpm.bufs h) ∧
  mget e.bpm.heads p = (if d.rdLE (d.bufAddr (mkHandle p i)) 4 = nullHandle then none else some (d.rdLE (d.bufAddr (mkHandle p i)) 4)) ∧
  (∀ q, q ≠ p → mget e.bpm.heads q = mget d.bpm.heads q) ∧ e.bpm.relink = d.bpm.relink

/-- The pool an ALLOC names (R159). -/
def allocPool (l : List Word) (w : IWord) : Nat := if imm w 10 5 = 0 then imm w 16 6 else sreg l (imm w 10 5) % 64

/-- Fields of ALLOC in order, room in the journal (R428) and in the atomics unit (R72). -/
def Dev.allocReady (d : Dev) (c : Nat) (w : IWord) : Prop :=
  d.seqReady c 0x40 w (reservedOk w 1 ((2 ^ 15 - 1) ||| (2 ^ 6 - 1) * 2 ^ 16 ||| (2 ^ 8 - 1) * 2 ^ 24) && d.journalRoom c) ∧
  (d.core c).unitRoom d c .atomics w = true

end Sys2Proof.Machine

/-- ALLOC (R159): taken, and empty with and without try. -/
def Obligations.AllocTakesABuffer : Prop :=
  (∀ (s : State) (c i : Nat) (w : IWord), s.here.allocReady c w → s.here.canPop (allocPool (s.here.core c).sregs w) i →
    Answers (.alloc c) s fun t =>
      Popped s.here t.d (allocPool (s.here.core c).sregs w) i (imm w 24 8) ∧
      (t.d.core c).sregs = (let l := sPut (s.here.core c).sregs (imm w 0 5) (BitVec.ofNat 32 (mkHandle (allocPool (s.here.core c).sregs w) i))
        if modBit w 0 then sPut l (imm w 5 5) 0 else l) ∧
      (t.d.core c).journal = (s.here.core c).journal ++ [(.alloc, mkHandle (allocPool (s.here.core c).sregs w) i)] ∧
      t.d.pc c = (s.here.pc c + 1) % 2 ^ 12 ∧
      t.d.reg (R.MC_SEQ_RETIRED c) = (s.here.reg (R.MC_SEQ_RETIRED c) + 1) % 2 ^ 32 ∧
      t.d.tok = tokSignal (tokWait s.here.tok c w) c w ∧
      t = { s with d := t.d } ∧ t.d.home = { s.here.home with notes := t.d.home.notes } ∧ t.d.streams = s.here.streams ∧
      (∀ j, j ≠ c → t.d.core j = s.here.core j) ∧ (s.here.mem.chk = [] → ∀ a, t.d.rd a = s.here.rd a)) ∧
  (∀ (s : State) (c : Nat) (w : IWord), s.here.allocReady c w → s.here.poolState (allocPool (s.here.core c).sregs w) ≠ 1 →
    s.here.fld (R.BPM_POOL_CFG (allocPool (s.here.core c).sregs w)) F.BPM_POOL_CFG_policy ≠ 1 → modBit w 0 = true →
    Answers (.alloc c) s fun t => Issued s t c (s.here.pc c + 1) ∧ t.d.bpm = s.here.bpm ∧
      (t.d.core c).sregs = sPut (s.here.core c).sregs (imm w 5 5) 5 ∧ t.d.tok = tokSignal (tokWait s.here.tok c w) c w) ∧
  (∀ (s : State) (c : Nat) (w : IWord), s.here.allocReady c w → s.here.poolState (allocPool (s.here.core c).sregs w) ≠ 1 →
    s.here.fld (R.BPM_POOL_CFG (allocPool (s.here.core c).sregs w)) F.BPM_POOL_CFG_policy ≠ 1 → modBit w 0 = false →
    exec (.alloc c) s = .next { s with d := ((s.here.takeWait c w).clearWaits c).fault c .poolEmpty 0 })

/-- POOL_POP (R250, R252, R254). -/
def Obligations.PoolPop : Prop :=
  (∀ (s : State) (p i n : Nat), s.here.canPop p i →
    Answers (.poolPop p n) s fun t => Popped s.here t.d p i n ∧ t.d.bpm.lastPop = some (mkHandle p i) ∧
      t = { s with d := t.d } ∧ t.d.home = s.here.home ∧ t.d.cores = s.here.cores ∧ t.d.streams = s.here.streams ∧
      (s.here.mem.chk = [] → ∀ a, t.d.rd a = s.here.rd a)) ∧
  (∀ (s : State) (p n : Nat), p < 64 → s.here.poolState p ≠ 1 → s.here.fld (R.BPM_POOL_CFG p) F.BPM_POOL_CFG_policy ≠ 1 →
    Answers (.poolPop p n) s fun t =>
      t = { s with d := { s.here with bpm := { s.here.bpm with lastPop := none } } })

/-- Table Buffer state transitions (R250): REFINC and REFDEC of a home. -/
def Obligations.ReferenceOperations : Prop :=
  ∀ (s : State) (h : Nat) (b : Buf), s.here.buf h = some b →
    (b.st = .allocated → b.count < 65535 → Answers (.bufferRefOp true h) s fun t =>
      t = { s with d := { s.here with bpm := { s.here.bpm with bufs := mput s.here.bpm.bufs h ⟨.allocated, b.count + 1⟩ } } }) ∧
    (b.st = .allocated → 1 < b.count → Answers (.bufferRefOp false h) s fun t =>
      t = { s with d := { s.here with bpm := { s.here.bpm with bufs := mput s.here.bpm.bufs h ⟨.allocated, b.count - 1⟩ } } }) ∧
    (b.st = .allocated → b.count = 1 → s.here.poolState (hPool h) = 1 → Answers (.bufferRefOp false h) s fun t =>
      mget t.d.bpm.bufs h = some ⟨.free, 0⟩ ∧ mget t.d.bpm.heads (hPool h) = some (hIdx h) ∧
      (∀ x, x ≠ h → mget t.d.bpm.bufs x = mget s.here.bpm.bufs x) ∧ (∀ q, q ≠ hPool h → mget t.d.bpm.heads q = mget s.here.bpm.heads q) ∧
      t.d.home = s.here.home ∧ t.d.cores = s.here.cores ∧ t.d.streams = s.here.streams) ∧
    (b.st ≠ .allocated ∨ 65535 ≤ b.count → exec (.bufferRefOp true h) s = .next { s with d := s.here }) ∧
    (b.st ≠ .allocated ∨ b.count = 0 → exec (.bufferRefOp false h) s = .next { s with d := s.here })

/-- FREE, REFINC, REFDEC (R160) and CLAIM (R161) at issue. -/
def Obligations.PoolInstructionsIssue : Prop :=
  (∀ (i : Instr) (s : State) (c op : Nat) (w : IWord), (i, op) ∈ [(Instr.free c, 0x41), (.refinc c, 0x42), (.refdec c, 0x43)] →
    s.here.seqReady c op w (reservedOk w 0 31 && s.here.journalRoom c) → (s.here.core c).unitRoom s.here c .atomics w = true →
    Answers i s fun t =>
      (t.d.core c).inflight = (s.here.core c).inflight ++ [{ id := (s.here.core c).nextId, word := w, pc := s.here.pc c, sregs := (s.here.core c).sregs }] ∧
      t.d.pc c = (s.here.pc c + 1) % 2 ^ 12 ∧ t.d.tok = tokWait s.here.tok c w ∧
      t = { s with d := { s.here with regs := t.d.regs, cores := t.d.cores, home := { s.here.home with notes := t.d.home.notes } } } ∧
      (∀ o, o ≠ R.MC_SEQ_STATUS c → t.d.reg o = s.here.reg o) ∧ (∀ j, j ≠ c → t.d.core j = s.here.core j) ∧
      (∀ j, (t.d.core j).sregs = (s.here.core j).sregs)) ∧
  (∀ (s : State) (c : Nat) (w : IWord),
    s.here.seqReady c 0x54 w (reservedOk w 1 ((2 ^ 21 - 1) ||| (2 ^ 16 - 1) * 2 ^ 32)) →
    (s.here.core c).unitRoom s.here c .atomics w = true →
    (((s.here.core c).run.map (·.claiming)).getD false && !modBit w 0 && imm w 32 16 = 1) = false →
    Answers (.claim c) s fun t =>
      mgetD t.d.home.counters (1024 * imm w 20 1 + imm w 10 10) 0 = mgetD s.here.home.counters (1024 * imm w 20 1 + imm w 10 10) 0 +
        (if modBit w 0 then sWord (s.here.core c).sregs (imm w 5 5) else BitVec.ofNat 32 (imm w 32 16)) ∧
      (∀ k, k ≠ 1024 * imm w 20 1 + imm w 10 10 → mgetD t.d.home.counters k 0 = mgetD s.here.home.counters k 0) ∧
      (t.d.core c).sregs = sPut (s.here.core c).sregs (imm w 0 5) (mgetD s.here.home.counters (1024 * imm w 20 1 + imm w 10 10) 0) ∧
      t.d.pc c = (s.here.pc c + 1) % 2 ^ 12 ∧ t.d.tok = tokSignal (tokWait s.here.tok c w) c w ∧
      t = { s with d := { s.here with regs := t.d.regs, cores := t.d.cores, home := { s.here.home with notes := t.d.home.notes, counters := t.d.home.counters } } } ∧
      (∀ j, j ≠ c → t.d.core j = s.here.core j))

/-- BPM_POOL_CTLn.enable and the end of the relink (R253, R257). -/
def Obligations.PoolStates : Prop :=
  ∀ (s : State) (p : Nat), p < 64 →
    (∀ v : Word, s.here.regOpen (R.BPM_POOL_CTL p) = true → v.getLsbD 0 = true → s.here.poolState p = 0 → s.here.poolOk p = true →
      Answers (.bpmPoolCtlWrite p v) s fun t => t.d.poolState p = 3 ∧ t.d.fld (R.BPM_POOL_CTL p) F.BPM_POOL_CTL_enable = 1 ∧
        (∀ i, i < s.here.poolCount p → mget t.d.bpm.bufs (mkHandle p i) = some ⟨.free, 0⟩) ∧
        t = { s with d := { s.here with regs := t.d.regs, bpm := t.d.bpm } } ∧
        (∀ o, o ≠ R.BPM_POOL_CTL p → o ≠ R.BPM_POOL_STAT p → t.d.reg o = s.here.reg o)) ∧
    (∀ v : Word, s.here.regOpen (R.BPM_POOL_CTL p) = true → v.getLsbD 0 = true → s.here.poolState p = 0 → s.here.poolOk p = false →
      Answers (.bpmPoolCtlWrite p v) s fun t => t.d.poolState p = 0 ∧ t.d.flag (R.BPM_POOL_STAT p) F.BPM_POOL_STAT_cfg_err = true ∧
        t = { s with d := { s.here with regs := t.d.regs } } ∧
        (∀ o, o ≠ R.BPM_POOL_CTL p → o ≠ R.BPM_POOL_STAT p → t.d.reg o = s.here.reg o)) ∧
    (∀ v : Word, s.here.regOpen (R.BPM_POOL_CTL p) = true → v.getLsbD 0 = false → (s.here.poolState p = 1 ∨ s.here.poolState p = 3) →
      s.here.bufsIn p .allocated ≠ [] →
      Answers (.bpmPoolCtlWrite p v) s fun t => t.d.poolState p = 2 ∧ t.d.bpm = s.here.bpm ∧
        t = { s with d := { s.here with regs := t.d.regs } } ∧
        (∀ o, o ≠ R.BPM_POOL_CTL p → o ≠ R.BPM_POOL_STAT p → t.d.reg o = s.here.reg o)) ∧
    (∀ v : Word, s.here.regOpen (R.BPM_POOL_CTL p) = true → s.here.poolState p = 2 →
      Answers (.bpmPoolCtlWrite p v) s fun t => t.d.poolState p = 2 ∧ t.d.bpm = s.here.bpm ∧
        t.d.flag (R.BPM_POOL_STAT p) F.BPM_POOL_STAT_enable_pending = v.getLsbD 0) ∧
    (s.here.poolState p = 3 → Answers (.poolRebuildComplete p) s fun t => t.d.poolState p = 1 ∧ mget t.d.bpm.relink p = none ∧
      t.d.bpm.bufs = s.here.bpm.bufs ∧ t.d.home = s.here.home ∧ t.d.cores = s.here.cores)

/-- R247, whole. -/
def Obligations.Handles : Prop :=
  (∀ (x : BitVec 32), hPool x.toNat = (x.extractLsb' 26 6).toNat ∧ hIdx x.toNat = (x.extractLsb' 0 26).toNat) ∧
  (∀ (d : Dev) (h : Nat), h < 2 ^ 32 → d.bufAddr h = d.poolBase (hPool h) + hIdx h * d.poolSize (hPool h)) ∧
  nullHandle = (0xFFFFFFFF#32).toNat ∧ ∀ d : Dev, d.buf nullHandle = none

namespace Sys2Proof.Machine

/-- The instructions with region operands, and their opcodes. -/
def dataInstr (c : Nat) : List (Instr × Nat) :=
  [(.move c, 0x01), (.move2d c, 0x02), (.gather c, 0x03), (.ldw c, 0x08), (.ldw4 c, 0x09), (.matmul c, 0x10), (.ewise c, 0x12),
   (.conv c, 0x18), (.vop c, 0x20), (.vlut c, 0x21), (.softmax c, 0x22), (.norm c, 0x23), (.pool c, 0x24), (.resize c, 0x25),
   (.dwconv c, 0x26), (.attqk c, 0x30), (.attpv c, 0x31), (.kvapp c, 0x32), (.kvexp c, 0x33), (.rowstat c, 0x34), (.emit c, 0x57),
   (.stool c, 0x60)]

/-- The instruction w at the pc of core c, of form f, passes the checks, takes no part in a share, and nothing keeps it from issuing. -/
structure Dev.dataReady (d : Dev) (c op : Nat) (w : IWord) (f : Form) : Prop where
  here : d.atInstr c op w
  form : d.formOf c (d.core c) w (d.core c).sregs = some f
  checks : f.check c = none
  alone : shareUse (d.core c) c w f = .plain
  noShare : d.shareFault (d.core c) c f .plain = false
  reads : ∀ x ∈ f.reads (d.core c) c, hasTag (f.writes (d.core c) c) x = true ∨ (d.tag c x).readable = true
  writes : ∀ x ∈ f.writes (d.core c) c, d.tag c x = if hasTag (f.reads (d.core c) c) x = true then .ready 1 else .free
  token : d.waitOk c w = true
  room : (d.core c).unitRoom d c f.unit w = true
  table : d.unlocked ((d.core c).table w (d.core c).sregs) = true

/-- Nothing changes but registers of the core's sequencer and of its Stool engine, what the core holds of instructions in flight, tokens,
planes and private tags, its Stool engine's queue, tags, page references and locks; device time is the present. -/
structure Dev.IssueOnly (d e : Dev) (c : Nat) : Prop where
  rest : e = { d with freeCtr := e.freeCtr, regs := e.regs, cores := e.cores, bpm := e.bpm, stool := e.stool, home := { d.home with tags := e.home.tags, notes := e.home.notes, locks := e.home.locks, refs := e.home.refs } }
  regs : ∀ o, o ≠ R.MC_SEQ_STATUS c → o ≠ R.MC_SEQ_RETIRED c → o ≠ R.STL_STATUS (stackOf c) → e.reg o = d.reg o
  others : ∀ i, i ≠ c → e.core i = d.core i
  own : e.core c = { d.core c with tokens := (e.core c).tokens, inflight := (e.core c).inflight, nextId := (e.core c).nextId, planeA := (e.core c).planeA, planeS := (e.core c).planeS, luts := (e.core c).luts, priv := (e.core c).priv, waitSince := (e.core c).waitSince }

end Sys2Proof.Machine

/-- Issue of an instruction with region operands (R72, R75, R88 to R93). -/
def Obligations.DataInstructionsIssue : Prop :=
  ∀ (i : Instr) (s : State) (c op : Nat) (w : IWord) (f : Form), (i, op) ∈ dataInstr c → s.here.dataReady c op w f →
    (f.zero = false → Answers i s fun t =>
      t = { s with d := t.d } ∧ Dev.IssueOnly s.here t.d c ∧ (∀ a, t.d.rd a = s.here.rd a) ∧
      t.d.pc c = (s.here.pc c + 1) % 2 ^ 12 ∧ t.d.tok = tokWait s.here.tok c w ∧
      t.d.reg (R.MC_SEQ_RETIRED c) = s.here.reg (R.MC_SEQ_RETIRED c) ∧
      (∃ x, (t.d.core c).inflight = (s.here.core c).inflight ++ [x] ∧ x.id = (s.here.core c).nextId ∧ x.word = w ∧
        x.pc = s.here.pc c ∧ x.sregs = (s.here.core c).sregs ∧ x.share = none) ∧ (t.d.core c).nextId = (s.here.core c).nextId + 1 ∧
      (∀ x, t.d.tag c x = if hasTag (f.writes (s.here.core c) c) x = true then .filling else s.here.tag c x)) ∧
    (f.zero = true → Answers i s fun t =>
      t = { s with d := t.d } ∧ Dev.IssueOnly s.here t.d c ∧ (∀ a, t.d.rd a = s.here.rd a) ∧
      t.d.pc c = (s.here.pc c + 1) % 2 ^ 12 ∧ t.d.tok = tokSignal (tokWait s.here.tok c w) c w ∧
      t.d.reg (R.MC_SEQ_RETIRED c) = (s.here.reg (R.MC_SEQ_RETIRED c) + 1) % 2 ^ 32 ∧
      (t.d.core c).inflight = (s.here.core c).inflight ∧ t.d.bpm = s.here.bpm ∧ t.d.stool = s.here.stool ∧
      (∀ x ∈ f.writes (s.here.core c) c, t.d.tag c x = .ready x.rcount) ∧
      (∀ x, hasTag (f.writes (s.here.core c) c) x = false → t.d.tag c x =
        if hasTag (f.reads (s.here.core c) c) x = true then (s.here.tag c x).retire else s.here.tag c x))

namespace Sys2Proof.Machine

/-- Instruction x, in flight on core c, no STOOL, EMIT, KVAPP or pool operation and of no share, may complete now. -/
structure Dev.completes (d : Dev) (c id : Nat) (x : InFlight) (f : Form) : Prop where
  core : c < 8
  flight : d.infl? c id = some x
  clock : d.clocked (stackOf c) = true
  kind : iOp x.word ∉ [0x60, 0x57, 0x32, 0x41, 0x42, 0x43]
  order : (d.core c).inOrder x = true
  alone : x.share = none
  form : d.formOf c (d.core c) x.word x.sregs = some f
  data : (d.resOf c (d.core c) x).bad = []

/-- Decrements of buffer h that core c's kernel has not settled (R428). -/
def Dev.unsettled (d : Dev) (c h : Nat) : Nat := ((d.core c).journal.filter fun j => j = (.dec, h)).length

end Sys2Proof.Machine

/-- INSTRUCTION_COMPLETE (R92). -/
def Obligations.InstructionCompletes : Prop :=
  ∀ (s : State) (c id : Nat) (x : InFlight) (f : Form), s.here.completes c id x f →
    Answers (.instructionComplete c id) s fun t => t = { s with d := t.d } ∧
      Dev.Retired s.here t.d c x f (s.here.resOf c (s.here.core c) x) ∧ t.d.stool = s.here.stool

/-- The home's answers to pool operations (R160, R428). -/
def Obligations.PoolOperationsAnswer : Prop :=
  ∀ (s : State) (c id : Nat) (x : InFlight), c < 8 → s.here.infl? c id = some x → s.here.clocked (stackOf c) = true →
    (s.here.core c).homeFirst x = true →
    (iOp x.word = 0x42 → ∀ b, s.here.buf (sreg x.sregs (imm x.word 0 5)) = some b → b.st = .allocated → b.count < 65535 →
      Answers (.instructionComplete c id) s fun t =>
        t.d.bpm = { s.here.bpm with bufs := mput s.here.bpm.bufs (sreg x.sregs (imm x.word 0 5)) ⟨.allocated, b.count + 1⟩ } ∧
        t.d.core c = { s.here.core c with journal := (s.here.core c).journal ++ [(.inc, sreg x.sregs (imm x.word 0 5))], inflight := (s.here.core c).inflight.filter (fun y => y.id ≠ x.id), tokens := (t.d.core c).tokens } ∧
        t.d.tok = tokSignal s.here.tok c x.word ∧ t.d.reg (R.MC_SEQ_RETIRED c) = (s.here.reg (R.MC_SEQ_RETIRED c) + 1) % 2 ^ 32 ∧
        t = { s with d := { s.here with regs := t.d.regs, cores := t.d.cores, bpm := t.d.bpm } } ∧ ∀ i, i ≠ c → t.d.core i = s.here.core i) ∧
    (iOp x.word = 0x41 ∨ iOp x.word = 0x43 → ∀ b, s.here.buf (sreg x.sregs (imm x.word 0 5)) = some b → b.st = .allocated →
      s.here.unsettled c (sreg x.sregs (imm x.word 0 5)) < b.count →
      Answers (.instructionComplete c id) s fun t =>
        t.d.bpm = s.here.bpm ∧
        t.d.core c = { s.here.core c with journal := (s.here.core c).journal ++ [(.dec, sreg x.sregs (imm x.word 0 5))], inflight := (s.here.core c).inflight.filter (fun y => y.id ≠ x.id), tokens := (t.d.core c).tokens } ∧
        t.d.tok = tokSignal s.here.tok c x.word ∧ t.d.reg (R.MC_SEQ_RETIRED c) = (s.here.reg (R.MC_SEQ_RETIRED c) + 1) % 2 ^ 32 ∧
        t = { s with d := { s.here with regs := t.d.regs, cores := t.d.cores, bpm := t.d.bpm } } ∧ ∀ i, i ≠ c → t.d.core i = s.here.core i) ∧
    (∀ (code : Code) (r : Run), isPoolOp x.word = true →
      s.here.refFault (iOp x.word = 0x42) (sreg x.sregs (imm x.word 0 5)) (s.here.unsettled c (sreg x.sregs (imm x.word 0 5))) = some code →
      (s.here.core c).run = some r → r.replay = false →
      Answers (.instructionFault c id) s fun t => t = { s with d := t.d } ∧ Dev.Aborted s.here t.d c code r)

/-- INSTRUCTION_FAULT and TOKEN_TIMEOUT (R77, R106, R415). -/
def Obligations.FaultsAbortTheKernel : Prop :=
  (∀ (s : State) (c id : Nat) (x : InFlight) (r : Run), c < 8 → s.here.infl? c id = some x → isPoolOp x.word = false →
    (iOp x.word = 0x60 → (mgetD s.here.stool (stackOf c) {}).running = some (c, id)) →
    (s.here.resOf c (s.here.core c) x).bad ≠ [] → (s.here.core c).run = some r → r.replay = false →
    Answers (.instructionFault c id) s fun t => t = { s with d := t.d } ∧
      ∃ b ∈ (s.here.resOf c (s.here.core c) x).bad, Dev.Aborted s.here t.d c b.1 r) ∧
  (∀ (s : State) (c : Nat) (r : Run), c < 8 → (s.here.core c).issuing = true → (s.here.core c).waitSince.isSome = true →
    s.here.reg (R.MC_TOKEN_TIMEOUT c) ≠ 0 → (s.here.core c).run = some r → r.replay = false →
    Answers (.tokenTimeout c) s fun t => t = { s with d := t.d } ∧ Dev.Aborted s.here t.d c .tokenTimeout r) ∧
  (∀ (s : State) (c : Nat), s.here.reg (R.MC_TOKEN_TIMEOUT c) = 0 → exec (.tokenTimeout c) s = .next { s with d := s.here })

/-- REMOTE_TOKEN_ARRIVE, TAG_CHECK and TAG_NOTIFY (R78, R89). -/
def Obligations.TokensAndTagsArrive : Prop :=
  (∀ (s : State) (c x n : Nat) (l : List (Nat × Nat × Nat)), s.here.home.remote = (c, x, n) :: l →
    Answers (.remoteTokenArrive c) s fun t => t.d.tok = tokPlus s.here.tok c x n ∧ t.d.home = { s.here.home with remote := l } ∧
      t = { s with d := { s.here with regs := t.d.regs, cores := t.d.cores, home := t.d.home } } ∧
      (∀ i, (t.d.core i) = { s.here.core i with tokens := (t.d.core i).tokens }) ∧ ∀ o, o ≠ R.MC_SEQ_STATUS c → t.d.reg o = s.here.reg o) ∧
  (∀ (s : State) (c n : Nat), c < 8 → (s.here.core c).issuing = true → n < 8 →
    Answers (.tagCheck c n) s fun t =>
      t.d.core c = { s.here.core c with lookAhead := mput (s.here.core c).lookAhead n (decide (s.here.blockedAhead c n = [])) } ∧
      (∀ b, b ∈ t.d.home.notes ↔ b ∈ s.here.home.notes ∨ ∃ x ∈ s.here.blockedAhead c n, b = (c, x.key)) ∧
      t = { s with d := { s.here with cores := t.d.cores, home := { s.here.home with notes := t.d.home.notes } } } ∧
      ∀ i, i ≠ c → t.d.core i = s.here.core i) ∧
  (∀ (s : State) (c k : Nat), c < 8 → (c, k) ∈ s.here.home.notes →
    Answers (.tagNotify c) s fun t =>
      (∀ b, b ∈ t.d.home.notes ↔ b ∈ s.here.home.notes ∧ (b.1 = c → ∃ n < 8, ∃ x ∈ s.here.blockedAhead c n, x.key = b.2)) ∧
      (s.here.blockedAhead c 0 = [] → t.d.flag (R.MC_SEQ_STATUS c) F.MC_SEQ_STATUS_tag_wait = false) ∧
      (s.here.blockedAhead c 0 ≠ [] → t.d.regs = s.here.regs) ∧
      t = { s with d := { s.here with regs := t.d.regs, cores := t.d.cores, home := { s.here.home with notes := t.d.home.notes } } } ∧
      (∀ o, o ≠ R.MC_SEQ_STATUS c → t.d.reg o = s.here.reg o) ∧
      (∀ i, (t.d.core i) = { s.here.core i with lookAhead := (t.d.core i).lookAhead }) ∧ ∀ i, i ≠ c → t.d.core i = s.here.core i)

/-- KEND_RETIRE (R69, R166, R167). -/
def Obligations.KernelRetires : Prop :=
  ∀ (s : State) (c : Nat) (r : Run) (f : Frame) (x : Ctx) (st : Stream), c < 8 → (s.here.core c).run = some r →
    (s.here.core c).kendIssued = true → (s.here.core c).inflight = [] → r.kernel < 1024 → r.replay = false → r.claiming = false →
    s.here.runFrame r = some f → f.st = .running → s.here.ctx? f.ctx = some x → mget s.here.streams r.stream = some st →
    (f.kernel + 1 < x.kernelCount → s.here.faulted f.ctx = false → s.here.frameLc f = false →
      Answers (.kendRetire c) s fun t => t = { s with d := t.d } ∧ (t.d.core c).run = none ∧ (t.d.core c).inflight = [] ∧
        (t.d.core c).tokens = [] ∧ (t.d.core c).kendIssued = false ∧ t.d.flag (R.MC_SEQ_STATUS c) F.MC_SEQ_STATUS_busy = false ∧
        t.d.reg (R.MC_SEQ_RETIRED c) = (s.here.reg (R.MC_SEQ_RETIRED c) + 1) % 2 ^ 32 ∧
        t.d.streams = mput s.here.streams r.stream { st with save := (s.here.core c).sregs.drop 8 } ∧
        t.d.runFrame r = some { f with kernel := f.kernel + 1, st := .admitted } ∧ (∀ i, i ≠ c → t.d.core i = s.here.core i)) ∧
    (x.kernelCount ≤ f.kernel + 1 → f.revisit = false → st.fallback = false → st.unauth = false → st.relNext = f.num → st.relHeld = [] →
      Answers (.kendRetire c) s fun t => t = { s with d := t.d } ∧ (t.d.core c).run = none ∧ (t.d.core c).inflight = [] ∧
        (t.d.core c).tokens = [] ∧ (t.d.core c).kendIssued = false ∧ t.d.flag (R.MC_SEQ_STATUS c) F.MC_SEQ_STATUS_busy = false ∧
        t.d.reg (R.MC_SEQ_RETIRED c) = (s.here.reg (R.MC_SEQ_RETIRED c) + 1) % 2 ^ 32 ∧
        t.d.streams = mput s.here.streams r.stream { st with save := (s.here.core c).sregs.drop 8, relNext := (f.num + 1) % 2 ^ 32 } ∧
        t.d.runFrame r = none ∧ (∃ old, t.d.que.wait = old ++ s.here.frameRecs f) ∧ (∀ i, i ≠ c → t.d.core i = s.here.core i))

/-- STOOL_REQUEST_COMPLETE (R175, R176) and POISON_REPAIR_COMPLETE (R416). -/
def Obligations.StoolAndRepairComplete : Prop :=
  (∀ (s : State) (die c id : Nat) (e : StoolEng) (x : InFlight) (f : Form), mget s.here.stool die = some e →
    c < 8 → die < 2 → stackOf c = die → e.running = some (c, id) → s.here.infl? c id = some x → x.id = id → x.share = none →
    s.here.formOf c (s.here.core c) x.word x.sregs = some f → (iOp x.word = 0x60) →
    (s.here.resOf c (s.here.core c) x).bad = [] →
    Answers (.stoolRequestComplete die) s fun t => t = { s with d := t.d } ∧
      Dev.Retired s.here t.d c x f (s.here.resOf c (s.here.core c) x) ∧
      t.d.reg (R.STL_DONE die) = (s.here.reg (R.STL_DONE die) + 1) % 2 ^ 32 ∧
      ∃ e', mget t.d.stool die = some e' ∧ (∀ q l, e.queue = q :: l → e'.running = some q ∧ ∃ m, e'.queue = l ++ m) ∧
        (e.queue = [] → e'.running = e.overflow.head?) ∧ ∀ i, i ≠ die → mget t.d.stool i = mget s.here.stool i) ∧
  (∀ (s : State) (img a : Nat) (l : List (Nat × Nat)) (i : Image), s.here.recov.repair = (img, a) :: l → (∀ y ∈ l, y.1 ≠ img) →
    mget s.here.images img = some i → s.here.firstPoison (s.here.repairSource img i a) = none → s.here.mem.chk = [] →
    Answers .poisonRepairComplete s fun t =>
      t = { s with d := { s.here with mem := t.d.mem, regs := t.d.regs, dram := t.d.dram, recov := { s.here.recov with repair := l }, ctxs := t.d.ctxs } } ∧
      (∃ e : Dev, (∀ y, e.rd y = s.here.rd y) ∧ e.images = s.here.images ∧ e.ctxs = s.here.ctxs ∧ t.d.mem = (e.rewriteBank img i a).mem ∧
        t.d.dram = (e.rewriteBank img i a).dram) ∧
      (∀ k y, mget s.here.ctxs k = some y → mget t.d.ctxs k = some (if k ∈ i.ctxs then { y with held := false } else y)) ∧
      ∀ k, t.d.faulted k = s.here.faulted k)

namespace Sys2Proof.Machine

/-- Readiness of frame f is due, and no fallback, report, suspect or FAULTED context bears on it. -/
structure Dev.plainDue (d : Dev) (f : Frame) (x : Ctx) (st : Stream) : Prop where
  work : d.working = true
  due : d.dueFrame f.stream = some f
  own : f.revisit = false
  ctx : d.ctx? f.ep.bind.ctx = some x
  stream : mget d.streams f.stream = some st
  same : st.schedCtx = some f.ep.bind.ctx
  deputy : f.ep.bind.fallback = none
  sound : d.suspect f.ep.bind.ctx = false ∧ d.faulted f.ep.bind.ctx = false
  full : st.fallback = false
  quiet : st.report = []

/-- The VOID record of a deadline stands at the end of what waits for the rings, and the frame is gone (R166, R329). -/
def Dev.deadlineGone (d e : Dev) (f : Frame) : Prop :=
  (∃ old, e.que.wait = old ++ (f.ahead.map (d.devRec f.stream f.num false)) ++
    [d.devRec f.stream f.num true (voidRec f.stream f.num f.stamp f.ep.num 1 0 0 f.unauth)]) ∧
  e.sched.frames = d.sched.frames.filter (fun g => !(g.stream = f.stream && g.num = f.num && g.revisit = f.revisit)) ∧
  e.cores = d.cores

end Sys2Proof.Machine

/-- FRAME_READY and DEADLINE_EXPIRY (R94, R322, R327 to R329). -/
def Obligations.FramesBecomeReady : Prop :=
  (∀ (s : State) (f : Frame) (x : Ctx) (st : Stream), s.here.plainDue f x st → s.here.inputsFree f.ep.bind.ctx x = true →
    (f.ep.bind.lc = true → ∃ v, s.here.slack f f.ep.bind.ctx 0 0 = some v ∧ 0 ≤ v) →
    Answers (.frameReady f.stream) s fun t => t = { s with d := t.d } ∧
      (∃ e, t.d.frame? f.stream f.num false = some { f with st := .ready, ctx := f.ep.bind.ctx, kernel := 0, stack := none, readyAt := s.here.now, readySeq := s.here.sched.readySeq, fullEst := e, fbEst := none, onFallback := false }) ∧
      t.d.sched.readySeq = s.here.sched.readySeq + 1 ∧
      (∀ k, ((∀ n, (k, n) ∉ s.here.inputTags x) → mgetD t.d.home.tags k .free = mgetD s.here.home.tags k .free) ∧
        ((∃ n, (k, n) ∈ s.here.inputTags x) → ∃ n, (k, n) ∈ s.here.inputTags x ∧ mgetD t.d.home.tags k .free = .ready n)) ∧
      t.d.cores = s.here.cores ∧ t.d.regs = s.here.regs ∧ t.d.mem = s.here.mem ∧ t.d.que = s.here.que) ∧
  (∀ (s : State) (f : Frame) (x : Ctx) (st : Stream), s.here.plainDue f x st → f.ep.bind.lc = true → st.unauth = false →
    st.relNext = f.num → st.relHeld = [] → (∀ v, s.here.slack f f.ep.bind.ctx 0 0 = some v → v < 0) →
    Answers (.frameReady f.stream) s fun t => t = { s with d := t.d } ∧ s.here.deadlineGone t.d f) ∧
  (∀ (s : State) (f : Frame) (st : Stream), s.d.frame? f.stream f.num false = some f → mget s.d.streams f.stream = some st →
    f.ep.bind.lc = true → f.queued = true ∨ f.st = .running → st.unauth = false → st.relNext = f.num → st.relHeld = [] →
    Answers (.deadlineExpiry f.stream f.num) s fun t => t.tb.time = max s.tb.time (f.stamp + f.ep.bind.deadline) ∧
      s.here.deadlineGone t.d f)

/-- KERNEL_DISPATCH and CODE_FILL_COMPLETE (R67, R70 to R76, R79). -/
def Obligations.KernelsStart : Prop :=
  (∀ (s : State) (f : Frame) (x : Ctx) (st : Stream) (cores : List Nat), s.here.working = true → s.here.sched.redo = [] →
    (s.here.sched.frames.find? fun g => g.stream = f.stream && s.here.dispatchable g && s.here.orderOk g cores) = some f →
    s.here.coresFit f cores = true → s.here.ctx? f.ctx = some x → mget s.here.streams f.stream = some st →
    s.here.frame? f.stream f.num f.revisit = some f →
    Answers (.kernelDispatch f.stream cores) s fun t => t = { s with d := t.d } ∧
      (∀ n c, cores[n]? = some c → c < 8 ∧ (t.d.core c).sregs = loadSregs f x st.save f.kernel n cores.length ∧
        (∃ r, (t.d.core c).run = some r ∧ r.ctx = f.ctx ∧ r.variant = x.variant ∧ r.kernel = x.firstKernel + f.kernel ∧ r.stream = f.stream ∧
          r.frame = f.num ∧ r.s6 = n ∧ r.s7 = cores.length ∧ r.replay = false ∧ r.started = s.here.now) ∧
        (t.d.core c).tokens = [] ∧ (t.d.core c).planeA = none ∧ (t.d.core c).planeS = none ∧ (t.d.core c).ibuf = [] ∧
        (t.d.core c).filled = false ∧ t.d.pc c = 0 ∧ t.d.flag (R.MC_SEQ_STATUS c) F.MC_SEQ_STATUS_busy = true ∧
        t.d.fld (R.MC_SEQ_STATUS c) F.MC_SEQ_STATUS_context = f.ctx % 64) ∧
      (∀ c, c ∉ cores → t.d.core c = s.here.core c) ∧ t.d.mem = s.here.mem ∧
      t.d.frame? f.stream f.num f.revisit = some { f with st := .running, stack := some (f.stack.getD (stackOf (cores.headD 0))) }) ∧
  (∀ (s : State) (c a n b : Nat) (r : Run) (x : Ctx), (s.here.core c).run = some r → (s.here.core c).filled = false →
    s.here.ctx? r.ctx = some x → s.here.codeAt x r.kernel c = some (a, n) → Dev.bankAt x c = some b →
    (s.here.firstPoison (span a (16 * n) ++ if (s.here.core c).dctx ≠ some r.ctx then span b 16384 else []) = none →
      Answers (.codeFillComplete c) s fun t => t = { s with d := t.d } ∧
        t.d.core c = { s.here.core c with ibuf := (List.range n).map (fun i => iwOf (s.here.rdN (a + 16 * i) 16)), filled := true, dcache := if (s.here.core c).dctx ≠ some r.ctx then s.here.rdN b 16384 else (s.here.core c).dcache, dctx := some r.ctx } ∧
        ∀ i, i ≠ c → t.d.core i = s.here.core i) ∧
    (∀ p, s.here.firstPoison (span a (16 * n) ++ if (s.here.core c).dctx ≠ some r.ctx then span b 16384 else []) = some p →
      c < 8 → r.replay = false →
      Answers (.codeFillComplete c) s fun t => t = { s with d := t.d } ∧ ∃ e : Dev, e.sched = s.here.sched ∧ e.cores = s.here.cores ∧
        Dev.Aborted e t.d c .poison r))

/-- STEP_ADMISSION, READOUT_ADMISSION, GOVERNOR_TICK, DVFS_STEP_COMPLETE and SCH_MODE_WRITE. -/
def Obligations.AdmissionsAndModes : Prop :=
  (∀ (s : State) (f : Frame) (st : Stream), s.here.working = true →
    (s.here.sched.frames.find? fun g => g.stream = f.stream && s.here.admWaits g) = some f →
    (s.here.sched.frames.any fun g => s.here.admBefore g f) = false → mget s.here.streams f.stream = some st →
    s.here.frame? f.stream f.num f.revisit = some f →
    Answers (.stepAdmission f.stream) s fun t => t = { s with d := t.d } ∧
      (∃ recs, t.d.frame? f.stream f.num f.revisit = some { f with st := .admitted, ahead := f.ahead ++ recs }) ∧
      t.d.cores = s.here.cores) ∧
  (∀ (s : State) (r : Readout) (y : SeqSet) (t : Nat), s.here.working = true → s.here.readouts = [r] → s.here.sets = [y] →
    r.slots = [(y.base, t)] → r.scratch = [] → (s.here.sched.frames.any fun f => f.stream = r.stream && s.here.admWaits f) = false →
    s.here.readoutFits (s.here.setH y.base) r.stream r.frame t = true →
    (let a := (s.here.setH y.base).slot r.stream t
     let e := (s.here.setH y.base).ring r.stream t r.frame
     let gone := (s.here.rdLE (a + 240) 4 + 2 ^ 32 - s.here.rdLE (e + 8) 4) % 2 ^ 32
     32 * gone < s.here.rdLE (e + 4) 4 →
     Answers (.readoutAdmission r.stream) s fun t' => t' = { s with d := t'.d } ∧
       t'.d.readouts = [{ r with slots := [], scratch := [{ base := y.base, tbl := 0, slot := t }] }] ∧ t'.d.cores = s.here.cores)) ∧
  (∀ (s : State) (rails : List (Nat × Nat)), s.d.working = true → rails.length = 8 →
    Answers (.governorTick (rails.map some)) s fun t => t.tb.time = max s.tb.time (s.d.gov.lastTick + 100000) ∧
      t.d.gov.lastTick = t.tb.time ∧
      (let w := 400 + ((rails.map fun r => r.1 * r.2 / 1000).foldl (· + ·) 0)
       let l := (w :: s.d.gov.samples).take 10
       t.d.gov.samples = l ∧ t.d.fld R.SCH_GOV_STATUS F.SCH_GOV_STATUS_power = min 65535 (l.foldl (· + ·) 0 / l.length / 10)) ∧
      t.d.cores = s.d.cores ∧ t.d.mem = s.d.mem) ∧
  (∀ (s : State) (k n m : Nat) (again : Bool), k < 2 → n < 4 → m < 4 → mget s.here.dvfs k = some ⟨m, some (n, again)⟩ →
    (Answers (.dvfsStepComplete k true) s fun t => t = { s with d := { s.here with regs := t.d.regs, dvfs := t.d.dvfs } } ∧
      t.d.dv k = ⟨m, if m = n then none else some (if n < m then n + 1 else n - 1, false)⟩ ∧
      t.d.opOf k = (if m < n then n - 1 else n) ∧ t.d.fld R.CPR_DVFS_STATUS (fBusy k) = (if m = n then 0 else 1) ∧
      t.d.fld R.CPR_DVFS_STATUS (fMv k) = s.here.effMv k n % 1024 ∧ ∀ i, i ≠ k → mget t.d.dvfs i = mget s.here.dvfs i) ∧
    (again = false → exec (.dvfsStepComplete k false) s = .next { s with d := { s.here with dvfs := mput s.here.dvfs k ⟨m, some (n, true)⟩ } }) ∧
    (again = true → Answers (.dvfsStepComplete k false) s fun t => t = { s with d := t.d } ∧ t.d.dv k = ⟨s.here.opOf k, none⟩ ∧
      t.d.opOf k = s.here.opOf k ∧ t.d.fld R.CPR_DVFS_STATUS (fBusy k) = 0 ∧ t.d.que.evSeq = (s.here.que.evSeq + 1) % 2 ^ 32 ∧
      t.d.cores = s.here.cores ∧ t.d.mem = s.here.mem)) ∧
  (∀ (s : State) (v : Word), s.here.regOpen R.SCH_MODE = true →
    Answers (.schModeWrite v) s fun t => t = { s with d := { s.here with regs := t.d.regs, dvfs := t.d.dvfs } } ∧
      t.d.fld R.SCH_MODE F.SCH_MODE_mode = v.toNat % 4 ∧ t.d.fld R.SCH_MODE F.SCH_MODE_pin = v.toNat / 4 % 2 ∧
      t.d.mode = modeOf (v.toNat % 4) ∧ ∀ k < 2, (t.d.dv k).target = min (modeCeil (modeOf (v.toNat % 4))) (s.here.dv k).target)

namespace Sys2Proof.Machine

/-- The picture p of stream st, in chunk c of epoch ep, can start on engine n and is decoded with analysis. -/
structure Dev.pictureReady (d : Dev) (n : Nat) (p : PicInfo) (st : Stream) (c : Chunk) (ep : Epoch) : Prop where
  work : d.working = true ∧ d.pwr.phase ≠ .dusk
  stream : d.stream? p.stream = some st
  chunk : st.chunks[p.chunk]? = some c
  epoch : (st.epoch? c.epoch).or st.cur = some ep
  engine : d.engineOn n = true ∧ (d.engine n).pic = none
  load : d.loadOk n (2 * p.stream) p.mps = true
  ready : st.destroying = false ∧ p.refsOpen = false ∧ p.groupRows ≠ 0
  kind : st.kind = 0 ∧ p.encode = false ∧ ep.codec.codec ≠ 2
  group : d.standbyEntry p.stream = none ∧ mget d.fab.standby p.stream = none ∧ (p.refresh = true → d.activeEntry p.stream = none)
  parsed : p.parsed = true ∧ p.err = 0
  supported : picOutside p ep.codec = false ∧ (st.unsup = false ∨ p.refresh = true)
  clean : p.rasl = false
  budget : st.nextBudget ep.codec.lagLimit p.lag p.refLag p.refresh ≠ 3 ∧
    (st.nextBudget ep.codec.lagLimit p.lag p.refLag p.refresh = 2 → p.isRef = true)

/-- The number that order unnumbered frames of the stream precede (R14, R283). -/
def Stream.numberAt (st : Stream) (order : Nat) : Nat := numAt (st.numAhead.length + order + 1) st.nextFrame st.numAhead order

end Sys2Proof.Machine

/-- PICTURE_START and JPEG_JOB_COMPLETE (R263, R265, R270, R283). -/
def Obligations.PicturesStart : Prop :=
  (∀ (s : State) (n : Nat) (p : PicInfo) (st : Stream) (c : Chunk) (ep : Epoch), s.here.pictureReady n p st c ep →
    Answers (.pictureStart n p) s fun t => t = { s with d := t.d } ∧
      (t.d.engine n).pic = some { info := p, frame := st.numberAt p.order, ep := ep, stamp := c.stamp, rowsDone := [], concealed := 0, firstSub := 0, cycles := 0, analyse := true } ∧
      t.d.flag (R.COD_STATUS n) F.COD_STATUS_busy = true ∧ t.d.flag (R.COD_STATUS n) F.COD_STATUS_encoding = false ∧
      t.d.fld (R.COD_STATUS n) F.COD_STATUS_stream = p.stream % 256 ∧
      ∃ f, t.d.sched.frames = s.here.sched.frames ++ [f] ∧ f.stream = p.stream ∧ f.num = st.numberAt p.order ∧ f.st = .shaping ∧ f.ep = ep ∧
        f.stamp = c.stamp ∧ f.revisit = false) ∧
  (∀ (s : State) (p : PicInfo) (st : Stream) (id : Nat) (c : Chunk) (ep : Epoch) (l : List (Nat × Chunk)) (rows : List (List Nat)) (coded : List Byte),
    s.here.jpeg.queue = (id, c) :: l → s.here.stream? id = some st → (st.epoch? c.epoch).or st.cur = some ep → s.here.jpeg.img = none →
    s.here.unitOut 0x18 = false → s.here.clocked 3 = true → st.kind ≠ 2 → p.parsed = true → p.err = 0 → p.supported = true →
    1 ≤ p.width → p.width ≤ ep.codec.maxW → 1 ≤ p.height → p.height ≤ ep.codec.maxH →
    st.nextBudget ep.codec.lagLimit p.lag 0 true ≠ 2 →
    Answers (.jpegJobComplete p rows 0 0 coded) s fun t => t = { s with d := t.d } ∧ t.d.jpeg.queue = l ∧
      (∃ P, t.d.jpeg.img = some P ∧ P.info.stream = id ∧ P.frame = st.numberAt 0 ∧ P.ep = ep ∧ P.stamp = c.stamp ∧ P.rowsDone.length = p.height ∧
        P.concealed = 0) ∧
      t.d.fld R.COD_JPEG_STATUS F.COD_JPEG_STATUS_done = min 65535 (s.here.fld R.COD_JPEG_STATUS F.COD_JPEG_STATUS_done + 1) ∧
      ∃ f, t.d.sched.frames = s.here.sched.frames ++ [f] ∧ f.stream = id ∧ f.num = st.numberAt 0 ∧ f.st = .shaping ∧ f.ep = ep ∧ f.stamp = c.stamp)

/-- LINE_RING_GROUP_WRITE, PICTURE_COMPLETE, HARD_CAP_ABORT and COD_CTL_WRITE (R272, R273, R279, R280, R287, R292). -/
def Obligations.PicturesEnd : Prop :=
  (∀ (s : State) (n sub : Nat) (rows : List (List Nat)) (cols : List Nat) (P : Pic), s.here.engineLive n = true → (s.here.engine n).pic = some P →
    P.info.encode = false → P.analyse = true → rows ≠ [] → rows.length ≤ P.info.height - P.rowsDone.length → cols.Nodup →
    ((s.here.engine n).ringFor P = true → (s.here.engine n).ring.length + rows.length ≤ ringRows P.info.width →
      Answers (.lineRingGroupWrite n rows cols sub) s fun t => t = { s with d := t.d } ∧
        (∃ Q, (t.d.engine n).pic = some Q ∧ (t.d.engine n).src = some Q ∧ Q.rowsDone.length = P.rowsDone.length + rows.length ∧
          Q.concealed = P.concealed + cols.length ∧ Q.frame = P.frame ∧ Q.info = P.info ∧
          ∀ i, (i < P.rowsDone.length → Q.rowsDone[i]? = P.rowsDone[i]?) ∧
            (∀ r, rows[i]? = some r → Q.rowsDone[P.rowsDone.length + i]? = some (concealRow P.info.width P.info.groupRows P.info.depth cols (((s.here.stream? P.info.stream).map (·.refPic)).getD [])[P.rowsDone.length + i]? r))) ∧
        (t.d.engine n).ring.length + (t.d.engine n).heldBack.length = (s.here.engine n).ring.length + (s.here.engine n).heldBack.length + rows.length ∧
        t.d.reg (R.COD_ROWS n) = (s.here.reg (R.COD_ROWS n) + 1) % 2 ^ 32) ∧
    ((s.here.engine n).ringFor P = false ∨ ringRows P.info.width < (s.here.engine n).ring.length + rows.length →
      exec (.lineRingGroupWrite n rows cols sub) s = .next { s with d := { s.here with engines := mput s.here.engines n { s.here.engine n with stalled := true } } })) ∧
  (∀ (s : State) (n cycles lag refLag : Nat) (coded : List Byte) (P : Pic), s.here.engineLive n = true → (s.here.engine n).pic = some P →
    (P.info.encode = false → P.analyse = true → (s.here.engine n).ringFor P = true) →
    (Answers (.pictureComplete n cycles lag refLag coded) s fun t => t = { s with d := t.d } ∧ (t.d.engine n).pic = none ∧
      (t.d.engine n).stalled = false ∧ t.d.flag (R.COD_STATUS n) F.COD_STATUS_busy = false ∧
      (P.info.encode = false → P.analyse = true → (t.d.engine n).src = some { P with rowsDone := [] }) ∧ t.d.cores = s.here.cores) ∧
    (P.info.encode = false → Answers (.hardCapAbort n) s fun t => t = { s with d := t.d } ∧ (t.d.engine n).pic = none ∧
      (t.d.engine n).stalled = false ∧ t.d.flag (R.COD_STATUS n) F.COD_STATUS_busy = false ∧
      (P.rowsDone.length < P.info.height → t.d.fld (R.COD_STATUS n) F.COD_STATUS_last_sub = 8) ∧ t.d.cores = s.here.cores)) ∧
  (∀ (s : State) (n : Nat) (v : Word), n < 8 → s.here.regOpen (R.COD_CTL n) = true → 0x10 + n ∉ s.here.recov.deadUnits →
    Answers (.codCtlWrite n v) s fun t => t = { s with d := { s.here with regs := t.d.regs, engines := t.d.engines } } ∧
      t.d.flag (R.COD_CTL n) F.COD_CTL_enable = v.getLsbD 0 ∧
      (let svc := s.here.fld (R.COD_STATUS n) F.COD_STATUS_svc
       let svc' := t.d.fld (R.COD_STATUS n) F.COD_STATUS_svc
       let pend := t.d.flag (R.COD_STATUS n) F.COD_STATUS_enable_pending
       (v.getLsbD 0 = true → svc = 0 → svc' = 1 ∧ pend = false) ∧ (v.getLsbD 0 = true → svc = 2 → svc' = 2 ∧ pend = true) ∧
       (v.getLsbD 0 = false → svc = 1 → (s.here.engine n).pic = none → svc' = 0 ∧ (t.d.engine n).loads = []) ∧
       (v.getLsbD 0 = false → svc = 1 → (s.here.engine n).pic ≠ none → svc' = 2 ∧ pend = false)) ∧
      (t.d.engine n).pic = (s.here.engine n).pic)

namespace Sys2Proof.Machine

/-- The VOID record of a frame stands at the end of what waits for the rings, and the frame is gone (R14, R166). -/
def Dev.voidGone (d e : Dev) (f : Frame) (reason code : Nat) : Prop :=
  (∃ old, e.que.wait = old ++ (f.ahead.map (d.devRec f.stream f.num false)) ++
    [d.devRec f.stream f.num true (voidRec f.stream f.num f.stamp f.ep.num reason code 0 f.unauth)]) ∧
  e.sched.frames = d.sched.frames.filter (fun g => !(g.stream = f.stream && g.num = f.num && g.revisit = f.revisit))

/-- Rows join picture w of a source in work, and the pipe's two registers follow (R294). -/
def Dev.rowsTaken (d e : Dev) (k src : Nat) (w : Shaping) (rows : List (List Nat)) : Prop :=
  mget (e.pipe k).work src = some { w with rows := w.rows ++ rows } ∧ (e.pipe k).lastSource = src ∧
  e.reg (R.SHP_ROWS k) = (d.reg (R.SHP_ROWS k) + rows.length) % 2 ^ 32 ∧
  e.fld (R.SHP_STATUS k) F.SHP_STATUS_stream = w.stream % 256 ∧ ∀ i, i ≠ k → e.pipe i = d.pipe i

end Sys2Proof.Machine

/-- SHAPER_PICTURE_START, SHAPER_ROW_GROUP and SHAPER_FRAME_COMPLETE (R294, R300, R301, R305). -/
def Obligations.ShaperServes : Prop :=
  (∀ (s : State) (k src : Nat) (w : Shaping) (f : Frame) (h : Option Nat) (e : Dev), s.here.pipeOn k = true →
    mget (s.here.pipe k).work src = none → s.here.sourcePic k src = some w → w.ep.shaper.inPool < 64 →
    s.here.frame? w.stream w.frame false = some f → s.here.pop w.ep.shaper.inPool 1 = (h, e) →
    Answers (.shaperPictureStart k src) s fun t => t = { s with d := t.d } ∧
      (∃ x, mget (t.d.pipe k).work src = some x ∧ x.buf = h ∧ x.noBuf = h.isNone ∧ x.rows = w.rows ∧ x.stream = w.stream ∧
        x.frame = w.frame ∧ x.stamp = w.stamp ∧ x.ep = w.ep) ∧
      t.d.frame? w.stream w.frame false = some { f with buf := h } ∧
      t.d.fld (R.SHP_STATUS k) F.SHP_STATUS_no_buffer = min 65535 (s.here.fld (R.SHP_STATUS k) F.SHP_STATUS_no_buffer + b2n h.isNone) ∧
      t.d.cores = s.here.cores ∧ ∀ i, i ≠ k → t.d.pipe i = s.here.pipe i) ∧
  (∀ (s : State) (k src vc : Nat) (w : Shaping) (l : Nat × Option (List Nat)), s.here.pipeOn k = true → sourceVc src = some vc →
    mget (s.here.pipe k).work src = some w → ((s.here.pipe k).fifo.find? fun l => l.1 = 4 * w.frame + vc) = some l →
    Answers (.shaperRowGroup k src) s fun t => t = { s with d := { s.here with pipes := t.d.pipes, regs := t.d.regs } } ∧
      s.here.rowsTaken t.d k src w [takeLine w l.2] ∧ (t.d.pipe k).fifo = (s.here.pipe k).fifo.erase l) ∧
  (∀ (s : State) (k src : Nat) (w : Shaping), s.here.pipeOn k = true → src ≤ 1 → mget (s.here.pipe k).work src = some w →
    (s.here.engine (2 * k + src)).ring ≠ [] → (s.here.pipe k).sensorWaits = false →
    (∀ x ∈ [0, 1, 3], x ≠ src → s.here.rowsReady k x = true → (s.here.pipe k).lastSource ≠ src) →
    Answers (.shaperRowGroup k src) s fun t =>
      t = { s with d := { s.here with pipes := t.d.pipes, regs := t.d.regs, engines := t.d.engines } } ∧
      (let E := s.here.engine (2 * k + src)
       let n := ringRows w.width
       s.here.rowsTaken t.d k src w E.ring ∧ (t.d.engine (2 * k + src)).ring = E.heldBack.take n ∧
       (t.d.engine (2 * k + src)).heldBack = E.heldBack.drop n ∧ (t.d.engine (2 * k + src)).pic = E.pic ∧
       (w.height ≤ w.rows.length + E.ring.length → (t.d.engine (2 * k + src)).src = none)) ∧
      (t.d.pipe k).fifo = (s.here.pipe k).fifo) ∧
  (∀ (s : State) (k src : Nat), sourceVc src = none → (s.here.pipe k).sensorWaits = true →
    exec (.shaperRowGroup k src) s = .next { s with d := s.here }) ∧
  (∀ (s : State) (k src H : Nat) (w : Shaping) (f : Frame) (st : Stream), s.here.pipeOn k = true → mget (s.here.pipe k).work src = some w →
    s.here.picHeight k src w = some H → H ≤ w.rows.length → s.here.frame? w.stream w.frame false = some f →
    mget s.here.streams w.stream = some st →
    (w.buf = none → st.unauth = false → st.relNext = f.num → st.relHeld = [] →
      Answers (.shaperFrameComplete k src) s fun t => t = { s with d := t.d } ∧ mget (t.d.pipe k).work src = none ∧
        s.here.voidGone t.d f 7 0 ∧ t.d.cores = s.here.cores) ∧
    (∀ h, w.buf = some h → st.kind ≠ 1 → w.ep.shaper.revisitDepth = 0 → s.here.mem.chk = [] →
      (∀ a, s.here.place a ≠ none → s.here.writable a) → (∀ a, s.here.listBase w.ep.shaper.inPool + 8192 * hIdx h ≤ a →
        a < s.here.listBase w.ep.shaper.inPool + 8192 * hIdx h + 8192 → s.here.place a ≠ none) →
      Answers (.shaperFrameComplete k src) s fun t => t = { s with d := t.d } ∧ mget (t.d.pipe k).work src = none ∧
        (let j := cropJobs w.ep.shaper w.width w.steer
         let slot := s.here.listBase w.ep.shaper.inPool + 8192 * hIdx h
         t.d.frame? w.stream w.frame false = some { f with st := .arrived, crops := j.1.length, listOff := (slot - sstBase) / 256 } ∧
         t.d.rdN slot 256 = (cropList { w with height := H } h w.flags j.2 j.1).take 256) ∧
        t.d.cores = s.here.cores))

/-- FRAME_START, SENSOR_LINE and FRAME_END (R312 to R314, R320). -/
def Obligations.SensorFrames : Prop :=
  (∀ (s : State) (k vc id : Nat) (st : Stream) (ep : Epoch), s.here.portRuns k = true → vc < 4 → s.here.working = true →
    s.here.pwr.phase ≠ .dusk → s.here.pwr.phase ≠ .dawn → s.here.fld (R.SNS_STATUS k) F.SNS_STATUS_svc = 1 →
    mget (s.here.port k).cur vc = none → mget (s.here.port k).vcs vc = some id → s.here.stream? id = some st → st.latest = some ep →
    Answers (.frameStart k vc) s fun t => t = { s with d := t.d } ∧
      (∃ g, mget (t.d.port k).cur vc = some g ∧ g.stream = id ∧ g.frame = st.numberAt 0 ∧ g.ep = ep ∧ g.stamp = s.tb.time ∧ g.count = 0 ∧
        g.concealed = 0) ∧
      t.d.flag (R.SNS_STATUS k) F.SNS_STATUS_link = true ∧
      (∃ f, t.d.sched.frames = s.here.sched.frames ++ [f] ∧ f.stream = id ∧ f.num = st.numberAt 0 ∧ f.st = .shaping ∧ f.ep = ep ∧
        f.stamp = s.tb.time ∧ f.unauth = st.unauth) ∧
      t.d.cores = s.here.cores ∧ ∀ i, i ≠ k → t.d.port i = s.here.port i) ∧
  (∀ (s : State) (k vc dt index : Nat) (samples : List Nat) (crcOk fixed : Bool) (f : SFrame), s.here.portRuns k = true →
    mget (s.here.port k).cur vc = some f → dt < 7 → f.count ≤ index → index < 4096 →
    Answers (.sensorLine k vc dt index samples crcOk fixed) s fun t =>
      t = { s with d := { s.here with pipes := t.d.pipes, ports := t.d.ports, regs := t.d.regs } } ∧
      (let depth := if f.width = 0 then (lineFmt dt (headKind (s.here.port k).store)).2 else f.depth
       let good := crcOk && decide (s.here.fifoBytes k + lineBytes depth (some samples) ≤ 45056)
       (∃ g, mget (t.d.port k).cur vc = some g ∧ g.count = index + 1 ∧ g.concealed = f.concealed + (index - f.count) + b2n (!good) ∧
         g.frame = f.frame ∧ g.stamp = f.stamp ∧ g.depth = depth) ∧
       (t.d.pipe k).fifo = (s.here.pipe k).fifo ++
         (List.replicate (index - f.count) none ++ [if good then some samples else none]).map (fun l => (4 * f.frame + vc, l)) ∧
       t.d.fld (R.SNS_ERRS k) F.SNS_ERRS_crc = min 65535 (s.here.fld (R.SNS_ERRS k) F.SNS_ERRS_crc + b2n (!crcOk)) ∧
       t.d.fld (R.SNS_ERRS k) F.SNS_ERRS_hdr_corrected = min 65535 (s.here.fld (R.SNS_ERRS k) F.SNS_ERRS_hdr_corrected + b2n fixed) ∧
       (∀ i, i ≠ k → t.d.pipe i = s.here.pipe i ∧ t.d.port i = s.here.port i))) ∧
  (∀ (s : State) (k vc height : Nat) (f : SFrame), s.here.portRuns k = true → mget (s.here.port k).cur vc = some f →
    Answers (.frameEnd k vc height) s fun t => t = { s with d := t.d } ∧ mget (t.d.port k).cur vc = none ∧
      (let H := min 4096 height
       (∃ g, (t.d.port k).ended = (s.here.port k).ended ++ [(vc, g)] ∧ g.ended = some (max H f.count) ∧
         g.concealed = f.concealed + (H - f.count) ∧ g.frame = f.frame ∧ g.stream = f.stream) ∧
       (t.d.pipe k).fifo = (s.here.pipe k).fifo ++ List.replicate (H - f.count) (4 * f.frame + vc, none)) ∧
      (mdel (s.here.port k).cur vc = [] → s.here.fld (R.SNS_STATUS k) F.SNS_STATUS_svc = 2 →
        t.d.fld (R.SNS_STATUS k) F.SNS_STATUS_svc = b2n (s.here.flag (R.SNS_STATUS k) F.SNS_STATUS_enable_pending) ∧
        t.d.fld (R.SNS_STATUS k) F.SNS_STATUS_enable_pending = 0) ∧
      t.d.cores = s.here.cores)

/-- SNS_CTL_WRITE and HEAD_HOUR (R319, R320). -/
def Obligations.SensorService : Prop :=
  (∀ (s : State) (k : Nat) (v : Word), k < 4 → s.here.regOpen (R.SNS_CTL k) = true →
    Answers (.snsCtlWrite k v) s fun t => t = { s with d := { s.here with regs := t.d.regs } } ∧
      t.d.flag (R.SNS_CTL k) F.SNS_CTL_enable = v.getLsbD 0 ∧
      (let svc := s.here.fld (R.SNS_STATUS k) F.SNS_STATUS_svc
       let svc' := t.d.fld (R.SNS_STATUS k) F.SNS_STATUS_svc
       let pend := t.d.flag (R.SNS_STATUS k) F.SNS_STATUS_enable_pending
       (v.getLsbD 0 = true → svc = 0 → svc' = 1 ∧ pend = false) ∧ (v.getLsbD 0 = true → svc = 2 → svc' = 2 ∧ pend = true) ∧
       (v.getLsbD 0 = false → svc = 1 → (s.here.port k).cur = [] → svc' = 0) ∧
       (v.getLsbD 0 = false → svc = 1 → (s.here.port k).cur ≠ [] → svc' = 2) ∧
       (v.getLsbD 0 = false → svc = 2 → svc' = 2 ∧ pend = false)) ∧
      ∀ o, o ≠ R.SNS_CTL k → o ≠ R.SNS_STATUS k → t.d.reg o = s.here.reg o) ∧
  (∀ (s : State) (k : Nat) (r1 r2 : Bool), k < 4 → (s.here.port k).store ≠ [] →
    hour ≤ (s.here.port k).partHour + (s.tb.time - (s.here.port k).lastSeen.getD s.tb.time) →
    Answers (.headHour k r1 r2) s fun t => t = { s with d := t.d } ∧
      (let p := s.here.port k
       let q := t.d.port k
       let c := curHours p.store
       let body := toLE 4 (c.1 + 1 + p.carried) ++ toLE 2 (c.2.1 + 1) ++ zeros 6
       let b := body ++ toLE 4 (crc32 body)
       q.partHour = p.partHour + (s.tb.time - p.lastSeen.getD s.tb.time) - hour ∧ q.lastSeen = p.lastSeen.map (fun _ => s.tb.time) ∧
       (∃ more, t.d.host.sent = s.here.host.sent ++ .i3c k 0x50 (toLE 2 c.2.2 ++ b) :: more) ∧
       (r1 = true ∨ r2 = true → q.store = patch p.store c.2.2 b ∧ q.carried = 0) ∧
       (r1 = false → r2 = false → q.store = p.store ∧ q.carried = p.carried + 1 ∧ t.d.que.evSeq = (s.here.que.evSeq + 1) % 2 ^ 32)) ∧
      t.d.cores = s.here.cores)

namespace Sys2Proof.Machine

/-- The entry at the head of queue q, for the command with opcode op, is fetched and in order; its completion queue is c. -/
structure Dev.accepts (d : Dev) (op q : Nat) (e : List Byte) (x : Sq) (c : Cq) : Prop where
  fetch : d.canFetch q = true
  sq : mget d.que.sqs q = some x
  cq : mget d.que.cqs x.cq = some c
  op : eOp e = op
  ok : cmdOk q e = true
  noDelete : ∀ k ∈ d.que.cmds, k.op ≠ 2
  admin : d.fld R.QUE_ADMIN_CFG F.QUE_ADMIN_CFG_svc ≠ 2

/-- The completion entry of a command of queue q lies at the tail of its completion queue; head and tail have moved (R370). -/
def Dev.answered (d t : Dev) (q : Nat) (e : List Byte) (x : Sq) (c : Cq) (status : Nat) (result : List Byte) : Prop :=
  (∃ pre post, t.host.sent = d.host.sent ++ pre ++
    [.mem (c.base + 16 * c.tail) (cplEntry q (eCid e) status ((x.head + 1) % x.size) c.phase result)] ++ post) ∧
  mget t.que.sqs q = some { x with head := (x.head + 1) % x.size } ∧
  mget t.que.cqs x.cq = some { c with tail := if c.tail + 1 = c.size then 0 else c.tail + 1, phase := if c.tail + 1 = c.size then !c.phase else c.phase }

/-- The command waits behind its entry; the head of its queue has moved. -/
def Dev.waits (d t : Dev) (q : Nat) (e : List Byte) (x : Sq) (stream arg : Nat) : Prop :=
  t.que.cmds = d.que.cmds ++ [{ q := q, cid := eCid e, op := eOp e, stream := stream, arg := arg, entry := e }] ∧
  mget t.que.sqs q = some { x with head := (x.head + 1) % x.size } ∧ t.que.cqs = d.que.cqs

/-- Nothing changes but the queues, the host interface and the time of the last activity. -/
def State.onlyQueues (s t : State) : Prop :=
  t = { s with d := { s.here with que := t.d.que, host := t.d.host, pwr := { s.here.pwr with lastActive := s.tb.time } } }

/-- Queue, entry and opcode of the commands of submission queues. -/
def queueCmd : Instr → Option (Nat × List Byte × Nat)
  | .createSq q e => some (q, e, 0x01)
  | .deleteSq q e => some (q, e, 0x02)
  | .createCq q e => some (q, e, 0x03)
  | .deleteCq q e => some (q, e, 0x04)
  | .createRing q e => some (q, e, 0x05)
  | .deleteRing q e => some (q, e, 0x06)
  | .loadImage q e => some (q, e, 0x10)
  | .unload q e => some (q, e, 0x11)
  | .setContext q e => some (q, e, 0x12)
  | .seqSet q e _ => some (q, e, 0x13)
  | .createStream q e => some (q, e, 0x20)
  | .configStream q e _ => some (q, e, 0x21)
  | .destroyStream q e => some (q, e, 0x22)
  | .feed q e _ => some (q, e, 0x23)
  | .attachSensor q e _ _ => some (q, e, 0x24)
  | .detachSensor q e => some (q, e, 0x25)
  | .sensorXfer q e _ _ => some (q, e, 0x26)
  | .revisit q e => some (q, e, 0x27)
  | .readout q e => some (q, e, 0x28)
  | .clipReq q e => some (q, e, 0x29)
  | .release q e => some (q, e, 0x2A)
  | .encode q e => some (q, e, 0x2B)
  | .setMode q e => some (q, e, 0x30)
  | .groupJoin q e _ => some (q, e, 0x31)
  | .groupLeave q e => some (q, e, 0x32)
  | .attest q e => some (q, e, 0x33)
  | .readLog q e => some (q, e, 0x34)
  | .setEvents q e => some (q, e, 0x35)
  | .forceFree q e => some (q, e, 0x36)
  | _ => none

end Sys2Proof.Machine

/-- SQ_TAIL_DOORBELL, CQ_HEAD_DOORBELL and RING_READ_DOORBELL (R368). -/
def Obligations.Doorbells : Prop :=
  (∀ (s : State) (q : Nat) (v : Word) (x : Sq), s.here.regOpen (0x20000 + 8 * q) = true → q < 64 → mget s.here.que.sqs q = some x →
    v.toNat % 4096 < x.size →
    exec (.sqTailDoorbell q v) s = .next { s with d := { s.here with que := { s.here.que with sqs := mput s.here.que.sqs q { x with tail := v.toNat % 4096 } } } }) ∧
  (∀ (s : State) (q : Nat) (v : Word) (x : Cq), s.here.regOpen (0x20200 + 8 * q) = true → q < 64 → mget s.here.que.cqs q = some x →
    v.toNat % 4096 < x.size → s.here.que.cplWait = [] →
    exec (.cqHeadDoorbell q v) s = .next { s with d := { s.here with que := { s.here.que with cqs := mput s.here.que.cqs q { x with head := v.toNat % 4096 } } } }) ∧
  (∀ (s : State) (r : Nat) (v : Word) (x : Ring), s.here.regOpen (0x20400 + 8 * r) = true → r < 64 → mget s.here.que.rings r = some x →
    (v.toNat + 2 ^ 32 - x.read) % 2 ^ 32 ≤ (x.write + 2 ^ 32 - x.read) % 2 ^ 32 →
    exec (.ringReadDoorbell r v) s = .next { s with d := { s.here with que := { s.here.que with rings := mput s.here.que.rings r { x with read := v.toNat } } } }) ∧
  (∀ (i : Instr) (s : State) (n kind : Nat) (v : Word),
    (i = .sqTailDoorbell n v ∧ kind = 0 ∧ s.here.regOpen (0x20000 + 8 * n) = true ∧ ∀ x, mget s.here.que.sqs n = some x → x.size ≤ v.toNat % 4096) ∨
    (i = .cqHeadDoorbell n v ∧ kind = 1 ∧ s.here.regOpen (0x20200 + 8 * n) = true ∧ ∀ x, mget s.here.que.cqs n = some x → x.size ≤ v.toNat % 4096) ∨
    (i = .ringReadDoorbell n v ∧ kind = 2 ∧ s.here.regOpen (0x20400 + 8 * n) = true ∧ ∀ x, mget s.here.que.rings n = some x →
      (x.write + 2 ^ 32 - x.read) % 2 ^ 32 < (v.toNat + 2 ^ 32 - x.read) % 2 ^ 32) → n < 64 →
    Answers i s fun t => t = { s with d := { s.here with regs := t.d.regs } } ∧ t.d.flag R.QUE_ERR F.QUE_ERR_bad_doorbell = true ∧
      t.d.fld R.QUE_ERR F.QUE_ERR_last = n ∧ t.d.fld R.QUE_ERR F.QUE_ERR_kind = kind ∧ ∀ o, o ≠ R.QUE_ERR → t.d.reg o = s.here.reg o)

/-- RING_RECORD_WRITE and QUE_ADMIN_CFG_WRITE (R372, R374, R383). -/
def Obligations.RingsAndAdmin : Prop :=
  (∀ (s : State) (r : Nat) (x : Ring) (w : WaitRec), mget s.here.que.rings r = some x → s.here.que.wait = [w] → w.ring = r →
    s.here.working = true → s.here.unitOut (0x200 + r) = false → s.here.clocked 2 = true → s.here.linkUp = true →
    (unitsOf w.bytes + (x.write + 2 ^ 32 - x.read) % 2 ^ 32 ≤ x.size → 0 < unitsOf w.bytes → w.handle = none → w.last = false ∨ 256 ≤ w.stream →
      Answers (.ringRecordWrite r) s fun t =>
        t = { s with d := { s.here with que := t.d.que, host := t.d.host, regs := t.d.regs } } ∧ t.d.que.wait = [] ∧
        mget t.d.que.rings r = some { x with write := (x.write + unitsOf w.bytes) % 2 ^ 32 } ∧
        ∃ post, t.d.host.sent = s.here.host.sent ++
          (List.range (unitsOf w.bytes)).map (fun i => .mem (x.base + 64 * ((x.write + i) % 2 ^ 32 % x.size)) (slice w.bytes (64 * i) 64)) ++
          [.mem x.idxAddr (toLE 4 ((x.write + unitsOf w.bytes) % 2 ^ 32) ++ toLE 4 x.discarded)] ++ post) ∧
    (x.size - (x.write + 2 ^ 32 - x.read) % 2 ^ 32 < unitsOf w.bytes → exec (.ringRecordWrite r) s = .next { s with d := s.here })) ∧
  (∀ (s : State) (v : Word), s.here.regOpen R.QUE_ADMIN_CFG = true → s.here.flag R.QUE_ADMIN_CFG F.QUE_ADMIN_CFG_enable_pending = false →
    Answers (.queAdminCfgWrite v) s fun t => t = { s with d := { s.here with regs := t.d.regs, que := t.d.que } } ∧
      t.d.flag R.QUE_ADMIN_CFG F.QUE_ADMIN_CFG_enable = v.getLsbD 0 ∧
      (let svc := s.here.fld R.QUE_ADMIN_CFG F.QUE_ADMIN_CFG_svc
       let svc' := t.d.fld R.QUE_ADMIN_CFG F.QUE_ADMIN_CFG_svc
       let a := v.toNat / 2 % 16
       let b := v.toNat / 32 % 16
       (svc = 0 → t.d.fld R.QUE_ADMIN_CFG F.QUE_ADMIN_CFG_sq_log2 = a ∧ t.d.fld R.QUE_ADMIN_CFG F.QUE_ADMIN_CFG_cq_log2 = b ∧
         t.d.fld R.QUE_ADMIN_CFG F.QUE_ADMIN_CFG_vector = v.toNat / 512 % 128) ∧
       (svc = 0 → v.getLsbD 0 = true → 1 ≤ a → a ≤ 12 → 1 ≤ b → b ≤ 12 → svc' = 1 ∧
         mget t.d.que.sqs 0 = some { base := s.here.reg R.QUE_ADMIN_SQ_LO / 4096 * 4096 + 2 ^ 32 * s.here.reg R.QUE_ADMIN_SQ_HI, size := 2 ^ a, cq := 0 } ∧
         mget t.d.que.cqs 0 = some { base := s.here.reg R.QUE_ADMIN_CQ_LO / 4096 * 4096 + 2 ^ 32 * s.here.reg R.QUE_ADMIN_CQ_HI, size := 2 ^ b, vector := v.toNat / 512 % 128 }) ∧
       (svc = 0 → v.getLsbD 0 = false → svc' = 0 ∧ t.d.que = s.here.que) ∧
       (svc = 1 → v.getLsbD 0 = true → svc' = 1 ∧ t.d.que = s.here.que) ∧
       (svc = 1 → v.getLsbD 0 = false → s.here.outstanding 0 = false → svc' = 0 ∧ mget t.d.que.sqs 0 = none ∧ mget t.d.que.cqs 0 = none) ∧
       (svc = 1 → v.getLsbD 0 = false → s.here.outstanding 0 = true → svc' = 2 ∧ t.d.que = s.here.que) ∧
       (svc = 2 → svc' = 2 ∧ t.d.flag R.QUE_ADMIN_CFG F.QUE_ADMIN_CFG_enable_pending = v.getLsbD 0 ∧ t.d.que = s.here.que)))

/-- CREATE_SQ, DELETE_SQ, CREATE_CQ, DELETE_CQ, CREATE_RING and DELETE_RING (R367, R376, R377). -/
def Obligations.QueueCommands : Prop :=
  (∀ (s : State) (q : Nat) (e : List Byte) (x : Sq) (c : Cq), s.here.accepts 0x01 q e x c →
    let n := byteAt e 16
    let good := decide (n < 64) && decide (n ≠ 0) && (mget s.here.que.sqs n).isNone && (mget s.here.que.cqs (byteAt e 17)).isSome && pow2In (eLen e) 2 4096 && decide (eAddr e % 4096 = 0)
    Answers (.createSq q e) s fun t => s.onlyQueues t ∧ s.here.answered t.d q e x c (if good then 0 else 8) [] ∧ t.d.que.rings = s.here.que.rings ∧
      (good = true → mget t.d.que.sqs n = some { base := eAddr e, size := eLen e, cq := byteAt e 17 }) ∧
      ∀ k, k ≠ q → (good = true → k ≠ n) → mget t.d.que.sqs k = mget s.here.que.sqs k) ∧
  (∀ (s : State) (q : Nat) (e : List Byte) (x y : Sq) (c : Cq), s.here.accepts 0x02 q e x c → byteAt e 16 ≠ 0 →
    mget s.here.que.sqs (byteAt e 16) = some y → y.deleting = false →
    (s.here.outstanding (byteAt e 16) = false → Answers (.deleteSq q e) s fun t => s.onlyQueues t ∧ s.here.answered t.d q e x c 0 [] ∧
      mget t.d.que.sqs (byteAt e 16) = none ∧ t.d.que.cmds = s.here.que.cmds) ∧
    (s.here.outstanding (byteAt e 16) = true → Answers (.deleteSq q e) s fun t => s.onlyQueues t ∧ s.here.waits t.d q e x (byteAt e 16) 0 ∧
      mget t.d.que.sqs (byteAt e 16) = some { y with deleting := true })) ∧
  (∀ (s : State) (q : Nat) (e : List Byte) (x : Sq) (c : Cq), s.here.accepts 0x03 q e x c →
    let n := byteAt e 16
    let good := decide (n < 64) && decide (n ≠ 0) && (mget s.here.que.cqs n).isNone && decide (1 ≤ byteAt e 17) && decide (byteAt e 17 ≤ 127) && pow2In (eLen e) 2 4096 && decide (eAddr e % 4096 = 0)
    Answers (.createCq q e) s fun t => s.onlyQueues t ∧ s.here.answered t.d q e x c (if good then 0 else 8) [] ∧ t.d.que.rings = s.here.que.rings ∧
      (good = true → mget t.d.que.cqs n = some { base := eAddr e, size := eLen e, vector := byteAt e 17 }) ∧
      ∀ k, k ≠ x.cq → (good = true → k ≠ n) → mget t.d.que.cqs k = mget s.here.que.cqs k) ∧
  (∀ (s : State) (q : Nat) (e : List Byte) (x : Sq) (c : Cq), s.here.accepts 0x04 q e x c →
    let n := byteAt e 16
    let bad := (mget s.here.que.cqs n).isNone || s.here.que.sqs.any fun y => decide (y.2.cq = n)
    Answers (.deleteCq q e) s fun t => s.onlyQueues t ∧ s.here.answered t.d q e x c (if bad then 8 else 0) [] ∧ t.d.que.rings = s.here.que.rings ∧
      (bad = false → mget t.d.que.cqs n = none) ∧ ∀ k, k ≠ x.cq → (bad = false → k ≠ n) → mget t.d.que.cqs k = mget s.here.que.cqs k) ∧
  (∀ (s : State) (q : Nat) (e : List Byte) (x : Sq) (c : Cq), s.here.accepts 0x05 q e x c →
    let n := byteAt e 16
    let a := le e 24 8
    let good := decide (n < 64) && (mget s.here.que.rings n).isNone && decide (1 ≤ byteAt e 17) && decide (byteAt e 17 ≤ 127) && pow2In (eLen e) 64 1048576 && decide (eAddr e % 4096 = 0) && decide (a % 8 = 0)
    Answers (.createRing q e) s fun t => s.onlyQueues t ∧ s.here.answered t.d q e x c (if good then 0 else 8) [] ∧
      (good = true → mget t.d.que.rings n = some { base := eAddr e, size := eLen e, vector := byteAt e 17, idxAddr := a }) ∧
      ∀ k, (good = true → k ≠ n) → mget t.d.que.rings k = mget s.here.que.rings k) ∧
  (∀ (s : State) (q : Nat) (e : List Byte) (x : Sq) (c : Cq), s.here.accepts 0x06 q e x c → (∀ w ∈ s.here.que.wait, w.ring ≠ byteAt e 16) →
    let n := byteAt e 16
    let bad := (mget s.here.que.rings n).isNone || decide (s.here.que.evRing = some n) || s.here.streams.any fun y => decide (y.2.ring = n)
    Answers (.deleteRing q e) s fun t => s.onlyQueues t ∧ s.here.answered t.d q e x c (if bad then 8 else 0) [] ∧
      (bad = false → mget t.d.que.rings n = none) ∧ ∀ k, (bad = false → k ≠ n) → mget t.d.que.rings k = mget s.here.que.rings k)

/-- SET_MODE, READ_LOG, SET_EVENTS and FORCE_FREE (R251, R333, R373, R444). -/
def Obligations.ModeLogEvents : Prop :=
  (∀ (s : State) (q : Nat) (e : List Byte) (x : Sq) (c : Cq), s.here.accepts 0x30 q e x c → byteAt e 16 ≤ 3 → byteAt e 17 ≤ 1 →
    Answers (.setMode q e) s fun t => t = { s with d := t.d } ∧ s.here.answered t.d q e x c 0 [] ∧
      t.d.fld R.SCH_MODE F.SCH_MODE_mode = byteAt e 16 ∧ t.d.fld R.SCH_MODE F.SCH_MODE_pin = byteAt e 17 ∧
      t.d.mode = modeOf (byteAt e 16) ∧ t.d.cores = s.here.cores ∧ t.d.mem = s.here.mem) ∧
  (∀ (s : State) (q : Nat) (e : List Byte) (x : Sq) (c : Cq), s.here.accepts 0x34 q e x c →
    let first := le e 16 4
    let l := (s.here.recov.log.reverse.filter fun y => decide (first ≤ y.seq)).take (eLen e / 32)
    (s.here.fld R.TEL_LOG_HEAD F.TEL_LOG_HEAD_next < first →
      Answers (.readLog q e) s fun t => s.onlyQueues t ∧ s.here.answered t.d q e x c 0x80 []) ∧
    (first ≤ s.here.fld R.TEL_LOG_HEAD F.TEL_LOG_HEAD_next →
      Answers (.readLog q e) s fun t => s.onlyQueues t ∧
        s.here.answered t.d q e x c 0 (toLE 4 l.length ++ toLE 4 (((l.getLast?).map fun y => y.seq + 1).getD first)) ∧
        (l ≠ [] → ∃ more, t.d.host.sent = s.here.host.sent ++ .mem (eAddr e) (l.flatMap logBytes) :: more))) ∧
  (∀ (s : State) (q : Nat) (e : List Byte) (x : Sq) (c : Cq), s.here.accepts 0x35 q e x c →
    let r := byteAt e 16
    let bad := decide (r ≠ 0xFF) && (mget s.here.que.rings r).isNone
    Answers (.setEvents q e) s fun t => s.onlyQueues t ∧ s.here.answered t.d q e x c (if bad then 8 else 0) [] ∧
      t.d.que.evRing = (if bad then s.here.que.evRing else if r = 0xFF then none else some r)) ∧
  (∀ (s : State) (q : Nat) (e : List Byte) (x : Sq) (c : Cq), s.here.accepts 0x36 q e x c →
    let h := le e 20 4
    (s.here.buf h = none → Answers (.forceFree q e) s fun t => s.onlyQueues t ∧ s.here.answered t.d q e x c 9 []) ∧
    (∀ b, s.here.buf h = some b → b.st = .free → Answers (.forceFree q e) s fun t => s.onlyQueues t ∧ s.here.answered t.d q e x c 6 []) ∧
    (∀ b, s.here.buf h = some b → b.st ≠ .free → s.here.poolState (hPool h) = 1 →
      Answers (.forceFree q e) s fun t => t = { s with d := t.d } ∧ s.here.answered t.d q e x c 0 [] ∧
        mget t.d.bpm.bufs h = some ⟨.free, 0⟩ ∧ (∀ k, k ≠ h → mget t.d.bpm.bufs k = mget s.here.bpm.bufs k) ∧
        (b.st = .allocated → ∀ j < 8, (t.d.core j).journal = (s.here.core j).journal.filter fun y => decide (y.2 ≠ h))))

/-- Every command with an entry that is not in order (R371, R375). -/
def Obligations.BadEntries : Prop :=
  ∀ (i : Instr) (q op : Nat) (e : List Byte) (s : State) (x : Sq) (c : Cq), queueCmd i = some (q, e, op) → s.here.canFetch q = true →
    mget s.here.que.sqs q = some x → mget s.here.que.cqs x.cq = some c → (∀ k ∈ s.here.que.cmds, k.op ≠ 2) →
    s.here.fld R.QUE_ADMIN_CFG F.QUE_ADMIN_CFG_svc ≠ 2 → cmdNamed (eOp e) = none ∨ eOp e = op → cmdOk q e = false →
    Answers i s fun t => s.onlyQueues t ∧ s.here.answered t.d q e x c 8 [] ∧ t.d.que.rings = s.here.que.rings ∧ t.d.que.cmds = s.here.que.cmds ∧
      ∀ k, k ≠ q → mget t.d.que.sqs k = mget s.here.que.sqs k

/-- LOAD_IMAGE, UNLOAD, SET_CONTEXT, SEQ_SET (R63, R65, R66, R184, R377). -/
def Obligations.ContextCommands : Prop :=
  (∀ (s : State) (q : Nat) (e : List Byte) (x : Sq) (c : Cq), s.here.accepts 0x10 q e x c →
    let r := (s.here.fetched q).loadImg ⟨eAddr e, eLen e⟩
    Answers (.loadImage q e) s fun t => t = { s with d := t.d } ∧
      s.here.answered t.d q e x c r.1 (if r.1 = 0 then (List.range 4).flatMap (fun v => toLE 1 (r.2.1.getD v 0xFF)) else []) ∧
      t.d.images = r.2.2.images ∧ t.d.ctxs = r.2.2.ctxs ∧ t.d.cores = r.2.2.cores) ∧
  (∀ (s : State) (q : Nat) (e : List Byte) (x : Sq) (c : Cq), s.here.accepts 0x11 q e x c →
    let ids := fun (k : Nat) => ((mget s.here.images k).map (·.ctxs)).getD []
    (s.here.ctx? (byteAt e 16) = none → Answers (.unload q e) s fun t => s.onlyQueues t ∧ s.here.answered t.d q e x c 8 []) ∧
    (∀ y, s.here.ctx? (byteAt e 16) = some y → ((ids y.image).any fun k => s.here.boundCtx k || s.here.namedFallback k) = true →
      Answers (.unload q e) s fun t => s.onlyQueues t ∧ s.here.answered t.d q e x c 8 []) ∧
    (∀ y, s.here.ctx? (byteAt e 16) = some y → ((ids y.image).any fun k => s.here.boundCtx k || s.here.namedFallback k) = false →
      Answers (.unload q e) s fun t => t = { s with d := t.d } ∧ s.here.answered t.d q e x c 0 [] ∧ mget t.d.images y.image = none ∧
        t.d.streams = s.here.streams)) ∧
  (∀ (s : State) (q : Nat) (e : List Byte) (x : Sq) (c : Cq), s.here.accepts 0x12 q e x c →
    let k := byteAt e 16
    let a : Attrs := { lc := decide (byteAt e 17 = 0), hold := le e 18 2, fallback := if byteAt e 20 = 0xFF then none else some (byteAt e 20), deadline := le e 24 8, margin := le e 32 8 }
    (s.here.boundCtx k = true ∨ s.here.attrsOk k (byteAt e 17) a = false →
      Answers (.setContext q e) s fun t => s.onlyQueues t ∧ s.here.answered t.d q e x c 8 []) ∧
    (∀ y, s.here.boundCtx k = false → s.here.attrsOk k (byteAt e 17) a = true → s.here.ctx? k = some y →
      Answers (.setContext q e) s fun t => t = { s with d := t.d } ∧ s.here.answered t.d q e x c 0 [] ∧
        t.d.ctx? k = some { y with lc := a.lc, hold := a.hold, fallback := a.fallback, deadline := a.deadline, margin := a.margin } ∧
        (∀ j, j ≠ k → t.d.ctx? j = s.here.ctx? j) ∧ t.d.images = s.here.images ∧ t.d.streams = s.here.streams ∧ t.d.cores = s.here.cores)) ∧
  (∀ (s : State) (q : Nat) (e data : List Byte) (x : Sq) (c : Cq) (y : Ctx) (i : Image) (r : Region) (p : Nat × Nat), s.here.accepts 0x13 q e x c →
    s.here.ctx? (byteAt e 16) = some y → y.variant = 0 → mget s.here.images y.image = some i →
    (i.regions.find? fun r => decide (r.req = le e 18 2) && decide (r.kind = 3) && decide (r.variant = 0)) = some r → r.places.head? = some p →
    (∀ z ∈ s.here.sets, z.base ≠ p.2) → eLen e = 64 → s.here.seqHeaderOk (byteAt e 16) r.size i (padTo data 64) = true →
    Answers (.seqSet q e data) s fun t => t = { s with d := t.d } ∧ s.here.answered t.d q e x c 0 [] ∧
      t.d.sets = s.here.sets ++ [{ ctx := byteAt e 16, req := le e 18 2, base := p.2 }] ∧ t.d.ctxs = s.here.ctxs ∧ t.d.cores = s.here.cores ∧
      (s.here.mem.chk = [] → (∀ w ∈ runWrites p.2 (padTo data 64), s.here.writable w.1) →
        ∀ a, t.d.rd a = (lastAt (runWrites p.2 (padTo data 64)) a).getD (s.here.rd a)))

/-- CREATE_STREAM, CONFIG_STREAM, DESTROY_STREAM and STREAM_DESTROY_COMPLETE (R337, R378, R380). -/
def Obligations.StreamLife : Prop :=
  (∀ (s : State) (q : Nat) (e : List Byte) (x : Sq) (c : Cq), s.here.accepts 0x20 q e x c → mget s.here.streams (eStream e) = none →
    let ok := decide (eStream e < 256) && decide (byteAt e 18 ≤ 3) && (mget s.here.que.rings (byteAt e 19)).isSome && decide (32 ≤ byteAt e 20) && decide (byteAt e 20 ≤ 47) && decide (32 ≤ byteAt e 21) && decide (byteAt e 21 ≤ 47)
    Answers (.createStream q e) s fun t => t = { s with d := t.d } ∧ s.here.answered t.d q e x c (if ok then 0 else 8) [] ∧
      mget t.d.streams (eStream e) = (if ok then some { kind := byteAt e 18, ring := byteAt e 19, chunkPool := byteAt e 20, recPool := byteAt e 21 } else none) ∧
      (∀ k, k ≠ eStream e → mget t.d.streams k = mget s.here.streams k) ∧ t.d.cores = s.here.cores ∧ t.d.mem = s.here.mem) ∧
  (∀ (s : State) (q : Nat) (e data : List Byte) (x : Sq) (c : Cq) (st : Stream), s.here.accepts 0x21 q e x c →
    s.here.standbyEntry (eStream e) = none → s.here.activeEntry (eStream e) = none → mget s.here.streams (eStream e) = some st → st.destroying = false → st.kind = 3 →
    byteAt e 20 = 6 → 216 ≤ eLen e → st.staged.length < 2 →
    let b := padTo data (eLen e)
    let old : Epoch := st.latest.getD { num := 0, codec := {}, shaper := {}, bind := {} }
    let gap := match st.latest with
      | some y => (le e 18 2 + 65536 - y.num) % 65536
      | none => 1
    0 < gap → gap < 32768 → (s.here.fetched q).sectionsOk 3 6 b old.codec = true →
    Answers (.configStream q e data) s fun t => t = { s with d := t.d } ∧ s.here.answered t.d q e x c 0 [] ∧
      (∃ y, mget t.d.streams (eStream e) = some y ∧ y.staged = st.staged ++ [{ num := le e 18 2, codec := old.codec, shaper := { old.shaper with inPool := byteAt b 64 }, bind := parseBind b, slots := [] }] ∧ y.cur = st.cur ∧ y.chunks = st.chunks) ∧
      (∀ k, k ≠ eStream e → mget t.d.streams k = mget s.here.streams k) ∧ t.d.ctxs = s.here.ctxs ∧ t.d.cores = s.here.cores) ∧
  (∀ (s : State) (q : Nat) (e : List Byte) (x : Sq) (c : Cq) (st : Stream), s.here.accepts 0x22 q e x c →
    mget s.here.streams (eStream e) = some st → st.destroying = false →
    Answers (.destroyStream q e) s fun t => t = { s with d := t.d } ∧ s.here.waits t.d q e x (eStream e) 0 ∧
      mget t.d.streams (eStream e) = some { st with destroying := true } ∧ (∀ k, k ≠ eStream e → mget t.d.streams k = mget s.here.streams k) ∧
      (∀ k, ∀ v ∈ (t.d.port k).vcs, v.2 ≠ eStream e) ∧ t.d.cores = s.here.cores) ∧
  (∀ (s : State) (id : Nat) (st : Stream), mget s.here.streams id = some st → st.destroying = true → s.here.streamIdle id = true →
    Answers (.streamDestroyComplete id) s fun t => t = { s with d := t.d } ∧
      ((∀ k ∈ s.here.que.cmds, ¬(k.op = 0x20 ∧ k.stream = id)) → mget t.d.streams id = none) ∧
      (∀ k, (s.here.que.cmds.find? fun k => decide (k.op = 0x20) && decide (k.stream = id)) = some k → le k.entry 16 2 = id →
        (mget s.here.que.rings (byteAt k.entry 19)).isSome = true →
        mget t.d.streams id = some { kind := byteAt k.entry 18, ring := byteAt k.entry 19, chunkPool := byteAt k.entry 20, recPool := byteAt k.entry 21 }) ∧
      (∀ k ∈ t.d.que.cmds, ¬((k.op = 0x22 ∨ k.op = 0x20) ∧ k.stream = id)) ∧ t.d.sched.frames = s.here.sched.frames)

/-- FEED, ENCODE, CLIP_REQ, RELEASE and HISTORY_EXPIRY (R290, R291, R379, R381). -/
def Obligations.StreamInput : Prop :=
  (∀ (s : State) (q i : Nat) (e data : List Byte) (x : Sq) (c : Cq) (st : Stream) (ep : Epoch), s.here.accepts 0x23 q e x c →
    mget s.here.streams (eStream e) = some st → st.destroying = false → s.here.fab.map = none → mget s.here.fab.standby (eStream e) = none →
    st.epoch? (le e 18 2) = some ep → 0 < eLen e → eLen e ≤ s.here.poolSize st.chunkPool →
    let stamp := if le e 24 8 = 0 then s.tb.time else le e 24 8
    (st.kind = 0 → ep.codec.histMs = 0 → s.here.canPop st.chunkPool i →
      Answers (.feed q e data) s fun t => t = { s with d := t.d } ∧ s.here.answered t.d q e x c 0 (toLE 4 (mkHandle st.chunkPool i)) ∧
        mget t.d.streams (eStream e) = some { st with chunks := st.chunks ++ [{ handle := mkHandle st.chunkPool i, len := eLen e, epoch := ep.num, stamp := stamp }] } ∧
        mget t.d.bpm.bufs (mkHandle st.chunkPool i) = some ⟨.allocated, 1⟩ ∧ t.d.sched.frames = s.here.sched.frames ∧ t.d.cores = s.here.cores) ∧
    (st.kind = 3 → eLen e ≤ s.here.poolSize ep.shaper.inPool → s.here.canPop ep.shaper.inPool i →
      Answers (.feed q e data) s fun t => t = { s with d := t.d } ∧ s.here.answered t.d q e x c 0 (toLE 4 (mkHandle ep.shaper.inPool i)) ∧
        (∃ f, t.d.sched.frames = s.here.sched.frames ++ [f] ∧ f.stream = eStream e ∧ f.num = st.numberAt 0 ∧ f.ep = ep ∧ f.stamp = stamp ∧
          f.st = .arrived ∧ f.ctx = ep.bind.ctx ∧ f.buf = some (mkHandle ep.shaper.inPool i) ∧ f.crops = 0) ∧ t.d.cores = s.here.cores)) ∧
  (∀ (s : State) (q i : Nat) (e : List Byte) (x : Sq) (c : Cq) (st : Stream) (ep : Epoch), s.here.accepts 0x2B q e x c →
    mget s.here.streams (eStream e) = some st → st.destroying = false → st.kind = 2 → st.epoch? (le e 18 2) = some ep → 0 < eLen e →
    eLen e ≤ s.here.poolSize st.chunkPool → s.here.canPop st.chunkPool i →
    Answers (.encode q e) s fun t => t = { s with d := t.d } ∧ s.here.answered t.d q e x c 0 [] ∧
      (∃ y, mget t.d.streams (eStream e) = some y ∧ y.chunks = st.chunks ++ [{ handle := mkHandle st.chunkPool i, len := eLen e, epoch := ep.num, stamp := if le e 24 8 = 0 then s.tb.time else le e 24 8 }]) ∧
      t.d.cores = s.here.cores) ∧
  (∀ (s : State) (q : Nat) (e : List Byte) (x : Sq) (c : Cq) (st : Stream) (ep : Epoch), s.here.accepts 0x29 q e x c →
    mget s.here.streams (eStream e) = some st → st.cur = some ep → le e 24 8 < le e 32 8 → st.kind ≠ 3 → ep.codec.histMs ≠ 0 →
    let l := clipItems st.history (le e 24 8) (le e 32 8)
    (l.1 = [] → Answers (.clipReq q e) s fun t => s.onlyQueues t ∧ s.here.answered t.d q e x c 0x80 []) ∧
    (∀ (a z : HistItem) (i : Nat), l.1.head? = some a → l.1.getLast? = some z → s.here.canPop ep.codec.histPool i →
      a.params.length + (l.1.map (·.len)).sum ≤ s.here.poolSize ep.codec.histPool →
      Answers (.clipReq q e) s fun t => t = { s with d := t.d } ∧ s.here.answered t.d q e x c 0 [] ∧
        mget t.d.streams (eStream e) = some { st with clips := st.clips ++ [mkHandle ep.codec.histPool i] } ∧
        (∃ old r, t.d.que.wait = old ++ [r] ∧ r.stream = eStream e ∧ r.frame = a.frame ∧ r.ring = st.ring ∧ r.last = false) ∧
        t.d.cores = s.here.cores)) ∧
  (∀ (s : State) (q : Nat) (e : List Byte) (x : Sq) (c : Cq), s.here.accepts 0x2A q e x c →
    let h := le e 20 4
    let given := s.here.streams.any fun y => y.2.clips.contains h
    (given = false → Answers (.release q e) s fun t => s.onlyQueues t ∧ s.here.answered t.d q e x c 9 []) ∧
    (given = true → Answers (.release q e) s fun t => t = { s with d := t.d } ∧ s.here.answered t.d q e x c 0 [] ∧
      (∀ k, mget t.d.streams k = (mget s.here.streams k).map fun y => { y with clips := y.clips.erase h }) ∧
      (∀ n, s.here.buf h = some ⟨.allocated, n⟩ → 1 < n → mget t.d.bpm.bufs h = some ⟨.allocated, n - 1⟩) ∧ t.d.cores = s.here.cores)) ∧
  (∀ (s : State) (id : Nat) (st : Stream) (y : HistItem) (l : List HistItem), mget s.d.streams id = some st → st.history = y :: l →
    Answers (.historyExpiry id) s fun t => t = { s with tb := t.tb, d := t.d } ∧
      t.tb.time = max s.tb.time (y.stamp + 100000 * ((st.cur.map fun e => e.codec.histMs).getD 0)) ∧
      mget t.d.streams id = some { st with history := l } ∧
      (∀ n, s.d.buf y.handle = some ⟨.allocated, n⟩ → 1 < n → mget t.d.bpm.bufs y.handle = some ⟨.allocated, n - 1⟩) ∧ t.d.cores = s.d.cores)

/-- REVISIT and READOUT (R206, R310, R381). -/
def Obligations.RevisitAndReadout : Prop :=
  (∀ (s : State) (q : Nat) (e : List Byte) (x : Sq) (c : Cq) (st : Stream) (y : Ctx) (ep : Epoch), s.here.accepts 0x27 q e x c →
    mget s.here.streams (eStream e) = some st → st.destroying = false → s.here.ctx? (byteAt e 18) = some y → st.cur = some ep →
    ((∀ r ∈ st.revisits, r.frame ≠ le e 20 4) → Answers (.revisit q e) s fun t => s.onlyQueues t ∧ s.here.answered t.d q e x c 0x80 []) ∧
    (∀ r, (st.revisits.find? fun r => decide (r.frame = le e 20 4)) = some r → s.here.frame? (eStream e) (le e 20 4) true = none →
      Answers (.revisit q e) s fun t => t = { s with d := t.d } ∧ s.here.answered t.d q e x c 0 [] ∧
        (∃ f, t.d.sched.frames = s.here.sched.frames ++ [f] ∧ f.stream = eStream e ∧ f.num = le e 20 4 ∧ f.revisit = true ∧ f.st = .arrived ∧
          f.ctx = byteAt e 18 ∧ f.buf = some r.handle ∧ f.crops = r.crops ∧ f.stamp = r.stamp ∧ f.ep.num = r.epoch) ∧
        (∀ n, s.here.buf r.handle = some ⟨.allocated, n⟩ → n < 65535 → mget t.d.bpm.bufs r.handle = some ⟨.allocated, n + 1⟩) ∧
        t.d.streams = s.here.streams ∧ t.d.cores = s.here.cores)) ∧
  (∀ (s : State) (q : Nat) (e : List Byte) (x : Sq) (c : Cq) (st : Stream), s.here.accepts 0x28 q e x c →
    mget s.here.streams (eStream e) = some st →
    let ctxs := st.schedCtx.toList ++ (st.cur.map (·.bind.ctx)).toList
    let slots := (s.here.sets.filter fun y => ctxs.contains y.ctx).flatMap fun y =>
      ((List.range (s.here.setH y.base).q).filter fun t => s.here.readoutFits (s.here.setH y.base) (eStream e) (le e 20 4) t).map fun t => (y.base, t)
    (slots = [] → Answers (.readout q e) s fun t => s.onlyQueues t ∧ s.here.answered t.d q e x c 0x80 []) ∧
    (slots ≠ [] → Answers (.readout q e) s fun t => t = { s with d := t.d } ∧ s.here.waits t.d q e x (eStream e) 0 ∧
      t.d.readouts = s.here.readouts ++ [{ stream := eStream e, frame := le e 20 4, q := q, cid := eCid e, slots := slots, scratch := [], emitted := 0 }] ∧
      t.d.sets = s.here.sets ∧ t.d.mem = s.here.mem ∧ t.d.cores = s.here.cores))

/-- ATTACH_SENSOR, DETACH_SENSOR and SENSOR_XFER (R315, R317, R376). -/
def Obligations.SensorCommands : Prop :=
  (∀ (s : State) (q : Nat) (e data store : List Byte) (x : Sq) (c : Cq) (st : Stream), s.here.accepts 0x24 q e x c →
    mget s.here.streams (le e 16 2) = some st → st.kind = 1 → st.destroying = false → byteAt e 18 < 4 → byteAt e 19 < 4 →
    byteAt e 20 ∈ [1, 2, 4] → 80 ≤ le e 22 2 → le e 22 2 ≤ 2500 →
    (∀ p ∈ s.here.ports, ∀ v ∈ p.2.vcs, (v.2 = le e 16 2 ↔ p.1 = byteAt e 18 ∧ v.1 = byteAt e 19)) →
    let k := byteAt e 18
    let B := padTo store 8192
    let permit := bit (byteAt e 21) 0
    let auth := if s.here.headOk B then 1 else if permit then 3 else 2
    Answers (.attachSensor q e data store) s fun t => t = { s with d := t.d } ∧
      s.here.answered t.d q e x c (if auth = 2 then 0xF else 0) (toLE 1 auth) ∧
      t.d.fld (R.SNS_STATUS k) F.SNS_STATUS_auth = auth ∧ (t.d.port k).store = B ∧
      t.d.fld (R.SNS_STATUS k) F.SNS_STATUS_lanes = (if byteAt e 20 = 1 then 0 else if byteAt e 20 = 2 then 1 else 2) ∧
      (auth ≠ 2 → mget (t.d.port k).vcs (byteAt e 19) = some (le e 16 2) ∧ (t.d.port k).mbps = le e 22 2) ∧
      (auth = 2 → t.d.fld (R.SNS_STATUS k) F.SNS_STATUS_svc = 0 ∧ (t.d.port k).vcs = (s.here.port k).vcs) ∧
      (∀ j, j ≠ k → t.d.port j = s.here.port j) ∧ t.d.cores = s.here.cores) ∧
  (∀ (s : State) (q : Nat) (e : List Byte) (x : Sq) (c : Cq), s.here.accepts 0x25 q e x c →
    let k := byteAt e 18
    let vc := byteAt e 19
    (4 ≤ k ∨ mget (s.here.port k).vcs vc = none → Answers (.detachSensor q e) s fun t => s.onlyQueues t ∧ s.here.answered t.d q e x c 8 []) ∧
    (k < 4 → mget (s.here.port k).vcs vc ≠ none →
      Answers (.detachSensor q e) s fun t => t = { s with d := t.d } ∧ s.here.answered t.d q e x c 0 [] ∧
        (t.d.port k).vcs = mdel (s.here.port k).vcs vc ∧ (∀ j, j ≠ k → t.d.port j = s.here.port j) ∧
        (mdel (s.here.port k).vcs vc = [] → (t.d.port k).store = [] ∧ t.d.fld (R.SNS_STATUS k) F.SNS_STATUS_auth = 0) ∧
        t.d.cores = s.here.cores)) ∧
  (∀ (s : State) (q n : Nat) (e data : List Byte) (x : Sq) (c : Cq), s.here.accepts 0x26 q e x c → byteAt e 18 < 4 → byteAt e 19 < 128 →
    0 < eLen e → eLen e ≤ 256 → (bit (byteAt e 20) 0 = true ∨ byteAt e 19 ≠ 0x50) →
    let m := min n (eLen e)
    Answers (.sensorXfer q e data n) s fun t => s.onlyQueues t ∧ s.here.answered t.d q e x c 0 (toLE 4 m) ∧
      ∃ more, t.d.host.sent = s.here.host.sent ++
        (if bit (byteAt e 20) 0 then .mem (eAddr e) (padTo data m) else .i3c (byteAt e 18) (byteAt e 19) (padTo data m)) :: more)

namespace Sys2Proof.Machine

/-- An access of n bytes at an offset that the aperture performs. -/
structure Dev.apOpen (d : Dev) (offset n : Nat) : Prop where
  link : d.flag R.HIF_LINK_STATUS F.HIF_LINK_STATUS_dl_up = true
  some : n ≠ 0
  fits : offset + n ≤ d.apSize
  awake : d.pwr.phase ≠ .night

/-- A byte of device memory is there for the host (R229, R359). -/
def Dev.apThere (d : Dev) (a : Nat) : Bool := d.pwr.booted && (rangeOf a).isSome

/-- Nothing changes but the host interface and registers. -/
def State.onlyHost (s t : State) : Prop := t = { s with d := { s.here with host := t.d.host, regs := t.d.regs } }

end Sys2Proof.Machine

/-- APERTURE_READ, APERTURE_WRITE and HIF_APERTURE_BASE_HI_WRITE (R229, R350, R351). -/
def Obligations.ApertureAccess : Prop :=
  (∀ (s : State) (o n : Nat), s.here.apOpen o n →
    let a := s.here.host.apBase + o
    Answers (.apertureRead o n) s fun t => t = { s with d := t.d } ∧
      (∃ mid, t.d.host.sent = s.here.host.sent ++ mid ++
        [.cpl ((span a n).map fun x => if s.here.apThere x then s.here.rd x else 0)
          ((span a n).any fun x => s.here.apThere x && s.here.poisonAt x)]) ∧
      (s.here.mem.chk = [] → t.d.mem = s.here.mem) ∧ t.d.cores = s.here.cores) ∧
  (∀ (s : State) (o : Nat) (data : List Byte), s.here.apOpen o data.length → s.here.host.apBase + o + data.length ≤ dramBase →
    s.here.mem.chk = [] →
    let a := s.here.host.apBase + o
    Answers (.apertureWrite o data false) s fun t =>
      t = { s with d := { s.here with mem := t.d.mem, regs := t.d.regs, recov := t.d.recov } } ∧
      (∀ x, t.d.rd x = if a ≤ x ∧ x < a + data.length ∧ s.here.apThere x = true then data.getD (x - a) 0 else s.here.rd x) ∧
      ∀ r, r ≠ R.TEL_LOG_HEAD → t.d.reg r = s.here.reg r) ∧
  (∀ (s : State) (o : Nat) (data : List Byte), s.here.apOpen o data.length →
    Answers (.apertureWrite o data true) s fun t =>
      t = { s with d := { s.here with host := t.d.host, regs := t.d.regs, recov := t.d.recov } } ∧
      t.d.flag R.HIF_ERR F.HIF_ERR_poisoned_write = true ∧ t.d.host.cfg.aerPoisoned = true) ∧
  (∀ (s : State) (v : Word), s.here.regOpen R.HIF_APERTURE_BASE_HI = true →
    let base := 2 ^ 32 * (v.toNat % 2 ^ 16) + 2 ^ 24 * s.here.fld R.HIF_APERTURE_BASE_LO F.HIF_APERTURE_BASE_LO_base_lo
    (base + s.here.apSize ≤ 2 ^ 48 → Answers (.hifApertureBaseHiWrite v) s fun t => s.onlyHost t ∧
      t.d.host = { s.here.host with apBase := base } ∧ t.d.reg R.HIF_APERTURE_BASE_HI = v.toNat % 2 ^ 16 ∧
      ∀ r, r ≠ R.HIF_APERTURE_BASE_HI → t.d.reg r = s.here.reg r) ∧
    (2 ^ 48 < base + s.here.apSize → Answers (.hifApertureBaseHiWrite v) s fun t => s.onlyHost t ∧
      t.d.host.apBase = s.here.host.apBase ∧ t.d.flag R.HIF_ERR F.HIF_ERR_ap_base_err = true ∧
      ∀ r, r ≠ R.HIF_ERR → t.d.reg r = s.here.reg r))

/-- Configuration space, MSI-X and the link (R344, R345, R353, R359, R363 to R365). -/
def Obligations.HostLink : Prop :=
  (∀ (s : State) (w : Bool) (o : Nat) (v : Word), s.here.pins.perstLow = false → o < 4096 →
    (s.here.host.cfgLoaded = false → Answers (.configRequest w o v) s fun t => s.onlyHost t ∧
      t.d.host = { s.here.host with sent := s.here.host.sent ++ [.retry] } ∧ t.d.regs = s.here.regs) ∧
    (s.here.host.cfgLoaded = true → w = false →
      Answers (.configRequest w o v) s fun t => t = { s with d := { s.here with host := t.d.host, freeCtr := t.d.freeCtr } } ∧
        ∃ x, t.d.host = { s.here.host with sent := s.here.host.sent ++ [.cfgCpl x] } ∧
          (o / 4 = 0 → x = 0x77201F5D) ∧ (o / 4 = 1 → x = s.here.host.cfg.command.toNat + 2 ^ 20) ∧
          (s.here.cfgReg (o / 4 * 4) = none → x < 2 ^ 32) ∧ (o / 4 = 0x53 → x = s.here.nv.serial % 2 ^ 32) ∧
          (o / 4 = 0x54 → x = s.here.nv.serial / 2 ^ 32 % 2 ^ 32)) ∧
    (s.here.host.cfgLoaded = true → w = true →
      (∀ k, k < 6 → o / 4 = 4 + k → Answers (.configRequest w o v) s fun t => s.onlyHost t ∧ t.d.regs = s.here.regs ∧
        t.d.host = { s.here.host with cfg := { s.here.host.cfg with bars := s.here.host.cfg.bars.set k v } }) ∧
      (o / 4 = 1 → Answers (.configRequest w o v) s fun t => s.onlyHost t ∧
        t.d.host.cfg = { s.here.host.cfg with command := BitVec.ofNat 16 (v.toNat &&& 0x0546) } ∧
        (s.here.flag R.HIF_LINK_STATUS F.HIF_LINK_STATUS_dl_up = true → v.getLsbD 2 = true →
          t.d.host.held = [] ∧ t.d.host.lossAt = none ∧ ∃ more, t.d.host.sent = s.here.host.sent ++ s.here.host.held ++ more) ∧
        (v.getLsbD 2 = false → t.d.host.held = s.here.host.held ∧ t.d.host.sent = s.here.host.sent)))) ∧
  (∀ (s : State) (v : Option Nat), s.here.linkUp = true → s.here.host.cfg.msixEn = true →
    (match v with
      | some k => k < 128 ∧ s.here.host.cfg.funcMask = false
      | none => True) →
    let free := fun k => decide (v = some k) || s.here.host.unmasked.contains k
    Answers (.msixUnmask v) s fun t => s.onlyHost t ∧ t.d.regs = s.here.regs ∧ t.d.host.cfg.funcMask = false ∧
      t.d.host.sent = s.here.host.sent ++ (s.here.host.pba.filter free).map .msix ∧
      t.d.host.pba = s.here.host.pba.filter (fun k => !free k) ∧ (∀ k, k ∈ t.d.host.unmasked ↔ free k = true) ∧
      t.d.host.held = s.here.host.held) ∧
  (∀ s : State, s.here.flag R.HIF_LINK_STATUS F.HIF_LINK_STATUS_dl_up = true →
    Answers .dlDown s fun t => s.onlyHost t ∧ t.d.host = { s.here.host with lossAt := s.here.host.lossAt.or (some s.tb.time) } ∧
      t.d.flag R.HIF_LINK_STATUS F.HIF_LINK_STATUS_dl_up = false ∧
      t.d.fld R.HIF_LINK_STATUS F.HIF_LINK_STATUS_lost =
        min (2 ^ F.HIF_LINK_STATUS_lost.w - 1) (s.here.fld R.HIF_LINK_STATUS F.HIF_LINK_STATUS_lost + 1) ∧
      ∀ r, r ≠ R.HIF_LINK_STATUS → t.d.reg r = s.here.reg r) ∧
  (∀ (s : State) (speed width : Nat), s.here.pins.perstLow = false → s.here.pins.poresetLow = false → s.here.pwr.tripped = false →
    s.here.railsUp = true → s.here.pwr.phase = .ready →
    ((∀ e, s.here.holdEnd = some e → s.tb.time < e) → Answers (.dlUp speed width) s fun t => s.onlyHost t ∧
      t.d.flag R.HIF_LINK_STATUS F.HIF_LINK_STATUS_dl_up = true ∧
      t.d.fld R.HIF_LINK_STATUS F.HIF_LINK_STATUS_speed = speed % 2 ^ F.HIF_LINK_STATUS_speed.w ∧
      t.d.fld R.HIF_LINK_STATUS F.HIF_LINK_STATUS_width = width % 2 ^ F.HIF_LINK_STATUS_width.w ∧
      (s.here.host.cfg.command.getLsbD 2 = true → t.d.host.held = [] ∧ t.d.host.lossAt = none ∧
        ∃ more, t.d.host.sent = s.here.host.sent ++ s.here.host.held ++ more) ∧
      (s.here.host.cfg.command.getLsbD 2 = false → t.d.host = s.here.host)) ∧
    (∀ e, s.here.holdEnd = some e → e ≤ s.tb.time → Answers (.dlUp speed width) s fun t => t = { s with d := t.d } ∧
      t.d.flag R.HIF_LINK_STATUS F.HIF_LINK_STATUS_dl_up = true ∧ t.d.pwr.phase = .dusk ∧ t.d.pwr.duskStart = some s.tb.time ∧
      t.d.host.held = [] ∧ t.d.cores = s.here.cores)) ∧
  (∀ (s : State) (e : Nat), s.d.holdEnd = some e → s.d.pwr.phase = .ready →
    Answers .linkHoldExpiry s fun t => t = { s with tb := { s.tb with time := max s.tb.time e }, d := t.d } ∧
      t.d.pwr.phase = .dusk ∧ t.d.pwr.duskStart = some (max s.tb.time e) ∧ t.d.host = s.d.host ∧ t.d.cores = s.d.cores) ∧
  (∀ s : State, s.here.linkUp = true → Answers .completionTimeout s fun t => s.onlyHost t ∧
    t.d.flag R.HIF_ERR F.HIF_ERR_cpl_timeout = true ∧ ∀ r, r ≠ R.HIF_ERR → t.d.reg r = s.here.reg r) ∧
  (∀ s : State, s.here.pins.poresetLow = false → Answers .perstNDeassert s fun t =>
    t = { s with d := { s.here with pins := { s.here.pins with perstLow := false }, host := { s.here.host with cfgLoaded := t.d.host.cfgLoaded } } } ∧
      (s.here.pwr.fw ≠ none → t.d.host.cfgLoaded = true))

/-- DRAM_REQUEST, DRAM_REFRESH_COMMAND and DRAM_TEMP_SAMPLE (R394 to R400). -/
def Obligations.DramController : Prop :=
  (∀ (s : State) (a : Nat) (l : List (Option Byte)), dramBase ≤ a → a < dramBase + 4 * 2 ^ 32 → s.here.dramUp (chanOf a) = true →
    (∃ e ∈ (s.here.dch (chanOf a)).wq, e.1 = a / 64) ∨ (s.here.dch (chanOf a)).wq.length < 64 →
    Answers (.dramRequest a (some l)) s fun t => t = { s with d := { s.here with dram := t.d.dram } } ∧
      (∀ x, t.d.rd x = if x / 64 = a / 64 then (l.getD (x % 64) none).getD (s.here.rd x) else s.here.rd x) ∧
      ∀ c, (t.d.dch c).rq = (s.here.dch c).rq) ∧
  (∀ (s : State) (a : Nat), dramBase ≤ a → a < dramBase + 4 * 2 ^ 32 → s.here.dramUp (chanOf a) = true →
    let q := s.here.dch (chanOf a)
    let data := s.here.rdN (64 * (a / 64)) 64
    ((∃ l, s.here.queued a = some l ∧ ∀ i, i < 64 → l.getD i none ≠ none) →
      Answers (.dramRequest a none) s fun t => t = { s with d := { s.here with dram := t.d.dram } } ∧
        t.d.dch (chanOf a) = { q with lastRead := some (a / 64, data) } ∧ ∀ c, c ≠ chanOf a → t.d.dch c = s.here.dch c) ∧
    ((s.here.queued a = none ∨ ∃ l i, s.here.queued a = some l ∧ i < 64 ∧ l.getD i none = none) → q.rq.length < 64 →
      Answers (.dramRequest a none) s fun t => t = { s with d := { s.here with dram := t.d.dram } } ∧
        t.d.dch (chanOf a) = { q with rq := q.rq ++ [(a / 64, 0, data)] } ∧ ∀ c, c ≠ chanOf a → t.d.dch c = s.here.dch c)) ∧
  (∀ (s : State) (ch rank : Nat), ch < 8 → rank < 5 → s.here.dramUp ch = true →
    let q := s.here.dch ch
    let pick := q.refreshPick rank
    Answers (.dramRefreshCommand ch rank) s fun t => t = { s with d := { s.here with dram := t.d.dram } } ∧
      (∀ b, b < 16 → mgetD (t.d.dch ch).debt (16 * rank + b) 0 =
        max (-128) (mgetD q.debt (16 * rank + b) 0 + if pick = some b then 15 else -1)) ∧
      (∀ b, pick = some b → b < 16 ∧ mget (t.d.dch ch).rows (16 * rank + b) = none ∧ mget (t.d.dch ch).rot rank = some b) ∧
      (∀ b, b < 16 → mgetD q.debt (16 * rank + b) 0 ≤ -128 → ∃ c, pick = some c ∧ mgetD q.debt (16 * rank + c) 0 ≤ -128) ∧
      (t.d.dch ch).wq = q.wq ∧ (t.d.dch ch).rq = q.rq ∧ ∀ c, c ≠ ch → t.d.dch c = s.here.dch c) ∧
  (∀ (s : State) (temps : List Int) (T : Int), s.here.working = true → (∃ i, i < 5 ∧ temps.getD i 0 = T) →
    (∀ i, i < 5 → temps.getD i 0 ≤ T) →
    Answers (.dramTempSample temps) s fun t => t = { s with d := t.d } ∧
      t.d.fld R.DRC_TEMP1 F.DRC_TEMP1_max = toU T 8 ∧ t.d.fld R.DRC_TEMP1 F.DRC_TEMP1_die4 = toU (temps.getD 4 0) 8 ∧
      (∀ i, i < 4 → bits (t.d.reg R.DRC_TEMP0) (8 * i) 8 = toU (temps.getD i 0) 8) ∧
      (t.d.flag R.DRC_STATUS F.DRC_STATUS_refresh_x2 = true ↔
        ∃ i, i < 5 ∧ (85 < temps.getD i 0 ∨ (i ∈ s.here.dram.hot ∧ 82 < temps.getD i 0))) ∧
      (t.d.dram.throttled = true ↔ 100 < T ∨ (s.here.dram.throttled = true ∧ 97 < T)) ∧
      (t.d.dram.throttled ≠ s.here.dram.throttled → t.d.flag R.DRC_STATUS F.DRC_STATUS_throttled = t.d.dram.throttled) ∧
      t.d.mem = s.here.mem ∧ t.d.cores = s.here.cores)

/-- MIGRATION_LINE_COPY, the patrol scrubs and CORRECTION_WRITEBACK (R240, R241, R243, R401, R405, R406, R408). -/
def Obligations.MigrationAndScrub : Prop :=
  (∀ (s : State) (ch : Nat), ch < 8 → s.here.dramUp ch = true → s.here.mem.chk = [] →
    s.here.fld (R.DRC_CH_MAP ch) F.DRC_CH_MAP_spare = 1 → s.here.flag (R.DRC_CH_MAP ch) F.DRC_CH_MAP_frozen = false →
    let r := s.here.fld (R.DRC_CH_MAP ch) F.DRC_CH_MAP_mig_rank
    let p := s.here.fld (R.DRC_CH_MIG ch) F.DRC_CH_MIG_ptr
    (∀ k, k < 4 → s.here.mapDie ch k ≠ 4) → s.here.mapDie ch r < 4 →
    (∀ e ∈ (s.here.dch ch).wq, e.1 ≠ (dramBase + r * 2 ^ 32 + 512 * p + 64 * ch) / 64) →
    Answers (.migrationLineCopy ch) s fun t => t = { s with d := t.d } ∧ (∀ a, a < dramTop → t.d.rd a = s.here.rd a) ∧
      t.d.fld (R.DRC_CH_MIG ch) F.DRC_CH_MIG_ptr = (p + 1) % 2 ^ 23 ∧
      t.d.fld (R.DRC_CH_MAP ch) F.DRC_CH_MAP_spare = (if p + 1 = 2 ^ 23 then 2 else 1) ∧
      (p + 1 = 2 ^ 23 → t.d.mapDie ch r = 4) ∧ (∀ k, k < 4 → k ≠ r → t.d.mapDie ch k = s.here.mapDie ch k) ∧
      t.d.cores = s.here.cores) ∧
  (∀ (s : State) (l : List Nat), s.here.working = true → s.here.mem.chk = [] →
    let line := s.here.fld R.DRC_SCRUB F.DRC_SCRUB_line
    let rank := s.here.fld R.DRC_SCRUB F.DRC_SCRUB_rank
    let passes := s.here.fld R.DRC_SCRUB F.DRC_SCRUB_passes
    Answers (.dramScrubRead l) s fun t => t = { s with d := { s.here with regs := t.d.regs } } ∧
      t.d.fld R.DRC_SCRUB F.DRC_SCRUB_line = (line + 1) % 2 ^ 23 ∧
      t.d.fld R.DRC_SCRUB F.DRC_SCRUB_rank = (if line + 1 < 2 ^ 23 then rank else if rank < 4 then rank + 1 else 0) ∧
      t.d.fld R.DRC_SCRUB F.DRC_SCRUB_passes =
        (if line + 1 < 2 ^ 23 ∨ rank < 4 then passes else (passes + 1) % 2 ^ F.DRC_SCRUB_passes.w) ∧
      ∀ o, o ≠ R.DRC_SCRUB → t.d.reg o = s.here.reg o) ∧
  (∀ (s : State) (st : Nat), st < 3 → s.here.working = true →
    let i := mgetD s.here.mem.scrub st 0
    let cw := scrubCw st i
    let g := eccReg (32 * cw)
    i < scrubSize st → Answers (.cabinetScrubRead st) s fun t => t = { s with d := t.d } ∧
      mgetD t.d.mem.scrub st 0 = (i + 1) % scrubSize st ∧ t.d.mem.cells = s.here.mem.cells ∧ t.d.cores = s.here.cores ∧
      (s.here.mem.judge cw = .ok → t.d = { s.here with mem := { s.here.mem with scrub := t.d.mem.scrub } }) ∧
      ((∃ q e, s.here.mem.judge cw = .fix q e) → cw ∈ t.d.mem.wback ∧ t.d.mem.chk = s.here.mem.chk ∧
        t.d.fld g F.CAB_ECC_COUNT_corrected = min (2 ^ F.CAB_ECC_COUNT_corrected.w - 1) (s.here.fld g F.CAB_ECC_COUNT_corrected + 1)) ∧
      (s.here.mem.judge cw = .bad → t.d.mem.poisoned cw = true ∧ mget t.d.mem.chk cw = none ∧
        t.d.fld g F.CAB_ECC_COUNT_uncorrectable =
          min (2 ^ F.CAB_ECC_COUNT_uncorrectable.w - 1) (s.here.fld g F.CAB_ECC_COUNT_uncorrectable + 1))) ∧
  (∀ (s : State) (cw : Nat) (l : List Nat), s.here.working = true → s.here.mem.wback = cw :: l →
    Answers .correctionWriteback s fun t => t = { s with d := { s.here with mem := t.d.mem } } ∧
      (∀ p, t.d.mem.byte p = s.here.mem.byte p) ∧ (∀ k, t.d.mem.poisoned k = s.here.mem.poisoned k) ∧
      t.d.mem.wback = l.filter (· ≠ cw) ∧ (s.here.mem.judge cw ≠ .bad → mget t.d.mem.chk cw = none))

namespace Sys2Proof.Machine

/-- The device is powered, and a level-3 reset that it starts itself is not its fourth within ten minutes (R440). -/
structure Dev.canReset (d : Dev) (self : Bool) : Prop where
  powered : d.pwr.groups ≠ 0 ∨ d.pwr.phase = .night
  notTripped : d.pwr.tripped = false
  selfOk : self = true → d.working = true ∧ (d.recov.l3.filter fun t => d.now < t + tenMinutes).length < 3

/-- What a level-3 reset leaves (R436, R437). -/
def Dev.level3Reset (d t : Dev) (code : Nat) (silent : Option Nat) (keep : Bool) : Prop :=
  t.pwr.phase = .resetting ∧ t.fld R.GLB_ALIVE F.GLB_ALIVE_state = 2 ∧
  t.fld R.GLB_ALIVE F.GLB_ALIVE_resets = (d.fld R.GLB_ALIVE F.GLB_ALIVE_resets + 1) % 256 ∧
  t.flag R.HIF_LINK_STATUS F.HIF_LINK_STATUS_dl_up = false ∧ t.pwr.booted = false ∧ t.pwr.fw = none ∧ t.pwr.groups = 1 ∧
  t.cores = [] ∧ t.sched.frames = [] ∧ t.que.sqs = [] ∧ t.que.cqs = [] ∧ t.que.rings = [] ∧ t.que.cmds = [] ∧ t.que.wait = [] ∧
  (∀ id st, mget d.streams id = some st → ∃ u, mget t.streams id = some u ∧ u.cur = st.cur ∧ u.nextFrame = st.nextFrame ∧
    u.chunks = [] ∧ u.history = []) ∧
  (∀ id, mget d.streams id = none → mget t.streams id = none) ∧ t.fab.map = d.fab.map ∧ t.images = d.images ∧
  t.recov.l3cause = some (code, silent) ∧
  (keep = true → t.host.cfg = d.host.cfg ∧ t.host.cfgLoaded = d.host.cfgLoaded) ∧ (keep = false → t.host.cfg = {} ∧ t.host.cfgLoaded = false)

/-- Command i at device time T starts a level-3 reset. -/
def StartsLevel3 (i : Instr) (s : State) (T code : Nat) (silent : Option Nat) (self keep : Bool) : Prop :=
  Dev.canReset { s.d with now := T } self →
    Answers i s fun t => t = { s with tb := { s.tb with time := T }, d := t.d } ∧ Dev.level3Reset s.d t.d code silent keep

/-- A level-1 reset of stack k has started at time T (R424, R426). -/
def Dev.level1Reset (d t : Dev) (T k : Nat) : Prop :=
  (k, T) ∈ t.recov.l1 ∧ (∃ r ∈ t.recov.resets, k ∈ r.onStacks ∧ (k, T, ResetKind.one) ∈ r.resetting) ∧ t.stackHeld k = true ∧
  (∀ c ∈ coresOf k, (t.core c).run = none) ∧
  (let f := if k = 0 then F.TEL_RESETS_l1_stack0 else F.TEL_RESETS_l1_stack1
   t.fld R.TEL_RESETS f = min 255 (d.fld R.TEL_RESETS f + 1))

/-- Fewer than three level-1 resets of stack k within the last 10 s (R426). -/
def Dev.level1Room (d : Dev) (k : Nat) : Prop := ((d.recov.l1.filter fun x => d.now < x.2 + 10 * 10 ^ 8).filter fun x => x.1 = k).length < 3

/-- The time of a sample of a unit. -/
def State.sampleAt (s : State) (u : Nat) : Nat :=
  max s.tb.time (((mget s.d.recov.samples u).map fun o => o.2.2 + s.d.windowOf u / 8).getD s.tb.time)

/-- The watch samples the unit at time T. -/
structure State.sampled (s : State) (u T : Nat) : Prop where
  time : T = s.sampleAt u
  working : s.d.working = true
  unit : (isCoreUnit u || isMedia u || isDma u) = true
  inService : s.d.unitOut u = false
  clocked : s.d.clocked 4 = true

end Sys2Proof.Machine

/-- Level-3 resets (R359, R360, R420 to R440, R481). -/
def Obligations.Level3Reset : Prop :=
  (∀ s : State, s.d.pins.perstLow = false → s.d.pins.poresetLow = false →
    StartsLevel3 .hotReset s s.tb.time 0 none false false ∧
    (StartsLevel3 .perstNAssert s s.tb.time 0 none false false ∧ Answers .perstNAssert s fun t => t.d.pins.perstLow = true)) ∧
  (∀ (s : State) (cc : Nat), cc < 4 → StartsLevel3 (.ccWatchdogExpiry cc) s s.tb.time 0xB (some (0x30 + cc)) true true ∧
    StartsLevel3 (.firmwareException cc) s s.tb.time 0 none true true) ∧
  (∀ (s : State) (u : Nat) (x : Nat × Nat), s.d.recov.units.find? (fun x => x.1 = u) = some x →
    StartsLevel3 (.unitResetTimeout u) s (max s.tb.time (x.2 + 500000)) 0xB none true true) ∧
  (∀ (s : State) (k a : Nat), s.d.oldestReset = some (k, a, .two) →
    StartsLevel3 .computeResetTimeout s (max s.tb.time (a + 6000000)) 0xB none true true) ∧
  (∀ (s : State) (a : Nat), mget s.d.clk.switchAt 4 = some a →
    StartsLevel3 .clockEscapeAuto s (max s.tb.time (a + 100000)) 0 none true true) ∧
  (∀ (s : State) (v : Word) (k : Nat), 2 ≤ k → k < 6 → v.toNat = 2 ^ k →
    StartsLevel3 (.cprClkEscWrite v) s s.tb.time 0 none false true) ∧
  (∀ (s : State) (cc : Nat) (i : Instr), cc < 4 → i = .ccWatchdogExpiry cc ∨ i = .firmwareException cc → s.here.working = true →
    s.here.pwr.groups ≠ 0 → s.here.pwr.tripped = false →
    3 ≤ (s.here.recov.l3.filter fun t => s.tb.time < t + tenMinutes).length →
    Answers i s fun t => t = { s with d := t.d } ∧ t.d.pwr.phase = .dusk ∧ t.d.recov.limit = true ∧
      bit (t.d.fld R.TEL_REPLACE F.TEL_REPLACE_cause) 4 = true)

/-- HANG_WATCH_SAMPLE, and CPR_CLK_ESC of an array domain (R418, R419, R421, R422, R424, R426, R481). -/
def Obligations.HangWatch : Prop :=
  (∀ (s : State) (u T : Nat), s.sampled u T →
    let d := { s.d with now := T }
    (d.unitBusy u = false → Answers (.hangWatchSample u) s fun t => ∃ f,
      t = { s with tb := { s.tb with time := T }, d := { d with recov := { d.recov with samples := mput d.recov.samples u (0, f, T) } } }) ∧
    (d.unitBusy u = true → (∀ o, mget d.recov.samples u = some o → o.1 ≠ d.progress u + 1) →
      Answers (.hangWatchSample u) s fun t =>
        t = { s with tb := { s.tb with time := T }, d := { d with recov := { d.recov with samples := mput d.recov.samples u (d.progress u + 1, T, T) } } }) ∧
    (∀ f l, d.unitBusy u = true → mget d.recov.samples u = some (d.progress u + 1, f, l) → f + d.windowOf u ≤ T →
      let k := if u < 8 then stackOf u else u - 8
      (isCoreUnit u = true → (∀ c ∈ coresOf k, ∀ r, (d.core c).run = some r → r.replay = false) →
        (∀ r ∈ d.recov.resets, ∀ x ∈ r.resetting, x.1 ≠ k → x.2.2 ≠ .one) → d.level1Room k →
        Answers (.hangWatchSample u) s fun t => t = { s with tb := { s.tb with time := T }, d := t.d } ∧
          Dev.level1Reset d t.d T k ∧ t.d.fld R.TEL_HANG_STATUS F.TEL_HANG_STATUS_last_unit = u ∧
          t.d.fld R.TEL_HANG_STATUS F.TEL_HANG_STATUS_last_level = 1 ∧ mget t.d.recov.samples u = none) ∧
      (isCoreUnit u = false → (∀ x ∈ d.recov.units, 0x10 ≤ u → u < 0x18 → x.1 ≠ 0x20 + (u - 0x10) / 2) →
        Answers (.hangWatchSample u) s fun t =>
          t = { s with tb := { s.tb with time := T }, d := { d with regs := t.d.regs, recov := t.d.recov } } ∧ (u, T) ∈ t.d.recov.units ∧
          t.d.fld R.TEL_RESETS F.TEL_RESETS_unit = min 255 (d.fld R.TEL_RESETS F.TEL_RESETS_unit + 1) ∧
          t.d.fld R.TEL_HANG_STATUS F.TEL_HANG_STATUS_last_unit = unitCode u ∧ mget t.d.recov.samples u = none ∧
          (u ∈ t.d.recov.deadUnits ↔ 2 ≤ ((d.recov.unitHangs.filter fun x => T < x.2 + 60 * 10 ^ 8).filter fun x => x.1 = u).length)))) ∧
  (∀ (s : State) (v : Word) (k : Nat), k < 2 → v.toNat = 2 ^ k → s.here.level1Room k →
    Answers (.cprClkEscWrite v) s fun t => t = { s with d := t.d } ∧ Dev.level1Reset s.here t.d s.tb.time k ∧
      mget t.d.clk.conn k = some (s.here.fld R.CPR_CLK_SEL ⟨2 * k, 2⟩) ∧ mget t.d.clk.switchAt k = none ∧
      t.d.flag R.CPR_CLK_STATUS F.CPR_CLK_STATUS_escaped = true)

/-- The ends of resets, and LOG_SECOND_END (R421, R424, R426, R431, R435, R444). -/
def Obligations.ResetsEnd : Prop :=
  (∀ (s : State) (u : Nat) (x : Nat × Nat), s.here.recov.units.find? (fun x => x.1 = u) = some x → s.here.ringBusy u = false →
    Answers (.unitResetComplete u) s fun t => t = { s with d := t.d } ∧
      t.d.recov.units = s.here.recov.units.filter (fun y => y.1 ≠ u) ∧
      (0x200 ≤ u → t.d.que.evSeq = (s.here.que.evSeq + 1) % 2 ^ 32 ∧ t.d.streams = s.here.streams ∧ t.d.sched = s.here.sched ∧
        t.d.que.cmds = s.here.que.cmds) ∧
      (0x100 ≤ u → u < 0x140 → (∀ c ∈ t.d.que.cmds, c.q ≠ u - 0x100) ∧ (∀ r ∈ t.d.readouts, r.q ≠ u - 0x100)) ∧
      (0x10 ≤ u → u < 0x18 → (t.d.engine (u - 0x10)).loads = [] ∧ (t.d.engine (u - 0x10)).stalled = false)) ∧
  (∀ (s : State) (x : Nat × Nat × ResetKind) (r : ResetRun), s.here.oldestReset = some x → s.here.resetOn x.1 = some r → x ∈ r.resetting →
    Answers .computeResetComplete s fun t => t = { s with d := t.d } ∧
      (∀ y ∈ t.d.recov.resets, x.1 ∈ y.onStacks → ∀ z ∈ y.resetting, z.2 ≠ x.2) ∧
      (r.replays = [] → (∀ z ∈ r.resetting, z.1 = x.1 → z.2 = x.2) → x.1 < 2 → t.d.stackHeld x.1 = false ∧
        ∀ c ∈ coresOf x.1, (t.d.core c).run = none ∧ t.d.reg (R.MC_SEQ_RETIRED c) = 0)) ∧
  (∀ (s : State) (k a : Nat), s.d.oldestReset = some (k, a, .one) →
    let T := max s.tb.time (a + 3000000)
    (∀ b ∈ s.d.recov.l2, b + 60 * 10 ^ 8 ≤ T) →
    Answers .computeResetTimeout s fun t => t = { s with tb := { s.tb with time := T }, d := t.d } ∧ t.d.recov.l2 = [T] ∧
      t.d.fld R.TEL_HANG_STATUS F.TEL_HANG_STATUS_last_level = 2 ∧
      t.d.fld R.TEL_RESETS F.TEL_RESETS_l2 = min 255 (s.d.fld R.TEL_RESETS F.TEL_RESETS_l2 + 1) ∧
      (∃ r ∈ t.d.recov.resets, 2 ≤ r.level ∧ ∀ j, j < 2 → j ∈ r.onStacks ∧ (j, T, ResetKind.two) ∈ r.resetting) ∧
      ∀ c, c < 8 → (t.d.core c).run = none) ∧
  (∀ s : State, let T := max s.tb.time ((s.d.recov.second + 1) * 10 ^ 8)
    Answers .logSecondEnd s fun t =>
      t = { s with tb := { s.tb with time := T }, d := { s.d with now := T, regs := t.d.regs, recov := t.d.recov } } ∧
      t.d.recov.second = T / 10 ^ 8 ∧ t.d.recov.secCount = [] ∧ (∀ o, o ≠ R.TEL_LOG_HEAD → t.d.reg o = s.d.reg o) ∧
      (s.d.recov.secCount.length ≤ 65536 → ∀ p ∈ s.d.recov.secCount, 64 < p.2 → ∃ e ∈ t.d.recov.log, e.code = p.1 / 256 ∧
        e.unit = p.1 % 256 ∧ e.flags = 1 ∧ e.frame = p.2 - 64 ∧ e.time = (s.d.recov.second + 1) * 10 ^ 8))

namespace Sys2Proof.Machine

/-- Nothing changes but ports and map, registers and the host interface. -/
def State.onlyFabric (s t : State) : Prop := t = { s with d := { s.here with fab := t.d.fab, regs := t.d.regs, host := t.d.host } }

/-- The other ports are as they were. -/
def Dev.otherPorts (d t : Dev) (k : Nat) : Prop := ∀ j, j ≠ k → t.fport j = d.fport j

/-- Entry j of the map in force now has the other side active. -/
def Dev.swapped (t : Dev) (j : Nat) (e : GEntry) : Prop :=
  ∃ m, t.fab.map = some m ∧ (m.entries[j]?).map (·.activeHome) = some (!e.activeHome)

end Sys2Proof.Machine

/-- Ports (R448 to R452, R464). -/
def Obligations.GoldomPorts : Prop :=
  (∀ (s : State) (k q : Nat), s.here.hears k = true →
    ((∀ x ∈ (s.here.fport k).replay, x.1 ≠ q) → exec (.linkAck k q) s = .next { s with d := s.here }) ∧
    (∀ i, (s.here.fport k).replay.findIdx? (fun x => decide (x.1 = q)) = some i →
      Answers (.linkAck k q) s fun t => s.onlyFabric t ∧ (t.d.fport k).naks = 0 ∧
        (∃ m, (t.d.fport k).replay = (s.here.fport k).replay.drop (i + 1) ++ m ∧ ∀ x ∈ m, x.2 ∈ (s.here.fport k).queue) ∧
        ((s.here.fport k).queue = [] → t.d.host = s.here.host ∧ s.here.otherPorts t.d k) ∧
        (s.here.fld (R.FAB_PORT_STATUS k) F.FAB_PORT_STATUS_svc ≠ 2 → t.d.regs = s.here.regs) ∧
        (s.here.fld (R.FAB_PORT_STATUS k) F.FAB_PORT_STATUS_svc = 2 → (s.here.fport k).queue = [] →
          (s.here.fport k).replay.length = i + 1 → t.d.portUp k = false))) ∧
  (∀ (s : State) (k q : Nat), s.here.hears k = true →
    let P := s.here.fport k
    let n := if P.nakSeq = q then P.naks + 1 else 1
    Answers (.linkNak k q) s fun t => s.onlyFabric t ∧ t.d.regs = s.here.regs ∧ s.here.otherPorts t.d k ∧
      (n < 8 → t.d.fport k = { P with naks := n, nakSeq := q } ∧ ∃ l, t.d.host.sent = s.here.host.sent ++ l ∧
        l.length = ((P.replay.dropWhile fun x => decide (x.1 ≠ q)).map fun x => (patch x.2.bytes 4 (toLE 2 x.1)).length / 32).sum) ∧
      (8 ≤ n → t.d.fport k = { P with naks := 0, nakSeq := q, training := true } ∧ ∃ f, t.d.host.sent = s.here.host.sent ++ [.flit k f])) ∧
  (∀ (s : State) (k vc n : Nat), s.here.hears k = true → vc < 4 →
    let P := s.here.fport k
    (P.queue = [] → Answers (.credit k vc n) s fun t => s.onlyFabric t ∧ t.d.host = s.here.host ∧ s.here.otherPorts t.d k ∧
      (t.d.fport k).replay = P.replay ∧ ∀ c, (t.d.fport k).credit c = if c = vc then min 32 (P.credit vc + n) else P.credit c) ∧
    (∀ p, P.queue = [p] → p.vc = vc → p.src = none → 1 ≤ n → P.training = false → P.replay.length < 128 →
      Answers (.credit k vc n) s fun t => s.onlyFabric t ∧ s.here.otherPorts t.d k ∧ t.d.regs = s.here.regs ∧
        (t.d.fport k).queue = [] ∧ (t.d.fport k).replay = P.replay ++ [(P.txSeq, p)] ∧ (t.d.fport k).txSeq = (P.txSeq + 1) % 4096 ∧
        (t.d.fport k).credit vc = min 32 (P.credit vc + n) - 1)) ∧
  (∀ (s : State) (k : Nat) (f : Flit), s.here.hears k = true → f.length = 36 → rsDecode f = .ok →
    let b := (f.drop 3).take 32
    let tag := byteAt f 35
    let P := s.here.fport k
    (bits tag 1 2 = 3 → byteAt b 0 = 1 → exec (.flitReceive k f) s = exec (.linkAck k (le b 1 2)) s) ∧
    (bits tag 1 2 = 3 → byteAt b 0 = 2 → exec (.flitReceive k f) s = exec (.linkNak k (le b 1 2)) s) ∧
    (bits tag 1 2 = 3 → byteAt b 0 = 3 → byteAt b 3 < 4 → exec (.flitReceive k f) s = exec (.credit k (byteAt b 3) (le b 4 2)) s) ∧
    (bits tag 1 2 = 1 → le b 4 2 % 4096 ≠ P.rxSeq → Answers (.flitReceive k f) s fun t => s.onlyFabric t ∧
      t.d.fport k = { P with rx := [] } ∧ s.here.otherPorts t.d k ∧ t.d.host = s.here.host ∧ t.d.regs = s.here.regs) ∧
    (bits tag 1 2 = 1 → le b 4 2 % 4096 = P.rxSeq → bit tag 3 = false → Answers (.flitReceive k f) s fun t => s.onlyFabric t ∧
      t.d.fport k = { P with rx := [b], rxVc := bits tag 4 2, rxPoison := bit tag 0 } ∧ t.d.host = s.here.host) ∧
    (bits tag 1 2 = 2 → P.rx ≠ [] → bit tag 3 = false → Answers (.flitReceive k f) s fun t => s.onlyFabric t ∧
      t.d.fport k = { P with rx := P.rx ++ [b], rxPoison := P.rxPoison || bit tag 0 } ∧ t.d.host = s.here.host) ∧
    (bit tag 3 = true → (bits tag 1 2 = 1 ∧ le b 4 2 % 4096 = P.rxSeq) ∨ (bits tag 1 2 = 2 ∧ P.rx ≠ []) →
      Answers (.flitReceive k f) s fun t => t = { s with d := t.d } ∧ ∃ more, t.d.host.sent = s.here.host.sent ++
        [.flit k (rsEncode (padTo (toLE 1 1 ++ toLE 2 P.rxSeq ++ toLE 1 0 ++ toLE 2 0) 32) (flitTag 3 true false 0))] ++ more)) ∧
  (∀ (s : State) (k : Nat) (f : Flit), s.here.hears k = true → f.length = 36 → rsDecode f = .bad →
    Answers (.flitReceive k f) s fun t => s.onlyFabric t ∧ s.here.otherPorts t.d k ∧
      t.d.fport k = { s.here.fport k with rx := [], rxPoison := false } ∧
      t.d.fld (R.FAB_PORT_ERR k) F.FAB_PORT_ERR_retries = min 255 (s.here.fld (R.FAB_PORT_ERR k) F.FAB_PORT_ERR_retries + 1) ∧
      t.d.host.sent = s.here.host.sent ++
        [.flit k (rsEncode (padTo (toLE 1 2 ++ toLE 2 (s.here.fport k).rxSeq ++ toLE 1 0 ++ toLE 2 0) 32) (flitTag 3 true false 0))]) ∧
  (∀ (s : State) (k : Nat), k < 4 → s.here.fld (R.FAB_PORT_STATUS k) F.FAB_PORT_STATUS_svc ≠ 0 →
    s.here.portUp k = true ∨ (s.here.fport k).training = true → k ∉ s.here.fab.joinWait →
    let P := s.here.fport k
    let n := min 15 (s.here.fld (R.FAB_PORT_ERR k) F.FAB_PORT_ERR_retrains + 1)
    (Answers (.retrain k true) s fun t => s.onlyFabric t ∧ t.d.portUp k = true ∧ (t.d.fport k).fails = 0 ∧ (t.d.fport k).naks = 0 ∧
      (t.d.fport k).training = false ∧ (∃ m, (t.d.fport k).replay = P.replay ++ m) ∧
      t.d.fld (R.FAB_PORT_ERR k) F.FAB_PORT_ERR_retrains = n) ∧
    (P.fails < 2 → Answers (.retrain k false) s fun t => s.onlyFabric t ∧ t.d.host = s.here.host ∧
      t.d.fport k = { P with fails := P.fails + 1, training := true } ∧ s.here.otherPorts t.d k ∧ t.d.portUp k = s.here.portUp k ∧
      t.d.fld (R.FAB_PORT_ERR k) F.FAB_PORT_ERR_retrains = n) ∧
    (2 ≤ P.fails → Answers (.retrain k false) s fun t => s.onlyFabric t ∧ t.d.portUp k = false ∧ (t.d.fport k).queue = [] ∧
      (t.d.fport k).training = false ∧ (t.d.fport k).tryAt = s.tb.time ∧ (t.d.fport k).replay = P.replay ∧
      t.d.fld (R.FAB_PORT_ERR k) F.FAB_PORT_ERR_dropped = min 255 (s.here.fld (R.FAB_PORT_ERR k) F.FAB_PORT_ERR_dropped + P.queue.length))) ∧
  (∀ (s : State) (k : Nat) (ok : Bool), k < 4 → s.d.fld (R.FAB_PORT_STATUS k) F.FAB_PORT_STATUS_svc = 1 → s.d.portUp k = false →
    (s.d.fport k).training = false →
    let T := max s.tb.time ((s.d.fport k).tryAt + 10 ^ 8)
    Answers (.portRetrainRetry k ok) s fun t =>
      t = { s with tb := { s.tb with time := T }, d := { s.d with now := T, fab := t.d.fab, regs := t.d.regs, host := t.d.host } } ∧
      t.d.portUp k = ok ∧ (t.d.fport k).tryAt = T ∧
      t.d.fld (R.FAB_PORT_ERR k) F.FAB_PORT_ERR_retrains = min 15 (s.d.fld (R.FAB_PORT_ERR k) F.FAB_PORT_ERR_retrains + 1)) ∧
  (∀ (s : State) (k : Nat) (v : Word), k < 4 → s.here.regOpen (R.FAB_PORT_CTL k) = true →
    let P := s.here.fport k
    let svc := s.here.fld (R.FAB_PORT_STATUS k) F.FAB_PORT_STATUS_svc
    Answers (.fabPortCtlWrite k v) s fun t => s.onlyFabric t ∧ t.d.flag (R.FAB_PORT_CTL k) F.FAB_PORT_CTL_enable = v.getLsbD 0 ∧
      s.here.otherPorts t.d k ∧
      (svc = 2 → t.d.fab = s.here.fab ∧ t.d.fld (R.FAB_PORT_STATUS k) F.FAB_PORT_STATUS_svc = 2 ∧
        t.d.flag (R.FAB_PORT_STATUS k) F.FAB_PORT_STATUS_enable_pending = v.getLsbD 0) ∧
      (v.getLsbD 0 = false → svc = 1 → s.here.portUp k = false → t.d.fld (R.FAB_PORT_STATUS k) F.FAB_PORT_STATUS_svc = 0 ∧
        (t.d.fport k).queue = []) ∧
      (v.getLsbD 0 = false → svc = 1 → s.here.portUp k = true → P.queue ≠ [] ∨ P.replay ≠ [] → t.d.fab = s.here.fab ∧
        t.d.fld (R.FAB_PORT_STATUS k) F.FAB_PORT_STATUS_svc = 2 ∧ t.d.portUp k = true) ∧
      (v.getLsbD 0 = false → svc = 1 → s.here.portUp k = true → P.queue = [] → P.replay = [] → t.d.portUp k = false ∧
        t.d.fld (R.FAB_PORT_STATUS k) F.FAB_PORT_STATUS_svc = b2n (s.here.flag (R.FAB_PORT_STATUS k) F.FAB_PORT_STATUS_enable_pending)) ∧
      (∀ m, v.getLsbD 0 = true → svc = 0 → s.here.fab.map = some m → k ∈ m.named →
        t.d.fld (R.FAB_PORT_STATUS k) F.FAB_PORT_STATUS_svc = 1 ∧ t.d.portUp k = false ∧
        t.d.fport k = { training := true, tryAt := s.tb.time }) ∧
      (v.getLsbD 0 = true → svc = 1 → t.d.fab = s.here.fab))


/-- MIRROR_CHUNK, MIRROR_CONFIG, COMMIT, STEP_DELTA and ACK (R460, R461). -/
def Obligations.MirroredStreams : Prop :=
  (∀ (s : State) (k id epoch stamp i : Nat) (b : List Byte) (j : Nat × GEntry) (st : Stream) (ep : Epoch), s.here.hears k = true →
    s.here.standbyEntry id = some j → mget s.here.streams id = some st → st.epoch? epoch = some ep → st.destroying = false →
    let p := if st.kind = 3 then ep.shaper.inPool else st.chunkPool
    b ≠ [] → b.length ≤ s.here.poolSize p → s.here.canPop p i → (st.kind = 0 → ep.codec.histMs = 0) →
    Answers (.mirrorChunk k id epoch stamp b) s fun t => t = { s with d := t.d } ∧
      (∃ y, mget t.d.streams id = some y ∧ y.chunks = st.chunks ++ [{ handle := mkHandle p i, len := b.length, epoch := epoch, stamp := stamp, num := if st.counted then some st.nextFrame else none }] ∧
        y.nextFrame = (if st.counted then (st.nextFrame + 1) % 2 ^ 32 else st.nextFrame) ∧ y.cur = st.cur) ∧
      mget t.d.bpm.bufs (mkHandle p i) = some ⟨.allocated, 1⟩ ∧
      (∃ y, mget t.d.fab.standby id = some y ∧ y.lastChunk = b ∧ y.committed = false) ∧
      t.d.sched.frames = s.here.sched.frames ∧ t.d.cores = s.here.cores) ∧
  (∀ (s : State) (k id epoch : Nat) (b : List Byte) (j : Nat × GEntry) (st : Stream) (old : Epoch), s.here.hears k = true →
    s.here.standbyEntry id = some j → mget s.here.streams id = some st → st.destroying = false → st.kind = 3 → byteAt b 0 = 2 →
    st.latest = some old → st.staged.length < 2 → 0 < (epoch + 65536 - old.num) % 65536 → (epoch + 65536 - old.num) % 65536 < 32768 →
    let w := b.drop 36
    configCovered 3 2 w.length w = true → s.here.sectionsOk 3 2 w old.codec = true →
    Answers (.mirrorConfig k id epoch b) s fun t => t = { s with d := t.d } ∧
      (∃ y, mget t.d.streams id = some y ∧ y.staged = st.staged ++ [{ num := epoch, codec := old.codec, shaper := { old.shaper with inPool := byteAt w 64 }, bind := old.bind, slots := [] }] ∧ y.cur = st.cur ∧ y.chunks = st.chunks) ∧
      (∀ x, x ≠ id → mget t.d.streams x = mget s.here.streams x) ∧ t.d.cores = s.here.cores) ∧
  (∀ (s : State) (k id : Nat), s.here.hears k = true →
    Answers (.commit k id) s fun t => t = { s with d := { s.here with fab := { s.here.fab with standby := t.d.fab.standby } } } ∧
      ∀ n, mget t.d.fab.standby n = (mget s.here.fab.standby n).map fun y => if n = id then { y with committed := true } else y) ∧
  (∀ (s : State) (k id : Nat) (b : List Byte) (j : Nat × GEntry) (st : Stream), s.here.hears k = true → s.here.standbyEntry id = some j →
    mget s.here.streams id = some st → le b 10 2 = 0 → st.counted = false ∨ st.chunks = [] →
    Answers (.stepDelta k id b) s fun t =>
      t = { s with d := { s.here with fab := { s.here.fab with standby := t.d.fab.standby }, streams := t.d.streams } } ∧
      mget t.d.streams id = some { st with fallback := byteAt b 6 = 1, budget := byteAt b 7, holdCount := le b 8 2, save := (List.range 24).map fun i => BitVec.ofNat 32 (le b (32 + 4 * i) 4), relNext := (le b 0 4 + 1) % 2 ^ 32, lastIndexed := some (le b 0 4), nextFrame := if st.counted then le b 12 4 else st.nextFrame } ∧
      (∀ x, x ≠ id → mget t.d.streams x = mget s.here.streams x) ∧
      ∃ y, mget t.d.fab.standby id = some y ∧ y.deltaFrame = some (le b 0 4)) ∧
  (∀ (s : State) (k id : Nat) (i : Instr), s.here.hears k = true → s.here.standbyEntry id = none →
    (∃ epoch stamp b, i = .mirrorChunk k id epoch stamp b) ∨ (∃ epoch b, i = .mirrorConfig k id epoch b) ∨ (∃ b, i = .stepDelta k id b) →
    exec i s = .next { s with d := s.here }) ∧
  (∀ (s : State) (k id : Nat), s.here.hears k = true → (∀ w ∈ s.here.fab.waitAck, w.1 ≠ id) →
    exec (.ack k id) s = .next { s with d := s.here }) ∧
  (∀ (s : State) (k id : Nat) (w : Nat × Nat × Nat × Nat) (c : Cmd) (x : Sq) (y : Cq), s.here.hears k = true → s.here.linkUp = true →
    s.here.fab.waitAck.find? (fun w => decide (w.1 = id)) = some w →
    s.here.que.cmds.find? (fun c => decide (c.q = w.2.1) && decide (c.cid = w.2.2.1)) = some c →
    (∀ z ∈ s.here.que.cmds, z.op ≠ 2) → mget s.here.que.sqs c.q = some x → mget s.here.que.cqs x.cq = some y → y.room = true →
    Answers (.ack k id) s fun t => t = { s with d := t.d } ∧ t.d.fab.waitAck = s.here.fab.waitAck.erase w ∧
      t.d.que.cmds = s.here.que.cmds.erase c ∧ t.d.streams = s.here.streams ∧ t.d.cores = s.here.cores ∧
      ∃ more, t.d.host.sent = s.here.host.sent ++
        .mem (y.base + 16 * y.tail) (cplEntry c.q c.cid 0 x.head y.phase (if c.op = 0x23 then toLE 4 c.arg else [])) :: more)

/-- NOTICE and IDENT (R457, R459, R462). -/
def Obligations.NoticesAndIdent : Prop :=
  (∀ (s : State) (k code dev id : Nat) (m : GMap), s.here.hears k = true → s.here.fab.map = some m → code ∈ [1, 2, 3] → dev ≠ m.self →
    dev < m.size → dev < 32 →
    (mget s.here.fab.seen dev = some code → exec (.notice k code dev id) s = .next { s with d := s.here }) ∧
    (mget s.here.fab.seen dev ≠ some code → Answers (.notice k code dev id) s fun t => t = { s with d := t.d } ∧
      mget t.d.fab.seen dev = some code ∧
      (∀ i, i < 32 → bit (t.d.reg R.FAB_PEERS) i = if i = dev then decide (code ≠ 2) else bit (s.here.reg R.FAB_PEERS) i) ∧
      (code = 2 → t.d.que.evSeq = (s.here.que.evSeq + 1) % 2 ^ 32 ∧ t.d.streams = s.here.streams ∧ t.d.fab.map = some m) ∧
      (code = 1 → ∀ x ∈ s.here.standbyOf dev, (mget s.here.streams x.2.standbyStream).isSome = true → t.d.swapped x.1 x.2) ∧
      t.d.cores = s.here.cores)) ∧
  (∀ (s : State) (k dev id j : Nat) (m : GMap) (e : GEntry), s.here.hears k = true → s.here.fab.map = some m →
    s.here.standbyEntry id = some (j, e) →
    (e.activeDev = dev → (mget s.here.streams id).isSome = true → Answers (.notice k 4 dev id) s fun t => t = { s with d := t.d } ∧
      t.d.swapped j e ∧ t.d.reg R.FAB_PEERS = s.here.reg R.FAB_PEERS ∧ t.d.cores = s.here.cores) ∧
    (e.activeDev ≠ dev → exec (.notice k 4 dev id) s = .next { s with d := s.here })) ∧
  (∀ (s : State) (k id serial : Nat) (m : GMap), s.here.hears k = true →
    let ok := decide (m.peer m.self k = id) && decide (((m.devs[id]?).map (·.serial)) = some serial)
    (s.here.fab.join = none → s.here.fab.map = some m → k ∉ s.here.fab.joinWait →
      Answers (.ident k id serial) s fun t => t = { s with d := { s.here with regs := t.d.regs } } ∧
        t.d.fld (R.FAB_PORT_STATUS k) F.FAB_PORT_STATUS_peer = id % 32 ∧
        t.d.flag (R.FAB_PORT_STATUS k) F.FAB_PORT_STATUS_miswired = !ok ∧ t.d.portUp k = true) ∧
    (s.here.fab.join = some m → k ∈ s.here.fab.joinWait → ok = false →
      Answers (.ident k id serial) s fun t => t = { s with d := t.d } ∧ t.d.fab.join = none ∧ t.d.fab.joinWait = [] ∧
        t.d.fab.map = s.here.fab.map ∧ (∀ c ∈ t.d.que.cmds, c.op ≠ 0x31) ∧ t.d.cores = s.here.cores) ∧
    (s.here.fab.join = some m → s.here.fab.joinWait = [k] → ok = true →
      Answers (.ident k id serial) s fun t => t = { s with d := t.d } ∧ t.d.fab.join = none ∧ t.d.fab.joinWait = [] ∧
        t.d.fab.map = some m ∧ (∀ c ∈ t.d.que.cmds, c.op ≠ 0x31) ∧ t.d.cores = s.here.cores))

/-- GROUP_JOIN, GROUP_LEAVE and MIRROR_ACK_TIMEOUT (R456, R457, R460, R464). -/
def Obligations.GroupCommands : Prop :=
  (∀ (s : State) (q : Nat) (e data : List Byte) (x : Sq) (c : Cq), s.here.accepts 0x31 q e x c → s.d.fab.join = none →
    let b := padTo data (eLen e)
    let m := parseMap b (byteAt e 16)
    let good := decide (32 + 32 * m.size + 16 * le b 16 2 ≤ eLen e) && decide (byteAt e 17 = m.size) &&
      decide ((m.devs[m.self]?).map (·.serial) = some s.here.nv.serial) && mapOk b m && s.here.entriesOk m
    let wait := m.named.filter fun k => s.here.flag (R.FAB_PORT_CTL k) F.FAB_PORT_CTL_enable
    (good = false → Answers (.groupJoin q e data) s fun t => s.onlyQueues t ∧ s.here.answered t.d q e x c 8 []) ∧
    (∀ o, good = true → s.here.fab.map = some o → o.groupId = m.groupId → m.gen ≤ o.gen →
      Answers (.groupJoin q e data) s fun t => s.onlyQueues t ∧ s.here.answered t.d q e x c 0x10 []) ∧
    (good = true → s.here.fab.map = none → wait = [] → (∀ k ∈ s.here.que.cmds, k.op ≠ 0x31) →
      Answers (.groupJoin q e data) s fun t => t = { s with d := t.d } ∧ s.here.answered t.d q e x c 0 [] ∧ t.d.fab.map = some m ∧
        t.d.fab.join = none ∧ t.d.fld R.FAB_GROUP F.FAB_GROUP_id = m.self % 32 ∧ t.d.fld R.FAB_GROUP F.FAB_GROUP_size = m.size % 64 ∧
        t.d.fld R.FAB_GROUP F.FAB_GROUP_topology = m.topo % 4 ∧ t.d.fld R.FAB_GROUP F.FAB_GROUP_gen = m.gen % 2 ^ 19 ∧
        t.d.reg R.FAB_PEERS = 0 ∧ t.d.streams = s.here.streams ∧ t.d.cores = s.here.cores) ∧
    (good = true → s.here.fab.map = none → wait ≠ [] →
      Answers (.groupJoin q e data) s fun t => t = { s with d := t.d } ∧ s.here.waits t.d q e x 0 0 ∧ t.d.fab.map = none ∧
        t.d.fab.join = some m ∧ t.d.fab.joinWait = wait ∧ (∀ k ∈ wait, t.d.fport k = { training := true, tryAt := s.tb.time } ∧
          t.d.portUp k = false ∧ t.d.fld (R.FAB_PORT_STATUS k) F.FAB_PORT_STATUS_svc = 1) ∧ t.d.cores = s.here.cores)) ∧
  (∀ (s : State) (q : Nat) (e : List Byte) (x : Sq) (c : Cq), s.here.accepts 0x32 q e x c →
    Answers (.groupLeave q e) s fun t => t = { s with d := t.d } ∧ s.here.answered t.d q e x c 0 [] ∧ t.d.fab.map = none ∧
      t.d.fab.standby = [] ∧ t.d.reg R.FAB_GROUP = 0 ∧ t.d.reg R.FAB_PEERS = 0 ∧ t.d.fld R.FAB_PROTECT F.FAB_PROTECT_active = 0 ∧
      t.d.fld R.FAB_PROTECT F.FAB_PROTECT_standby = 0 ∧ t.d.streams = s.here.streams ∧ t.d.cores = s.here.cores) ∧
  (∀ (s : State) (id : Nat) (w : Nat × Nat × Nat × Nat), s.d.fab.waitAck.find? (fun w => decide (w.1 = id)) = some w →
    let T := max s.tb.time (w.2.2.2 + 10 ^ 6)
    (∀ z ∈ s.d.que.cmds, z.op ≠ 2) →
    Answers (.mirrorAckTimeout id) s fun t => t = { s with tb := { s.tb with time := T }, d := t.d } ∧
      t.d.fab.waitAck = s.d.fab.waitAck.erase w ∧ (∀ c, s.d.que.cmds.find? (fun c => decide (c.q = w.2.1) && decide (c.cid = w.2.2.1)) = some c →
        t.d.que.cmds = s.d.que.cmds.erase c) ∧
      (∀ j e, s.d.activeEntry id = some (j, e) → (∃ m, t.d.fab.map = some m ∧ (m.entries[j]?).map (·.prot) = some false) ∧
        (e.prot = true → j < 9 → bit (t.d.fld R.FAB_PROTECT F.FAB_PROTECT_unprotected) j = true)) ∧
      t.d.streams = s.d.streams ∧ t.d.cores = s.d.cores)

namespace Sys2Proof.Machine

/-- A wake at time T (R468, R470). -/
def Dev.woken (d t : Dev) (T : Nat) (cause : Option Nat) : Prop :=
  t.pwr.lastActive = T ∧ (∀ c, cause = some c → c < 5 → bit (t.fld R.CPR_PWR_STATUS F.CPR_PWR_STATUS_cause) c = true) ∧
  (d.pwr.phase ≠ .night → t.pwr.phase = d.pwr.phase) ∧
  (d.pwr.phase = .night → d.recov.limit = true ∨ d.pwr.tripped = true → t.pwr.phase = .night) ∧
  (d.pwr.phase = .dusk → t.flag R.CPR_PWR_STATUS F.CPR_PWR_STATUS_wake_pending = true) ∧
  (d.pwr.phase = .night → d.recov.limit = false → d.pwr.tripped = false → t.pwr.phase = .dawn ∧ t.pwr.groups = 1 ∧ t.pwr.restore = true ∧
    t.flag R.CPR_PWR_STATUS F.CPR_PWR_STATUS_entering = true ∧
    t.fld R.CPR_PWR_STATUS F.CPR_PWR_STATUS_wakes = min 255 (d.fld R.CPR_PWR_STATUS F.CPR_PWR_STATUS_wakes + 1) ∧
    (cause ≠ none → t.fld R.CPR_PWR_CTL F.CPR_PWR_CTL_target = d.fld R.CPR_PWR_CTL F.CPR_PWR_CTL_wake_target + 1))

/-- A sleep request at time T (R468, R473). -/
def Dev.slept (d t : Dev) (T : Nat) : Prop :=
  (let entering := d.flag R.CPR_PWR_STATUS F.CPR_PWR_STATUS_entering
   (d.pwr.phase = .ready ∨ d.pwr.phase = .dawn ∧ entering = false →
     t.pwr.phase = .dusk ∧ t.pwr.duskStart = some T ∧ t.fld R.GLB_ALIVE F.GLB_ALIVE_state = 3) ∧
   (d.pwr.phase = .booting ∨ d.pwr.phase = .resetting ∨ d.pwr.phase = .dawn ∧ entering = true →
     t.pwr = { d.pwr with sleepPending := true }) ∧
   (d.pwr.phase = .dusk → t.pwr = d.pwr ∧ t.flag R.CPR_PWR_STATUS F.CPR_PWR_STATUS_wake_pending = false) ∧
   (d.pwr.phase = .night → t.pwr = d.pwr))

/-- Nothing changes but power state, registers and the host interface; device time is T. -/
def State.onlyPower (s t : State) (T : Nat) : Prop :=
  t = { s with tb := { s.tb with time := T }, d := { s.d with now := T, regs := t.d.regs, pwr := t.d.pwr, host := t.d.host } }

end Sys2Proof.Machine

/-- Wakes, sleep requests and CPR_PWR_CTL (R357, R358, R466 to R473). -/
def Obligations.SleepAndWake : Prop :=
  (∀ (s : State) (i : Instr) (T c : Nat),
    (i = .wakeN ∧ T = s.tb.time ∧ c = 1 ∧ s.d.flag R.CPR_WAKE_EN F.CPR_WAKE_EN_wake_n = true) ∨
    (∃ pin, i = .gpioWake pin ∧ T = s.tb.time ∧ c = 2 ∧ s.d.flag R.CPR_WAKE_EN F.CPR_WAKE_EN_gpio = true ∧ pin < 16 ∧
      bit (s.d.fld R.CPR_WAKE_EN F.CPR_WAKE_EN_gpio_mask) pin = true) ∨
    (i = .wakeTimer ∧ T = max s.tb.time s.d.clk.wakeTime ∧ c = 0 ∧ s.d.flag R.CPR_WAKE_EN F.CPR_WAKE_EN_timer = true) ∨
    (∃ k, i = .inBandInterrupt k ∧ T = s.tb.time ∧ c = 4 ∧ k < 4 ∧ bit (s.d.fld R.CPR_WAKE_EN F.CPR_WAKE_EN_ibi) k = true) ∨
    (i = .powerstateD0 ∧ T = s.tb.time ∧ c = 3 ∧ s.d.host.cfgLoaded = true) ∨
    (i = .nightMemoryRequest ∧ T = s.tb.time ∧ c = 3 ∧ s.d.pwr.phase = .night) ∨
    (∃ o n, i = .apertureRead o n ∧ T = s.tb.time ∧ c = 3 ∧ s.d.pwr.phase = .night ∧ s.d.apHit o n = true) →
    Answers i s fun t => s.onlyPower t T ∧ Dev.woken s.d t.d T (some c) ∧
      (i ≠ .powerstateD0 → t.d.host = s.d.host) ∧
      (i = .powerstateD0 → t.d.host = { s.d.host with cfg := { s.d.host.cfg with d3hot := false } }) ∧
      (∀ k, i = .inBandInterrupt k → bit (t.d.fld R.CPR_PWR_STATUS F.CPR_PWR_STATUS_ibi_port) k = true)) ∧
  (∀ s : State, s.d.host.cfgLoaded = true → Answers .powerstateD3hot s fun t => s.onlyPower t s.tb.time ∧
    Dev.slept s.d t.d s.tb.time ∧ t.d.host = { s.d.host with cfg := { s.d.host.cfg with d3hot := true } }) ∧
  (∀ s : State, s.d.pwr.phase = .dawn → s.d.flag R.CPR_PWR_STATUS F.CPR_PWR_STATUS_entering = false →
    s.d.flag R.CPR_PWR_CTL F.CPR_PWR_CTL_auto_night = true →
    (∀ f ∈ s.d.sched.frames, f.queued = false ∧ f.st ≠ .running ∧ f.st ≠ .waiting) →
    let T := max s.tb.time (s.d.pwr.lastActive + ms (max 1 (s.d.fld R.CPR_PWR_CTL F.CPR_PWR_CTL_idle_ms)))
    Answers .autoNightIdle s fun t => s.onlyPower t T ∧ Dev.slept s.d t.d T ∧ t.d.host = s.d.host) ∧
  (∀ (s : State) (v : Word), Answers (.cprPwrCtlWrite v) s fun t => t = { s with d := t.d } ∧
    t.d.reg R.CPR_PWR_CTL % 2 ^ 24 = v.toNat % 2 ^ 24 ∧ t.d.streams = s.here.streams ∧ t.d.cores = s.here.cores ∧
    (v.toNat % 4 = 0 → Dev.slept s.here t.d s.tb.time) ∧
    (v.toNat % 4 = 1 → s.here.pwr.phase = .ready → t.d.pwr.phase = .dawn ∧
      t.d.flag R.CPR_PWR_STATUS F.CPR_PWR_STATUS_entering = false ∧ ∀ p ∈ t.d.ports, p.2.decim = 0) ∧
    (v.toNat % 4 = 1 → s.here.pwr.phase = .dawn → t.d.pwr = s.here.pwr) ∧
    (2 ≤ v.toNat % 4 → s.here.pwr.phase = .dawn → s.here.flag R.CPR_PWR_STATUS F.CPR_PWR_STATUS_entering = false →
      t.d.pwr.phase = .ready ∧ t.d.fld R.GLB_ALIVE F.GLB_ALIVE_state = 1) ∧
    (2 ≤ v.toNat % 4 → s.here.pwr.phase = .dawn → s.here.flag R.CPR_PWR_STATUS F.CPR_PWR_STATUS_entering = true →
      t.d.pwr = s.here.pwr) ∧
    (v.toNat % 4 ≠ 0 → s.here.pwr.phase = .dusk ∨ s.here.pwr.phase = .night → Dev.woken s.here t.d s.tb.time none))

/-- DUSK_FRAME_TIMEOUT and DUSK_COMPLETE (R469, R470, R489). -/
def Obligations.DuskAndNight : Prop :=
  (∀ (s : State) (a : Nat), s.d.pwr.phase = .dusk → s.d.pwr.duskStart = some a →
    let T := max s.tb.time (a + ms 200)
    Answers .duskFrameTimeout s fun t => t = { s with tb := { s.tb with time := T }, d := t.d } ∧ t.d.sched.frames = [] ∧
      t.d.sched.redo = [] ∧ t.d.pwr = s.d.pwr ∧
      ∀ c, c < 8 → ∀ r, (t.d.core c).run = some r → r.replay = true ∨ r.kernel = 1024) ∧
  (∀ s : State, s.d.pwr.phase = .dusk → s.d.duskDone = true →
    let pend := s.d.flag R.CPR_PWR_STATUS F.CPR_PWR_STATUS_wake_pending && !s.d.recov.limit
    Answers .duskComplete s fun t => t = { s with tb := t.tb, d := t.d } ∧ t.tb = { s.tb with night := true, refN := t.tb.refN } ∧
      t.d.cores = [] ∧ t.d.sched.frames = [] ∧ t.d.engines = [] ∧ t.d.pwr.duskStart = none ∧
      t.d.flag R.CPR_PWR_STATUS F.CPR_PWR_STATUS_wake_pending = false ∧
      (∀ id st, mget s.d.streams id = some st → ∃ u, mget t.d.streams id = some u ∧ u.cur = st.cur ∧ u.nextFrame = st.nextFrame ∧ u.chunks = []) ∧
      (pend = false → t.d.pwr.phase = .night ∧ t.d.pwr.groups = 0 ∧ t.d.fld R.GLB_ALIVE F.GLB_ALIVE_state = 4) ∧
      (pend = true → t.d.pwr.phase = .dawn ∧ t.d.pwr.groups = 1 ∧ t.d.pwr.restore = true ∧
        t.d.flag R.CPR_PWR_STATUS F.CPR_PWR_STATUS_entering = true)) ∧
  (∀ s : State, s.d.pwr.phase ≠ .dusk ∨ s.d.duskDone = false → exec .duskComplete s = .next { s with d := s.here })

/-- RESTART_COMPLETE and DAWN_ENTRY_COMPLETE (R359, R393, R437, R471 to R473). -/
def Obligations.RestartAndDawn : Prop :=
  (∀ (s : State) (bad : List Nat) (ok : Bool), s.here.pwr.fw ≠ none → s.here.railsUp = true →
    s.here.pwr.phase = .booting ∨ s.here.pwr.phase = .resetting →
    Answers (.restartComplete bad ok) s fun t => t = { s with d := t.d } ∧ t.d.pwr.phase = .dawn ∧
      t.d.flag R.CPR_PWR_STATUS F.CPR_PWR_STATUS_entering = true ∧ t.d.fld R.GLB_ALIVE F.GLB_ALIVE_state = 5 ∧ t.d.pwr.cold = false ∧
      t.d.recov.l3cause = none ∧ (∀ c, c < 8 → bit (t.d.fld R.DRC_STATUS F.DRC_STATUS_trained) c = !bad.contains c) ∧
      (∀ y ∈ t.d.sets, y.lost = true) ∧ (ok = false → t.d.nv.field = [])) ∧
  (∀ (s : State) (cols : List (List Nat)) (stores : List (List Byte)) (ok : Bool), s.here.pwr.phase = .dawn →
    s.here.flag R.CPR_PWR_STATUS F.CPR_PWR_STATUS_entering = true → s.here.railsUp = true →
    (∀ c, c < 8 → (s.here.core c).run = none) →
    Answers (.dawnEntryComplete cols stores ok) s fun t => t = { s with d := t.d } ∧
      t.d.flag R.CPR_PWR_STATUS F.CPR_PWR_STATUS_entering = false ∧ t.d.pwr.booted = true ∧ t.d.pwr.restore = false ∧
      t.d.pwr.lastActive = s.tb.time ∧ (∀ p ∈ t.d.ports, p.2.decim = 0) ∧
      t.d.pwr.phase = (if s.here.pwr.sleepPending then .dusk
        else if 2 ≤ s.here.fld R.CPR_PWR_CTL F.CPR_PWR_CTL_target then .ready else .dawn))

/-- Device time and clocks (R475, R479, R480, R482, R487 to R489). -/
def Obligations.ClocksAndTime : Prop :=
  (∀ s : State, Answers .cprTimeLoRead s fun t => s.onlyHost t ∧
    t.d.host = { s.here.host with sent := s.here.host.sent ++ [.reg R.CPR_TIME_LO (s.tb.time % 2 ^ 32)] } ∧
    t.d.reg R.CPR_TIME_HI = s.tb.time / 2 ^ 32 % 2 ^ 32 ∧ t.d.reg R.CPR_TIME_LO = s.tb.time % 2 ^ 32 ∧
    ∀ o, o ≠ R.CPR_TIME_LO → o ≠ R.CPR_TIME_HI → t.d.reg o = s.here.reg o) ∧
  (∀ (s : State) (v : Word), Answers (.cprWakeTimeHiWrite v) s fun t =>
    t = { s with d := { s.here with regs := t.d.regs, clk := { s.here.clk with wakeTime := 2 ^ 32 * v.toNat + s.here.reg R.CPR_WAKE_TIME_LO } } } ∧
    t.d.reg R.CPR_WAKE_TIME_HI = v.toNat ∧ ∀ o, o ≠ R.CPR_WAKE_TIME_HI → t.d.reg o = s.here.reg o) ∧
  (∀ s : State, s.here.pwr.phase ≠ .night → Answers .referenceReady s fun t =>
    t = { s with tb := { s.tb with running := true, night := false }, d := { s.here with regs := t.d.regs } } ∧
    bit (t.d.fld R.CPR_CLK_STATUS F.CPR_CLK_STATUS_ready) 1 = true) ∧
  (∀ s : State, s.here.pwr.phase = .night → exec .referenceReady s = .next { s with d := s.here }) ∧
  (∀ (s : State) (p : Nat), 2 ≤ p → p < 6 →
    (s.here.railsUp = true → bit (s.here.fld R.CPR_CLK_STATUS F.CPR_CLK_STATUS_ready) 1 = true →
      Answers (.pllLock p) s fun t => t = { s with d := { s.here with regs := t.d.regs, clk := { s.here.clk with dead := s.here.clk.dead.filter (· ≠ p) } } } ∧
        ∀ i, i < 7 → bit (t.d.fld R.CPR_CLK_STATUS F.CPR_CLK_STATUS_ready) i =
          (decide (i = p) || bit (s.here.fld R.CPR_CLK_STATUS F.CPR_CLK_STATUS_ready) i)) ∧
    Answers (.pllOutputLoss p) s fun t => t = { s with d := { s.here with regs := t.d.regs, clk := { s.here.clk with dead := t.d.clk.dead } } } ∧
      (∀ i, i ∈ t.d.clk.dead ↔ i = p ∨ i ∈ s.here.clk.dead) ∧
      ∀ i, i < 7 → bit (t.d.fld R.CPR_CLK_STATUS F.CPR_CLK_STATUS_ready) i =
        (decide (i ≠ p) && bit (s.here.fld R.CPR_CLK_STATUS F.CPR_CLK_STATUS_ready) i)) ∧
  (∀ (s : State) (v : Word) (dom n : Nat), dom < 6 → n = bits v.toNat (2 * dom) 2 →
    (∀ k, k < 6 → k ≠ dom → bits v.toNat (2 * k) 2 = s.here.fld R.CPR_CLK_SEL ⟨2 * k, 2⟩) → n ≠ s.here.fld R.CPR_CLK_SEL ⟨2 * dom, 2⟩ →
    mget s.here.clk.switchAt dom = none →
    let force := bit v.toNat 16
    let ready := bit (s.here.fld R.CPR_CLK_STATUS F.CPR_CLK_STATUS_ready) (srcBit dom n)
    Answers (.cprClkSelWrite v) s fun t => t = { s with d := { s.here with regs := t.d.regs, clk := t.d.clk } } ∧
      (∀ k, k ≠ dom → mget t.d.clk.conn k = mget s.here.clk.conn k) ∧
      (n = 3 ∨ (force = false ∧ ready = false) → t.d.clk = s.here.clk ∧ t.d.flag R.CPR_CLK_STATUS F.CPR_CLK_STATUS_refused = true ∧
        t.d.fld R.CPR_CLK_SEL ⟨2 * dom, 2⟩ = s.here.fld R.CPR_CLK_SEL ⟨2 * dom, 2⟩) ∧
      (n < 3 → force = false → ready = true → mget t.d.clk.conn dom = some n ∧ t.d.fld R.CPR_CLK_SEL ⟨2 * dom, 2⟩ = n) ∧
      (n < 3 → force = true → mget t.d.clk.switchAt dom = some s.tb.time ∧ mget t.d.clk.conn dom = mget s.here.clk.conn dom ∧
        t.d.fld R.CPR_CLK_SEL ⟨2 * dom, 2⟩ = n ∧ bit (t.d.fld R.CPR_CLK_STATUS F.CPR_CLK_STATUS_switching) dom = true)) ∧
  (∀ (s : State) (dom : Nat), dom < 6 → bit (s.here.fld R.CPR_CLK_STATUS F.CPR_CLK_STATUS_switching) dom = true →
    (s.here.oldDead dom = false → s.here.newAlive dom = true → Answers (.clockSwitchComplete dom) s fun t =>
      t = { s with d := { s.here with regs := t.d.regs, clk := t.d.clk } } ∧
      mget t.d.clk.conn dom = some (s.here.fld R.CPR_CLK_SEL ⟨2 * dom, 2⟩) ∧ mget t.d.clk.switchAt dom = none ∧
      bit (t.d.fld R.CPR_CLK_STATUS F.CPR_CLK_STATUS_switching) dom = false) ∧
    (s.here.oldDead dom = true ∨ s.here.newAlive dom = false → exec (.clockSwitchComplete dom) s = .next { s with d := s.here })) ∧
  (∀ (s : State) (v : Word), Answers (.fmeterStart v) s fun t =>
    t = { s with d := { s.here with regs := t.d.regs, clk := { s.here.clk with fmeter := s.here.clk.fmeter || v.getLsbD 10 } } } ∧
    t.d.reg R.CPR_FMETER_CTL % 2 ^ 10 = v.toNat % 2 ^ 10 ∧
    (v.getLsbD 10 = true → t.d.flag R.CPR_FMETER_CTL F.CPR_FMETER_CTL_done = false)) ∧
  (∀ (s : State) (n : Nat), s.here.clk.fmeter = true → n < 2 ^ 32 →
    let own := decide (s.here.fld R.CPR_FMETER_CTL F.CPR_FMETER_CTL_clk = s.here.fld R.CPR_FMETER_CTL F.CPR_FMETER_CTL_gate_src)
    Answers (.fmeterDone n) s fun t => t = { s with d := { s.here with regs := t.d.regs, clk := { s.here.clk with fmeter := false } } } ∧
      t.d.flag R.CPR_FMETER_CTL F.CPR_FMETER_CTL_done = true ∧
      t.d.reg R.CPR_FMETER_COUNT = if own then 2 ^ min 20 (max 4 (s.here.fld R.CPR_FMETER_CTL F.CPR_FMETER_CTL_g)) else n)

/-- Rails, pins and thermal limits (R504, R516 to R519, R521, R522). -/
def Obligations.RailsAndPins : Prop :=
  (∀ s : State, s.here.pwr.tripped = false → s.here.pwr.failed = false →
    (1 ≤ s.here.pwr.groups ∨ s.here.pwr.phase = .booting → s.here.pwr.groups < 4 → Answers .powerGroupRegulated s fun t =>
      t = { s with d := { s.here with pwr := { s.here.pwr with groups := s.here.pwr.groups + 1, groupOk := false } } }) ∧
    (s.here.pwr.groups = 4 → Answers .powerGroupRegulated s fun t => t = { s with d := t.d } ∧ t.d.railsUp = true ∧
      (s.here.pwr.fw ≠ none ∨ s.here.pins.poresetLow = true →
        t = { s with d := { s.here with pwr := { s.here.pwr with groupOk := true } } }) ∧
      (∀ f k e, s.here.pwr.fw = none → s.here.pins.poresetLow = false → s.here.pwr.phase = .booting → s.here.nv.tryBoot 2 0 = (some k, e) →
        s.here.nv.slots[k]? = some f → t.d.pwr.fw = some f ∧ t.d.fld R.SEC_BOOT_STATUS F.SEC_BOOT_STATUS_fw_slot = k ∧
        t.d.fld R.SEC_BOOT_STATUS F.SEC_BOOT_STATUS_boot_err = e))) ∧
  (∀ s : State, s.here.pwr.groups ≠ 0 → s.here.pwr.groupOk = false → s.here.pwr.tripped = false →
    Answers .powerGroupTimeout s fun t => t = { s with d := { s.here with regs := t.d.regs, pwr := t.d.pwr } } ∧ t.d.pwr.groups = 0 ∧
      t.d.pwr.failed = true ∧ t.d.pwr.failAt = s.tb.time ∧ t.d.pwr.phase = .booting ∧ t.d.fld R.GLB_ALIVE F.GLB_ALIVE_state = 0) ∧
  (∀ s : State, s.d.pwr.failed = true →
    let T := max s.tb.time (s.d.pwr.failAt + 10 ^ 8)
    Answers .powerSequenceRetry s fun t => t = { s with tb := { s.tb with time := T }, d := { s.d with now := T, pwr := { s.d.pwr with groups := 1, groupOk := false, failed := false } } }) ∧
  (∀ (s : State) (i : Instr), i = .poresetNAssert ∨ i = .powerRemoval →
    Answers i s fun t => t.pending = s.pending ∧ t.tb = {} ∧ t.d.nv = s.d.nv ∧ t.d.host = { sent := s.d.host.sent } ∧ t.d.mem = {} ∧
      t.d.cores = [] ∧ t.d.streams = [] ∧ t.d.que = {} ∧ t.d.pwr = {} ∧ t.d.pins = {} ∧ t.sec.epochOpen = false ∧ t.sec.spent = s.sec.spent ∧
      (∀ f ∈ t.sec.fuses, f.2 = 1 ∧ ∃ x ∈ s.sec.fuses, x.1 = f.1) ∧ (∀ x ∈ s.sec.fuses, x.2 = 1 → x ∈ t.sec.fuses) ∧
      ∀ o, o ≠ R.SEC_SIG_STATUS → t.d.reg o = (mgetD resetRegs o 0).toNat) ∧
  (∀ (s : State) (a b : Bool), s.here.pins.poresetLow = true →
    Answers (.poresetNDeassert a b) s fun t => t = { s with d := t.d } ∧
      t.d.pins = { s.here.pins with poresetLow := false, strap0 := a, strap1 := b } ∧
      (s.here.railsUp = false → t.d.regs = s.here.regs ∧ t.d.pwr = s.here.pwr)) ∧
  (∀ (s : State) (k : Nat) (temp : Int), k < 6 →
    let T := s.here.effTemp k temp
    (s.here.working = true → s.here.pwr.thermal = false → s.here.warnAt ≤ T → Answers (.thermalWarning k temp) s fun t =>
      t = { s with d := t.d } ∧ t.d.pwr = { s.here.pwr with thermal := true } ∧ t.d.que.evSeq = (s.here.que.evSeq + 1) % 2 ^ 32 ∧
      t.d.streams = s.here.streams ∧ t.d.cores = s.here.cores) ∧
    (s.here.pwr.thermal = true ∨ T < s.here.warnAt → exec (.thermalWarning k temp) s = .next { s with d := s.here }) ∧
    (s.here.pwr.thermal = true → T ≤ s.here.warnAt - 8 → Answers (.thermalWarningEnd k temp) s fun t =>
      t = { s with d := t.d } ∧ t.d.pwr = { s.here.pwr with thermal := false } ∧ t.d.que.evSeq = (s.here.que.evSeq + 1) % 2 ^ 32 ∧
      t.d.flag R.SCH_GOV_STATUS F.SCH_GOV_STATUS_be_paused = false ∧ t.d.streams = s.here.streams ∧ t.d.cores = s.here.cores)) ∧
  (∀ s : State, Answers .thermalTrip s fun t => t = { s with d := t.d } ∧ t.d.pwr.tripped = true ∧ t.d.pwr.groups = 0 ∧
    t.d.pwr.phase = .booting ∧ t.d.pwr.booted = false ∧ t.d.cores = [] ∧ t.d.sched.frames = [] ∧ t.d.que.sqs = [] ∧
    t.d.flag R.HIF_LINK_STATUS F.HIF_LINK_STATUS_dl_up = false ∧ t.d.nv = s.here.nv)

namespace Sys2Proof.Machine

/-- Registers without a row of their own, with the bits that a write sets. -/
def plainRegs : List (Nat × Nat) :=
  [(R.HIF_APERTURE_BASE_LO, 0xFF000000), (R.HIF_LINK_HOLD, 0xFFFFF), (R.TEL_HANG_WINDOW, 0x3FFFFFFF), (R.TEL_ALERT_MASK, 0x1F),
   (R.CPR_WAKE_EN, 0xFFFF007F), (R.CPR_WAKE_TIME_LO, 0xFFFFFFFF), (R.CPR_CAL_TEMP, 0x3FFFFFFF), (R.DRC_MIG_CTL, 0x1F),
   (R.GLB_ALIVE, 0), (R.HIF_APERTURE_SIZE, 0), (R.DRC_STATUS, 0), (R.CPR_TIME_LO, 0), (R.FAB_PEERS, 0)] ++
  (List.range 8).map (fun c => (R.MC_TOKEN_TIMEOUT c, 0xFFFFFFFF)) ++ (List.range 64).map (fun p => (R.BPM_POOL_LOW p, 0x3FFFFFF)) ++
  (List.range 48).map fun k => (R.SHP_LIST k, 0xFFE000)

/-- Registers with bits that are cleared by a 1, and those bits. -/
def clearRegs : List (Nat × Nat) :=
  [(R.HIF_ERR, 0xF), (R.QUE_ERR, 1), (R.CPR_CLK_STATUS, 0xC000), (R.CPR_PWR_STATUS, 0x1FF00)] ++
  (List.range 8).map (fun c => (R.MC_ARITH_STATUS c, 7)) ++ (List.range 64).map fun p => (R.BPM_POOL_STAT p, 0x38)

/-- Offset, value and the command that a write is. -/
def writeCommand (v : Word) : List (Nat × Instr) :=
  (List.range 64).map (fun i => (0x20000 + 8 * i, .sqTailDoorbell i v)) ++ (List.range 64).map (fun i => (0x20200 + 8 * i, .cqHeadDoorbell i v)) ++
  (List.range 64).map (fun i => (0x20400 + 8 * i, .ringReadDoorbell i v)) ++ (List.range 64).map (fun p => (R.BPM_POOL_CTL p, .bpmPoolCtlWrite p v)) ++
  (List.range 8).map (fun n => (R.COD_CTL n, .codCtlWrite n v)) ++ (List.range 4).map (fun k => (R.SNS_CTL k, .snsCtlWrite k v)) ++
  (List.range 4).map (fun k => (R.FAB_PORT_CTL k, .fabPortCtlWrite k v)) ++
  [(R.SCH_MODE, .schModeWrite v), (R.QUE_ADMIN_CFG, .queAdminCfgWrite v), (R.HIF_APERTURE_BASE_HI, .hifApertureBaseHiWrite v),
   (R.CPR_PWR_CTL, .cprPwrCtlWrite v), (R.CPR_WAKE_TIME_HI, .cprWakeTimeHiWrite v), (R.CPR_CLK_SEL, .cprClkSelWrite v),
   (R.CPR_CLK_ESC, .cprClkEscWrite v), (R.CPR_FMETER_CTL, .fmeterStart v)]

end Sys2Proof.Machine

/-- Attestation, the recovery image, OTP commands and the signing index (R495, R500, R504 to R510). -/
def Obligations.SecurityEngine : Prop :=
  (∀ (s : State) (q : Nat) (e : List Byte) (x : Sq) (c : Cq), s.here.accepts 0x33 q e x c →
    (s.here.flag R.SEC_SIG_STATUS F.SEC_SIG_STATUS_exhausted = true →
      Answers (.attest q e) s fun t => s.onlyQueues t ∧ s.here.answered t.d q e x c 0x12 []) ∧
    (s.here.flag R.SEC_SIG_STATUS F.SEC_SIG_STATUS_exhausted = false → eLen e < s.here.attLen e →
      Answers (.attest q e) s fun t => s.onlyQueues t ∧ s.here.answered t.d q e x c 8 (toLE 4 (s.here.attLen e))) ∧
    (s.here.flag R.SEC_SIG_STATUS F.SEC_SIG_STATUS_exhausted = false → s.here.attLen e ≤ eLen e →
      Answers (.attest q e) s fun t => t = { s with sec := t.sec, d := { s.here with que := t.d.que, host := t.d.host, pwr := { s.here.pwr with lastActive := s.tb.time } } } ∧
        t.d.que.cmds = s.here.que.cmds ++ [{ q := q, cid := eCid e, op := 0x33, stream := 0, arg := s.here.attLen e, entry := padTo e 64 ++ s.here.attBody e }] ∧
        t.d.que.cqs = s.here.que.cqs ∧ t.d.host.sent = s.here.host.sent ∧
        (s.here.attWaiting ≠ [] → t.sec = s.sec) ∧
        (s.here.attWaiting = [] → s.sec.needClaim = false → s.sec.epochsUsed < 4096 → t.sec.cur = some s.sec.next ∧
          t.sec.next = s.sec.next + 1 ∧ t.sec.spent = s.sec.next :: s.sec.spent ∧ t.sec.fuses = s.sec.fuses) ∧
        (s.here.attWaiting = [] → s.sec.needClaim = true → t.sec = { s.sec with cur := none }))) ∧
  (∀ (s : State) (reads : List Bool) (c : Cmd) (l : List Cmd) (x : Sq) (y : Cq), s.here.working = true → s.here.linkUp = true →
    s.here.attWaiting = c :: l → (∀ k ∈ s.here.que.cmds, k.op ≠ 2) → mget s.here.que.sqs c.q = some x → mget s.here.que.cqs x.cq = some y →
    y.room = true →
    let cpl := fun (status : Nat) (result : List Byte) => DevWrite.mem (y.base + 16 * y.tail) (cplEntry c.q c.cid status x.head y.phase result)
    (∀ i, s.sec.cur = some i → Answers (.attestSignComplete reads) s fun t => t = { s with sec := t.sec, d := t.d } ∧ t.d.attWaiting = l ∧
      (l = [] → t.sec = { s.sec with cur := none }) ∧
      (let rep := s.here.attReport (c.entry.drop 64) i s.sec.epochsUsed
       ∃ pre more, t.d.host.sent = s.here.host.sent ++ pre ++ [.mem (eAddr c.entry) rep, cpl 0 (toLE 4 rep.length)] ++ more)) ∧
    (s.sec.cur = none → s.sec.epochsUsed = 4096 → Answers (.attestSignComplete reads) s fun t => t = { s with sec := t.sec, d := t.d } ∧
      t.d.attWaiting = l ∧ t.sec.spent = s.sec.spent ∧ t.sec.fuses = s.sec.fuses ∧
      ∃ pre more, t.d.host.sent = s.here.host.sent ++ pre ++ [cpl 0x12 []] ++ more) ∧
    (s.sec.cur = none → s.sec.epochsUsed < 4096 → s.sec.needClaim = true → reads.headD true = true → l = [] →
      Answers (.attestSignComplete reads) s fun t => t = { s with sec := t.sec, d := t.d } ∧ t.d.attWaiting = [] ∧
        (let i := s.sec.epochsUsed * 2 ^ 28
         t.sec = { fuses := mput s.sec.fuses s.sec.epochsUsed 1, epochsUsed := s.sec.epochsUsed + 1, next := i + 1, checkOk := true, epochOpen := true, spent := i :: s.sec.spent, cur := none } ∧
         ∃ pre more, t.d.host.sent = s.here.host.sent ++ pre ++
           [.mem (eAddr c.entry) (s.here.attReport (c.entry.drop 64) i (s.sec.epochsUsed + 1))] ++ more))) ∧
  (∀ s : State, s.here.inRecovery = true →
    (s.here.nv.slotErr s.here.recSlot = 0 → Answers .secRecoveryGo s fun t =>
      t = { s with d := { s.here with regs := t.d.regs, pwr := { s.here.pwr with fw := some s.here.recSlot } } } ∧
      t.d.fld R.SEC_BOOT_STATUS F.SEC_BOOT_STATUS_fw_slot = 2 ∧ t.d.fld R.SEC_BOOT_STATUS F.SEC_BOOT_STATUS_boot_err = 0) ∧
    (s.here.nv.slotErr s.here.recSlot ≠ 0 → Answers .secRecoveryGo s fun t => t = { s with d := { s.here with regs := t.d.regs } } ∧
      t.d.inRecovery = true ∧ t.d.fld R.SEC_BOOT_STATUS F.SEC_BOOT_STATUS_boot_err = 5)) ∧
  (∀ (s : State) (i : Instr) (op : Nat), (i = .programKeyHash ∧ op = 1) ∨ (i = .blowEnforcementFuse ∧ op = 2) →
    s.here.regOpen R.SEC_OTP_CMD = true →
    (s.here.otp.running = none → Answers i s fun t =>
      t = { s with d := { s.here with regs := t.d.regs, otp := { s.here.otp with running := some op } } } ∧
      t.d.flag R.SEC_OTP_CMD F.SEC_OTP_CMD_busy = true) ∧
    (s.here.otp.running ≠ none → Answers i s fun t => t = { s with d := { s.here with regs := t.d.regs } } ∧
      t.d.flag R.SEC_OTP_CMD F.SEC_OTP_CMD_err = true)) ∧
  (∀ s : State, s.here.otp.running = some 1 → Answers .otpCommandComplete s fun t =>
    t = { s with d := { s.here with regs := t.d.regs, nv := t.d.nv, otp := { s.here.otp with running := none } } } ∧
    t.d.flag R.SEC_OTP_CMD F.SEC_OTP_CMD_busy = false ∧
    t.d.nv = { s.here.nv with custKey := s.here.nv.custKey.or (some ((List.range 8).flatMap fun k => toLE 4 (mgetD s.here.otp.data k 0).toNat)) } ∧
    (s.here.nv.custKey ≠ none → t.d.flag R.SEC_OTP_CMD F.SEC_OTP_CMD_err = true) ∧
    (s.here.nv.custKey = none → t.d.flag R.SEC_BOOT_STATUS F.SEC_BOOT_STATUS_cust_key_set = true)) ∧
  (∀ s : State, s.here.otp.running = some 2 → Answers .otpCommandComplete s fun t =>
    t = { s with d := { s.here with regs := t.d.regs, nv := t.d.nv, otp := { s.here.otp with running := none } } } ∧
    t.d.flag R.SEC_OTP_CMD F.SEC_OTP_CMD_busy = false ∧
    (s.here.nv.custKey = none → t.d.nv = s.here.nv ∧ t.d.flag R.SEC_OTP_CMD F.SEC_OTP_CMD_err = true) ∧
    (s.here.nv.custKey ≠ none → t.d.nv = { s.here.nv with enforce := true } ∧
      t.d.flag R.SEC_POLICY F.SEC_POLICY_require_customer_sig = true ∧ t.d.flag R.SEC_POLICY F.SEC_POLICY_otp_enforce = true)) ∧
  (∀ s : State, s.here.regOpen R.SEC_SIG_INDEX_LO = true → Answers .secSigIndexLoRead s fun t => s.onlyHost t ∧
    t.d.host = { s.here.host with sent := s.here.host.sent ++ [.reg R.SEC_SIG_INDEX_LO (s.sec.next % 2 ^ 32)] } ∧
    t.d.reg R.SEC_SIG_INDEX_HI = s.sec.next / 2 ^ 32 % 2 ^ 32)

/-- REGISTER_WRITE (R4, R349, R352, R358, R359, R368, R495). -/
def Obligations.RegisterWrites : Prop :=
  (∀ (s : State) (v : Word) (x : Nat × Instr), x ∈ writeCommand v → exec (.registerWrite x.1 v) s = exec x.2 s) ∧
  (∀ (s : State) (v : Word), v.getLsbD 0 = true → exec (.registerWrite R.SEC_RECOVERY v) s = exec .secRecoveryGo s) ∧
  (∀ (s : State) (v : Word) (x : Nat × Nat), x ∈ plainRegs →
    (s.here.regOpen x.1 = true → Answers (.registerWrite x.1 v) s fun t => t = { s with d := { s.here with regs := t.d.regs } } ∧
      (∀ i, i < 32 → bit (t.d.reg x.1) i = if bit x.2 i then v.getLsbD i else bit (s.here.reg x.1) i) ∧
      ∀ o, o ≠ x.1 → t.d.reg o = s.here.reg o) ∧
    (s.here.regOpen x.1 = false → exec (.registerWrite x.1 v) s = .next { s with d := s.here })) ∧
  (∀ (s : State) (v : Word) (x : Nat × Nat), x ∈ clearRegs → s.here.regOpen x.1 = true →
    Answers (.registerWrite x.1 v) s fun t => t = { s with d := { s.here with regs := t.d.regs } } ∧
      (∀ i, i < 32 → bit (t.d.reg x.1) i = (bit (s.here.reg x.1) i && !(bit x.2 i && v.getLsbD i))) ∧
      ∀ o, o ≠ x.1 → t.d.reg o = s.here.reg o) ∧
  (∀ (s : State) (v : Word) (o : Nat), o < 0x1000000 → o % 4 = 0 → o < 0x20000 ∨ 0x20600 ≤ o → findReg o = none →
    exec (.registerWrite o v) s = .next { s with d := s.here }) ∧
  (∀ (s : State) (v : Word) (i : Nat), i < 128 → s.here.pwr.phase ≠ .night →
    (Answers (.registerWrite (0x2000000 + 16 * i + 8) v) s fun t =>
      t = { s with d := { s.here with host := { s.here.host with vecData := t.d.host.vecData } } } ∧ mgetD t.d.host.vecData i 0 = v ∧
      ∀ k, k ≠ i → mgetD t.d.host.vecData k 0 = mgetD s.here.host.vecData k 0) ∧
    (v.getLsbD 0 = true → Answers (.registerWrite (0x2000000 + 16 * i + 12) v) s fun t =>
      t = { s with d := { s.here with host := { s.here.host with unmasked := t.d.host.unmasked } } } ∧
      ∀ k, k ∈ t.d.host.unmasked ↔ k ≠ i ∧ k ∈ s.here.host.unmasked)) ∧
  (∀ (s : State) (v : Word) (o : Nat), o + 4 ≤ 0x200000 →
    (s.here.inRecovery = true → Answers (.registerWrite (0x1000000 + o) v) s fun t =>
      t = { s with d := { s.here with otp := { s.here.otp with recWin := t.d.otp.recWin } } } ∧ t.d.recBytesAt o 4 = toLE 4 v.toNat) ∧
    (s.here.inRecovery = false → exec (.registerWrite (0x1000000 + o) v) s = .next { s with d := s.here }))

namespace Sys2Proof.Machine

/-- The outcome is a next state with the queue q. -/
def NextWithQueue (o : Host.Outcome State Fault Refusal) (q : List Instr) : Prop := ∃ t, o = .next t ∧ t.pending = q

end Sys2Proof.Machine

/-- The front command runs on the state with the queue's rest. -/
def Obligations.StepRunsFront : Prop := ∀ (s : State) (c : Instr) (rest : List Instr), step { s with pending := c :: rest } = exec c { s with pending := rest }

/-- Time passes on an empty queue (log entry 1; R487). -/
def Obligations.EmptyQueueTicks : Prop := ∀ s : State, s.pending = [] →
  ∃ t, step s = .next t ∧ t.pending = [] ∧ s.tb.time ≤ t.tb.time ∧ t.sec = s.sec ∧ t.d.cores = s.d.cores ∧ t.d.streams = s.d.streams ∧
    (s.tb.running = true → s.tb.night = false → s.d.rate = 0 → s.tb.frac = 0 → t.tb.time = s.tb.time + 4 ∧ t.tb.frac = 0) ∧
    (s.tb.running = false → t.tb.time = s.tb.time)

/-- Every command answers a next state and leaves the queue. -/
def Obligations.ExecKeepsQueue : Prop := ∀ (c : Instr) (s : State), NextWithQueue (exec c s) s.pending

/-- Device time never moves back but at a power-on (R487). -/
def Obligations.TimeForward : Prop := ∀ s t : State, step s = .next t → (∀ c rest, s.pending = c :: rest → Machine.Instr.powersOn c = false) → s.tb.time ≤ t.tb.time

/-- The invariant of the signing state (R503 to R505). -/
def Obligations.SigningIndexOnce : Prop := ∀ s t : State, s.sec.Inv → step s = .next t → t.sec.Inv

/-- It holds after reset (log entry 3: no epoch fuse is blown). -/
def Obligations.SigningAtReset : Prop := State.reset.sec.Inv ∧ State.reset.sec.spent = [] ∧ State.reset.sec.epochsUsed = 0

/-- Memory's canonical form. -/
def Obligations.MemoryKeepsForm : Prop := ∀ s t : State, s.d.mem.wf = true → step s = .next t → t.d.mem.wf = true
end

