-- ==== Sys2Proof/WellFormed.lean ====
section
/-!
DEFINITION. Well-formed commands: their operands name units, queues, registers and streams that the spec gives the device. The meanings
take any command: one whose operand names nothing has no effect.
-/

namespace Sys2Proof

/-- A matrix core, MC0 to MC7 (R8, R10). -/
def isCore (n : Nat) : Bool := n < 8
/-- A submission queue, completion queue, ring or pool: 64 of each (R246, R366). -/
def isQueue (n : Nat) : Bool := n < 64
/-- A codec engine or a DRAM channel: 8 of each. -/
def isEngine (n : Nat) : Bool := n < 8
/-- A shaper pipe. -/
def isPipe (n : Nat) : Bool := n < 4
/-- A source of a pipe: two line rings, the sensor port's four virtual channels, the JPEG unit (R294). -/
def isSource (n : Nat) : Bool := n < 7
/-- A sensor port, a Goldom port, a virtual channel of a sensor, a control core: 4 of each. -/
def isPort (n : Nat) : Bool := n < 4
/-- A stack or a C-die, a virtual channel of a Goldom link: 2 of each. -/
def isStack (n : Nat) : Bool := n < 2
/-- A stream slot (R378). -/
def isStream (n : Nat) : Bool := n < 256
/-- A clock domain of CPR_CLK_SEL, a temperature sensor: 6 of each (R475, R490). -/
def isDomain (n : Nat) : Bool := n < 6
/-- A PLL by its ready bit: PLL_ARR0, PLL_ARR1, PLL_IO, PLL_DRAM (R475). -/
def isPll (n : Nat) : Bool := 2 ≤ n && n < 6
/-- A pin GPIO0 to GPIO15. -/
def isPin (n : Nat) : Bool := n < 16
/-- A logical rank of the DRAM, the spare included (R388). -/
def isRank (n : Nat) : Bool := n < 5
/-- A store the cabinet patrol reads: M-die 0, M-die 1, stream store (R243). -/
def isStore (n : Nat) : Bool := n < 3
/-- One of the next eight instructions (R89). -/
def isAhead (n : Nat) : Bool := n < 8
/-- A unit of the hang watch (R418): codes of Table Unit codes; DMA engines of queues at 0x100, of rings at 0x200. -/
def isUnit (n : Nat) : Bool :=
  n < 10 || (0x10 ≤ n && n ≤ 0x18) || (0x20 ≤ n && n < 0x24) || (0x100 ≤ n && n < 0x140) || (0x200 ≤ n && n < 0x240)
/-- A submission queue entry of 64 bytes (R375). -/
def isEntry (e : List Byte) : Bool := e.length = 64
/-- A flit of 36 symbols (R448). -/
def isFlit (f : Flit) : Bool := f.length = 36
/-- The offset of a 32-bit word. -/
def isWordOffset (n : Nat) : Bool := n % 4 = 0
/-- Cores of one dispatch: 1 to 8, each once (R67, R209). -/
def isCoreSet (l : List Nat) : Bool := l ≠ [] && l.all isCore && l.Nodup

/-- A well-formed command. -/
def Instr.wf : Instr → Bool
  | .move core => isCore core
  | .move2d core => isCore core
  | .gather core => isCore core
  | .ldw core => isCore core
  | .ldw4 core => isCore core
  | .matmul core => isCore core
  | .ewise core => isCore core
  | .conv core => isCore core
  | .vop core => isCore core
  | .vlut core => isCore core
  | .softmax core => isCore core
  | .norm core => isCore core
  | .pool core => isCore core
  | .resize core => isCore core
  | .dwconv core => isCore core
  | .attqk core => isCore core
  | .attpv core => isCore core
  | .kvapp core => isCore core
  | .kvexp core => isCore core
  | .rowstat core => isCore core
  | .alloc core => isCore core
  | .free core => isCore core
  | .refinc core => isCore core
  | .refdec core => isCore core
  | .claim core => isCore core
  | .loop core => isCore core
  | .br core => isCore core
  | .sets core => isCore core
  | .salu core => isCore core
  | .wait core => isCore core
  | .signal core => isCore core
  | .emit core => isCore core
  | .nop core => isCore core
  | .kend core => isCore core
  | .stool core => isCore core
  | .kendRetire core => isCore core
  | .instructionComplete core _ => isCore core
  | .instructionFault core _ => isCore core
  | .poisonRepairComplete => true
  | .tokenTimeout core => isCore core
  | .remoteTokenArrive core => isCore core
  | .tagCheck core ahead => isCore core && isAhead ahead
  | .tagNotify core => isCore core
  | .poolPop n _ => isQueue n
  | .bufferRefOp _ _ => true
  | .poolRebuildComplete n => isQueue n
  | .bpmPoolCtlWrite n _ => isQueue n
  | .stoolRequestComplete die => isStack die
  | .frameReady stream => isStream stream
  | .kernelDispatch stream cores => isStream stream && isCoreSet cores
  | .codeFillComplete core => isCore core
  | .stepAdmission stream => isStream stream
  | .readoutAdmission stream => isStream stream
  | .deadlineExpiry stream _ => isStream stream
  | .governorTick rails => rails.length = 9
  | .dvfsStepComplete stack _ => isStack stack
  | .schModeWrite _ => true
  | .pictureStart engine pic => isEngine engine && isStream pic.stream
  | .lineRingGroupWrite engine _ _ _ => isEngine engine
  | .pictureComplete engine _ _ _ _ => isEngine engine
  | .hardCapAbort engine => isEngine engine
  | .jpegJobComplete _ _ _ _ _ => true
  | .codCtlWrite engine _ => isEngine engine
  | .shaperPictureStart pipe source => isPipe pipe && isSource source
  | .shaperRowGroup pipe source => isPipe pipe && isSource source
  | .shaperFrameComplete pipe source => isPipe pipe && isSource source
  | .frameStart port vc => isPort port && isPort vc
  | .sensorLine port vc _ _ _ _ _ => isPort port && isPort vc
  | .frameEnd port vc _ => isPort port && isPort vc
  | .inBandInterrupt port => isPort port
  | .snsCtlWrite port _ => isPort port
  | .headHour port _ _ => isPort port
  | .historyExpiry stream => isStream stream
  | .ringRecordWrite ring => isQueue ring
  | .sqTailDoorbell q _ => isQueue q
  | .cqHeadDoorbell q _ => isQueue q
  | .ringReadDoorbell r _ => isQueue r
  | .queAdminCfgWrite _ => true
  | .createSq q e => isQueue q && isEntry e
  | .deleteSq q e => isQueue q && isEntry e
  | .createCq q e => isQueue q && isEntry e
  | .deleteCq q e => isQueue q && isEntry e
  | .createRing q e => isQueue q && isEntry e
  | .deleteRing q e => isQueue q && isEntry e
  | .loadImage q e => isQueue q && isEntry e
  | .unload q e => isQueue q && isEntry e
  | .setContext q e => isQueue q && isEntry e
  | .seqSet q e _ => isQueue q && isEntry e
  | .createStream q e => isQueue q && isEntry e
  | .configStream q e _ => isQueue q && isEntry e
  | .destroyStream q e => isQueue q && isEntry e
  | .streamDestroyComplete stream => isStream stream
  | .feed q e _ => isQueue q && isEntry e
  | .attachSensor q e _ _ => isQueue q && isEntry e
  | .detachSensor q e => isQueue q && isEntry e
  | .sensorXfer q e _ _ => isQueue q && isEntry e
  | .revisit q e => isQueue q && isEntry e
  | .readout q e => isQueue q && isEntry e
  | .clipReq q e => isQueue q && isEntry e
  | .release q e => isQueue q && isEntry e
  | .encode q e => isQueue q && isEntry e
  | .setMode q e => isQueue q && isEntry e
  | .groupJoin q e _ => isQueue q && isEntry e
  | .groupLeave q e => isQueue q && isEntry e
  | .attest q e => isQueue q && isEntry e
  | .attestSignComplete _ => true
  | .readLog q e => isQueue q && isEntry e
  | .setEvents q e => isQueue q && isEntry e
  | .forceFree q e => isQueue q && isEntry e
  | .apertureRead _ _ => true
  | .apertureWrite _ _ _ => true
  | .hifApertureBaseHiWrite _ => true
  | .configRequest _ offset _ => isWordOffset offset
  | .msixUnmask _ => true
  | .powerstateD3hot => true
  | .powerstateD0 => true
  | .nightMemoryRequest => true
  | .hotReset => true
  | .perstNAssert => true
  | .perstNDeassert => true
  | .dlDown => true
  | .dlUp _ _ => true
  | .linkHoldExpiry => true
  | .dramRequest _ _ => true
  | .migrationLineCopy ch => isEngine ch
  | .dramRefreshCommand ch rank => isEngine ch && isRank rank
  | .dramTempSample temps => temps.length = 5
  | .dramScrubRead _ => true
  | .cabinetScrubRead store => isStore store
  | .correctionWriteback => true
  | .hangWatchSample unit => isUnit unit
  | .unitResetComplete unit => isUnit unit
  | .unitResetTimeout unit => isUnit unit
  | .computeResetComplete => true
  | .computeResetTimeout => true
  | .ccWatchdogExpiry cc => isPort cc
  | .restartComplete _ _ => true
  | .logSecondEnd => true
  | .flitReceive port flit => isPort port && isFlit flit
  | .mirrorChunk port stream _ _ _ => isPort port && isStream stream
  | .mirrorConfig port stream _ _ => isPort port && isStream stream
  | .commit port stream => isPort port && isStream stream
  | .stepDelta port stream _ => isPort port && isStream stream
  | .ack port stream => isPort port && isStream stream
  | .notice port _ _ stream => isPort port && (isStream stream || stream = 0xFFFF)
  | .ident port _ _ => isPort port
  | .linkAck port _ => isPort port
  | .linkNak port _ => isPort port
  | .credit port vc _ => isPort port && isStack vc
  | .retrain port _ => isPort port
  | .portRetrainRetry port _ => isPort port
  | .mirrorAckTimeout stream => isStream stream
  | .fabPortCtlWrite port _ => isPort port
  | .cprPwrCtlWrite _ => true
  | .wakeN => true
  | .gpioWake pin => isPin pin
  | .wakeTimer => true
  | .dawnEntryComplete _ _ _ => true
  | .duskFrameTimeout => true
  | .duskComplete => true
  | .autoNightIdle => true
  | .cprWakeTimeHiWrite _ => true
  | .cprTimeLoRead => true
  | .pllLock pll => isPll pll
  | .cprClkSelWrite _ => true
  | .clockSwitchComplete domain => isDomain domain
  | .cprClkEscWrite _ => true
  | .clockEscapeAuto => true
  | .fmeterStart _ => true
  | .fmeterDone _ => true
  | .poresetNAssert => true
  | .poresetNDeassert _ _ => true
  | .powerGroupRegulated => true
  | .powerGroupTimeout => true
  | .powerSequenceRetry => true
  | .thermalWarning sensor _ => isDomain sensor
  | .thermalWarningEnd sensor _ => isDomain sensor
  | .thermalTrip => true
  | .secRecoveryGo => true
  | .programKeyHash => true
  | .blowEnforcementFuse => true
  | .otpCommandComplete => true
  | .secSigIndexLoRead => true
  | .registerWrite offset _ => isWordOffset offset
  | .powerRemoval => true
  | .pllOutputLoss pll => isPll pll
  | .firmwareException cc => isPort cc
  | .completionTimeout => true
  | .referenceReady => true

end Sys2Proof
end

