-- ==== Sys2Proof/Laws/PerInstr.lean ====
section
/-!
SUPPORT. One lemma per command about its operands as syntax: a well-formed command of a core names one of the eight, one of a
submission queue names one of the 64 and carries an entry of 64 bytes.
-/

namespace Sys2Proof.Laws.F0

/-- The core whose sequencer a command is of. -/
def coreOf : Instr → Option Nat
  | .move core => some core
  | .move2d core => some core
  | .gather core => some core
  | .ldw core => some core
  | .ldw4 core => some core
  | .matmul core => some core
  | .ewise core => some core
  | .conv core => some core
  | .vop core => some core
  | .vlut core => some core
  | .softmax core => some core
  | .norm core => some core
  | .pool core => some core
  | .resize core => some core
  | .dwconv core => some core
  | .attqk core => some core
  | .attpv core => some core
  | .kvapp core => some core
  | .kvexp core => some core
  | .rowstat core => some core
  | .alloc core => some core
  | .free core => some core
  | .refinc core => some core
  | .refdec core => some core
  | .claim core => some core
  | .loop core => some core
  | .br core => some core
  | .sets core => some core
  | .salu core => some core
  | .wait core => some core
  | .signal core => some core
  | .emit core => some core
  | .nop core => some core
  | .kend core => some core
  | .stool core => some core
  | .kendRetire core => some core
  | .instructionComplete core _ => some core
  | .instructionFault core _ => some core
  | .tokenTimeout core => some core
  | .remoteTokenArrive core => some core
  | .tagCheck core _ => some core
  | .tagNotify core => some core
  | .codeFillComplete core => some core
  | _ => none

/-- The submission queue and the entry of a command of a queue. -/
def entryOf : Instr → Option (Nat × List Byte)
  | .createSq q e => some (q, e)
  | .deleteSq q e => some (q, e)
  | .createCq q e => some (q, e)
  | .deleteCq q e => some (q, e)
  | .createRing q e => some (q, e)
  | .deleteRing q e => some (q, e)
  | .loadImage q e => some (q, e)
  | .unload q e => some (q, e)
  | .setContext q e => some (q, e)
  | .seqSet q e _ => some (q, e)
  | .createStream q e => some (q, e)
  | .configStream q e _ => some (q, e)
  | .destroyStream q e => some (q, e)
  | .feed q e _ => some (q, e)
  | .attachSensor q e _ _ => some (q, e)
  | .detachSensor q e => some (q, e)
  | .sensorXfer q e _ _ => some (q, e)
  | .revisit q e => some (q, e)
  | .readout q e => some (q, e)
  | .clipReq q e => some (q, e)
  | .release q e => some (q, e)
  | .encode q e => some (q, e)
  | .setMode q e => some (q, e)
  | .groupJoin q e _ => some (q, e)
  | .groupLeave q e => some (q, e)
  | .attest q e => some (q, e)
  | .readLog q e => some (q, e)
  | .setEvents q e => some (q, e)
  | .forceFree q e => some (q, e)
  | _ => none

/-- A well-formed command names a core below 8, a queue below 64 and an entry of 64 bytes (R8, R367, R375). -/
def Statement (i : Instr) : Prop :=
  i.wf = true → (∀ c, coreOf i = some c → c < 8) ∧ ∀ x, entryOf i = some x → x.1 < 64 ∧ x.2.length = 64

theorem of_none (i : Instr) (h : coreOf i = none) (g : entryOf i = none) : Statement i := fun _ =>
  ⟨fun c k => (by rw [h] at k; cases k), fun x k => by rw [g] at k; cases k⟩

theorem of_core (i : Instr) (c : Nat) (h : coreOf i = some c) (g : entryOf i = none) (w : i.wf = true → isCore c = true) : Statement i :=
  fun k => ⟨fun x e => by rw [h] at e; cases e; exact of_decide_eq_true (w k), fun x e => by rw [g] at e; cases e⟩

theorem of_entry (i : Instr) (q : Nat) (e : List Byte) (h : coreOf i = none) (g : entryOf i = some (q, e))
    (w : i.wf = (isQueue q && isEntry e)) : Statement i := fun k => by
  rw [w, Bool.and_eq_true] at k
  exact ⟨fun x j => (by rw [h] at j; cases j), fun x j => by rw [g] at j; cases j; exact ⟨of_decide_eq_true k.1, of_decide_eq_true k.2⟩⟩

theorem move (x0 : Nat) : Statement (.move x0) := of_core _ x0 rfl rfl fun k => k
theorem move2d (x0 : Nat) : Statement (.move2d x0) := of_core _ x0 rfl rfl fun k => k
theorem gather (x0 : Nat) : Statement (.gather x0) := of_core _ x0 rfl rfl fun k => k
theorem ldw (x0 : Nat) : Statement (.ldw x0) := of_core _ x0 rfl rfl fun k => k
theorem ldw4 (x0 : Nat) : Statement (.ldw4 x0) := of_core _ x0 rfl rfl fun k => k
theorem matmul (x0 : Nat) : Statement (.matmul x0) := of_core _ x0 rfl rfl fun k => k
theorem ewise (x0 : Nat) : Statement (.ewise x0) := of_core _ x0 rfl rfl fun k => k
theorem conv (x0 : Nat) : Statement (.conv x0) := of_core _ x0 rfl rfl fun k => k
theorem vop (x0 : Nat) : Statement (.vop x0) := of_core _ x0 rfl rfl fun k => k
theorem vlut (x0 : Nat) : Statement (.vlut x0) := of_core _ x0 rfl rfl fun k => k
theorem softmax (x0 : Nat) : Statement (.softmax x0) := of_core _ x0 rfl rfl fun k => k
theorem norm (x0 : Nat) : Statement (.norm x0) := of_core _ x0 rfl rfl fun k => k
theorem pool (x0 : Nat) : Statement (.pool x0) := of_core _ x0 rfl rfl fun k => k
theorem resize (x0 : Nat) : Statement (.resize x0) := of_core _ x0 rfl rfl fun k => k
theorem dwconv (x0 : Nat) : Statement (.dwconv x0) := of_core _ x0 rfl rfl fun k => k
theorem attqk (x0 : Nat) : Statement (.attqk x0) := of_core _ x0 rfl rfl fun k => k
theorem attpv (x0 : Nat) : Statement (.attpv x0) := of_core _ x0 rfl rfl fun k => k
theorem kvapp (x0 : Nat) : Statement (.kvapp x0) := of_core _ x0 rfl rfl fun k => k
theorem kvexp (x0 : Nat) : Statement (.kvexp x0) := of_core _ x0 rfl rfl fun k => k
theorem rowstat (x0 : Nat) : Statement (.rowstat x0) := of_core _ x0 rfl rfl fun k => k
theorem alloc (x0 : Nat) : Statement (.alloc x0) := of_core _ x0 rfl rfl fun k => k
theorem free (x0 : Nat) : Statement (.free x0) := of_core _ x0 rfl rfl fun k => k
theorem refinc (x0 : Nat) : Statement (.refinc x0) := of_core _ x0 rfl rfl fun k => k
theorem refdec (x0 : Nat) : Statement (.refdec x0) := of_core _ x0 rfl rfl fun k => k
theorem claim (x0 : Nat) : Statement (.claim x0) := of_core _ x0 rfl rfl fun k => k
theorem loop (x0 : Nat) : Statement (.loop x0) := of_core _ x0 rfl rfl fun k => k
theorem br (x0 : Nat) : Statement (.br x0) := of_core _ x0 rfl rfl fun k => k
theorem sets (x0 : Nat) : Statement (.sets x0) := of_core _ x0 rfl rfl fun k => k
theorem salu (x0 : Nat) : Statement (.salu x0) := of_core _ x0 rfl rfl fun k => k
theorem wait (x0 : Nat) : Statement (.wait x0) := of_core _ x0 rfl rfl fun k => k
theorem signal (x0 : Nat) : Statement (.signal x0) := of_core _ x0 rfl rfl fun k => k
theorem emit (x0 : Nat) : Statement (.emit x0) := of_core _ x0 rfl rfl fun k => k
theorem nop (x0 : Nat) : Statement (.nop x0) := of_core _ x0 rfl rfl fun k => k
theorem kend (x0 : Nat) : Statement (.kend x0) := of_core _ x0 rfl rfl fun k => k
theorem stool (x0 : Nat) : Statement (.stool x0) := of_core _ x0 rfl rfl fun k => k
theorem kendRetire (x0 : Nat) : Statement (.kendRetire x0) := of_core _ x0 rfl rfl fun k => k
theorem instructionComplete (x0 : Nat) (x1 : Nat) : Statement (.instructionComplete x0 x1) := of_core _ x0 rfl rfl fun k => k
theorem instructionFault (x0 : Nat) (x1 : Nat) : Statement (.instructionFault x0 x1) := of_core _ x0 rfl rfl fun k => k
theorem poisonRepairComplete : Statement .poisonRepairComplete := of_none _ rfl rfl
theorem tokenTimeout (x0 : Nat) : Statement (.tokenTimeout x0) := of_core _ x0 rfl rfl fun k => k
theorem remoteTokenArrive (x0 : Nat) : Statement (.remoteTokenArrive x0) := of_core _ x0 rfl rfl fun k => k
theorem tagCheck (x0 : Nat) (x1 : Nat) : Statement (.tagCheck x0 x1) := of_core _ x0 rfl rfl fun k => (Bool.and_eq_true_iff.mp k).1
theorem tagNotify (x0 : Nat) : Statement (.tagNotify x0) := of_core _ x0 rfl rfl fun k => k
theorem poolPop (x0 : Nat) (x1 : Nat) : Statement (.poolPop x0 x1) := of_none _ rfl rfl
theorem bufferRefOp (x0 : Bool) (x1 : Nat) : Statement (.bufferRefOp x0 x1) := of_none _ rfl rfl
theorem poolRebuildComplete (x0 : Nat) : Statement (.poolRebuildComplete x0) := of_none _ rfl rfl
theorem bpmPoolCtlWrite (x0 : Nat) (x1 : Word) : Statement (.bpmPoolCtlWrite x0 x1) := of_none _ rfl rfl
theorem stoolRequestComplete (x0 : Nat) : Statement (.stoolRequestComplete x0) := of_none _ rfl rfl
theorem frameReady (x0 : Nat) : Statement (.frameReady x0) := of_none _ rfl rfl
theorem kernelDispatch (x0 : Nat) (x1 : List Nat) : Statement (.kernelDispatch x0 x1) := of_none _ rfl rfl
theorem codeFillComplete (x0 : Nat) : Statement (.codeFillComplete x0) := of_core _ x0 rfl rfl fun k => k
theorem stepAdmission (x0 : Nat) : Statement (.stepAdmission x0) := of_none _ rfl rfl
theorem readoutAdmission (x0 : Nat) : Statement (.readoutAdmission x0) := of_none _ rfl rfl
theorem deadlineExpiry (x0 : Nat) (x1 : Nat) : Statement (.deadlineExpiry x0 x1) := of_none _ rfl rfl
theorem governorTick (x0 : List (Option (Nat × Nat))) : Statement (.governorTick x0) := of_none _ rfl rfl
theorem dvfsStepComplete (x0 : Nat) (x1 : Bool) : Statement (.dvfsStepComplete x0 x1) := of_none _ rfl rfl
theorem schModeWrite (x0 : Word) : Statement (.schModeWrite x0) := of_none _ rfl rfl
theorem pictureStart (x0 : Nat) (x1 : PicInfo) : Statement (.pictureStart x0 x1) := of_none _ rfl rfl
theorem lineRingGroupWrite (x0 : Nat) (x1 : List (List Nat)) (x2 : List Nat) (x3 : Nat) : Statement (.lineRingGroupWrite x0 x1 x2 x3) := of_none _ rfl rfl
theorem pictureComplete (x0 : Nat) (x1 : Nat) (x2 : Nat) (x3 : Nat) (x4 : List Byte) : Statement (.pictureComplete x0 x1 x2 x3 x4) := of_none _ rfl rfl
theorem hardCapAbort (x0 : Nat) : Statement (.hardCapAbort x0) := of_none _ rfl rfl
theorem jpegJobComplete (x0 : PicInfo) (x1 : List (List Nat)) (x2 : Nat) (x3 : Nat) (x4 : List Byte) : Statement (.jpegJobComplete x0 x1 x2 x3 x4) := of_none _ rfl rfl
theorem codCtlWrite (x0 : Nat) (x1 : Word) : Statement (.codCtlWrite x0 x1) := of_none _ rfl rfl
theorem shaperPictureStart (x0 : Nat) (x1 : Nat) : Statement (.shaperPictureStart x0 x1) := of_none _ rfl rfl
theorem shaperRowGroup (x0 : Nat) (x1 : Nat) : Statement (.shaperRowGroup x0 x1) := of_none _ rfl rfl
theorem shaperFrameComplete (x0 : Nat) (x1 : Nat) : Statement (.shaperFrameComplete x0 x1) := of_none _ rfl rfl
theorem frameStart (x0 : Nat) (x1 : Nat) : Statement (.frameStart x0 x1) := of_none _ rfl rfl
theorem sensorLine (x0 : Nat) (x1 : Nat) (x2 : Nat) (x3 : Nat) (x4 : List Nat) (x5 : Bool) (x6 : Bool) : Statement (.sensorLine x0 x1 x2 x3 x4 x5 x6) := of_none _ rfl rfl
theorem frameEnd (x0 : Nat) (x1 : Nat) (x2 : Nat) : Statement (.frameEnd x0 x1 x2) := of_none _ rfl rfl
theorem inBandInterrupt (x0 : Nat) : Statement (.inBandInterrupt x0) := of_none _ rfl rfl
theorem snsCtlWrite (x0 : Nat) (x1 : Word) : Statement (.snsCtlWrite x0 x1) := of_none _ rfl rfl
theorem headHour (x0 : Nat) (x1 : Bool) (x2 : Bool) : Statement (.headHour x0 x1 x2) := of_none _ rfl rfl
theorem historyExpiry (x0 : Nat) : Statement (.historyExpiry x0) := of_none _ rfl rfl
theorem ringRecordWrite (x0 : Nat) : Statement (.ringRecordWrite x0) := of_none _ rfl rfl
theorem sqTailDoorbell (x0 : Nat) (x1 : Word) : Statement (.sqTailDoorbell x0 x1) := of_none _ rfl rfl
theorem cqHeadDoorbell (x0 : Nat) (x1 : Word) : Statement (.cqHeadDoorbell x0 x1) := of_none _ rfl rfl
theorem ringReadDoorbell (x0 : Nat) (x1 : Word) : Statement (.ringReadDoorbell x0 x1) := of_none _ rfl rfl
theorem queAdminCfgWrite (x0 : Word) : Statement (.queAdminCfgWrite x0) := of_none _ rfl rfl
theorem createSq (x0 : Nat) (x1 : List Byte) : Statement (.createSq x0 x1) := of_entry _ x0 x1 rfl rfl rfl
theorem deleteSq (x0 : Nat) (x1 : List Byte) : Statement (.deleteSq x0 x1) := of_entry _ x0 x1 rfl rfl rfl
theorem createCq (x0 : Nat) (x1 : List Byte) : Statement (.createCq x0 x1) := of_entry _ x0 x1 rfl rfl rfl
theorem deleteCq (x0 : Nat) (x1 : List Byte) : Statement (.deleteCq x0 x1) := of_entry _ x0 x1 rfl rfl rfl
theorem createRing (x0 : Nat) (x1 : List Byte) : Statement (.createRing x0 x1) := of_entry _ x0 x1 rfl rfl rfl
theorem deleteRing (x0 : Nat) (x1 : List Byte) : Statement (.deleteRing x0 x1) := of_entry _ x0 x1 rfl rfl rfl
theorem loadImage (x0 : Nat) (x1 : List Byte) : Statement (.loadImage x0 x1) := of_entry _ x0 x1 rfl rfl rfl
theorem unload (x0 : Nat) (x1 : List Byte) : Statement (.unload x0 x1) := of_entry _ x0 x1 rfl rfl rfl
theorem setContext (x0 : Nat) (x1 : List Byte) : Statement (.setContext x0 x1) := of_entry _ x0 x1 rfl rfl rfl
theorem seqSet (x0 : Nat) (x1 : List Byte) (x2 : List Byte) : Statement (.seqSet x0 x1 x2) := of_entry _ x0 x1 rfl rfl rfl
theorem createStream (x0 : Nat) (x1 : List Byte) : Statement (.createStream x0 x1) := of_entry _ x0 x1 rfl rfl rfl
theorem configStream (x0 : Nat) (x1 : List Byte) (x2 : List Byte) : Statement (.configStream x0 x1 x2) := of_entry _ x0 x1 rfl rfl rfl
theorem destroyStream (x0 : Nat) (x1 : List Byte) : Statement (.destroyStream x0 x1) := of_entry _ x0 x1 rfl rfl rfl
theorem streamDestroyComplete (x0 : Nat) : Statement (.streamDestroyComplete x0) := of_none _ rfl rfl
theorem feed (x0 : Nat) (x1 : List Byte) (x2 : List Byte) : Statement (.feed x0 x1 x2) := of_entry _ x0 x1 rfl rfl rfl
theorem attachSensor (x0 : Nat) (x1 : List Byte) (x2 : List Byte) (x3 : List Byte) : Statement (.attachSensor x0 x1 x2 x3) := of_entry _ x0 x1 rfl rfl rfl
theorem detachSensor (x0 : Nat) (x1 : List Byte) : Statement (.detachSensor x0 x1) := of_entry _ x0 x1 rfl rfl rfl
theorem sensorXfer (x0 : Nat) (x1 : List Byte) (x2 : List Byte) (x3 : Nat) : Statement (.sensorXfer x0 x1 x2 x3) := of_entry _ x0 x1 rfl rfl rfl
theorem revisit (x0 : Nat) (x1 : List Byte) : Statement (.revisit x0 x1) := of_entry _ x0 x1 rfl rfl rfl
theorem readout (x0 : Nat) (x1 : List Byte) : Statement (.readout x0 x1) := of_entry _ x0 x1 rfl rfl rfl
theorem clipReq (x0 : Nat) (x1 : List Byte) : Statement (.clipReq x0 x1) := of_entry _ x0 x1 rfl rfl rfl
theorem release (x0 : Nat) (x1 : List Byte) : Statement (.release x0 x1) := of_entry _ x0 x1 rfl rfl rfl
theorem encode (x0 : Nat) (x1 : List Byte) : Statement (.encode x0 x1) := of_entry _ x0 x1 rfl rfl rfl
theorem setMode (x0 : Nat) (x1 : List Byte) : Statement (.setMode x0 x1) := of_entry _ x0 x1 rfl rfl rfl
theorem groupJoin (x0 : Nat) (x1 : List Byte) (x2 : List Byte) : Statement (.groupJoin x0 x1 x2) := of_entry _ x0 x1 rfl rfl rfl
theorem groupLeave (x0 : Nat) (x1 : List Byte) : Statement (.groupLeave x0 x1) := of_entry _ x0 x1 rfl rfl rfl
theorem attest (x0 : Nat) (x1 : List Byte) : Statement (.attest x0 x1) := of_entry _ x0 x1 rfl rfl rfl
theorem attestSignComplete (x0 : List Bool) : Statement (.attestSignComplete x0) := of_none _ rfl rfl
theorem readLog (x0 : Nat) (x1 : List Byte) : Statement (.readLog x0 x1) := of_entry _ x0 x1 rfl rfl rfl
theorem setEvents (x0 : Nat) (x1 : List Byte) : Statement (.setEvents x0 x1) := of_entry _ x0 x1 rfl rfl rfl
theorem forceFree (x0 : Nat) (x1 : List Byte) : Statement (.forceFree x0 x1) := of_entry _ x0 x1 rfl rfl rfl
theorem apertureRead (x0 : Nat) (x1 : Nat) : Statement (.apertureRead x0 x1) := of_none _ rfl rfl
theorem apertureWrite (x0 : Nat) (x1 : List Byte) (x2 : Bool) : Statement (.apertureWrite x0 x1 x2) := of_none _ rfl rfl
theorem hifApertureBaseHiWrite (x0 : Word) : Statement (.hifApertureBaseHiWrite x0) := of_none _ rfl rfl
theorem configRequest (x0 : Bool) (x1 : Nat) (x2 : Word) : Statement (.configRequest x0 x1 x2) := of_none _ rfl rfl
theorem msixUnmask (x0 : Option Nat) : Statement (.msixUnmask x0) := of_none _ rfl rfl
theorem powerstateD3hot : Statement .powerstateD3hot := of_none _ rfl rfl
theorem powerstateD0 : Statement .powerstateD0 := of_none _ rfl rfl
theorem nightMemoryRequest : Statement .nightMemoryRequest := of_none _ rfl rfl
theorem hotReset : Statement .hotReset := of_none _ rfl rfl
theorem perstNAssert : Statement .perstNAssert := of_none _ rfl rfl
theorem perstNDeassert : Statement .perstNDeassert := of_none _ rfl rfl
theorem dlDown : Statement .dlDown := of_none _ rfl rfl
theorem dlUp (x0 : Nat) (x1 : Nat) : Statement (.dlUp x0 x1) := of_none _ rfl rfl
theorem linkHoldExpiry : Statement .linkHoldExpiry := of_none _ rfl rfl
theorem dramRequest (x0 : Nat) (x1 : Option (List (Option Byte))) : Statement (.dramRequest x0 x1) := of_none _ rfl rfl
theorem migrationLineCopy (x0 : Nat) : Statement (.migrationLineCopy x0) := of_none _ rfl rfl
theorem dramRefreshCommand (x0 : Nat) (x1 : Nat) : Statement (.dramRefreshCommand x0 x1) := of_none _ rfl rfl
theorem dramTempSample (x0 : List Int) : Statement (.dramTempSample x0) := of_none _ rfl rfl
theorem dramScrubRead (x0 : List Nat) : Statement (.dramScrubRead x0) := of_none _ rfl rfl
theorem cabinetScrubRead (x0 : Nat) : Statement (.cabinetScrubRead x0) := of_none _ rfl rfl
theorem correctionWriteback : Statement .correctionWriteback := of_none _ rfl rfl
theorem hangWatchSample (x0 : Nat) : Statement (.hangWatchSample x0) := of_none _ rfl rfl
theorem unitResetComplete (x0 : Nat) : Statement (.unitResetComplete x0) := of_none _ rfl rfl
theorem unitResetTimeout (x0 : Nat) : Statement (.unitResetTimeout x0) := of_none _ rfl rfl
theorem computeResetComplete : Statement .computeResetComplete := of_none _ rfl rfl
theorem computeResetTimeout : Statement .computeResetTimeout := of_none _ rfl rfl
theorem ccWatchdogExpiry (x0 : Nat) : Statement (.ccWatchdogExpiry x0) := of_none _ rfl rfl
theorem restartComplete (x0 : List Nat) (x1 : Bool) : Statement (.restartComplete x0 x1) := of_none _ rfl rfl
theorem logSecondEnd : Statement .logSecondEnd := of_none _ rfl rfl
theorem flitReceive (x0 : Nat) (x1 : Flit) : Statement (.flitReceive x0 x1) := of_none _ rfl rfl
theorem mirrorChunk (x0 : Nat) (x1 : Nat) (x2 : Nat) (x3 : Nat) (x4 : List Byte) : Statement (.mirrorChunk x0 x1 x2 x3 x4) := of_none _ rfl rfl
theorem mirrorConfig (x0 : Nat) (x1 : Nat) (x2 : Nat) (x3 : List Byte) : Statement (.mirrorConfig x0 x1 x2 x3) := of_none _ rfl rfl
theorem commit (x0 : Nat) (x1 : Nat) : Statement (.commit x0 x1) := of_none _ rfl rfl
theorem stepDelta (x0 : Nat) (x1 : Nat) (x2 : List Byte) : Statement (.stepDelta x0 x1 x2) := of_none _ rfl rfl
theorem ack (x0 : Nat) (x1 : Nat) : Statement (.ack x0 x1) := of_none _ rfl rfl
theorem notice (x0 : Nat) (x1 : Nat) (x2 : Nat) (x3 : Nat) : Statement (.notice x0 x1 x2 x3) := of_none _ rfl rfl
theorem ident (x0 : Nat) (x1 : Nat) (x2 : Nat) : Statement (.ident x0 x1 x2) := of_none _ rfl rfl
theorem linkAck (x0 : Nat) (x1 : Nat) : Statement (.linkAck x0 x1) := of_none _ rfl rfl
theorem linkNak (x0 : Nat) (x1 : Nat) : Statement (.linkNak x0 x1) := of_none _ rfl rfl
theorem credit (x0 : Nat) (x1 : Nat) (x2 : Nat) : Statement (.credit x0 x1 x2) := of_none _ rfl rfl
theorem retrain (x0 : Nat) (x1 : Bool) : Statement (.retrain x0 x1) := of_none _ rfl rfl
theorem portRetrainRetry (x0 : Nat) (x1 : Bool) : Statement (.portRetrainRetry x0 x1) := of_none _ rfl rfl
theorem mirrorAckTimeout (x0 : Nat) : Statement (.mirrorAckTimeout x0) := of_none _ rfl rfl
theorem fabPortCtlWrite (x0 : Nat) (x1 : Word) : Statement (.fabPortCtlWrite x0 x1) := of_none _ rfl rfl
theorem cprPwrCtlWrite (x0 : Word) : Statement (.cprPwrCtlWrite x0) := of_none _ rfl rfl
theorem wakeN : Statement .wakeN := of_none _ rfl rfl
theorem gpioWake (x0 : Nat) : Statement (.gpioWake x0) := of_none _ rfl rfl
theorem wakeTimer : Statement .wakeTimer := of_none _ rfl rfl
theorem dawnEntryComplete (x0 : List (List Nat)) (x1 : List (List Byte)) (x2 : Bool) : Statement (.dawnEntryComplete x0 x1 x2) := of_none _ rfl rfl
theorem duskFrameTimeout : Statement .duskFrameTimeout := of_none _ rfl rfl
theorem duskComplete : Statement .duskComplete := of_none _ rfl rfl
theorem autoNightIdle : Statement .autoNightIdle := of_none _ rfl rfl
theorem cprWakeTimeHiWrite (x0 : Word) : Statement (.cprWakeTimeHiWrite x0) := of_none _ rfl rfl
theorem cprTimeLoRead : Statement .cprTimeLoRead := of_none _ rfl rfl
theorem pllLock (x0 : Nat) : Statement (.pllLock x0) := of_none _ rfl rfl
theorem cprClkSelWrite (x0 : Word) : Statement (.cprClkSelWrite x0) := of_none _ rfl rfl
theorem clockSwitchComplete (x0 : Nat) : Statement (.clockSwitchComplete x0) := of_none _ rfl rfl
theorem cprClkEscWrite (x0 : Word) : Statement (.cprClkEscWrite x0) := of_none _ rfl rfl
theorem clockEscapeAuto : Statement .clockEscapeAuto := of_none _ rfl rfl
theorem fmeterStart (x0 : Word) : Statement (.fmeterStart x0) := of_none _ rfl rfl
theorem fmeterDone (x0 : Nat) : Statement (.fmeterDone x0) := of_none _ rfl rfl
theorem poresetNAssert : Statement .poresetNAssert := of_none _ rfl rfl
theorem poresetNDeassert (x0 : Bool) (x1 : Bool) : Statement (.poresetNDeassert x0 x1) := of_none _ rfl rfl
theorem powerGroupRegulated : Statement .powerGroupRegulated := of_none _ rfl rfl
theorem powerGroupTimeout : Statement .powerGroupTimeout := of_none _ rfl rfl
theorem powerSequenceRetry : Statement .powerSequenceRetry := of_none _ rfl rfl
theorem thermalWarning (x0 : Nat) (x1 : Int) : Statement (.thermalWarning x0 x1) := of_none _ rfl rfl
theorem thermalWarningEnd (x0 : Nat) (x1 : Int) : Statement (.thermalWarningEnd x0 x1) := of_none _ rfl rfl
theorem thermalTrip : Statement .thermalTrip := of_none _ rfl rfl
theorem secRecoveryGo : Statement .secRecoveryGo := of_none _ rfl rfl
theorem programKeyHash : Statement .programKeyHash := of_none _ rfl rfl
theorem blowEnforcementFuse : Statement .blowEnforcementFuse := of_none _ rfl rfl
theorem otpCommandComplete : Statement .otpCommandComplete := of_none _ rfl rfl
theorem secSigIndexLoRead : Statement .secSigIndexLoRead := of_none _ rfl rfl
theorem registerWrite (x0 : Nat) (x1 : Word) : Statement (.registerWrite x0 x1) := of_none _ rfl rfl
theorem powerRemoval : Statement .powerRemoval := of_none _ rfl rfl
theorem pllOutputLoss (x0 : Nat) : Statement (.pllOutputLoss x0) := of_none _ rfl rfl
theorem firmwareException (x0 : Nat) : Statement (.firmwareException x0) := of_none _ rfl rfl
theorem completionTimeout : Statement .completionTimeout := of_none _ rfl rfl
theorem referenceReady : Statement .referenceReady := of_none _ rfl rfl

end Sys2Proof.Laws.F0
end

