-- ==== Sys2Proof/Tests/Slice0.lean ====
section
/-!
SUPPORT. Tests. An ill-formed command for each check of WellFormed, which it refuses; small states that meet the hypotheses of the
statements.
-/

namespace Sys2Proof.Tests

/-! ### Ill-formed commands -/

theorem test_wf_core : Instr.wf (.matmul 8) = false ∧ Instr.wf (.matmul 7) = true := by decide
theorem test_wf_ahead : Instr.wf (.tagCheck 0 8) = false ∧ Instr.wf (.tagCheck 0 7) = true := by decide
theorem test_wf_queue : Instr.wf (.sqTailDoorbell 64 0) = false ∧ Instr.wf (.sqTailDoorbell 63 0) = true := by decide
theorem test_wf_entry : Instr.wf (.groupLeave 0 []) = false ∧ Instr.wf (.groupLeave 0 (List.replicate 64 0)) = true := by decide
theorem test_wf_engine : Instr.wf (.codCtlWrite 8 0) = false ∧ Instr.wf (.codCtlWrite 7 0) = true := by decide
theorem test_wf_pipe : Instr.wf (.shaperRowGroup 4 0) = false ∧ Instr.wf (.shaperRowGroup 3 6) = true := by decide
theorem test_wf_source : Instr.wf (.shaperRowGroup 0 7) = false := by decide
theorem test_wf_port : Instr.wf (.frameStart 4 0) = false ∧ Instr.wf (.frameStart 0 4) = false ∧ Instr.wf (.frameStart 3 3) = true := by decide
theorem test_wf_stack : Instr.wf (.dvfsStepComplete 2 true) = false ∧ Instr.wf (.dvfsStepComplete 1 true) = true := by decide
theorem test_wf_stream : Instr.wf (.historyExpiry 256) = false ∧ Instr.wf (.historyExpiry 255) = true := by decide
theorem test_wf_notice : Instr.wf (.notice 0 0 0 0xFFFF) = true ∧ Instr.wf (.notice 0 0 0 0x100) = false := by decide
theorem test_wf_domain : Instr.wf (.clockSwitchComplete 6) = false ∧ Instr.wf (.clockSwitchComplete 5) = true := by decide
theorem test_wf_pll : Instr.wf (.pllLock 1) = false ∧ Instr.wf (.pllLock 6) = false ∧ Instr.wf (.pllLock 2) = true := by decide
theorem test_wf_pin : Instr.wf (.gpioWake 16) = false ∧ Instr.wf (.gpioWake 15) = true := by decide
theorem test_wf_rank : Instr.wf (.dramRefreshCommand 0 5) = false ∧ Instr.wf (.dramRefreshCommand 7 4) = true := by decide
theorem test_wf_store : Instr.wf (.cabinetScrubRead 3) = false ∧ Instr.wf (.cabinetScrubRead 2) = true := by decide
theorem test_wf_unit : Instr.wf (.hangWatchSample 0x19) = false ∧ Instr.wf (.hangWatchSample 0x18) = true := by decide
theorem test_wf_flit : Instr.wf (.flitReceive 0 []) = false := by decide
theorem test_wf_offset : Instr.wf (.registerWrite 2 0) = false ∧ Instr.wf (.registerWrite 4 0) = true := by decide
theorem test_wf_cores : Instr.wf (.kernelDispatch 0 []) = false ∧ Instr.wf (.kernelDispatch 0 [1, 1]) = false ∧
    Instr.wf (.kernelDispatch 0 [0, 7]) = true := by decide
theorem test_wf_rails : Instr.wf (.governorTick []) = false := by decide
theorem test_wf_temps : Instr.wf (.dramTempSample []) = false := by decide


end Sys2Proof.Tests
end

section
/-!
SUPPORT. A host write to BAR0: which command's meaning an offset takes, and what a write leaves in a register that its table's access codes
alone rule (R4, R349).
-/

namespace Sys2Proof.Machine

/-! ### The offsets of an array of registers -/

theorem arrIx_at {b st n o i : Nat} (hi : i < n) (hst : 0 < st) (ho : o = b + st * i) : arrIx b st n o = some i := by
  subst ho
  simp [arrIx, hst, hi]

theorem arrIx_outside {b st n o : Nat} (hst : 0 < st) (h : o < b ∨ b + st * n ≤ o) : arrIx b st n o = none := by
  rw [arrIx, if_neg]
  intro hin
  simp only [Bool.and_eq_true, decide_eq_true_eq] at hin
  obtain ⟨⟨hb, -⟩, hn⟩ := hin
  have : o - b < st * n := (Nat.div_lt_iff_lt_mul hst).1 hn |>.trans_eq (Nat.mul_comm n st)
  omega

theorem arrIx_none_ne {b st n o i : Nat} (h : arrIx b st n o = none) (hst : 0 < st) (hi : i < n) : o ≠ b + st * i := by
  intro ho
  simp [arrIx_at hi hst ho] at h

theorem arrIx_single_none {b o : Nat} (h : arrIx b 4 1 o = none) : o ≠ b := by
  simpa using arrIx_none_ne (i := 0) h (by omega) (by omega)

/-! ### The offsets with a rule of their own -/

/-- First offset, stride and count of the doorbells (R368). -/
def doorbellRegs : List (Nat × Nat × Nat) := [(0x20000, 8, 64), (0x20200, 8, 64), (0x20400, 8, 64)]

/-- First offset, stride and count of the other registers whose write is a command or starts one. -/
def commandRegs : List (Nat × Nat × Nat) :=
  [(R.BPM_POOL_CTL 0, 0x20, 64), (R.COD_CTL 0, 0x2000, 8), (R.SNS_CTL 0, 0x1000, 4), (R.FAB_PORT_CTL 0, 0x100, 4), (R.SCH_MODE, 4, 1),
   (R.QUE_ADMIN_CFG, 4, 1), (R.HIF_APERTURE_BASE_HI, 4, 1), (R.CPR_PWR_CTL, 4, 1), (R.CPR_WAKE_TIME_HI, 4, 1), (R.CPR_CLK_SEL, 4, 1),
   (R.CPR_CLK_ESC, 4, 1), (R.CPR_FMETER_CTL, 4, 1), (R.SEC_RECOVERY, 4, 1), (R.SEC_OTP_CMD, 4, 1)]

/-- First offset, stride and count of the registers that start nothing and have a rule beyond the access codes (R258, R383, R483, R490,
R500, R509). -/
def ruledRegs : List (Nat × Nat × Nat) :=
  [(R.BPM_POOL_BASE_LO 0, 0x20, 64), (R.BPM_POOL_BASE_HI 0, 0x20, 64), (R.BPM_POOL_CFG 0, 0x20, 64), (R.BPM_POOL_COUNT 0, 0x20, 64),
   (R.CPR_CLKMON, 4, 1), (R.CPR_CAL_VMARGIN 0, 4, 2), (R.SEC_POLICY, 4, 1), (R.QUE_ADMIN_SQ_LO, 4, 1), (R.QUE_ADMIN_SQ_HI, 4, 1),
   (R.QUE_ADMIN_CQ_LO, 4, 1), (R.QUE_ADMIN_CQ_HI, 4, 1), (R.SEC_OTP_DATA 0, 4, 8)]

/-- The offset lies in none of the arrays. -/
def outsideOf (l : List (Nat × Nat × Nat)) (o : Nat) : Bool := l.all fun p => (arrIx p.1 p.2.1 p.2.2 o).isNone

theorem outsideOf_iff {l : List (Nat × Nat × Nat)} {o : Nat} : outsideOf l o = true ↔ ∀ p ∈ l, arrIx p.1 p.2.1 p.2.2 o = none := by
  simp only [outsideOf, List.all_eq_true, Option.isNone_iff_eq_none]

/-- An aligned offset of BAR0 at which the access codes of R4 are all that rules a write. -/
def byTable (o : Nat) : Bool :=
  o < 0x1000000 && o % 4 = 0 && outsideOf doorbellRegs o && outsideOf commandRegs o && outsideOf ruledRegs o

theorem byTable_iff (o : Nat) : byTable o = true ↔ o < 0x1000000 ∧ o % 4 = 0 ∧
    outsideOf doorbellRegs o = true ∧ outsideOf commandRegs o = true ∧ outsideOf ruledRegs o = true := by
  simp only [byTable, Bool.and_eq_true, decide_eq_true_eq, and_assoc]

theorem plainWrite_byTable {o : Nat} (h : byTable o = true) (d : Dev) (v : Nat) :
    d.plainWrite o v = if d.regOpen o then d.busWrite o v else d := by
  obtain ⟨-, hal, -, -, ruled⟩ := (byTable_iff o).1 h
  simp only [outsideOf_iff, ruledRegs, List.forall_mem_cons] at ruled
  obtain ⟨hlo, hhi, hcfg, hcount, hmon, hmargin, hpol, hsqLo, hsqHi, hcqLo, hcqHi, hdata, -⟩ := ruled
  have pool : ¬ (0xC0000 ≤ o ∧ o < 0xC0800 ∧ o % 0x20 ≤ 0xC) := by
    rintro ⟨hge, hlt, hmod⟩
    have hi : (o - 0xC0000) / 0x20 < 64 := by omega
    have b0 : o ≠ 0xC0000 + 0x20 * _ := arrIx_none_ne hlo (by omega) hi
    have b4 : o ≠ 0xC0004 + 0x20 * _ := arrIx_none_ne hhi (by omega) hi
    have b8 : o ≠ 0xC0008 + 0x20 * _ := arrIx_none_ne hcfg (by omega) hi
    have bC : o ≠ 0xC000C + 0x20 * _ := arrIx_none_ne hcount (by omega) hi
    omega
  have admin : ¬ (0x21000 ≤ o ∧ o ≤ 0x2100C ∧ o % 4 = 0) := by
    have b0 : o ≠ 0x21000 := arrIx_single_none hsqLo
    have b4 : o ≠ 0x21004 := arrIx_single_none hsqHi
    have b8 : o ≠ 0x21008 := arrIx_single_none hcqLo
    have bC : o ≠ 0x2100C := arrIx_single_none hcqHi
    omega
  have data : ¬ (0x50020 ≤ o ∧ o ≤ 0x5003C ∧ o % 4 = 0) := by
    rintro ⟨hge, hle, -⟩
    have : o ≠ 0x50020 + 4 * _ := arrIx_none_ne (i := (o - 0x50020) / 4) hdata (by omega) (by omega)
    omega
  have margin0 : o ≠ R.CPR_CAL_VMARGIN 0 := arrIx_none_ne (i := 0) hmargin (by omega) (by omega)
  have margin1 : o ≠ R.CPR_CAL_VMARGIN 1 := arrIx_none_ne (i := 1) hmargin (by omega) (by omega)
  simp only [Dev.plainWrite, Bool.and_eq_true, decide_eq_true_eq, and_assoc, if_neg pool, if_neg (arrIx_single_none hmon),
    if_neg margin0, if_neg margin1, if_neg (arrIx_single_none hpol), if_neg admin, if_neg data]
  cases d.regOpen o <;> rfl

/-- A write where no register has a rule of its own. -/
theorem exec_registerWrite_byTable {o : Nat} (h : byTable o = true) (s : State) (v : Word) :
    exec (.registerWrite o v) s = .next { s with d := if s.here.regOpen o then s.here.busWrite o v.toNat else s.here } := by
  obtain ⟨hlt, -, bell, command, -⟩ := (byTable_iff o).1 h
  rw [← plainWrite_byTable h]
  simp only [outsideOf_iff, doorbellRegs, commandRegs, List.forall_mem_cons] at bell command
  obtain ⟨hsq, hcq, hring, -⟩ := bell
  obtain ⟨hpool, hcod, hsns, hfab, hmode, hadmin, hap, hpwr, hwake, hsel, hesc, hfm, hrec, hotp, -⟩ := command
  simp only [exec, execRegisterWrite, hsq, hcq, hring, hpool, hcod, hsns, hfab, if_neg (arrIx_single_none hmode),
    if_neg (arrIx_single_none hadmin), if_neg (arrIx_single_none hap), if_neg (arrIx_single_none hpwr), if_neg (arrIx_single_none hwake),
    if_neg (arrIx_single_none hsel), if_neg (arrIx_single_none hesc), if_neg (arrIx_single_none hfm), if_neg (arrIx_single_none hrec),
    if_neg (arrIx_single_none hotp), onDev]
  rw [if_neg (by omega), if_neg (by simp; omega)]
  rfl

/-! ### Writes under the access codes (R4) -/

theorem RegDef.testBit_written (r : RegDef) (old v : Nat) {i : Nat} (hi : i < 32) : (r.written old v).testBit i =
    (v.testBit i && r.rw.testBit i || old.testBit i && !r.rw.testBit i && !(v.testBit i && r.w1c.testBit i) ||
      v.testBit i && r.w1s.testBit i) := by
  simp only [RegDef.written, Nat.testBit_or, Nat.testBit_and, Nat.testBit_xor, Nat.testBit_two_pow_sub_one, hi, decide_true, Bool.true_xor]

theorem Dev.bit_reg_busWrite (d : Dev) {o : Nat} {r : RegDef} (hr : findReg o = some r) (v : Nat) {i : Nat} (hi : i < 32) :
    bit ((d.busWrite o v).reg o) i = (r.written (d.reg o) v).testBit i := by
  simp only [Dev.busWrite, hr, bit, Dev.reg_setReg_same, Nat.testBit_mod_two_pow, hi, decide_true, Bool.true_and]

theorem Dev.reg_busWrite_ne (d : Dev) {o i : Nat} (v : Nat) (h : i ≠ o) : (d.busWrite o v).reg i = d.reg i := by
  unfold Dev.busWrite
  split
  · rfl
  · exact d.reg_setReg_ne _ h

theorem Dev.busWrite_rest (d : Dev) (o v : Nat) : d.busWrite o v = { d with regs := (d.busWrite o v).regs } := by
  unfold Dev.busWrite
  split <;> rfl

theorem Dev.busWrite_nowhere (d : Dev) {o : Nat} (h : findReg o = none) (v : Nat) : d.busWrite o v = d := by
  simp [Dev.busWrite, h]

/-- The access codes set the bits of the word at an open register, and nothing else changes. -/
theorem answers_registerWrite_byTable {s : State} {v : Word} {o : Nat} {r : RegDef} (h : byTable o = true) (hr : findReg o = some r)
    (ho : s.here.regOpen o = true) : Answers (.registerWrite o v) s fun t => t = { s with d := { s.here with regs := t.d.regs } } ∧
      (∀ i, i < 32 → bit (t.d.reg o) i = (r.written (s.here.reg o) v.toNat).testBit i) ∧ ∀ i, i ≠ o → t.d.reg i = s.here.reg i := by
  refine ⟨_, exec_registerWrite_byTable h s v, ?_⟩
  simp only [ho, if_true]
  exact ⟨congrArg (fun d => { s with d := d }) (s.here.busWrite_rest o _), fun i hi => s.here.bit_reg_busWrite hr _ hi,
    fun i hi => s.here.reg_busWrite_ne _ hi⟩

/-! ### The lists of the statement -/

/-- At o a write is ruled by the table, and the bits of the register's codes are rw, w1c and no w1s. -/
def tableCodes (o rw w1c : Nat) : Bool := byTable o && (findReg o).any fun r => r.rw = rw && r.w1c = w1c && r.w1s = 0

theorem tableCodes_iff (o rw w1c : Nat) : tableCodes o rw w1c = true ↔
    byTable o = true ∧ ∃ r, findReg o = some r ∧ r.rw = rw ∧ r.w1c = w1c ∧ r.w1s = 0 := by
  simp [tableCodes, Option.any_eq_true, and_assoc]

theorem plainRegs_codes : ∀ x ∈ plainRegs, tableCodes x.1 x.2 0 = true := by
  simp only [plainRegs, List.forall_mem_append, List.forall_mem_map, List.mem_range]
  exact ⟨⟨⟨by decide, by decide⟩, by decide⟩, by decide⟩

theorem clearRegs_codes : ∀ x ∈ clearRegs, tableCodes x.1 0 x.2 = true := by decide

/-- Every array of the list is a family of the register table. -/
def inTable (l : List (Nat × Nat × Nat)) : Prop := ∀ p ∈ l, ∃ r ∈ regTable, r.base = p.1 ∧ (r.dims = [p.2] ∨ r.dims = [] ∧ p.2 = (4, 1))

theorem commandRegs_inTable : inTable commandRegs := by unfold inTable; decide

theorem ruledRegs_inTable : inTable ruledRegs := by unfold inTable; decide

theorem arrIx_of_not_hit {r : RegDef} {o : Nat} {p : Nat × Nat × Nat} (hb : r.base = p.1) (hd : r.dims = [p.2] ∨ r.dims = [] ∧ p.2 = (4, 1))
    (h : r.hit o = false) : arrIx p.1 p.2.1 p.2.2 o = none := by
  obtain ⟨b, st, n⟩ := p
  unfold RegDef.hit at h
  rcases hd with hd | ⟨hd, hp⟩
  · simp_all [arrIx]
  · simp_all [arrIx]
    omega

theorem outsideOf_of_nowhere {l : List (Nat × Nat × Nat)} (hl : inTable l) {o : Nat} (h : findReg o = none) : outsideOf l o = true := by
  refine outsideOf_iff.2 fun p hp => ?_
  obtain ⟨r, hr, hb, hd⟩ := hl p hp
  exact arrIx_of_not_hit hb hd (by simpa using List.find?_eq_none.1 h r hr)

theorem outsideOf_doorbells {o : Nat} (h : o < 0x20000 ∨ 0x20600 ≤ o) : outsideOf doorbellRegs o = true := by
  simp only [outsideOf_iff, doorbellRegs, List.forall_mem_cons]
  exact ⟨arrIx_outside (by omega) (by omega), arrIx_outside (by omega) (by omega), arrIx_outside (by omega) (by omega), by simp⟩

theorem byTable_of_nowhere {o : Nat} (hlt : o < 0x1000000) (hal : o % 4 = 0) (hdb : o < 0x20000 ∨ 0x20600 ≤ o) (h : findReg o = none) :
    byTable o = true :=
  (byTable_iff o).2 ⟨hlt, hal, outsideOf_doorbells hdb, outsideOf_of_nowhere commandRegs_inTable h, outsideOf_of_nowhere ruledRegs_inTable h⟩

/-! ### Writes that are commands -/

theorem exec_registerWrite_command {v : Word} {x : Nat × Instr} (hx : x ∈ writeCommand v) (s : State) :
    exec (.registerWrite x.1 v) s = exec x.2 s := by
  simp only [writeCommand, List.mem_append, List.mem_map, List.mem_range, List.mem_cons, List.not_mem_nil, or_false] at hx
  rcases hx with ((((((array | array) | array) | array) | array) | array) | array) | single
  case inr =>
    rcases single with rfl | rfl | rfl | rfl | rfl | rfl | rfl | rfl <;>
      simp (disch := decide) [exec, execRegisterWrite, arrIx_outside]
  all_goals
    obtain ⟨i, hi, rfl⟩ := array
    simp (disch := omega) only [exec, execRegisterWrite, R.BPM_POOL_CTL, R.COD_CTL, R.SNS_CTL, R.FAB_PORT_CTL, arrIx_at hi, arrIx_outside]

theorem exec_registerWrite_recoveryGo (s : State) {v : Word} (hv : v.getLsbD 0 = true) :
    exec (.registerWrite R.SEC_RECOVERY v) s = exec .secRecoveryGo s := by
  have go : bit v.toNat 0 = true := hv
  simp (disch := decide) [exec, execRegisterWrite, arrIx_outside, go]

/-! ### Behind BAR0: the MSI-X table (R352, log entry 44) and the recovery window (R495) -/

/-- Past the registers a write falls on the MSI-X table or on the recovery window. -/
theorem exec_registerWrite_behind {o : Nat} (h : 0x1000000 ≤ o) (s : State) (v : Word) : exec (.registerWrite o v) s = onDev s fun d =>
    if 0x2000000 ≤ o then (if d.pwr.phase = .night then d else d.msixTable (o - 0x2000000) v.toNat)
    else if o < 0x1200000 then d.recoveryWrite o v.toNat else d.plainWrite o v.toNat := by
  have arr : ∀ b st n, 0 < st → b + st * n ≤ 0x1000000 → arrIx b st n o = none := fun b st n hst hb => arrIx_outside hst (.inr (hb.trans h))
  have ne : ∀ b, b < 0x1000000 → o ≠ b := fun b hb => (hb.trans_le h).ne'
  simp (disch := decide) only [exec, execRegisterWrite, arr, if_neg (ne _ _), h, decide_true, Bool.true_and, decide_eq_true_eq]

theorem answers_msixData (s : State) (v : Word) {i : Nat} (hi : i < 128) (hn : s.here.pwr.phase ≠ .night) :
    Answers (.registerWrite (0x2000000 + 16 * i + 8) v) s fun t =>
      t = { s with d := { s.here with host := { s.here.host with vecData := t.d.host.vecData } } } ∧ mgetD t.d.host.vecData i 0 = v ∧
      ∀ k, k ≠ i → mgetD t.d.host.vecData k 0 = mgetD s.here.host.vecData k 0 := by
  refine answers_dev (exec_registerWrite_behind (by omega) s v) ?_
  have entry : (0x2000000 + 16 * i + 8 - 0x2000000) / 16 = i := by omega
  have word : (0x2000000 + 16 * i + 8 - 0x2000000) % 16 / 4 = 2 := by omega
  rw [if_pos (by omega), if_neg hn]
  simp only [Dev.msixTable, entry, word, if_neg (Nat.not_le.2 hi), mgetD_mset_same, BitVec.ofNat_toNat, BitVec.setWidth_eq, true_and]
  exact fun k hk => mgetD_mset_ne _ _ _ _ hk

theorem answers_msixMask (s : State) (v : Word) {i : Nat} (hi : i < 128) (hn : s.here.pwr.phase ≠ .night) (hv : v.getLsbD 0 = true) :
    Answers (.registerWrite (0x2000000 + 16 * i + 12) v) s fun t =>
      t = { s with d := { s.here with host := { s.here.host with unmasked := t.d.host.unmasked } } } ∧
      ∀ k, k ∈ t.d.host.unmasked ↔ k ≠ i ∧ k ∈ s.here.host.unmasked := by
  refine answers_dev (exec_registerWrite_behind (by omega) s v) ?_
  have entry : (0x2000000 + 16 * i + 12 - 0x2000000) / 16 = i := by omega
  have word : (0x2000000 + 16 * i + 12 - 0x2000000) % 16 / 4 = 3 := by omega
  have mask : bit v.toNat 0 = true := hv
  rw [if_pos (by omega), if_neg hn]
  simp only [Dev.msixTable, entry, word, if_neg (Nat.not_le.2 hi), mask, if_true, true_and]
  exact fun k => by simp [and_comm]

theorem exec_registerWrite_window (s : State) (v : Word) {o : Nat} (ho : o + 4 ≤ 0x200000) :
    exec (.registerWrite (0x1000000 + o) v) s = onDev s fun d => d.recoveryWrite (0x1000000 + o) v.toNat := by
  rw [exec_registerWrite_behind (by omega)]
  simp only [if_neg (show ¬ 0x2000000 ≤ 0x1000000 + o by omega), if_pos (show 0x1000000 + o < 0x1200000 by omega)]

theorem Dev.recBytesAt_recoveryWrite {d : Dev} (h : d.inRecovery = true) (o v : Nat) :
    (d.recoveryWrite (0x1000000 + o) v).recBytesAt o 4 = toLE 4 v := by
  simp [Dev.recoveryWrite, h, Dev.recBytesAt, toLE, List.range_succ, mgetD_mset_ne]

theorem Dev.recoveryWrite_rest {d : Dev} (h : d.inRecovery = true) (o v : Nat) :
    d.recoveryWrite o v = { d with otp := { d.otp with recWin := (d.recoveryWrite o v).otp.recWin } } := by
  simp only [Dev.recoveryWrite, h, Bool.not_true, Bool.false_eq_true, if_false]

theorem Dev.recoveryWrite_closed {d : Dev} (h : d.inRecovery = false) (o v : Nat) : d.recoveryWrite o v = d := by
  simp [Dev.recoveryWrite, h]

/-! ### The statement -/

/-- Settles O53: a command register's write is dispatched to its command; any other register at which byTable holds takes its access codes,
and an offset in no register is such a place. -/
theorem registerWrites : Obligations.RegisterWrites := by
  unfold Obligations.RegisterWrites
  refine ⟨fun s v x hx => exec_registerWrite_command hx s, fun s v hv => ?go, fun s v x hx => ⟨fun ho => ?plain, fun hc => ?closed⟩,
    fun s v x hx ho => ?clear, fun s v o hlt hal hdb h => ?nowhere,
    fun s v i hi hn => ⟨answers_msixData s v hi hn, answers_msixMask s v hi hn⟩, fun s v o ho => ⟨fun hr => ?window, fun hr => ?shut⟩⟩
  case go => exact exec_registerWrite_recoveryGo s hv
  case plain =>
    obtain ⟨hb, r, hr, hrw, hw1c, hw1s⟩ := (tableCodes_iff ..).1 (plainRegs_codes x hx)
    obtain ⟨t, he, hrest, hbits, hother⟩ := answers_registerWrite_byTable (v := v) hb hr ho
    refine ⟨t, he, hrest, fun i hi => ?_, hother⟩
    rw [hbits i hi, r.testBit_written _ _ hi, hrw, hw1c, hw1s]
    cases hset : x.2.testBit i <;> simp [bit, hset, BitVec.getLsbD]
  case closed =>
    obtain ⟨hb, -⟩ := (tableCodes_iff ..).1 (plainRegs_codes x hx)
    simp [exec_registerWrite_byTable hb, hc]
  case clear =>
    obtain ⟨hb, r, hr, hrw, hw1c, hw1s⟩ := (tableCodes_iff ..).1 (clearRegs_codes x hx)
    obtain ⟨t, he, hrest, hbits, hother⟩ := answers_registerWrite_byTable (v := v) hb hr ho
    refine ⟨t, he, hrest, fun i hi => ?_, hother⟩
    rw [hbits i hi, r.testBit_written _ _ hi, hrw, hw1c, hw1s]
    simp [bit, BitVec.getLsbD, Bool.and_comm]
  case nowhere => simp [exec_registerWrite_byTable (byTable_of_nowhere hlt hal hdb h), Dev.busWrite_nowhere _ h]
  case window =>
    exact answers_dev (exec_registerWrite_window s v ho)
      ⟨congrArg (fun d => { s with d := d }) (Dev.recoveryWrite_rest hr _ _), Dev.recBytesAt_recoveryWrite hr _ _⟩
  case shut =>
    rw [exec_registerWrite_window s v ho]
    exact congrArg (fun d => Host.Outcome.next { s with d := d }) (Dev.recoveryWrite_closed hr _ _)

end Sys2Proof.Machine
end

section
/-!
SUPPORT. An instruction in flight completes: which arm of the completion it takes, and that the arm commits its result and retires it (R92).
-/

namespace Sys2Proof.Machine

/-! ### The arm of the completion -/

/-- INSTRUCTION_COMPLETE on an instruction in flight that is no STOOL, on a core whose clock runs. -/
theorem exec_instructionComplete_flight {s : State} {c id : Nat} {x : InFlight} (hflight : s.here.infl? c id = some x)
    (hclock : s.here.clocked (stackOf c) = true) (hstool : iOp x.word ≠ 0x60) :
    exec (.instructionComplete c id) s = .next { s with d := s.here.completeFlight c x } := by
  have arm : exec (.instructionComplete c id) s = execInstructionComplete c id s := rfl
  have here : ({ s.d with now := s.tb.time } : Dev) = s.here := rfl
  simp [arm, execInstructionComplete, onDev, here, hflight, hclock, hstool]

theorem isPoolOp_eq_false {w : IWord} (hfree : iOp w ≠ 0x41) (hinc : iOp w ≠ 0x42) (hdec : iOp w ≠ 0x43) : isPoolOp w = false := by
  simp [isPoolOp, hfree, hinc, hdec]

/-- An instruction of no share, no pool operation, EMIT or KVAPP, whose turn has come and whose data hold no fault, commits and retires. -/
theorem Dev.completeFlight_commits {d : Dev} {c : Nat} {x : InFlight} (hpool : isPoolOp x.word = false)
    (hemit : iOp x.word ≠ 0x57) (hkvapp : iOp x.word ≠ 0x32) (horder : (d.core c).inOrder x = true) (halone : x.share = none)
    (hdata : (d.resOf c (d.core c) x).bad = []) :
    d.completeFlight c x = (d.commitRes c (d.resOf c (d.core c) x)).retireFlight c x := by
  simp [Dev.completeFlight, hpool, hemit, hkvapp, horder, halone, hdata]

/-! ### The statement -/

/-- Settles O12: the command takes the arm that commits the result and retires the instruction, and `committed` says what that leaves. -/
theorem instructionCompletes : Obligations.InstructionCompletes := by
  unfold Obligations.InstructionCompletes
  rintro s c id x f ⟨hcore, hflight, hclock, hkind, horder, halone, hform, hdata⟩
  simp only [List.mem_cons, List.not_mem_nil, or_false, not_or] at hkind
  obtain ⟨hstool, hemit, hkvapp, hfree, hinc, hdec⟩ := hkind
  have hexec := exec_instructionComplete_flight hflight hclock hstool
  rw [Dev.completeFlight_commits (isPoolOp_eq_false hfree hinc hdec) hemit hkvapp horder halone hdata] at hexec
  obtain ⟨hretired, hengines, -⟩ := committed s.here x f (s.here.resOf c (s.here.core c) x) hcore halone hkvapp hform
  exact ⟨_, hexec, rfl, hretired, hengines⟩

/-! ### A MOVE that completes -/

/-- The descriptor of a linear region of two raw bytes at base, whose writer hands its tag to one reader (R80). -/
def rawPair (base tag : Byte) : List Byte :=
  [base, 0, 0, 0, 0, 0, 0, 9, 2, 0, 0, 0, 1, 0, 0, 0, 1, 0, 0, 0, 1, 0, 0, 0, 1] ++ List.replicate 24 0 ++ [1, tag] ++ List.replicate 13 0

/-- MOVE from slot 0 to slot 1 over the planned length, signalling token 3. -/
def moveWord : IWord := BitVec.ofNat 128 (2 ^ 120 + 2 ^ 104 + 3 * 2 ^ 66 + 2 ^ 65)

def moveFlight : InFlight := { id := 5, word := moveWord, pc := 0, sregs := [] }

/-- Core 0 has in flight a MOVE of the bytes 0xAB and 0xCD from 0x40, with tag 1, to 0x80, with tag 2. -/
def moveState : State :=
  { d := { regs := resetRegs, mem := { cells := [(0x40, 0xAB), (0x41, 0xCD)] },
           home := { tags := [(1, .ready 1), (2, .filling)] },
           cores := [(0, { dcache := rawPair 0x40 1 ++ rawPair 0x80 2, inflight := [moveFlight] })] } }

/-- What that descriptor says. -/
def rawDesc (base tag : Nat) : Desc :=
  { base := base, layout := .linear, etype := .raw, ndim := 1, d0 := 2, d1 := 1, d2 := 1, d3 := 1, t0 := 1, t1 := 0, t2 := 0, t3 := 0,
    zp := 0, mult := 0, shift := 0, rcount := 1, tag := tag, zc := false, breg := 0, ptag := 0, pslot := 0, pvalid := false,
    haloH := 0, haloW := 0 }

theorem moveState_source : (moveState.here.core 0).opd [] (iA moveWord) = some { D := rawDesc 0x40 1, b := 0x40 } := by
  have hslot : (moveState.here.core 0).desc (iA moveWord) = some (rawDesc 0x40 1) := rfl
  simp only [Core.opd, hslot]
  rfl

theorem moveState_target : (moveState.here.core 0).opd [] (iD moveWord) = some { D := rawDesc 0x80 2, b := 0x80 } := by
  have hslot : (moveState.here.core 0).desc (iD moveWord) = some (rawDesc 0x80 2) := rfl
  simp only [Core.opd, hslot]
  rfl

theorem moveWord_copies : modBit moveWord 0 = false := rfl

def moveFlightForm : Form :=
  { ok := true, unit := .move, srcs := [{ D := rawDesc 0x40 1, b := 0x40 }], dsts := [{ D := rawDesc 0x80 2, b := 0x80 }] }

theorem moveState_form : moveForm (moveState.here.core 0) moveWord [] = moveFlightForm := by
  simp only [moveForm, moveState_source, moveState_target, moveWord_copies]
  rfl

/-- The MOVE passes the checks at issue (R105). -/
theorem moveFlightForm_check : moveFlightForm.check 0 = none := rfl

theorem moveState_writes : moveFlightForm.writes (moveState.here.core 0) 0 = [⟨2, false, 1⟩] := rfl

theorem moveState_reads : moveFlightForm.reads (moveState.here.core 0) 0 = [⟨1, false, 1⟩] := rfl

theorem moveState_result :
    moveState.here.resOf 0 (moveState.here.core 0) moveFlight = { ws := [(0x80, 0xAB), (0x81, 0xCD)], reads := [0x40, 0x41] } := by
  have hop : iOp moveWord = 0x01 := rfl
  simp only [Dev.resOf, moveFlight, hop, moveRes, moveState_source, moveState_target, moveWord_copies]
  rfl

/-- The hypotheses of O12 hold of a MOVE whose operands are in order. -/
theorem moveState_completes : moveState.here.completes 0 5 moveFlight moveFlightForm where
  core := by decide
  flight := rfl
  clock := rfl
  kind := by decide
  order := rfl
  alone := rfl
  form := congrArg some moveState_form
  data := by rw [moveState_result]

/-- The MOVE lands: its bytes are at 0x80, its destination is READY for one reader, its source is free, its token is there. -/
theorem moveState_lands : Answers (.instructionComplete 0 5) moveState fun t =>
    t.d.rd 0x80 = 0xAB ∧ t.d.rd 0x81 = 0xCD ∧ t.d.rd 0x40 = 0xAB ∧ t.d.tag 0 ⟨2, false, 1⟩ = .ready 1 ∧ t.d.tag 0 ⟨1, false, 1⟩ = .free ∧
    t.d.tok 0 3 = 1 ∧ (t.d.core 0).inflight = [] := by
  obtain ⟨t, hexec, -, hretired, -⟩ := instructionCompletes moveState 0 5 moveFlight moveFlightForm moveState_completes
  rw [moveState_result] at hretired
  have hlow : ∀ w ∈ [((0x80 : Nat), (0xAB : Byte)), (0x81, 0xCD)], moveState.here.writable w.1 := fun w hw =>
    moveState.here.writable_low (by
      obtain rfl | rfl : w = (0x80, 0xAB) ∨ w = (0x81, 0xCD) := by simpa using hw
      all_goals decide)
  have hbytes := hretired.bytes rfl hlow (by simp [moveState, State.here])
  refine ⟨t, hexec, hbytes 0x80, hbytes 0x81, ?source, hretired.written ⟨2, false, 1⟩ (by simp [moveState_writes]), ?freed, ?token, ?flight⟩
  case source => exact (hbytes 0x40).trans (by decide)
  case freed => exact (hretired.read ⟨1, false, 1⟩ (by rw [moveState_writes]; decide)).trans (by rw [moveState_reads]; decide)
  case token => rw [hretired.tok]; decide
  case flight => exact hretired.flight.trans (by decide)

end Sys2Proof.Machine
end

section
/-!
SUPPORT. Issue, said once: what it does before an instruction's own effect (the wait token, the wait bits) and after it (the pc, the signal
token, the count of retired instructions) (R72, R76).
-/

namespace Sys2Proof.Machine

variable {c : Nat} {w : IWord}

/-- A command that acts on the device acts on the device at its instant. -/
theorem onDev_here (s : State) (f : Dev → Dev) : onDev s f = .next { s with d := f s.here } := rfl

/-! ### Before the instruction's own effect -/

theorem takeWait_regs (d : Dev) : (d.takeWait c w).regs = d.regs := by
  unfold Dev.takeWait
  split
  · simp [Dev.tokSub]
  · rfl

theorem start_rest (d : Dev) : (d.takeWait c w).clearWaits c = { d with regs := ((d.takeWait c w).clearWaits c).regs, cores := ((d.takeWait c w).clearWaits c).cores, home := { d.home with notes := ((d.takeWait c w).clearWaits c).home.notes } } := by
  have h := ((d.coreOnly_takeWait c w).trans (Dev.coreOnly_clearWaits _ c)).rest
  rwa [start_remote] at h

theorem start_reg_ne (d : Dev) {o : Nat} (h : o ≠ R.MC_SEQ_STATUS c) : ((d.takeWait c w).clearWaits c).reg o = d.reg o := by
  have hclear : ∀ e : Dev, (e.clearWaits c).reg o = e.reg o := fun e => by
    have hregs : (e.clearWaits c).regs = ((e.setFld (R.MC_SEQ_STATUS c) F.MC_SEQ_STATUS_tok_wait 0).setFld (R.MC_SEQ_STATUS c) F.MC_SEQ_STATUS_tag_wait 0).regs := by
      simp [Dev.clearWaits, Dev.setWaits, b2n]
    rw [Dev.reg_congr hregs, Dev.reg_setFld_ne _ _ _ h, Dev.reg_setFld_ne _ _ _ h]
  rw [hclear, Dev.reg_congr (takeWait_regs d)]

theorem start_pc (d : Dev) : ((d.takeWait c w).clearWaits c).pc c = d.pc c := by
  obtain ⟨-, -, -, -, hpc⟩ := (d.takeWait c w).clearWaits_bits c
  rw [hpc, Dev.pc, Dev.fld_congr (takeWait_regs d), Dev.pc]

theorem start_core_ne (d : Dev) {i : Nat} (h : i ≠ c) : ((d.takeWait c w).clearWaits c).core i = d.core i := by
  rw [Dev.core_congr (Dev.clearWaits_cores _ c), Dev.core_modCore_ne _ _ h]
  unfold Dev.takeWait
  split
  · exact Dev.core_modCore_ne _ _ h
  · rfl

theorem start_core (d : Dev) : ((d.takeWait c w).clearWaits c).core c =
    { d.core c with tokens := (((d.takeWait c w).clearWaits c).core c).tokens, waitSince := none } := by
  rw [Dev.core_congr (Dev.clearWaits_cores _ c), Dev.core_modCore_same]
  unfold Dev.takeWait
  split
  · rw [Dev.tokSub, Dev.core_modCore_same]
  · rfl

/-- From d to e, the wait token of w is taken and core c waits for nothing; nothing else changes. -/
structure Dev.Started (d e : Dev) (c : Nat) (w : IWord) : Prop where
  rest : e = { d with regs := e.regs, cores := e.cores, home := { d.home with notes := e.home.notes } }
  regs : ∀ o, o ≠ R.MC_SEQ_STATUS c → e.reg o = d.reg o
  others : ∀ i, i ≠ c → e.core i = d.core i
  own : e.core c = { d.core c with tokens := (e.core c).tokens, waitSince := none }
  pc : e.pc c = d.pc c
  tok : e.tok = tokWait d.tok c w

theorem Dev.start_spec (d : Dev) (c : Nat) (w : IWord) : Dev.Started d ((d.takeWait c w).clearWaits c) c w where
  rest := start_rest d
  regs _ h := start_reg_ne d h
  others _ h := start_core_ne d h
  own := start_core d
  pc := start_pc d
  tok := tok_start d

/-! ### After it -/

/-- From d to e, the signal token of w is added, the pc is at next and one more instruction has retired; nothing else changes. -/
structure Dev.Finished (d e : Dev) (c next : Nat) (w : IWord) : Prop where
  rest : e = { d with regs := e.regs, cores := e.cores }
  regs : ∀ o, o ≠ R.MC_SEQ_STATUS c → o ≠ R.MC_SEQ_RETIRED c → e.reg o = d.reg o
  others : ∀ i, i ≠ c → e.core i = d.core i
  own : e.core c = { d.core c with tokens := (e.core c).tokens }
  pc : e.pc c = next % 2 ^ 12
  count : e.reg (R.MC_SEQ_RETIRED c) = (d.reg (R.MC_SEQ_RETIRED c) + 1) % 2 ^ 32
  tok : e.tok = tokSignal d.tok c w

theorem setPc_pc (d : Dev) (n : Nat) : (d.setPc c n).pc c = n % 2 ^ 12 := Dev.fld_setFld_same _ _ _ _ (by decide)

theorem setPc_reg_ne (d : Dev) (n : Nat) {o : Nat} (h : o ≠ R.MC_SEQ_STATUS c) : (d.setPc c n).reg o = d.reg o := Dev.reg_setFld_ne _ _ _ h

theorem Dev.finish_spec (d : Dev) (next : Nat) (w : IWord) (hc : c < 8) :
    Dev.Finished d (((d.setPc c next).signal c w).countRetired c) c next w := by
  obtain ⟨hrest, hregs, hothers, hown, hpc, hcount, htok⟩ := signal_count (w := w) (d.setPc c next) hc
  refine ⟨?rest, fun o h1 h2 => (hregs o h1 h2).trans (setPc_reg_ne d next h1), fun i hi => (hothers i hi).trans (d.core_setPc ..),
    ?own, hpc.trans (setPc_pc d next), ?count, ?tok⟩
  case rest =>
    refine hrest.trans ?_
    apply Dev.eq_of <;> simp
  case own => rw [hown, Dev.core_setPc]
  case count => rw [hcount, setPc_reg_ne d next (retired_ne_status c).symm]
  case tok =>
    rw [htok, show (d.setPc c next).tok = d.tok from funext fun i => funext fun x => Dev.tok_congr (d.setPc_cores ..) i x]

theorem coreReg_ne {c : Nat} {o : Nat} (h : o < 0x100000) : o ≠ R.MC_SEQ_STATUS c ∧ o ≠ R.MC_SEQ_RETIRED c := by
  simp only [R.MC_SEQ_STATUS, R.MC_SEQ_RETIRED]
  omega

/-- Neither the start nor the end of an issue changes a byte. -/
theorem Dev.Started.rd {d e : Dev} (h : Dev.Started d e c w) : e.rd = d.rd := by
  funext a
  exact Dev.rd_of_regs (by rw [h.rest]) (by rw [h.rest]) (fun o _ ho => h.regs o (coreReg_ne (by omega)).1) a

theorem Dev.Finished.rd {d e : Dev} {next : Nat} (h : Dev.Finished d e c next w) : e.rd = d.rd := by
  funext a
  have hreg : ∀ o, o < 0xe0000 → e.reg o = d.reg o := fun o ho =>
    h.regs o (coreReg_ne (by omega)).1 (coreReg_ne (by omega)).2
  exact Dev.rd_of_regs (by rw [h.rest]) (by rw [h.rest]) (fun o _ ho => hreg o ho) a

/-- A sequencer instruction whose fields are in order and whose wait token is there. -/
theorem issueSeq_ready {d : Dev} {next : Nat} {eff : Dev → Dev} (hwait : d.waitOk c w = true) :
    d.issueSeq c w true next eff = (((eff ((d.takeWait c w).clearWaits c)).setPc c next).signal c w).countRetired c := by
  simp [Dev.issueSeq, hwait]

/-! ### Tokens and scalar registers under a change of a core -/

theorem tok_modCore (d : Dev) {f : Core → Core} (hf : ∀ k, (f k).tokens = k.tokens) : (d.modCore c f).tok = d.tok := by
  funext i x
  unfold Dev.tok
  by_cases hi : i = c
  · rw [hi, Dev.core_modCore_same, hf]
  · rw [Dev.core_modCore_ne _ _ hi]

theorem tokSub_tok (d : Dev) (x t n : Nat) : (d.tokSub x t n).tok = tokMinus d.tok x t n := by
  funext i j
  exact d.tok_tokSub x t n i j

theorem tokAdd_tok (d : Dev) (x t n : Nat) : (d.tokAdd x t n).tok = tokPlus d.tok x t n := by
  funext i j
  exact d.tok_tokAdd x t n i j

end Sys2Proof.Machine
end

section
/-!
SUPPORT. The sequencer's instructions: SETS and SALU, WAIT, SIGNAL and NOP, KEND (R162, R163, R167).
-/

namespace Sys2Proof.Machine

variable {s : State} {c : Nat} {w : IWord}

/-! ### SETS and SALU (R162) -/

theorem setS_salu (d : Dev) {op rd ra b : Nat} (hop : op < 15) (bw : Word) (hb : b = bw.toNat) :
    ((d.setS c rd (saluOp op (d.getS c ra) b)).core c).sregs =
      sPut (d.core c).sregs rd (saluWord op (sWord (d.core c).sregs ra) bw) := by
  rw [setS_sregs, getS_eq, hb, salu_word _ _ _ hop]

/-- The second operand of SALU as a word. -/
theorem salu_operand (d : Dev) : (if modBit w 4 then imm w 32 32 else d.getS c (imm w 10 5)) =
    (if modBit w 4 then BitVec.ofNat 32 (imm w 32 32) else sWord (d.core c).sregs (imm w 10 5)).toNat := by
  split
  · rw [BitVec.toNat_ofNat, Nat.mod_eq_of_lt (imm_lt 32 32)]
  · exact getS_eq d _

/-- Settles O1: the sequencer's issue around one write of a scalar register, whose value on numbers is the operation's on words. -/
theorem scalarInstructions : Obligations.ScalarInstructions := by
  unfold Obligations.ScalarInstructions
  refine ⟨fun s c w ⟨hat, hok, hwait⟩ => ?sets, fun s c w ⟨hat, hok, hwait⟩ => ?salu⟩
  case sets =>
    refine answers_here (f := fun d w => d.doSets c w) rfl hat ?_
    simp only [Dev.doSets, hok]
    refine ⟨issued_of rfl (Dev.issueSeq_done (quiet_setS c _ _) hwait), seq_tok hwait fun d => setS_tok d _ _, ?_⟩
    rw [Dev.issueSeq_sregs hwait, setS_sregs, sregs_start]
  case salu =>
    have hop : bits (iMod w) 0 4 < 15 := by
      have hne : bits (iMod w) 0 4 ≠ 15 := by
        rw [Bool.and_eq_true] at hok
        exact of_decide_eq_true hok.2
      have hlt : bits (iMod w) 0 4 < 2 ^ 4 := Nat.mod_lt _ (by decide)
      omega
    refine answers_here (f := fun d w => d.doSalu c w) rfl hat ?_
    simp only [Dev.doSalu, hok]
    refine ⟨issued_of rfl (Dev.issueSeq_done (quiet_setS' c _ _) hwait), seq_tok hwait fun d => setS_tok d _ _, ?_⟩
    rw [Dev.issueSeq_sregs hwait, setS_salu _ hop _ (salu_operand s.here), sregs_start]

/-! ### WAIT, SIGNAL and NOP (R163, R167) -/

/-- The tokens WAIT asks for cover what it takes, the one of its wait field included. -/
theorem Dev.doWait_ready {d : Dev} {x : Nat} (hok : d.waitFieldsOk c w = true) (hwait : d.waitOk c w = true)
    (hx : if modBit w 0 then d.peerCore c (imm w 14 3) = some x else x = c)
    (hn : imm w 6 8 + (if iWaitEn w ∧ x = c ∧ iWaitTok w = imm w 0 6 then 1 else 0) ≤ d.tok x (imm w 0 6)) :
    d.doWait c w = d.issueSeq c w true (d.pc c + 1) fun d => d.tokSub x (imm w 0 6) (imm w 6 8) := by
  have hpeer : (if modBit w 0 then d.peerCore c (imm w 14 3) else some c) = some x := by
    split_ifs at hx ⊢
    · exact hx
    · rw [hx]
  have hown : (if iWaitEn w then (if x = c ∧ iWaitTok w = imm w 0 6 then imm w 6 8 + 1 else imm w 6 8) else imm w 6 8) ≤ d.tok x (imm w 0 6) := by
    grind
  simp only [Dev.doWait, hok, hpeer, hwait, Bool.not_true, Bool.or_false, Bool.false_eq_true, if_false, decide_eq_true_eq, if_neg (Nat.not_lt.2 hown)]

theorem Dev.doSignal_own {d : Dev} (hok : d.waitFieldsOk c w = true) (hm : modBit w 0 = false) :
    d.doSignal c w = d.issueSeq c w true (d.pc c + 1) fun d => d.tokAdd c (imm w 0 6) (imm w 6 8) := by
  simp only [Dev.doSignal, hok, hm, Bool.false_eq_true, if_false]

/-- A token operation sent to core x. -/
def Dev.sendToken (d : Dev) (x t n : Nat) : Dev := { d with home := { d.home with remote := d.home.remote ++ [(x, t, n)] } }

theorem Dev.sendToken_sregs (d : Dev) (x t n i : Nat) : ((d.sendToken x t n).core i).sregs = (d.core i).sregs := rfl
theorem Dev.sendToken_tok (d : Dev) (x t n : Nat) : (d.sendToken x t n).tok = d.tok := rfl
theorem quiet_sendToken (x t n : Nat) : Quiet c fun d => d.sendToken x t n := quiet_remote c _

theorem Dev.doSignal_remote {d : Dev} {x : Nat} (hok : d.waitFieldsOk c w = true) (hwait : d.waitOk c w = true) (hm : modBit w 0 = true)
    (hx : d.peerCore c (imm w 14 3) = some x) :
    d.doSignal c w = d.issueSeq c w true (d.pc c + 1) fun d => d.sendToken x (imm w 0 6) (imm w 6 8) := by
  simp only [Dev.doSignal, Dev.issueSeq, hok, hwait, hm, peer_start, hx, Dev.sendToken, if_true]

/-- Settles O3: the sequencer's issue around taking, adding or sending tokens. -/
theorem tokens : Obligations.Tokens := by
  unfold Obligations.Tokens
  refine ⟨fun s c x w ⟨hat, hok, hwait⟩ hx hn => ?wait, fun s c w ⟨hat, hok, hwait⟩ hm => ?own,
    fun s c x w ⟨hat, hok, hwait⟩ hm hx => ?remote, fun s c w ⟨hat, hok, hwait⟩ => ?nop⟩
  case wait =>
    refine answers_here (f := fun d w => d.doWait c w) rfl hat ?_
    simp only [Dev.doWait_ready hok hwait hx hn]
    refine ⟨issued_of rfl (Dev.issueSeq_done (quiet_tokSub c _ _ _) hwait), ?_, seq_sregs_all hwait fun d => tokSub_sregs d _ _ _, ?_⟩
    · rw [Dev.issueSeq_tok hwait, tokSub_tok, tok_start]
    · rw [seq_remote hwait, Dev.tokSub_home, start_remote]
  case own =>
    refine answers_here (f := fun d w => d.doSignal c w) rfl hat ?_
    simp only [Dev.doSignal_own hok hm]
    refine ⟨issued_of rfl (Dev.issueSeq_done (quiet_tokAdd c _ _) hwait), ?_, seq_sregs_all hwait fun d => d.tokAdd_sregs _ _ _, ?_⟩
    · rw [Dev.issueSeq_tok hwait, tokAdd_tok, tok_start]
    · rw [seq_remote hwait, Dev.tokAdd_home, start_remote]
  case remote =>
    refine answers_here (f := fun d w => d.doSignal c w) rfl hat ?_
    simp only [Dev.doSignal_remote hok hwait hm hx]
    refine ⟨issued_of rfl (Dev.issueSeq_done (quiet_sendToken _ _ _) hwait), seq_tok hwait fun d => d.sendToken_tok _ _ _,
      seq_sregs_all hwait fun d => d.sendToken_sregs _ _ _, ?_⟩
    rw [seq_remote hwait, Dev.sendToken, start_remote]
  case nop =>
    refine answers_here (f := fun d w => d.issueSeq c w (reservedOk w 0 0) (d.pc c + 1) fun d => d) rfl hat ?_
    simp only [hok]
    refine ⟨issued_of rfl (Dev.issueSeq_done (quiet_id c) hwait), seq_tok hwait fun _ => rfl, seq_sregs_all hwait fun _ _ => rfl, ?_⟩
    rw [seq_remote hwait, start_remote]

/-! ### KEND (R69, R167) -/

theorem Dev.doKend_ready {d : Dev} (hok : reservedOk w 0 0 = true) (hwait : d.waitOk c w = true) :
    d.doKend c w = ((d.takeWait c w).clearWaits c).modCore c fun k => { k with kendIssued := true } := by
  simp [Dev.doKend, hok, hwait]

/-- Settles O4: KEND is the start of an issue and its mark, without the end. -/
theorem kendIssues : Obligations.KendIssues := by
  unfold Obligations.KendIssues
  rintro s c w ⟨hat, hok, hwait⟩
  refine answers_here (f := fun d w => d.doKend c w) rfl hat ?_
  simp only [Dev.doKend_ready hok hwait]
  refine ⟨?rest, ?tok, ?pc, ?issued, fun o ho => ?regs, fun i hi => ?others, fun i => ?sregs⟩
  case rest => rw [start_rest s.here]; rfl
  case tok =>
    rw [tok_modCore, tok_start]
    exact fun _ => rfl
  case pc => exact (Dev.fld_modCore ..).trans (start_pc s.here)
  case issued => rw [Dev.core_modCore_same]
  case regs => rw [Dev.reg_modCore, start_reg_ne _ ho]
  case others => rw [Dev.core_modCore_ne _ _ hi, start_core_ne _ hi]
  case sregs =>
    by_cases hi : i = c
    · rw [hi, Dev.core_modCore_same]
      exact sregs_start s.here
    · rw [Dev.core_modCore_ne _ _ hi, start_core_ne _ hi]

end Sys2Proof.Machine
end
section
/-!
SUPPORT. Pool operations and CLAIM at issue (R158, R160, R161).
-/

namespace Sys2Proof.Machine

variable {c : Nat} {w : IWord}

/-! ### FREE, REFINC and REFDEC -/

theorem Dev.issuePool_ready {d : Dev} (hok : (reservedOk w 0 31 && d.journalRoom c) = true) (hwait : d.waitOk c w = true)
    (hroom : (d.core c).unitRoom d c .atomics w = true) :
    d.issuePool c w = (((d.takeWait c w).clearWaits c).setPc c (d.pc c + 1)).putFlight c
      { id := (d.core c).nextId, word := w, pc := d.pc c, sregs := (d.core c).sregs } := by
  rw [Bool.and_eq_true] at hok
  simp [Dev.issuePool, hok, hwait, hroom]

theorem exec_poolOperation {i : Instr} {op : Nat} (h : (i, op) ∈ [(Instr.free c, 0x41), (.refinc c, 0x42), (.refdec c, 0x43)]) (s : State) :
    exec i s = onDev s fun d => d.onOp c op fun w => d.issuePool c w := by
  simp only [List.mem_cons, Prod.mk.injEq, List.not_mem_nil, or_false] at h
  obtain ⟨rfl, rfl⟩ | ⟨rfl, rfl⟩ | ⟨rfl, rfl⟩ := h <;> rfl

/-- Putting an instruction in flight changes core c alone. -/
theorem putFlight_core_ne (d : Dev) (x : InFlight) {i : Nat} (h : i ≠ c) : (d.putFlight c x).core i = d.core i :=
  d.core_modCore_ne _ h

theorem putFlight_core (d : Dev) (x : InFlight) :
    (d.putFlight c x).core c = { d.core c with inflight := (d.core c).inflight ++ [x], nextId := x.id + 1 } := d.core_modCore_same c _

theorem putFlight_reg (d : Dev) (x : InFlight) (o : Nat) : (d.putFlight c x).reg o = d.reg o := d.reg_modCore ..

theorem putFlight_pc (d : Dev) (x : InFlight) : (d.putFlight c x).pc c = d.pc c := d.fld_modCore ..

theorem putFlight_tok (d : Dev) (x : InFlight) : (d.putFlight c x).tok = d.tok := by
  rw [Dev.putFlight, tok_modCore]
  exact fun _ => rfl

theorem putFlight_rest (d : Dev) (x : InFlight) : d.putFlight c x = { d with cores := (d.putFlight c x).cores } := rfl

/-! ### CLAIM -/

/-- Counter n goes on by step and its old value goes to rd of core c (R161). -/
def Dev.bumpCounter (d : Dev) (c n rd step : Nat) : Dev :=
  { d with home := { d.home with counters := mset d.home.counters n 0 (BitVec.ofNat 32 ((mgetD d.home.counters n 0).toNat + step)) } }.setS c rd
    (mgetD d.home.counters n 0).toNat

theorem Dev.doClaim_plain {d : Dev} (hok : reservedOk w 1 ((2 ^ 21 - 1) ||| (2 ^ 16 - 1) * 2 ^ 32) = true) (hwait : d.waitOk c w = true)
    (hroom : (d.core c).unitRoom d c .atomics w = true)
    (htiling : (((d.core c).run.map (·.claiming)).getD false && !modBit w 0 && imm w 32 16 = 1) = false) :
    d.doClaim c w = d.issueSeq c w true (d.pc c + 1) fun e => e.bumpCounter c (1024 * imm w 20 1 + imm w 10 10) (imm w 0 5)
      (if modBit w 0 then sreg (d.core c).sregs (imm w 5 5) else imm w 32 16) := by
  simp only [Dev.doClaim, hok, hwait, hroom, htiling, Bool.not_true, Bool.false_and, Bool.false_eq_true, if_false, Dev.bumpCounter]

theorem bumpCounter_home (d : Dev) (n rd step : Nat) : (d.bumpCounter c n rd step).home =
    { d.home with counters := mset d.home.counters n 0 (BitVec.ofNat 32 ((mgetD d.home.counters n 0).toNat + step)) } := rfl

theorem bumpCounter_core_ne (d : Dev) (n rd step : Nat) {i : Nat} (h : i ≠ c) : (d.bumpCounter c n rd step).core i = d.core i :=
  Dev.core_modCore_ne _ _ h

theorem bumpCounter_sregs (d : Dev) (n rd step : Nat) :
    ((d.bumpCounter c n rd step).core c).sregs = sPut (d.core c).sregs rd (mgetD d.home.counters n 0) := by
  rw [Dev.bumpCounter, setS_sregs, BitVec.ofNat_toNat, BitVec.setWidth_eq]
  rfl

theorem bumpCounter_tok (d : Dev) (n rd step : Nat) : (d.bumpCounter c n rd step).tok = d.tok := setS_tok _ _ _

theorem bumpCounter_rest (d : Dev) (n rd step : Nat) : d.bumpCounter c n rd step =
    { d with cores := (d.bumpCounter c n rd step).cores, home := { d.home with counters := (d.bumpCounter c n rd step).home.counters } } := rfl

/-- The step of CLAIM as a word. -/
theorem claim_step (l : List Word) : BitVec.ofNat 32 (if modBit w 0 then sreg l (imm w 5 5) else imm w 32 16) =
    if modBit w 0 then sWord l (imm w 5 5) else BitVec.ofNat 32 (imm w 32 16) := by
  have hreg : sreg l (imm w 5 5) = (sWord l (imm w 5 5)).toNat := by simp only [sreg, sWord]; split <;> rfl
  split
  · rw [hreg, BitVec.ofNat_toNat, BitVec.setWidth_eq]
  · rfl

/-! ### The statement -/

/-- Settles O8: a pool operation is put in flight after the start of its issue; a CLAIM takes its counter between start and end. -/
theorem poolInstructionsIssue : Obligations.PoolInstructionsIssue := by
  unfold Obligations.PoolInstructionsIssue
  refine ⟨fun i s c op w hi ⟨hat, hok, hwait⟩ hroom => ?pool, fun s c w ⟨hat, hok, hwait⟩ hroom htiling => ?claim⟩
  case pool =>
    refine answers_here (f := fun d w => d.issuePool c w) (exec_poolOperation hi s) hat ?_
    simp only [Dev.issuePool_ready hok hwait hroom]
    obtain ⟨hrest, hregs, hothers, hown, -, htok⟩ := s.here.start_spec c w
    generalize (s.here.takeWait c w).clearWaits c = e at *
    refine ⟨?flight, ?pc, ?tok, ?rest, fun o ho => ?regs, fun j hj => ?others, fun j => ?sregs⟩
    case flight => rw [putFlight_core, Dev.core_setPc, hown]
    case pc => rw [putFlight_pc, setPc_pc]
    case tok =>
      rw [putFlight_tok, show (e.setPc c (s.here.pc c + 1)).tok = e.tok from funext fun i => funext fun x => Dev.tok_congr (e.setPc_cores ..) i x, htok]
    case rest =>
      refine congrArg (fun d => { s with d := d }) ?_
      rw [putFlight_rest, hrest]
      rfl
    case regs => rw [putFlight_reg, setPc_reg_ne _ _ ho, hregs o ho]
    case others => rw [putFlight_core_ne _ _ hj, Dev.core_setPc, hothers j hj]
    case sregs =>
      by_cases hj : j = c
      · rw [hj, putFlight_core, Dev.core_setPc, hown]
      · rw [putFlight_core_ne _ _ hj, Dev.core_setPc, hothers j hj]
  case claim =>
    refine answers_here (f := fun d w => d.doClaim c w) rfl hat ?_
    simp only [Dev.doClaim_plain hok hwait hroom htiling, issueSeq_ready hwait]
    obtain ⟨hrest, hregs, hothers, hown, -, htok⟩ := s.here.start_spec c w
    generalize (s.here.takeWait c w).clearWaits c = e at *
    have hcounters : e.home.counters = s.here.home.counters := by rw [hrest]
    generalize hn : 1024 * imm w 20 1 + imm w 10 10 = n
    generalize hstep : (if modBit w 0 then sreg (s.here.core c).sregs (imm w 5 5) else imm w 32 16) = step
    obtain ⟨frest, fregs, fothers, fown, fpc, -, ftok⟩ := (e.bumpCounter c n (imm w 0 5) step).finish_spec (s.here.pc c + 1) w hat.1
    generalize (((e.bumpCounter c n (imm w 0 5) step).setPc c (s.here.pc c + 1)).signal c w).countRetired c = g at *
    have fcounters : g.home.counters = mset s.here.home.counters n 0 (BitVec.ofNat 32 ((mgetD s.here.home.counters n 0).toNat + step)) := by
      rw [frest, bumpCounter_home, hcounters]
    refine ⟨?counter, fun k hk => ?counters, ?sregs, fpc, ?tok, ?rest, fun j hj => ?others⟩
    case counter =>
      rw [fcounters, mgetD_mset_same, ← claim_step, hstep, BitVec.ofNat_add, BitVec.ofNat_toNat, BitVec.setWidth_eq]
    case counters => rw [fcounters, mgetD_mset_ne _ _ _ _ hk]
    case sregs => rw [fown, bumpCounter_sregs, hcounters, hown]
    case tok => rw [ftok, bumpCounter_tok, htok]
    case rest =>
      refine congrArg (fun d => { s with d := d }) ?_
      rw [frest, bumpCounter_rest, hrest]
    case others => rw [fothers j hj, bumpCounter_core_ne _ _ _ _ hj, hothers j hj]

end Sys2Proof.Machine
end

section
/-!
SUPPORT. Remote tokens, look-ahead and notification (R78, R89).
-/

namespace Sys2Proof.Machine

variable {s : State} {c : Nat}

/-! ### A remote token arrives -/

theorem tokAdd_rest (d : Dev) (t n : Nat) : d.tokAdd c t n = { d with regs := (d.tokAdd c t n).regs, cores := (d.tokAdd c t n).cores } := by
  unfold Dev.tokAdd
  simp only []
  split <;> (apply Dev.eq_of <;> simp)

theorem tokAdd_core (d : Dev) (t n i : Nat) : (d.tokAdd c t n).core i = { d.core i with tokens := ((d.tokAdd c t n).core i).tokens } := by
  simp only [Dev.tokAdd]
  by_cases hi : i = c
  · subst hi
    rw [Dev.core_modCore_same]
    split <;> simp
  · rw [Dev.core_modCore_ne _ _ hi]
    split <;> simp

theorem tokAdd_reg_ne (d : Dev) (t n : Nat) {o : Nat} (h : o ≠ R.MC_SEQ_STATUS c) : (d.tokAdd c t n).reg o = d.reg o := by
  simp only [Dev.tokAdd, Dev.reg_modCore]
  split
  · exact d.reg_setFld_ne _ _ h
  · rfl

theorem exec_remoteTokenArrive {x n : Nat} {l : List (Nat × Nat × Nat)} (h : s.here.home.remote = (c, x, n) :: l) :
    exec (.remoteTokenArrive c) s = .next { s with d := ({ s.here with home := { s.here.home with remote := l } } : Dev).tokAdd c x n } := by
  have arm : exec (.remoteTokenArrive c) s = execRemoteTokenArrive c s := rfl
  simp only [arm, execRemoteTokenArrive, onDev_here, h, List.find?_cons, decide_true, List.erase_cons_head]

theorem remoteToken_arrives {x n : Nat} {l : List (Nat × Nat × Nat)} (h : s.here.home.remote = (c, x, n) :: l) :
    Answers (.remoteTokenArrive c) s fun t => t.d.tok = tokPlus s.here.tok c x n ∧ t.d.home = { s.here.home with remote := l } ∧
      t = { s with d := { s.here with regs := t.d.regs, cores := t.d.cores, home := t.d.home } } ∧
      (∀ i, (t.d.core i) = { s.here.core i with tokens := (t.d.core i).tokens }) ∧ ∀ o, o ≠ R.MC_SEQ_STATUS c → t.d.reg o = s.here.reg o := by
  refine ⟨_, exec_remoteTokenArrive h, tokAdd_tok .., Dev.tokAdd_home .., ?rest, fun i => tokAdd_core _ _ _ i, fun _ ho => tokAdd_reg_ne _ _ _ ho⟩
  case rest =>
    simp only [Dev.tokAdd_home]
    exact congrArg (fun d => { s with d := d }) (tokAdd_rest _ _ _)

/-! ### The look-ahead of a core -/

/-- The registrations of core c for the tags of a list that it has not registered for. -/
def Home.newNotes (h : Home) (c : Nat) (l : List TagRef) : List (Nat × Nat) :=
  (l.map fun t => (c, t.key)).filter fun n => !h.notes.contains n

theorem mem_newNotes (h : Home) (l : List TagRef) (b : Nat × Nat) :
    b ∈ h.notes ++ h.newNotes c l ↔ b ∈ h.notes ∨ ∃ x ∈ l, b = (c, x.key) := by
  by_cases hb : b ∈ h.notes <;> simp [Home.newNotes, hb, eq_comm]

theorem exec_tagCheck {n : Nat} (hc : c < 8) (hi : (s.here.core c).issuing = true) (hn : n < 8) :
    exec (.tagCheck c n) s = .next { s with d := ({ s.here with home := { s.here.home with notes := s.here.home.notes ++ s.here.home.newNotes c (s.here.blockedAhead c n) } } : Dev).modCore c fun k => { k with lookAhead := mput k.lookAhead n (decide (s.here.blockedAhead c n = [])) } } := by
  have arm : exec (.tagCheck c n) s = execTagCheck c n s := rfl
  simp only [arm, execTagCheck, onDev_here, hc, hi, hn, and_self, if_true]
  rfl

theorem tagCheck_records {n : Nat} (hc : c < 8) (hi : (s.here.core c).issuing = true) (hn : n < 8) :
    Answers (.tagCheck c n) s fun t =>
      t.d.core c = { s.here.core c with lookAhead := mput (s.here.core c).lookAhead n (decide (s.here.blockedAhead c n = [])) } ∧
      (∀ b, b ∈ t.d.home.notes ↔ b ∈ s.here.home.notes ∨ ∃ x ∈ s.here.blockedAhead c n, b = (c, x.key)) ∧
      t = { s with d := { s.here with cores := t.d.cores, home := { s.here.home with notes := t.d.home.notes } } } ∧
      ∀ i, i ≠ c → t.d.core i = s.here.core i :=
  ⟨_, exec_tagCheck hc hi hn, Dev.core_modCore_same .., mem_newNotes _ _, rfl, fun _ hne => Dev.core_modCore_ne _ _ hne⟩

/-! ### Notification of a core -/

/-- The device once core c has been told: its registrations for tags that block none of its next eight instructions are gone, and its
look-ahead is fresh. -/
def Dev.told (d : Dev) (c : Nat) : Dev :=
  ({ d with home := { d.home with notes := d.home.notes.filter fun n => n.1 ≠ c ||
    ((List.range 8).flatMap fun n => (d.blockedAhead c n).map (·.key)).contains n.2 } } : Dev).modCore c fun k =>
      { k with lookAhead := mmap k.lookAhead fun n _ => decide (d.blockedAhead c n = []) }

theorem mem_told (d : Dev) (b : Nat × Nat) : b ∈ (d.told c).home.notes ↔
    b ∈ d.home.notes ∧ (b.1 = c → ∃ n < 8, ∃ x ∈ d.blockedAhead c n, x.key = b.2) := by
  simp [Dev.told, imp_iff_not_or]

theorem told_core_ne (d : Dev) {i : Nat} (h : i ≠ c) : (d.told c).core i = d.core i := Dev.core_modCore_ne _ _ h

theorem told_core (d : Dev) (i : Nat) : (d.told c).core i = { d.core i with lookAhead := ((d.told c).core i).lookAhead } := by
  by_cases h : i = c
  · rw [h, Dev.told, Dev.core_modCore_same]
    rfl
  · rw [told_core_ne d h]

theorem exec_tagNotify {k : Nat} (hc : c < 8) (hk : (c, k) ∈ s.here.home.notes) : exec (.tagNotify c) s =
    .next { s with d := (if s.here.blockedAhead c 0 = [] then (s.here.told c).setFld (R.MC_SEQ_STATUS c) F.MC_SEQ_STATUS_tag_wait 0 else s.here.told c) } := by
  have arm : exec (.tagNotify c) s = execTagNotify c s := rfl
  have hany : (s.here.home.notes.any fun n => n.1 = c) = true := List.any_eq_true.2 ⟨_, hk, by simp⟩
  simp only [arm, execTagNotify, onDev_here, hc, hany, and_self, if_true]
  rfl

theorem tagNotify_tells {k : Nat} (hc : c < 8) (hk : (c, k) ∈ s.here.home.notes) :
    Answers (.tagNotify c) s fun t =>
      (∀ b, b ∈ t.d.home.notes ↔ b ∈ s.here.home.notes ∧ (b.1 = c → ∃ n < 8, ∃ x ∈ s.here.blockedAhead c n, x.key = b.2)) ∧
      (s.here.blockedAhead c 0 = [] → t.d.flag (R.MC_SEQ_STATUS c) F.MC_SEQ_STATUS_tag_wait = false) ∧
      (s.here.blockedAhead c 0 ≠ [] → t.d.regs = s.here.regs) ∧
      t = { s with d := { s.here with regs := t.d.regs, cores := t.d.cores, home := { s.here.home with notes := t.d.home.notes } } } ∧
      (∀ o, o ≠ R.MC_SEQ_STATUS c → t.d.reg o = s.here.reg o) ∧
      (∀ i, (t.d.core i) = { s.here.core i with lookAhead := (t.d.core i).lookAhead }) ∧ ∀ i, i ≠ c → t.d.core i = s.here.core i := by
  refine ⟨_, exec_tagNotify hc hk, ?_⟩
  by_cases hfree : s.here.blockedAhead c 0 = []
  · simp only [if_pos hfree]
    refine ⟨mem_told s.here, fun _ => ?ended, fun h => absurd hfree h, ?rest, fun o ho => Dev.reg_setFld_ne _ _ _ ho, fun i => ?core, fun i hi => ?others⟩
    case ended => simp [Dev.flag, Dev.fld_setFld_same _ _ _ _ (show F.MC_SEQ_STATUS_tag_wait.lsb + F.MC_SEQ_STATUS_tag_wait.w ≤ 32 by decide)]
    case rest => rfl
    case core => rw [Dev.core_setFld, told_core]
    case others => rw [Dev.core_setFld, told_core_ne _ hi]
  · simp only [if_neg hfree]
    exact ⟨mem_told s.here, fun h => absurd h hfree, fun _ => rfl, rfl, fun _ _ => rfl, told_core s.here, fun _ hi => told_core_ne s.here hi⟩

/-- Settles O15: each of the three commands from the lemma that says what it leaves. -/
theorem tokensAndTagsArrive : Obligations.TokensAndTagsArrive := by
  unfold Obligations.TokensAndTagsArrive
  exact ⟨fun _ _ _ _ _ h => remoteToken_arrives h, fun _ _ _ hc hi hn => tagCheck_records hc hi hn, fun _ _ _ hc hk => tagNotify_tells hc hk⟩

end Sys2Proof.Machine
end

section
/-!
SUPPORT. A fault after issue and a token timeout abort the kernel (R77, R106, R415).
-/

namespace Sys2Proof.Machine

/-- What precedes an abort and changes only what an abort of core c may change. -/
theorem Dev.Aborted.of_before {d e g : Dev} {c : Nat} {code : Code} {r : Run} (h : Dev.PoolOnly d e) (a : Dev.Aborted e g c code r) :
    Dev.Aborted d g c code r := by
  have hcores : e.cores = d.cores := by rw [h.rest]
  have hsched : e.sched = d.sched := by rw [h.rest]
  have hpart : e.participants c = d.participants c := by
    unfold Dev.participants
    simp only [Dev.core_congr hcores]
  have hframe : e.runFrame r = d.runFrame r := by
    unfold Dev.runFrame Dev.frame?
    rw [hsched]
  obtain ⟨only, freed, fault, voided, kept⟩ := a
  rw [hpart] at only freed
  rw [hframe, hsched] at voided kept
  exact ⟨(h.abort _).trans only, freed, fault, voided, kept⟩

theorem poolOnly_fresh (d : Dev) : Dev.PoolOnly d d.fresh.2 := ⟨rfl, fun _ _ _ => rfl, fun _ _ => rfl⟩

/-- The fault that INSTRUCTION_FAULT reports is one of those the data hold. -/
theorem mem_chosen {α : Type} (b : α) (l : List α) (v : Nat) : ((b :: l)[v % (b :: l).length]?).getD b ∈ b :: l := by
  have hlt : v % (b :: l).length < (b :: l).length := Nat.mod_lt _ (by simp)
  rw [List.getElem?_eq_getElem hlt]
  exact List.getElem_mem hlt

/-- A fault the data hold is reported after a part of the writes (R106). -/
theorem faultFlight_aborts {d : Dev} {c : Nat} {x : InFlight} {r : Run} (hc : c < 8) (hpool : isPoolOp x.word = false)
    (hbad : (d.resOf c (d.core c) x).bad ≠ []) (hr : (d.core c).run = some r) (hp : r.replay = false) :
    ∃ b ∈ (d.resOf c (d.core c) x).bad, Dev.Aborted d (d.faultFlight c x) c b.1 r := by
  generalize hres : d.resOf c (d.core c) x = res at hbad ⊢
  obtain ⟨b, l, hl⟩ := List.exists_cons_of_ne_nil hbad
  refine ⟨((b :: l)[d.fresh.1 % (b :: l).length]?).getD b, by rw [hl]; exact mem_chosen b l _, ?_⟩
  have hpart : Dev.PoolOnly d ((d.fresh.2.fresh.2.noteRead res.reads).writeCells (res.ws.take (d.fresh.2.fresh.1 % (res.ws.length + 1)))) :=
    .trans (poolOnly_fresh d) (.trans (poolOnly_fresh _) (.trans (Dev.storesOnly_noteRead _ _).pool (Dev.storesOnly_writeCells _ _).pool))
  have harm : d.faultFlight c x =
      ((d.fresh.2.fresh.2.noteRead res.reads).writeCells (res.ws.take (d.fresh.2.fresh.1 % (res.ws.length + 1)))).fault c
        (((b :: l)[d.fresh.1 % (b :: l).length]?).getD b).1 (((b :: l)[d.fresh.1 % (b :: l).length]?).getD b).2 := by
    simp only [Dev.faultFlight, hpool, Bool.false_eq_true, if_false, hres, hl]
  rw [harm]
  exact .of_before hpart (Dev.fault_spec _ hc _ _ (by rw [Dev.core_congr (show _ = d.cores by rw [hpart.rest]), hr]) hp)

/-- INSTRUCTION_FAULT of an instruction in flight; a STOOL only while it runs. -/
theorem exec_instructionFault {s : State} {c id : Nat} {x : InFlight} (hx : s.here.infl? c id = some x)
    (hstool : iOp x.word = 0x60 → (mgetD s.here.stool (stackOf c) {}).running = some (c, id)) :
    exec (.instructionFault c id) s = .next { s with d := s.here.faultFlight c x } := by
  have arm : exec (.instructionFault c id) s = execInstructionFault c id s := rfl
  have hruns : (decide (iOp x.word = 0x60) && decide ((mgetD s.here.stool (stackOf c) {}).running ≠ some (c, id))) = false := by
    rw [Bool.and_eq_false_iff, decide_eq_false_iff_not, decide_eq_false_iff_not, not_not]
    exact (em _).symm.imp_right hstool
  simp only [arm, execInstructionFault, onDev_here, hx, hruns, Bool.false_eq_true, if_false]

theorem exec_tokenTimeout (s : State) (c : Nat) : exec (.tokenTimeout c) s = .next { s with d :=
    (if (s.here.core c).issuing && (s.here.core c).waitSince.isSome && s.here.reg (R.MC_TOKEN_TIMEOUT c) ≠ 0 then
      s.here.fault c .tokenTimeout 0 else s.here) } := rfl

/-- Settles O14: the fault after issue comes after changes an abort may make too, the timeout's is the fault itself. -/
theorem faultsAbortTheKernel : Obligations.FaultsAbortTheKernel := by
  unfold Obligations.FaultsAbortTheKernel
  refine ⟨fun s c id x r hc hx hpool hstool hbad hr hp => ?fault, fun s c r hc hi hw ho hr hp => ?timeout, fun s c ho => ?off⟩
  case fault => exact ⟨_, exec_instructionFault hx hstool, rfl, faultFlight_aborts hc hpool hbad hr hp⟩
  case timeout =>
    refine ⟨_, exec_tokenTimeout s c, rfl, ?_⟩
    simp only [hi, hw, ho, ne_eq, not_false_eq_true, decide_true, Bool.and_self, if_true]
    exact Dev.fault_spec _ hc _ _ hr hp
  case off => simp [exec_tokenTimeout, ho]

end Sys2Proof.Machine
end

section
/-!
SUPPORT. ALLOC (R159): what a pop from the head of a pool leaves (R252, R254, R256), and the instruction around it.
-/

namespace Sys2Proof.Machine

variable {c : Nat} {w : IWord}

/-! ### A pop from the head of a pool -/

/-- The low-water rule touches nothing of the pools but whether it has reported. -/
theorem lowFell_bpm (d : Dev) (p : Nat) : ∃ l, (d.lowFell p).bpm = { d.bpm with lowPosted := l } := by
  simp only [Dev.lowFell]
  split_ifs
  · exact ⟨_, rfl⟩
  · exact ⟨_, rfl⟩
  · exact ⟨_, Dev.health_bpm ..⟩

theorem lowFell_reg_ne (d : Dev) (p : Nat) {o : Nat} (h1 : o ≠ R.BPM_POOL_STAT p) (h2 : o ≠ R.TEL_LOG_HEAD) : (d.lowFell p).reg o = d.reg o := by
  simp only [Dev.lowFell]
  split_ifs
  · rfl
  · exact d.reg_setFld_ne _ _ h1
  · exact (Dev.reg_health _ _ _ _ _ _ _ h2).trans (d.reg_setFld_ne _ _ h1)

/-- It changes no byte. -/
theorem lowFell_rd (d : Dev) {p : Nat} (hp : p < 64) : (d.lowFell p).rd = d.rd := by
  have hstores : (d.lowFell p).mem = d.mem ∧ (d.lowFell p).dram = d.dram := by
    simp only [Dev.lowFell]
    split_ifs <;> simp
  funext a
  exact Dev.rd_of_regs hstores.1 hstores.2
    (fun o h1 h2 => lowFell_reg_ne d p (by simp only [R.BPM_POOL_STAT]; omega) (by simp only [R.TEL_LOG_HEAD]; omega)) a

/-- The device when the head of pool p, buffer h, has been read and taken with count n. -/
def Dev.takeHead (d : Dev) (p h n : Nat) : Dev :=
  let next := d.rdLE (d.bufAddr h) 4
  let e := d.noteRead (span (d.bufAddr h) 16)
  (({ e with bpm := { e.bpm with heads := if next = nullHandle then mdel e.bpm.heads p else mput e.bpm.heads p next } } : Dev).setBuf h
    ⟨.allocated, n⟩).lowFell p

theorem pop_canPop {d : Dev} {p i : Nat} (h : d.canPop p i) (n : Nat) :
    d.pop p n = (some (mkHandle p i), d.takeHead p (mkHandle p i) n) := by
  obtain ⟨-, -, hstate, hhead, hguard⟩ := h
  have hone : d.popOne p n = (some (mkHandle p i), d.takeHead p (mkHandle p i) n) := by
    simp only [Dev.popOne, hstate, hhead, hguard, ne_eq, not_true_eq_false, if_false, if_true, Dev.takeHead]
  simp only [Dev.pop, hone]

theorem takeHead_bpm (d : Dev) (p h n : Nat) : ∃ l, (d.takeHead p h n).bpm = { d.bpm with bufs := mput d.bpm.bufs h ⟨.allocated, n⟩, heads := if d.rdLE (d.bufAddr h) 4 = nullHandle then mdel d.bpm.heads p else mput d.bpm.heads p (d.rdLE (d.bufAddr h) 4), lowPosted := l } := by
  have hread : (d.noteRead (span (d.bufAddr h) 16)).bpm = d.bpm := by rw [(d.storesOnly_noteRead _).rest]
  simp only [Dev.takeHead]
  generalize d.noteRead (span (d.bufAddr h) 16) = e at hread ⊢
  obtain ⟨l, hl⟩ := lowFell_bpm (Dev.setBuf { e with bpm := { e.bpm with heads := if d.rdLE (d.bufAddr h) 4 = nullHandle then mdel e.bpm.heads p else mput e.bpm.heads p (d.rdLE (d.bufAddr h) 4) } } h ⟨.allocated, n⟩) p
  exact ⟨l, by rw [hl, ← hread]; rfl⟩

theorem takeHead_popped (d : Dev) (p i n : Nat) : Popped d (d.takeHead p (mkHandle p i) n) p i n := by
  obtain ⟨l, hl⟩ := takeHead_bpm d p (mkHandle p i) n
  generalize d.takeHead p (mkHandle p i) n = e at hl ⊢
  rw [Popped, hl]
  refine ⟨mget_mput_same .., fun h hne => mget_mput_ne _ _ hne, ?head, fun q hq => ?heads, rfl⟩
  case head =>
    split
    · exact mget_mdel_same ..
    · exact mget_mput_same ..
  case heads =>
    simp only []
    split
    · exact mget_mdel_ne _ hq
    · exact mget_mput_ne _ _ hq

/-- On a store without check errors no byte changes. -/
theorem takeHead_rd {d : Dev} {p h n : Nat} (hp : p < 64) (hc : d.mem.chk = []) : (d.takeHead p h n).rd = d.rd := by
  rw [Dev.takeHead, lowFell_rd _ hp, ← (d.sameBytes_noteRead hc (span (d.bufAddr h) 16)).rd]
  funext a
  exact Dev.rd_of_regs rfl rfl (fun _ _ _ => rfl) a

theorem takeHead_poolOnly {d : Dev} {p i : Nat} (h : d.canPop p i) (n : Nat) : Dev.PoolOnly d (d.takeHead p (mkHandle p i) n) := by
  have hpop := d.poolOnly_pop (p := p) n h.1
  rwa [pop_canPop h] at hpop

theorem pop_disabled {d : Dev} {p : Nat} (hs : d.poolState p ≠ 1) (hf : d.fld (R.BPM_POOL_CFG p) F.BPM_POOL_CFG_policy ≠ 1) (n : Nat) :
    d.pop p n = (none, d) := by
  simp only [Dev.pop, Dev.popOne, hs, hf, ne_eq, not_false_eq_true, if_true, if_false]

theorem Dev.Agree.canPop {d e : Dev} (h : Dev.Agree d e) {p i : Nat} (hd : d.canPop p i) : e.canPop p i := by
  obtain ⟨hp, hi, hstate, hhead, hguard⟩ := hd
  exact ⟨hp, hi, (h.poolState hp).trans hstate, by rw [h.bpm, hhead], (h.guardOk _).trans hguard⟩

theorem Popped.of_agree {d e g : Dev} (h : Dev.Agree d e) {p i n : Nat} (hg : Popped e g p i n) : Popped d g p i n := by
  unfold Popped at hg ⊢
  rwa [h.bpm, h.bufAddr, h.rdLE] at hg

/-! ### The instruction -/

theorem allocPool_lt (l : List Word) : allocPool l w < 64 := by
  unfold allocPool
  split
  · exact imm_lt 16 6
  · exact Nat.mod_lt _ (by decide)

/-- ALLOC's own effect once it holds buffer h: the journal, the handle in rd and with try 0 in rs. -/
def Dev.holdBuffer (d : Dev) (c : Nat) (w : IWord) (h : Nat) : Dev :=
  let e := (d.modCore c fun k => { k with journal := k.journal ++ [(.alloc, h)] }).setS c (imm w 0 5) h
  if modBit w 0 then e.setS c (imm w 5 5) 0 else e

theorem holdBuffer_core (d : Dev) (h : Nat) : (d.holdBuffer c w h).core c = { d.core c with
    journal := (d.core c).journal ++ [(.alloc, h)],
    sregs := (let l := sPut (d.core c).sregs (imm w 0 5) (BitVec.ofNat 32 h); if modBit w 0 then sPut l (imm w 5 5) 0 else l) } := by
  cases hm : modBit w 0 <;> simp [Dev.holdBuffer, Dev.setS, setSreg, sPut, hm]

theorem holdBuffer_core_ne (d : Dev) (h : Nat) {i : Nat} (hi : i ≠ c) : (d.holdBuffer c w h).core i = d.core i := by
  have hset : ∀ (e : Dev) r v, (e.setS c r v).core i = e.core i := fun e r v => Dev.core_modCore_ne _ _ hi
  simp only [Dev.holdBuffer]
  split
  · rw [hset, hset, Dev.core_modCore_ne _ _ hi]
  · rw [hset, Dev.core_modCore_ne _ _ hi]

theorem holdBuffer_rest (d : Dev) (h : Nat) : d.holdBuffer c w h = { d with cores := (d.holdBuffer c w h).cores } := by
  unfold Dev.holdBuffer
  simp only []
  split <;> rfl

theorem holdBuffer_tok (d : Dev) (h : Nat) : (d.holdBuffer c w h).tok = d.tok := by
  funext i x
  unfold Dev.tok
  by_cases hi : i = c
  · rw [hi, holdBuffer_core]
  · rw [holdBuffer_core_ne _ _ hi]

section
variable {d e : Dev} (h : d.allocReady c w)
include h

/-- ALLOC by what the pool answers. -/
theorem Dev.doAlloc_taken {b : Nat} (hpop : ((d.takeWait c w).clearWaits c).pop (allocPool (d.core c).sregs w) (imm w 24 8) = (some b, e)) :
    d.doAlloc c w = (((e.holdBuffer c w b).setPc c (d.pc c + 1)).signal c w).countRetired c := by
  obtain ⟨⟨-, hok, hwait⟩, hroom⟩ := h
  rw [Bool.and_eq_true] at hok
  rw [allocPool] at hpop
  simp only [Dev.doAlloc, hok, hwait, hroom, hpop, Bool.not_true, Bool.or_self, Bool.false_eq_true, if_false, Dev.holdBuffer]

theorem Dev.doAlloc_tryEmpty (hpop : ((d.takeWait c w).clearWaits c).pop (allocPool (d.core c).sregs w) (imm w 24 8) = (none, e))
    (hm : modBit w 0 = true) : d.doAlloc c w = (((e.setS c (imm w 5 5) 5).setPc c (d.pc c + 1)).signal c w).countRetired c := by
  obtain ⟨⟨-, hok, hwait⟩, hroom⟩ := h
  rw [Bool.and_eq_true] at hok
  rw [allocPool] at hpop
  simp only [Dev.doAlloc, hok, hwait, hroom, hpop, hm, Bool.not_true, Bool.or_self, Bool.false_eq_true, if_false, if_true]

theorem Dev.doAlloc_empty (hpop : ((d.takeWait c w).clearWaits c).pop (allocPool (d.core c).sregs w) (imm w 24 8) = (none, e))
    (hm : modBit w 0 = false) : d.doAlloc c w = e.fault c .poolEmpty 0 := by
  obtain ⟨⟨-, hok, hwait⟩, hroom⟩ := h
  rw [Bool.and_eq_true] at hok
  rw [allocPool] at hpop
  simp only [Dev.doAlloc, hok, hwait, hroom, hpop, hm, Bool.not_true, Bool.or_self, Bool.false_eq_true, if_false]

end

theorem start_agree (d : Dev) : Dev.Agree d ((d.takeWait c w).clearWaits c) :=
  ((d.coreOnly_takeWait c w).trans (Dev.coreOnly_clearWaits _ c)).agree

/-- A pool that is not ENABLED and fails when empty answers nothing. -/
theorem start_pop_disabled {d : Dev} {p : Nat} (hp : p < 64) (hs : d.poolState p ≠ 1)
    (hf : d.fld (R.BPM_POOL_CFG p) F.BPM_POOL_CFG_policy ≠ 1) (n : Nat) :
    ((d.takeWait c w).clearWaits c).pop p n = (none, (d.takeWait c w).clearWaits c) := by
  have hag := start_agree (c := c) (w := w) d
  exact pop_disabled (by rwa [hag.poolState hp]) (by rwa [hag.fld (by simp only [R.BPM_POOL_CFG]; omega)]) n

theorem Popped.of_bpm {d e g : Dev} {p i n : Nat} (h : Popped d e p i n) (hb : g.bpm = e.bpm) : Popped d g p i n := by
  unfold Popped
  rwa [hb]

theorem holdBuffer_rd (d : Dev) (h : Nat) : (d.holdBuffer c w h).rd = d.rd := by
  funext a
  rw [holdBuffer_rest]
  exact Dev.rd_of_regs rfl rfl (fun _ _ _ => rfl) a

/-- ALLOC of a pool whose head is in order: from the start of the issue, over the pop, to the end. -/
theorem alloc_takes {s : State} {i : Nat} (h : s.here.allocReady c w) (hcan : s.here.canPop (allocPool (s.here.core c).sregs w) i) :
    ∃ e p g : Dev, Dev.Started s.here e c w ∧ p = e.takeHead (allocPool (s.here.core c).sregs w) (mkHandle (allocPool (s.here.core c).sregs w) i) (imm w 24 8) ∧
      Dev.PoolOnly e p ∧ Dev.Finished (p.holdBuffer c w (mkHandle (allocPool (s.here.core c).sregs w) i)) g c (s.here.pc c + 1) w ∧
      exec (.alloc c) s = .next { s with d := g } := by
  have hat := h.1.1
  have hcan' := (start_agree (c := c) (w := w) s.here).canPop hcan
  refine ⟨_, _, _, s.here.start_spec c w, rfl, takeHead_poolOnly hcan' _, Dev.finish_spec _ _ w hat.1, ?_⟩
  rw [← Dev.doAlloc_taken h (pop_canPop hcan' _)]
  exact congrArg (fun d => Host.Outcome.next { s with d := d }) (onOp_at hat fun w => s.here.doAlloc c w)

/-! ### The statement -/

/-- Settles O5: with a head in order the pop stands between start and end of the issue; without one the pool is left alone. -/
theorem allocTakesABuffer : Obligations.AllocTakesABuffer := by
  unfold Obligations.AllocTakesABuffer
  refine ⟨fun s c i w h hcan => ?taken, fun s c w h hs hf hm => ?tryEmpty, fun s c w h hs hf hm => ?empty⟩
  case taken =>
    obtain ⟨e, p, g, he, hp, hpool, hg, hexec⟩ := alloc_takes h hcan
    generalize hq : allocPool (s.here.core c).sregs w = q at *
    have hpcores : ∀ j, p.core j = e.core j := Dev.core_congr (by rw [hpool.rest])
    have hhome : g.home = e.home := by rw [hg.rest, holdBuffer_rest, hpool.rest]
    refine ⟨_, hexec, ?popped, ?sregs, ?journal, hg.pc, ?count, ?tok, rfl, ?home, ?streams, fun j hj => ?others, fun hchk a => ?bytes⟩
    case popped =>
      have hag : Dev.Agree s.here e := ⟨by rw [he.rest], by rw [he.rest], by rw [he.rest], fun o ho => he.regs o (coreReg_ne ho).1⟩
      have hpop := (takeHead_popped e q i (imm w 24 8)).of_agree hag
      rw [← hp] at hpop
      exact hpop.of_bpm (by rw [hg.rest, holdBuffer_rest])
    case sregs => rw [hg.own, holdBuffer_core, hpcores, he.own]
    case journal => rw [hg.own, holdBuffer_core, hpcores, he.own]
    case count =>
      have hc := h.1.1.1
      rw [hg.count, Dev.reg_congr (show _ = p.regs by rw [holdBuffer_rest]),
        hpool.regs _ (by simp only [R.MC_SEQ_RETIRED]; omega) (by simp only [R.MC_SEQ_RETIRED]; omega), he.regs _ (retired_ne_status c).symm]
    case tok => rw [hg.tok, holdBuffer_tok, show p.tok = e.tok from funext fun j => funext fun x => by rw [Dev.tok, Dev.tok, hpcores], he.tok]
    case home => rw [hhome, he.rest]
    case streams => rw [hg.rest, holdBuffer_rest, hpool.rest, he.rest]
    case others => rw [hg.others j hj, holdBuffer_core_ne _ _ hj, hpcores, he.others j hj]
    case bytes =>
      have hq64 : q < 64 := hcan.1
      rw [hg.rd, holdBuffer_rd, hp, takeHead_rd hq64 (by rw [he.rest]; exact hchk), he.rd]
  case tryEmpty =>
    refine answers_here (f := fun d w => d.doAlloc c w) rfl h.1.1 ?_
    simp only [Dev.doAlloc_tryEmpty h (start_pop_disabled (allocPool_lt _) hs hf _) hm,
      ← issueSeq_ready (eff := fun d => d.setS c (imm w 5 5) 5) h.1.2.2]
    have hdone := Dev.issueSeq_done (next := s.here.pc c + 1) (quiet_setS c (imm w 5 5) 5) h.1.2.2
    refine ⟨issued_of rfl hdone, by rw [hdone.1.rest], ?_, seq_tok h.1.2.2 fun d => setS_tok d _ _⟩
    rw [Dev.issueSeq_sregs h.1.2.2, setS_sregs, sregs_start]
    rfl
  case empty =>
    have hempty := Dev.doAlloc_empty h (start_pop_disabled (allocPool_lt _) hs hf _) hm
    rw [← hempty]
    exact congrArg (fun d => Host.Outcome.next { s with d := d }) (onOp_at h.1.1 fun w => s.here.doAlloc c w)

end Sys2Proof.Machine
end

section
/-!
SUPPORT. The scheduler's list of frames: what finding, changing and dropping a frame leave.
-/

namespace Sys2Proof.Machine

theorem find_map_same {α : Type} {p : α → Bool} {g : α → α} {l : List α} {a : α} (h : l.find? p = some a) (hg : p (g a) = true) :
    (l.map fun x => if p x then g x else x).find? p = some (g a) := by
  induction l with
  | nil => simp at h
  | cons x r ih =>
    by_cases hx : p x = true
    · obtain rfl : x = a := by simpa [hx] using h
      simp [hx, hg]
    · simp only [List.map_cons, hx, Bool.false_eq_true, if_false, List.find?_cons] at h ⊢
      exact ih h

/-- The frame found is the one asked for. -/
theorem frame?_key {d : Dev} {st n : Nat} {rev : Bool} {f : Frame} (h : d.frame? st n rev = some f) :
    f.stream = st ∧ f.num = n ∧ f.revisit = rev := by
  have hp := List.find?_some h
  simpa [and_assoc] using hp

/-- A frame changed is found as changed, where the change keeps its stream and numbers. -/
theorem frame?_modFrame {d : Dev} {st n : Nat} {rev : Bool} {f : Frame} {g : Frame → Frame} (h : d.frame? st n rev = some f)
    (hs : (g f).stream = f.stream) (hn : (g f).num = f.num) (hr : (g f).revisit = f.revisit) :
    (d.modFrame st n rev g).frame? st n rev = some (g f) := by
  obtain ⟨rfl, rfl, rfl⟩ := frame?_key h
  exact find_map_same h (by simp [hs, hn, hr])

theorem frame?_congr {d e : Dev} (h : d.sched.frames = e.sched.frames) (st n : Nat) (rev : Bool) : d.frame? st n rev = e.frame? st n rev := by
  rw [Dev.frame?, Dev.frame?, h]

end Sys2Proof.Machine
end

section
/-!
SUPPORT. KERNEL_DISPATCH (R67, R70 to R76): what starting a run leaves on its core, and the loop over the participants.
-/

namespace Sys2Proof.Machine

/-! ### A run on one core -/

/-- Core c holds run r with the scalar registers l, and nothing of an earlier kernel; its sequencer stands at 0, busy with the context. -/
structure Dev.Runs (e : Dev) (c : Nat) (r : Run) (l : List Word) : Prop where
  run : (e.core c).run = some r
  sregs : (e.core c).sregs = l
  tokens : (e.core c).tokens = []
  planeA : (e.core c).planeA = none
  planeS : (e.core c).planeS = none
  ibuf : (e.core c).ibuf = []
  filled : (e.core c).filled = false
  pc : e.pc c = 0
  busy : e.flag (R.MC_SEQ_STATUS c) F.MC_SEQ_STATUS_busy = true
  context : e.fld (R.MC_SEQ_STATUS c) F.MC_SEQ_STATUS_context = r.ctx % 64

theorem Dev.Runs.of_same {d e : Dev} {c : Nat} {r : Run} {l : List Word} (h : Dev.Runs d c r l) (hk : e.core c = d.core c)
    (hr : e.reg (R.MC_SEQ_STATUS c) = d.reg (R.MC_SEQ_STATUS c)) : Dev.Runs e c r l := by
  have hf : ∀ f, e.fld (R.MC_SEQ_STATUS c) f = d.fld (R.MC_SEQ_STATUS c) f := fun f => by rw [Dev.fld, Dev.fld, hr]
  exact ⟨by rw [hk]; exact h.run, by rw [hk]; exact h.sregs, by rw [hk]; exact h.tokens, by rw [hk]; exact h.planeA, by rw [hk]; exact h.planeS,
    by rw [hk]; exact h.ibuf, by rw [hk]; exact h.filled, (hf _).trans h.pc, (congrArg (decide <| · ≠ 0) (hf _)).trans h.busy, (hf _).trans h.context⟩

/-- The start of a run changes its core alone, its sequencer's status register, and the checkpoints. -/
structure Dev.StartOnly (d e : Dev) (c : Nat) : Prop where
  mem : e.mem = d.mem
  now : e.now = d.now
  frames : e.sched.frames = d.sched.frames
  others : ∀ i, i ≠ c → e.core i = d.core i
  regs : ∀ o, o ≠ R.MC_SEQ_STATUS c → e.reg o = d.reg o

/-- The registers after the start of a run. -/
theorem startRun_regs (d : Dev) (c : Nat) (x : Ctx) (r : Run) (l : List Word) : (d.startRun c x r l).regs =
    (((d.setFld (R.MC_SEQ_STATUS c) F.MC_SEQ_STATUS_context r.ctx).setFld (R.MC_SEQ_STATUS c) F.MC_SEQ_STATUS_busy 1).setPc c 0).regs := by
  unfold Dev.startRun
  rfl

theorem startRun_runs (d : Dev) (c : Nat) (x : Ctx) (r : Run) (l : List Word) : Dev.Runs (d.startRun c x r l) c r l := by
  have hfld : ∀ f, (d.startRun c x r l).fld (R.MC_SEQ_STATUS c) f = _ := Dev.fld_congr (startRun_regs d c x r l) (R.MC_SEQ_STATUS c)
  refine ⟨?_, ?_, ?_, ?_, ?_, ?_, ?_, ?pc, ?busy, ?context⟩
  case pc => exact (hfld _).trans (setPc_pc _ 0)
  case busy =>
    rw [Dev.flag, hfld, Dev.setPc, Dev.fld_setFld_other _ _ _ (by decide) (by decide), Dev.fld_setFld_same _ _ _ _ (by decide)]
    rfl
  case context =>
    rw [hfld, Dev.setPc, Dev.fld_setFld_other _ _ _ (by decide) (by decide), Dev.fld_setFld_other _ _ _ (by decide) (by decide),
      Dev.fld_setFld_same _ _ _ _ (by decide)]
    rfl
  all_goals simp [Dev.startRun, Dev.core, Dev.setCore]

theorem startRun_only (d : Dev) (c : Nat) (x : Ctx) (r : Run) (l : List Word) : Dev.StartOnly d (d.startRun c x r l) c where
  mem := by simp [Dev.startRun]
  now := by simp [Dev.startRun]
  frames := by simp [Dev.startRun]
  others i hi := by simp [Dev.startRun, Dev.core, Dev.setCore, mgetD_mput_ne _ _ _ hi]
  regs o ho := by
    rw [Dev.reg_congr (startRun_regs d c x r l), setPc_reg_ne _ _ ho, Dev.reg_setFld_ne _ _ _ ho, Dev.reg_setFld_ne _ _ _ ho]

/-! ### Every participant -/

/-- The run of participant i (R73, R78). -/
def Dev.runOf (d : Dev) (f : Frame) (x : Ctx) (claiming : Bool) (est stack n i : Nat) : Run :=
  { ctx := f.ctx, variant := x.variant, kernel := x.firstKernel + f.kernel, count := x.kernelCount, stream := f.stream,
    frame := f.num, epoch := f.ep.num, stamp := f.stamp, s6 := i, s7 := n, claiming := claiming, replay := false,
    gen := d.sched.gen + 1, stack := stack, revisit := f.revisit, started := d.now, est := est }

/-- Participant i starts on core c. -/
def Dev.startOn (d : Dev) (f : Frame) (x : Ctx) (save : List Word) (claiming : Bool) (est stack n : Nat) (ci : Nat × Nat) : Dev :=
  ({ d with sched := { d.sched with gen := d.sched.gen + 1 } } : Dev).startRun ci.1 x (d.runOf f x claiming est stack n ci.2)
    (loadSregs f x save f.kernel ci.2 n)

/-- The run is kernel f.kernel of frame f, as participant i of n, from now. -/
structure Run.isFor (r : Run) (f : Frame) (x : Ctx) (now n i : Nat) : Prop where
  ctx : r.ctx = f.ctx
  variant : r.variant = x.variant
  kernel : r.kernel = x.firstKernel + f.kernel
  stream : r.stream = f.stream
  frame : r.frame = f.num
  s6 : r.s6 = i
  s7 : r.s7 = n
  replay : r.replay = false
  started : r.started = now

section
variable (f : Frame) (x : Ctx) (save : List Word) (claiming : Bool) (est stack n : Nat)

theorem runOf_isFor (d : Dev) (i : Nat) : (d.runOf f x claiming est stack n i).isFor f x d.now n i :=
  ⟨rfl, rfl, rfl, rfl, rfl, rfl, rfl, rfl, rfl⟩

theorem startOn_only (d : Dev) (ci : Nat × Nat) : Dev.StartOnly d (d.startOn f x save claiming est stack n ci) ci.1 := by
  obtain ⟨hmem, hnow, hframes, hothers, hregs⟩ := startRun_only ({ d with sched := { d.sched with gen := d.sched.gen + 1 } } : Dev) ci.1 x
    (d.runOf f x claiming est stack n ci.2) (loadSregs f x save f.kernel ci.2 n)
  exact ⟨hmem, hnow, hframes, hothers, hregs⟩

theorem status_inj {c i : Nat} (h : c ≠ i) : R.MC_SEQ_STATUS c ≠ R.MC_SEQ_STATUS i := by
  simp only [R.MC_SEQ_STATUS]
  omega

/-- The participants start one after the other, each on a core of its own. -/
theorem startAll_spec (cs : List Nat) (hn : cs.Nodup) (k : Nat) (d : Dev) :
    let e := (cs.zipIdx k).foldl (Dev.startOn · f x save claiming est stack n) d
    (∀ i c, cs[i]? = some c → ∃ r : Run, r.isFor f x d.now n (k + i) ∧ Dev.Runs e c r (loadSregs f x save f.kernel (k + i) n)) ∧
    (∀ c, c ∉ cs → e.core c = d.core c ∧ e.reg (R.MC_SEQ_STATUS c) = d.reg (R.MC_SEQ_STATUS c)) ∧
    e.mem = d.mem ∧ e.now = d.now ∧ e.sched.frames = d.sched.frames := by
  induction cs generalizing k d with
  | nil => exact ⟨by simp, fun _ _ => ⟨rfl, rfl⟩, rfl, rfl, rfl⟩
  | cons a l ih =>
    rw [List.nodup_cons] at hn
    obtain ⟨hruns, hothers, hmem, hnow, hframes⟩ := ih hn.2 (k + 1) (d.startOn f x save claiming est stack n (a, k))
    obtain ⟨smem, snow, sframes, sothers, sregs⟩ := startOn_only f x save claiming est stack n d (a, k)
    simp only [List.zipIdx_cons, List.foldl_cons]
    refine ⟨fun i c hi => ?participant, fun c hc => ?other, hmem.trans smem, hnow.trans snow, hframes.trans sframes⟩
    case participant =>
      cases i with
      | zero =>
        obtain rfl : a = c := by simpa using hi
        obtain ⟨hk, hr⟩ := hothers a hn.1
        exact ⟨_, runOf_isFor f x claiming est stack n d k, (startRun_runs _ a x _ _).of_same hk hr⟩
      | succ i =>
        obtain ⟨r, hr, hon⟩ := hruns i c (by simpa using hi)
        rw [snow] at hr
        rw [show k + (i + 1) = k + 1 + i by omega]
        exact ⟨r, hr, hon⟩
    case other =>
      rw [List.mem_cons, not_or] at hc
      obtain ⟨hk, hr⟩ := hothers c hc.2
      exact ⟨hk.trans (sothers c hc.1), hr.trans (sregs _ (status_inj hc.1))⟩

end

/-! ### The command -/

/-- What a dispatch does before its participants start: inputs of a first kernel, counters of a claiming one, the turn of a BE frame. -/
def Dev.dispatchHead (d : Dev) (f : Frame) (x : Ctx) (claiming : Bool) (stack : Nat) : Dev :=
  let d := if f.kernel = 0 then d.setInputs x else d
  let d := if claiming then d.zeroCounters f.ctx else d
  if d.frameLc f then d else
    { d with sched := { d.sched with
        rr := f.ctx,
        beWaits := (d.sched.beWaits.filter fun b => d.now < b.2.1 + 10 ^ 7) ++ [(stack, d.now, d.now - f.readyAt)] } }

theorem setInputs_rest (d : Dev) (x : Ctx) : d.setInputs x = { d with home := { d.home with tags := (d.setInputs x).home.tags } } := by
  have hfold : ∀ (l : List (Nat × Nat)) (d : Dev), ∃ m, l.foldl (fun d t => d.setHomeTag t.1 (.ready t.2)) d = { d with home := { d.home with tags := m } } := by
    intro l
    induction l with
    | nil => exact fun d => ⟨_, rfl⟩
    | cons a r ih => exact fun d => (ih _).imp fun m hm => hm
  obtain ⟨m, hm⟩ := hfold (d.inputTags x) d
  rw [Dev.setInputs, hm]

theorem dispatchHead_keeps (d : Dev) (f : Frame) (x : Ctx) (claiming : Bool) (stack : Nat) :
    let e := d.dispatchHead f x claiming stack
    e.mem = d.mem ∧ e.now = d.now ∧ e.sched.frames = d.sched.frames ∧ e.cores = d.cores := by
  have hinputs : (if f.kernel = 0 then d.setInputs x else d).mem = d.mem ∧ (if f.kernel = 0 then d.setInputs x else d).now = d.now ∧
      (if f.kernel = 0 then d.setInputs x else d).sched.frames = d.sched.frames ∧ (if f.kernel = 0 then d.setInputs x else d).cores = d.cores := by
    split
    · rw [setInputs_rest]
      exact ⟨rfl, rfl, rfl, rfl⟩
    · exact ⟨rfl, rfl, rfl, rfl⟩
  simp only [Dev.dispatchHead]
  generalize (if f.kernel = 0 then d.setInputs x else d) = e at *
  split_ifs <;> exact hinputs

theorem dispatch_eq {d : Dev} {f : Frame} {x : Ctx} {st : Stream} (hx : d.ctx? f.ctx = some x) (hst : mget d.streams f.stream = some st)
    (c : Nat) (cs : List Nat) : ∃ claiming est, d.dispatch f (c :: cs) =
      (((c :: cs).zipIdx.foldl (Dev.startOn · f x st.save claiming est (f.stack.getD (stackOf c)) (c :: cs).length)
        (d.dispatchHead f x claiming (f.stack.getD (stackOf c)))).modFrame f.stream f.num f.revisit
          fun f' => { f' with st := .running, stack := some (f.stack.getD (stackOf c)) }) := by
  refine ⟨((d.costOf x f.kernel).map fun c => bit c.flags 0).getD false,
    (d.kernelTime f f.ctx x f.kernel (f.stack.getD (stackOf c)) (d.opProj (f.stack.getD (stackOf c)))).getD 0, ?_⟩
  simp only [Dev.dispatch, hx, hst]
  rfl

theorem dedup_nodup (l : List Nat) : (dedup l).Nodup := by
  have hfold : ∀ (l acc : List Nat), acc.Nodup → (l.foldl (fun acc x => if acc.contains x then acc else acc ++ [x]) acc).Nodup := by
    intro l
    induction l with
    | nil => exact fun _ h => h
    | cons a r ih =>
      intro acc h
      refine ih _ ?_
      simp only []
      split
      · exact h
      · rename_i ha
        simp only [List.contains_eq_mem, decide_eq_true_eq] at ha
        exact List.nodup_append.2 ⟨h, List.nodup_singleton a, fun b hb x hx => by rw [List.mem_singleton] at hx; rintro rfl; exact ha (hx ▸ hb)⟩
  exact hfold l [] List.nodup_nil

/-- Cores that fit a frame are there, each once, and below 8. -/
theorem coresFit_spec {d : Dev} {f : Frame} {cores : List Nat} (h : d.coresFit f cores = true) :
    cores ≠ [] ∧ cores.Nodup ∧ ∀ c ∈ cores, c < 8 := by
  simp only [Dev.coresFit, Bool.and_eq_true, decide_eq_true_eq, List.all_eq_true] at h
  obtain ⟨⟨⟨⟨hne, hdedup⟩, hopen⟩, -⟩, -⟩ := h
  refine ⟨hne, hdedup ▸ dedup_nodup cores, fun c hc => ?_⟩
  have hc := hopen c hc
  simp only [Dev.coreOpen, Dev.inService, Bool.and_eq_true, decide_eq_true_eq] at hc
  obtain ⟨⟨⟨⟨hlt, -⟩, -⟩, -⟩, -⟩ := hc
  exact hlt

theorem exec_kernelDispatch {s : State} {f : Frame} {cores : List Nat} (hw : s.here.working = true) (hredo : s.here.sched.redo = [])
    (hf : (s.here.sched.frames.find? fun g => g.stream = f.stream && s.here.dispatchable g && s.here.orderOk g cores) = some f)
    (hfit : s.here.coresFit f cores = true) :
    exec (.kernelDispatch f.stream cores) s = .next { s with d := s.here.dispatch f cores } := by
  have arm : exec (.kernelDispatch f.stream cores) s = execKernelDispatch f.stream cores s := rfl
  simp only [arm, execKernelDispatch, onDev_here, hw, hredo, hf, hfit, Bool.not_true, Bool.false_eq_true, if_false, if_true, List.find?_nil]

theorem dispatch_starts {s : State} {f : Frame} {x : Ctx} {st : Stream} {cores : List Nat} (hfit : s.here.coresFit f cores = true)
    (hx : s.here.ctx? f.ctx = some x) (hst : mget s.here.streams f.stream = some st) (hf : s.here.frame? f.stream f.num f.revisit = some f) :
    let e := s.here.dispatch f cores
    (∀ i c, cores[i]? = some c → c < 8 ∧ ∃ r : Run, r.isFor f x s.here.now cores.length i ∧
      Dev.Runs e c r (loadSregs f x st.save f.kernel i cores.length)) ∧
    (∀ c, c ∉ cores → e.core c = s.here.core c) ∧ e.mem = s.here.mem ∧
    e.frame? f.stream f.num f.revisit = some { f with st := .running, stack := some (f.stack.getD (stackOf (cores.headD 0))) } := by
  obtain ⟨hne, hnodup, hlt⟩ := coresFit_spec hfit
  obtain ⟨c0, cs, rfl⟩ := List.exists_cons_of_ne_nil hne
  obtain ⟨claiming, est, heq⟩ := dispatch_eq hx hst c0 cs
  obtain ⟨hmem, hnow, hframes, hcores⟩ := dispatchHead_keeps s.here f x claiming (f.stack.getD (stackOf c0))
  generalize s.here.dispatchHead f x claiming (f.stack.getD (stackOf c0)) = d at *
  obtain ⟨aruns, aothers, amem, -, aframes⟩ :=
    startAll_spec f x st.save claiming est (f.stack.getD (stackOf c0)) (c0 :: cs).length (c0 :: cs) hnodup 0 d
  simp only [heq]
  generalize (c0 :: cs).zipIdx.foldl (Dev.startOn · f x st.save claiming est (f.stack.getD (stackOf c0)) (c0 :: cs).length) d = e at *
  refine ⟨fun i c hi => ⟨hlt c (List.mem_of_getElem? hi), ?run⟩, fun c hc => (aothers c hc).1.trans (Dev.core_congr hcores c),
    amem.trans hmem, frame?_modFrame ((frame?_congr (aframes.trans hframes) ..).trans hf) rfl rfl rfl⟩
  case run =>
    obtain ⟨r, hr, hon⟩ := aruns i c hi
    rw [hnow] at hr
    rw [Nat.zero_add] at hr hon
    exact ⟨r, hr, hon.of_same rfl rfl⟩

/-! ### The code fill (R71, R79) -/

/-- What a code fill of core c reads: its kernel's words, and on a change of context the bank. -/
def Dev.fillReads (d : Dev) (c a n b ctx : Nat) : List Nat :=
  span a (16 * n) ++ if (d.core c).dctx ≠ some ctx then span b 16384 else []

section
variable {s : State} {c a n b : Nat} {r : Run} {x : Ctx} (hr : (s.here.core c).run = some r) (hfill : (s.here.core c).filled = false)
  (hx : s.here.ctx? r.ctx = some x) (hcode : s.here.codeAt x r.kernel c = some (a, n)) (hbank : Dev.bankAt x c = some b)
include hr hfill hx hcode hbank

theorem exec_codeFill_poisoned {p : Nat} (hp : s.here.firstPoison (s.here.fillReads c a n b r.ctx) = some p) :
    exec (.codeFillComplete c) s = .next { s with d := (s.here.noteRead (s.here.fillReads c a n b r.ctx)).fault c .poison p } := by
  have arm : exec (.codeFillComplete c) s = execCodeFillComplete c s := rfl
  rw [Dev.fillReads] at hp
  simp only [arm, execCodeFillComplete, onDev_here, hr, hfill, hx, hcode, hbank, hp, Dev.fillReads, Bool.false_eq_true, if_false]

theorem exec_codeFill_sound (hp : s.here.firstPoison (s.here.fillReads c a n b r.ctx) = none) : exec (.codeFillComplete c) s =
    .next { s with d := (s.here.noteRead (s.here.fillReads c a n b r.ctx)).modCore c fun k => { k with ibuf := (List.range n).map (fun i => iwOf (s.here.rdN (a + 16 * i) 16)), filled := true, dcache := if (s.here.core c).dctx ≠ some r.ctx then s.here.rdN b 16384 else (s.here.core c).dcache, dctx := some r.ctx } } := by
  have arm : exec (.codeFillComplete c) s = execCodeFillComplete c s := rfl
  rw [Dev.fillReads] at hp
  simp only [arm, execCodeFillComplete, onDev_here, hr, hfill, hx, hcode, hbank, hp, Dev.fillReads, Bool.false_eq_true, if_false]

end

/-- Settles O19: the participants start on cores of their own, and a fill follows what its first poison says. -/
theorem kernelsStart : Obligations.KernelsStart := by
  unfold Obligations.KernelsStart
  refine ⟨fun s f x st cores hw hredo hfirst hfit hx hst hf => ?dispatch, fun s c a n b r x hr hfill hx hcode hbank => ⟨fun hp => ?fills, fun p hp hc hplain => ?faults⟩⟩
  case dispatch =>
    obtain ⟨hruns, hothers, hmem, hframe⟩ := dispatch_starts hfit hx hst hf
    refine ⟨_, exec_kernelDispatch hw hredo hfirst hfit, rfl, fun i c hi => ?_, hothers, hmem, hframe⟩
    obtain ⟨hlt, r, ⟨rctx, rvariant, rkernel, rstream, rframe, rs6, rs7, rreplay, rstarted⟩, on⟩ := hruns i c hi
    exact ⟨hlt, on.sregs, ⟨r, on.run, rctx, rvariant, rkernel, rstream, rframe, rs6, rs7, rreplay, rstarted⟩, on.tokens, on.planeA,
      on.planeS, on.ibuf, on.filled, on.pc, on.busy, rctx ▸ on.context⟩
  case fills =>
    have hcores : ∀ i, (s.here.noteRead (s.here.fillReads c a n b r.ctx)).core i = s.here.core i :=
      Dev.core_congr (by rw [(s.here.storesOnly_noteRead _).rest])
    refine ⟨_, exec_codeFill_sound hr hfill hx hcode hbank hp, rfl, ?_, fun i hi => ?_⟩
    · rw [Dev.core_modCore_same, hcores]
    · rw [Dev.core_modCore_ne _ _ hi, hcores]
  case faults =>
    have hexec := exec_codeFill_poisoned hr hfill hx hcode hbank hp
    have hread := (s.here.storesOnly_noteRead (s.here.fillReads c a n b r.ctx)).rest
    generalize s.here.noteRead (s.here.fillReads c a n b r.ctx) = e at hexec hread
    have hrun : (e.core c).run = some r := by rw [Dev.core_congr (show e.cores = s.here.cores by rw [hread]), hr]
    exact ⟨_, hexec, rfl, e, by rw [hread], by rw [hread], e.fault_spec hc .poison p hrun hplain⟩

end Sys2Proof.Machine
end

section
/-!
SUPPORT. The end of a frame: its records join the ring's queue in its stream's turn, and it leaves the list of frames (R14, R166).
-/

namespace Sys2Proof.Machine

/-! ### Records that wait for a ring -/

/-- Records of streams that are not unauthenticated are posted as they are. -/
theorem postRecs_eq {d : Dev} {rs : List WaitRec} (h : ∀ r ∈ rs, ((mget d.streams r.stream).map (·.unauth)).getD false = false) :
    rs.foldl Dev.postRec d = { d with que := { d.que with wait := d.que.wait ++ rs } } := by
  induction rs generalizing d with
  | nil => simp
  | cons r l ih =>
    have hr : d.postRec r = { d with que := { d.que with wait := d.que.wait ++ [r] } } := by
      simp only [Dev.postRec, h r List.mem_cons_self, Bool.false_eq_true, if_false]
    rw [List.foldl_cons, ih (d := d.postRec r) fun q hq => h q (List.mem_cons_of_mem _ hq), hr]
    simp

/-- The stream once frame n, whose turn it is, has been released. -/
def Stream.released (st : Stream) (n : Nat) : Stream := { st with relNext := (n + 1) % 2 ^ 32 }

/-- A frame whose turn it is, of a stream that holds no other, releases its records at once. -/
theorem release_inTurn {d : Dev} {id n : Nat} {st : Stream} {rs : List WaitRec} (hst : mget d.streams id = some st) (hn : st.relNext = n)
    (hheld : st.relHeld = []) (hauth : st.unauth = false) (hrs : ∀ r ∈ rs, r.stream = id) : d.release id n rs =
      { d with streams := mput d.streams id (st.released n), que := { d.que with wait := d.que.wait ++ rs } } := by
  have hflush : flushHeld 1 n [(n, rs)] = (rs, (n + 1) % 2 ^ 32, []) := by simp [flushHeld]
  have hstream : { st with relNext := (n + 1) % 2 ^ 32, relHeld := [] } = st.released n := by rw [Stream.released, hheld]
  simp only [Dev.release, hst, hheld, hn, List.nil_append, List.length_singleton, hflush, hstream]
  rw [postRecs_eq]
  intro r hr
  rw [hrs r hr, mget_mput_same]
  exact hauth

/-! ### Records of a frame -/

theorem devRec_congr {d e : Dev} {id : Nat} (h : (mget e.streams id).map (·.ring) = (mget d.streams id).map (·.ring)) (n : Nat) (l : Bool) :
    e.devRec id n l = d.devRec id n l := by
  funext b
  rw [Dev.devRec, Dev.devRec, h]

theorem frameRecs_congr {d e : Dev} {f : Frame} (h : (mget e.streams f.stream).map (·.ring) = (mget d.streams f.stream).map (·.ring)) :
    e.frameRecs f = d.frameRecs f := by
  simp only [Dev.frameRecs, h, devRec_congr h]

theorem frameRecs_stream (d : Dev) (f : Frame) : ∀ w ∈ d.frameRecs f, w.stream = f.stream := by
  intro w hw
  simp only [Dev.frameRecs] at hw
  generalize hl : (sortRecs f.recs).map (fun r => ({ ring := ((mget d.streams f.stream).map (·.ring)).getD 0, device := false, stream := f.stream, frame := f.num, last := false, bytes := r.bytes, handle := r.handle } : WaitRec)) = l at hw
  have hall : ∀ v ∈ l, v.stream = f.stream := by
    rw [← hl]
    simp
  rcases List.mem_append.1 hw with hw | hw
  · obtain ⟨b, -, rfl⟩ := List.mem_map.1 hw
    rfl
  · cases hlast : l.getLast? with
    | none => simp [hlast] at hw
    | some z =>
      simp only [hlast, List.mem_append, List.mem_singleton] at hw
      rcases hw with hw | rfl
      · exact hall w (List.dropLast_subset l hw)
      · exact hall z (List.mem_of_getLast? hlast)

/-! ### The frame leaves -/

theorem frame?_dropFrame (d : Dev) (f : Frame) : (d.dropFrame f).frame? f.stream f.num f.revisit = none := by
  rw [Dev.frame?, Dev.dropFrame, List.find?_eq_none]
  intro g hg
  simpa [imp_iff_not_or, or_assoc] using (List.mem_filter.1 hg).2

theorem poolOnly_rest_streams {d e : Dev} (h : Dev.PoolOnly d e) : e.streams = d.streams ∧ e.ctxs = d.ctxs ∧ e.sched = d.sched ∧ e.cores = d.cores := by
  rw [h.rest]
  exact ⟨rfl, rfl, rfl, rfl⟩

end Sys2Proof.Machine
end

section
/-!
SUPPORT. KEND_RETIRE (R69, R166, R167): the end of a kernel on its core, and what becomes of its frame.
-/

namespace Sys2Proof.Machine

variable {c : Nat}

/-! ### What the end of a kernel leaves alone -/

/-- Streams, contexts, frames, marks of FAULTED contexts, other cores, and of core c the scalar registers and the count of retired
instructions are as they were. -/
structure Dev.EndOnly (d e : Dev) (c : Nat) : Prop where
  streams : e.streams = d.streams
  ctxs : e.ctxs = d.ctxs
  frames : e.sched.frames = d.sched.frames
  others : ∀ i, i ≠ c → e.core i = d.core i
  sregs : (e.core c).sregs = (d.core c).sregs
  retired : e.reg (R.MC_SEQ_RETIRED c) = d.reg (R.MC_SEQ_RETIRED c)
  marks : ∀ o, o = R.TEL_FAULTED_LO ∨ o = R.TEL_FAULTED_HI → e.reg o = d.reg o

theorem Dev.EndOnly.refl (d : Dev) (c : Nat) : Dev.EndOnly d d c := ⟨rfl, rfl, rfl, fun _ _ => rfl, rfl, rfl, fun _ _ => rfl⟩

theorem Dev.EndOnly.trans {d e f : Dev} (h : Dev.EndOnly d e c) (g : Dev.EndOnly e f c) : Dev.EndOnly d f c :=
  ⟨g.streams.trans h.streams, g.ctxs.trans h.ctxs, g.frames.trans h.frames, fun i hi => (g.others i hi).trans (h.others i hi),
    g.sregs.trans h.sregs, g.retired.trans h.retired, fun o ho => (g.marks o ho).trans (h.marks o ho)⟩

theorem marks_aside {o : Nat} (h : o = R.TEL_FAULTED_LO ∨ o = R.TEL_FAULTED_HI) : aside o := by
  simp only [R.TEL_FAULTED_LO, R.TEL_FAULTED_HI] at h
  simp only [aside]
  omega

theorem Dev.PoolOnly.endOnly {d e : Dev} (h : Dev.PoolOnly d e) (hc : c < 8) : Dev.EndOnly d e c := by
  obtain ⟨hstreams, hctxs, hsched, hcores⟩ := poolOnly_rest_streams h
  exact ⟨hstreams, hctxs, by rw [hsched], fun i _ => Dev.core_congr hcores i, by rw [Dev.core_congr hcores],
    h.regs _ (by simp only [R.MC_SEQ_RETIRED]; omega) (by simp only [R.MC_SEQ_RETIRED]; omega), fun o ho => h.marks o (marks_aside ho)⟩

/-- A field of another register. -/
theorem endOnly_setFld (d : Dev) {o : Nat} (f : Fld) (n : Nat) (h1 : o ≠ R.MC_SEQ_RETIRED c) (h2 : 0x100000 ≤ o) : Dev.EndOnly d (d.setFld o f n) c :=
  ⟨by simp, by simp, by simp, fun _ _ => by simp, by simp, d.reg_setFld_ne _ _ h1.symm, fun i hi => d.reg_setFld_ne _ _ (by
    simp only [R.TEL_FAULTED_LO, R.TEL_FAULTED_HI] at hi
    omega)⟩

theorem endOnly_modCore (d : Dev) (g : Core → Core) (hg : ∀ k, (g k).sregs = k.sregs) : Dev.EndOnly d (d.modCore c g) c :=
  ⟨by simp, by simp, by simp, fun _ hi => d.core_modCore_ne g hi, by simp [hg], by simp, fun _ _ => by simp⟩

theorem status_high (c : Nat) : 0x100000 ≤ R.MC_SEQ_STATUS c := by
  simp only [R.MC_SEQ_STATUS]
  omega

theorem endOnly_signal (d : Dev) (w : IWord) : Dev.EndOnly d (d.signal c w) c := by
  have htok : ∀ e : Dev, ∀ v, Dev.EndOnly e (e.modCore c fun k => { k with tokens := mput k.tokens (iSigTok w) v }) c :=
    fun e v => endOnly_modCore e _ fun _ => rfl
  unfold Dev.signal Dev.tokAdd
  simp only []
  split_ifs
  · exact (endOnly_setFld d _ 1 (retired_ne_status c) (status_high c)).trans (htok _ _)
  · exact htok d _
  · exact .refl d c

theorem endOnly_accBoundary (d : Dev) (hc : c < 8) : Dev.EndOnly d (d.accBoundary c) c := by
  have hlog : ∀ (e : Dev) (x : LogEntry), Dev.EndOnly e (e.logEv x) c := fun e x => (e.storesOnly_logEv x).pool.endOnly hc
  unfold Dev.accBoundary
  split
  · exact .refl d c
  · split
    · exact (endOnly_setFld d _ 0 (by simp only [R.MC_ARITH_STATUS, R.MC_SEQ_RETIRED]; omega) (by simp only [R.MC_ARITH_STATUS]; omega)).trans (hlog _ _)
    · exact .refl d c

theorem endOnly_idleBits (d : Dev) : Dev.EndOnly d (d.idleBits c) c := by
  have hbit : ∀ (e : Dev) f, Dev.EndOnly e (e.setFld (R.MC_SEQ_STATUS c) f 0) c := fun e f =>
    endOnly_setFld e f 0 (retired_ne_status c) (status_high c)
  exact (hbit _ _).trans ((hbit _ _).trans (hbit _ _))

theorem endOnly_forget (d : Dev) : Dev.EndOnly d (d.forget c) c := ⟨rfl, rfl, rfl, fun _ _ => rfl, rfl, rfl, fun _ _ => rfl⟩

theorem endOnly_freeCore (d : Dev) : Dev.EndOnly d (d.freeCore c) c :=
  (endOnly_modCore d Core.blank fun _ => rfl).trans ((endOnly_idleBits _).trans (endOnly_forget _))

theorem endOnly_settleJournal (d : Dev) (hc : c < 8) : Dev.EndOnly d (d.settleJournal c) c := by
  refine Dev.PoolOnly.endOnly (.foldl (fun e j => ?_) _ d) hc
  split
  · exact e.poolOnly_refDec _
  · exact .refl e

/-! ### The kernel ends on its core -/

/-- KEND's own signal (R167). -/
def Dev.kendSignal (d : Dev) (c : Nat) : Dev := ((d.core c).ibuf[d.pc c]?).elim d (d.signal c ·)

/-- The core when KEND has retired: the signal, the count, the saved registers, the journal settled, and the core free. -/
def Dev.kendRetired (d : Dev) (c : Nat) (r : Run) : Dev :=
  let e := (d.kendSignal c).countRetired c
  (((e.modStream r.stream fun s => { s with save := (e.core c).sregs.drop 8 }).settleJournal c).accBoundary c).freeCore c

theorem endOnly_kendSignal (d : Dev) : Dev.EndOnly d (d.kendSignal c) c := by
  unfold Dev.kendSignal
  cases (d.core c).ibuf[d.pc c]? with
  | none => exact .refl d c
  | some w => exact endOnly_signal d w

/-- Core c is free and has counted its KEND, its registers are saved, and the frames, the contexts and the other cores are as they were. -/
structure Dev.KendRetired (d e : Dev) (c : Nat) (r : Run) (st : Stream) : Prop where
  core : ∃ k : Core, e.core c = k.blank
  busy : e.flag (R.MC_SEQ_STATUS c) F.MC_SEQ_STATUS_busy = false
  count : e.reg (R.MC_SEQ_RETIRED c) = (d.reg (R.MC_SEQ_RETIRED c) + 1) % 2 ^ 32
  streams : e.streams = mput d.streams r.stream { st with save := (d.core c).sregs.drop 8 }
  ctxs : e.ctxs = d.ctxs
  frames : e.sched.frames = d.sched.frames
  others : ∀ i, i ≠ c → e.core i = d.core i
  marks : ∀ o, o = R.TEL_FAULTED_LO ∨ o = R.TEL_FAULTED_HI → e.reg o = d.reg o

theorem modStream_spec {d : Dev} {i : Nat} {st : Stream} (h : mget d.streams i = some st) (g : Stream → Stream) :
    (d.modStream i g).streams = mput d.streams i (g st) ∧ (d.modStream i g).ctxs = d.ctxs ∧ (d.modStream i g).sched = d.sched ∧
    (d.modStream i g).cores = d.cores ∧ (d.modStream i g).regs = d.regs := by
  simp only [Dev.modStream, h, and_self]

theorem countRetired_reg (d : Dev) : (d.countRetired c).reg (R.MC_SEQ_RETIRED c) = (d.reg (R.MC_SEQ_RETIRED c) + 1) % 2 ^ 32 := by
  have hl := d.reg_lt (R.MC_SEQ_RETIRED c)
  simp only [Dev.countRetired, Dev.wrapFld, Dev.setFld, Dev.reg_setReg_same, Dev.fld, Fld.put, Fld.get, bits]
  omega

theorem kendRetired_spec {d : Dev} {r : Run} {st : Stream} (hc : c < 8) (hst : mget d.streams r.stream = some st) :
    Dev.KendRetired d (d.kendRetired c r) c r st := by
  have hsig := endOnly_kendSignal (c := c) d
  unfold Dev.kendRetired
  simp only []
  generalize d.kendSignal c = e1 at *
  have hsave : ((e1.countRetired c).core c).sregs = (d.core c).sregs := by rw [Dev.core_countRetired, hsig.sregs]
  have hget : mget (e1.countRetired c).streams r.stream = some st := by rw [Dev.countRetired_streams, hsig.streams, hst]
  obtain ⟨mstreams, mctxs, msched, mcores, mregs⟩ := modStream_spec hget fun s => { s with save := ((e1.countRetired c).core c).sregs.drop 8 }
  generalize (e1.countRetired c).modStream r.stream _ = e2 at *
  have hrest := (endOnly_settleJournal e2 hc).trans ((endOnly_accBoundary _ hc).trans (endOnly_freeCore _))
  obtain ⟨-, hcore, hbusy, -⟩ := ((e2.settleJournal c).accBoundary c).freeCore_spec c
  generalize ((e2.settleJournal c).accBoundary c).freeCore c = e at *
  refine ⟨⟨_, hcore⟩, by simp [Dev.flag, hbusy], ?count, ?streams, ?ctxs, ?frames, fun i hi => ?others, fun o ho => ?marks⟩
  case count => rw [hrest.retired, Dev.reg_congr mregs, countRetired_reg, hsig.retired]
  case streams => rw [hrest.streams, mstreams, hsave, Dev.countRetired_streams, hsig.streams]
  case ctxs => rw [hrest.ctxs, mctxs, Dev.countRetired_ctxs, hsig.ctxs]
  case frames => rw [hrest.frames, msched, Dev.countRetired_sched, hsig.frames]
  case others => rw [hrest.others i hi, Dev.core_congr mcores, Dev.core_countRetired, hsig.others i hi]
  case marks =>
    have hother : o ≠ R.MC_SEQ_RETIRED c := by
      simp only [R.TEL_FAULTED_LO, R.TEL_FAULTED_HI] at ho
      simp only [R.MC_SEQ_RETIRED]
      omega
    rw [hrest.marks o ho, Dev.reg_congr mregs, Dev.countRetired, Dev.wrapFld, Dev.reg_setFld_ne _ _ _ hother, hsig.marks o ho]

/-! ### The frame after the kernel -/

theorem kernelEnded_next {d : Dev} {f : Frame} {x : Ctx} (hx : d.ctx? f.ctx = some x) (hmore : f.kernel + 1 < x.kernelCount)
    (hsound : d.faulted f.ctx = false) (hbe : d.frameLc f = false) : d.kernelEnded f =
      d.modFrame f.stream f.num f.revisit fun _ => { f with kernel := f.kernel + 1, st := .admitted } := by
  have hlc : ∀ g, (d.modFrame f.stream f.num f.revisit g).frameLc f = d.frameLc f := fun _ => rfl
  simp only [Dev.kernelEnded, hx, hsound, hlc, hbe, if_neg (Nat.not_le.2 hmore), Bool.false_and, Bool.false_eq_true, if_false]

theorem holdStep_full {d : Dev} {f : Frame} {st : Stream} (hst : mget d.streams f.stream = some st) (hfull : st.fallback = false) :
    d.holdStep f = d := by
  simp [Dev.holdStep, hst, hfull]

theorem poolOnly_dropBuffer (d : Dev) (f : Frame) : (((d.freeFrameBuf f).dropFrame f).streams = d.streams) ∧
    ((d.freeFrameBuf f).dropFrame f).cores = d.cores ∧ ∀ o, 0x100000 ≤ o → o < 0x200000 → ((d.freeFrameBuf f).dropFrame f).reg o = d.reg o := by
  have h := d.poolOnly_freeFrameBuf f
  obtain ⟨hstreams, -, -, hcores⟩ := poolOnly_rest_streams h
  exact ⟨hstreams, hcores, h.regs⟩

/-- The last kernel of a frame in its stream's turn, of a FULL stream: the frame is gone and its records stand at the end of what waits. -/
theorem kernelEnded_last {d : Dev} {f : Frame} {x : Ctx} {st : Stream} (hx : d.ctx? f.ctx = some x) (hlast : x.kernelCount ≤ f.kernel + 1)
    (hown : f.revisit = false) (hst : mget d.streams f.stream = some st) (hfull : st.fallback = false) (hauth : st.unauth = false)
    (hn : st.relNext = f.num) (hheld : st.relHeld = []) :
    let e := d.kernelEnded f
    e.cores = d.cores ∧ (∀ o, 0x100000 ≤ o → o < 0x200000 → e.reg o = d.reg o) ∧ e.streams = mput d.streams f.stream (st.released f.num) ∧
    e.frame? f.stream f.num f.revisit = none ∧ ∃ old, e.que.wait = old ++ d.frameRecs f := by
  have heq : d.kernelEnded f = ((d.freeFrameBuf f).dropFrame f).release f.stream f.num (d.frameRecs f) := by
    simp only [Dev.kernelEnded, hx, hlast, if_true, Dev.finishFrame, holdStep_full hst hfull, hown, Bool.false_eq_true, if_false]
  obtain ⟨hstreams, hcores, hregs⟩ := poolOnly_dropBuffer d f
  have hgone := frame?_dropFrame (d.freeFrameBuf f) f
  generalize (d.freeFrameBuf f).dropFrame f = e at *
  rw [release_inTurn (by rw [hstreams, hst]) hn hheld hauth (frameRecs_stream d f)] at heq
  simp only [heq, hstreams]
  exact ⟨hcores, hregs, trivial, hgone, _, rfl⟩

/-! ### The command -/

theorem exec_kendRetire {s : State} {r : Run} {f : Frame} (hr : (s.here.core c).run = some r) (hk : (s.here.core c).kendIssued = true)
    (hi : (s.here.core c).inflight = []) (hlow : r.kernel < 1024) (hplain : r.replay = false) (hcl : r.claiming = false)
    (hf : (s.here.kendRetired c r).runFrame r = some f) (hrun : f.st = .running) :
    exec (.kendRetire c) s = .next { s with d := (s.here.kendRetired c r).kernelEnded f } := by
  have arm : exec (.kendRetire c) s = execKendRetire c s := rfl
  have hshare : s.here.shareHolds r = false := by rw [Dev.shareHolds, hcl, Bool.false_and]
  cases hw : (s.here.core c).ibuf[s.here.pc c]? with
  | none =>
    simp only [Dev.kendRetired, Dev.kendSignal, hw, Option.elim_none] at hf ⊢
    simp only [arm, execKendRetire, onDev_here, hr, hk, hi, hshare, if_neg (Nat.not_le.2 hlow), hplain, hcl, hw, hf, hrun, Bool.not_true, ne_eq,
      not_true_eq_false, decide_false, Bool.or_self, Bool.false_and, Bool.false_eq_true, if_false, if_true]
  | some w =>
    simp only [Dev.kendRetired, Dev.kendSignal, hw, Option.elim_some] at hf ⊢
    simp only [arm, execKendRetire, onDev_here, hr, hk, hi, hshare, if_neg (Nat.not_le.2 hlow), hplain, hcl, hw, hf, hrun, Bool.not_true, ne_eq,
      not_true_eq_false, decide_false, Bool.or_self, Bool.false_and, Bool.false_eq_true, if_false, if_true]

theorem faulted_congr {d e : Dev} (h : ∀ o, o = R.TEL_FAULTED_LO ∨ o = R.TEL_FAULTED_HI → e.reg o = d.reg o) (k : Nat) :
    e.faulted k = d.faulted k := by
  unfold Dev.faulted
  split
  · rw [h _ (.inl rfl)]
  · rw [h _ (.inr rfl)]

theorem frameLc_congr {d e : Dev} (h : e.ctxs = d.ctxs) (f : Frame) : e.frameLc f = d.frameLc f := by
  rw [Dev.frameLc, Dev.frameLc, Dev.ctx?, Dev.ctx?, h]

/-- Settles O16: KEND's end on its core, then the frame's next kernel or the frame's end. -/
theorem kernelRetires : Obligations.KernelRetires := by
  unfold Obligations.KernelRetires
  intro s c r f x st hc hr hk hi hlow hplain hcl hf hrun hx hst
  obtain ⟨⟨k, hcore⟩, hbusy, hcount, hstreams, hctxs, hframes, hothers, hmarks⟩ := kendRetired_spec (r := r) hc hst
  have hf' : (s.here.kendRetired c r).runFrame r = some f := (frame?_congr hframes ..).trans hf
  have hexec := exec_kendRetire hr hk hi hlow hplain hcl hf' hrun
  obtain ⟨hfs, hfn, hfr⟩ := frame?_key hf
  generalize s.here.kendRetired c r = e at *
  have hx' : e.ctx? f.ctx = some x := by rw [Dev.ctx?, hctxs]; exact hx
  refine ⟨fun hmore hsound hbe => ?next, fun hlast hown hfull hauth hn hheld => ?last⟩
  case next =>
    rw [kernelEnded_next hx' hmore ((faulted_congr hmarks _).trans hsound) ((frameLc_congr hctxs f).trans hbe)] at hexec
    have hkey : e.frame? f.stream f.num f.revisit = some f := by rw [hfs, hfn, hfr]; exact hf'
    have hnext := frame?_modFrame (g := fun _ => { f with kernel := f.kernel + 1, st := .admitted }) hkey rfl rfl rfl
    generalize hg : (e.modFrame f.stream f.num f.revisit fun _ => { f with kernel := f.kernel + 1, st := .admitted }) = g at hexec hnext
    have gcore : ∀ i, g.core i = e.core i := Dev.core_congr (by rw [← hg, Dev.modFrame_cores])
    have gregs : g.regs = e.regs := by rw [← hg, Dev.modFrame_regs]
    have hcore' := (gcore c).trans hcore
    exact ⟨_, hexec, rfl, congrArg (·.run) hcore', congrArg (·.inflight) hcore', congrArg (·.tokens) hcore', congrArg (·.kendIssued) hcore',
      by rw [Dev.flag, Dev.fld_congr gregs]; exact hbusy, (Dev.reg_congr gregs _).trans hcount, by rw [← hg, Dev.modFrame_streams]; exact hstreams,
      by rw [Dev.runFrame, ← hfs, ← hfn, ← hfr]; exact hnext, fun i hi => (gcore i).trans (hothers i hi)⟩
  case last =>
    have hst' : mget e.streams f.stream = some { st with save := (s.here.core c).sregs.drop 8 } := by rw [hstreams, hfs, mget_mput_same]
    obtain ⟨lcores, lregs, lstreams, lgone, old, lwait⟩ := kernelEnded_last hx' hlast hown hst' hfull hauth hn hheld
    have hring : (mget e.streams f.stream).map (·.ring) = (mget s.here.streams f.stream).map (·.ring) := by rw [hst', hfs, hst]; rfl
    rw [frameRecs_congr hring] at lwait
    rw [hfs, hfn, hfr] at lgone
    generalize e.kernelEnded f = g at *
    have hcore' : g.core c = k.blank := (Dev.core_congr lcores c).trans hcore
    have hreg : ∀ o, 0x100000 ≤ o → o < 0x180000 → g.reg o = e.reg o := fun o h1 h2 => lregs o h1 (by omega)
    refine ⟨_, hexec, rfl, congrArg (·.run) hcore', congrArg (·.inflight) hcore', congrArg (·.tokens) hcore', congrArg (·.kendIssued) hcore',
      ?busy, ?count, ?streams, lgone, ⟨old, lwait⟩, fun i hi => (Dev.core_congr lcores i).trans (hothers i hi)⟩
    case busy =>
      rw [← hbusy, Dev.flag, Dev.flag, Dev.fld, Dev.fld, hreg _ (status_high c) (by simp only [R.MC_SEQ_STATUS]; omega)]
    case count => rw [hreg _ (by simp only [R.MC_SEQ_RETIRED]; omega) (by simp only [R.MC_SEQ_RETIRED]; omega), hcount]
    case streams => rw [lstreams, hstreams, hfs, mput_mput]; rfl

end Sys2Proof.Machine
end
section
/-!
SUPPORT. FRAME_READY and DEADLINE_EXPIRY (R94, R322, R327 to R329): what a frame that becomes ready leaves, and a frame voided for its deadline.
-/

namespace Sys2Proof.Machine

/-! ### The frame's inputs (R94) -/

theorem setHomeTag_tags (d : Dev) (k : Nat) (v : TagState) : (d.setHomeTag k v).home.tags = mset d.home.tags k .free v := rfl

/-- Tags of a list set READY, each by its last count in the list. -/
theorem setReady_tags (l : List (Nat × Nat)) (d : Dev) (k : Nat) :
    ((∀ n, (k, n) ∉ l) → mgetD (l.foldl (fun d t => d.setHomeTag t.1 (.ready t.2)) d).home.tags k .free = mgetD d.home.tags k .free) ∧
    ((∃ n, (k, n) ∈ l) → ∃ n, (k, n) ∈ l ∧ mgetD (l.foldl (fun d t => d.setHomeTag t.1 (.ready t.2)) d).home.tags k .free = .ready n) := by
  induction l generalizing d with
  | nil => simp
  | cons a r ih =>
    obtain ⟨hother, hin⟩ := ih (d.setHomeTag a.1 (.ready a.2))
    rw [List.foldl_cons]
    refine ⟨fun hn => ?_, fun ⟨n, hn⟩ => ?_⟩
    · have hk : k ≠ a.1 := fun h => hn a.2 (by rw [h]; exact List.mem_cons_self)
      rw [hother fun n h => hn n (List.mem_cons_of_mem _ h), setHomeTag_tags, mgetD_mset_ne _ _ _ _ hk]
    · by_cases hr : ∃ n, (k, n) ∈ r
      · obtain ⟨m, hm, htag⟩ := hin hr
        exact ⟨m, List.mem_cons_of_mem _ hm, htag⟩
      · obtain rfl : (k, n) = a := (List.mem_cons.1 hn).resolve_right fun h => hr ⟨n, h⟩
        refine ⟨n, List.mem_cons_self, ?_⟩
        rw [hother (not_exists.1 hr), setHomeTag_tags, mgetD_mset_same]

/-- The frame's inputs are READY, each with a count the descriptors give it; every other tag is as it was. -/
theorem setInputs_tags (d : Dev) (x : Ctx) (k : Nat) :
    ((∀ n, (k, n) ∉ d.inputTags x) → mgetD (d.setInputs x).home.tags k .free = mgetD d.home.tags k .free) ∧
    ((∃ n, (k, n) ∈ d.inputTags x) → ∃ n, (k, n) ∈ d.inputTags x ∧ mgetD (d.setInputs x).home.tags k .free = .ready n) :=
  setReady_tags (d.inputTags x) d k

theorem inputTags_congr {d e : Dev} (hm : e.mem = d.mem) (hd : e.dram = d.dram) (hr : e.regs = d.regs) (x : Ctx) : e.inputTags x = d.inputTags x := by
  have hrd : e.rd = d.rd := funext fun a => Dev.rd_of_regs hm hd (fun o _ _ => Dev.reg_congr hr o) a
  simp only [Dev.inputTags, Dev.ctxDescs, Dev.rdN, hrd]

/-! ### A frame becomes ready -/

/-- The frame as it stands when it has become ready on context ctx. -/
def Frame.madeReady (f : Frame) (ctx now seq : Nat) (e : Option Nat) : Frame :=
  { f with st := .ready, ctx := ctx, kernel := 0, stack := none, readyAt := now, readySeq := seq, fullEst := e, fbEst := none, onFallback := false }

/-- The list of frames, the readiness number and the tags once the frame is ready; cores, registers, memory and queues are as they were. -/
structure Dev.MadeReady (d e : Dev) (f g : Frame) (x : Ctx) : Prop where
  frames : e.sched.frames = (d.modFrame f.stream f.num f.revisit fun _ => g).sched.frames
  seq : e.sched.readySeq = d.sched.readySeq + 1
  tags : e.home.tags = (d.setInputs x).home.tags
  cores : e.cores = d.cores
  regs : e.regs = d.regs
  mem : e.mem = d.mem
  que : e.que = d.que

theorem noteSlack_keeps (d : Dev) (f : Frame) (ctx k : Nat) :
    (d.noteSlack f ctx k).sched.frames = d.sched.frames ∧ (d.noteSlack f ctx k).sched.readySeq = d.sched.readySeq ∧ (d.noteSlack f ctx k).home = d.home ∧
    (d.noteSlack f ctx k).cores = d.cores ∧ (d.noteSlack f ctx k).regs = d.regs ∧ (d.noteSlack f ctx k).mem = d.mem ∧ (d.noteSlack f ctx k).que = d.que := by
  unfold Dev.noteSlack
  split <;> exact ⟨rfl, rfl, rfl, rfl, rfl, rfl, rfl⟩

/-- The device with the frame ready, before a projection is kept. -/
def Dev.readied (d : Dev) (f : Frame) (ctx : Nat) (x : Ctx) (e : Option Nat) : Dev :=
  { d.setInputs x with
    sched := { (d.modFrame f.stream f.num f.revisit fun _ => f.madeReady ctx d.now d.sched.readySeq e).sched with readySeq := d.sched.readySeq + 1 },
    pwr := { d.pwr with lastActive := d.now } }

theorem makeReady_readied (d : Dev) (f : Frame) (ctx : Nat) (x : Ctx) (e : Option Nat) : d.makeReady f ctx x false e none =
    if f.ep.bind.lc && !f.revisit then (d.readied f ctx x e).noteSlack (f.madeReady ctx d.now d.sched.readySeq e) ctx 0
    else d.readied f ctx x e := by
  rw [Dev.makeReady, Dev.readied, setInputs_rest]
  rfl

theorem makeReady_spec (d : Dev) (f : Frame) (ctx : Nat) (x : Ctx) (e : Option Nat) :
    Dev.MadeReady d (d.makeReady f ctx x false e none) f (f.madeReady ctx d.now d.sched.readySeq e) x := by
  have hready : Dev.MadeReady d (d.readied f ctx x e) f (f.madeReady ctx d.now d.sched.readySeq e) x := by
    rw [Dev.readied, setInputs_rest]
    exact ⟨rfl, rfl, rfl, rfl, rfl, rfl, rfl⟩
  rw [makeReady_readied]
  split
  · obtain ⟨hframes, hseq, hhome, hcores, hregs, hmem, hque⟩ :=
      noteSlack_keeps (d.readied f ctx x e) (f.madeReady ctx d.now d.sched.readySeq e) ctx 0
    exact ⟨hframes.trans hready.frames, hseq.trans hready.seq, (congrArg (·.tags) hhome).trans hready.tags, hcores.trans hready.cores,
      hregs.trans hready.regs, hmem.trans hready.mem, hque.trans hready.que⟩
  · exact hready

/-! ### The decision of R327 where nothing but the slack bears on it -/

section
variable {d : Dev} {f : Frame} {x : Ctx} {st : Stream} (h : d.plainDue f x st)
include h

/-- Of the BE class, or with a slack that is not negative, the full model runs. -/
theorem readiness_full (hs : f.ep.bind.lc = true → ∃ v, d.slack f f.ep.bind.ctx 0 0 = some v ∧ 0 ≤ v) : d.readiness f false = .full false := by
  obtain ⟨hsuspect, hfaulted⟩ := h.sound
  cases hlc : f.ep.bind.lc with
  | false => simp [Dev.readiness, hsuspect, hfaulted, h.deputy, hlc]
  | true =>
    obtain ⟨v, hv, hpos⟩ := hs hlc
    simp [Dev.readiness, hsuspect, hfaulted, h.deputy, hlc, hv, negative, Int.not_lt.2 hpos]

/-- Of the LC class with a negative slack, or with no bound on its estimate, the frame is voided. -/
theorem readiness_void (hlc : f.ep.bind.lc = true) (hs : ∀ v, d.slack f f.ep.bind.ctx 0 0 = some v → v < 0) : d.readiness f false = .void := by
  obtain ⟨hsuspect, hfaulted⟩ := h.sound
  have hneg : negative (d.slack f f.ep.bind.ctx 0 0) = true := by
    cases hv : d.slack f f.ep.bind.ctx 0 0 with
    | none => rfl
    | some v => simpa [negative] using hs v hv
  simp [Dev.readiness, hsuspect, hfaulted, h.deputy, hlc, hneg]

/-- The device once the reports of the frame's stream, of which there are none, have been taken. -/
theorem takeReports_none : d.takeReports f = (f, { d with streams := mput d.streams f.stream st }) := by
  have hst : { st with report := [] } = st := by rw [← h.quiet]
  simp only [Dev.takeReports, Dev.modStream, h.stream, h.quiet, hst, Option.map_some, Option.getD_some, List.map_nil, List.append_nil]

theorem setFallback_full : d.setFallback f.stream false 0 = d := by
  simp only [Dev.setFallback, h.stream, h.full, if_true]

theorem readyOwn_full (hd : d.readiness f false = .full false) (hin : d.inputsFree f.ep.bind.ctx x = true) :
    ∃ e, d.readyOwn f = ({ d with streams := mput d.streams f.stream st } : Dev).makeReady f f.ep.bind.ctx x false e none := by
  obtain ⟨hsuspect, hfaulted⟩ := h.sound
  refine ⟨({ d with streams := mput d.streams f.stream st } : Dev).fullTime f f.ep.bind.ctx, ?_⟩
  simp only [Dev.readyOwn, h.ctx, h.stream, h.same, h.deputy, hsuspect, hfaulted, setFallback_full h, h.full, hd, hin, takeReports_none h, ne_eq,
    not_true_eq_false, Bool.or_self, Bool.false_and, Bool.false_eq_true, if_false, if_true, Option.map_some, Option.getD_some,
    Option.bind_none, Bool.not_true]

theorem readyOwn_void (hd : d.readiness f false = .void) :
    d.readyOwn f = ({ d with streams := mput d.streams f.stream st } : Dev).deadlineVoid f := by
  obtain ⟨hsuspect, hfaulted⟩ := h.sound
  simp only [Dev.readyOwn, h.ctx, h.stream, h.same, h.deputy, hsuspect, hfaulted, setFallback_full h, h.full, hd, takeReports_none h, ne_eq,
    not_true_eq_false, Bool.or_self, Bool.false_and, Bool.false_eq_true, if_false, if_true, Option.map_some, Option.getD_some]

end

theorem exec_frameReady {s : State} {f : Frame} {x : Ctx} {st : Stream} (h : s.here.plainDue f x st) :
    exec (.frameReady f.stream) s = .next { s with d := s.here.readyOwn f } := by
  have arm : exec (.frameReady f.stream) s = execFrameReady f.stream s := rfl
  simp only [arm, execFrameReady, onDev_here, h.work, h.due, h.own, Bool.not_true, Bool.false_eq_true, if_false]

/-- The frame whose readiness is due stands in the list. -/
theorem dueFrame_mem {d : Dev} {id : Nat} {f : Frame} (h : d.dueFrame id = some f) : f ∈ d.sched.frames := by
  simp only [Dev.dueFrame] at h
  split at h
  · simp at h
  · split at h
    · simp at h
    · rcases Option.or_eq_some_iff.1 h with h | ⟨-, h⟩ <;> exact List.mem_of_find?_eq_some h

/-! ### A frame voided for its deadline -/

/-- What deadlineGone speaks of is the same: what waits for the rings, the frames and the cores. -/
structure Dev.SameGone (d e : Dev) : Prop where
  wait : e.que.wait = d.que.wait
  frames : e.sched.frames = d.sched.frames
  cores : e.cores = d.cores

theorem Dev.SameGone.trans {d e f : Dev} (h : Dev.SameGone d e) (g : Dev.SameGone e f) : Dev.SameGone d f :=
  ⟨g.wait.trans h.wait, g.frames.trans h.frames, g.cores.trans h.cores⟩

theorem Dev.sameGone_modStream (d : Dev) (id : Nat) (g : Stream → Stream) : Dev.SameGone d (d.modStream id g) := by
  unfold Dev.modStream
  split <;> exact ⟨rfl, rfl, rfl⟩

theorem Dev.sameGone_setFallback (d : Dev) (id : Nat) (fb : Bool) (n : Nat) : Dev.SameGone d (d.setFallback id fb n) := by
  have hcount : Dev.SameGone d (d.satFld R.SCH_DL_EVENTS F.SCH_DL_EVENTS_fallbacks 1) := ⟨by simp, by simp, by simp⟩
  unfold Dev.setFallback
  cases mget d.streams id with
  | none => exact ⟨rfl, rfl, rfl⟩
  | some s =>
    dsimp only
    split
    · exact ⟨rfl, rfl, rfl⟩
    · cases fb with
      | true => exact hcount.trans (sameGone_modStream _ id _)
      | false => exact sameGone_modStream d id _

theorem Dev.deadlineGone.congr {d d' e e' : Dev} {f : Frame} (h : d.deadlineGone e f) (he : Dev.SameGone e e')
    (hring : (mget d'.streams f.stream).map (·.ring) = (mget d.streams f.stream).map (·.ring)) (hframes : d'.sched.frames = d.sched.frames)
    (hcores : d'.cores = d.cores) : d'.deadlineGone e' f := by
  obtain ⟨⟨old, hwait⟩, hgone, hsame⟩ := h
  refine ⟨⟨old, ?_⟩, ?_, ?_⟩
  · rw [he.wait, hwait, devRec_congr hring, devRec_congr hring]
  · rw [he.frames, hgone, hframes]
  · rw [he.cores, hsame, hcores]

section
variable {d : Dev} {f : Frame} {st : Stream} (hown : f.revisit = false) (hst : mget d.streams f.stream = some st) (hauth : st.unauth = false)
  (hn : st.relNext = f.num) (hheld : st.relHeld = [])
include hown hst hauth hn hheld

/-- The frame voided in its stream's turn: its VOID record stands at the end of what waits, after the records ahead of it. -/
theorem voidFrame_gone : d.deadlineGone (d.voidFrame f 1 0) f := by
  have hpool := (d.poolOnly_freeRecs f.recs).trans (Dev.poolOnly_freeFrameBuf _ f)
  obtain ⟨hstreams, -, hsched, hcores⟩ := poolOnly_rest_streams hpool
  simp only [Dev.voidFrame, hown, Bool.false_eq_true, if_false, Dev.voidNum]
  generalize (d.freeRecs f.recs).freeFrameBuf f = e at *
  have hget : mget (e.dropFrame f).streams f.stream = some st := (congrArg (mget · f.stream) hstreams).trans hst
  have hrec : ∀ l, (e.dropFrame f).devRec f.stream f.num l = d.devRec f.stream f.num l := devRec_congr (by rw [hget, hst]) _
  have hown_recs : ∀ r ∈ f.ahead.map (d.devRec f.stream f.num false) ++
      [d.devRec f.stream f.num true (voidRec f.stream f.num f.stamp f.ep.num 1 0 0 f.unauth)], r.stream = f.stream := by
    simp only [List.mem_append, List.mem_map, List.mem_singleton]
    rintro r (⟨b, -, rfl⟩ | rfl) <;> rfl
  rw [hrec, hrec, release_inTurn hget hn hheld hauth hown_recs]
  refine ⟨⟨e.que.wait, (List.append_assoc ..).symm⟩, ?_, hcores⟩
  · show e.sched.frames.filter _ = _
    rw [hsched, hown]

theorem deadlineVoid_gone : d.deadlineGone (d.deadlineVoid f) f := by
  have hlog := (d.storesOnly_logEv { code := Code.deadlineMiss.num, unit := 0x32, stream := f.stream, frame := f.num }).pool
  obtain ⟨hstreams, -, hsched, hcores⟩ := poolOnly_rest_streams hlog
  unfold Dev.deadlineVoid
  simp only []
  generalize d.logEv _ = e0 at *
  have hcount : (e0.satFld R.SCH_DL_EVENTS F.SCH_DL_EVENTS_voids 1).streams = d.streams := by rw [Dev.satFld_streams, hstreams]
  have hgone := voidFrame_gone hown (hcount ▸ hst) hauth hn hheld
  generalize ((e0.satFld R.SCH_DL_EVENTS F.SCH_DL_EVENTS_voids 1).voidFrame f 1 0) = e at *
  refine hgone.congr ?after (by rw [hcount]) (by rw [Dev.satFld_sched, hsched]) (by rw [Dev.satFld_cores, hcores])
  split_ifs
  · exact (e.sameGone_modStream _ _).trans (Dev.sameGone_setFallback ..)
  · exact e.sameGone_setFallback ..
  · exact e.sameGone_modStream _ _
  · exact ⟨rfl, rfl, rfl⟩

end

theorem exec_deadlineExpiry {s : State} {f : Frame} (hf : s.d.frame? f.stream f.num false = some f) (hlc : f.ep.bind.lc = true)
    (hq : f.queued = true ∨ f.st = .running) : exec (.deadlineExpiry f.stream f.num) s =
      onDevAt s (f.stamp + f.ep.bind.deadline) fun d => d.deadlineVoid f := by
  have arm : exec (.deadlineExpiry f.stream f.num) s = execDeadlineExpiry f.stream f.num s := rfl
  obtain ⟨-, -, hown⟩ := frame?_key hf
  have hlive : (f.ep.bind.lc && (f.queued || decide (f.st = .running))) = true := by simpa [hlc] using hq
  simp only [arm, execDeadlineExpiry, hf, hlive, if_true, Dev.deadlineOf, hown, Bool.false_eq_true, if_false]

/-- Settles O18: the decision of R327 for a frame that nothing but its slack bears on, then the frame made ready or voided; a deadline that device time reaches voids the frame. -/
theorem framesBecomeReady : Obligations.FramesBecomeReady := by
  unfold Obligations.FramesBecomeReady
  refine ⟨fun s f x st h hin hslack => ?ready, fun s f x st h hlc hauth hn hheld hslack => ?void,
    fun s f st hf hst hlc hq hauth hn hheld => ?expiry⟩
  case ready =>
    have hexec := exec_frameReady h
    obtain ⟨e, he⟩ := readyOwn_full h (readiness_full h hslack) hin
    rw [he] at hexec
    have hmade := makeReady_spec ({ s.here with streams := mput s.here.streams f.stream st } : Dev) f f.ep.bind.ctx x e
    generalize Dev.makeReady _ f f.ep.bind.ctx x false e none = g at *
    obtain ⟨f0, hf0⟩ : ∃ f0, s.here.frame? f.stream f.num false = some f0 :=
      Option.isSome_iff_exists.1 (List.find?_isSome.2 ⟨f, dueFrame_mem h.due, by simp [h.own]⟩)
    obtain ⟨hs, hnum, hrev⟩ := frame?_key hf0
    have hframe := frame?_modFrame (g := fun _ => f.madeReady f.ep.bind.ctx s.here.now s.here.sched.readySeq e) hf0 hs.symm hnum.symm
      (h.own.trans hrev.symm)
    have hframes := hmade.frames
    rw [h.own] at hframes
    refine ⟨_, hexec, rfl, ⟨e, (frame?_congr hframes ..).trans hframe⟩, hmade.seq, fun k => ?_, hmade.cores, hmade.regs, hmade.mem, hmade.que⟩
    have htags := setInputs_tags { s.here with streams := mput s.here.streams f.stream st } x k
    rwa [inputTags_congr (d := s.here) (e := { s.here with streams := mput s.here.streams f.stream st }) rfl rfl rfl x, ← hmade.tags] at htags
  case void =>
    have hexec := exec_frameReady h
    rw [readyOwn_void h (readiness_void h hlc hslack)] at hexec
    have hget : mget (mput s.here.streams f.stream st) f.stream = some st := mget_mput_same ..
    have hgone := deadlineVoid_gone (d := { s.here with streams := mput s.here.streams f.stream st }) h.own hget hauth hn hheld
    exact ⟨_, hexec, rfl, hgone.congr ⟨rfl, rfl, rfl⟩ (by rw [h.stream, hget]) rfl rfl⟩
  case expiry =>
    obtain ⟨-, -, hown⟩ := frame?_key hf
    have hexec := exec_deadlineExpiry hf hlc hq
    rw [onDevAt, onDev_here] at hexec
    have hgone := deadlineVoid_gone (d := (s.reach (f.stamp + f.ep.bind.deadline)).here) hown hst hauth hn hheld
    exact ⟨_, hexec, rfl, hgone.congr ⟨rfl, rfl, rfl⟩ rfl rfl rfl⟩

end Sys2Proof.Machine
end
section
/-!
SUPPORT. STOOL_REQUEST_COMPLETE (R92, R175, R176): what a Stool engine's status and its queue do.
-/

namespace Sys2Proof.Machine

/-! ### The engine's registers and queue -/

/-- STL_STATUS of engine n is the only register that follows its queue. -/
theorem syncStool_spec (d : Dev) (n : Nat) :
    d.syncStool n = { d with regs := (d.syncStool n).regs } ∧ ∀ o, o ≠ R.STL_STATUS n → (d.syncStool n).reg o = d.reg o := by
  have hset : ∀ (e : Dev) f v, e.setFld (R.STL_STATUS n) f v = { e with regs := (e.setFld (R.STL_STATUS n) f v).regs } := fun e f v => by
    apply Dev.eq_of <;> simp
  unfold Dev.syncStool
  simp only []
  split
  · exact ⟨by rw [hset, hset, hset, hset], fun o ho => by
      rw [Dev.reg_setFld_ne _ _ _ ho, Dev.reg_setFld_ne _ _ _ ho, Dev.reg_setFld_ne _ _ _ ho, Dev.reg_setFld_ne _ _ _ ho]⟩
  · exact ⟨by rw [hset, hset], fun o ho => by rw [Dev.reg_setFld_ne _ _ _ ho, Dev.reg_setFld_ne _ _ _ ho]⟩

/-- A request of the queue runs when the engine is free, and the queue takes in one of the requests that had no place. -/
theorem advance_queued {e : StoolEng} {q : Nat × Nat} {l : List (Nat × Nat)} (hr : e.running = none) (hq : e.queue = q :: l) :
    e.advance.running = some q ∧ ∃ m, e.advance.queue = l ++ m := by
  simp only [StoolEng.advance, hr, hq]
  cases e.overflow with
  | nil => exact ⟨rfl, [], (List.append_nil l).symm⟩
  | cons a r =>
    simp only [reduceCtorEq, if_false]
    split
    · exact ⟨rfl, [a], rfl⟩
    · exact ⟨rfl, [], (List.append_nil l).symm⟩

/-- With an empty queue the oldest request that had no place runs. -/
theorem advance_empty {e : StoolEng} (hr : e.running = none) (hq : e.queue = []) : e.advance.running = e.overflow.head? := by
  simp only [StoolEng.advance, hr, hq]
  cases e.overflow with
  | nil => exact hr
  | cons a r => simp

/-! ### The request retires -/

/-- An instruction that has retired still has when registers of the Stool engines and their queues change after it. -/
theorem Dev.Retired.stool {d z e : Dev} {c : Nat} {x : InFlight} {f : Form} {r : Res} (h : Dev.Retired d z c x f r) (hc : c < 8)
    (hrest : e = { z with regs := e.regs, stool := e.stool }) (hregs : ∀ o, o < 0x180000 → e.reg o = z.reg o) : Dev.Retired d e c x f r := by
  have hcore : ∀ i, e.core i = z.core i := Dev.core_congr (by rw [hrest])
  have hhome : e.home = z.home := by rw [hrest]
  have htag : ∀ y, e.tag c y = z.tag c y := Dev.tag_congr (by rw [hcore]) (by rw [hhome])
  have hfld : ∀ o f, o < 0x180000 → e.fld o f = z.fld o f := fun o f ho => by rw [Dev.fld, Dev.fld, hregs o ho]
  have hstatus : R.MC_SEQ_STATUS c < 0x180000 := by simp only [R.MC_SEQ_STATUS]; omega
  have harith : R.MC_ARITH_STATUS c < 0x180000 := by simp only [R.MC_ARITH_STATUS]; omega
  refine
    { rest := ?rest
      regs := fun o h1 h2 h3 h4 h5 => (hregs o h2).trans (h.regs o h1 h2 h3 h4 h5)
      others := fun i hi => (hcore i).trans (h.others i hi)
      sregs := by rw [hcore, h.sregs]
      flight := by rw [hcore, h.flight]
      pc := (hfld _ _ hstatus).trans h.pc
      count := (hregs _ (by simp only [R.MC_SEQ_RETIRED]; omega)).trans h.count
      tok := (funext fun i => funext fun t => Dev.tok_congr (by rw [hrest]) i t).trans h.tok
      written := fun y hy => (htag y).trans (h.written y hy)
      read := fun y hy => (htag y).trans (h.read y hy)
      accSat := by rw [Dev.flag, hfld _ _ harith]; exact h.accSat
      vecSat := by rw [Dev.flag, hfld _ _ harith]; exact h.vecSat
      vecNan := by rw [Dev.flag, hfld _ _ harith]; exact h.vecNan
      noRefs := by rw [hhome]; exact h.noRefs
      bytes := fun h1 h2 h3 a => (Dev.rd_of_regs (by rw [hrest]) (by rw [hrest]) (fun o _ ho => hregs o (by omega)) a).trans (h.bytes h1 h2 h3 a) }
  case rest =>
    rw [hrest]
    exact (congrArg (fun y : Dev => { y with regs := e.regs, stool := e.stool }) h.rest)

/-- The engine's count and its queue when the running request has ended. -/
def Dev.stoolNext (d : Dev) (die : Nat) (e : StoolEng) : Dev :=
  ({ d.wrapFld (R.STL_DONE die) F.STL_DONE_done 1 with stool := mput d.stool die e } : Dev).syncStool die

theorem wrapDone_reg (d : Dev) (die : Nat) :
    (d.wrapFld (R.STL_DONE die) F.STL_DONE_done 1).reg (R.STL_DONE die) = (d.reg (R.STL_DONE die) + 1) % 2 ^ 32 := by
  have hl := d.reg_lt (R.STL_DONE die)
  simp only [Dev.wrapFld, Dev.setFld, Dev.reg_setReg_same, Dev.fld, Fld.put, Fld.get, bits]
  omega

theorem wrapFld_rest (d : Dev) (o : Nat) (f : Fld) (n : Nat) : d.wrapFld o f n = { d with regs := (d.wrapFld o f n).regs } := by
  apply Dev.eq_of <;> simp

/-- STL_DONE has counted one request, the engine's queue stands as given, and registers below the Stool engines' are as they were. -/
theorem stoolNext_spec (d : Dev) (die : Nat) (e : StoolEng) :
    d.stoolNext die e = { d with regs := (d.stoolNext die e).regs, stool := mput d.stool die e } ∧
    (∀ o, o < 0x180000 → (d.stoolNext die e).reg o = d.reg o) ∧ (d.stoolNext die e).reg (R.STL_DONE die) = (d.reg (R.STL_DONE die) + 1) % 2 ^ 32 := by
  have hcount := wrapDone_reg d die
  have hother : ∀ o, o < 0x180000 → (d.wrapFld (R.STL_DONE die) F.STL_DONE_done 1).reg o = d.reg o := fun o ho => by
    rw [Dev.wrapFld, Dev.reg_setFld_ne _ _ _ (by simp only [R.STL_DONE]; omega)]
  have hwrap := wrapFld_rest d (R.STL_DONE die) F.STL_DONE_done 1
  unfold Dev.stoolNext
  generalize d.wrapFld (R.STL_DONE die) F.STL_DONE_done 1 = y at *
  have hput : ∀ o, ({ y with stool := mput d.stool die e } : Dev).reg o = y.reg o := Dev.reg_congr rfl
  obtain ⟨hsync, hregs⟩ := syncStool_spec { y with stool := mput d.stool die e } die
  generalize Dev.syncStool { y with stool := mput d.stool die e } die = z at *
  refine ⟨by rw [hsync, hwrap], fun o ho => ?low, ?done⟩
  case low => rw [hregs o (by simp only [R.STL_STATUS]; omega), hput, hother o ho]
  case done => rw [hregs _ (by simp only [R.STL_DONE, R.STL_STATUS]; omega), hput, hcount]

theorem exec_stoolRequestComplete {s : State} {die c id : Nat} {e : StoolEng} {x : InFlight} (he : mget s.here.stool die = some e)
    (hr : e.running = some (c, id)) (hx : s.here.infl? c id = some x) (hbad : (s.here.resOf c (s.here.core c) x).bad = [])
    (hkeep : ((s.here.commitRes c (s.here.resOf c (s.here.core c) x)).retireFlight c x).stool = s.here.stool) :
    exec (.stoolRequestComplete die) s = .next { s with d :=
      ((s.here.commitRes c (s.here.resOf c (s.here.core c) x)).retireFlight c x).stoolNext die { e with running := none }.advance } := by
  have arm : exec (.stoolRequestComplete die) s = execStoolRequestComplete die s := rfl
  simp only [arm, execStoolRequestComplete, onDev_here, mgetD, he, Option.getD_some, hr, hx, hbad, ne_eq, not_true_eq_false, if_false,
    Dev.stoolNext, Dev.wrapFld_stool, hkeep]

theorem stoolRequest_completes {s : State} {die c id : Nat} {e : StoolEng} {x : InFlight} {f : Form} (he : mget s.here.stool die = some e)
    (hc : c < 8) (hr : e.running = some (c, id)) (hx : s.here.infl? c id = some x) (halone : x.share = none)
    (hform : s.here.formOf c (s.here.core c) x.word x.sregs = some f) (hop : iOp x.word = 0x60)
    (hbad : (s.here.resOf c (s.here.core c) x).bad = []) (hdie : die < 2) :
    Answers (.stoolRequestComplete die) s fun t => t = { s with d := t.d } ∧
      Dev.Retired s.here t.d c x f (s.here.resOf c (s.here.core c) x) ∧
      t.d.reg (R.STL_DONE die) = (s.here.reg (R.STL_DONE die) + 1) % 2 ^ 32 ∧
      ∃ e', mget t.d.stool die = some e' ∧ (∀ q l, e.queue = q :: l → e'.running = some q ∧ ∃ m, e'.queue = l ++ m) ∧
        (e.queue = [] → e'.running = e.overflow.head?) ∧ ∀ i, i ≠ die → mget t.d.stool i = mget s.here.stool i := by
  obtain ⟨hret, hkeep, hhigh⟩ := committed s.here x f (s.here.resOf c (s.here.core c) x) hc halone (by omega) hform
  have hexec := exec_stoolRequestComplete he hr hx hbad hkeep
  generalize (s.here.commitRes c _).retireFlight c x = z at *
  obtain ⟨hrest, hlow, hdone⟩ := stoolNext_spec z die { e with running := none }.advance
  generalize z.stoolNext die _ = g at *
  have hstool : g.stool = mput z.stool die { e with running := none }.advance := by rw [hrest]
  rw [hhigh _ (by simp only [R.STL_DONE]; omega) (by simp only [R.STL_DONE]; omega)] at hdone
  refine ⟨_, hexec, rfl, hret.stool hc (by rw [hstool]; exact hrest) hlow, hdone, { e with running := none }.advance, ?_⟩
  rw [hstool, mget_mput_same]
  exact ⟨rfl, fun q l hq => advance_queued rfl hq, fun hq => advance_empty rfl hq, fun i hi => by rw [mget_mput_ne _ _ hi, hkeep]⟩

/-! ### A poison repair ends (R416) -/

theorem mget_mmap {α : Type} (m : SMap α) (g : Nat → α → α) (k : Nat) : mget (mmap m g) k = (mget m k).map (g k) := by
  induction m with
  | nil => rfl
  | cons p r ih =>
    obtain ⟨j, v⟩ := p
    by_cases h : j = k
    · subst h
      simp [mmap, mget]
    · simpa [mmap, mget, h] using ih

/-- Dispatch of the contexts of an image is released. -/
def Dev.releaseImage (d : Dev) (i : Image) : Dev :=
  { d with ctxs := mmap d.ctxs fun k x => if i.ctxs.contains k then { x with held := false } else x }

theorem releaseImage_ctxs (d : Dev) (i : Image) (k : Nat) :
    mget (d.releaseImage i).ctxs k = (mget d.ctxs k).map fun y => if k ∈ i.ctxs then { y with held := false } else y := by
  simp only [Dev.releaseImage, mget_mmap, List.contains_iff_mem]

/-- The repairs left are those of l. -/
def Dev.repairsLeft (d : Dev) (l : List (Nat × Nat)) : Dev := { d with recov := { d.recov with repair := l } }

/-- The device whose oldest repair is taken off the list and whose source has been read. -/
def Dev.repairRead (d : Dev) (img a : Nat) (l : List (Nat × Nat)) (i : Image) : Dev := (d.repairsLeft l).noteRead (d.repairSource img i a)

theorem repairsLeft_rd (d : Dev) (l : List (Nat × Nat)) : (d.repairsLeft l).rd = d.rd :=
  funext fun a => Dev.rd_of_regs rfl rfl (fun _ _ _ => rfl) a

theorem exec_poisonRepairComplete {s : State} {img a : Nat} {l : List (Nat × Nat)} {i : Image} (hl : s.here.recov.repair = (img, a) :: l)
    (hlast : ∀ y ∈ l, y.1 ≠ img) (hi : mget s.here.images img = some i) (hsrc : s.here.firstPoison (s.here.repairSource img i a) = none) :
    exec .poisonRepairComplete s = .next { s with d := ((s.here.repairRead img a l i).rewriteBank img i a).releaseImage i } := by
  have arm : exec .poisonRepairComplete s = execPoisonRepairComplete s := rfl
  have hnone : (l.any fun r => r.1 = img) = false := by simpa using hlast
  have hsrc' : Dev.firstPoison { s.here with recov := { s.here.recov with repair := l } } (s.here.repairSource img i a) = none := hsrc
  have hsame : Dev.repairSource { s.here with recov := { s.here.recov with repair := l } } img i a = s.here.repairSource img i a := rfl
  simp only [arm, execPoisonRepairComplete, onDev_here, Dev.repairDone, hl, hi, hsame, hsrc', hnone, Option.isSome_none, Bool.false_eq_true, if_false,
    Dev.releaseImage, Dev.repairRead, Dev.repairsLeft]

theorem bytesOnly_rewriteBank {d : Dev} (h : d.mem.chk = []) (img : Nat) (i : Image) (a : Nat) : Dev.BytesOnly d (d.rewriteBank img i a) := by
  unfold Dev.rewriteBank
  dsimp only
  split
  · exact d.bytesOnly_writeRun h ..
  · exact d.bytesOnly_writeRun h ..
  · exact .refl h

/-- The source of the repair holds no poison, and no other repair of the image is due: the bank is rewritten and dispatch released. -/
theorem poisonRepair_ends {s : State} {img a : Nat} {l : List (Nat × Nat)} {i : Image} (hl : s.here.recov.repair = (img, a) :: l)
    (hlast : ∀ y ∈ l, y.1 ≠ img) (hi : mget s.here.images img = some i) (hsrc : s.here.firstPoison (s.here.repairSource img i a) = none)
    (hchk : s.here.mem.chk = []) :
    Answers .poisonRepairComplete s fun t =>
      t = { s with d := { s.here with mem := t.d.mem, regs := t.d.regs, dram := t.d.dram, recov := { s.here.recov with repair := l }, ctxs := t.d.ctxs } } ∧
      (∃ e : Dev, (∀ y, e.rd y = s.here.rd y) ∧ e.images = s.here.images ∧ e.ctxs = s.here.ctxs ∧ t.d.mem = (e.rewriteBank img i a).mem ∧
        t.d.dram = (e.rewriteBank img i a).dram) ∧
      (∀ k y, mget s.here.ctxs k = some y → mget t.d.ctxs k = some (if k ∈ i.ctxs then { y with held := false } else y)) ∧
      ∀ k, t.d.faulted k = s.here.faulted k := by
  have hexec := exec_poisonRepairComplete hl hlast hi hsrc
  have hread : Dev.BytesOnly (s.here.repairsLeft l) (s.here.repairRead img a l i) := (s.here.repairsLeft l).bytesOnly_noteRead hchk _
  have hbytes : (s.here.repairRead img a l i).rd = s.here.rd :=
    ((s.here.repairsLeft l).sameBytes_noteRead hchk _).rd.trans (repairsLeft_rd _ l)
  generalize s.here.repairRead img a l i = e at *
  have hbank := bytesOnly_rewriteBank hread.chk img i a
  have hall := hread.trans hbank
  refine ⟨_, hexec, ?rest, ⟨e, fun y => congrFun hbytes y, by rw [hread.rest]; rfl, by rw [hread.rest]; rfl, rfl, rfl⟩, fun k y hy => ?ctxs, fun k => ?marks⟩
  all_goals generalize e.rewriteBank img i a = g at *
  case rest =>
    have hrest : g.releaseImage i = { s.here with mem := g.mem, regs := g.regs, dram := g.dram, recov := { s.here.recov with repair := l }, ctxs := (g.releaseImage i).ctxs } := by
      rw [Dev.releaseImage]
      exact congrArg (fun y : Dev => { y with ctxs := mmap g.ctxs fun k x => if i.ctxs.contains k then { x with held := false } else x }) hall.rest
    exact congrArg (fun y : Dev => { s with d := y }) hrest
  case ctxs =>
    have hctxs : g.ctxs = s.here.ctxs := by rw [hall.rest]; rfl
    refine (releaseImage_ctxs g i k).trans ?_
    rw [hctxs, hy, Option.map_some]
  case marks =>
    refine faulted_congr (d := s.here) (e := g.releaseImage i) (fun o ho => ?_) k
    refine hall.regs o fun c hc => ?_
    simp only [R.TEL_FAULTED_LO, R.TEL_FAULTED_HI] at ho
    simp only [R.DRC_CH_ECC]
    omega

/-- Settles O17: the running request takes the retirement of every instruction and the engine goes on with its queue; a repair whose source holds no poison rewrites its bank. -/
theorem stoolAndRepairComplete : Obligations.StoolAndRepairComplete := by
  unfold Obligations.StoolAndRepairComplete
  refine ⟨fun s die c id e x f he hc hdie _ hr hx _ halone hform hop hbad => ?_, fun s img a l i hl hlast hi hsrc hchk => ?_⟩
  · exact stoolRequest_completes he hc hr hx halone hform hop hbad hdie
  · exact poisonRepair_ends hl hlast hi hsrc hchk

end Sys2Proof.Machine
end
section
/-!
SUPPORT. The issue of an instruction with region operands (R72, R75, R88 to R93): that nothing keeps it from issuing, and what its issue takes.
-/

namespace Sys2Proof.Machine

variable {c : Nat} {w : IWord}

/-! ### Nothing keeps the instruction from issuing -/

/-- A form that passes every check passes the late one (R105). -/
theorem Form.late_of_check {f : Form} (h : f.check c = none) : f.late = none := by
  unfold Form.check at h
  split_ifs at h
  exact h

theorem blockedTags_none {d : Dev} {reads writes : List TagRef} (hr : ∀ x ∈ reads, hasTag writes x = true ∨ (d.tag c x).readable = true)
    (hw : ∀ x ∈ writes, d.tag c x = if hasTag reads x = true then .ready 1 else .free) : d.blockedTags c reads writes = [] := by
  rw [Dev.blockedTags, List.append_eq_nil_iff, List.filter_eq_nil_iff, List.filter_eq_nil_iff]
  refine ⟨fun x hx => ?_, fun x hx => ?_⟩
  · rcases hr x hx with h | h <;> simp [h]
  · have := hw x hx
    split_ifs at this ⊢ <;> simp [this]

theorem tryIssue_ready {d : Dev} {op : Nat} {f : Form} (h : d.dataReady c op w f) : d.tryIssue c w = d.doIssue c f w .plain := by
  have hlate := Form.late_of_check h.checks
  have hform : { f with late := none } = f := by rw [← hlate]
  have hfree : d.issueBlocked (d.core c) c f .plain = [] := blockedTags_none h.reads h.writes
  simp only [Dev.tryIssue, h.form, h.alone, hform, h.checks, h.noShare, hfree, h.token, h.room, h.table, hlate, Bool.not_true, Bool.or_self,
    ne_eq, not_true_eq_false, decide_false, Bool.false_eq_true, if_false]

/-- Every instruction of the list issues by the one rule. -/
theorem exec_dataInstr : ∀ p ∈ dataInstr c, ∀ s, exec p.1 s = onDev s fun d => d.issueData c p.2 := by
  simp only [dataInstr, List.forall_mem_cons, List.not_mem_nil, false_imp_iff, implies_true, and_true]
  and_intros <;> exact fun _ => rfl

theorem exec_dataReady {s : State} {i : Instr} {op : Nat} {f : Form} (hi : (i, op) ∈ dataInstr c) (h : s.here.dataReady c op w f) :
    exec i s = .next { s with d := s.here.doIssue c f w .plain } := by
  rw [exec_dataInstr _ hi, onDev_here, Dev.issueData, onOp_at h.here, tryIssue_ready h]

/-! ### What the issue takes besides tags -/

/-- From d to e, an instruction of core c takes values and table slots, page references, a lock, or its place on its Stool engine: nothing else changes. -/
structure Dev.TakeOnly (d e : Dev) (c : Nat) : Prop where
  rest : e = { d with freeCtr := e.freeCtr, regs := e.regs, cores := e.cores, bpm := e.bpm, stool := e.stool, home := { d.home with locks := e.home.locks, refs := e.home.refs } }
  regs : ∀ o, o ≠ R.STL_STATUS (stackOf c) → e.reg o = d.reg o
  others : ∀ i, i ≠ c → e.core i = d.core i
  own : e.core c = { d.core c with planeA := (e.core c).planeA, planeS := (e.core c).planeS, luts := (e.core c).luts }

theorem Dev.TakeOnly.refl (d : Dev) (c : Nat) : Dev.TakeOnly d d c := ⟨rfl, fun _ _ => rfl, fun _ _ => rfl, rfl⟩

theorem Dev.TakeOnly.trans {d e g : Dev} (h : Dev.TakeOnly d e c) (h' : Dev.TakeOnly e g c) : Dev.TakeOnly d g c where
  rest := by rw [h'.rest, h.rest]
  regs o ho := (h'.regs o ho).trans (h.regs o ho)
  others i hi := (h'.others i hi).trans (h.others i hi)
  own := by rw [h'.own, h.own]

theorem takeOnly_lutAt (d : Dev) (k : Core) : Dev.TakeOnly d (d.lutAt k w).2 c := by
  unfold Dev.lutAt
  split
  · split
    · exact .refl d c
    · exact ⟨rfl, fun _ _ => rfl, fun _ _ => rfl, rfl⟩
  · exact .refl d c

theorem takeOnly_planes (d : Dev) (k : Core) :
    Dev.TakeOnly d (d.modCore c fun q => { q with planeA := k.planeA, planeS := k.planeS, luts := k.luts }) c :=
  ⟨rfl, fun _ _ => d.reg_modCore .., fun _ hi => d.core_modCore_ne _ hi, by rw [Dev.core_modCore_same]⟩

theorem takeOnly_bpm (d : Dev) (b : Bpm) : Dev.TakeOnly d { d with bpm := b } c := ⟨rfl, fun _ _ => rfl, fun _ _ => rfl, rfl⟩

theorem takeOnly_refInc (d : Dev) (h : Nat) : Dev.TakeOnly d (d.refInc h) c := by
  unfold Dev.refInc
  split
  · split
    · exact takeOnly_bpm d _
    · exact .refl d c
  · exact .refl d c

theorem takeOnly_refs (d : Dev) (l : List (Nat × Nat × Nat)) : Dev.TakeOnly d { d with home := { d.home with refs := l } } c :=
  ⟨rfl, fun _ _ => rfl, fun _ _ => rfl, rfl⟩

theorem takeOnly_takePages (d : Dev) (id : Nat) (pages : List Nat) : Dev.TakeOnly d (d.takePages c id pages) c := by
  induction pages generalizing d with
  | nil => exact .refl d c
  | cons h r ih =>
    rw [Dev.takePages, List.foldl_cons]
    refine .trans ?_ (ih _)
    split
    · exact (takeOnly_refInc d h).trans (takeOnly_refs _ _)
    · exact .refl d c

/-- KVAPP locks its table (R156). -/
def Dev.takeLock (d : Dev) (c id : Nat) (t : Option Nat) (w : IWord) : Dev :=
  match t with
  | some t => if iOp w = 0x32 then { d with home := { d.home with locks := d.home.locks ++ [(t, c, id)] } } else d
  | none => d

theorem takeOnly_takeLock (d : Dev) (id : Nat) (t : Option Nat) : Dev.TakeOnly d (d.takeLock c id t w) c := by
  unfold Dev.takeLock
  split
  · split
    · exact ⟨rfl, fun _ _ => rfl, fun _ _ => rfl, rfl⟩
    · exact .refl d c
  · exact .refl d c

theorem takeOnly_joinStool (d : Dev) (id : Nat) : Dev.TakeOnly d (d.joinStool c id) c := by
  unfold Dev.joinStool
  simp only []
  generalize StoolEng.advance _ = e
  obtain ⟨hrest, hregs⟩ := syncStool_spec { d with stool := mput d.stool (stackOf c) e } (stackOf c)
  generalize Dev.syncStool _ (stackOf c) = g at *
  have hcore : ∀ i, g.core i = d.core i := Dev.core_congr (by rw [hrest])
  exact ⟨by rw [hrest], fun o ho => (hregs o ho).trans (Dev.reg_congr rfl o), fun i _ => hcore i, by rw [hcore]⟩

/-! ### The issue, in parts -/

/-- Core c has started the instruction, and its pc is past it. -/
def Dev.issueStart (d : Dev) (c : Nat) (w : IWord) : Dev := ((d.takeWait c w).clearWaits c).setPc c (d.pc c + 1)

/-- Every tag of a list is FILLING. -/
def Dev.fillTags (d : Dev) (c : Nat) (l : List TagRef) : Dev := l.foldl (fun d t => d.setTag c t .filling) d

theorem doIssue_zero {d : Dev} {f : Form} (hz : f.zero = true) :
    d.doIssue c f w .plain = (d.issueStart c w).issueZero c w (f.reads (d.core c) c) (f.writes (d.core c) c) := by
  cases (d.core c).run <;> simp only [Dev.doIssue, hz, if_true, Dev.issueStart]

/-- Values, planes, pages and the lock of an instruction w of core c, whose state was k before its issue. -/
def Dev.issueTakes (d : Dev) (k : Core) (c : Nat) (w : IWord) : Dev :=
  let l := d.lutAt k w
  let q := (l.2.issuePlanes c k w k.sregs).1
  let e := l.2.modCore c fun y => { y with planeA := q.planeA, planeS := q.planeS, luts := q.luts }
  (e.takePages c k.nextId (e.pagedAt k w k.sregs).2).takeLock c k.nextId (k.table w k.sregs) w

/-- The instruction as it stands in flight. -/
def Dev.flightOf (d : Dev) (k : Core) (c : Nat) (w : IWord) (pc : Nat) : InFlight :=
  let l := d.lutAt k w
  let q := l.2.issuePlanes c k w k.sregs
  let g := (l.2.modCore c fun y => { y with planeA := q.1.planeA, planeS := q.1.planeS, luts := q.1.luts }).pagedAt k w k.sregs
  { id := k.nextId, word := w, pc := pc, sregs := k.sregs, lut := l.1, w0 := q.2, len := g.1, pages := g.2 }

theorem takeOnly_issueTakes (d : Dev) (k : Core) : Dev.TakeOnly d (d.issueTakes k c w) c :=
  (takeOnly_lutAt d k).trans ((takeOnly_planes _ _).trans ((takeOnly_takePages _ _ _).trans (takeOnly_takeLock _ _ _)))

/-- With a length to run, the instruction's tags are FILLING, it takes what it needs and is in flight, a STOOL on its engine's queue too. -/
theorem doIssue_flight {d : Dev} {f : Form} (hz : f.zero = false) :
    d.doIssue c f w .plain =
      let e := (d.issueStart c w).fillTags c (f.writes (d.core c) c)
      let g := (e.issueTakes (d.core c) c w).putFlight c (e.flightOf (d.core c) c w (d.pc c))
      if iOp w = 0x60 then g.joinStool c (d.core c).nextId else g := by
  cases (d.core c).run <;> simp only [Dev.doIssue, hz, Bool.false_eq_true, if_false] <;> rfl

/-! ### What the parts leave -/

/-- From d to e, core c has started w and stands at the next instruction; nothing else changes. -/
structure Dev.IssueStarted (d e : Dev) (c : Nat) (w : IWord) : Prop where
  rest : e = { d with regs := e.regs, cores := e.cores, home := { d.home with notes := e.home.notes } }
  regs : ∀ o, o ≠ R.MC_SEQ_STATUS c → e.reg o = d.reg o
  others : ∀ i, i ≠ c → e.core i = d.core i
  own : e.core c = { d.core c with tokens := (e.core c).tokens, waitSince := none }
  pc : e.pc c = (d.pc c + 1) % 2 ^ 12
  tok : e.tok = tokWait d.tok c w

theorem issueStart_spec (d : Dev) (c : Nat) (w : IWord) : Dev.IssueStarted d (d.issueStart c w) c w := by
  have h := d.start_spec c w
  unfold Dev.issueStart
  generalize (d.takeWait c w).clearWaits c = e at *
  have hset : e.setPc c (d.pc c + 1) = { e with regs := (e.setPc c (d.pc c + 1)).regs } := by apply Dev.eq_of <;> simp
  have hcore : ∀ i, (e.setPc c (d.pc c + 1)).core i = e.core i := Dev.core_congr (by rw [hset])
  refine ⟨?rest, fun o ho => (setPc_reg_ne e _ ho).trans (h.regs o ho), fun i hi => (hcore i).trans (h.others i hi), ?own, setPc_pc e _, ?tok⟩
  case rest => rw [hset, h.rest]
  case own => rw [hcore, h.own]
  case tok => exact (funext fun i => funext fun t => Dev.tok_congr (by rw [hset]) i t).trans h.tok

/-- A tag of the list is FILLING, every other as it was. -/
theorem fillTags_tag (d : Dev) (l : List TagRef) (x : TagRef) :
    (d.fillTags c l).tag c x = if hasTag l x = true then .filling else d.tag c x := by
  obtain ⟨hin, hout⟩ := d.tag_fold c l (fun _ => .filling) fun _ _ _ _ _ => rfl
  split
  next h =>
    obtain ⟨y, hy, hsame⟩ := hasTag_iff.1 h
    obtain ⟨hkey, hown⟩ := TagRef.same_iff.1 hsame
    have heq : (d.fillTags c l).tag c x = (d.fillTags c l).tag c y := by rw [Dev.tag, Dev.tag, hkey, hown]
    exact heq.trans (hin y hy)
  next h => exact hout x (Bool.eq_false_iff.2 h)

theorem fillTags_spec (d : Dev) (c : Nat) (l : List TagRef) :
    d.fillTags c l = { d with cores := (d.fillTags c l).cores, home := { d.home with tags := (d.fillTags c l).home.tags } } ∧
    (∀ i, i ≠ c → (d.fillTags c l).core i = d.core i) ∧ (d.fillTags c l).core c = { d.core c with priv := ((d.fillTags c l).core c).priv } :=
  setTags_cores d c l fun _ _ => .filling

/-! ### What the parts change at most -/

theorem Dev.IssueOnly.trans {d e g : Dev} (h : Dev.IssueOnly d e c) (h' : Dev.IssueOnly e g c) : Dev.IssueOnly d g c where
  rest := by rw [h'.rest, h.rest]
  regs o h1 h2 h3 := (h'.regs o h1 h2 h3).trans (h.regs o h1 h2 h3)
  others i hi := (h'.others i hi).trans (h.others i hi)
  own := by rw [h'.own, h.own]

theorem Dev.IssueStarted.only {d e : Dev} (h : Dev.IssueStarted d e c w) : Dev.IssueOnly d e c :=
  ⟨by rw [h.rest], fun o h1 _ _ => h.regs o h1, h.others, by rw [h.own]⟩

theorem Dev.TakeOnly.only {d e : Dev} (h : Dev.TakeOnly d e c) : Dev.IssueOnly d e c :=
  ⟨by rw [h.rest], fun o _ _ h3 => h.regs o h3, h.others, by rw [h.own]⟩

/-- A change of tags, in the homes and in those the core keeps itself. -/
theorem issueOnly_tags {d e : Dev} (h : e = { d with cores := e.cores, home := { d.home with tags := e.home.tags } })
    (hothers : ∀ i, i ≠ c → e.core i = d.core i) (hown : e.core c = { d.core c with priv := (e.core c).priv }) : Dev.IssueOnly d e c :=
  ⟨by rw [h], fun o _ _ _ => Dev.reg_congr (by rw [h]) o, hothers, by rw [hown]⟩

theorem issueOnly_putFlight (d : Dev) (x : InFlight) : Dev.IssueOnly d (d.putFlight c x) c :=
  ⟨rfl, fun o _ _ _ => putFlight_reg d x o, fun _ hi => putFlight_core_ne d x hi, by rw [putFlight_core]⟩

theorem issueOnly_signal (d : Dev) (hc : c < 8) : Dev.IssueOnly d ((d.signal c w).countRetired c) c := by
  obtain ⟨hrest, hregs, hothers, hown, -⟩ := signal_count (w := w) d hc
  exact ⟨by rw [hrest], fun o h1 h2 _ => hregs o h1 h2, hothers, by rw [hown]⟩

theorem Dev.IssueOnly.rd {d e : Dev} (h : Dev.IssueOnly d e c) : e.rd = d.rd := by
  funext a
  refine Dev.rd_of_regs (by rw [h.rest]) (by rw [h.rest]) (fun o _ ho => ?_) a
  obtain ⟨hstatus, hretired⟩ := coreReg_ne (c := c) (o := o) (by omega)
  exact h.regs o hstatus hretired (by simp only [R.STL_STATUS]; omega)

/-! ### What the parts keep of the sequencer -/

/-- The pc, the tokens and the count of retired instructions of core c are as they were. -/
structure Dev.SeqKept (d e : Dev) (c : Nat) : Prop where
  pc : e.pc c = d.pc c
  tok : e.tok = d.tok
  count : e.reg (R.MC_SEQ_RETIRED c) = d.reg (R.MC_SEQ_RETIRED c)

theorem Dev.SeqKept.trans {d e g : Dev} (h : Dev.SeqKept d e c) (h' : Dev.SeqKept e g c) : Dev.SeqKept d g c :=
  ⟨h'.pc.trans h.pc, h'.tok.trans h.tok, h'.count.trans h.count⟩

/-- Registers of the core block and the tokens of every core kept. -/
theorem seqKept_of {d e : Dev} (hc : c < 8) (hregs : ∀ o, o < 0x180000 → e.reg o = d.reg o) (hothers : ∀ i, i ≠ c → e.core i = d.core i)
    (hown : (e.core c).tokens = (d.core c).tokens) : Dev.SeqKept d e c where
  pc := by rw [Dev.pc, Dev.pc, Dev.fld, Dev.fld, hregs _ (by simp only [R.MC_SEQ_STATUS]; omega)]
  tok := by
    funext i t
    unfold Dev.tok
    by_cases hi : i = c
    · rw [hi, hown]
    · rw [hothers i hi]
  count := hregs _ (by simp only [R.MC_SEQ_RETIRED]; omega)

theorem seqKept_tags {d e : Dev} (hc : c < 8) (h : e = { d with cores := e.cores, home := { d.home with tags := e.home.tags } })
    (hothers : ∀ i, i ≠ c → e.core i = d.core i) (hown : e.core c = { d.core c with priv := (e.core c).priv }) : Dev.SeqKept d e c :=
  seqKept_of hc (fun o _ => Dev.reg_congr (by rw [h]) o) hothers (by rw [hown])

theorem Dev.TakeOnly.seq {d e : Dev} (hc : c < 8) (h : Dev.TakeOnly d e c) : Dev.SeqKept d e c :=
  seqKept_of hc (fun o ho => h.regs o (by simp only [R.STL_STATUS]; omega)) h.others (by rw [h.own])

theorem seqKept_putFlight (d : Dev) (x : InFlight) (hc : c < 8) : Dev.SeqKept d (d.putFlight c x) c :=
  seqKept_of hc (fun o _ => putFlight_reg d x o) (fun _ hi => putFlight_core_ne d x hi) (by rw [putFlight_core])

theorem Dev.TakeOnly.tag {d e : Dev} (h : Dev.TakeOnly d e c) (x : TagRef) : e.tag c x = d.tag c x :=
  Dev.tag_congr (by rw [h.own]) (by rw [h.rest]) x

/-! ### The two ends of an issue -/

/-- From d to e, w has issued on core c with a length to run: it is in flight and the tags it writes are FILLING. -/
structure Dev.Flown (d e : Dev) (c : Nat) (w : IWord) (writes : List TagRef) : Prop where
  only : Dev.IssueOnly d e c
  pc : e.pc c = (d.pc c + 1) % 2 ^ 12
  tok : e.tok = tokWait d.tok c w
  count : e.reg (R.MC_SEQ_RETIRED c) = d.reg (R.MC_SEQ_RETIRED c)
  flight : ∃ x, (e.core c).inflight = (d.core c).inflight ++ [x] ∧ x.id = (d.core c).nextId ∧ x.word = w ∧ x.pc = d.pc c ∧
    x.sregs = (d.core c).sregs ∧ x.share = none
  next : (e.core c).nextId = (d.core c).nextId + 1
  tag : ∀ x, e.tag c x = if hasTag writes x = true then .filling else d.tag c x

/-- From d to e, w has issued on core c with length 0: it has retired and its tags are settled. -/
structure Dev.Passed (d e : Dev) (c : Nat) (w : IWord) (reads writes : List TagRef) : Prop where
  only : Dev.IssueOnly d e c
  pc : e.pc c = (d.pc c + 1) % 2 ^ 12
  tok : e.tok = tokSignal (tokWait d.tok c w) c w
  count : e.reg (R.MC_SEQ_RETIRED c) = (d.reg (R.MC_SEQ_RETIRED c) + 1) % 2 ^ 32
  flight : (e.core c).inflight = (d.core c).inflight
  bpm : e.bpm = d.bpm
  stool : e.stool = d.stool
  written : ∀ x ∈ writes, e.tag c x = .ready x.rcount
  read : ∀ x, hasTag writes x = false → e.tag c x = if hasTag reads x = true then (d.tag c x).retire else d.tag c x

section
variable {d : Dev} {f : Form} (hc : c < 8)
include hc

theorem doIssue_flown (hz : f.zero = false) : Dev.Flown d (d.doIssue c f w .plain) c w (f.writes (d.core c) c) := by
  have hstart := issueStart_spec d c w
  rw [doIssue_flight hz]
  dsimp only
  generalize d.issueStart c w = e1 at *
  obtain ⟨fRest, fOthers, fOwn⟩ := fillTags_spec e1 c (f.writes (d.core c) c)
  have fTag := fillTags_tag (c := c) e1 (f.writes (d.core c) c)
  generalize e1.fillTags c (f.writes (d.core c) c) = e2 at *
  have hx : (e2.flightOf (d.core c) c w (d.pc c)).id = (d.core c).nextId ∧ (e2.flightOf (d.core c) c w (d.pc c)).word = w ∧
    (e2.flightOf (d.core c) c w (d.pc c)).pc = d.pc c ∧ (e2.flightOf (d.core c) c w (d.pc c)).sregs = (d.core c).sregs ∧
    (e2.flightOf (d.core c) c w (d.pc c)).share = none := ⟨rfl, rfl, rfl, rfl, rfl⟩
  generalize e2.flightOf (d.core c) c w (d.pc c) = x at *
  have htake := takeOnly_issueTakes (c := c) (w := w) e2 (d.core c)
  generalize e2.issueTakes (d.core c) c w = e3 at *
  have hlast : Dev.TakeOnly (e3.putFlight c x) (if iOp w = 0x60 then (e3.putFlight c x).joinStool c (d.core c).nextId else e3.putFlight c x) c := by
    split
    · exact takeOnly_joinStool _ _
    · exact .refl _ c
  generalize (if iOp w = 0x60 then (e3.putFlight c x).joinStool c (d.core c).nextId else e3.putFlight c x) = e5 at *
  have hkept : Dev.SeqKept e1 e5 c :=
    (seqKept_tags hc fRest fOthers fOwn).trans ((htake.seq hc).trans ((seqKept_putFlight e3 x hc).trans (hlast.seq hc)))
  have hcore : (e5.core c).inflight = (d.core c).inflight ++ [x] ∧ (e5.core c).nextId = x.id + 1 := by
    rw [hlast.own, putFlight_core, htake.own, fOwn, hstart.own]
    exact ⟨rfl, rfl⟩
  have hstartTag : ∀ y, e1.tag c y = d.tag c y := Dev.tag_congr (by rw [hstart.own]) (by rw [hstart.rest])
  have hputTag : ∀ y, (e3.putFlight c x).tag c y = e3.tag c y := Dev.tag_congr (by rw [putFlight_core]) rfl
  exact
    { only := hstart.only.trans ((issueOnly_tags fRest fOthers fOwn).trans (htake.only.trans ((issueOnly_putFlight e3 x).trans hlast.only)))
      pc := hkept.pc.trans hstart.pc
      tok := hkept.tok.trans hstart.tok
      count := hkept.count.trans (hstart.regs _ (retired_ne_status c).symm)
      flight := ⟨x, hcore.1, hx⟩
      next := by rw [hcore.2, hx.1]
      tag := fun y => by rw [hlast.tag, hputTag, htake.tag, fTag, hstartTag] }

theorem doIssue_passed (hz : f.zero = true) :
    Dev.Passed d (d.doIssue c f w .plain) c w (f.reads (d.core c) c) (f.writes (d.core c) c) := by
  have hstart := issueStart_spec d c w
  rw [doIssue_zero hz, Dev.issueZero]
  generalize d.issueStart c w = e1 at *
  obtain ⟨sRest, sOthers, sOwn⟩ := settle_cores e1 c (f.reads (d.core c) c) (f.writes (d.core c) c)
  obtain ⟨sWritten, sRead⟩ := settle_tags e1 c (f.reads (d.core c) c) (f.writes (d.core c) c) (dedupTags_spec _).1 (dedupTags_spec _).1
  generalize e1.settleTags c (f.reads (d.core c) c) (f.writes (d.core c) c) = e2 at *
  have hkept := seqKept_tags hc sRest sOthers sOwn
  have honly := issueOnly_signal (w := w) e2 hc
  obtain ⟨gRest, -, -, gOwn, gPc, gCount, gTok⟩ := signal_count (w := w) e2 hc
  generalize (e2.signal c w).countRetired c = e3 at *
  have hstartTag : ∀ y, e1.tag c y = d.tag c y := Dev.tag_congr (by rw [hstart.own]) (by rw [hstart.rest])
  have hendTag : ∀ y, e3.tag c y = e2.tag c y := Dev.tag_congr (by rw [gOwn]) (by rw [gRest])
  exact
    { only := hstart.only.trans ((issueOnly_tags sRest sOthers sOwn).trans honly)
      pc := gPc.trans (hkept.pc.trans hstart.pc)
      tok := by rw [gTok, hkept.tok, hstart.tok]
      count := by rw [gCount, hkept.count, hstart.regs _ (retired_ne_status c).symm]
      flight := by rw [gOwn, sOwn, hstart.own]
      bpm := by rw [gRest, sRest, hstart.rest]
      stool := by rw [gRest, sRest, hstart.rest]
      written := fun x hx => (hendTag x).trans (sWritten x hx)
      read := fun x hx => by rw [hendTag, sRead x hx, hstartTag] }

end

/-- Settles O11: the command reaches the issue of an instruction that nothing holds, and the issue, in its parts, leaves it in flight or, with no length to run, retired. -/
theorem dataInstructionsIssue : Obligations.DataInstructionsIssue := by
  unfold Obligations.DataInstructionsIssue
  intro i s c op w f hi h
  have hexec := exec_dataReady hi h
  have hc : c < 8 := h.here.1
  refine ⟨fun hz => ?_, fun hz => ?_⟩
  · obtain ⟨only, pc, tok, count, flight, next, tag⟩ := doIssue_flown (w := w) (d := s.here) hc hz
    exact ⟨_, hexec, rfl, only, fun a => congrFun only.rd a, pc, tok, count, flight, next, tag⟩
  · obtain ⟨only, pc, tok, count, flight, bpm, stool, written, read⟩ := doIssue_passed (w := w) (d := s.here) hc hz
    exact ⟨_, hexec, rfl, only, fun a => congrFun only.rd a, pc, tok, count, flight, bpm, stool, written, read⟩

end Sys2Proof.Machine
end
section
/-!
SUPPORT. States that the model runs and of which hypotheses hold: a core at a sequencer instruction (O1, O4, O8, O14, O15) and at a MOVE (O11).
-/

namespace Sys2Proof.Machine

/-- The only kernel of a one-core dispatch. -/
def soloRun : Run :=
  { ctx := 0, variant := 0, kernel := 0, count := 1, stream := 0, frame := 0, epoch := 0, stamp := 0, s6 := 0, s7 := 1,
    claiming := false, replay := false, gen := 1, stack := 0 }

/-! ### A core at an instruction of its sequencer -/

/-- Core 0 has waited at w since time 0, with 250 of token 5 and 9 more on their way to it, and counter 10 at its last value. -/
def standsAt (w : IWord) : State :=
  { d := { regs := resetRegs, home := { remote := [(0, 5, 9)], counters := [(10, 0xFFFFFFFF)] },
           cores := [(0, { run := some soloRun, ibuf := [w], filled := true, sregs := List.replicate 32 0, tokens := [(5, 250)], waitSince := some 0 })] } }

theorem standsAt_pc (w : IWord) : (standsAt w).here.pc 0 = 0 := by
  have hregs : (standsAt w).here.regs = resetRegs := rfl
  rw [Dev.pc, Dev.fld, Dev.reg, hregs]
  decide

theorem standsAt_atInstr (w : IWord) : (standsAt w).here.atInstr 0 (iOp w) w := by
  refine ⟨by decide, rfl, rfl, ?_, rfl⟩
  rw [Dev.nextWord, standsAt_pc]
  rfl

/-- SETS of 0xAB to S3. -/
def setsWord : IWord := BitVec.ofNat 128 (0x52 * 2 ^ 120 + 0xAB * 2 ^ 32 + 3)

/-- The value is in S3, S4 is as it was, and the core stands past the SETS. -/
theorem setsWord_issues : Answers (.sets 0) (standsAt setsWord) fun t =>
    t.d.pc 0 = 1 ∧ sWord (t.d.core 0).sregs 3 = 0xAB ∧ sWord (t.d.core 0).sregs 4 = 0 := by
  obtain ⟨t, hexec, ⟨-, -, hpc, -⟩, -, hsregs⟩ := scalarInstructions.1 (standsAt setsWord) 0 setsWord ⟨standsAt_atInstr _, rfl, rfl⟩
  refine ⟨t, hexec, hpc, ?_⟩
  rw [hsregs]
  exact ⟨rfl, rfl⟩

/-- KEND, waiting for token 5. -/
def kendWord : IWord := BitVec.ofNat 128 (0x58 * 2 ^ 120 + 5 * 2 ^ 74 + 2 ^ 73)

theorem kendWord_issues : Answers (.kend 0) (standsAt kendWord) fun t =>
    t.d.pc 0 = 0 ∧ t.d.tok 0 5 = 249 ∧ (t.d.core 0).kendIssued = true := by
  obtain ⟨t, hexec, -, htok, hpc, hissued, -⟩ := kendIssues (standsAt kendWord) 0 kendWord ⟨standsAt_atInstr _, rfl, rfl⟩
  exact ⟨t, hexec, hpc, congrFun (congrFun htok 0) 5, hissued⟩

/-- CLAIM of 2 from counter 10 into S3. -/
def claimWord : IWord := BitVec.ofNat 128 (0x54 * 2 ^ 120 + 2 * 2 ^ 32 + 10 * 2 ^ 10 + 3)

/-- The counter wraps to 1 and its old value is in S3. -/
theorem claimWord_issues : Answers (.claim 0) (standsAt claimWord) fun t =>
    mgetD t.d.home.counters 10 0 = 1 ∧ sWord (t.d.core 0).sregs 3 = 0xFFFFFFFF := by
  obtain ⟨t, hexec, hcounter, -, hsregs, -⟩ :=
    poolInstructionsIssue.2 (standsAt claimWord) 0 claimWord ⟨standsAt_atInstr _, rfl, rfl⟩ rfl rfl
  refine ⟨t, hexec, hcounter, ?_⟩
  rw [hsregs]
  rfl

/-- The tokens that arrive saturate. -/
theorem standsAt_remoteToken : Answers (.remoteTokenArrive 0) (standsAt kendWord) fun t => t.d.tok 0 5 = 255 ∧ t.d.home.remote = [] := by
  obtain ⟨t, hexec, htok, hhome, -⟩ := tokensAndTagsArrive.1 (standsAt kendWord) 0 5 9 [] rfl
  exact ⟨t, hexec, congrFun (congrFun htok 0) 5, congrArg (·.remote) hhome⟩

/-- The core that has waited too long is free, with the code in its status. -/
theorem standsAt_tokenTimeout : Answers (.tokenTimeout 0) (standsAt kendWord) fun t =>
    (t.d.core 0).run = none ∧ t.d.fld (R.MC_SEQ_STATUS 0) F.MC_SEQ_STATUS_fault = Code.tokenTimeout.num % 2 ^ 8 := by
  obtain ⟨t, hexec, -, haborted⟩ := faultsAbortTheKernel.2.1 (standsAt kendWord) 0 soloRun (by decide) rfl rfl (by decide) rfl rfl
  exact ⟨t, hexec, (haborted.freed 0 (by decide)).run, haborted.fault⟩

/-! ### A core at a MOVE -/

/-- Core 0 stands at the MOVE of moveState; its source is READY for one reader, its destination free. -/
def moveIssueState : State :=
  { d := { regs := resetRegs, mem := moveState.d.mem, home := { tags := [(1, .ready 1)] },
           cores := [(0, { run := some soloRun, ibuf := [moveWord], filled := true, dcache := rawPair 0x40 1 ++ rawPair 0x80 2 })] } }

theorem moveIssueState_ready : moveIssueState.here.dataReady 0 0x01 moveWord moveFlightForm where
  here := ⟨by decide, rfl, rfl, rfl, rfl⟩
  form := congrArg some moveState_form
  checks := moveFlightForm_check
  alone := rfl
  noShare := rfl
  reads := by decide
  writes := by decide
  token := rfl
  room := rfl
  table := rfl

/-- The MOVE is in flight and its destination is FILLING; its source still waits for the reader. -/
theorem moveIssueState_issues : Answers (.move 0) moveIssueState fun t =>
    t.d.pc 0 = 1 ∧ (∃ x, (t.d.core 0).inflight = [x] ∧ x.word = moveWord) ∧ t.d.tag 0 ⟨2, false, 1⟩ = .filling ∧
    t.d.tag 0 ⟨1, false, 1⟩ = .ready 1 := by
  obtain ⟨t, hexec, -, -, -, hpc, -, -, ⟨x, hflight, -, hword, -⟩, -, htag⟩ :=
    (dataInstructionsIssue (.move 0) moveIssueState 0 0x01 moveWord moveFlightForm (by simp [dataInstr]) moveIssueState_ready).1 rfl
  exact ⟨t, hexec, hpc, ⟨x, hflight, hword⟩, htag ⟨2, false, 1⟩, htag ⟨1, false, 1⟩⟩

end Sys2Proof.Machine
end
section
/-!
SUPPORT. LOOP and BR (R162): what each does where its fields are in order and its target lies in the kernel, and where it faults.
-/

namespace Sys2Proof.Machine

variable {d : Dev} {c n : Nat} {w : IWord}

/-! ### LOOP -/

theorem Dev.doLoop_ready (hok : (reservedOk w 0 (31 ||| (2 ^ 16 - 1) * 2 ^ 16) && imm w 0 5 ≠ 0) = true) (htarget : d.target c w = some n) :
    d.doLoop c w = d.issueSeq c w true (if sWord (d.core c).sregs (imm w 0 5) = 1 then d.pc c + 1 else n) fun e =>
      e.setS c (imm w 0 5) (((sWord (d.core c).sregs (imm w 0 5)).toNat + (2 ^ 32 - 1)) % 2 ^ 32) := by
  simp only [Dev.doLoop, htarget, hok, getS_eq, loop_zero, ite_not]

theorem Dev.doLoop_outside (htarget : d.target c w = none) : d.doLoop c w = d.fault c .descInvalid 0 := by
  simp only [Dev.doLoop, htarget]

theorem Dev.doLoop_countS0 (hrc : imm w 0 5 = 0) : d.doLoop c w = d.fault c .descInvalid 0 := by
  cases htarget : d.target c w with
  | none => exact doLoop_outside htarget
  | some n =>
    have hbad : (reservedOk w 0 (31 ||| (2 ^ 16 - 1) * 2 ^ 16) && imm w 0 5 ≠ 0) = false := by simp [hrc]
    simp only [Dev.doLoop, htarget, hbad, issueSeq_bad]

/-! ### BR -/

/-- The second operand of BR as a word. -/
theorem branch_operand (d : Dev) : (if modBit w 3 then imm w 32 32 else d.getS c (imm w 5 5)) =
    (if modBit w 3 then BitVec.ofNat 32 (imm w 32 32) else sWord (d.core c).sregs (imm w 5 5)).toNat := by
  split
  · rw [BitVec.toNat_ofNat, Nat.mod_eq_of_lt (imm_lt 32 32)]
  · exact getS_eq d _

theorem Dev.doBr_ready
    (hok : (reservedOk w 15 ((2 ^ 10 - 1) ||| (2 ^ 48 - 1) * 2 ^ 16) && bits (iMod w) 0 3 ≠ 7) = true) (htarget : d.target c w = some n) :
    d.doBr c w = d.issueSeq c w true (if branchWord (bits (iMod w) 0 3) (sWord (d.core c).sregs (imm w 0 5))
      (if modBit w 3 then BitVec.ofNat 32 (imm w 32 32) else sWord (d.core c).sregs (imm w 5 5)) then n else d.pc c + 1) fun e => e := by
  simp only [Dev.doBr, htarget, hok, branch_operand, getS_eq d (imm w 0 5), branch_word]

theorem Dev.doBr_outside (htarget : d.target c w = none) : d.doBr c w = d.fault c .descInvalid 0 := by
  simp only [Dev.doBr, htarget]

theorem Dev.doBr_reservedCond (hcond : bits (iMod w) 0 3 = 7) : d.doBr c w = d.fault c .descInvalid 0 := by
  cases htarget : d.target c w with
  | none => exact doBr_outside htarget
  | some n =>
    have hbad : (reservedOk w 15 ((2 ^ 10 - 1) ||| (2 ^ 48 - 1) * 2 ^ 16) && bits (iMod w) 0 3 ≠ 7) = false := by simp [hcond]
    simp only [Dev.doBr, htarget, hbad, issueSeq_bad]

/-! ### The reserved operation of SALU, and S0 -/

theorem Dev.doSalu_reservedOp (hop : bits (iMod w) 0 4 = 15) : d.doSalu c w = d.fault c .descInvalid 0 := by
  have hbad : (reservedOk w 31 ((2 ^ 15 - 1) ||| (2 ^ 32 - 1) * 2 ^ 32) && bits (iMod w) 0 4 ≠ 15) = false := by simp [hop]
  simp only [Dev.doSalu, hbad, issueSeq_bad]

theorem sPut_zero (l : List Word) (v : Word) : sPut l 0 v = l := if_pos rfl

theorem sPut_ne_zero (l : List Word) {i : Nat} (hi : i ≠ 0) (v : Word) : sPut l i v = l.set i v := if_neg hi

/-! ### The statement -/

/-- Settles O2: LOOP and BR issue to the next pc that the result or the condition chooses, or fault at the checks; SETS and SALU are those
of O1. -/
theorem loopAndBranch : Obligations.LoopAndBranch := by
  unfold Obligations.LoopAndBranch
  refine ⟨fun s c n w ⟨hat, hok, hwait⟩ hn hlt => ?loop, fun s c n w ⟨hat, hok, hwait⟩ hn hlt => ?br,
    fun s c w hat hout => ⟨fun hop => ?loopOutside, fun hop => ?brOutside⟩,
    fun s c w hat hrc => faults_here (f := fun d w => d.doLoop c w) rfl hat (Dev.doLoop_countS0 hrc),
    fun s c w hat hcond => faults_here (f := fun d w => d.doBr c w) rfl hat (Dev.doBr_reservedCond hcond),
    fun s c w hat hop => faults_here (f := fun d w => d.doSalu c w) rfl hat (Dev.doSalu_reservedOp hop),
    fun s c w hready => ?sets, fun s c w hready => ?salu⟩
  case loop =>
    have hrc : imm w 0 5 ≠ 0 := by
      rw [Bool.and_eq_true] at hok
      exact of_decide_eq_true hok.2
    refine answers_here (f := fun d w => d.doLoop c w) rfl hat ?_
    simp only [Dev.doLoop_ready hok (target_some hn hlt)]
    refine ⟨issued_of rfl (Dev.issueSeq_done (quiet_setS c _ _) hwait), seq_tok hwait fun d => setS_tok d _ _, ?_⟩
    rw [Dev.issueSeq_sregs hwait, setS_sregs, sregs_start, sPut_ne_zero _ hrc, loop_value]
  case br =>
    refine answers_here (f := fun d w => d.doBr c w) rfl hat ?_
    simp only [Dev.doBr_ready hok (target_some hn hlt)]
    exact ⟨issued_of rfl (Dev.issueSeq_done (quiet_id c) hwait), seq_tok hwait fun _ => rfl, seq_sregs_all hwait (fun _ _ => rfl) c⟩
  case loopOutside =>
    have hloop : s.here.atInstr c 0x50 w := hat.resolve_right fun ⟨_, _, _, _, hbr⟩ => by omega
    exact faults_here (f := fun d w => d.doLoop c w) rfl hloop (Dev.doLoop_outside (target_none hout))
  case brOutside =>
    have hbr : s.here.atInstr c 0x51 w := hat.resolve_left fun ⟨_, _, _, _, hloop⟩ => by omega
    exact faults_here (f := fun d w => d.doBr c w) rfl hbr (Dev.doBr_outside (target_none hout))
  case sets =>
    obtain ⟨t, hexec, hissued, -, hsregs⟩ := scalarInstructions.1 s c w hready
    exact ⟨t, hexec, hissued, fun hrd => by rw [hsregs, hrd, sPut_zero]⟩
  case salu =>
    obtain ⟨t, hexec, hissued, -, hsregs⟩ := scalarInstructions.2 s c w hready
    exact ⟨t, hexec, hissued, fun hrd => by rw [hsregs, hrd, sPut_zero]⟩

end Sys2Proof.Machine
end

section
/-!
SUPPORT. The home answers FREE, REFDEC and REFINC (R158, R160, R428).
-/

namespace Sys2Proof.Machine

variable {d : Dev} {c h n : Nat} {x : InFlight} {b : Buf}

/-! ### The check of a reference operation -/

theorem refFault_inc (hb : d.buf h = some b) (hst : b.st = .allocated) (hcount : b.count < 65535) : d.refFault true h n = none := by
  simp [Dev.refFault, hb, hst, hcount]

theorem refFault_dec (hb : d.buf h = some b) (hst : b.st = .allocated) (hcount : n < b.count) : d.refFault false h n = none := by
  simp [Dev.refFault, hb, hst, hcount]

theorem refInc_allocated (hb : d.buf h = some b) (hst : b.st = .allocated) (hcount : b.count < 65535) :
    d.refInc h = d.setBuf h ⟨.allocated, b.count + 1⟩ := by
  simp [Dev.refInc, hb, hst, hcount]

/-! ### The answer -/

/-- The home has answered x: the operation is journalled as j, and x leaves the flight list and retires. -/
def Dev.answerPool (d : Dev) (c : Nat) (x : InFlight) (j : JOp × Nat) : Dev :=
  (((d.modCore c fun k => { k with journal := k.journal ++ [j] }).dropFlight c x.id).signal c x.word).countRetired c

theorem homeOp_inc (hop : iOp x.word = 0x42) (hb : d.buf (sreg x.sregs (imm x.word 0 5)) = some b) (hst : b.st = .allocated)
    (hcount : b.count < 65535) : d.homeOp c (d.core c) x =
      (d.setBuf (sreg x.sregs (imm x.word 0 5)) ⟨.allocated, b.count + 1⟩).answerPool c x (.inc, sreg x.sregs (imm x.word 0 5)) := by
  simp only [Dev.homeOp, hop, decide_true, refFault_inc hb hst hcount, if_true, refInc_allocated hb hst hcount, Dev.answerPool]

theorem homeOp_dec (hop : iOp x.word ≠ 0x42) (hb : d.buf (sreg x.sregs (imm x.word 0 5)) = some b) (hst : b.st = .allocated)
    (hcount : d.unsettled c (sreg x.sregs (imm x.word 0 5)) < b.count) :
    d.homeOp c (d.core c) x = d.answerPool c x (.dec, sreg x.sregs (imm x.word 0 5)) := by
  rw [Dev.unsettled] at hcount
  simp only [Dev.homeOp, hop, decide_false, refFault_dec hb hst hcount, if_false, Dev.answerPool]

theorem homeOp_faults {code : Code}
    (hfault : d.refFault (iOp x.word = 0x42) (sreg x.sregs (imm x.word 0 5)) (d.unsettled c (sreg x.sregs (imm x.word 0 5))) = some code) :
    d.homeOp c (d.core c) x = d.fault c code (if code = .addrRange then 0 else d.bufAddr (sreg x.sregs (imm x.word 0 5))) := by
  rw [Dev.unsettled] at hfault
  simp only [Dev.homeOp, hfault]

/-- From d to e, pool operation x of core c has been answered and stands in the journal as j; nothing else changes. -/
structure Dev.PoolAnswered (d e : Dev) (c : Nat) (x : InFlight) (j : JOp × Nat) : Prop where
  rest : e = { d with regs := e.regs, cores := e.cores }
  others : ∀ i, i ≠ c → e.core i = d.core i
  own : e.core c = { d.core c with journal := (d.core c).journal ++ [j], inflight := (d.core c).inflight.filter (fun y => y.id ≠ x.id), tokens := (e.core c).tokens }
  tok : e.tok = tokSignal d.tok c x.word
  count : e.reg (R.MC_SEQ_RETIRED c) = (d.reg (R.MC_SEQ_RETIRED c) + 1) % 2 ^ 32

theorem Dev.answerPool_spec (d : Dev) (x : InFlight) (j : JOp × Nat) (hc : c < 8) : Dev.PoolAnswered d (d.answerPool c x j) c x j := by
  obtain ⟨hrest, -, hothers, hown, -, hcount, htok⟩ := signal_count (w := x.word)
    ((d.modCore c fun k => { k with journal := k.journal ++ [j] }).dropFlight c x.id) hc
  refine ⟨hrest.trans rfl, fun i hi => ?others, ?own, htok.trans ?tok, hcount.trans (by simp [Dev.dropFlight])⟩
  case others => rw [Dev.answerPool, hothers i hi, Dev.dropFlight, Dev.core_modCore_ne _ _ hi, Dev.core_modCore_ne _ _ hi]
  case own =>
    refine hown.trans ?_
    rw [Dev.dropFlight, Dev.core_modCore_same, Dev.core_modCore_same]
    rfl
  case tok =>
    rw [Dev.dropFlight, tok_modCore, tok_modCore]
    · exact fun _ => rfl
    · exact fun _ => rfl

/-! ### The commands on a pool operation in flight -/

section
variable {s : State} {id : Nat} (hflight : s.here.infl? c id = some x) (hpool : isPoolOp x.word = true)
  (hfirst : (s.here.core c).homeFirst x = true)
include hflight hpool hfirst

/-- INSTRUCTION_COMPLETE of the oldest pool operation of a core to its home. -/
theorem exec_instructionComplete_pool (hclock : s.here.clocked (stackOf c) = true) :
    exec (.instructionComplete c id) s = .next { s with d := s.here.homeOp c (s.here.core c) x } := by
  have hstool : iOp x.word ≠ 0x60 := fun h => by simp [isPoolOp, h] at hpool
  rw [exec_instructionComplete_flight hflight hclock hstool]
  simp only [Dev.completeFlight, hpool, hfirst, if_true]

/-- INSTRUCTION_FAULT of one that fails its check. -/
theorem exec_instructionFault_pool {code : Code} (hfault : s.here.refFault (iOp x.word = 0x42) (sreg x.sregs (imm x.word 0 5))
      (s.here.unsettled c (sreg x.sregs (imm x.word 0 5))) = some code) :
    exec (.instructionFault c id) s = .next { s with d := s.here.homeOp c (s.here.core c) x } := by
  have hstool : iOp x.word ≠ 0x60 := fun h => by simp [isPoolOp, h] at hpool
  rw [exec_instructionFault hflight fun h => absurd h hstool]
  rw [Dev.unsettled] at hfault
  simp [Dev.faultFlight, hpool, hfirst, hfault]

end

/-- What an answer leaves of the state where the operation itself changes nothing but the pools. -/
theorem answers_pool {i : Instr} {s : State} {e g : Dev} {j : JOp × Nat} (hexec : exec i s = .next { s with d := g })
    (hg : Dev.PoolAnswered e g c x j) (he : e = { s.here with bpm := e.bpm }) :
    Answers i s fun t => t.d.bpm = e.bpm ∧
      t.d.core c = { s.here.core c with journal := (s.here.core c).journal ++ [j], inflight := (s.here.core c).inflight.filter (fun y => y.id ≠ x.id), tokens := (t.d.core c).tokens } ∧
      t.d.tok = tokSignal s.here.tok c x.word ∧ t.d.reg (R.MC_SEQ_RETIRED c) = (s.here.reg (R.MC_SEQ_RETIRED c) + 1) % 2 ^ 32 ∧
      t = { s with d := { s.here with regs := t.d.regs, cores := t.d.cores, bpm := t.d.bpm } } ∧ ∀ i, i ≠ c → t.d.core i = s.here.core i := by
  obtain ⟨hrest, hothers, hown, htok, hcount⟩ := hg
  have hcores : e.cores = s.here.cores := by rw [he]
  have hregs : e.regs = s.here.regs := by rw [he]
  have htoks : e.tok = s.here.tok := funext fun k => funext fun y => Dev.tok_congr hcores k y
  rw [Dev.core_congr hcores] at hown
  rw [htoks] at htok
  rw [Dev.reg_congr hregs] at hcount
  have hall : g = { s.here with regs := g.regs, cores := g.cores, bpm := g.bpm } := by rw [hrest, he]
  exact ⟨_, hexec, by rw [hrest], hown, htok, hcount, congrArg (fun d => { s with d := d }) hall,
    fun k hk => (hothers k hk).trans (Dev.core_congr hcores k)⟩

/-! ### The statement -/

/-- Settles O13: the check decides whether the home answers and journals the operation or the kernel faults. -/
theorem poolOperationsAnswer : Obligations.PoolOperationsAnswer := by
  unfold Obligations.PoolOperationsAnswer
  refine fun s c id x hc hflight hclock hfirst => ⟨fun hop b hb hst hcount => ?inc, fun hop b hb hst hcount => ?dec,
    fun code r hpool hfault hrun hreplay => ?fault⟩
  case inc =>
    have hpool : isPoolOp x.word = true := by simp [isPoolOp, hop]
    have hexec := exec_instructionComplete_pool hflight hpool hfirst hclock
    rw [homeOp_inc hop hb hst hcount] at hexec
    exact answers_pool hexec (Dev.answerPool_spec _ x _ hc) rfl
  case dec =>
    have hpool : isPoolOp x.word = true := by rcases hop with hop | hop <;> simp [isPoolOp, hop]
    have hexec := exec_instructionComplete_pool hflight hpool hfirst hclock
    rw [homeOp_dec (by omega) hb hst hcount] at hexec
    exact answers_pool hexec (Dev.answerPool_spec _ x _ hc) rfl
  case fault =>
    refine ⟨_, exec_instructionFault_pool hflight hpool hfirst hfault, rfl, ?_⟩
    rw [homeOp_faults hfault]
    exact Dev.fault_spec _ hc _ _ hrun hreplay

end Sys2Proof.Machine
end

section
/-!
SUPPORT. States that the model runs and of which hypotheses hold: a core at a LOOP, a BR or a SALU (O2), and a pool operation in flight (O13).
-/

namespace Sys2Proof.Machine

/-! ### A core at a LOOP, a BR or a SALU -/

/-- LOOP on S3 with the offset given. -/
def loopWord (off : Nat) : IWord := BitVec.ofNat 128 (0x50 * 2 ^ 120 + off * 2 ^ 16 + 3)

/-- S3 is 0, so it wraps, and the LOOP branches to itself. -/
theorem loopWord_branches : Answers (.loop 0) (standsAt (loopWord 0)) fun t =>
    t.d.pc 0 = 0 ∧ sWord (t.d.core 0).sregs 3 = 0xFFFFFFFF := by
  have hpc : (0 : Int) = (standsAt (loopWord 0)).here.pc 0 + (BitVec.ofNat 16 (imm (loopWord 0) 16 16)).toInt := by
    rw [standsAt_pc]
    decide
  obtain ⟨t, hexec, ⟨-, -, hnext, -⟩, -, hsregs⟩ :=
    loopAndBranch.1 (standsAt (loopWord 0)) 0 0 (loopWord 0) ⟨standsAt_atInstr _, rfl, rfl⟩ hpc (by decide)
  refine ⟨t, hexec, hnext.trans (by decide), ?_⟩
  rw [hsregs]
  rfl

/-- The kernel has one instruction: a target past it faults. -/
theorem loopWord_outside : FaultsInvalid (.loop 0) (standsAt (loopWord 1)) 0 := by
  refine (loopAndBranch.2.2.1 (standsAt (loopWord 1)) 0 (loopWord 1) (.inl (standsAt_atInstr _)) ?_).1 rfl
  rintro ⟨n, hlt, hn⟩
  have hone : n < 1 := hlt
  have hoff : (BitVec.ofNat 16 (imm (loopWord 1) 16 16)).toInt = 1 := by decide
  rw [standsAt_pc, hoff] at hn
  omega

/-- BR to itself under the condition given, between S3 and the immediate 0xFFFFFFFF. -/
def brWord (cond : Nat) : IWord := BitVec.ofNat 128 (0x51 * 2 ^ 120 + (8 + cond) * 2 ^ 112 + 0xFFFFFFFF * 2 ^ 32 + 3)

theorem brWord_issues {cond : Nat} (hcond : cond < 7) : Answers (.br 0) (standsAt (brWord cond)) fun t =>
    t.d.pc 0 = if branchWord cond 0 0xFFFFFFFF then 0 else 1 := by
  have hpc : (0 : Int) = (standsAt (brWord cond)).here.pc 0 + (BitVec.ofNat 16 (imm (brWord cond) 16 16)).toInt := by
    rw [standsAt_pc]
    interval_cases cond <;> decide
  have hat : (standsAt (brWord cond)).here.seqReady 0 0x51 (brWord cond)
      (reservedOk (brWord cond) 15 ((2 ^ 10 - 1) ||| (2 ^ 48 - 1) * 2 ^ 16) && bits (iMod (brWord cond)) 0 3 ≠ 7) := by
    have hop : iOp (brWord cond) = 0x51 := by interval_cases cond <;> rfl
    rw [← hop]
    exact ⟨standsAt_atInstr _, by interval_cases cond <;> rfl, by interval_cases cond <;> rfl⟩
  obtain ⟨t, hexec, ⟨-, -, hnext, -⟩, -⟩ := loopAndBranch.2.1 (standsAt (brWord cond)) 0 0 (brWord cond) hat hpc (by show 0 < 1; decide)
  refine ⟨t, hexec, hnext.trans ?_⟩
  rw [standsAt_pc]
  interval_cases cond <;> rfl

/-- SALU with its reserved operation. -/
def saluReservedWord : IWord := BitVec.ofNat 128 (0x53 * 2 ^ 120 + 15 * 2 ^ 112)

theorem saluReservedWord_faults : FaultsInvalid (.salu 0) (standsAt saluReservedWord) 0 :=
  loopAndBranch.2.2.2.2.2.1 (standsAt saluReservedWord) 0 saluReservedWord (standsAt_atInstr _) rfl

/-! ### A pool operation in flight -/

/-- A pool operation on the handle in S3, which signals token 5. -/
def poolWord (op : Nat) : IWord := BitVec.ofNat 128 (op * 2 ^ 120 + 5 * 2 ^ 66 + 2 ^ 65 + 3)

def poolFlight (op : Nat) : InFlight := { id := 7, word := poolWord op, pc := 0, sregs := [0, 0, 0, 5] }

/-- Pool 0 is ENABLED with six buffers; the last, with the count given, is ALLOCATED; core 0 has one decrement of it to settle and another
pool operation on it in flight. -/
def homeState (op count : Nat) : State :=
  { d := { regs := mput (mput resetRegs (R.BPM_POOL_COUNT 0) 6) (R.BPM_POOL_STAT 0) 1, bpm := { bufs := [(5, ⟨.allocated, count⟩)] },
           cores := [(0, { run := some soloRun, journal := [(.dec, 5)], inflight := [poolFlight op] })] } }

theorem homeState_flight (op count : Nat) : (homeState op count).here.infl? 0 7 = some (poolFlight op) := rfl

theorem homeState_regs (op count : Nat) :
    (homeState op count).here.regs = mput (mput resetRegs (R.BPM_POOL_COUNT 0) 6) (R.BPM_POOL_STAT 0) 1 := rfl

theorem homeState_buf (op count : Nat) : (homeState op count).here.buf 5 = some ⟨.allocated, count⟩ := by
  have hstate : (homeState op count).here.poolState 0 = 1 := by
    rw [Dev.poolState, Dev.fld, Dev.reg, homeState_regs]
    decide
  have hcount : (homeState op count).here.poolCount 0 = 6 := by
    rw [Dev.poolCount, Dev.fld, Dev.reg, homeState_regs]
    decide
  have hpool : hPool 5 = 0 := by decide
  have hidx : hIdx 5 = 5 := by decide
  rw [Dev.buf, hpool, hidx, hstate, hcount]
  rfl

/-- REFINC takes the count to its greatest value. -/
theorem homeState_refinc : Answers (.instructionComplete 0 7) (homeState 0x42 65534) fun t =>
    t.d.bpm.bufs = [(5, ⟨.allocated, 65535⟩)] ∧ (t.d.core 0).journal = [(.dec, 5), (.inc, 5)] ∧ (t.d.core 0).inflight = [] ∧ t.d.tok 0 5 = 1 := by
  obtain ⟨t, hexec, hbpm, hcore, htok, -⟩ := (poolOperationsAnswer (homeState 0x42 65534) 0 7 (poolFlight 0x42) (by decide)
    (homeState_flight ..) rfl rfl).1 rfl _ (homeState_buf ..) rfl (by decide)
  refine ⟨t, hexec, by rw [hbpm]; rfl, by rw [hcore]; rfl, by rw [hcore]; rfl, ?_⟩
  rw [htok]
  rfl

/-- FREE of a buffer of count 2 leaves the count until the kernel settles it. -/
theorem homeState_free : Answers (.instructionComplete 0 7) (homeState 0x41 2) fun t =>
    t.d.bpm.bufs = [(5, ⟨.allocated, 2⟩)] ∧ (t.d.core 0).journal = [(.dec, 5), (.dec, 5)] := by
  obtain ⟨t, hexec, hbpm, hcore, -⟩ := (poolOperationsAnswer (homeState 0x41 2) 0 7 (poolFlight 0x41) (by decide)
    (homeState_flight ..) rfl rfl).2.1 (.inl rfl) _ (homeState_buf ..) rfl (by decide)
  exact ⟨t, hexec, by rw [hbpm]; rfl, by rw [hcore]; rfl⟩

/-- With one decrement unsettled a count of 1 is used up: the kernel is aborted. -/
theorem homeState_underflow : Answers (.instructionFault 0 7) (homeState 0x43 1) fun t =>
    (t.d.core 0).run = none ∧ t.d.fld (R.MC_SEQ_STATUS 0) F.MC_SEQ_STATUS_fault = Code.refUnderflow.num % 2 ^ 8 := by
  have hfault : (homeState 0x43 1).here.refFault false 5 1 = some .refUnderflow := by
    rw [Dev.refFault, homeState_buf]
    rfl
  obtain ⟨t, hexec, -, haborted⟩ := (poolOperationsAnswer (homeState 0x43 1) 0 7 (poolFlight 0x43) (by decide)
    (homeState_flight ..) rfl rfl).2.2 .refUnderflow soloRun rfl hfault rfl rfl
  exact ⟨t, hexec, (haborted.freed 0 (by decide)).run, haborted.fault⟩

end Sys2Proof.Machine
end

section
/-!
SUPPORT. A command of a submission queue whose entry is in order (R356, R369 to R371, R375): what its fetch, its answer and its wait leave.
-/

namespace Sys2Proof.Machine

section
variable {s : State} {d g : Dev} {op q : Nat} {e : List Byte} {x : Sq} {c : Cq}

/-- The submission queue with its head entry taken. -/
def Sq.taken (x : Sq) : Sq := { x with head := (x.head + 1) % x.size }

/-- A fetch moves the head of the queue, counts its DMA and notes the time of the activity. -/
theorem Dev.accepts.fetched (h : d.accepts op q e x c) : d.fetched q =
    { d with que := { d.que with sqs := mput d.que.sqs q x.taken },
             pwr := { d.pwr with lastActive := d.now }, host := { d.host with dma := mmod d.host.dma q 0 (· + 1) } } := by
  simp only [Dev.fetched, h.sq, Sq.taken]

/-- A command in order runs on the device that has fetched it. -/
theorem Dev.accepts.onCmd (h : s.here.accepts op q e x c) (f : Dev → Dev) : onCmd s op q e f = .next { s with d := f (s.here.fetched q) } := by
  simp only [Machine.onCmd, onDev_here, h.fetch, h.op, h.ok, ne_eq, not_true_eq_false, and_false, Bool.not_true, Bool.false_eq_true, if_false, if_true]

/-- The completion queue of a command in order has room, and the link is up. -/
theorem Dev.accepts.room (h : d.accepts op q e x c) : c.room = true ∧ d.linkUp = true := by
  have hfetch := h.fetch
  simp only [Dev.canFetch, h.sq, Bool.and_eq_true] at hfetch
  obtain ⟨⟨⟨⟨⟨⟨⟨⟨⟨-, hlink⟩, -⟩, -⟩, -⟩, -⟩, hroom⟩, -⟩, -⟩, -⟩ := hfetch
  simp only [Dev.cqRoom, h.sq, h.cq, Option.bind_some] at hroom
  exact ⟨hroom, hlink⟩

theorem linkUp_congr (hregs : g.regs = d.regs) (hcfg : g.host.cfg = d.host.cfg) : g.linkUp = d.linkUp := by
  rw [Dev.linkUp, Dev.linkUp, Dev.flag, Dev.flag, Dev.fld_congr hregs, hcfg]

/-- With the link up a write is sent behind those sent before. -/
theorem send_linkUp (h : d.linkUp = true) (w : DevWrite) : d.send w = { d with host := { d.host with sent := d.host.sent ++ [w] } } := by
  simp only [Dev.send, h, if_true]

/-- A vector is sent at most one message, behind what was sent before. -/
theorem raiseVec_spec (d : Dev) (v : Nat) : d.raiseVec v = { d with host := (d.raiseVec v).host } ∧
    ∃ post, (d.raiseVec v).host.sent = d.host.sent ++ post := by
  unfold Dev.raiseVec Dev.send
  split_ifs
  · exact ⟨rfl, [], (List.append_nil _).symm⟩
  · exact ⟨rfl, [], (List.append_nil _).symm⟩
  · exact ⟨rfl, _, rfl⟩
  · exact ⟨rfl, [], (List.append_nil _).symm⟩

/-- The completion queue with one entry more. -/
def Cq.pushed (c : Cq) : Cq :=
  { c with tail := if c.tail + 1 = c.size then 0 else c.tail + 1, phase := if c.tail + 1 = c.size then !c.phase else c.phase }

theorem writeCpl_spec (h : d.linkUp = true) (q cid status : Nat) (result : List Byte) (x : Sq) (c : Cq) :
    d.writeCpl q cid status result x c =
      { d with que := { d.que with cqs := mput d.que.cqs x.cq c.pushed }, host := (d.writeCpl q cid status result x c).host } ∧
    ∃ post, (d.writeCpl q cid status result x c).host.sent = d.host.sent ++
      [.mem (c.base + 16 * c.tail) (cplEntry q cid status x.head c.phase result)] ++ post := by
  simp only [Dev.writeCpl, send_linkUp h]
  obtain ⟨hrest, hsent⟩ := raiseVec_spec ({ d with que := { d.que with cqs := mput d.que.cqs x.cq c.pushed }, host := { d.host with
    sent := d.host.sent ++ [.mem (c.base + 16 * c.tail) (cplEntry q cid status x.head c.phase result)], dma := mmod d.host.dma q 0 (· + 1) } }) c.vector
  exact ⟨hrest, hsent⟩

/-- No DELETE_SQ waits for the queue and the admin queue is not STOPPING: a completion is the entry alone. -/
theorem complete_eq_postCpl (cid status : Nat) (result : List Byte) (hcmds : ∀ k ∈ (g.postCpl q cid status result).que.cmds, k.op ≠ 2)
    (hsvc : (g.postCpl q cid status result).fld R.QUE_ADMIN_CFG F.QUE_ADMIN_CFG_svc ≠ 2) :
    g.complete q cid status result = g.postCpl q cid status result := by
  have hfind : ((g.postCpl q cid status result).que.cmds.find? fun k => k.op = 2 && k.stream = q) = none :=
    List.find?_eq_none.2 fun k hk => by simp [hcmds k hk]
  simp only [Dev.complete, Dev.deleteSettle, hfind, Dev.adminSettle, hsvc, false_and, if_false]

/-- A device with the queues, the host interface and the registers of the one that has fetched the entry answers it: nothing else changes. -/
theorem Dev.accepts.reply (h : d.accepts op q e x c) (hque : g.que = (d.fetched q).que) (hhost : g.host = (d.fetched q).host)
    (hregs : g.regs = d.regs) (status : Nat) (result : List Byte) :
    g.reply q e status result = { g with que := (g.reply q e status result).que, host := (g.reply q e status result).host } ∧
    d.answered (g.reply q e status result) q e x c status result := by
  obtain ⟨hroom, hlink⟩ := h.room
  rw [h.fetched] at hque hhost
  have hcq : mget g.que.cqs x.cq = some c := by rw [hque]; exact h.cq
  have hsq : mget g.que.sqs q = some x.taken := by rw [hque]; exact mget_mput_same ..
  have hlink' : g.linkUp = true := (linkUp_congr hregs (by rw [hhost])).trans hlink
  obtain ⟨hrest, post, hsent⟩ := writeCpl_spec hlink' q (eCid e) status result x.taken c
  have hpost : g.postCpl q (eCid e) status result = g.writeCpl q (eCid e) status result x.taken c := by
    simp only [Dev.postCpl, hsq, (show mget g.que.cqs x.taken.cq = some c from hcq), hroom, if_true]
  have hreply : g.reply q e status result = g.writeCpl q (eCid e) status result x.taken c := by
    refine (complete_eq_postCpl _ _ _ ?_ ?_).trans hpost <;> rw [hpost, hrest]
    · exact hque ▸ h.noDelete
    · exact (Dev.fld_congr hregs _ _).trans_ne h.admin
  rw [hreply]
  generalize g.writeCpl q (eCid e) status result x.taken c = t at hrest hsent ⊢
  have hq : t.que = { g.que with cqs := mput g.que.cqs x.cq c.pushed } := by rw [hrest]; rfl
  refine ⟨by rw [hq]; exact hrest, ⟨[], post, ?_⟩, ?_, ?_⟩
  · rw [hsent, hhost, List.append_nil]; rfl
  · rw [hq]; exact hsq
  · rw [hq]; exact mget_mput_same ..

/-- A refused command leaves its completion entry and nothing else. -/
theorem Dev.accepts.refused {i : Instr} (h : s.here.accepts op q e x c) (status : Nat)
    (hexec : exec i s = .next { s with d := (s.here.fetched q).reply q e status }) :
    Answers i s fun t => s.onlyQueues t ∧ s.here.answered t.d q e x c status [] := by
  obtain ⟨hrest, hans⟩ := h.reply (g := s.here.fetched q) rfl rfl (by rw [h.fetched]) status []
  refine ⟨_, hexec, ?_, hans⟩
  generalize (s.here.fetched q).reply q e status = t at hrest ⊢
  show _ = { s with d := _ }
  rw [hrest, h.fetched]
  rfl

end

end Sys2Proof.Machine
end

section
/-!
SUPPORT. REVISIT and READOUT (R206, R310, R381): the frame that comes back and the request that waits.
-/

namespace Sys2Proof.Machine

/-! ### The device that has fetched an entry -/

section
variable {s : State} {d : Dev} {op q : Nat} {e : List Byte} {x : Sq} {c : Cq}

/-- A fetch changes no store, pool or register. -/
theorem Dev.accepts.agree (h : d.accepts op q e x c) : Dev.Agree d (d.fetched q) := by
  rw [h.fetched]
  exact ⟨rfl, rfl, rfl, fun _ _ => rfl⟩

/-- A fetch leaves contexts, streams, frames and sequence sets as they were. -/
theorem Dev.accepts.tables (h : d.accepts op q e x c) : (d.fetched q).ctxs = d.ctxs ∧ (d.fetched q).streams = d.streams ∧
    (d.fetched q).sched = d.sched ∧ (d.fetched q).sets = d.sets := by
  rw [h.fetched]
  exact ⟨rfl, rfl, rfl, rfl⟩

end

/-! ### REVISIT -/

/-- A reference more is the side table's alone. -/
theorem refInc_rest (d : Dev) (h : Nat) : d.refInc h = { d with bpm := (d.refInc h).bpm } := by
  unfold Dev.refInc
  split
  · split <;> rfl
  · rfl

section
variable {s : State} {q : Nat} {e : List Byte} {x : Sq} {c : Cq} {st : Stream} {y : Ctx} {ep : Epoch} {r : RevisitItem}

/-- The frame that REVISIT e puts behind the frames for the cached frame r. -/
def Dev.comeBack (d : Dev) (e : List Byte) (st : Stream) (ep : Epoch) (r : RevisitItem) : Frame :=
  { stream := eStream e, num := le e 20 4, ep := { ep with num := r.epoch, slots := [] }, stamp := r.stamp, st := .arrived,
    revisit := true, ctx := byteAt e 18, buf := some r.handle, crops := r.crops,
    listOff := (d.bufAddr r.handle - sstBase) / 256, unauth := st.unauth }

/-- The device with the frame arrived again and a reference more on its buffer. -/
def Dev.withRevisit (d : Dev) (e : List Byte) (st : Stream) (ep : Epoch) (r : RevisitItem) : Dev :=
  { d.refInc r.handle with sched := { d.sched with frames := d.sched.frames ++ [d.comeBack e st ep r] } }

variable (h : s.here.accepts 0x27 q e x c) (hst : mget s.here.streams (eStream e) = some st) (hlive : st.destroying = false)
  (hctx : s.here.ctx? (byteAt e 18) = some y)
include h hst hlive hctx

theorem exec_revisit_notFound (hnone : ∀ r ∈ st.revisits, r.frame ≠ le e 20 4) :
    exec (.revisit q e) s = .next { s with d := (s.here.fetched q).reply q e 0x80 } := by
  have arm : exec (.revisit q e) s = execRevisit q e s := rfl
  obtain ⟨hctxs, hstreams, -, -⟩ := h.tables
  have hfind : (st.revisits.find? fun r => r.frame = le e 20 4) = none := List.find?_eq_none.2 fun r hr => by simp [hnone r hr]
  rw [Dev.ctx?, ← hctxs] at hctx
  rw [← hstreams] at hst
  simp only [arm, execRevisit, h.onCmd, Dev.stream?, Dev.ctx?, hst, hctx, hlive, hfind, Bool.false_eq_true, if_false]
  rfl

theorem exec_revisit_found (hcur : st.cur = some ep) (hr : (st.revisits.find? fun r => decide (r.frame = le e 20 4)) = some r)
    (hfree : s.here.frame? (eStream e) (le e 20 4) true = none) :
    exec (.revisit q e) s = .next { s with d := ((s.here.fetched q).withRevisit e st ep r).reply q e 0 } := by
  have arm : exec (.revisit q e) s = execRevisit q e s := rfl
  obtain ⟨hctxs, hstreams, hsched, -⟩ := h.tables
  rw [Dev.ctx?, ← hctxs] at hctx
  rw [← hstreams] at hst
  rw [frame?_congr (congrArg (·.frames) hsched).symm] at hfree
  simp only [arm, execRevisit, h.onCmd, Dev.stream?, Dev.ctx?, hst, hctx, hlive, hr, hcur, hfree, Option.isSome_none, Bool.false_eq_true, if_false]
  rw [Dev.withRevisit, refInc_rest]
  rfl

end

section
variable {s : State} {q : Nat} {e : List Byte} {x : Sq} {c : Cq} {st : Stream} {y : Ctx} {ep : Epoch} {r : RevisitItem}
  (h : s.here.accepts 0x27 q e x c)
include h

/-- Next to the fetch itself only the pools and the frames change. -/
theorem withRevisit_rest : (s.here.fetched q).withRevisit e st ep r = { s.here.fetched q with
    bpm := ((s.here.fetched q).withRevisit e st ep r).bpm,
    sched := { s.here.sched with frames := s.here.sched.frames ++ [s.here.comeBack e st ep r] } } := by
  rw [Dev.withRevisit, refInc_rest, Dev.comeBack, h.agree.bufAddr, h.tables.2.2.1]
  rfl

/-- The buffer of a frame that comes back has a reference more. -/
theorem withRevisit_buf {n : Nat} (hb : s.here.buf r.handle = some ⟨.allocated, n⟩) (hn : n < 65535) :
    mget ((s.here.fetched q).withRevisit e st ep r).bpm.bufs r.handle = some ⟨.allocated, n + 1⟩ := by
  rw [← h.agree.buf] at hb
  rw [Dev.withRevisit, refInc_allocated hb rfl hn]
  exact mget_mput_same ..

/-- REVISIT of a cached frame that is not queued: the frame stands behind the frames, with a reference on its buffer, and the command is
answered. -/
theorem revisit_comesBack (hst : mget s.here.streams (eStream e) = some st) (hlive : st.destroying = false)
    (hctx : s.here.ctx? (byteAt e 18) = some y) (hcur : st.cur = some ep)
    (hr : (st.revisits.find? fun r => decide (r.frame = le e 20 4)) = some r) (hfree : s.here.frame? (eStream e) (le e 20 4) true = none) :
    Answers (.revisit q e) s fun t => t = { s with d := t.d } ∧ s.here.answered t.d q e x c 0 [] ∧
      t.d.sched.frames = s.here.sched.frames ++ [s.here.comeBack e st ep r] ∧
      (∀ n, s.here.buf r.handle = some ⟨.allocated, n⟩ → n < 65535 → mget t.d.bpm.bufs r.handle = some ⟨.allocated, n + 1⟩) ∧
      t.d.streams = s.here.streams ∧ t.d.cores = s.here.cores := by
  have hexec := exec_revisit_found h hst hlive hctx hcur hr hfree
  have hbuf := fun n => withRevisit_buf (st := st) (ep := ep) (r := r) h (n := n)
  have hwith := withRevisit_rest (st := st) (ep := ep) (r := r) h
  generalize (s.here.fetched q).withRevisit e st ep r = g at hexec hbuf hwith
  obtain ⟨hrest, hans⟩ := h.reply (g := g) (by rw [hwith]) (by rw [hwith]) (by rw [hwith, h.fetched]) 0 []
  refine ⟨_, hexec, rfl, hans, ?frames, ?bufs, ?streams, ?cores⟩ <;> dsimp only <;> rw [hrest]
  case bufs => exact hbuf
  all_goals rw [hwith, h.fetched]

end

/-! ### READOUT -/

/-- The slots of the sets of a stream's contexts whose ring entries serve a READOUT (R206). -/
def Dev.readoutSlots (d : Dev) (e : List Byte) (st : Stream) : List (Nat × Nat) :=
  (d.sets.filter fun y => (st.schedCtx.toList ++ (st.cur.map (·.bind.ctx)).toList).contains y.ctx).flatMap fun y =>
    ((List.range (d.setH y.base).q).filter fun t => d.readoutFits (d.setH y.base) (eStream e) (le e 20 4) t).map fun t => (y.base, t)

/-- The request of READOUT e in queue q. -/
def readoutOf (q : Nat) (e : List Byte) (slots : List (Nat × Nat)) : Readout :=
  { stream := eStream e, frame := le e 20 4, q := q, cid := eCid e, slots := slots, scratch := [], emitted := 0 }

/-- Headers and ring entries are bytes of the stores. -/
theorem setH_congr {d g : Dev} (h : g.rd = d.rd) : g.setH = d.setH := by
  funext b
  simp only [Dev.setH, Dev.rdN, h]

theorem readoutFits_congr {d g : Dev} (h : g.rd = d.rd) : g.readoutFits = d.readoutFits := by
  have hle : g.rdLE = d.rdLE := by
    funext a n
    simp only [Dev.rdLE, Dev.rdN, h]
  unfold Dev.readoutFits Dev.live Dev.slotStatus
  rw [hle]

theorem readoutSlots_congr {d g : Dev} (h : Dev.Agree d g) (hsets : g.sets = d.sets) (e : List Byte) (st : Stream) :
    g.readoutSlots e st = d.readoutSlots e st := by
  have hrd : g.rd = d.rd := funext h.rd
  simp only [Dev.readoutSlots, setH_congr hrd, readoutFits_congr hrd, hsets]

section
variable {s : State} {q : Nat} {e : List Byte} {x : Sq} {c : Cq} {st : Stream} (h : s.here.accepts 0x28 q e x c)
  (hst : mget s.here.streams (eStream e) = some st)
include h hst

theorem exec_readout : exec (.readout q e) s = .next { s with d := (
    if s.here.readoutSlots e st = [] then (s.here.fetched q).reply q e 0x80
    else { s.here.fetched q with readouts := (s.here.fetched q).readouts ++ [readoutOf q e (s.here.readoutSlots e st)] }.keepCmd q e (eStream e)) } := by
  have arm : exec (.readout q e) s = execReadout q e s := rfl
  obtain ⟨-, hstreams, -, hsets⟩ := h.tables
  rw [← hstreams] at hst
  rw [← readoutSlots_congr h.agree hsets]
  simp only [arm, execReadout, h.onCmd, Dev.stream?, hst]
  rfl

/-- READOUT of a frame that slots cover waits behind the readouts. -/
theorem readout_waits (hslots : s.here.readoutSlots e st ≠ []) :
    Answers (.readout q e) s fun t => t = { s with d := t.d } ∧ s.here.waits t.d q e x (eStream e) 0 ∧
      t.d.readouts = s.here.readouts ++ [readoutOf q e (s.here.readoutSlots e st)] ∧
      t.d.sets = s.here.sets ∧ t.d.mem = s.here.mem ∧ t.d.cores = s.here.cores := by
  refine ⟨_, (exec_readout h hst).trans (by rw [if_neg hslots]), rfl, ⟨?cmds, ?sq, ?cqs⟩, ?readouts, ?sets, ?mem, ?cores⟩ <;>
    simp only [Dev.keepCmd, h.fetched]
  case sq => exact mget_mput_same ..

end

/-! ### The statement -/

/-- Settles O34: of the stream's cached frames the one named is put behind the frames, and of the slots those that serve the frame wait with
the request; where there is none the command is refused. -/
theorem revisitAndReadout : Obligations.RevisitAndReadout := by
  unfold Obligations.RevisitAndReadout
  refine ⟨fun s q e x c st y ep h hst hlive hctx hcur => ⟨fun hnone => ?gone, fun r hr hfree => ?cached⟩,
    fun s q e x c st h hst => ⟨fun hslots => ?uncovered, fun hslots => ?covered⟩⟩
  case gone => exact h.refused 0x80 (exec_revisit_notFound h hst hlive hctx hnone)
  case cached =>
    obtain ⟨t, hexec, hrest, hans, hframes, hbufs, hstreams, hcores⟩ := revisit_comesBack h hst hlive hctx hcur hr hfree
    exact ⟨t, hexec, hrest, hans, ⟨_, hframes, rfl, rfl, rfl, rfl, rfl, rfl, rfl, rfl, rfl⟩, hbufs, hstreams, hcores⟩
  case uncovered => exact h.refused 0x80 ((exec_readout h hst).trans (by rw [if_pos]; exact hslots))
  case covered => exact readout_waits h hst hslots

end Sys2Proof.Machine
end

section
/-!
SUPPORT. STEP_ADMISSION and READOUT_ADMISSION (R196, R197, R206): an admission touches neither the scheduler's frames nor a core before it
marks its own frame, and a request whose slot is served holds a scratch table.
-/

namespace Sys2Proof.Machine

/-! ### What leaves the scheduler and the cores alone -/

/-- The scheduler and the cores are as they were. -/
structure Dev.SameSched (d e : Dev) : Prop where
  sched : e.sched = d.sched
  cores : e.cores = d.cores

theorem Dev.SameSched.refl (d : Dev) : Dev.SameSched d d := ⟨rfl, rfl⟩

theorem Dev.SameSched.trans {d e g : Dev} (h : Dev.SameSched d e) (h' : Dev.SameSched e g) : Dev.SameSched d g :=
  ⟨h'.sched.trans h.sched, h'.cores.trans h.cores⟩

theorem Dev.SameSched.foldl {β : Type} {f : Dev → β → Dev} (hf : ∀ d b, Dev.SameSched d (f d b)) (l : List β) (d : Dev) :
    Dev.SameSched d (l.foldl f d) :=
  ⟨foldl_keeps (·.sched) f (fun d b => (hf d b).sched) l d, foldl_keeps (·.cores) f (fun d b => (hf d b).cores) l d⟩

theorem Dev.SameSched.ite {d e g : Dev} {p : Prop} [Decidable p] (h : Dev.SameSched d e) (h' : Dev.SameSched d g) :
    Dev.SameSched d (if p then e else g) := by
  split
  · exact h
  · exact h'

/-- The pools and the stores. -/
theorem Dev.PoolOnly.sameSched {d e : Dev} (h : Dev.PoolOnly d e) : Dev.SameSched d e := by
  rw [h.rest]
  exact ⟨rfl, rfl⟩

theorem sameSched_writeRun (d : Dev) (a : Nat) (bs : List Byte) : Dev.SameSched d (d.writeRun a bs) := (d.storesOnly_writeRun a bs).pool.sameSched

theorem sameSched_refInc (d : Dev) (h : Nat) : Dev.SameSched d (d.refInc h) := (d.poolOnly_refInc h).sameSched

theorem sameSched_refDec (d : Dev) (h : Nat) : Dev.SameSched d (d.refDec h) := (d.poolOnly_refDec h).sameSched

theorem sameSched_setFld (d : Dev) (o : Nat) (f : Fld) (n : Nat) : Dev.SameSched d (d.setFld o f n) := ⟨by simp, by simp⟩

/-! ### A page taken from a pool, whatever its number -/

theorem sameSched_lowFell (d : Dev) (p : Nat) : Dev.SameSched d (d.lowFell p) := by
  unfold Dev.lowFell
  simp only []
  split_ifs <;> exact ⟨by simp, by simp⟩

theorem sameSched_bpm (d : Dev) (b : Bpm) : Dev.SameSched d { d with bpm := b } := ⟨rfl, rfl⟩

theorem sameSched_setBuf (d : Dev) (h : Nat) (b : Buf) : Dev.SameSched d (d.setBuf h b) := ⟨rfl, rfl⟩

theorem sameSched_health (d : Dev) (a b c x y : Nat) : Dev.SameSched d (d.health a b c x y) := ⟨by simp, by simp⟩

theorem sameSched_startRebuild (d : Dev) (p : Nat) : Dev.SameSched d (d.startRebuild p) :=
  (sameSched_setFld d (R.BPM_POOL_STAT p) F.BPM_POOL_STAT_state 3).trans ⟨rfl, rfl⟩

theorem sameSched_popOne (d : Dev) (p n : Nat) : Dev.SameSched d (d.popOne p n).2 := by
  unfold Dev.popOne
  simp only []
  split
  · exact .refl d
  split
  · exact .refl d
  next i _ =>
    have hread := (d.storesOnly_noteRead (span (d.bufAddr (mkHandle p i)) 16)).pool.sameSched
    generalize d.noteRead (span (d.bufAddr (mkHandle p i)) 16) = e at hread ⊢
    split
    case isTrue => exact hread.trans (.trans (sameSched_bpm e _) (.trans (sameSched_setBuf ..) (sameSched_lowFell _ p)))
    case isFalse =>
      have hfree : ∀ b : Bool, Dev.SameSched e (if b then e.setBuf (mkHandle p i) ⟨.quarantined, 0⟩ else e) := fun b =>
        .ite (sameSched_setBuf ..) (.refl e)
      refine hread.trans (.trans ?_ (.trans (sameSched_setFld ..) (.trans (sameSched_health ..) (sameSched_startRebuild _ p))))
      split <;> exact hfree _

theorem sameSched_pop (d : Dev) (p n : Nat) : Dev.SameSched d (d.pop p n).2 := by
  have hone := sameSched_popOne d p n
  unfold Dev.pop
  split
  next heq => rwa [heq] at hone
  next e heq =>
    rw [heq] at hone
    have hchain := hone.trans (e.poolOnly_popChain n (e.fld (R.BPM_POOL_CFG p) F.BPM_POOL_CFG_fb_depth) p).sameSched
    split
    · split
      next heq' =>
        rw [heq'] at hchain
        exact hchain.trans ⟨by simp, by simp⟩
      next heq' => rwa [heq'] at hchain
    · exact hone

/-- A spill moves a page between pools and stores. -/
theorem sameSched_spillOne {d e : Dev} {pool : Nat} (h : d.spillOne pool = some e) : Dev.SameSched d e := by
  unfold Dev.spillOne at h
  split at h
  · simp at h
  next a page sp _ =>
    have hpop := sameSched_pop d sp 1
    split at h
    · simp at h
    next n g heq =>
      rw [heq] at hpop
      obtain rfl := Option.some.inj h
      refine hpop.trans (.trans ?_ (.trans (sameSched_writeRun ..) (sameSched_refDec ..)))
      exact ((g.storesOnly_noteRead _).trans ((Dev.storesOnly_writeRun _ _ _).trans (Dev.storesOnly_setPoison _ _))).pool.sameSched

theorem sameSched_grab (d : Dev) (lc : Bool) (pool n : Nat) (sp : Bool) : Dev.SameSched d (d.grab lc pool n sp).2.1 := by
  induction n generalizing d sp with
  | zero => exact .refl d
  | succ n ih =>
    unfold Dev.grab
    have hpop := sameSched_pop d pool 1
    generalize d.pop pool 1 = r at hpop ⊢
    obtain ⟨_ | h, e⟩ := r
    · dsimp only
      split
      · exact hpop
      split
      next g hg => exact hpop.trans ((sameSched_spillOne hg).trans (ih g true))
      · exact hpop
    · exact hpop

theorem sameSched_putResv (d : Dev) (a h : Nat) : Dev.SameSched d (d.putResv a h) := by
  unfold Dev.putResv
  exact .ite ((sameSched_writeRun ..).trans (sameSched_writeRun ..)) ((sameSched_writeRun ..).trans (sameSched_writeRun ..))

theorem sameSched_reserve {d g : Dev} {lc : Bool} {pool a n : Nat} {sp sp' ok : Bool} (h : d.reserve lc pool a n sp = (ok, g, sp')) :
    Dev.SameSched d g := by
  induction n generalizing d sp with
  | zero =>
    cases h
    exact .refl _
  | succ n ih =>
    unfold Dev.reserve at h
    have hgrab := sameSched_grab d lc pool 65536 sp
    generalize d.grab lc pool 65536 sp = r at hgrab h
    obtain ⟨_ | page, e, sp''⟩ := r
    · cases h
      exact hgrab
    · exact hgrab.trans ((sameSched_putResv e a page).trans (ih h))

theorem sameSched_takeN {d g : Dev} {lc : Bool} {pool n : Nat} {acc : List Nat} {sp sp' : Bool} {hs : Option (List Nat)}
    (h : d.takeN lc pool n acc sp = (hs, g, sp')) : Dev.SameSched d g := by
  induction n generalizing d acc sp with
  | zero =>
    cases h
    exact .refl _
  | succ n ih =>
    unfold Dev.takeN at h
    have hgrab := sameSched_grab d lc pool 65536 sp
    generalize d.grab lc pool 65536 sp = r at hgrab h
    obtain ⟨_ | page, e, sp''⟩ := r
    · cases h
      exact hgrab.trans (.foldl sameSched_refDec acc e)
    · exact hgrab.trans (ih h)

/-! ### Slots: leaves, trims, reservations and joins -/

theorem sameSched_slotRelease (d : Dev) (a : Nat) : Dev.SameSched d (d.slotRelease a) :=
  (Dev.SameSched.foldl sameSched_refDec _ d).trans ((sameSched_writeRun ..).trans (sameSched_writeRun ..))

theorem sameSched_slotTrim (d : Dev) (a n : Nat) : Dev.SameSched d (d.slotTrim a n) :=
  (Dev.SameSched.foldl sameSched_refDec _ d).trans ((sameSched_writeRun ..).trans ((sameSched_writeRun ..).trans (sameSched_writeRun ..)))

theorem sameSched_writeJoin (d : Dev) (a len : Nat) (pages : List Nat) (trimmed frame parent : Nat) (resv : List Nat) :
    Dev.SameSched d (d.writeJoin a len pages trimmed frame parent resv) :=
  (sameSched_writeRun ..).trans ((sameSched_writeRun ..).trans (.foldl (fun d h => sameSched_putResv d a h) resv _))

theorem sameSched_admitJoin {d g : Dev} {lc : Bool} {h : SetH} {s t parent frame : Nat} {sp sp' ok : Bool}
    (heq : d.admitJoin lc h s t parent frame sp = (ok, g, sp')) : Dev.SameSched d g := by
  unfold Dev.admitJoin at heq
  extract_lets a p len pages trimmed referenced tail need pneed at heq
  split at heq
  case isTrue =>
    split at heq
    · cases heq
      exact .refl _
    · have hrefs : Dev.SameSched d referenced := .foldl sameSched_refInc pages d
      clear_value need
      split at heq
      next htake =>
        cases heq
        exact hrefs.trans ((sameSched_takeN htake).trans ((sameSched_writeJoin ..).trans (.foldl (fun d x => sameSched_putResv d p x) _ _)))
      next htake =>
        cases heq
        exact hrefs.trans ((sameSched_takeN htake).trans (.foldl sameSched_refDec pages _))
  case isFalse =>
    split at heq
    next htake =>
      cases heq
      exact (sameSched_takeN htake).trans (sameSched_writeJoin ..)
    next htake =>
      cases heq
      exact sameSched_takeN htake

end Sys2Proof.Machine
end

section
/-!
SUPPORT. STEP_ADMISSION (R196, R197): the admission of a step, set by set.
-/

namespace Sys2Proof.Machine

/-! ### Completion of a command -/

theorem sameSched_que (d : Dev) (x : Queues) : Dev.SameSched d { d with que := x } := ⟨rfl, rfl⟩

theorem sameSched_readouts (d : Dev) (l : List Readout) : Dev.SameSched d { d with readouts := l } := ⟨rfl, rfl⟩

theorem sameSched_writeCpl (d : Dev) (q cid status : Nat) (result : List Byte) (x : Sq) (c : Cq) :
    Dev.SameSched d (d.writeCpl q cid status result x c) := by
  unfold Dev.writeCpl
  exact ⟨by simp, by simp⟩

theorem sameSched_postCpl (d : Dev) (q cid status : Nat) (result : List Byte) : Dev.SameSched d (d.postCpl q cid status result) := by
  unfold Dev.postCpl
  split
  · exact .refl d
  split
  · exact .refl d
  exact .ite (sameSched_writeCpl ..) ⟨rfl, rfl⟩

theorem sameSched_deleteSettle (d : Dev) (q : Nat) : Dev.SameSched d (d.deleteSettle q) := by
  unfold Dev.deleteSettle
  split
  · exact .refl d
  · exact .ite (.refl d) ((sameSched_que d _).trans (sameSched_postCpl ..))

theorem sameSched_adminStart (d : Dev) : Dev.SameSched d d.adminStart := by
  unfold Dev.adminStart
  exact .ite ⟨by simp, by simp⟩ (.refl d)

theorem sameSched_adminSettle (d : Dev) : Dev.SameSched d d.adminSettle := by
  unfold Dev.adminSettle
  split
  · refine .ite (.trans ?_ (sameSched_adminStart _)) ?_ <;> exact ⟨by simp, by simp⟩
  · exact .refl d

theorem sameSched_complete (d : Dev) (q cid status : Nat) (result : List Byte) : Dev.SameSched d (d.complete q cid status result) :=
  (sameSched_postCpl ..).trans ((sameSched_deleteSettle ..).trans (sameSched_adminSettle _))

/-! ### Readout requests -/

theorem sameSched_readoutSlot (d : Dev) (r : Readout) (b t : Nat) : Dev.SameSched d (d.readoutSlot r b t).2 := by
  unfold Dev.readoutSlot
  extract_lets h req a e gone len held n pages referenced
  split
  · exact .refl d
  split
  · exact ⟨by simp, by simp⟩
  split
  · exact .refl d
  · extract_lets x written
    have hrefs : Dev.SameSched d referenced := .foldl sameSched_refInc pages d
    have hwritten : Dev.SameSched referenced written := sameSched_writeRun ..
    dsimp only
    exact hrefs.trans hwritten

theorem sameSched_readoutSettle (d : Dev) : Dev.SameSched d d.readoutSettle := by
  unfold Dev.readoutSettle
  exact (sameSched_readouts d _).trans (.foldl (fun d r => (sameSched_que d _).trans (sameSched_complete ..)) _ _)

/-- The request and the device after each slot of a list in turn. -/
theorem sameSched_readoutSlots (l : List (Nat × Nat)) (acc : Readout × Dev) :
    Dev.SameSched acc.2 (l.foldl (fun (acc : Readout × Dev) x => acc.2.readoutSlot acc.1 x.1 x.2) acc).2 := by
  induction l generalizing acc with
  | nil => exact .refl _
  | cons x l ih => exact (sameSched_readoutSlot ..).trans (ih _)

theorem sameSched_takeHolds (d : Dev) (s b : Nat) : Dev.SameSched d (d.takeHolds s b) := by
  unfold Dev.takeHolds
  refine .trans (.foldl (fun d r0 => ?_) d.readouts d) (sameSched_readoutSettle _)
  split
  · exact .refl d
  · exact .ite (.refl d) ((sameSched_readoutSlots _ (_, d)).trans (sameSched_readouts _ _))

/-! ### The stages of an admission -/

theorem sameSched_setTags (d : Dev) (x : Ctx) (h : SetH) : Dev.SameSched d (d.setTags x h) := by
  refine .foldl (fun d D => ?_) _ d
  exact .ite (.refl d) (.ite ⟨rfl, rfl⟩ ⟨rfl, rfl⟩)

/-- The same between two stages of an admission. -/
def Adm.SameSched (x y : Adm) : Prop := Dev.SameSched x.d y.d

theorem Adm.SameSched.foldl {β : Type} {f : Adm → β → Adm} (hf : ∀ x b, Adm.SameSched x (f x b)) (l : List β) (x : Adm) :
    Adm.SameSched x (l.foldl f x) := by
  induction l generalizing x with
  | nil => exact Dev.SameSched.refl _
  | cons b l ih => exact Dev.SameSched.trans (hf x b) (ih _)

theorem sameSched_cont (x : Adm) (lc : Bool) (h : SetH) (s t : Nat) : Adm.SameSched x (x.cont lc h s t) := by
  unfold Adm.SameSched Adm.cont
  dsimp only
  have hfirst := sameSched_writeRun x.d (h.slot s t + 252) (toLE 1 (x.d.slotStatus (h.slot s t) &&& 0xFD))
  generalize x.d.writeRun (h.slot s t + 252) (toLE 1 (x.d.slotStatus (h.slot s t) &&& 0xFD)) = d at hfirst ⊢
  generalize heq : d.reserve lc h.pool (h.slot s t) (d.needPages (h.slot s t) (d.tblLen (h.slot s t)) h.step - d.heldResv (h.slot s t))
    x.spilled = r
  obtain ⟨ok, g, sp⟩ := r
  exact hfirst.trans ((sameSched_reserve heq).trans (.ite (.refl g) (sameSched_writeRun ..)))

theorem sameSched_join (x : Adm) (lc : Bool) (h : SetH) (s frame : Nat) (j : Nat × Nat) : Adm.SameSched x (x.join lc h s frame j) := by
  unfold Adm.SameSched Adm.join
  split
  · exact .refl _
  · dsimp only
    generalize heq : x.d.admitJoin lc h s j.1 j.2 frame x.spilled = r
    obtain ⟨ok, g, sp⟩ := r
    exact sameSched_admitJoin heq

/-- The admission for one set, stage by stage. -/
theorem sameSched_admitSet {d g : Dev} {f : Frame} {st : SeqSet} {recs : List (List Byte)} (heq : d.admitSet f st = (recs, g)) :
    Dev.SameSched d g := by
  unfold Dev.admitSet at heq
  extract_lets h s lc blk slots joins leaves parent old fresh cleared left exc trimmed held begun continued joined admitted live dm pm events
    reported variant ringed tagged pend pend' done rec1 rec2 at heq
  have hleft : Dev.SameSched d left :=
    (sameSched_writeRun ..).trans (.foldl (fun d t => .ite (sameSched_slotRelease ..) (.refl d)) leaves cleared)
  have htrimmed : Dev.SameSched left trimmed := .foldl (fun d t => .ite (sameSched_slotTrim ..) (.refl d)) slots left
  have hheld : Dev.SameSched trimmed held := sameSched_takeHolds ..
  clear_value held
  have hcontinued : Adm.SameSched begun continued := .foldl (fun x t => sameSched_cont x lc h s t) _ begun
  have hjoined : Adm.SameSched continued joined := .foldl (fun x j => sameSched_join x lc h s f.num j) (old ++ fresh) continued
  have hreported : Dev.SameSched joined.d reported := sameSched_writeRun ..
  have hringed : Dev.SameSched reported ringed := .ite (.foldl (fun d t => sameSched_writeRun ..) live reported) (.refl _)
  have htagged : Dev.SameSched ringed tagged := by
    unfold tagged
    split
    · exact sameSched_setTags ..
    · exact .refl _
  have hdone : Dev.SameSched tagged done := ⟨rfl, rfl⟩
  obtain ⟨-, rfl⟩ := Prod.mk.inj heq
  exact hleft.trans (htrimmed.trans (hheld.trans (hcontinued.trans (hjoined.trans (hreported.trans (hringed.trans (htagged.trans hdone)))))))

/-! ### The step admitted -/

/-- The admission for every set of a list in turn. -/
theorem sameSched_admitSets (f : Frame) (l : List SeqSet) (acc : List (List Byte) × Dev) :
    Dev.SameSched acc.2 (l.foldl (fun (acc : List (List Byte) × Dev) st =>
      let y := acc.2.admitSet f st
      (acc.1 ++ y.1, y.2)) acc).2 := by
  induction l generalizing acc with
  | nil => exact .refl _
  | cons st l ih =>
    rw [List.foldl_cons]
    generalize heq : acc.2.admitSet f st = r
    obtain ⟨recs, g⟩ := r
    exact (sameSched_admitSet heq).trans (ih (acc.1 ++ recs, g))

theorem sameSched_modStream (d : Dev) (id : Nat) (g : Stream → Stream) : Dev.SameSched d (d.modStream id g) := ⟨by simp, by simp⟩

/-- The frame is ADMITTED, with the records its sets place ahead of it, and the cores are as they were (R196). -/
theorem admitStep_admits {d : Dev} {f : Frame} (hf : d.frame? f.stream f.num f.revisit = some f) :
    (∃ recs, (d.admitStep f).frame? f.stream f.num f.revisit = some { f with st := .admitted, ahead := f.ahead ++ recs }) ∧
    (d.admitStep f).cores = d.cores := by
  unfold Dev.admitStep
  have hsets := sameSched_admitSets f (d.setsOf f) ([], d)
  extract_lets r v e
  have hsame : Dev.SameSched d e := hsets.trans (.trans (e := v.2) ⟨rfl, rfl⟩ (sameSched_modStream ..))
  rw [frame?_congr (congrArg (·.frames) hsame.sched).symm] at hf
  exact ⟨⟨r.1, frame?_modFrame hf rfl rfl rfl⟩, hsame.cores⟩

/-- A frame that waits for its admission, before which no other is admitted, is admitted. -/
theorem exec_stepAdmission {s : State} {f : Frame} (hwork : s.here.working = true)
    (hfind : (s.here.sched.frames.find? fun g => g.stream = f.stream && s.here.admWaits g) = some f)
    (hturn : (s.here.sched.frames.any fun g => s.here.admBefore g f) = false) :
    exec (.stepAdmission f.stream) s = .next { s with d := s.here.admitStep f } := by
  have arm : exec (.stepAdmission f.stream) s = execStepAdmission f.stream s := rfl
  simp only [arm, execStepAdmission, onDev_here, hfind, hwork, hturn, Bool.not_false, Bool.and_self, if_true]

end Sys2Proof.Machine
end

section
/-!
SUPPORT. READOUT_ADMISSION (R206): the slot of the one request that waits gets a scratch table.
-/

namespace Sys2Proof.Machine

section
variable {d : Dev} {r : Readout} {b t : Nat}

/-- Requests with a slot or a scratch table left stay. -/
theorem readoutSettle_open (h : ∀ r ∈ d.readouts, r.slots = [] → r.scratch ≠ []) : d.readoutSettle = d := by
  have hdone : (d.readouts.filter fun r => r.slots = [] && r.scratch = []) = [] :=
    List.filter_eq_nil_iff.2 fun r hr => by simpa using h r hr
  have hkept : (d.readouts.filter fun r => !(r.slots = [] && r.scratch = [])) = d.readouts :=
    List.filter_eq_self.2 fun r hr => by simpa [imp_iff_not_or] using h r hr
  simp only [Dev.readoutSettle, hdone, hkept, List.foldl_nil]

/-- The request with its one slot served from the first scratch table. -/
def Readout.served (r : Readout) (b t : Nat) : Readout := { r with slots := [], scratch := [{ base := b, tbl := 0, slot := t }] }

/-- A slot whose ring entry serves the request and still has a position gets the first scratch table of a set that uses none. -/
theorem readoutSlot_serves (hscratch : r.scratch = []) (hused : d.scratchUsed b = [])
    (hfit : d.readoutFits (d.setH b) r.stream r.frame t = true)
    (hlen : 32 * ((d.rdLE ((d.setH b).slot r.stream t + 240) 4 + 2 ^ 32 - d.rdLE ((d.setH b).ring r.stream t r.frame + 8) 4) % 2 ^ 32) <
      d.rdLE ((d.setH b).ring r.stream t r.frame + 4) 4) :
    ∃ e, Dev.PoolOnly d e ∧ d.readoutSlot { r with slots := [] } b t = (r.served b t, e) := by
  unfold Dev.readoutSlot
  extract_lets h req a e gone len held n pages referenced
  have hrefs : Dev.PoolOnly d referenced := .foldl (fun d h => d.poolOnly_refInc h) pages d
  rw [if_neg (by simpa using hfit), if_neg (Nat.not_le.2 hlen)]
  simp only [hused, hscratch, List.filter_nil, List.map_nil, Readout.served, List.nil_append]
  exact ⟨_, hrefs.trans (Dev.storesOnly_writeRun _ _ _).pool, rfl⟩

/-- The holds of the one request of a stream, on the set of its one slot. -/
theorem takeHolds_serves (hr : d.readouts = [r]) (hslots : r.slots = [(b, t)]) (hscratch : r.scratch = [])
    (hfit : d.readoutFits (d.setH b) r.stream r.frame t = true)
    (hlen : 32 * ((d.rdLE ((d.setH b).slot r.stream t + 240) 4 + 2 ^ 32 - d.rdLE ((d.setH b).ring r.stream t r.frame + 8) 4) % 2 ^ 32) <
      d.rdLE ((d.setH b).ring r.stream t r.frame + 4) 4) :
    ∃ e, Dev.PoolOnly d e ∧ d.takeHolds r.stream b = { e with readouts := [r.served b t] } := by
  have hused : d.scratchUsed b = [] := by simp [Dev.scratchUsed, hr, hscratch]
  obtain ⟨e, honly, hslot⟩ := readoutSlot_serves hscratch hused hfit hlen
  have hkept : e.readouts = [r] := by rw [honly.rest]; exact hr
  have hopen : ∀ q ∈ ({ e with readouts := [r.served b t] } : Dev).readouts, q.slots = [] → q.scratch ≠ [] := by
    simp [Readout.served]
  refine ⟨e, honly, ?_⟩
  rw [← readoutSettle_open hopen]
  simp [Dev.takeHolds, hr, hslots, hslot, hkept]

end

theorem exec_readoutAdmission {s : State} {r : Readout} {y : SeqSet} (hwork : s.here.working = true) (hr : s.here.readouts = [r])
    (hy : s.here.sets = [y]) (hslots : r.slots ≠ []) (hnone : (s.here.sched.frames.any fun f => f.stream = r.stream && s.here.admWaits f) = false) :
    exec (.readoutAdmission r.stream) s = .next { s with d := s.here.takeHolds r.stream y.base } := by
  have arm : exec (.readoutAdmission r.stream) s = execReadoutAdmission r.stream s := rfl
  have hwaits : (s.here.readouts.any fun q => q.stream = r.stream && q.slots ≠ []) = true := by simp [hr, hslots]
  simp only [arm, execReadoutAdmission, onDev_here, hwork, hwaits, hnone, hy, Bool.not_false, Bool.and_self, if_true, List.foldl_cons, List.foldl_nil]

end Sys2Proof.Machine
end

section
/-!
SUPPORT. Operating points and modes (R333, R342, R476 to R478): what the sequencer of a stack changes, and how a step ends.
-/

namespace Sys2Proof.Machine

/-! ### The fields of a stack -/

/-- The fields of a stack in CPR_DVFS_STATUS lie apart from each other. -/
theorem dvfsFields_apart (k : Nat) : (fOp k).lsb + (fOp k).w ≤ (fBusy k).lsb ∧ (fBusy k).lsb + (fBusy k).w ≤ (fMv k).lsb ∧
    (fMv k).lsb + (fMv k).w ≤ 32 ∧ (fOp k).w = 2 ∧ (fBusy k).w = 1 ∧ (fMv k).w = 10 := by
  unfold fOp fBusy fMv
  split <;> decide

/-- The copy of the point in SCH_GOV_STATUS lies in bits 2 to 5. -/
theorem fGovOp_bits (k : Nat) : 2 ≤ (fGovOp k).lsb ∧ (fGovOp k).lsb + (fGovOp k).w ≤ 6 := by
  unfold fGovOp
  split <;> decide

theorem opOf_lt (d : Dev) (k : Nat) : d.opOf k < 4 := by
  obtain ⟨-, -, -, hw, -, -⟩ := dvfsFields_apart k
  unfold Dev.opOf Dev.fld Fld.get bits
  rw [hw]
  exact Nat.mod_lt _ (by decide)

/-! ### What a sequencer changes -/

/-- Nothing changes but the sequencer of stack k, CPR_DVFS_STATUS, and the points in SCH_GOV_STATUS. -/
structure Dev.DvfsOnly (d e : Dev) (k : Nat) : Prop where
  rest : e = { d with regs := e.regs, dvfs := e.dvfs }
  others : ∀ i, i ≠ k → mget e.dvfs i = mget d.dvfs i
  regs : ∀ o, o ≠ R.CPR_DVFS_STATUS → o ≠ R.SCH_GOV_STATUS → e.reg o = d.reg o
  gov : ∀ f : Fld, f.lsb + f.w ≤ 2 ∨ 6 ≤ f.lsb → e.fld R.SCH_GOV_STATUS f = d.fld R.SCH_GOV_STATUS f

section
variable {d e g : Dev} {k : Nat}

theorem Dev.DvfsOnly.refl (d : Dev) (k : Nat) : Dev.DvfsOnly d d k := ⟨rfl, fun _ _ => rfl, fun _ _ _ => rfl, fun _ _ => rfl⟩

theorem Dev.DvfsOnly.trans (h : Dev.DvfsOnly d e k) (h' : Dev.DvfsOnly e g k) : Dev.DvfsOnly d g k where
  rest := by rw [h'.rest, h.rest]
  others i hi := (h'.others i hi).trans (h.others i hi)
  regs o h1 h2 := (h'.regs o h1 h2).trans (h.regs o h1 h2)
  gov f hf := (h'.gov f hf).trans (h.gov f hf)

theorem dvfsOnly_setDv (d : Dev) (k : Nat) (v : Dvfs) : Dev.DvfsOnly d (d.setDv k v) k :=
  ⟨rfl, fun _ hi => mget_mput_ne _ _ hi, fun _ _ _ => rfl, fun _ _ => rfl⟩

theorem dvfsOnly_status (d : Dev) (k : Nat) (f : Fld) (n : Nat) : Dev.DvfsOnly d (d.setFld R.CPR_DVFS_STATUS f n) k :=
  ⟨rfl, fun _ _ => rfl, fun _ h1 _ => Dev.reg_setFld_ne _ _ _ h1, fun _ _ => Dev.fld_setFld_ne _ _ _ _ (by decide)⟩

theorem dvfsOnly_govOp (d : Dev) (k n : Nat) : Dev.DvfsOnly d (d.setFld R.SCH_GOV_STATUS (fGovOp k) n) k := by
  obtain ⟨hlo, hhi⟩ := fGovOp_bits k
  exact ⟨rfl, fun _ _ => rfl, fun _ _ h2 => Dev.reg_setFld_ne _ _ _ h2,
    fun f hf => Dev.fld_setFld_other _ _ _ (by omega) (by omega)⟩

theorem dvfsOnly_setOp (d : Dev) (k n : Nat) : Dev.DvfsOnly d (d.setOp k n) k := (dvfsOnly_status ..).trans (dvfsOnly_govOp ..)

theorem dvfsOnly_setMv (d : Dev) (k : Nat) : Dev.DvfsOnly d (d.setMv k) k := dvfsOnly_status ..

theorem dvfsOnly_dvfsStart (d : Dev) (k : Nat) : Dev.DvfsOnly d (d.dvfsStart k) k := by
  have hbusy : ∀ v n, Dev.DvfsOnly d ((d.setDv k v).setFld R.CPR_DVFS_STATUS (fBusy k) n) k := fun v n =>
    (dvfsOnly_setDv ..).trans (dvfsOnly_status ..)
  unfold Dev.dvfsStart
  extract_lets v op n started
  split
  · exact .refl d k
  split
  · exact (hbusy _ _).trans (dvfsOnly_setOp ..)
  · exact hbusy _ _

theorem dvfsOnly_dvfsRequest (d : Dev) (k target : Nat) : Dev.DvfsOnly d (d.dvfsRequest k target) k :=
  (dvfsOnly_setDv ..).trans (dvfsOnly_dvfsStart ..)

/-! ### Reading back -/

@[simp] theorem dv_setDv_same (d : Dev) (k : Nat) (v : Dvfs) : (d.setDv k v).dv k = v := mgetD_mput_same ..

theorem fld_setDv (d : Dev) (k : Nat) (v : Dvfs) (o : Nat) (f : Fld) : (d.setDv k v).fld o f = d.fld o f := rfl

/-- The sequencers are no registers. -/
@[simp] theorem dv_setFld (d : Dev) (o : Nat) (f : Fld) (n k : Nat) : (d.setFld o f n).dv k = d.dv k := by rw [Dev.dv, Dev.dv, Dev.setFld_dvfs]

@[simp] theorem dv_setOp (d : Dev) (i n k : Nat) : (d.setOp i n).dv k = d.dv k := by rw [Dev.dv, Dev.dv, Dev.setOp_dvfs]

@[simp] theorem dv_setMv (d : Dev) (i k : Nat) : (d.setMv i).dv k = d.dv k := by rw [Dev.dv, Dev.dv, Dev.setMv_dvfs]

theorem Dev.DvfsOnly.dv (h : Dev.DvfsOnly d e k) {i : Nat} (hi : i ≠ k) : e.dv i = d.dv i := by
  rw [Dev.dv, Dev.dv, mgetD, mgetD, h.others i hi]

theorem opOf_setOp (d : Dev) (k : Nat) {n : Nat} (hn : n < 4) : (d.setOp k n).opOf k = n := by
  obtain ⟨h1, h2, h3, hw, -, -⟩ := dvfsFields_apart k
  rw [Dev.setOp, Dev.opOf, Dev.fld_setFld_ne _ _ _ _ (by decide), Dev.fld_setFld_same _ _ _ _ (by omega), hw]
  exact Nat.mod_eq_of_lt hn

/-- A change of the point leaves the stack's other fields. -/
theorem status_setOp (d : Dev) (k n : Nat) {f : Fld} (hf : (fOp k).lsb + (fOp k).w ≤ f.lsb) :
    (d.setOp k n).fld R.CPR_DVFS_STATUS f = d.fld R.CPR_DVFS_STATUS f := by
  obtain ⟨h1, h2, h3, -⟩ := dvfsFields_apart k
  rw [Dev.setOp, Dev.fld_setFld_ne _ _ _ _ (by decide), Dev.fld_setFld_other _ _ _ (by omega) (.inr hf)]

theorem busy_set (d : Dev) (k n : Nat) : (d.setFld R.CPR_DVFS_STATUS (fBusy k) n).fld R.CPR_DVFS_STATUS (fBusy k) = n % 2 := by
  obtain ⟨h1, h2, h3, -, hw, -⟩ := dvfsFields_apart k
  rw [Dev.fld_setFld_same _ _ _ _ (by omega), hw, Nat.pow_one]

theorem opOf_setBusy (d : Dev) (k n : Nat) : (d.setFld R.CPR_DVFS_STATUS (fBusy k) n).opOf k = d.opOf k := by
  obtain ⟨h1, h2, h3, -⟩ := dvfsFields_apart k
  exact Dev.fld_setFld_other _ _ _ (by omega) (.inl h1)

theorem mv_setBusy (d : Dev) (k n : Nat) :
    (d.setFld R.CPR_DVFS_STATUS (fBusy k) n).fld R.CPR_DVFS_STATUS (fMv k) = d.fld R.CPR_DVFS_STATUS (fMv k) := by
  obtain ⟨h1, h2, h3, -⟩ := dvfsFields_apart k
  exact Dev.fld_setFld_other _ _ _ (by omega) (.inr h2)

/-! ### A request -/

/-- The start of a step keeps the target. -/
theorem dvfsStart_target (d : Dev) (k : Nat) : ((d.dvfsStart k).dv k).target = (d.dv k).target := by
  unfold Dev.dvfsStart
  extract_lets v op n started
  have hstarted : (started.dv k).target = (d.dv k).target := by rw [dv_setFld, dv_setDv_same]
  split
  · rfl
  split
  · rw [dv_setOp, hstarted]
  · exact hstarted

theorem dvfsRequest_target (d : Dev) (k target : Nat) : ((d.dvfsRequest k target).dv k).target = target := by
  rw [Dev.dvfsRequest, dvfsStart_target, dv_setDv_same]

/-- The sequencer of a stack that stands at its target rests; otherwise it takes one step toward it, and going down the divider is first. -/
theorem dvfsStart_rested {m : Nat} (h : d.dv k = ⟨m, none⟩) :
    (d.dvfsStart k).dv k = ⟨m, if m = d.opOf k then none else some (if d.opOf k < m then d.opOf k + 1 else d.opOf k - 1, false)⟩ ∧
    (d.dvfsStart k).opOf k = (if m < d.opOf k then d.opOf k - 1 else d.opOf k) ∧
    (d.dvfsStart k).fld R.CPR_DVFS_STATUS (fBusy k) = (if m = d.opOf k then d.fld R.CPR_DVFS_STATUS (fBusy k) else 1) ∧
    (d.dvfsStart k).fld R.CPR_DVFS_STATUS (fMv k) = d.fld R.CPR_DVFS_STATUS (fMv k) := by
  have hop := opOf_lt d k
  obtain ⟨hb, hm, -⟩ := dvfsFields_apart k
  unfold Dev.dvfsStart
  extract_lets v op n started
  have hv : v = ⟨m, none⟩ := h
  have hn : n = if op < m then op + 1 else op - 1 := by unfold n; rw [hv]
  have hdv : started.dv k = ⟨m, some (n, false)⟩ := by rw [dv_setFld, dv_setDv_same, hv]
  have hbusy : started.fld R.CPR_DVFS_STATUS (fBusy k) = 1 := busy_set ..
  have hkept : started.opOf k = op := opOf_setBusy ..
  have hmv : started.fld R.CPR_DVFS_STATUS (fMv k) = d.fld R.CPR_DVFS_STATUS (fMv k) := mv_setBusy ..
  clear_value started n
  rw [hv]
  rcases Nat.lt_trichotomy m op with hlt | heq | hgt
  case inl =>
    rw [if_neg (Nat.lt_asymm hlt)] at hn ⊢
    rw [if_neg (by simp [hlt.ne]), if_pos (by omega), if_neg hlt.ne, if_pos hlt, if_neg hlt.ne, dv_setOp, hdv, hn]
    exact ⟨rfl, opOf_setOp _ _ (by omega), (status_setOp _ _ _ hb).trans hbusy, (status_setOp _ _ _ (by omega)).trans hmv⟩
  case inr.inl =>
    rw [if_pos (.inr heq), if_pos heq, if_neg heq.not_lt, if_pos heq]
    exact ⟨h, rfl, rfl, rfl⟩
  case inr.inr =>
    rw [if_pos hgt] at hn ⊢
    rw [if_neg (by simp [hgt.ne']), if_neg (by omega), if_neg hgt.ne', if_neg (Nat.lt_asymm hgt), if_neg hgt.ne', hdv, hn]
    exact ⟨rfl, hkept, hbusy, hmv⟩

/-! ### The end of a step (R477, R478) -/

theorem effMv_congr (h : e.reg (R.CPR_CAL_VMARGIN k) = d.reg (R.CPR_CAL_VMARGIN k)) (n : Nat) : e.effMv k n = d.effMv k n := by
  simp only [Dev.effMv, h]

/-- The device with the step of stack k to point n ended in range, before the next step starts. -/
def Dev.atPoint (d : Dev) (k n m : Nat) : Dev :=
  (((d.setFld R.CPR_DVFS_STATUS (fBusy k) 0).setOp k n).setMv k).setDv k ⟨m, none⟩

theorem dvfsOnly_atPoint (d : Dev) (k n m : Nat) : Dev.DvfsOnly d (d.atPoint k n m) k :=
  (dvfsOnly_status ..).trans ((dvfsOnly_setOp ..).trans ((dvfsOnly_setMv ..).trans (dvfsOnly_setDv ..)))

/-- The point is in force, its voltage is reported, and the sequencer is not busy. -/
theorem atPoint_spec (d : Dev) {k n : Nat} (m : Nat) (hk : k < 2) (hn : n < 4) : (d.atPoint k n m).dv k = ⟨m, none⟩ ∧ (d.atPoint k n m).opOf k = n ∧
    (d.atPoint k n m).fld R.CPR_DVFS_STATUS (fBusy k) = 0 ∧ (d.atPoint k n m).fld R.CPR_DVFS_STATUS (fMv k) = d.effMv k n % 1024 := by
  obtain ⟨hb, hm, h32, -, -, hw⟩ := dvfsFields_apart k
  have hbm : (fOp k).lsb + (fOp k).w ≤ (fMv k).lsb := by omega
  have hop : ((d.setFld R.CPR_DVFS_STATUS (fBusy k) 0).setOp k n).opOf k = n := opOf_setOp _ _ hn
  have hcal : ((d.setFld R.CPR_DVFS_STATUS (fBusy k) 0).setOp k n).reg (R.CPR_CAL_VMARGIN k) = d.reg (R.CPR_CAL_VMARGIN k) :=
    ((dvfsOnly_status d k _ _).trans (dvfsOnly_setOp ..)).regs _ (by simp only [R.CPR_CAL_VMARGIN, R.CPR_DVFS_STATUS]; omega)
      (by simp only [R.CPR_CAL_VMARGIN, R.SCH_GOV_STATUS]; omega)
  refine ⟨dv_setDv_same .., ?point, ?busy, ?volt⟩
  case point => rw [Dev.opOf, Dev.atPoint, fld_setDv, Dev.setMv, Dev.fld_setFld_other _ _ _ h32 (.inl hbm)]; exact hop
  case busy => rw [Dev.atPoint, fld_setDv, Dev.setMv, Dev.fld_setFld_other _ _ _ h32 (.inl hm), status_setOp _ _ _ hb, busy_set]
  case volt => rw [Dev.atPoint, fld_setDv, Dev.setMv, Dev.fld_setFld_same _ _ _ _ h32, hop, effMv_congr hcal, hw]; rfl

theorem dvfsEnd_inRange {m n : Nat} {again : Bool} (h : d.dv k = ⟨m, some (n, again)⟩) : d.dvfsEnd k true = (d.atPoint k n m).dvfsStart k := by
  simp only [Dev.dvfsEnd, h]
  rfl

/-- A rail out of range the first time: the step is tried again. -/
theorem dvfsEnd_retries {m n : Nat} (h : d.dv k = ⟨m, some (n, false)⟩) : d.dvfsEnd k false = d.setDv k ⟨m, some (n, true)⟩ := by
  simp only [Dev.dvfsEnd, h]
  rfl

/-- The device whose sequencer has given up a step to a point out of range. -/
def Dev.atRest (d : Dev) (k : Nat) : Dev := (d.setFld R.CPR_DVFS_STATUS (fBusy k) 0).setDv k ⟨d.opOf k, none⟩

/-- It rests at the point in force, and is not busy. -/
theorem atRest_spec (d : Dev) (k : Nat) : (d.atRest k).dv k = ⟨d.opOf k, none⟩ ∧ (d.atRest k).opOf k = d.opOf k ∧
    (d.atRest k).fld R.CPR_DVFS_STATUS (fBusy k) = 0 := by
  refine ⟨dv_setDv_same .., ?point, ?busy⟩
  case point => rw [Dev.opOf, Dev.atRest, fld_setDv]; exact opOf_setBusy ..
  case busy => rw [Dev.atRest, fld_setDv, busy_set]

theorem dvfsEnd_stops {m n : Nat} (h : d.dv k = ⟨m, some (n, true)⟩) :
    d.dvfsEnd k false = (d.atRest k).health Ev.recovery.code 0 0 (4 * k) 0 := by
  simp only [Dev.dvfsEnd, h, Dev.atRest, opOf_setBusy]
  rfl

/-- A HEALTH event takes one event number. -/
theorem health_evSeq (d : Dev) (a b c x y : Nat) : (d.health a b c x y).que.evSeq = (d.que.evSeq + 1) % 2 ^ 32 := by
  unfold Dev.health
  extract_lets seq que counted body
  split
  · rfl
  · rw [Dev.raiseVec_que, Dev.logEv_que]

end

theorem exec_dvfsStepComplete {k : Nat} (hk : k < 2) (b : Bool) (s : State) :
    exec (.dvfsStepComplete k b) s = .next { s with d := s.here.dvfsEnd k b } := by
  have arm : exec (.dvfsStepComplete k b) s = execDvfsStepComplete k b s := rfl
  simp only [arm, execDvfsStepComplete, onDev_here, hk, if_true]

/-! ### A write of SCH_MODE (R333, R342) -/

/-- The mode, the pin and the mode in force selected. -/
def Dev.selectMode (d : Dev) (mode pin : Nat) : Dev :=
  ((d.setFld R.SCH_MODE F.SCH_MODE_mode mode).setFld R.SCH_MODE F.SCH_MODE_pin pin).setFld R.SCH_GOV_STATUS F.SCH_GOV_STATUS_mode_active (modeOf mode)

theorem selectMode_regs (d : Dev) (mode pin : Nat) : ∃ r, d.selectMode mode pin = { d with regs := r } := ⟨_, rfl⟩

theorem selectMode_spec (d : Dev) {mode pin : Nat} (hm : mode < 4) (hp : pin < 2) :
    (d.selectMode mode pin).fld R.SCH_MODE F.SCH_MODE_mode = mode ∧ (d.selectMode mode pin).fld R.SCH_MODE F.SCH_MODE_pin = pin ∧
    (d.selectMode mode pin).mode = modeOf mode := by
  have hact : modeOf mode < 4 := by unfold modeOf; split <;> omega
  refine ⟨?_, ?_, ?_⟩
  · rw [Dev.selectMode, Dev.fld_setFld_ne _ _ _ _ (by decide), Dev.fld_setFld_other _ _ _ (by decide) (by decide), Dev.fld_setFld_same _ _ _ _ (by decide)]
    exact Nat.mod_eq_of_lt hm
  · rw [Dev.selectMode, Dev.fld_setFld_ne _ _ _ _ (by decide), Dev.fld_setFld_same _ _ _ _ (by decide)]
    exact Nat.mod_eq_of_lt hp
  · rw [Dev.selectMode, Dev.mode, Dev.fld_setFld_same _ _ _ _ (by decide)]
    exact Nat.mod_eq_of_lt hact

/-- The ceiling of a mode applied to a stack. -/
def Dev.lowerTo (d : Dev) (c k : Nat) : Dev :=
  if c < (d.dv k).target ∨ c < d.opOf k then d.dvfsRequest k (min c (d.dv k).target) else d

theorem setMode_eq (d : Dev) (mode pin : Nat) :
    d.setMode mode pin = ((d.selectMode mode pin).lowerTo (modeCeil (modeOf mode)) 0).lowerTo (modeCeil (modeOf mode)) 1 := by
  simp only [Dev.setMode, List.foldl_cons, List.foldl_nil]
  rfl

theorem dvfsOnly_lowerTo (d : Dev) (c k : Nat) : Dev.DvfsOnly d (d.lowerTo c k) k := by
  unfold Dev.lowerTo
  split
  · exact dvfsOnly_dvfsRequest ..
  · exact .refl d k

theorem lowerTo_target (d : Dev) (c k : Nat) : ((d.lowerTo c k).dv k).target = min c (d.dv k).target := by
  unfold Dev.lowerTo
  split
  · exact dvfsRequest_target ..
  · omega

theorem exec_schModeWrite {s : State} (h : s.here.regOpen R.SCH_MODE = true) (v : Word) :
    exec (.schModeWrite v) s = .next { s with d := s.here.setMode (v.toNat % 4) (v.toNat / 4 % 2) } := by
  have arm : exec (.schModeWrite v) s = execSchModeWrite v s := rfl
  have hmode : bits v.toNat 0 2 = v.toNat % 4 := by simp [bits]
  have hpin : bits v.toNat 2 1 = v.toNat / 4 % 2 := by simp [bits]
  simp only [arm, execSchModeWrite, onDev_here, h, if_true, hmode, hpin]

end Sys2Proof.Machine
end

section
/-!
SUPPORT. GOVERNOR_TICK (R334, R335, R520, R522): the power of the rails, its average, and what the steps of the stacks leave of it.
-/

namespace Sys2Proof.Machine

/-! ### What a governor's step leaves of the tick -/

/-- The samples, the instant of the tick and the power reported are the same, and so are the cores and the memories. -/
structure Dev.TickKept (d e : Dev) : Prop where
  samples : e.gov.samples = d.gov.samples
  tick : e.gov.lastTick = d.gov.lastTick
  power : e.fld R.SCH_GOV_STATUS F.SCH_GOV_STATUS_power = d.fld R.SCH_GOV_STATUS F.SCH_GOV_STATUS_power
  cores : e.cores = d.cores
  mem : e.mem = d.mem

section
variable {d e g : Dev}

theorem Dev.TickKept.refl (d : Dev) : Dev.TickKept d d := ⟨rfl, rfl, rfl, rfl, rfl⟩

theorem Dev.TickKept.trans (h : Dev.TickKept d e) (h' : Dev.TickKept e g) : Dev.TickKept d g :=
  ⟨h'.samples.trans h.samples, h'.tick.trans h.tick, h'.power.trans h.power, h'.cores.trans h.cores, h'.mem.trans h.mem⟩

theorem Dev.TickKept.foldl {β : Type} {f : Dev → β → Dev} (hf : ∀ d b, Dev.TickKept d (f d b)) (l : List β) (d : Dev) :
    Dev.TickKept d (l.foldl f d) := by
  induction l generalizing d with
  | nil => exact .refl d
  | cons b l ih => exact (hf d b).trans (ih _)

theorem Dev.DvfsOnly.tickKept {k : Nat} (h : Dev.DvfsOnly d e k) : Dev.TickKept d e := by
  have hpower := h.gov F.SCH_GOV_STATUS_power (by decide)
  rw [h.rest] at hpower ⊢
  exact ⟨rfl, rfl, hpower, rfl, rfl⟩

/-- What the governor keeps next to the samples and the instant. -/
theorem tickKept_gov (d : Dev) (s l : SMap Nat) (f : SMap Nat) (down since : Option Nat) (low : List Nat) : Dev.TickKept d { d with gov :=
    { d.gov with fails := f, lastGood := l, lastStep := s, lastDown := down, belowSince := since, lowered := low } } :=
  ⟨rfl, rfl, rfl, rfl, rfl⟩

theorem tickKept_status (d : Dev) {f : Fld} (n : Nat) (hf : f.lsb + f.w ≤ 16) : Dev.TickKept d (d.setFld R.SCH_GOV_STATUS f n) :=
  ⟨rfl, rfl, Dev.fld_setFld_other _ _ _ (by omega) (.inr hf), rfl, rfl⟩

theorem tickKept_govStep (d : Dev) (k n : Nat) : Dev.TickKept d (d.govStep k n) := by
  have hrequest := (dvfsOnly_dvfsRequest d k n).tickKept
  exact ⟨rfl, rfl, hrequest.power, hrequest.cores, hrequest.mem⟩

theorem tickKept_pauseBe (d : Dev) (b : Bool) : Dev.TickKept d (d.pauseBe b) := tickKept_status _ _ (by decide)

theorem tickKept_govOver (d : Dev) : Dev.TickKept d d.govOver := by
  unfold Dev.govOver
  split
  · exact tickKept_pauseBe ..
  split
  · exact .refl d
  split
  · exact (tickKept_govStep ..).trans (tickKept_gov ..)
  · exact .refl d

theorem tickKept_govThermal (d : Dev) : Dev.TickKept d d.govThermal := by
  unfold Dev.govThermal
  split
  · exact tickKept_pauseBe ..
  split
  · exact .refl d
  · refine Dev.TickKept.trans (.foldl (fun d k => ?_) [0, 1] d) ⟨rfl, rfl, rfl, rfl, rfl⟩
    split
    · exact tickKept_govStep ..
    · exact .refl d

theorem tickKept_govStack (d : Dev) (calm : Bool) (k : Nat) : Dev.TickKept d (d.govStack calm k) := by
  unfold Dev.govStack
  extract_lets op ceil free dawn stepped
  have hstepped : Dev.TickKept d stepped := tickKept_govStep ..
  split
  · split
    · split
      · split
        · split
          · exact hstepped.trans (tickKept_gov ..)
          · exact hstepped
        · exact .refl d
      · exact (dvfsOnly_dvfsRequest ..).tickKept
    · exact .refl d
  split
  · exact tickKept_govStep ..
  split
  · exact tickKept_govStep ..
  · exact .refl d

/-! ### The tick -/

/-- The power of eight rails that are all read, with those that no regulator reports (R520, log entry 3). -/
theorem railPower_read (d : Dev) {rails : List (Nat × Nat)} (h : rails.length = 8) :
    (d.railPower (rails.map some)).1 = 400 + ((rails.map fun r => r.1 * r.2 / 1000).foldl (· + ·) 0) := by
  match rails, h with
  | [a, b, c, e, f, g, i, j], _ =>
    simp [Dev.railPower, List.range, List.range.loop]
    omega

/-- The samples of a tick, newest first. -/
def Dev.tickSamples (d : Dev) (rails : List (Option (Nat × Nat))) : List Nat := ((d.railPower rails).1 :: d.gov.samples).take 10

/-- A tick takes its sample, notes its instant and reports the average in 10 mW; cores and memories are as they were. -/
theorem govTick_spec (d : Dev) (rails : List (Option (Nat × Nat))) :
    (d.govTick rails).gov.samples = d.tickSamples rails ∧ (d.govTick rails).gov.lastTick = d.now ∧
    (d.govTick rails).fld R.SCH_GOV_STATUS F.SCH_GOV_STATUS_power =
      min 65535 ((d.tickSamples rails).foldl (· + ·) 0 / (d.tickSamples rails).length / 10) ∧
    (d.govTick rails).cores = d.cores ∧ (d.govTick rails).mem = d.mem := by
  unfold Dev.govTick
  extract_lets p samples avg env calm gov sampled reported cleared stepped
  have hsampled : sampled.gov.samples = d.tickSamples rails ∧ sampled.gov.lastTick = d.now ∧ sampled.cores = d.cores ∧ sampled.mem = d.mem :=
    ⟨rfl, rfl, rfl, rfl⟩
  clear_value sampled
  obtain ⟨hsamples, htick, hcores, hmem⟩ := hsampled
  have hpower : reported.fld R.SCH_GOV_STATUS F.SCH_GOV_STATUS_power = min 65535 (avg / 10) := by
    unfold reported
    rw [Dev.fld_setFld_same _ _ _ _ (by decide)]
    exact Nat.mod_eq_of_lt (Nat.lt_of_le_of_lt (Nat.min_le_left ..) (by decide))
  have hcleared : Dev.TickKept reported cleared := by
    unfold cleared
    split
    · exact tickKept_pauseBe ..
    · exact .refl _
  have hstepped : Dev.TickKept reported stepped := by
    unfold stepped
    split
    · exact tickKept_govThermal _
    split
    · exact tickKept_govOver _
    · exact hcleared.trans (.foldl (fun d k => tickKept_govStack d calm k) [0, 1] cleared)
  have hkept := hstepped.trans (tickKept_status stepped (f := F.SCH_GOV_STATUS_env_limited) (b2n (stepped.within stepped.gov.lastDown 100)) (by decide))
  exact ⟨hkept.samples.trans hsamples, hkept.tick.trans htick, hkept.power.trans hpower, hkept.cores.trans hcores, hkept.mem.trans hmem⟩

end

theorem exec_governorTick {s : State} (hwork : s.d.working = true) (rails : List (Option (Nat × Nat))) :
    exec (.governorTick rails) s = .next { s.reach (s.d.gov.lastTick + 100000) with d := (s.reach (s.d.gov.lastTick + 100000)).here.govTick rails } := by
  have arm : exec (.governorTick rails) s = execGovernorTick rails s := rfl
  rw [arm, execGovernorTick, if_pos hwork]
  rfl

end Sys2Proof.Machine
end

section
/-!
SUPPORT. The statement on admissions, the governor, DVFS steps and modes (O20).
-/

namespace Sys2Proof.Machine

section
variable {s : State}

/-- A step that ends in range: the point is in force and the sequencer goes on or rests. -/
theorem dvfsStep_ends {k n m : Nat} {again : Bool} (hk : k < 2) (hn : n < 4) (h : mget s.here.dvfs k = some ⟨m, some (n, again)⟩) :
    Answers (.dvfsStepComplete k true) s fun t => t = { s with d := { s.here with regs := t.d.regs, dvfs := t.d.dvfs } } ∧
      t.d.dv k = ⟨m, if m = n then none else some (if n < m then n + 1 else n - 1, false)⟩ ∧
      t.d.opOf k = (if m < n then n - 1 else n) ∧ t.d.fld R.CPR_DVFS_STATUS (fBusy k) = (if m = n then 0 else 1) ∧
      t.d.fld R.CPR_DVFS_STATUS (fMv k) = s.here.effMv k n % 1024 ∧ ∀ i, i ≠ k → mget t.d.dvfs i = mget s.here.dvfs i := by
  have hdv : s.here.dv k = ⟨m, some (n, again)⟩ := by rw [Dev.dv, mgetD, h]; rfl
  obtain ⟨hrest, hop, hbusy, hmv⟩ := atPoint_spec s.here m hk hn
  obtain ⟨hstep, hpoint, hbusy', hmv'⟩ := dvfsStart_rested hrest
  rw [hop] at hstep hpoint
  rw [hop, hbusy] at hbusy'
  have honly := (dvfsOnly_atPoint s.here k n m).trans (dvfsOnly_dvfsStart _ k)
  have hexec := exec_dvfsStepComplete hk true s
  rw [dvfsEnd_inRange hdv] at hexec
  generalize (s.here.atPoint k n m).dvfsStart k = d at *
  exact ⟨_, hexec, congrArg (fun d => ({ s with d := d } : State)) honly.rest, hstep, hpoint, hbusy', hmv'.trans hmv, honly.others⟩

/-- A step out of range for the second time: the sequencer rests where it stands, and the event is posted. -/
theorem dvfsStep_stops {k n m : Nat} (hk : k < 2) (h : s.here.dv k = ⟨m, some (n, true)⟩) :
    Answers (.dvfsStepComplete k false) s fun t => t = { s with d := t.d } ∧ t.d.dv k = ⟨s.here.opOf k, none⟩ ∧
      t.d.opOf k = s.here.opOf k ∧ t.d.fld R.CPR_DVFS_STATUS (fBusy k) = 0 ∧ t.d.que.evSeq = (s.here.que.evSeq + 1) % 2 ^ 32 ∧
      t.d.cores = s.here.cores ∧ t.d.mem = s.here.mem := by
  obtain ⟨hrest, hop, hbusy⟩ := atRest_spec s.here k
  have hexec := exec_dvfsStepComplete hk false s
  rw [dvfsEnd_stops h] at hexec
  have hevent := fun f : Fld => congrArg f.get (Dev.reg_health (s.here.atRest k) Ev.recovery.code 0 0 (4 * k) 0 [] (o := R.CPR_DVFS_STATUS) (by decide))
  refine ⟨_, hexec, rfl, ?dv, (hevent _).trans hop, (hevent _).trans hbusy, health_evSeq .., Dev.health_cores .., Dev.health_mem ..⟩
  case dv => rw [Dev.dv, Dev.health_dvfs]; exact hrest

/-- Mode, pin and mode in force are those written, and no stack's target lies above the mode's ceiling. -/
theorem schMode_writes (h : s.here.regOpen R.SCH_MODE = true) (v : Word) :
    Answers (.schModeWrite v) s fun t => t = { s with d := { s.here with regs := t.d.regs, dvfs := t.d.dvfs } } ∧
      t.d.fld R.SCH_MODE F.SCH_MODE_mode = v.toNat % 4 ∧ t.d.fld R.SCH_MODE F.SCH_MODE_pin = v.toNat / 4 % 2 ∧
      t.d.mode = modeOf (v.toNat % 4) ∧ ∀ k < 2, (t.d.dv k).target = min (modeCeil (modeOf (v.toNat % 4))) (s.here.dv k).target := by
  obtain ⟨hmode, hpin, hact⟩ := selectMode_spec s.here (mode := v.toNat % 4) (pin := v.toNat / 4 % 2) (by omega) (by omega)
  obtain ⟨r, hregs⟩ := selectMode_regs s.here (v.toNat % 4) (v.toNat / 4 % 2)
  refine ⟨_, exec_schModeWrite h v, ?_⟩
  rw [setMode_eq]
  generalize s.here.selectMode (v.toNat % 4) (v.toNat / 4 % 2) = d at *
  generalize modeCeil (modeOf (v.toNat % 4)) = c
  have h0 := dvfsOnly_lowerTo d c 0
  have h1 := dvfsOnly_lowerTo (d.lowerTo c 0) c 1
  have hmode' : ∀ f, ((d.lowerTo c 0).lowerTo c 1).fld R.SCH_MODE f = d.fld R.SCH_MODE f := fun f =>
    congrArg f.get ((h1.regs _ (by decide) (by decide)).trans (h0.regs _ (by decide) (by decide)))
  have hdv : ∀ k, d.dv k = s.here.dv k := fun k => by rw [hregs]; rfl
  refine ⟨?rest, (hmode' _).trans hmode, (hmode' _).trans hpin, ((h1.gov _ (by decide)).trans (h0.gov _ (by decide))).trans hact, fun k hk => ?target⟩
  case rest =>
    refine congrArg (fun d => ({ s with d := d } : State)) ?_
    show (d.lowerTo c 0).lowerTo c 1 = _
    rw [h1.rest, h0.rest, hregs]
  case target =>
    obtain rfl | rfl : k = 0 ∨ k = 1 := by omega
    · rw [h1.dv (by decide), lowerTo_target, hdv]
    · rw [lowerTo_target, h0.dv (by decide), hdv]

/-- A tick carries device time, takes the power of the rails into the average and reports it. -/
theorem governor_ticks (hwork : s.d.working = true) {rails : List (Nat × Nat)} (h : rails.length = 8) :
    Answers (.governorTick (rails.map some)) s fun t => t.tb.time = max s.tb.time (s.d.gov.lastTick + 100000) ∧
      t.d.gov.lastTick = t.tb.time ∧
      (let w := 400 + ((rails.map fun r => r.1 * r.2 / 1000).foldl (· + ·) 0)
       let l := (w :: s.d.gov.samples).take 10
       t.d.gov.samples = l ∧ t.d.fld R.SCH_GOV_STATUS F.SCH_GOV_STATUS_power = min 65535 (l.foldl (· + ·) 0 / l.length / 10)) ∧
      t.d.cores = s.d.cores ∧ t.d.mem = s.d.mem := by
  obtain ⟨hsamples, htick, hpower, hcores, hmem⟩ := govTick_spec (s.reach (s.d.gov.lastTick + 100000)).here (rails.map some)
  rw [Dev.tickSamples, railPower_read _ h] at hsamples hpower
  exact ⟨_, exec_governorTick hwork _, rfl, htick, ⟨hsamples, hpower⟩, hcores, hmem⟩

end

/-- Settles O20: an admission touches the scheduler only where it marks its frame; a slot served takes the first scratch table; a tick is its
sample and what the stacks' steps leave of it; a DVFS step ends, is tried again or stops; and a mode is selected before its ceiling is applied. -/
theorem admissionsAndModes : Obligations.AdmissionsAndModes := by
  unfold Obligations.AdmissionsAndModes
  refine ⟨fun s f st hwork hfind hturn _ hf => ?step, fun s r y t hwork hr hy hslots hscratch hnone hfit => ?readout,
    fun s rails hwork h => governor_ticks hwork h, fun s k n m again hk hn hm h => ⟨dvfsStep_ends hk hn h, ?retry, ?stop⟩,
    fun s v h => schMode_writes h v⟩
  case step =>
    obtain ⟨hframe, hcores⟩ := admitStep_admits hf
    exact ⟨_, exec_stepAdmission hwork hfind hturn, rfl, hframe, hcores⟩
  case readout =>
    intro a e gone hlen
    obtain ⟨g, honly, hserved⟩ := takeHolds_serves hr hslots hscratch hfit hlen
    have hexec := exec_readoutAdmission hwork hr hy (by simp [hslots]) hnone
    rw [hserved] at hexec
    exact ⟨_, hexec, rfl, rfl, honly.sameSched.cores⟩
  case retry =>
    rintro rfl
    have hdv : s.here.dv k = ⟨m, some (n, false)⟩ := by rw [Dev.dv, mgetD, h]; rfl
    rw [exec_dvfsStepComplete hk, dvfsEnd_retries hdv]
    rfl
  case stop =>
    rintro rfl
    exact dvfsStep_stops hk (by rw [Dev.dv, mgetD, h]; rfl)

end Sys2Proof.Machine
end

section
/-!
SUPPORT. States that the model runs and of which hypotheses hold: a stack on its way between points, a mode written, a tick, and a step and a readout
that wait (O20), and REVISIT and READOUT of a stream that keeps one frame (O34).
-/

namespace Sys2Proof.Machine

/-! ### A stack on its way to point 2 -/

/-- Stack 0 stands at point 0 and steps to point 1 on its way to point 2. -/
def steppingState (again : Bool) : State := { d := { regs := resetRegs, pwr := { booted := true }, dvfs := [(0, ⟨2, some (1, again)⟩)] } }

theorem steppingState_opOf (again : Bool) : (steppingState again).here.opOf 0 = 0 := by
  have hregs : (steppingState again).here.regs = resetRegs := rfl
  rw [Dev.opOf, Dev.fld, Dev.reg, hregs]
  decide

/-- In range, the stack stands at point 1 and goes on to point 2. -/
theorem steppingState_goesOn (again : Bool) : Answers (.dvfsStepComplete 0 true) (steppingState again) fun t =>
    t.d.dv 0 = ⟨2, some (2, false)⟩ ∧ t.d.opOf 0 = 1 := by
  obtain ⟨t, hexec, -, hstep, hpoint, -⟩ :=
    (admissionsAndModes.2.2.2.1 (steppingState again) 0 1 2 again (by decide) (by decide) (by decide) rfl).1
  exact ⟨t, hexec, hstep, hpoint⟩

/-- Out of range for the second time, it stays at point 0. -/
theorem steppingState_stops : Answers (.dvfsStepComplete 0 false) (steppingState true) fun t => t.d.dv 0 = ⟨0, none⟩ ∧ t.d.que.evSeq = 1 := by
  obtain ⟨t, hexec, -, hstep, -, -, hevent, -⟩ :=
    (admissionsAndModes.2.2.2.1 (steppingState true) 0 1 2 true (by decide) (by decide) (by decide) rfl).2.2 rfl
  rw [steppingState_opOf] at hstep
  exact ⟨t, hexec, hstep, hevent⟩

/-- Mode 2 has ceiling 1, which becomes the target. -/
theorem steppingState_capped : Answers (.schModeWrite 2) (steppingState false) fun t => t.d.mode = 2 ∧ (t.d.dv 0).target = 1 := by
  obtain ⟨t, hexec, -, -, -, hmode, htarget⟩ := admissionsAndModes.2.2.2.2 (steppingState false) 2 (by decide)
  exact ⟨t, hexec, hmode, htarget 0 (by decide)⟩

/-! ### A tick -/

/-- At its first tick a device whose eight rails carry 1 W each has drawn 8.4 W. -/
theorem firstTick_reports : Answers (.governorTick ((List.replicate 8 (1000, 1000)).map some)) { d := { pwr := { phase := .ready } } } fun t =>
    t.tb.time = 100000 ∧ t.d.gov.samples = [8400] ∧ t.d.fld R.SCH_GOV_STATUS F.SCH_GOV_STATUS_power = 840 := by
  obtain ⟨t, hexec, htime, -, ⟨hsamples, hpower⟩, -⟩ :=
    admissionsAndModes.2.2.1 { d := { pwr := { phase := .ready } } } (List.replicate 8 (1000, 1000)) rfl rfl
  exact ⟨t, hexec, htime, hsamples, hpower⟩

/-! ### A step that waits -/

/-- Frame 7 of stream 0, whose step waits. -/
def readyFrame : Frame := { stream := 0, num := 7, ep := ⟨0, {}, {}, {}, []⟩, stamp := 0, st := .ready }

/-- The context of the stream has one set. -/
def admissionState : State :=
  { d := { pwr := { phase := .ready }, streams := [(0, { kind := 0, ring := 0, chunkPool := 0, recPool := 0 })],
           sets := [{ ctx := 0, req := 0, base := 0x8000000 }], sched := { frames := [readyFrame] } } }

theorem admissionState_admits : Answers (.stepAdmission 0) admissionState fun t =>
    ∃ recs, t.d.frame? 0 7 false = some { readyFrame with st := .admitted, ahead := recs } := by
  have hnone : (admissionState.here.sched.frames.any fun g => admissionState.here.admBefore g readyFrame) = false := by
    show [readyFrame].any (fun g => admissionState.here.admBefore g readyFrame) = false
    simp [Dev.admBefore]
  obtain ⟨t, hexec, -, hframe, -⟩ := admissionsAndModes.1 admissionState readyFrame _ rfl rfl hnone rfl rfl
  exact ⟨t, hexec, hframe⟩

/-! ### A readout that waits -/

/-- One request of stream 0 waits, for the positions of frame 8 in slot 0. -/
def waitingReadout : Readout := { stream := 0, frame := 8, q := 1, cid := 0, slots := [(0x10000, 0)], scratch := [], emitted := 0 }

/-- A set at 0x10000 with readout rings of two entries at 0x50000; slot 0 of stream 0 is live, and its entry of frame 8 has two positions. -/
def readoutState : State :=
  { d := { pwr := { phase := .ready }, sets := [{ ctx := 0, req := 0, base := 0x10000 }], readouts := [waitingReadout],
           mem := { cells := [(0x10007, 1), (0x1000E, 5), (0x300FC, 1), (0x50000, 8), (0x50004, 64), (0x50011, 1)] } } }

theorem readoutState_serves : Answers (.readoutAdmission 0) readoutState fun t =>
    t.d.readouts = [{ waitingReadout with slots := [], scratch := [{ base := 0x10000, tbl := 0, slot := 0 }] }] := by
  obtain ⟨t, hexec, -, hserved, -⟩ := admissionsAndModes.2.1 readoutState waitingReadout _ 0 rfl rfl rfl rfl rfl rfl (by decide) (by decide)
  exact ⟨t, hexec, hserved⟩

/-! ### A stream that keeps one frame -/

/-- A command of stream 0 and context 0 on frame 9. -/
def frameEntry (op : Nat) : List Byte := BitVec.ofNat 8 op :: zeros 19 ++ BitVec.ofNat 8 9 :: zeros 43

def entrySq : Sq := { base := 0, size := 4, cq := 1, tail := 1 }

def entryCq : Cq := { base := 0, size := 4, vector := 0 }

/-- A context without weights or kernels. -/
def bareCtx : Ctx :=
  { image := 0, variant := 0, firstKernel := 0, kernelCount := 0, scalars := [], banks := [], code := [], codeInit := 0, onStacks := [], lc := false,
    deadline := 0, margin := 0, fallback := none, hold := 0, tagNos := [], descOff := 0, descLen := 0 }

/-- Stream 0, in its first epoch, keeps in its revisit cache the frame given. -/
def keepingStream (frame : Nat) : Stream :=
  { kind := 0, ring := 0, chunkPool := 0, recPool := 0, cur := some ⟨0, {}, {}, {}, []⟩,
    revisits := [{ frame := frame, epoch := 0, stamp := 3, handle := 5, crops := 1 }] }

/-- Queue 1 has one entry, and no frame waits. -/
def keepingState (frame : Nat) : State :=
  { d := { regs := mput resetRegs R.HIF_LINK_STATUS 0x80, pwr := { phase := .ready, booted := true }, host := { cfg := { command := 4 } },
           ctxs := [(0, bareCtx)], streams := [(0, keepingStream frame)], que := { sqs := [(1, entrySq)], cqs := [(1, entryCq)] } } }

theorem keepingState_accepts (frame : Nat) {op : Nat} (h : op = 0x27 ∨ op = 0x28) :
    (keepingState frame).here.accepts op 1 (frameEntry op) entrySq entryCq := by
  have hregs : (keepingState frame).here.regs = mput resetRegs R.HIF_LINK_STATUS 0x80 := rfl
  have hlink : (keepingState frame).here.reg R.HIF_LINK_STATUS = 0x80 := by
    rw [Dev.reg, hregs]
    decide
  have hadmin : (keepingState frame).here.reg R.QUE_ADMIN_CFG = 0 := by
    rw [Dev.reg, hregs]
    decide
  have hup : (keepingState frame).here.linkUp = true := by
    have hmaster : (keepingState frame).here.host.cfg.command = 4 := rfl
    rw [Dev.linkUp, Dev.flag, Dev.fld, hlink, hmaster]
    decide
  refine ⟨?fetch, rfl, rfl, ?op, ?ok, by simp [keepingState, State.here], by rw [Dev.fld, hadmin]; decide⟩
  case fetch => simp only [Dev.canFetch, hup]; rfl
  case op => obtain rfl | rfl := h <;> rfl
  case ok => obtain rfl | rfl := h <;> decide

/-- REVISIT of the frame kept puts it behind the frames. -/
theorem keepingState_revisits : Answers (.revisit 1 (frameEntry 0x27)) (keepingState 9) fun t =>
    ∃ f, t.d.sched.frames = [f] ∧ f.num = 9 ∧ f.revisit = true ∧ f.buf = some 5 ∧ f.stamp = 3 := by
  obtain ⟨t, hexec, -, -, ⟨f, hframes, -, hnum, hrevisit, -, -, hbuf, -, hstamp, -⟩, -⟩ :=
    (revisitAndReadout.1 (keepingState 9) 1 (frameEntry 0x27) entrySq entryCq (keepingStream 9) bareCtx _ (keepingState_accepts 9 (.inl rfl))
      rfl rfl rfl rfl).2 _ rfl rfl
  exact ⟨t, hexec, f, hframes, hnum, hrevisit, hbuf, hstamp⟩

/-- REVISIT of a frame that is not kept is answered NOT_FOUND. -/
theorem keepingState_forgets : Answers (.revisit 1 (frameEntry 0x27)) (keepingState 8) fun t =>
    (keepingState 8).here.answered t.d 1 (frameEntry 0x27) entrySq entryCq 0x80 [] := by
  obtain ⟨t, hexec, -, hanswer⟩ :=
    (revisitAndReadout.1 (keepingState 8) 1 (frameEntry 0x27) entrySq entryCq (keepingStream 8) bareCtx _ (keepingState_accepts 8 (.inl rfl))
      rfl rfl rfl rfl).1 (by simp [keepingStream, frameEntry, le, byteAt, zeros])
  exact ⟨t, hexec, hanswer⟩

/-- READOUT without a sequence set is answered NOT_FOUND. -/
theorem keepingState_readout : Answers (.readout 1 (frameEntry 0x28)) (keepingState 9) fun t =>
    (keepingState 9).here.answered t.d 1 (frameEntry 0x28) entrySq entryCq 0x80 [] := by
  obtain ⟨t, hexec, -, hanswer⟩ := (revisitAndReadout.2 (keepingState 9) 1 (frameEntry 0x28) entrySq entryCq (keepingStream 9)
    (keepingState_accepts 9 (.inr rfl)) rfl).1 rfl
  exact ⟨t, hexec, hanswer⟩

end Sys2Proof.Machine
end

section
/-!
SUPPORT. Memory keeps its canonical form (O60): what every function of the device that may write memory does to it, one lemma a function. The
lemmas follow the functions' own branches. Only the functions under Memory and a few at the side of them (the initialisation of DRAM, the loss of
the stores, the copy of a codeword) write the maps themselves.
-/

namespace Sys2Proof.Machine

/-- Memory is in its canonical form. -/
def Dev.MemWf (d : Dev) : Prop := d.mem.wf = true

/-- The same of an admission's device. -/
def Adm.MemWf (x : Adm) : Prop := x.d.MemWf

/-! ### Updates, branches, pairs and folds -/

section

variable {d e a b : Dev}

theorem Dev.MemWf.congr (he : e.mem = d.mem) (h : d.MemWf) : e.MemWf := (congrArg Memory.wf he).trans h

/-- A device that has d's memory, whatever its other fields. -/
theorem Dev.MemWf.upd {now freeCtr regs cores stool home bpm images ctxs streams sets readouts engines jpeg pipes ports sched gov dvfs host que
    dram recov fab pwr clk pins nv otp} (h : d.MemWf) :
    Dev.MemWf ⟨now, freeCtr, d.mem, regs, cores, stool, home, bpm, images, ctxs, streams, sets, readouts, engines, jpeg, pipes, ports, sched, gov,
      dvfs, host, que, dram, recov, fab, pwr, clk, pins, nv, otp⟩ := h

theorem Dev.MemWf.of_empty (h : d.mem = {}) : d.MemWf := by
  unfold Dev.MemWf
  rw [h]
  decide

theorem Dev.MemWf.ite {c : Prop} [Decidable c] (ha : a.MemWf) (hb : b.MemWf) : (if c then a else b).MemWf := by
  split
  · exact ha
  · exact hb

section

variable {α β : Type}

theorem Dev.MemWf.pairSnd {x : α} (h : d.MemWf) : (x, d).2.MemWf := h
theorem Dev.MemWf.pairMid {x : α} {y : β} (h : d.MemWf) : (x, d, y).2.1.MemWf := h

theorem Dev.MemWf.iteSnd {c : Prop} [Decidable c] {p q : α × Dev} (hp : p.2.MemWf) (hq : q.2.MemWf) : (if c then p else q).2.MemWf := by
  split
  · exact hp
  · exact hq

theorem Dev.MemWf.iteMid {c : Prop} [Decidable c] {p q : α × Dev × β} (hp : p.2.1.MemWf) (hq : q.2.1.MemWf) :
    (if c then p else q).2.1.MemWf := by
  split
  · exact hp
  · exact hq

theorem Dev.MemWf.snd {p : α × Dev} {x : α} (heq : p = (x, e)) (h : p.2.MemWf) : e.MemWf := by
  rw [heq] at h
  exact h

theorem Dev.MemWf.mid {p : α × Dev × β} {x : α} {y : β} (heq : p = (x, e, y)) (h : p.2.1.MemWf) : e.MemWf := by
  rw [heq] at h
  exact h

theorem Dev.MemWf.foldl {f : Dev → β → Dev} (hf : ∀ d x, d.MemWf → (f d x).MemWf) {l : List β} (h : d.MemWf) : (l.foldl f d).MemWf :=
  foldl_memWf _ hf _ _ h

theorem Dev.MemWf.foldlPair {f : α × Dev → β → α × Dev} (hf : ∀ p x, p.2.MemWf → (f p x).2.MemWf) {l : List β} {p : α × Dev}
    (h : p.2.MemWf) : (l.foldl f p).2.MemWf := by
  induction l generalizing p with
  | nil => exact h
  | cons x l ih => exact ih (hf _ _ h)

theorem Adm.MemWf.foldl {f : Adm → β → Adm} (hf : ∀ x y, x.MemWf → (f x y).MemWf) {l : List β} {x : Adm} (h : x.MemWf) :
    (l.foldl f x).MemWf := by
  induction l generalizing x with
  | nil => exact h
  | cons y l ih => exact ih (hf _ _ h)

/-- A map that is filled entry by entry keeps its form. -/
theorem foldl_mset_wf [DecidableEq α] {z : α} (l : List (Nat × α)) {m : SMap α} (hwf : SMap.wf m = true) (hne : m.all (·.2 ≠ z) = true) :
    SMap.wf (l.foldl (fun m x => mset m x.1 z x.2) m) = true ∧ (l.foldl (fun m x => mset m x.1 z x.2) m).all (·.2 ≠ z) = true := by
  induction l generalizing m with
  | nil => exact ⟨hwf, hne⟩
  | cons x l ih => exact ih (mset_wf hwf _ _ _) (mset_ne hne _ _)

end

end

section

variable {d e : Dev} (h : d.MemWf)
include h

/-! ### Registers -/

theorem Dev.MemWf.setReg {off v : Nat} : (d.setReg off v).MemWf := .congr (Dev.setReg_mem ..) h
theorem Dev.MemWf.setFld {off : Nat} {f : Fld} {n : Nat} : (d.setFld off f n).MemWf := .congr (Dev.setFld_mem ..) h
theorem Dev.MemWf.satFld {off : Nat} {f : Fld} {n : Nat} : (d.satFld off f n).MemWf := .congr (Dev.satFld_mem ..) h
theorem Dev.MemWf.wrapFld {off : Nat} {f : Fld} {n : Nat} : (d.wrapFld off f n).MemWf := .congr (Dev.wrapFld_mem ..) h

theorem Dev.MemWf.busWrite {off v : Nat} : (d.busWrite off v).MemWf := by
  unfold Dev.busWrite
  split
  · exact h
  · exact .setReg h

theorem Dev.MemWf.fresh : d.fresh.2.MemWf := .upd h

/-! ### Log, records and vectors -/

theorem Dev.MemWf.logRoll : d.logRoll.MemWf := .congr (Dev.logRoll_mem ..) h
theorem Dev.MemWf.logEv {e : LogEntry} : (d.logEv e).MemWf := .congr (Dev.logEv_mem ..) h
theorem Dev.MemWf.send {w : DevWrite} : (d.send w).MemWf := .congr (Dev.send_mem ..) h
theorem Dev.MemWf.raiseVec {v : Nat} : (d.raiseVec v).MemWf := .congr (Dev.raiseVec_mem ..) h
theorem Dev.MemWf.hifErr {f : Fld} : (d.hifErr f).MemWf := .congr (Dev.hifErr_mem ..) h
theorem Dev.MemWf.postRec {r : WaitRec} : (d.postRec r).MemWf := .upd h

theorem Dev.MemWf.health {event code unit detA detB : Nat} {extra : List Byte} : (d.health event code unit detA detB extra).MemWf :=
  .congr (Dev.health_mem ..) h

theorem Dev.MemWf.replaceCause {b unit detA detB : Nat} : (d.replaceCause b unit detA detB).MemWf := .congr (Dev.replaceCause_mem ..) h

theorem Dev.MemWf.writeCpl {q cid status : Nat} {result : List Byte} {s : Sq} {c : Cq} : (d.writeCpl q cid status result s c).MemWf :=
  .raiseVec (.upd (.send h))

theorem Dev.MemWf.postCpl {q cid status : Nat} {result : List Byte} : (d.postCpl q cid status result).MemWf := by
  unfold Dev.postCpl
  split
  · exact h
  · split
    · exact h
    · exact .ite (.writeCpl h) (.upd h)

theorem Dev.MemWf.adminStart : d.adminStart.MemWf := .ite (.upd (.setFld h)) h
theorem Dev.MemWf.adminSettle : d.adminSettle.MemWf := .ite (.ite (.adminStart (.setFld (.upd (.setFld h)))) (.upd (.setFld h))) h

theorem Dev.MemWf.deleteSettle {q : Nat} : (d.deleteSettle q).MemWf := by
  unfold Dev.deleteSettle
  split
  · exact h
  · exact .ite h (.postCpl (.upd h))

theorem Dev.MemWf.complete {q cid status : Nat} {result : List Byte} : (d.complete q cid status result).MemWf :=
  .adminSettle (.deleteSettle (.postCpl h))

/-! ### Memory -/

theorem Dev.MemWf.dramReplace {c r : Nat} : (d.dramReplace c r).MemWf := .congr (Dev.dramReplace_mem ..) h
theorem Dev.MemWf.spareCheck {c r : Nat} : (d.spareCheck c r).MemWf := .congr (Dev.spareCheck_mem ..) h
theorem Dev.MemWf.recordRank {c : Nat} : (d.recordRank c).MemWf := .upd h
theorem Dev.MemWf.noteCw {badBack : Bool} {cw : Nat} : (d.noteCw badBack cw).MemWf := Dev.noteCw_memWf h badBack cw
theorem Dev.MemWf.noteRead {as : List Nat} : (d.noteRead as).MemWf := Dev.noteRead_memWf h as
theorem Dev.MemWf.writeBack {cw : Nat} : (d.writeBack cw).MemWf := Dev.writeBack_memWf h cw
theorem Dev.MemWf.writeRun {a : Nat} {bs : List Byte} : (d.writeRun a bs).MemWf := Dev.writeRun_memWf h a bs
theorem Dev.MemWf.writeCells {ws : List (Nat × Byte)} : (d.writeCells ws).MemWf := Dev.writeCells_memWf h ws
theorem Dev.MemWf.setPoison {as : List Nat} : (d.setPoison as).MemWf := Dev.setPoison_memWf h as
theorem Dev.MemWf.clear {a n : Nat} : (d.clear a n).MemWf := Dev.clear_memWf h a n

/-! ### Buffer pools -/

theorem Dev.MemWf.setBuf {h' : Nat} {b : Buf} : (d.setBuf h' b).MemWf := .upd h
theorem Dev.MemWf.lowFell {p : Nat} : (d.lowFell p).MemWf := .ite h (.ite (.setFld h) (.health (.upd (.setFld h))))
theorem Dev.MemWf.lowRose {p : Nat} : (d.lowRose p).MemWf := .ite (.upd h) h
theorem Dev.MemWf.startRebuild {p : Nat} : (d.startRebuild p).MemWf := .upd (.setFld h)
theorem Dev.MemWf.enablePool {p : Nat} : (d.enablePool p).MemWf := .ite (.startRebuild (.upd h)) (.setFld h)
theorem Dev.MemWf.stopCheck {p : Nat} : (d.stopCheck p).MemWf := .ite (.ite (.enablePool (.setFld (.upd (.setFld h)))) (.upd (.setFld h))) h
theorem Dev.MemWf.pushBuf {h' : Nat} : (d.pushBuf h').MemWf := .stopCheck (.lowRose (.ite (.upd (.upd (.setBuf h))) (.upd (.writeRun (.setBuf h)))))

theorem Dev.MemWf.popOne {p n : Nat} : (d.popOne p n).2.MemWf := by
  unfold Dev.popOne
  refine .iteSnd h ?_
  split
  · exact h
  · exact .iteSnd (.pairSnd (.lowFell (.setBuf (.upd (.noteRead h)))))
      (.pairSnd (.startRebuild (.health (.setFld (.ite (.setBuf (.noteRead h)) (.noteRead h))))))

theorem Dev.MemWf.popChain {n k p : Nat} : (d.popChain n k p).2.MemWf := by
  induction k generalizing d p with
  | zero => exact h
  | succ k ih =>
    unfold Dev.popChain
    dsimp only
    split
    · next e heq => exact .snd heq (.popOne h)
    · next e heq => exact ih (.snd heq (.popOne h))

theorem Dev.MemWf.pop {p n : Nat} : (d.pop p n).2.MemWf := by
  unfold Dev.pop
  split
  · next e heq => exact .snd heq (.popOne h)
  · next e heq =>
    have he : e.MemWf := .snd heq (.popOne h)
    split
    · split
      · next g hg => exact .satFld (.snd hg (.popChain he))
      · next g hg => exact .snd hg (.popChain he)
    · exact he

theorem Dev.MemWf.refInc {h' : Nat} : (d.refInc h').MemWf := by
  unfold Dev.refInc
  split
  · exact .ite (.setBuf h) h
  · exact h

theorem Dev.MemWf.refDec {h' : Nat} : (d.refDec h').MemWf := by
  unfold Dev.refDec
  split
  · exact .ite (.ite (.pushBuf h) (.setBuf h)) h
  · exact h

theorem Dev.MemWf.unAlloc {h' : Nat} : (d.unAlloc h').MemWf := by
  unfold Dev.unAlloc
  split
  · exact .ite (.pushBuf h) h
  · exact h

theorem Dev.MemWf.unInc {h' : Nat} : (d.unInc h').MemWf := by
  unfold Dev.unInc
  split
  · exact .ite (.setBuf h) h
  · exact h

theorem Dev.MemWf.relinkDone {p : Nat} : (d.relinkDone p).MemWf := .upd (.setFld (.foldl (fun _ _ h => .writeRun h) h))

theorem Dev.MemWf.poolCtl {p : Nat} {en : Bool} : (d.poolCtl p en).MemWf := by
  unfold Dev.poolCtl
  extract_lets e st
  have he : e.MemWf := .setFld h
  exact .ite (.ite (.enablePool he) (.ite (.setFld he) he)) (.ite (.stopCheck (.setFld he)) (.ite (.setFld he) he))

/-! ### Cores -/

theorem Dev.MemWf.setCore {c : Nat} {k : Core} : (d.setCore c k).MemWf := .upd h
theorem Dev.MemWf.modCore {c : Nat} {f : Core → Core} : (d.modCore c f).MemWf := .setCore h

theorem Dev.MemWf.setFlags {c : Nat} {r : Res} : (d.setFlags c r).MemWf :=
  .ite (.setFld (.ite (.setFld (.ite (.setFld h) h)) (.ite (.setFld h) h))) (.ite (.setFld (.ite (.setFld h) h)) (.ite (.setFld h) h))

theorem Dev.MemWf.kvappCommit {k : Core} {w : IWord} {s : List Word} {frame : Nat} : (d.kvappCommit k w s frame).MemWf := by
  unfold Dev.kvappCommit
  split
  · extract_lets n t L copy old r1 flags1 r2 flags2 tail page at' copied rows zerosAt mv ws pz slot status reads
      moved tailed fresh flagged marked counted
    have hmoved : moved.MemWf := .setPoison (.writeCells (.noteRead h))
    have htailed : tailed.MemWf := .ite (.writeRun hmoved) hmoved
    have hfresh : fresh.MemWf := .ite (.writeRun htailed) htailed
    have hmarked : marked.MemWf := .ite (.writeRun (.writeRun (.writeRun hfresh))) (.writeRun hfresh)
    exact .ite (.refDec (.writeRun hmarked)) (.writeRun hmarked)
  · exact h

/-! ### Tags, shares, frames and kernels -/

theorem Dev.MemWf.setHomeTag {key : Nat} {v : TagState} : (d.setHomeTag key v).MemWf := .upd h
theorem Dev.MemWf.setTag {c : Nat} {t : TagRef} {v : TagState} : (d.setTag c t v).MemWf := .ite (.modCore h) (.setHomeTag h)
theorem Dev.MemWf.syncShares : d.syncShares.MemWf := .foldl (fun _ _ h => .setFld (.setFld (.setFld h))) h
theorem Dev.MemWf.shareCheck : d.shareCheck.MemWf := .syncShares (.foldl (fun _ _ h => .setHomeTag h) (.upd h))
theorem Dev.MemWf.modShare {ctx key : Nat} {f : Share → Share} : (d.modShare ctx key f).MemWf := .upd h

theorem Dev.MemWf.syncStool {n : Nat} : (d.syncStool n).MemWf := by
  unfold Dev.syncStool
  dsimp only
  split
  · exact .setFld (.setFld (.setFld (.setFld h)))
  · exact .setFld (.setFld h)

theorem Dev.MemWf.stoolKeep {n : Nat} {p : Nat × Nat → Bool} : (d.stoolKeep n p).MemWf := .syncStool (.upd h)

theorem Dev.MemWf.release {stream num : Nat} {recs : List WaitRec} : (d.release stream num recs).MemWf := by
  unfold Dev.release
  split
  · exact .foldl (fun _ _ h => .postRec h) h
  · exact .foldl (fun _ _ h => .postRec h) (.upd h)

theorem Dev.MemWf.voidNum {stream num stamp epoch reason code frac : Nat} {unauth : Bool} {ahead : List (List Byte)} :
    (d.voidNum stream num stamp epoch reason code frac unauth ahead).MemWf :=
  .release h

theorem Dev.MemWf.modFrame {stream num : Nat} {rev : Bool} {g : Frame → Frame} : (d.modFrame stream num rev g).MemWf := .upd h
theorem Dev.MemWf.dropFrame {f : Frame} : (d.dropFrame f).MemWf := .upd h

theorem Dev.MemWf.freeRecs {rs : List Rec} : (d.freeRecs rs).MemWf := by
  unfold Dev.freeRecs
  refine .foldl (fun d x h => ?_) h
  split
  · exact .refDec h
  · exact h

theorem Dev.MemWf.freeFrameBuf {f : Frame} : (d.freeFrameBuf f).MemWf := by
  unfold Dev.freeFrameBuf
  split
  · exact .refDec h
  · exact h

theorem Dev.MemWf.voidFrame {f : Frame} {reason code frac : Nat} : (d.voidFrame f reason code frac).MemWf :=
  .ite (.postRec (.dropFrame (.freeFrameBuf (.freeRecs h)))) (.voidNum (.dropFrame (.freeFrameBuf (.freeRecs h))))

theorem Dev.MemWf.dropRefs {c : Nat} : (d.dropRefs c).MemWf := .foldl (fun _ _ h => .refDec h) (.upd h)

theorem Dev.MemWf.undoJournal {c : Nat} : (d.undoJournal c).MemWf := by
  unfold Dev.undoJournal
  refine .modCore (.foldl (fun d x h => ?_) h)
  split
  · exact .unAlloc h
  · exact .unInc h
  · exact h

theorem Dev.MemWf.restoreTags {c : Nat} : (d.restoreTags c).MemWf := by
  unfold Dev.restoreTags
  split
  · exact .foldl (fun _ _ h => .setHomeTag h) h
  · exact h

theorem Dev.MemWf.idleBits {c : Nat} : (d.idleBits c).MemWf := .setFld (.setFld (.setFld h))
theorem Dev.MemWf.forget {c : Nat} : (d.forget c).MemWf := .upd h
theorem Dev.MemWf.freeCore {c : Nat} : (d.freeCore c).MemWf := .forget (.idleBits (.modCore h))
theorem Dev.MemWf.abortCore {c : Nat} : (d.abortCore c).MemWf := .freeCore (.stoolKeep (.undoJournal (.dropRefs (.restoreTags h))))
theorem Dev.MemWf.dropShares {ctx : Nat} : (d.dropShares ctx).MemWf := .syncShares (.upd h)

theorem Dev.MemWf.accBoundary {c : Nat} : (d.accBoundary c).MemWf := by
  unfold Dev.accBoundary
  split
  · exact h
  · exact .ite (.logEv (.setFld h)) h

theorem Dev.MemWf.endClaiming {ctx code : Nat} : (d.endClaiming ctx code).MemWf := by
  unfold Dev.endClaiming
  refine .ite h ?_
  refine .foldl (fun d x h => ?_) ?_
  · exact .voidFrame h
  · refine .dropShares (.upd (.foldl (fun d x h => ?_) h))
    split
    · exact .ite (.abortCore h) h
    · exact h

theorem Dev.MemWf.markFaulted {c code kernel : Nat} : (d.markFaulted c code kernel).MemWf :=
  .ite h (.foldl (fun _ _ h => .voidFrame h) (.endClaiming (.health (.setReg h))))

theorem Dev.MemWf.startReplay {c : Nat} {cp : Ckpt} : (d.startReplay c cp).MemWf := .upd (.setFld (.setFld (.setFld (.setFld (.modCore h)))))
theorem Dev.MemWf.syncRecov : d.syncRecov.MemWf := .setFld (.setFld h)
theorem Dev.MemWf.putReset {k : Nat} {r : ResetRun} : (d.putReset k r).MemWf := .upd h
theorem Dev.MemWf.recoveryEnd {r : ResetRun} : (d.recoveryEnd r).MemWf := .syncRecov (.health (.foldl (fun _ _ h => .refDec h) (.ite h (.logEv h))))

theorem Dev.MemWf.replayNext {k : Nat} : (d.replayNext k).MemWf := by
  unfold Dev.replayNext
  split
  · exact h
  · refine .ite h ?_
    dsimp only
    split
    · exact .syncRecov (.startReplay (.putReset h))
    · exact .ite (.recoveryEnd (.putReset h)) (.syncRecov (.putReset h))

theorem Dev.MemWf.abortKernel {c : Nat} {code : Code} {addr : Nat} : (d.abortKernel c code addr).MemWf := by
  unfold Dev.abortKernel
  split
  · exact h
  · extract_lets pc parts aborted dropped marked logged
    have haborted : aborted.MemWf := .foldl (fun _ _ h => .abortCore (.accBoundary h)) h
    have hlogged : logged.MemWf := .logEv (.setFld (.ite (.dropShares haborted) haborted))
    refine .ite (.replayNext hlogged) ?_
    split
    · exact .voidFrame hlogged
    · exact hlogged

theorem Dev.MemWf.leavePoisoned {a : Nat} : (d.leavePoisoned a).MemWf := .foldl (fun _ _ h => .foldl (fun _ _ h => .ite (.writeRun h) h) h) h

theorem Dev.MemWf.poisonFollow {a : Nat} : (d.poisonFollow a).MemWf := by
  unfold Dev.poisonFollow
  split
  · exact .upd h
  · exact .leavePoisoned h

theorem Dev.MemWf.fault {c : Nat} {code : Code} {addr : Nat} : (d.fault c code addr).MemWf := .ite (.poisonFollow (.abortKernel h)) (.abortKernel h)

/-! ### Operating points -/

theorem Dev.MemWf.setOp {k n : Nat} : (d.setOp k n).MemWf := .setFld (.setFld h)
theorem Dev.MemWf.setMv {k : Nat} : (d.setMv k).MemWf := .setFld h
theorem Dev.MemWf.setDv {k : Nat} {v : Dvfs} : (d.setDv k v).MemWf := .upd h
theorem Dev.MemWf.dvfsStart {k : Nat} : (d.dvfsStart k).MemWf := .congr (Dev.dvfsStart_mem ..) h
theorem Dev.MemWf.dvfsRequest {k target : Nat} : (d.dvfsRequest k target).MemWf := .congr (Dev.dvfsRequest_mem ..) h

theorem Dev.MemWf.dvfsEnd {k : Nat} {inRange : Bool} : (d.dvfsEnd k inRange).MemWf := by
  unfold Dev.dvfsEnd
  dsimp only
  split
  · exact h
  · exact .ite (.setDv h) (.ite (.dvfsStart (.setDv (.setMv (.setOp (.setFld h))))) (.health (.setDv (.setFld h))))

theorem Dev.MemWf.setMode {mode pin : Nat} : (d.setMode mode pin).MemWf :=
  .foldl (fun _ _ h => .ite (.dvfsRequest h) h) (.setFld (.setFld (.setFld h)))

/-! ### Issue and completion of instructions -/

theorem Dev.MemWf.tokAdd {c t n : Nat} : (d.tokAdd c t n).MemWf := .modCore (.ite (.setFld h) h)
theorem Dev.MemWf.tokSub {c t n : Nat} : (d.tokSub c t n).MemWf := .modCore h
theorem Dev.MemWf.takeWait {c : Nat} {w : IWord} : (d.takeWait c w).MemWf := .ite (.tokSub h) h
theorem Dev.MemWf.signal {c : Nat} {w : IWord} : (d.signal c w).MemWf := .congr (Dev.signal_mem ..) h
theorem Dev.MemWf.countRetired {c : Nat} : (d.countRetired c).MemWf := .wrapFld h
theorem Dev.MemWf.setPc {c n : Nat} : (d.setPc c n).MemWf := .setFld h
theorem Dev.MemWf.setWaits {c : Nat} {tok : Bool} {tags : List TagRef} : (d.setWaits c tok tags).MemWf := .modCore (.upd (.setFld (.setFld h)))
theorem Dev.MemWf.clearWaits {c : Nat} : (d.clearWaits c).MemWf := .upd (.setWaits h)

theorem Dev.MemWf.openShare {r : Run} {key rcount : Nat} {ctr : Option Nat} : (d.openShare r key rcount ctr).MemWf := by
  unfold Dev.openShare
  split
  · exact .ite (.modShare h) h
  · exact .setHomeTag (.upd h)

theorem Dev.MemWf.settleTags {c : Nat} {reads writes : List TagRef} : (d.settleTags c reads writes).MemWf :=
  .foldl (fun _ _ h => .setTag h) (.foldl (fun _ _ h => .setTag h) h)

theorem Dev.MemWf.takePages {c id : Nat} {pages : List Nat} : (d.takePages c id pages).MemWf := .foldl (fun _ _ h => .ite (.upd (.refInc h)) h) h
theorem Dev.MemWf.dropPages {c id : Nat} : (d.dropPages c id).MemWf := .foldl (fun _ _ h => .refDec h) (.upd h)

theorem Dev.MemWf.lutAt {k : Core} {w : IWord} : (d.lutAt k w).2.MemWf := by
  unfold Dev.lutAt
  split
  · split
    · exact h
    · exact .fresh h
  · exact h

theorem Dev.MemWf.issueZero {c : Nat} {w : IWord} {reads writes : List TagRef} : (d.issueZero c w reads writes).MemWf :=
  .countRetired (.signal (.settleTags h))

theorem Dev.MemWf.putFlight {c : Nat} {x : InFlight} : (d.putFlight c x).MemWf := .modCore h
theorem Dev.MemWf.joinStool {c id : Nat} : (d.joinStool c id).MemWf := .syncStool (.upd h)

theorem Dev.MemWf.closeShare {c key : Nat} {reads : List TagRef} : (d.closeShare c key reads).MemWf := by
  unfold Dev.closeShare
  split
  · exact .shareCheck (.modShare (.settleTags h))
  · exact h

theorem Dev.MemWf.doIssue {c : Nat} {f : Form} {w : IWord} {u : ShareUse} : (d.doIssue c f w u).MemWf := by
  unfold Dev.doIssue
  extract_lets k s reads writes pc issued id blank
  have hissued : issued.MemWf := .setPc (.clearWaits (.takeWait h))
  split
  · exact .ite (.countRetired (.signal (.closeShare (.modCore (.modShare (.openShare hissued))))))
      (.putFlight (.modCore (.modShare (.openShare hissued))))
  · exact .syncShares (.putFlight (.modCore (.lutAt (.modShare (.openShare hissued)))))
  · refine .ite (.issueZero hissued) ?_
    have hfilling : (writes.foldl (fun d t => d.setTag c t .filling) issued).MemWf := .foldl (fun _ _ h => .setTag h) hissued
    have hlocked : ∀ (e : Dev) (t : Option Nat), e.MemWf → (match t with
        | some t => if iOp w = 0x32 then { e with home := { e.home with locks := e.home.locks ++ [(t, c, id)] } } else e
        | none => e).MemWf := by
      intro e t he
      split
      · exact .ite (.upd he) he
      · exact he
    exact .ite (.joinStool (.putFlight (hlocked _ _ (.takePages (.modCore (.lutAt hfilling))))))
      (.putFlight (hlocked _ _ (.takePages (.modCore (.lutAt hfilling)))))

theorem Dev.MemWf.tryIssue {c : Nat} {w : IWord} : (d.tryIssue c w).MemWf := by
  unfold Dev.tryIssue
  extract_lets k
  split
  · exact h
  · extract_lets u blocked
    split
    · exact .fault h
    · refine .ite (.fault h) (.ite (.setWaits h) (.ite (.setWaits h) ?_))
      split
      · exact .fault h
      · exact .doIssue h

theorem Dev.MemWf.onOp {c op : Nat} {f : IWord → Dev} (hf : ∀ w, (f w).MemWf) : (d.onOp c op f).MemWf := by
  unfold Dev.onOp
  refine .ite ?_ h
  split
  · exact .ite (hf _) (.ite h (.fault h))
  · exact h

theorem Dev.MemWf.issueData {c op : Nat} : (d.issueData c op).MemWf := .onOp h fun _ => .tryIssue h
theorem Dev.MemWf.dropFlight {c id : Nat} : (d.dropFlight c id).MemWf := .modCore h

theorem Dev.MemWf.tileDone {c key tile : Nat} : (d.tileDone c key tile).MemWf := by
  unfold Dev.tileDone
  split
  · exact .shareCheck (.modShare h)
  · exact h

theorem Dev.MemWf.retireFlight {c : Nat} {x : InFlight} : (d.retireFlight c x).MemWf := by
  unfold Dev.retireFlight
  refine .countRetired (.signal (.ite ?_ ?_))
  · refine .modCore (.dropFlight (.dropPages ?_))
    split
    · exact h
    · split
      · exact .tileDone h
      · exact .closeShare h
      · exact .settleTags h
  · refine .dropFlight (.dropPages ?_)
    split
    · exact h
    · split
      · exact .tileDone h
      · exact .closeShare h
      · exact .settleTags h

theorem Dev.MemWf.emitRecord {c : Nat} {k : Core} {x : InFlight} : (d.emitRecord c k x).MemWf := by
  unfold Dev.emitRecord
  split
  · split
    · exact .retireFlight h
    · refine .ite (.retireFlight h) ?_
      dsimp only
      split
      · next e heq => exact .fault (.snd heq (.pop (.noteRead h)))
      · next e heq => exact .retireFlight (.modFrame (.writeRun (.snd heq (.pop (.noteRead h)))))
  · exact h

theorem Dev.MemWf.commitRes {c : Nat} {r : Res} : (d.commitRes c r).MemWf := .setFlags (.setPoison (.writeCells (.noteRead h)))

theorem Dev.MemWf.homeOp {c : Nat} {k : Core} {x : InFlight} : (d.homeOp c k x).MemWf := by
  unfold Dev.homeOp
  dsimp only
  split
  · exact .fault h
  · exact .countRetired (.signal (.dropFlight (.modCore (.ite (.refInc h) h))))

theorem Dev.MemWf.completeFlight {c : Nat} {x : InFlight} : (d.completeFlight c x).MemWf := by
  unfold Dev.completeFlight
  refine .ite (.ite (.homeOp h) h) ?_
  refine .ite h ?_
  split
  · exact .ite (.retireFlight h) h
  · exact .ite h (.ite (.emitRecord h) (.ite (.retireFlight (.kvappCommit h)) (.retireFlight (.commitRes h))))

theorem Dev.MemWf.faultFlight {c : Nat} {x : InFlight} : (d.faultFlight c x).MemWf := by
  unfold Dev.faultFlight
  refine .ite (.ite (.homeOp h) h) ?_
  dsimp only
  split
  · exact h
  · exact .fault (.writeCells (.noteRead (.upd (.upd h))))

/-! ### Streams and readouts -/

theorem Dev.MemWf.noteSlack {f : Frame} {ctx k0 : Nat} : (d.noteSlack f ctx k0).MemWf := by
  unfold Dev.noteSlack
  split
  · exact .upd h
  · exact h

theorem Dev.MemWf.modStream {id : Nat} {g : Stream → Stream} : (d.modStream id g).MemWf := by
  unfold Dev.modStream
  split
  · exact .upd h
  · exact h

theorem Dev.MemWf.setFallback {id : Nat} {fb : Bool} {cause : Nat} : (d.setFallback id fb cause).MemWf := by
  unfold Dev.setFallback
  split
  · exact h
  · exact .ite h (.modStream (.ite (.satFld h) h))

theorem Dev.MemWf.takeReports {f : Frame} : (d.takeReports f).2.MemWf := .modStream h

theorem Dev.MemWf.deadlineVoid {f : Frame} : (d.deadlineVoid f).MemWf := by
  unfold Dev.deadlineVoid
  extract_lets logged counted voided held
  have hvoided : voided.MemWf := .voidFrame (.satFld (.logEv h))
  have hheld : held.MemWf := .ite (.modStream hvoided) hvoided
  exact .ite (.setFallback hheld) hheld

theorem Dev.MemWf.setInputs {x : Ctx} : (d.setInputs x).MemWf := .foldl (fun _ _ h => .setHomeTag h) h

theorem Dev.MemWf.startRun {c : Nat} {x : Ctx} {r : Run} {sregs : List Word} : (d.startRun c x r sregs).MemWf :=
  .upd (.setPc (.setFld (.setFld (.setCore h))))

theorem Dev.MemWf.zeroCounters {ctx : Nat} : (d.zeroCounters ctx).MemWf := .upd h

theorem Dev.MemWf.dispatch {f : Frame} {cores : List Nat} : (d.dispatch f cores).MemWf := by
  unfold Dev.dispatch
  split
  · extract_lets n stack claiming est save inputs counters sched waits started
    have hinputs : inputs.MemWf := .ite (.setInputs h) h
    have hcounters : counters.MemWf := .ite (.zeroCounters hinputs) hinputs
    have hwaits : waits.MemWf := .ite hcounters (.upd hcounters)
    exact .modFrame (.foldl (fun _ _ h => .startRun (.upd h)) hwaits)
  · exact h

theorem Dev.MemWf.holdStep {f : Frame} : (d.holdStep f).MemWf := by
  unfold Dev.holdStep
  split
  · exact h
  · exact .ite h (.ite (.setFallback h) (.modStream h))

theorem Dev.MemWf.finishFrame {f : Frame} : (d.finishFrame f).MemWf :=
  .ite (.foldl (fun _ _ h => .postRec h) (.dropFrame (.freeFrameBuf (.holdStep h)))) (.release (.dropFrame (.freeFrameBuf (.holdStep h))))

theorem Dev.MemWf.kernelEnded {f : Frame} : (d.kernelEnded f).MemWf := by
  unfold Dev.kernelEnded
  split
  · exact .voidFrame h
  · refine .ite (.finishFrame h) ?_
    refine .ite (.voidFrame h) ?_
    refine .ite ?_ (.modFrame h)
    dsimp only
    split
    · exact .ite (.deadlineVoid (.noteSlack (.modFrame h))) (.noteSlack (.modFrame h))
    · exact .deadlineVoid (.noteSlack (.modFrame h))

/-! ### Admission -/

theorem Dev.MemWf.slotRelease {a : Nat} : (d.slotRelease a).MemWf := .writeRun (.writeRun (.foldl (fun _ _ h => .refDec h) h))
theorem Dev.MemWf.slotTrim {a n : Nat} : (d.slotTrim a n).MemWf := .writeRun (.writeRun (.writeRun (.foldl (fun _ _ h => .refDec h) h)))

theorem Dev.MemWf.spillOne {pool : Nat} (hspill : d.spillOne pool = some e) : e.MemWf := by
  unfold Dev.spillOne at hspill
  split at hspill
  · contradiction
  split at hspill
  · contradiction
  · next g hpop =>
    obtain rfl := Option.some.inj hspill
    exact .refDec (.writeRun (.setPoison (.writeRun (.noteRead (.snd hpop (.pop h))))))

theorem Dev.MemWf.grab {lc : Bool} {pool n : Nat} {sp : Bool} : (d.grab lc pool n sp).2.1.MemWf := by
  induction n generalizing d sp with
  | zero => exact h
  | succ n ih =>
    unfold Dev.grab
    split
    · next g heq => exact .snd heq (.pop h)
    · next g heq =>
      have hg : g.MemWf := .snd heq (.pop h)
      split
      · exact hg
      split
      · next k hspill => exact ih (.spillOne hg hspill)
      · exact hg

theorem Dev.MemWf.putResv {a h' : Nat} : (d.putResv a h').MemWf := .ite (.writeRun (.writeRun h)) (.writeRun (.writeRun h))

theorem Dev.MemWf.reserve {lc : Bool} {pool a n : Nat} {sp : Bool} : (d.reserve lc pool a n sp).2.1.MemWf := by
  induction n generalizing d sp with
  | zero => exact h
  | succ n ih =>
    unfold Dev.reserve
    split
    · next g sp heq => exact ih (.putResv (.mid heq (.grab h)))
    · next g sp heq => exact .mid heq (.grab h)

theorem Dev.MemWf.takeN {lc : Bool} {pool n : Nat} {acc : List Nat} {sp : Bool} : (d.takeN lc pool n acc sp).2.1.MemWf := by
  induction n generalizing d acc sp with
  | zero => exact h
  | succ n ih =>
    unfold Dev.takeN
    split
    · next g sp heq => exact ih (.mid heq (.grab h))
    · next g sp heq => exact .foldl (fun _ _ h => .refDec h) (.mid heq (.grab h))

theorem Dev.MemWf.writeJoin {a len : Nat} {pages : List Nat} {trimmed frame parent : Nat} {resv : List Nat} :
    (d.writeJoin a len pages trimmed frame parent resv).MemWf :=
  .foldl (fun _ _ h => .putResv h) (.writeRun (.writeRun h))

theorem Dev.MemWf.admitJoin {lc : Bool} {y : SetH} {s t parent frame : Nat} {sp : Bool} : (d.admitJoin lc y s t parent frame sp).2.1.MemWf := by
  unfold Dev.admitJoin
  extract_lets a p len pages trimmed referenced tail need pneed
  have hreferenced : referenced.MemWf := .foldl (fun _ _ h => .refInc h) h
  refine .iteMid (.iteMid h ?_) ?_
  · split
    · next g sp heq => exact .pairMid (.foldl (fun _ _ h => .putResv h) (.writeJoin (.mid heq (.takeN hreferenced))))
    · next g sp heq => exact .pairMid (.foldl (fun _ _ h => .refDec h) (.mid heq (.takeN hreferenced)))
  · split
    · next g sp heq => exact .pairMid (.writeJoin (.mid heq (.takeN h)))
    · next g sp heq => exact .pairMid (.mid heq (.takeN h))

theorem Dev.MemWf.readoutSlot {r : Readout} {b t : Nat} : (d.readoutSlot r b t).2.MemWf := by
  unfold Dev.readoutSlot
  extract_lets y req a e' gone len held n pages referenced
  have hreferenced : referenced.MemWf := .foldl (fun _ _ h => .refInc h) h
  refine .iteSnd h (.iteSnd (.postRec h) ?_)
  split
  · exact h
  · exact .pairSnd (.writeRun hreferenced)

theorem Dev.MemWf.readoutSettle : d.readoutSettle.MemWf := .foldl (fun _ _ h => .complete (.upd h)) (.upd h)

theorem Dev.MemWf.takeHolds {s b : Nat} : (d.takeHolds s b).MemWf := by
  unfold Dev.takeHolds
  refine .readoutSettle (.foldl (fun d x h => ?_) h)
  split
  · exact h
  · exact .ite h (.upd (.foldlPair (fun acc x h => .readoutSlot h) h))

theorem Dev.MemWf.readoutRun {r : Readout} {x : Scratch} : (d.readoutRun r x).2.MemWf :=
  .foldl (fun _ _ h => .refDec h) (.foldl (fun _ _ h => .postRec h) h)

theorem Dev.MemWf.readoutEnd {c : Nat} : (d.readoutEnd c).MemWf := by
  unfold Dev.readoutEnd
  split
  · exact h
  · exact .readoutSettle (.upd (.readoutRun h))

theorem Dev.MemWf.readoutAbort {c : Nat} : (d.readoutAbort c).MemWf := by
  unfold Dev.readoutAbort
  split
  · exact h
  · exact .upd (.foldl (fun _ _ h => .refDec h) h)

theorem Dev.MemWf.setTags {x : Ctx} {h' : SetH} : (d.setTags x h').MemWf := .foldl (fun _ _ h => .ite h (.ite (.setHomeTag h) (.setHomeTag h))) h

omit h in
section
variable {x : Adm} (hx : x.MemWf)
include hx
theorem Adm.MemWf.cont {lc : Bool} {y : SetH} {s t : Nat} : (x.cont lc y s t).MemWf :=
  Dev.MemWf.ite (.reserve (.writeRun hx)) (.writeRun (.reserve (.writeRun hx)))
theorem Adm.MemWf.join {lc : Bool} {y : SetH} {s frame : Nat} {j : Nat × Nat} : (x.join lc y s frame j).MemWf := by
  unfold Adm.join
  split
  · exact hx
  · exact Dev.MemWf.admitJoin hx
end

theorem Dev.MemWf.admitSet {f : Frame} {st : SeqSet} : (d.admitSet f st).2.MemWf := by
  unfold Dev.admitSet
  extract_lets y s lc blk slots joins leaves parent old fresh cleared released exc trimmed held x₀ x₁ x₂ placed live dm pm events noted variant
    ringed tagged
  have hreleased : released.MemWf := .foldl (fun _ _ h => .ite (.slotRelease h) h) (.writeRun h)
  have htrimmed : trimmed.MemWf := .foldl (fun _ _ h => .ite (.slotTrim h) h) hreleased
  have hstart : x₀.MemWf := Dev.MemWf.takeHolds htrimmed
  have hcont : x₁.MemWf := .foldl (fun _ _ h => .cont h) hstart
  have hjoin : x₂.MemWf := .foldl (fun _ _ h => .join h) hcont
  have hplaced : placed.MemWf := hjoin
  have hringed : ringed.MemWf := .ite (.foldl (fun _ _ h => .writeRun h) (.writeRun hplaced)) (.writeRun hplaced)
  have htagged : tagged.MemWf := by
    unfold tagged
    split
    · exact .setTags hringed
    · exact hringed
  exact .pairSnd (.upd htagged)

theorem Dev.MemWf.admitStep {f : Frame} : (d.admitStep f).MemWf := by
  unfold Dev.admitStep
  extract_lets r v g
  have hr : r.2.MemWf := by
    refine .foldlPair (fun p x hp => ?_) h
    exact .pairSnd (.admitSet hp)
  exact .modFrame (.modStream (.fresh hr))

theorem Dev.MemWf.releaseStream {s : Nat} {st : SeqSet} : (d.releaseStream s st).MemWf := .upd (.foldl (fun _ _ h => .ite (.slotRelease h) h) h)

/-! ### Answers of commands -/

theorem Dev.MemWf.fetched {q : Nat} : (d.fetched q).MemWf := by
  unfold Dev.fetched
  split
  · exact .upd h
  · exact h

theorem Dev.MemWf.reply {q : Nat} {e : List Byte} {status : Nat} {result : List Byte} : (d.reply q e status result).MemWf := .complete h
theorem Dev.MemWf.keepCmd {q : Nat} {e : List Byte} {stream arg : Nat} : (d.keepCmd q e stream arg).MemWf := .upd h

theorem Dev.MemWf.endCmds {p : Cmd → Bool} {status : Nat} {result : List Byte} : (d.endCmds p status result).MemWf :=
  .foldl (fun _ _ h => .complete h) (.upd h)

/-! ### Images -/

theorem Dev.MemWf.pick {l : List Nat} : (d.pick l).2.MemWf := by
  unfold Dev.pick
  split
  · exact h
  · exact .fresh h

theorem Dev.MemWf.pickN {n : Nat} {l acc : List Nat} : (d.pickN n l acc).2.MemWf := by
  induction n generalizing d l acc with
  | zero => exact h
  | succ n ih =>
    unfold Dev.pickN
    split
    · next g heq => exact ih (.snd heq (.pick h))
    · next g heq => exact .snd heq (.pick h)

/-- `Dev.giveTags` with the tag numbers to choose from named. -/
def Dev.giveTagsFrom (d : Dev) (nos : List Nat) (more : List (Nat × Nat)) : List Nat → List (Nat × Nat) → Option (List (Nat × Nat)) × Dev
  | [], acc => (some acc, d)
  | k :: r, acc =>
    match d.pick (nos.filter fun n => !(d.usedTags (k / 4096) (more ++ acc)).contains n) with
    | (some n, d) => d.giveTagsFrom nos more r (acc ++ [(k, n)])
    | (none, d) => (none, d)

omit h in
theorem Dev.giveTags_eq_giveTagsFrom (more : List (Nat × Nat)) (l : List Nat) (acc : List (Nat × Nat)) :
    d.giveTags more l acc = d.giveTagsFrom (List.range 4096) more l acc := by
  delta Dev.giveTags Dev.giveTagsFrom Dev.giveTags._f Dev.giveTagsFrom._f
  generalize List.range 4096 = nos
  rfl

theorem Dev.MemWf.giveTagsFrom {nos : List Nat} {more : List (Nat × Nat)} {l : List Nat} {acc : List (Nat × Nat)} :
    (d.giveTagsFrom nos more l acc).2.MemWf := by
  induction l generalizing d acc with
  | nil => exact h
  | cons k r ih =>
    unfold Dev.giveTagsFrom
    split
    · next g heq => exact ih (.snd heq (.pick h))
    · next g heq => exact .snd heq (.pick h)

theorem Dev.MemWf.giveTags {more : List (Nat × Nat)} {l : List Nat} {acc : List (Nat × Nat)} : (d.giveTags more l acc).2.MemWf := by
  rw [Dev.giveTags_eq_giveTagsFrom]
  exact .giveTagsFrom h

theorem Dev.MemWf.fillRegion {g : Img} {ids : List Nat} {r : Region} : (d.fillRegion g ids r).MemWf := .foldl (fun _ _ h => .writeRun (.clear h)) h

theorem Dev.MemWf.fillBanks {g : Img} {v : Nat} {places : List (Nat × Nat × Nat)} {nos : List (Nat × Nat)} : (d.fillBanks g v places nos).MemWf :=
  .foldl (fun _ _ h => .writeRun (.clear h)) h

theorem Dev.MemWf.initTags {uses : List (Nat × Nat × Nat)} {nos : List (Nat × Nat)} : (d.initTags uses nos).MemWf :=
  .foldl (fun _ _ h => .setHomeTag h) h

theorem Dev.MemWf.giveAll {g : Img} {places : List (Nat × Nat × Nat)} {n v : Nat} {acc : List (List (Nat × Nat))} :
    (d.giveAll g places n v acc).2.MemWf := by
  induction n generalizing d v acc with
  | zero => exact h
  | succ n ih =>
    unfold Dev.giveAll
    dsimp only
    split
    · next g heq => exact ih (.snd heq (.giveTags h))
    · next g heq => exact .snd heq (.giveTags h)

theorem Dev.MemWf.commitLoad {g : Img} {places : List (Nat × Nat × Nat)} {ids : List Nat} {nos : List (List (Nat × Nat))} :
    (d.commitLoad g places ids nos).MemWf :=
  .upd (.foldl (fun _ _ h => .initTags h) (.foldl (fun _ _ h => .fillBanks h) (.foldl (fun _ _ h => .fillRegion h) h)))

theorem Dev.MemWf.loadImg {g : Img} : (d.loadImg g).2.2.MemWf := by
  unfold Dev.loadImg
  split
  · exact .ite (.logEv (.noteRead h)) h
  split
  · exact h
  dsimp only
  split
  · exact .upd h
  split
  · exact .upd h
  split
  · exact .upd h
  · next ids e hpick =>
    split
    · exact .upd h
    · next nos e' hgive => exact .commitLoad (.snd hgive (.giveAll (.snd hpick (.pickN (.upd h)))))

theorem Dev.MemWf.unloadImg {img : Nat} : (d.unloadImg img).MemWf := .upd (.foldl (fun _ _ h => .setReg h) (.foldl (fun _ _ h => .setHomeTag h) h))

theorem Dev.MemWf.rewriteBank {img : Nat} {i : Image} {a : Nat} : (d.rewriteBank img i a).MemWf := by
  unfold Dev.rewriteBank
  dsimp only
  split
  · exact .writeRun h
  · exact .writeRun h
  · exact h

theorem Dev.MemWf.repairDone : d.repairDone.MemWf := by
  unfold Dev.repairDone
  split
  · exact h
  · extract_lets recov left
    split
    · exact .upd h
    · extract_lets src bad read marked
      have hread : read.MemWf := .noteRead (.upd h)
      have hmarked : marked.MemWf := .ite (.foldl (fun _ _ h => .markFaulted h) hread) (.rewriteBank hread)
      exact .ite hmarked (.upd hmarked)

/-! ### Fabric ports -/

theorem Dev.MemWf.out {w : DevWrite} : (d.out w).MemWf := .upd h
theorem Dev.MemWf.modFport {k : Nat} {f : FabPort → FabPort} : (d.modFport k f).MemWf := .upd h
theorem Dev.MemWf.sendFlit {k kind : Nat} {last poison : Bool} {vc : Nat} {b : List Byte} : (d.sendFlit k kind last poison vc b).MemWf := .out h
theorem Dev.MemWf.sendCtl {k op seq vc credits : Nat} : (d.sendCtl k op seq vc credits).MemWf := .sendFlit h
theorem Dev.MemWf.sendPkt {k seq : Nat} {p : FPkt} : (d.sendPkt k seq p).MemWf := .foldl (fun _ _ h => .sendFlit h) h
theorem Dev.MemWf.portDrained {k : Nat} : (d.portDrained k).MemWf := .ite (.setFld (.setFld (.setFld h))) h

theorem Dev.MemWf.pump {k n : Nat} : (Dev.pump k n d).MemWf := by
  induction n generalizing d with
  | zero => exact h
  | succ n ih =>
    unfold Dev.pump
    refine .ite h ?_
    split
    · exact h
    · next p hp =>
      dsimp only
      split
      · exact ih (.sendCtl (.sendPkt (.modFport h)))
      · exact ih (.sendPkt (.modFport h))

theorem Dev.MemWf.enqueue {k : Nat} {p : FPkt} : (d.enqueue k p).MemWf := .ite (.pump (.modFport h)) (.satFld h)

theorem Dev.MemWf.routePkt {inPort : Option Nat} {p : FPkt} : (d.routePkt inPort p).MemWf := by
  unfold Dev.routePkt
  split
  · exact h
  · dsimp only
    split
    · exact h
    · exact .ite (.enqueue h) (.satFld h)

theorem Dev.MemWf.transfer {dst type stream argA argB : Nat} {data : List Byte} : (d.transfer dst type stream argA argB data).MemWf := by
  unfold Dev.transfer
  split
  · exact h
  · exact .foldl (fun _ _ h => .routePkt h) h

theorem Dev.MemWf.notice {code dev stream : Nat} {but : Option Nat} : (d.notice code dev stream but).MemWf := by
  unfold Dev.notice
  split
  · exact h
  · exact .foldl (fun _ _ h => .ite h (.enqueue h)) h

theorem Dev.MemWf.syncProtect : d.syncProtect.MemWf := .setFld (.setFld h)
theorem Dev.MemWf.modEntry {j : Nat} {f : GEntry → GEntry} : (d.modEntry j f).MemWf := .upd h
theorem Dev.MemWf.unprotect {j stream : Nat} : (d.unprotect j stream).MemWf := .ite h (.health (.setFld (.modEntry h)))
theorem Dev.MemWf.protectAgain {j : Nat} : (d.protectAgain j).MemWf := .setFld (.modEntry h)

theorem Dev.MemWf.refreshProtect {stream : Nat} : (d.refreshProtect stream).MemWf := by
  unfold Dev.refreshProtect
  split
  · exact .ite (.protectAgain h) h
  · exact h

theorem Dev.MemWf.mirrorChunk {e : GEntry} {epoch stamp : Nat} {b : List Byte} : (d.mirrorChunk e epoch stamp b).MemWf := .transfer h

theorem Dev.MemWf.mirrorConfig {e : GEntry} {epoch sections ctx : Nat} {fb : Option Nat} {b : List Byte} :
    (d.mirrorConfig e epoch sections ctx fb b).MemWf :=
  .transfer h

theorem Dev.MemWf.sendCommit {e : GEntry} : (d.sendCommit e).MemWf := .transfer h

/-! ### Chunks and epochs -/

theorem Dev.MemWf.adoptEpoch {id : Nat} {e : Epoch} : (d.adoptEpoch id e).MemWf := by
  unfold Dev.adoptEpoch
  split
  · exact h
  · exact .ite h (.ite (.foldl (fun _ _ h => .refDec h) (.modStream h)) (.upd (.foldl (fun _ _ h => .refDec h) (.modStream h))))

theorem Dev.MemWf.takeNum {id order : Nat} : (d.takeNum id order).2.MemWf := by
  unfold Dev.takeNum
  split
  · exact h
  · exact .modStream h

theorem Dev.MemWf.popMany {p n : Nat} {acc : List Nat} : (d.popMany p n acc).2.MemWf := by
  induction n generalizing d acc with
  | zero => exact h
  | succ n ih =>
    unfold Dev.popMany
    split
    · next g heq => exact ih (.snd heq (.pop h))
    · next g heq => exact .foldl (fun _ _ h => .refDec h) (.snd heq (.pop h))

theorem Dev.MemWf.stage {id num sections len : Nat} {b : List Byte} : (d.stage id num sections len b).2.MemWf := by
  unfold Dev.stage
  split
  · exact h
  extract_lets base gap codec shaper bind slots
  split
  · exact h
  split
  · exact h
  split
  · exact h
  split
  · exact h
  split
  · next g heq => exact .snd heq (.popMany h)
  · next g heq => exact .modStream (.snd heq (.popMany h))

theorem Dev.MemWf.histDrop {id : Nat} : (d.histDrop id).MemWf := by
  unfold Dev.histDrop
  split
  · exact .refDec (.modStream h)
  · exact h

theorem Dev.MemWf.histPop {id pool n : Nat} : (d.histPop id pool n).2.MemWf := by
  induction n generalizing d with
  | zero => exact h
  | succ n ih =>
    unfold Dev.histPop
    split
    · next g heq => exact .snd heq (.pop h)
    · next g heq =>
      have hg : g.MemWf := .snd heq (.pop h)
      split
      · exact hg
      · exact ih (.histDrop hg)

theorem Dev.MemWf.histAdd {id : Nat} {c : CodecSet} {x : HistItem} {b : List Byte} : (d.histAdd id c x b).MemWf := by
  unfold Dev.histAdd
  split
  · exact h
  · extract_lets r
    have hr : r.2.MemWf := .iteSnd (.histPop h) h
    clear_value r
    split
    · next g => exact .modStream (.writeRun hr)
    · next g => exact .ite hr (.modStream (.health hr))

theorem Dev.MemWf.dropChunk {id : Nat} {c : Chunk} : (d.dropChunk id c).MemWf := .refDec (.modStream h)

theorem Dev.MemWf.takeChunk {id h' : Nat} {e : Epoch} {stamp : Nat} {b : List Byte} : (d.takeChunk id h' e stamp b).MemWf := by
  unfold Dev.takeChunk
  dsimp only
  split
  · exact h
  · exact .ite (.histAdd (.setFld (.setFld (.modStream (.ite (.upd h) h))))) (.setFld (.setFld (.modStream (.ite (.upd h) h))))

theorem Dev.MemWf.stopInput {id : Nat} : (d.stopInput id).MemWf := .upd (.modStream h)

theorem Dev.MemWf.endStream {id : Nat} : (d.endStream id).MemWf := by
  unfold Dev.endStream
  split
  · exact h
  · exact .upd (.readoutSettle (.upd (.foldl (fun _ _ h => .releaseStream h) (.upd (.foldl (fun _ _ h => .refDec h) h)))))

theorem Dev.MemWf.makeStream {e : List Byte} : (d.makeStream e).MemWf := .upd h

/-! ### Pictures -/

theorem Dev.MemWf.modEngine {n : Nat} {f : Engine → Engine} : (d.modEngine n f).MemWf := .upd h
theorem Dev.MemWf.syncLoads : d.syncLoads.MemWf := .foldl (fun _ _ h => .setReg h) h
theorem Dev.MemWf.giveLoad {n key mps : Nat} : (d.giveLoad n key mps).MemWf := .syncLoads (.modEngine (.upd h))

theorem Dev.MemWf.decodeErr {unit sub stream frame : Nat} : (d.decodeErr unit sub stream frame).MemWf :=
  .ite (.setFld (.satFld (.logEv h))) (.logEv h)

theorem Dev.MemWf.setBudget {id b lag num stamp epoch : Nat} : (d.setBudget id b lag num stamp epoch).2.MemWf := by
  unfold Dev.setBudget
  split
  · exact h
  · exact .ite h (.modStream h)

theorem Dev.MemWf.countCycles {id c : Nat} : (d.countCycles id c).MemWf := .modStream h

theorem Dev.MemWf.groupWrite {n : Nat} {rows : List (List Nat)} {cols : List Nat} {sub : Nat} : (d.groupWrite n rows cols sub).MemWf := by
  unfold Dev.groupWrite
  extract_lets e
  split
  · exact h
  · extract_lets W rows ref fixed P' ring8 taken erred
    have htaken : taken.MemWf := .ite (.modEngine h) (.modEngine h)
    exact .ite (.wrapFld h) (.ite h (.ite (.modEngine h) (.wrapFld (.ite htaken (.decodeErr htaken)))))

theorem Dev.MemWf.useChunks {id n : Nat} : (d.useChunks id n).MemWf := .foldl (fun _ _ h => .dropChunk h) h
theorem Dev.MemWf.markChunk {id : Nat} {c : Chunk} {num : Nat} {p : PicInfo} : (d.markChunk id c num p).MemWf := .modStream h

theorem Dev.MemWf.skipPic {p : PicInfo} {c : Chunk} {num reason code : Nat} {ahead : List (List Byte)} :
    (d.skipPic p c num reason code ahead).MemWf :=
  .useChunks (.voidNum h)

theorem Dev.MemWf.beginPic {n : Nat} {p : PicInfo} {c : Chunk} {ep : Epoch} {num : Nat} {ahead : List (List Byte)} {analyse : Bool} :
    (d.beginPic n p c ep num ahead analyse).MemWf := by
  unfold Dev.beginPic
  extract_lets P loaded begun taken busy encoding named
  have hnamed : named.MemWf := .setFld (.setFld (.setFld (.modStream (.modEngine (.giveLoad h)))))
  exact .ite (.upd hnamed) hnamed

theorem Dev.MemWf.standbyPic {n : Nat} {p : PicInfo} {c : Chunk} {ep : Epoch} {warm : Bool} : (d.standbyPic n p c ep warm).MemWf := by
  unfold Dev.standbyPic
  extract_lets last num marked
  have hmarked : marked.MemWf := .markChunk (.takeNum h)
  exact .ite (.ite h (.ite (.beginPic hmarked) (.useChunks hmarked))) (.ite (.useChunks hmarked) hmarked)

theorem Dev.MemWf.decodePic {n : Nat} {s : Stream} {p : PicInfo} {c : Chunk} {ep : Epoch} : (d.decodePic n s p c ep).MemWf := by
  unfold Dev.decodePic
  extract_lets adopted r num marked erred bad next b lagged last covered
  have hmarked : marked.MemWf := .markChunk (.takeNum (.adoptEpoch h))
  have hlagged : lagged.MemWf := .modStream (.setBudget (.ite hmarked (.decodeErr hmarked)))
  refine .ite (.useChunks (.decodeErr h)) (.ite (.ite (.beginPic hlagged) (.useChunks hlagged)) ?_)
  refine .ite (.skipPic (.ite (.decodeErr hlagged) hlagged)) (.ite (.skipPic hlagged) (.ite (.skipPic hlagged) ?_))
  exact .ite (.skipPic hlagged) (.beginPic (.ite (.refreshProtect hlagged) hlagged))

theorem Dev.MemWf.startPicture {n : Nat} {p : PicInfo} : (d.startPicture n p).MemWf := by
  unfold Dev.startPicture
  split
  · exact h
  split
  · exact h
  split
  · exact h
  refine .ite h (.ite ?_ (.ite ?_ h))
  · split
    · exact .standbyPic h
    · exact .decodePic h
  · extract_lets adopted r
    have hadopted : adopted.MemWf := .ite (.adoptEpoch h) h
    have hr : r.2.MemWf := by
      unfold r
      split
      · exact hadopted
      · exact .takeNum hadopted
    exact .ite (.beginPic hr) (.useChunks hr)

theorem Dev.MemWf.engineIdle {n : Nat} : (d.engineIdle n).MemWf :=
  .ite (.ite (.setFld (.setFld (.setFld h))) (.syncLoads (.modEngine (.setFld (.setFld (.setFld h)))))) (.setFld h)

theorem Dev.MemWf.concealment {id num : Nat} {ep : Epoch} {frac sub : Nat} {recs : List (List Byte)} {unit : Nat} :
    (d.concealment id num ep frac sub recs unit).MemWf := by
  unfold Dev.concealment
  dsimp only
  split
  · exact .ite (.voidFrame (.modFrame (.ite h (.logEv h)))) (.modFrame (.ite h (.logEv h)))
  · exact .modFrame (.ite h (.logEv h))

theorem Dev.MemWf.endBudget {P : Pic} {within cap : Bool} {lag refLag : Nat} : (d.endBudget P within lag refLag cap).2.MemWf := by
  unfold Dev.endBudget
  split
  · split
    · exact h
    · exact .setBudget h
  · exact h

theorem Dev.MemWf.endDecode {n : Nat} {P : Pic} {cycles lag refLag : Nat} {cap : Bool} : (d.endDecode n P cycles lag refLag cap).MemWf := by
  unfold Dev.endDecode
  extract_lets p id miss old cols tail sub conc frac erred counted was ends starts drifted within cycled b lagged ended told
  have herred : erred.MemWf := .ite h (.decodeErr h)
  have hcounted : counted.MemWf := .ite herred (.satFld herred)
  have hended : ended.MemWf := .modEngine (.modStream (.endBudget (.countCycles (.modStream hcounted))))
  exact .engineIdle (.useChunks (.ite (.concealment hended) hended))

theorem Dev.MemWf.endEncode {n : Nat} {P : Pic} {coded : List Byte} : (d.endEncode n P coded).MemWf :=
  .engineIdle (.useChunks (.ite (.modEngine h) (.histAdd (.modEngine h))))

theorem Dev.MemWf.syncJpeg : d.syncJpeg.MemWf := .setFld (.setFld h)

theorem Dev.MemWf.stillOut {p : PicInfo} {c : Chunk} {ep : Epoch} {num : Nat} {rows : List (List Nat)} {conc sub : Nat} {ahead : List (List Byte)} :
    (d.stillOut p c ep num rows conc sub ahead).MemWf :=
  .concealment (.upd h)

/-! ### DRAM -/

theorem Dev.MemWf.modDch {c : Nat} {f : DramCh → DramCh} : (d.modDch c f).MemWf := .upd h

theorem Dev.MemWf.popWrite {c : Nat} : (d.popWrite c).MemWf := by
  unfold Dev.popWrite
  split
  · exact h
  · exact .writeCells (.modDch h)

theorem Dev.MemWf.popRead {c : Nat} : (d.popRead c).MemWf := by
  unfold Dev.popRead
  dsimp only
  split
  · exact h
  · exact .noteRead (.modDch h)

theorem Dev.MemWf.dramServe {c : Nat} : (d.dramServe c).MemWf := .ite (.popWrite (.ite h (.modDch h))) (.popRead (.ite h (.modDch h)))
theorem Dev.MemWf.dramTick : d.dramTick.MemWf := .foldl (fun _ _ h => .ite h (.dramServe h)) h
theorem Dev.MemWf.dramDrain : d.dramDrain.MemWf := .foldl (fun _ _ h => .foldl (fun _ _ h => .popRead h) (.foldl (fun _ _ h => .popWrite h) h)) h
theorem Dev.MemWf.dramWrite {a : Nat} {l : List (Option Byte)} : (d.dramWrite a l).MemWf := .modDch h
theorem Dev.MemWf.dramRead {a : Nat} : (d.dramRead a).MemWf := .modDch h
theorem Dev.MemWf.dramWake : d.dramWake.MemWf := .upd h

theorem Dev.MemWf.copyCw {src dst : Nat} : (d.copyCw src dst).MemWf := by
  unfold Dev.copyCw
  extract_lets m tag data cells e
  obtain ⟨hcells, htags, hchk, hcells0, htags0⟩ := (Memory.wf_iff d.mem).1 h
  obtain ⟨hcopied, hcopied0⟩ := foldl_mset_wf (data.zipIdx.map fun x => (32 * dst + x.2, x.1)) hcells hcells0
  rw [List.foldl_map] at hcopied hcopied0
  have he : e.MemWf := (Memory.wf_iff _).2 ⟨hcopied, mset_wf htags _ _ _, mdel_wf hchk _, hcopied0, mset_ne htags0 _ _⟩
  exact .noteCw he

theorem Dev.MemWf.migrateLine {c : Nat} : (d.migrateLine c).MemWf := by
  unfold Dev.migrateLine
  refine .ite ?_ ?_
  · refine .setFld (.foldl (fun d x h => ?_) ?_)
    · exact .copyCw h
    · split
      · exact .writeCells (.modDch h)
      · exact h
  · refine .spareCheck (.health (.recordRank (.setFld (.setFld (.setFld (.foldl (fun d x h => ?_) ?_))))))
    · exact .copyCw h
    · split
      · exact .writeCells (.modDch h)
      · exact h

theorem Dev.MemWf.migResume : d.migResume.MemWf := .foldl (fun _ _ h => .ite (.setFld h) h) h
theorem Dev.MemWf.dramTrain {failed : List Nat} : (d.dramTrain failed).MemWf := .foldl (fun _ _ h => .health h) (.setFld h)
theorem Dev.MemWf.dramInit : d.dramInit.MemWf := Memory.wf_wback (Memory.wf_filter h _ _ _) _

/-! ### Mirrored streams -/

theorem Dev.MemWf.sendDelta {id f epoch : Nat} : (d.sendDelta id f epoch).MemWf := by
  unfold Dev.sendDelta
  split
  · exact .transfer h
  · exact h

theorem Dev.MemWf.morePages {pool n : Nat} {ps : List Nat} : (d.morePages pool n ps).2.MemWf := by
  induction n generalizing d ps with
  | zero => exact h
  | succ n ih =>
    unfold Dev.morePages
    split
    · next g heq => exact ih (.snd heq (.pop h))
    · next g heq => exact .snd heq (.pop h)

theorem Dev.MemWf.ownPage {pool : Nat} {ps : List Nat} {i : Nat} : (d.ownPage pool ps i).2.MemWf := by
  unfold Dev.ownPage
  dsimp only
  split
  · exact h
  split
  · next g heq => exact .refDec (.writeRun (.snd heq (.pop h)))
  · next g heq => exact .snd heq (.pop h)

theorem Dev.MemWf.applySlot {y : SetH} {s : Nat} {b : List Byte} {pos : List (List Byte)} : (d.applySlot y s b pos).MemWf := by
  conv => arg 1; fun; fun; fun; fun; fun; delta Dev.applySlot
  extract_lets -underBinder +onlyGivenNames a len need parent same freed old shared gone dropped kept
  have hfreed : freed.MemWf := .ite (.slotRelease h) h
  have hshared : shared.MemWf := .ite hfreed (.foldl (fun _ _ h => .refInc h) hfreed)
  have hdropped : dropped.MemWf := .foldl (fun _ _ h => .refDec h) hshared
  have hpages : (dropped.morePages y.spill (need - kept.length) kept).2.MemWf := .morePages hdropped
  generalize dropped.morePages y.spill (need - kept.length) kept = r at hpages ⊢
  obtain ⟨_ | ps, g⟩ := r
  · exact hpages
  · refine Dev.MemWf.writeRun (.writeRun (.foldl (fun _ _ h => .writeRun h) ?_))
    exact .foldlPair (fun _ _ h => .ownPage h) hpages

theorem Dev.MemWf.applySlots {y : Option SetH} {s n : Nat} {b : List Byte} {seen : List Nat} : (d.applySlots y s n b seen).1.MemWf := by
  induction n generalizing d b seen with
  | zero =>
    unfold Dev.applySlots
    split
    · exact .foldl (fun _ _ h => .ite (.slotRelease h) h) h
    · exact h
  | succ n ih =>
    unfold Dev.applySlots
    refine ih ?_
    split
    · exact .applySlot h
    · exact h

theorem Dev.MemWf.applySets {id : Nat} {s : Stream} {n : Nat} {b : List Byte} : (d.applySets id s n b).MemWf := by
  induction n generalizing d b with
  | zero => exact h
  | succ n ih =>
    unfold Dev.applySets
    refine ih (.applySlots ?_)
    split
    · exact .writeRun h
    · exact h

theorem Dev.MemWf.applyDelta {id : Nat} {b : List Byte} : (d.applyDelta id b).MemWf := by
  unfold Dev.applyDelta
  split
  · exact h
  · exact .ite (.foldl (fun _ _ h => .dropChunk h) (.modStream (.applySets (.modStream (.upd h))))) (.applySets (.modStream (.upd h)))

theorem Dev.MemWf.restorePages {y : SetH} {s : Nat} : (d.restorePages y s).MemWf := by
  unfold Dev.restorePages
  refine .foldl (fun d p h => ?_) h
  split
  · next g heq => exact .snd heq (.pop h)
  · next g heq =>
    exact .foldl (fun _ _ h => .refDec h) (.foldl (fun _ _ h => .refInc h) (.foldl (fun _ _ h => .writeRun h) (.writeRun (.snd heq (.pop h)))))

theorem Dev.MemWf.takeOver {id : Nat} {s : Stream} : (d.takeOver id s).MemWf := by
  unfold Dev.takeOver
  refine .foldl (fun d x h => ?_) h
  split
  · exact h
  · exact .upd (.takeNum (.adoptEpoch (.modStream h)))

theorem Dev.MemWf.promote {j : Nat} {e : GEntry} : (d.promote j e).MemWf := by
  unfold Dev.promote
  extract_lets id y
  split
  · exact h
  · next s hs =>
    extract_lets restored start numbered synced fab fresh jpeg taken
    have hrestored : restored.MemWf := .foldl (fun _ _ h => .restorePages h) h
    have hsynced : synced.MemWf := .syncProtect (.modEntry (.ite hrestored (.modStream hrestored)))
    have hfresh : fresh.MemWf := .upd hsynced
    exact .health (.ite (.takeOver hfresh) (.ite (.upd hfresh) hfresh))

/-! ### Groups and links -/

theorem Dev.MemWf.sendIdent {k : Nat} : (d.sendIdent k).MemWf := by
  unfold Dev.sendIdent
  split
  · exact .enqueue h
  · exact h

theorem Dev.MemWf.portStart {k : Nat} : (d.portStart k).MemWf := .modFport (.setFld (.setFld h))
theorem Dev.MemWf.portTrained {k : Nat} : (d.portTrained k).MemWf := .sendIdent (.pump (.foldl (fun _ _ h => .sendPkt h) (.modFport (.setFld h))))

theorem Dev.MemWf.creditBack {p : FPkt} : (d.creditBack p).MemWf := by
  unfold Dev.creditBack
  split
  · exact .sendCtl h
  · exact h

theorem Dev.MemWf.portDown {k : Nat} : (d.portDown k).MemWf := .foldl (fun _ _ h => .creditBack h) (.satFld (.modFport (.setFld h)))
theorem Dev.MemWf.portFailed {k : Nat} {last : Bool} : (d.portFailed k last).MemWf := .ite (.portDown (.modFport h)) (.modFport h)

theorem Dev.MemWf.promoteAbsent {m : GMap} : (d.promoteAbsent m).MemWf := by
  unfold Dev.promoteAbsent
  split
  · exact h
  · exact .foldl (fun _ _ h => .promote h) h

theorem Dev.MemWf.installMap {m : GMap} : (d.installMap m).MemWf :=
  .syncProtect (.setFld (.foldl (fun _ _ h => .setFld (.portDown h)) (.setReg (.setFld (.setFld (.setFld (.setFld (.upd (.promoteAbsent h)))))))))

theorem Dev.MemWf.joinSettle : d.joinSettle.MemWf := by
  unfold Dev.joinSettle
  refine .ite h ?_
  split
  · exact .endCmds (.installMap h)
  · exact .ite (.notice (.upd h)) h

theorem Dev.MemWf.joinHeard {k : Nat} : (d.joinHeard k).MemWf := .ite (.joinSettle (.upd h)) h

theorem Dev.MemWf.joinFail : d.joinFail.MemWf := by
  unfold Dev.joinFail
  split
  · exact h
  · exact .endCmds (.foldl (fun _ _ h => .setFld (.portDown h)) (.upd h))

theorem Dev.MemWf.portStop {k : Nat} : (d.portStop k).MemWf := .ite h (.ite (.portDrained (.setFld h)) (.setFld (.portDown h)))

theorem Dev.MemWf.unprotectWith {t : Nat} : (d.unprotectWith t).MemWf := by
  unfold Dev.unprotectWith
  split
  · exact h
  · exact .foldl (fun _ _ h => .unprotect h) h

theorem Dev.MemWf.sendAck {e : GEntry} : (d.sendAck e).MemWf := .transfer h

theorem Dev.MemWf.onMirrorChunk {id epoch stamp : Nat} {b : List Byte} {poison : Bool} : (d.onMirrorChunk id epoch stamp b poison).MemWf := by
  unfold Dev.onMirrorChunk
  split
  · split
    · exact h
    · refine .ite h ?_
      extract_lets
      split
      · next g heq => exact .snd heq (.pop h)
      · next buf g heq =>
        extract_lets written poisoned c taken y
        have hwritten : written.MemWf := .writeRun (.snd heq (.pop h))
        have hpoisoned : poisoned.MemWf := .ite (.setPoison hwritten) hwritten
        have htaken : taken.MemWf := .ite (.modStream hpoisoned) (.takeChunk hpoisoned)
        exact .sendAck (.upd htaken)
  · exact h

theorem Dev.MemWf.onMirrorConfig {id epoch : Nat} {b : List Byte} : (d.onMirrorConfig id epoch b).MemWf := by
  unfold Dev.onMirrorConfig
  split
  · exact h
  · dsimp only
    split
    · exact h
    · exact .ite (.sendAck (.stage h)) (.stage h)

theorem Dev.MemWf.onCommit {id : Nat} : (d.onCommit id).MemWf := .upd h
theorem Dev.MemWf.onStepDelta {id : Nat} {b : List Byte} : (d.onStepDelta id b).MemWf := .ite (.applyDelta h) h

theorem Dev.MemWf.ackDone {w : Nat × Nat × Nat × Nat} : (d.ackDone w).2.MemWf := by
  unfold Dev.ackDone
  dsimp only
  split
  · exact .upd h
  · exact .complete (.upd (.upd h))

theorem Dev.MemWf.onAck {id : Nat} : (d.onAck id).MemWf := by
  unfold Dev.onAck
  split
  · exact h
  · dsimp only
    split
    · exact .sendCommit (.ackDone h)
    · exact .ackDone h

theorem Dev.MemWf.onNotice {k code dev id : Nat} : (d.onNotice k code dev id).MemWf := by
  unfold Dev.onNotice
  split
  · exact h
  · extract_lets fab seen peers noted told logged
    have hlogged : logged.MemWf := .health (.notice (.setReg (.upd h)))
    refine .ite ?_ (.ite h (.ite (.foldl (fun _ _ h => .promote h) hlogged) (.ite (.unprotectWith hlogged) hlogged)))
    split
    · exact .ite (.promote h) h
    · exact h

theorem Dev.MemWf.onIdent {k id serial : Nat} : (d.onIdent k id serial).MemWf := by
  unfold Dev.onIdent
  refine .ite h ?_
  split
  · exact .setFld h
  · exact .ite (.setFld (.setFld h)) (.ite (.joinHeard (.setFld (.setFld h))) (.joinFail (.setFld (.setFld h))))

theorem Dev.MemWf.onLinkAck {k seq : Nat} : (d.onLinkAck k seq).MemWf := by
  unfold Dev.onLinkAck
  split
  · exact h
  · exact .portDrained (.pump (.modFport h))

theorem Dev.MemWf.onLinkNak {k seq : Nat} : (d.onLinkNak k seq).MemWf :=
  .ite (.sendCtl (.modFport h)) (.foldl (fun _ _ h => .sendPkt h) (.modFport h))

theorem Dev.MemWf.onCredit {k vc n : Nat} : (d.onCredit k vc n).MemWf := .portDrained (.pump (.modFport h))

theorem Dev.MemWf.consume {k : Nat} {b data : List Byte} {poison : Bool} : (d.consume k b data poison).MemWf := by
  unfold Dev.consume
  dsimp only
  split
  · exact .onMirrorChunk h
  · exact .onMirrorConfig h
  · exact .onCommit h
  · exact .onStepDelta h
  · exact .onAck h
  · exact .onNotice h
  · exact .onIdent h
  · exact h

theorem Dev.MemWf.packetHere {k : Nat} {b : List Byte} {poison : Bool} : (d.packetHere k b poison).MemWf :=
  .ite (.ite (.consume (.upd h)) (.upd h)) (.consume h)

theorem Dev.MemWf.packetIn {k : Nat} : (d.packetIn k).MemWf := by
  unfold Dev.packetIn
  dsimp only
  split
  · exact .packetHere (.sendCtl (.sendCtl (.modFport h)))
  · exact .ite (.routePkt (.sendCtl (.modFport h))) (.sendCtl (.satFld (.sendCtl (.modFport h))))

theorem Dev.MemWf.control {k : Nat} {b : List Byte} : (d.control k b).MemWf := by
  unfold Dev.control
  split
  · exact .onLinkAck h
  · exact .onLinkNak h
  · exact .onCredit h
  · exact .modFport h
  · exact h

theorem Dev.MemWf.flitIn {k : Nat} {b : List Byte} {tag : Nat} : (d.flitIn k b tag).MemWf := by
  unfold Dev.flitIn
  dsimp only
  split
  · exact .ite (.modFport h) (.ite (.packetIn (.modFport h)) (.modFport h))
  · exact .ite h (.ite (.packetIn (.modFport h)) (.modFport h))
  · exact .control h
  · exact h

/-! ### Frames on the cores -/

theorem Dev.MemWf.makeReady {f : Frame} {ctx : Nat} {x : Ctx} {onFb : Bool} {e b : Option Nat} : (d.makeReady f ctx x onFb e b).MemWf :=
  .ite (.noteSlack (.modFrame (.upd (.setInputs h)))) (.modFrame (.upd (.setInputs h)))

theorem Dev.MemWf.readyOwn {f0 : Frame} : (d.readyOwn f0).MemWf := by
  unfold Dev.readyOwn
  extract_lets b early
  split
  · exact .voidFrame (.takeReports h)
  · exact h
  · extract_lets moved left e bad g fbState go late
    have he : e.MemWf := .ite (.modStream (.setFallback (.foldl (fun _ _ h => .releaseStream h) h))) (.ite (.setFallback h) h)
    have hg : g.MemWf := .ite (.modStream (.setFallback he)) he
    have hlate : late.2.MemWf := .takeReports hg
    have hgo : ∀ {f : Frame} {ctx : Nat} {y : Ctx} {onFb next : Bool}, (go late.2 f ctx y onFb next).MemWf :=
      .ite (.setFallback (.makeReady hlate)) (.makeReady hlate)
    split
    · exact .modFrame h
    · exact .deadlineVoid hlate
    · exact .voidFrame hlate
    · exact .ite h hgo
    · split
      · exact h
      · split
        · exact h
        · exact .ite h hgo

theorem Dev.MemWf.redispatch {cp : Ckpt} {c : Nat} : (d.redispatch cp c).MemWf := by
  unfold Dev.redispatch
  split
  · exact h
  · exact .upd (.modCore (.startRun (.upd h)))

theorem Dev.MemWf.dispatchReadout {r : Readout} {x : Scratch} {c : Nat} : (d.dispatchReadout r x c).MemWf :=
  .setPc (.setFld (.setFld (.upd (.modCore (.upd h)))))

theorem Dev.MemWf.settleJournal {c : Nat} : (d.settleJournal c).MemWf := .foldl (fun _ _ h => .ite (.refDec h) h) h
theorem Dev.MemWf.govStep {k n : Nat} : (d.govStep k n).MemWf := .upd (.dvfsRequest h)
theorem Dev.MemWf.pauseBe {b : Bool} : (d.pauseBe b).MemWf := .setFld h

theorem Dev.MemWf.govOver : d.govOver.MemWf := by
  unfold Dev.govOver
  refine .ite (.pauseBe h) ?_
  refine .ite h ?_
  split
  · exact .upd (.govStep h)
  · exact h

theorem Dev.MemWf.govStack {calm : Bool} {k : Nat} : (d.govStack calm k).MemWf :=
  .ite (.ite (.ite (.ite (.ite (.upd (.govStep h)) (.govStep h)) h) (.dvfsRequest h)) h) (.ite (.govStep h) (.ite (.govStep h) h))

theorem Dev.MemWf.govThermal : d.govThermal.MemWf := .ite (.pauseBe h) (.ite h (.upd (.foldl (fun _ _ h => .ite (.govStep h) h) h)))

theorem Dev.MemWf.govTick {rails : List (Option (Nat × Nat))} : (d.govTick rails).MemWf := by
  unfold Dev.govTick
  extract_lets p samples avg env calm gov sampled shown paused acted
  have hshown : shown.MemWf := .setFld (.upd h)
  have hpaused : paused.MemWf := .ite (.pauseBe hshown) hshown
  exact .setFld (.ite (.govThermal hshown) (.ite (.govOver hshown) (.foldl (fun _ _ h => .govStack h) hpaused)))

/-! ### Shaper -/

theorem Dev.MemWf.modPipe {k : Nat} {f : Pipe → Pipe} : (d.modPipe k f).MemWf := .upd h
theorem Dev.MemWf.modPort {k : Nat} {f : Port → Port} : (d.modPort k f).MemWf := .upd h
theorem Dev.MemWf.syncPipe {k : Nat} : (d.syncPipe k).MemWf := .setFld h

theorem Dev.MemWf.revisitWrite {w : Shaping} {dropped : Nat} {jobs : List CropJob} {crops : List (List Byte)} :
    (d.revisitWrite w dropped jobs crops).MemWf := by
  unfold Dev.revisitWrite
  extract_lets s drop e r
  have hdrop : ∀ {e : Dev}, e.MemWf → (drop e).MemWf := by
    intro e he
    unfold drop
    split
    · exact .refDec (.modStream he)
    · exact he
  have he : e.MemWf := .ite (hdrop h) h
  have hr : r.2.MemWf := by
    unfold r
    split
    · next g heq => exact .pairSnd (.snd heq (.pop he))
    · next g heq => exact .pop (hdrop (.snd heq (.pop he)))
  clear_value r
  refine .ite h ?_
  split
  · exact hr
  · exact .modStream (.foldl (fun _ _ h => .writeRun h) (.writeRun hr))

theorem Dev.MemWf.freeBytes {n : Nat} : (d.freeBytes n).2.MemWf := .fresh h

theorem Dev.MemWf.clipCopy {w : Shaping} : (d.clipCopy w).MemWf := by
  unfold Dev.clipCopy
  dsimp only
  refine .ite h ?_
  split
  · next g heq => exact .snd heq (.pop h)
  · next g heq => exact .modStream (.writeRun (.freeBytes (.snd heq (.pop h))))

theorem Dev.MemWf.writeFrame {w : Shaping} {store cal : List Byte} {h' : Nat} : (d.writeFrame w store cal h').MemWf :=
  .modFrame (.revisitWrite (.writeRun (.foldl (fun _ _ h => .writeRun h) (.ite h (.writeRun h)))))

/-! ### Sensors -/

theorem Dev.MemWf.authHead {k : Nat} {store : List Byte} {permit : Bool} : (d.authHead k store permit).MemWf :=
  .upd (.ite (.setFld (.modPort (.setFld (.ite h (.logEv h))))) (.modPort (.setFld (.ite h (.logEv h)))))

theorem Dev.MemWf.pushLines {k vc : Nat} {f : SFrame} {ls : List (Option (List Nat))} : (d.pushLines k vc f ls).MemWf := .modPipe h

theorem Dev.MemWf.endSFrame {k vc : Nat} {f : SFrame} {height : Nat} : (d.endSFrame k vc f height).MemWf :=
  .ite (.modPort (.concealment (.modPort (.pushLines h)))) (.concealment (.modPort (.pushLines h)))

theorem Dev.MemWf.dawnPass {k : Nat} : (d.dawnPass k).2.MemWf := by
  unfold Dev.dawnPass
  dsimp only
  split
  · exact .modPort h
  · exact h

theorem Dev.MemWf.portIdle {k : Nat} : (d.portIdle k).MemWf := .ite (.setFld (.setFld h)) h
theorem Dev.MemWf.headGone {k : Nat} : (d.headGone k).MemWf := .ite h (.ite (.setFld (.setFld h)) (.setFld h))
theorem Dev.MemWf.headLifeCheck {k : Nat} : (d.headLifeCheck k).MemWf := .ite (.replaceCause (.setFld (.setFld h))) h

/-! ### Queues -/

theorem Dev.MemWf.badDoorbell {kind n : Nat} : (d.badDoorbell kind n).MemWf := .setFld (.setFld (.setFld h))
theorem Dev.MemWf.flushCpl : d.flushCpl.MemWf := .foldl (fun _ _ h => .complete h) (.upd h)
theorem Dev.MemWf.syncHeld : d.syncHeld.MemWf := .setFld h

theorem Dev.MemWf.recDone {w : WaitRec} : (d.recDone w).MemWf := by
  unfold Dev.recDone
  dsimp only
  split
  · exact .refDec (.upd h)
  · exact .upd h

theorem Dev.MemWf.writeRec {r : Nat} {x : Ring} {w : WaitRec} : (d.writeRec r x w).MemWf := .recDone (.upd (.foldl (fun _ _ h => .send h) h))
theorem Dev.MemWf.discardRec {r : Nat} {x : Ring} {w : WaitRec} : (d.discardRec r x w).MemWf := .recDone (.hifErr (.upd h))

theorem Dev.MemWf.writeRelease {r n : Nat} {w : WaitRec} : (d.writeRelease r w n).MemWf := by
  induction n generalizing d with
  | zero => exact h
  | succ n ih =>
    unfold Dev.writeRelease
    split
    · exact .ite h (.ite (ih (.discardRec h)) (.ite h (ih (.writeRec h))))
    · exact h

theorem Dev.MemWf.indexed {l : List WaitRec} : (d.indexed l).MemWf := .foldl (fun _ _ h => .ite (.sendDelta (.modStream h)) h) h

theorem Dev.MemWf.dropJournal {h' : Nat} : (d.dropJournal h').MemWf := by
  unfold Dev.dropJournal
  refine .foldl (fun d x h => ?_) h
  refine .ite h ?_
  refine .modCore (.foldl (fun d x h => ?_) h)
  split
  · exact .logEv h
  · exact h

/-! ### Power and Night -/

theorem Dev.MemWf.setPhase {p : Phase} : (d.setPhase p).MemWf := .upd (.setFld (.setFld h))
theorem Dev.MemWf.setGroups {n : Nat} : (d.setGroups n).MemWf := .upd h
theorem Dev.MemWf.setEntering {b : Bool} : (d.setEntering b).MemWf := .setFld h
theorem Dev.MemWf.bootFuses : d.bootFuses.MemWf := .setFld (.setFld (.setFld (.setFld (.setFld (.setFld h)))))
theorem Dev.MemWf.runFw {slot : Nat} {f : FwSlot} : (d.runFw slot f).MemWf := .upd (.setFld (.setFld h))

theorem Dev.MemWf.bootRom : d.bootRom.MemWf := by
  unfold Dev.bootRom
  dsimp only
  split
  · exact .runFw (.setFld (.setReg (.upd (.bootFuses h))))
  · exact .setPhase (.setFld (.setFld (.setReg (.upd (.bootFuses h)))))

theorem Dev.MemWf.bootIfPowered : d.bootIfPowered.MemWf := .ite (.bootRom h) h

theorem Dev.MemWf.loseStores : d.loseStores.MemWf := by
  unfold Dev.loseStores
  exact .foldl (fun _ _ h => .writeRun h) (Memory.wf_filter h _ _ _)

theorem Dev.MemWf.loseWork : d.loseWork.MemWf := .upd (.loseStores h)
theorem Dev.MemWf.resetRegs3 : d.resetRegs3.MemWf := .upd h
theorem Dev.MemWf.pllsOff : d.pllsOff.MemWf := .setFld (.setFld h)
theorem Dev.MemWf.opZero : d.opZero.MemWf := .foldl (fun _ _ h => .setMv (.setFld (.setOp (.setDv h)))) h
theorem Dev.MemWf.loseQueues : d.loseQueues.MemWf := .upd h
theorem Dev.MemWf.loseFabric : d.loseFabric.MemWf := .upd h
theorem Dev.MemWf.startDusk : d.startDusk.MemWf := .upd (.setPhase h)

theorem Dev.MemWf.sleepReq : d.sleepReq.MemWf := by
  unfold Dev.sleepReq
  split
  · exact .startDusk h
  · exact .ite (.upd h) (.startDusk h)
  · exact .setFld h
  · exact .upd h
  · exact .upd h
  · exact h

theorem Dev.MemWf.leaveNight : d.leaveNight.MemWf := .setGroups (.upd (.satFld (.setEntering (.setPhase h))))

theorem Dev.MemWf.wake {cause : Option Nat} : (d.wake cause).MemWf := by
  unfold Dev.wake
  dsimp only
  split
  · refine .setFld (.ite ?_ ?_)
    · refine .setFld (.upd ?_)
      split
      · exact .setFld h
      · exact h
    · refine .upd ?_
      split
      · exact .setFld h
      · exact h
  · refine .ite ?_ ?_
    · refine .upd ?_
      split
      · exact .setFld h
      · exact h
    · refine .leaveNight (.ite ?_ ?_)
      · refine .setFld (.upd ?_)
        split
        · exact .setFld h
        · exact h
      · refine .upd ?_
        split
        · exact .setFld h
        · exact h
  · refine .upd ?_
    split
    · exact .setFld h
    · exact h

theorem Dev.MemWf.renamePage {y : SeqSet} {p n : Nat} : (d.renamePage y p n).2.MemWf := .foldl (fun _ _ h => .writeRun h) h
theorem Dev.MemWf.copyBytes {src dst n : Nat} : (d.copyBytes src dst n).MemWf := .setPoison (.writeRun h)
theorem Dev.MemWf.modSet {base : Nat} {f : SeqSet → SeqSet} : (d.modSet base f).MemWf := .upd h
theorem Dev.MemWf.loseSet {y : SeqSet} : (d.loseSet y).MemWf := .modSet (.foldl (fun _ _ h => .unAlloc h) h)

theorem Dev.MemWf.saveSet {y : SeqSet} : (d.saveSet y).MemWf := by
  unfold Dev.saveSet
  extract_lets t e cab size
  have he : e.MemWf := .foldl (fun _ _ h => .writeRun (.foldl (fun _ _ h => .refDec h) h)) h
  have hpages : (if t.spill = 0xFF then (none, e) else e.popMany t.spill (cab.length + cdiv size 4096) []).2.MemWf := by
    split
    · exact he
    · exact .popMany he
  split
  · next g heq => exact .loseSet (.snd heq hpages)
  · next g heq =>
    exact .modSet (.foldl (fun _ _ h => .copyBytes h) (.foldl (fun _ _ h => .setBuf (.renamePage (.copyBytes h))) (.snd heq hpages)))

theorem Dev.MemWf.restoreSet {y : SeqSet} : (d.restoreSet y).MemWf := by
  unfold Dev.restoreSet
  refine .ite h (.modSet (.foldl (fun d p h => ?_) (.foldl (fun _ _ h => .unAlloc h) (.foldl (fun _ _ h => .copyBytes h) h))))
  split
  · next g heq => exact .snd heq (.pop h)
  · next g heq => exact .unAlloc (.setBuf (.renamePage (.copyBytes (.snd heq (.pop h)))))

theorem Dev.MemWf.dropHeld : d.dropHeld.MemWf := .syncHeld (.ite (.hifErr (.upd h)) (.upd h))

theorem Dev.MemWf.dropWaiting : d.dropWaiting.MemWf := by
  unfold Dev.dropWaiting
  refine .foldl (fun d x h => ?_) h
  split
  · exact .discardRec h
  · exact h

theorem Dev.MemWf.linkDiscard : d.linkDiscard.MemWf := by
  unfold Dev.linkDiscard
  split
  · exact h
  · exact .ite h (.upd (.dropHeld (.dropWaiting h)))

theorem Dev.MemWf.enterNight : d.enterNight.MemWf := by
  unfold Dev.enterNight
  extract_lets self discarded told dropped bpm lost keep kept off que waits down slept groups pwr night
  have hsaved : told.MemWf := .notice (.foldl (fun _ _ h => .saveSet h) (.linkDiscard h))
  have hdropped : dropped.MemWf := .foldl (fun _ _ h => .foldl (fun _ _ h => .dropChunk h) h) hsaved
  have hoff : off.MemWf := .opZero (.pllsOff (.loseFabric (.upd (.loseWork (.dramDrain hdropped)))))
  have hslept : slept.MemWf := .setPhase (.setFld (.foldl (fun _ _ h => .setFld h) (.upd hoff)))
  have hnight : night.MemWf := .upd (.setGroups hslept)
  exact .ite (.leaveNight (.setFld hnight)) (.setFld hnight)

theorem Dev.MemWf.recoveryLimit : d.recoveryLimit.MemWf := .startDusk (.health (.replaceCause (.upd (.notice h))))

theorem Dev.MemWf.startL3 {code : Nat} {self : Bool} {silent : Option Nat} {keepCfg : Bool} : (d.startL3 code self silent keepCfg).MemWf := by
  unfold Dev.startL3
  extract_lets recent told lost counted entering rc host cfg pwr reset
  have hlost : lost.MemWf :=
    .setPhase (.opZero (.pllsOff (.resetRegs3 (.loseFabric (.loseQueues (.loseWork (.dramDrain (.notice h))))))))
  have hreset : reset.MemWf := .upd (.setFld (.setEntering (.wrapFld hlost)))
  exact .ite h (.ite h (.ite (.recoveryLimit h) (.setGroups (.setFld hreset))))

theorem Dev.MemWf.reloadImg {a : Nat} {i : Image} : (d.reloadImg a i).MemWf := by
  unfold Dev.reloadImg
  refine .foldl (fun d x h => ?_) ?_
  · exact .writeRun (.clear h)
  · refine .foldl (fun d x h => ?_) (.foldl (fun _ _ h => .fillRegion h) h)
    split
    · exact h
    · exact .initTags (.fillBanks h)

theorem Dev.MemWf.reloadAll {check : Bool} : (d.reloadAll check).MemWf := .foldl (fun _ _ h => .ite (.unloadImg h) (.reloadImg h)) h

theorem Dev.MemWf.remakePools {ps : List Nat} : (d.remakePools ps).MemWf :=
  .foldl (fun _ _ h => .ite (.ite (.relinkDone (.enablePool (.setReg h))) (.enablePool (.setReg h))) (.setReg h)) h

theorem Dev.MemWf.clkBoot : d.clkBoot.MemWf := .foldl (fun _ _ h => .ite (.upd (.setFld h)) (.setFld (.upd (.setFld h)))) h

theorem Dev.MemWf.rejoin : d.rejoin.MemWf := by
  unfold Dev.rejoin
  split
  · exact h
  · exact .joinSettle (.upd (.foldl (fun _ _ h => .portStart h) (.syncProtect (.setFld (.setFld (.setFld (.setFld (.setReg h))))))))

theorem Dev.MemWf.voidUnindexed {id code : Nat} : (d.voidUnindexed id code).MemWf := by
  unfold Dev.voidUnindexed
  split
  · exact h
  · exact .foldl (fun _ _ h => .voidNum (.upd h)) (.modStream h)

theorem Dev.MemWf.slotsAgain {id : Nat} : (d.slotsAgain id).MemWf := by
  unfold Dev.slotsAgain
  split
  · exact h
  · refine .ite h ?_
    split
    · next g heq => exact .modStream (.snd heq (.popMany h))
    · next g heq => exact .modStream (.snd heq (.popMany h))

theorem Dev.MemWf.restartStream {id code : Nat} : (d.restartStream id code).MemWf :=
  .ite (.setFallback (.slotsAgain h)) (.voidUnindexed (.setFallback (.slotsAgain h)))

/-! ### Boot and Dawn -/

theorem Dev.MemWf.dayToDawn : d.dayToDawn.MemWf := .upd (.foldl (fun _ _ h => .dvfsRequest h) (.setEntering (.setPhase h)))
theorem Dev.MemWf.raiseStacks : d.raiseStacks.MemWf := .ite (.foldl (fun _ _ h => .dvfsRequest h) h) h

theorem Dev.MemWf.firstReady : d.firstReady.MemWf := by
  unfold Dev.firstReady
  split
  · exact h
  · exact .ite h (.setFld (.setFld (.upd h)))

theorem Dev.MemWf.postLoss : d.postLoss.MemWf := by
  unfold Dev.postLoss
  split
  · exact h
  · exact .health (.upd h)

theorem Dev.MemWf.enterDay : d.enterDay.MemWf := .postLoss (.raiseStacks (.firstReady (.setPhase h)))

theorem Dev.MemWf.voidHoles {id : Nat} : (d.voidHoles id).MemWf := by
  unfold Dev.voidHoles
  split
  · exact h
  · exact .ite h (.foldl (fun _ _ h => .voidNum (.upd h)) (.modStream h))

theorem Dev.MemWf.abortFrames : d.abortFrames.MemWf := by
  unfold Dev.abortFrames
  refine .upd (.foldl (fun d x h => ?_) h)
  split
  · exact .ite h (.ite (.dropShares (.abortCore h)) (.abortCore h))
  · exact h

theorem Dev.MemWf.newField {c : Nat} {new : List Nat} {flashOk : Bool} : (d.newField c new flashOk).MemWf :=
  .ite h (.ite (.health (.ite (.upd h) (.health h))) (.ite (.upd h) (.health h)))

theorem Dev.MemWf.bypassCore {c : Nat} {failed : List Nat} {flashOk : Bool} : (d.bypassCore c failed flashOk).MemWf := by
  unfold Dev.bypassCore
  extract_lets fac old seen new fld base user took all width fielded mapped w1 w2 w3 w4 w5 shown
  have hmapped : mapped.MemWf := .foldl (fun _ _ h => .setReg h) (.newField h)
  have hshown : shown.MemWf := .setFld (.setFld (.setFld (.setFld (.setFld (.setFld hmapped)))))
  exact .ite (.replaceCause hshown) hshown

theorem Dev.MemWf.dawnHead {k : Nat} {store : List Byte} : (d.dawnHead k store).MemWf :=
  .ite h (.headLifeCheck (.authHead (.ite h (.headGone (.setFld (.modPort h))))))

theorem Dev.MemWf.restoreNight : d.restoreNight.MemWf :=
  .ite h (.rejoin (.setMode (.upd (.foldl (fun _ _ h => .restoreSet h) (.reloadAll (.remakePools (.clkBoot (.migResume (.dramWake h)))))))))

theorem Dev.MemWf.dawnEnd : d.dawnEnd.MemWf :=
  .ite (.startDusk (.upd (.setEntering h))) (.ite (.enterDay (.upd (.setEntering h))) (.upd (.setEntering h)))

theorem Dev.MemWf.rankRecord : d.rankRecord.MemWf :=
  .migResume (.ite (.dramReplace (.setFld (.foldl (fun _ _ h => .setReg h) h))) (.spareCheck (.setFld (.foldl (fun _ _ h => .setReg h) h))))

theorem Dev.MemWf.restoreAfterL3 : d.restoreAfterL3.MemWf := by
  unfold Dev.restoreAfterL3
  refine .rejoin (.upd ?_)
  split
  · exact .logEv (.foldl (fun _ _ h => .restartStream h) (.upd (.upd (.reloadAll (.remakePools h)))))
  · exact .foldl (fun _ _ h => .restartStream h) (.upd (.upd (.reloadAll (.remakePools h))))

theorem Dev.MemWf.selectClk {force : Bool} {dom sel : Nat} : (d.selectClk force dom sel).MemWf :=
  .ite h (.ite (.setFld h) (.ite (.upd (.setFld (.setFld h))) (.upd (.setFld h))))

theorem Dev.MemWf.switched {dom : Nat} : (d.switched dom).MemWf := .upd (.setFld h)

/-! ### Host link -/

theorem Dev.MemWf.logHole {holes : List Nat} : (d.logHole holes).MemWf := by
  unfold Dev.logHole
  split
  · exact h
  · exact .logEv h

theorem Dev.MemWf.releasePba : d.releasePba.MemWf := .foldl (fun _ _ h => .send h) (.upd h)
theorem Dev.MemWf.resume : d.resume.MemWf := .ite h (.releasePba (.syncHeld (.upd h)))
theorem Dev.MemWf.unmask {v : Option Nat} : (d.unmask v).MemWf := .releasePba (.upd h)

theorem Dev.MemWf.msixTable {offset v : Nat} : (d.msixTable offset v).MemWf := by
  unfold Dev.msixTable
  refine .ite h ?_
  dsimp only
  split
  · exact .upd h
  · exact .upd h
  · exact .upd h
  · exact .ite (.upd h) (.unmask h)

theorem Dev.MemWf.setD3 {b : Bool} : (d.setD3 b).MemWf := .upd h
theorem Dev.MemWf.toD3hot : d.toD3hot.MemWf := .sleepReq (.setD3 h)
theorem Dev.MemWf.toD0 : d.toD0.MemWf := .wake (.setD3 h)

theorem Dev.MemWf.cfgRead {o : Nat} : (d.cfgRead o).MemWf := by
  unfold Dev.cfgRead
  split
  · exact .out h
  · exact .out (.upd h)

theorem Dev.MemWf.setCfg {f : CfgSpace → CfgSpace} : (d.setCfg f).MemWf := .upd h

theorem Dev.MemWf.cfgWrite {o v : Nat} : (d.cfgWrite o v).MemWf := by
  unfold Dev.cfgWrite
  split
  · exact .resume (.setCfg h)
  · exact .setCfg h
  · exact .setCfg h
  · exact .setCfg h
  · exact .setCfg h
  · exact .setCfg h
  · exact .setCfg h
  · exact .ite (.toD3hot h) (.ite (.toD0 h) h)
  · exact .setCfg h
  · exact .setCfg h
  · exact .setCfg h
  · exact .releasePba (.setCfg h)
  · exact .ite (.setCfg h) h
  · exact h

/-! ### Hangs and resets -/

theorem Dev.MemWf.declareHang {u level flags : Nat} {r : Option Run} : (d.declareHang u level flags r).MemWf := .satFld (.setFld (.setFld (.logEv h)))

theorem Dev.MemWf.loseParticipant {c : Nat} {r : Run} : (d.loseParticipant c r).MemWf :=
  .syncShares (.freeCore (.stoolKeep (.undoJournal (.dropRefs (.upd h)))))

theorem Dev.MemWf.resetFrame {level : Nat} {f : Frame} {hit : Bool} : (d.resetFrame level f hit).MemWf :=
  .ite (.voidFrame h) (.modFrame (.freeRecs h))

theorem Dev.MemWf.suspectStreams {cs : List Nat} : (d.suspectStreams cs).MemWf := by
  unfold Dev.suspectStreams
  refine .foldl (fun d x h => ?_) h
  split
  · exact .ite (.modStream (.setFallback h)) h
  · exact h

theorem Dev.MemWf.abortStacks {ks : List Nat} {kept gone : List (Nat × Run × Ckpt)} : (d.abortStacks ks kept gone).MemWf := by
  unfold Dev.abortStacks
  extract_lets lost sched redone aborted freed
  have hredone : redone.MemWf := .upd (.foldl (fun _ _ h => .loseParticipant h) h)
  have hfreed : freed.MemWf := .foldl (fun _ _ h => .ite (.freeCore (.readoutAbort h)) h) (.foldl (fun _ _ h => .abortCore h) hredone)
  refine .foldl (fun d x h => .dropShares (.upd (.foldl (fun d x h => ?_) h))) hfreed
  split
  · exact .ite (.abortCore h) h
  · exact h

theorem Dev.MemWf.computeReset {kind : ResetKind} {ks : List Nat} {cause : Nat} : (d.computeReset kind ks cause).MemWf := by
  unfold Dev.computeReset
  extract_lets level old all hits backs kept gone cs frames others keptFrames refs claims reps r held recov noted aborted suspected ended f1 f2
  have hnoted : noted.MemWf := .upd (.foldl (fun _ _ h => .refInc h) h)
  have hsuspected : suspected.MemWf := .suspectStreams (.abortStacks hnoted)
  have hended : ended.MemWf := .ite (.foldl (fun _ _ h => .endClaiming h) hsuspected) hsuspected
  exact .syncRecov (.foldl (fun _ _ h => .resetFrame h) (.foldl (fun _ _ h => .resetFrame h) hended))

theorem Dev.MemWf.level2 {cause : Nat} : (d.level2 cause).MemWf := .ite (.startL3 h) (.computeReset (.upd (.setFld (.satFld h))))
theorem Dev.MemWf.countL1 {k : Nat} : (d.countL1 k).MemWf := .satFld h
theorem Dev.MemWf.level1 {k cause : Nat} {core : Bool} : (d.level1 k cause core).MemWf := .ite (.level2 h) (.computeReset (.countL1 (.upd h)))

theorem Dev.MemWf.replayHang {k u : Nat} {r : Run} : (d.replayHang k u r).MemWf := by
  unfold Dev.replayHang
  refine .computeReset (.countL1 ?_)
  split
  · exact .putReset (.markFaulted (.declareHang h))
  · exact .markFaulted (.declareHang h)

theorem Dev.MemWf.coreHang {u : Nat} : (d.coreHang u).MemWf := by
  unfold Dev.coreHang
  dsimp only
  split
  · exact .replayHang h
  · exact .level1 (.declareHang h)

theorem Dev.MemWf.retireUnit {u : Nat} : (d.retireUnit u).MemWf := .ite (.setFld (.upd h)) (.ite (.setFld (.upd h)) (.upd h))

theorem Dev.MemWf.unitHang {u : Nat} : (d.unitHang u).MemWf :=
  .ite (.upd (.declareHang h)) (.ite (.retireUnit (.satFld (.upd (.upd (.declareHang h))))) (.satFld (.upd (.upd (.declareHang h)))))

theorem Dev.MemWf.sample {u : Nat} : (d.sample u).MemWf := .ite (.ite (.coreHang (.upd h)) (.unitHang (.upd h))) (.upd h)

theorem Dev.MemWf.concealWhole {n : Nat} : (d.concealWhole n).MemWf := by
  unfold Dev.concealWhole
  extract_lets e idle
  split
  · exact h
  · extract_lets gone emptied v ended
    have hended : ended.MemWf := .endDecode (.fresh (.ite (.modEngine h) h))
    exact .ite (.engineIdle (.useChunks (.modEngine h))) (.ite hended (.ite (.modEngine hended) (.modEngine hended)))

theorem Dev.MemWf.jpegReset : d.jpegReset.MemWf := by
  unfold Dev.jpegReset
  split
  · exact h
  · dsimp only
    split
    · exact .syncJpeg (.upd h)
    · exact .dropChunk (.ite (.takeNum (.adoptEpoch (.syncJpeg (.upd h)))) (.voidNum (.takeNum (.adoptEpoch (.syncJpeg (.upd h))))))

theorem Dev.MemWf.pipeReset {k : Nat} : (d.pipeReset k).MemWf := by
  unfold Dev.pipeReset
  refine .syncPipe (.foldl (fun d x h => ?_) ?_)
  · exact .concealWhole (.modEngine h)
  · refine .ite ?_ ?_
    · refine .upd (.modPort (.modPipe (.foldl (fun d x h => ?_) h)))
      split
      · exact .voidFrame h
      · exact h
    · refine .modPort (.modPipe (.foldl (fun d x h => ?_) h))
      split
      · exact .voidFrame h
      · exact h

theorem Dev.MemWf.dropReadouts {q : Nat} : (d.dropReadouts q).MemWf := by
  unfold Dev.dropReadouts
  refine .foldl (fun d x h => ?_) (.upd h)
  refine .foldl (fun d x h => ?_) h
  dsimp only
  split
  · exact .freeCore (.foldl (fun _ _ h => .refDec h) h)
  · exact .foldl (fun _ _ h => .refDec h) h

theorem Dev.MemWf.queueReset {q : Nat} : (d.queueReset q).MemWf := .endCmds (.upd (.dropReadouts h))

theorem Dev.MemWf.settleUnit {u : Nat} : (d.settleUnit u).MemWf :=
  .ite (.syncLoads (.modEngine (.concealWhole h))) (.ite (.jpegReset h) (.ite (.pipeReset h) (.ite (.queueReset h) h)))

theorem Dev.MemWf.clearDie {k : Nat} : (d.clearDie k).MemWf :=
  .setReg (.setReg (.upd (.foldl (fun _ _ h => .setReg (.setReg (.setReg (.setCore (.clear h))))) h)))

theorem Dev.MemWf.markOrphans {ks : List Nat} {r : ResetRun} : (d.markOrphans ks r).MemWf := .shareCheck (.upd h)

theorem Dev.MemWf.escape {dom : Nat} {self : Bool} : (d.escape dom self).MemWf :=
  .ite (.level1 (.setFld (.switched h))) (.startL3 (.setFld (.switched h)))

/-! ### Security engine -/

theorem Dev.MemWf.epochStatus {x : Sec} {exhausted : Bool} : (d.epochStatus x exhausted).MemWf :=
  .ite (.replaceCause (.logEv (.setFld (.setFld (.setFld (.setFld h)))))) (.setFld (.setFld (.setFld (.setFld h))))

theorem Dev.MemWf.attDone {x : Sec} : (d.attDone x).MemWf := by
  unfold Dev.attDone
  split
  · exact h
  · dsimp only
    split
    · exact .complete (.epochStatus (.upd h))
    · exact .complete (.send (.epochStatus (.upd h)))

theorem Dev.MemWf.otpStart {op : Nat} : (d.otpStart op).MemWf := .ite h (.ite (.setFld h) (.upd (.setFld h)))
theorem Dev.MemWf.otpProgram : d.otpProgram.MemWf := .ite (.setFld h) (.setFld (.upd h))
theorem Dev.MemWf.otpEnforce : d.otpEnforce.MemWf := .ite (.setFld h) (.setFld (.setFld (.upd h)))

/-! ### Register writes -/

theorem Dev.MemWf.poolWrite {off v : Nat} : (d.poolWrite off v).MemWf := .ite (.busWrite h) (.setFld h)
theorem Dev.MemWf.clkmonWrite {v : Nat} : (d.clkmonWrite v).MemWf := .setFld (.busWrite h)
theorem Dev.MemWf.marginWrite {k v : Nat} : (d.marginWrite k v).MemWf := .ite (.setReg h) (.setFld (.setDv (.setReg h)))
theorem Dev.MemWf.policyWrite {v : Nat} : (d.policyWrite v).MemWf := .setFld (.busWrite h)
theorem Dev.MemWf.adminBase {off v : Nat} : (d.adminBase off v).MemWf := .ite h (.setReg h)

theorem Dev.MemWf.plainWrite {off v : Nat} : (d.plainWrite off v).MemWf := by
  unfold Dev.plainWrite
  refine .ite h (.ite (.poolWrite h) (.ite (.clkmonWrite h) (.ite (.marginWrite h) (.ite (.marginWrite h) ?_))))
  exact .ite (.policyWrite h) (.ite (.adminBase h) (.ite (.upd h) (.busWrite h)))

theorem Dev.MemWf.recoveryWrite {off v : Nat} : (d.recoveryWrite off v).MemWf := .ite h (.upd h)
theorem Dev.MemWf.otpWrite {v : Nat} : (d.otpWrite v).MemWf := .ite h (.ite (.setFld (.busWrite h)) (.ite (.otpStart (.busWrite h)) (.busWrite h)))

/-! ### Stream commands -/

theorem Dev.MemWf.awaitAck {q : Nat} {e : List Byte} {id arg : Nat} : (d.awaitAck q e id arg).MemWf := .upd (.keepCmd h)
theorem Dev.MemWf.feedStep {id h' : Nat} {ep : Epoch} {stamp : Nat} : (d.feedStep id h' ep stamp).MemWf := .upd (.takeNum (.adoptEpoch h))

theorem Dev.MemWf.feedDone {q : Nat} {e : List Byte} {id h' epoch stamp : Nat} {b : List Byte} : (d.feedDone q e id h' epoch stamp b).MemWf := by
  unfold Dev.feedDone
  split
  · exact .awaitAck (.mirrorChunk h)
  · exact .reply h

theorem Dev.MemWf.clearFresh {id : Nat} : (d.clearFresh id).MemWf := .upd h
theorem Dev.MemWf.badEpoch {q : Nat} {e : List Byte} {id : Nat} : (d.badEpoch q e id).MemWf := .reply (.logEv h)

/-! ### Control instructions -/

theorem Dev.MemWf.issueSeq {c next : Nat} {w : IWord} {ok : Bool} {eff : Dev → Dev} (heff : ∀ {e : Dev}, e.MemWf → (eff e).MemWf) :
    (d.issueSeq c w ok next eff).MemWf :=
  .ite (.fault h) (.ite (.setWaits h) (.countRetired (.signal (.setPc (heff (.clearWaits (.takeWait h)))))))

theorem Dev.MemWf.setS {c i v : Nat} : (d.setS c i v).MemWf := .modCore h

theorem Dev.MemWf.doSets {c : Nat} {w : IWord} : (d.doSets c w).MemWf := by
  unfold Dev.doSets
  exact .issueSeq h fun he => .setS he

theorem Dev.MemWf.doSalu {c : Nat} {w : IWord} : (d.doSalu c w).MemWf := by
  unfold Dev.doSalu
  exact .issueSeq h fun he => .setS he

theorem Dev.MemWf.doLoop {c : Nat} {w : IWord} : (d.doLoop c w).MemWf := by
  unfold Dev.doLoop
  dsimp only
  split
  · exact .issueSeq h fun he => .setS he
  · exact .fault h

theorem Dev.MemWf.doBr {c : Nat} {w : IWord} : (d.doBr c w).MemWf := by
  unfold Dev.doBr
  dsimp only
  split
  · exact .issueSeq h id
  · exact .fault h

theorem Dev.MemWf.doWait {c : Nat} {w : IWord} : (d.doWait c w).MemWf := by
  unfold Dev.doWait
  extract_lets n t x
  clear_value x
  refine .ite (.fault h) ?_
  split
  · exact .setWaits h
  · exact .ite (.setWaits h) (.issueSeq h fun he => .tokSub he)

theorem Dev.MemWf.doSignal {c : Nat} {w : IWord} : (d.doSignal c w).MemWf := by
  unfold Dev.doSignal
  refine .issueSeq h fun he => .ite ?_ (.tokAdd he)
  split
  · exact .upd he
  · exact he

theorem Dev.MemWf.doKend {c : Nat} {w : IWord} : (d.doKend c w).MemWf := .ite (.fault h) (.ite (.setWaits h) (.modCore (.clearWaits (.takeWait h))))

theorem Dev.MemWf.doAlloc {c : Nat} {w : IWord} : (d.doAlloc c w).MemWf := by
  unfold Dev.doAlloc
  extract_lets k p pc e fin
  have he : e.MemWf := .clearWaits (.takeWait h)
  have hfin : ∀ {g : Dev}, g.MemWf → (fin g).MemWf := fun hg => .countRetired (.signal (.setPc hg))
  refine .ite (.fault h) (.ite (.setWaits h) (.ite (.setWaits h) ?_))
  split
  · next b g heq =>
    extract_lets journal set
    have hset : set.MemWf := .setS (.modCore (.snd heq (.pop he)))
    exact hfin (.ite (.setS hset) hset)
  · next g heq =>
    have hg : g.MemWf := .snd heq (.pop he)
    exact .ite (hfin (.setS hg)) (.fault hg)

theorem Dev.MemWf.issuePool {c : Nat} {w : IWord} : (d.issuePool c w).MemWf :=
  .ite (.fault h) (.ite (.setWaits h) (.ite (.setWaits h) (.putFlight (.setPc (.clearWaits (.takeWait h))))))

theorem Dev.MemWf.takeOrphan {ctr t : Nat} : (d.takeOrphan ctr t).MemWf := .syncShares (.wrapFld (.ite (.upd h) (.upd h)))

theorem Dev.MemWf.doClaim {c : Nat} {w : IWord} : (d.doClaim c w).MemWf := by
  unfold Dev.doClaim
  extract_lets k ctr tiling step
  refine .ite (.setWaits h) (.issueSeq h fun {e} he => ?_)
  extract_lets old bump
  split
  next v g heq =>
  have hg : g.MemWf := by
    refine .snd heq (.iteSnd ?_ (.upd he))
    split
    · exact .takeOrphan he
    · exact .upd he
  exact .setS (.ite (.modCore hg) hg)

end

end Sys2Proof.Machine
end

section
/-!
SUPPORT. Memory keeps its canonical form at every command (O60).
-/

namespace Sys2Proof.Machine

/-- Memory is in its canonical form in the state that a command answers, if it answers one. -/
def NextMemWf (o : Host.Outcome State Fault Refusal) : Prop := ∀ t, o = .next t → t.d.MemWf

section

variable {s : State}

theorem NextMemWf.next (h : s.d.MemWf) : NextMemWf (.next s) := by
  rintro t ⟨⟩
  exact h

theorem NextMemWf.ite {c : Prop} [Decidable c] {o p : Host.Outcome State Fault Refusal} (ho : NextMemWf o) (hp : NextMemWf p) :
    NextMemWf (if c then o else p) := by
  split
  · exact ho
  · exact hp

theorem memWf_powerOn : s.powerOn.d.MemWf := by
  unfold State.powerOn
  exact .setFld (.setFld (.setFld (.of_empty rfl)))

variable (h : s.d.MemWf)
include h

theorem NextMemWf.onDev {f : Dev → Dev} (hf : ∀ {d}, d.MemWf → (f d).MemWf) : NextMemWf (onDev s f) := .next (hf (.upd h))
theorem NextMemWf.onDevAt {n : Nat} {f : Dev → Dev} (hf : ∀ {d}, d.MemWf → (f d).MemWf) : NextMemWf (onDevAt s n f) := .next (hf (.upd h))

theorem NextMemWf.onCmd {op q : Nat} {e : List Byte} {f : Dev → Dev} (hf : ∀ {d}, d.MemWf → (f d).MemWf) : NextMemWf (onCmd s op q e f) :=
  .onDev h fun h => .ite h (.ite h (.ite (hf (.fetched h)) (.reply (.fetched h))))

/-! ### The commands -/

theorem NextMemWf.execLoadImage {q : Nat} {e : List Byte} : NextMemWf (execLoadImage q e s) := by
  unfold Machine.execLoadImage
  exact .onCmd h fun h => .reply (.loadImg h)

theorem NextMemWf.execUnload {q : Nat} {e : List Byte} : NextMemWf (execUnload q e s) := by
  unfold Machine.execUnload
  refine .onCmd h fun h => ?_
  split
  · exact .reply h
  · exact .ite (.reply h) (.reply (.unloadImg h))

theorem NextMemWf.execSetContext {q : Nat} {e : List Byte} : NextMemWf (execSetContext q e s) := .onCmd h fun h => .ite (.reply h) (.reply (.upd h))

theorem NextMemWf.execSeqSet {q : Nat} {e data : List Byte} : NextMemWf (execSeqSet q e data s) := by
  unfold Machine.execSeqSet
  refine .onCmd h fun h => ?_
  dsimp only
  split
  · exact .reply h
  · refine .ite (.reply h) ?_
    refine .reply (.upd (.writeRun ?_))
    split
    · exact .foldl (fun _ _ h => .foldl (fun _ _ h => .refDec h) h) h
    · exact h

theorem NextMemWf.execPoisonRepairComplete : NextMemWf (execPoisonRepairComplete s) := .onDev h fun h => .repairDone h

theorem NextMemWf.execPictureStart {engine : Nat} {pic : PicInfo} : NextMemWf (execPictureStart engine pic s) :=
  .onDev h fun h => .ite (.startPicture h) h

theorem NextMemWf.execLineRingGroupWrite {engine : Nat} {rows : List (List Nat)} {concealed : List Nat} {subcode : Nat} :
    NextMemWf (execLineRingGroupWrite engine rows concealed subcode s) :=
  .onDev h fun h => .ite (.groupWrite h) h

theorem NextMemWf.execPictureComplete {engine cycles lag refLag : Nat} {coded : List Byte} :
    NextMemWf (execPictureComplete engine cycles lag refLag coded s) := by
  unfold Machine.execPictureComplete
  refine .onDev h fun h => ?_
  split
  · exact h
  · exact .ite (.endEncode h) (.ite h (.endDecode h))

theorem NextMemWf.execHardCapAbort {engine : Nat} : NextMemWf (execHardCapAbort engine s) := by
  unfold Machine.execHardCapAbort
  refine .onDev h fun h => ?_
  split
  · exact h
  · exact .ite h (.endDecode h)

theorem NextMemWf.execJpegJobComplete {pic : PicInfo} {rows : List (List Nat)} {concealed subcode : Nat} {coded : List Byte} :
    NextMemWf (execJpegJobComplete pic rows concealed subcode coded s) := by
  unfold Machine.execJpegJobComplete
  refine .onDev h fun h => ?_
  split
  · exact h
  · split
    · exact h
    · refine .ite h ?_
      extract_lets p jpeg left done r kept marked next b lagged cycled out erred told
      have hdone : done.MemWf := .syncJpeg (.satFld (.upd h))
      have hr : r.2.MemWf := .takeNum (.adoptEpoch hdone)
      have hcycled : cycled.MemWf := .countCycles (.modStream (.setBudget (.markChunk hr)))
      have herred : erred.MemWf := .ite hcycled (.decodeErr hcycled)
      have htold : told.MemWf := .ite (.voidNum (.decodeErr herred)) (.ite (.voidNum herred) (.stillOut herred))
      refine .ite (.dropChunk (.ite hr (.histAdd hr))) (.ite (.dropChunk (.decodeErr hdone)) ?_)
      split
      · exact .dropChunk htold
      · exact htold

theorem NextMemWf.execCodCtlWrite {engine : Nat} {value : Word} : NextMemWf (execCodCtlWrite engine value s) := by
  unfold Machine.execCodCtlWrite
  exact .onDev h fun h => .ite h (.ite (.setFld h) (.ite (.setFld (.setFld (.setFld h))) (.syncLoads (.modEngine (.setFld (.setFld (.setFld h)))))))

theorem NextMemWf.execDramRequest {addr : Nat} {write : Option (List (Option Byte))} : NextMemWf (execDramRequest addr write s) := by
  unfold Machine.execDramRequest
  refine .onDev h fun h => ?_
  refine .ite h ?_
  split
  · exact .dramWrite h
  · exact .dramRead h

theorem NextMemWf.execDramRefreshCommand {ch rank : Nat} : NextMemWf (execDramRefreshCommand ch rank s) := .onDev h fun h => .ite h (.modDch h)

theorem NextMemWf.execDramTempSample {temps : List ℤ} : NextMemWf (execDramTempSample temps s) := by
  unfold Machine.execDramTempSample
  exact .onDev h fun h => .ite h (.ite (.upd (.setFld (.setReg (.setReg h)))) (.health (.setFld (.upd (.upd (.setFld (.setReg (.setReg h))))))))

theorem NextMemWf.execMigrationLineCopy {ch : Nat} : NextMemWf (execMigrationLineCopy ch s) := .onDev h fun h => .ite (.migrateLine h) h

theorem NextMemWf.execDramScrubRead {badReadBack : List Nat} : NextMemWf (execDramScrubRead badReadBack s) := by
  unfold Machine.execDramScrubRead
  refine .onDev h fun h => ?_
  refine .ite h ?_
  refine .ite ?_ ?_
  · refine .setFld (.foldl (fun d x h => ?_) h)
    split
    · exact h
    · exact .foldl (fun _ _ h => .noteCw h) h
  · refine .ite ?_ ?_
    · refine .setFld (.setFld (.foldl (fun d x h => ?_) h))
      split
      · exact h
      · exact .foldl (fun _ _ h => .noteCw h) h
    · refine .wrapFld (.setFld (.setFld (.foldl (fun d x h => ?_) h)))
      split
      · exact h
      · exact .foldl (fun _ _ h => .noteCw h) h

theorem NextMemWf.execCabinetScrubRead {store : Nat} : NextMemWf (execCabinetScrubRead store s) := by
  unfold Machine.execCabinetScrubRead
  exact .onDev h fun h => .ite h (Dev.MemWf.noteCw h)

theorem NextMemWf.execCorrectionWriteback : NextMemWf (execCorrectionWriteback s) := by
  unfold Machine.execCorrectionWriteback
  refine .onDev h fun h => ?_
  split
  · exact h
  · exact .ite (.writeBack h) h

theorem NextMemWf.execGroupJoin {q : Nat} {e data : List Byte} : NextMemWf (execGroupJoin q e data s) := by
  unfold Machine.execGroupJoin
  refine .ite (.onDev h id) (.onCmd h fun h => .ite (.reply h) (.ite (.reply h) ?_))
  exact .joinSettle (.upd (.foldl (fun _ _ h => .portStart h) (.keepCmd h)))

theorem NextMemWf.execGroupLeave {q : Nat} {e : List Byte} : NextMemWf (execGroupLeave q e s) := by
  unfold Machine.execGroupLeave
  exact .onCmd h fun h => .reply (.syncProtect (.setReg (.setReg (.upd (.foldl (fun _ _ h => .portStop h) (.unprotectWith (.notice h)))))))

theorem NextMemWf.execFlitReceive {port : Nat} {flit : Flit} : NextMemWf (execFlitReceive port flit s) := by
  unfold Machine.execFlitReceive
  refine .onDev h fun h => ?_
  refine .ite h ?_
  split
  · exact .flitIn h
  · exact .flitIn (.satFld h)
  · exact .sendCtl (.satFld (.modFport h))

theorem NextMemWf.execMirrorChunk {port stream epoch stamp : Nat} {data : List Byte} : NextMemWf (execMirrorChunk port stream epoch stamp data s) :=
  .onDev h fun h => .ite (.onMirrorChunk h) h

theorem NextMemWf.execMirrorConfig {port stream epoch : Nat} {data : List Byte} : NextMemWf (execMirrorConfig port stream epoch data s) :=
  .onDev h fun h => .ite (.onMirrorConfig h) h

theorem NextMemWf.execCommit {port stream : Nat} : NextMemWf (execCommit port stream s) := .onDev h fun h => .ite (.onCommit h) h

theorem NextMemWf.execStepDelta {port stream : Nat} {data : List Byte} : NextMemWf (execStepDelta port stream data s) :=
  .onDev h fun h => .ite (.onStepDelta h) h

theorem NextMemWf.execAck {port stream : Nat} : NextMemWf (execAck port stream s) := .onDev h fun h => .ite (.onAck h) h

theorem NextMemWf.execNotice {port code device stream : Nat} : NextMemWf (execNotice port code device stream s) :=
  .onDev h fun h => .ite (.onNotice h) h

theorem NextMemWf.execIdent {port id serial : Nat} : NextMemWf (execIdent port id serial s) := .onDev h fun h => .ite (.onIdent h) h
theorem NextMemWf.execLinkAck {port seq : Nat} : NextMemWf (execLinkAck port seq s) := .onDev h fun h => .ite (.onLinkAck h) h
theorem NextMemWf.execLinkNak {port seq : Nat} : NextMemWf (execLinkNak port seq s) := .onDev h fun h => .ite (.onLinkNak h) h
theorem NextMemWf.execCredit {port vc credits : Nat} : NextMemWf (execCredit port vc credits s) := .onDev h fun h => .ite (.onCredit h) h

theorem NextMemWf.execRetrain {port : Nat} {trained : Bool} : NextMemWf (execRetrain port trained s) := by
  unfold Machine.execRetrain
  exact .onDev h fun h => .ite h (.ite (.portTrained (.satFld h)) (.ite (.joinHeard (.portFailed (.satFld h))) (.portFailed (.satFld h))))

theorem NextMemWf.execPortRetrainRetry {port : Nat} {trained : Bool} : NextMemWf (execPortRetrainRetry port trained s) :=
  .ite (.onDev h id) (.onDevAt h fun h => .ite (.portTrained (.modFport (.satFld h))) (.modFport (.satFld h)))

theorem NextMemWf.execMirrorAckTimeout {stream : Nat} : NextMemWf (execMirrorAckTimeout stream s) := by
  unfold Machine.execMirrorAckTimeout
  split
  · exact .onDev h id
  · refine .onDevAt h fun h => ?_
    dsimp only
    split
    · exact .unprotect (.ackDone h)
    · exact .ackDone h

theorem NextMemWf.execFabPortCtlWrite {port : Nat} {value : Word} : NextMemWf (execFabPortCtlWrite port value s) := by
  unfold Machine.execFabPortCtlWrite
  exact .onDev h fun h => .ite h (.ite (.setFld (.setFld h)) (.ite (.portStop (.setFld h)) (.ite (.portStart (.setFld h)) (.setFld h))))

theorem NextMemWf.execFrameReady {stream : Nat} : NextMemWf (execFrameReady stream s) := by
  unfold Machine.execFrameReady
  refine .onDev h fun h => ?_
  refine .ite h ?_
  split
  · exact h
  · refine .ite ?_ (.readyOwn h)
    split
    · exact .ite (.voidFrame h) (.ite h (.ite (.makeReady h) h))
    · exact .voidFrame h

theorem NextMemWf.execStepAdmission {stream : Nat} : NextMemWf (execStepAdmission stream s) := by
  unfold Machine.execStepAdmission
  refine .onDev h fun h => ?_
  split
  · exact .ite (.admitStep h) h
  · exact h

theorem NextMemWf.execReadoutAdmission {stream : Nat} : NextMemWf (execReadoutAdmission stream s) :=
  .onDev h fun h => .ite (.foldl (fun _ _ h => .takeHolds h) h) h

theorem NextMemWf.execKernelDispatch {stream : Nat} {cores : List Nat} : NextMemWf (execKernelDispatch stream cores s) := by
  unfold Machine.execKernelDispatch
  refine .onDev h fun h => ?_
  refine .ite h ?_
  dsimp only
  split
  · exact .ite (.redispatch h) h
  · split
    · exact .ite (.dispatch h) h
    · split
      · exact .ite (.dispatchReadout h) h
      · exact h

theorem NextMemWf.execCodeFillComplete {core : Nat} : NextMemWf (execCodeFillComplete core s) := by
  unfold Machine.execCodeFillComplete
  refine .onDev h fun h => ?_
  dsimp only
  split
  · exact h
  · refine .ite h ?_
    split
    · exact h
    · split
      · split
        · exact .fault (.noteRead h)
        · exact .modCore (.noteRead h)
      · exact h

theorem NextMemWf.execKendRetire {core : Nat} : NextMemWf (execKendRetire core s) := by
  unfold Machine.execKendRetire
  refine .onDev h fun h => ?_
  dsimp only
  split
  · exact h
  · refine .ite h ?_
    refine .ite (.freeCore (.readoutEnd h)) ?_
    refine .ite (.replayNext (.ite (.dropShares (.abortCore (.accBoundary h))) (.abortCore (.accBoundary h)))) ?_
    refine .ite ?_ ?_
    · refine .freeCore (.accBoundary (.settleJournal (.modStream (.countRetired ?_))))
      split
      · exact .signal h
      · exact h
    · split
      · refine .ite ?_ ?_
        · refine .kernelEnded (.freeCore (.accBoundary (.settleJournal (.modStream (.countRetired ?_)))))
          split
          · exact .signal h
          · exact h
        · refine .freeCore (.accBoundary (.settleJournal (.modStream (.countRetired ?_))))
          split
          · exact .signal h
          · exact h
      · refine .freeCore (.accBoundary (.settleJournal (.modStream (.countRetired ?_))))
        split
        · exact .signal h
        · exact h

theorem NextMemWf.execDeadlineExpiry {stream frame : Nat} : NextMemWf (execDeadlineExpiry stream frame s) := by
  unfold Machine.execDeadlineExpiry
  split
  · exact .ite (.onDevAt h fun h => .deadlineVoid h) (.onDev h id)
  · exact .onDev h id

theorem NextMemWf.execGovernorTick {rails : List (Option (Nat × Nat))} : NextMemWf (execGovernorTick rails s) :=
  .ite (.onDevAt h fun h => .govTick h) (.onDev h id)

theorem NextMemWf.execDvfsStepComplete {stack : Nat} {inRange : Bool} : NextMemWf (execDvfsStepComplete stack inRange s) :=
  .onDev h fun h => .ite (.dvfsEnd h) h

theorem NextMemWf.execSchModeWrite {value : Word} : NextMemWf (execSchModeWrite value s) := .onDev h fun h => .ite (.setMode h) h

theorem NextMemWf.execShaperPictureStart {pipe source : Nat} : NextMemWf (execShaperPictureStart pipe source s) := by
  unfold Machine.execShaperPictureStart
  refine .onDev h fun {d} h => .ite h ?_
  split
  · exact h
  · next w hw =>
    extract_lets live r counted st read unauth shaping framed
    have hr : r.2.MemWf := .iteSnd (.pop h) h
    exact .syncPipe (.modPipe (.modFrame (.noteRead (.ite (.satFld hr) hr))))

theorem NextMemWf.execShaperRowGroup {pipe source : Nat} : NextMemWf (execShaperRowGroup pipe source s) := by
  unfold Machine.execShaperRowGroup
  refine .onDev h fun h => ?_
  dsimp only
  split
  · exact h
  · refine .ite h ?_
    split
    · split
      · exact h
      · exact .setFld (.wrapFld (.modPipe (.modPipe h)))
    · exact .ite h (.ite (.setFld (.wrapFld (.modPipe (.upd h)))) (.setFld (.wrapFld (.modPipe (.modEngine h)))))

theorem NextMemWf.execShaperFrameComplete {pipe source : Nat} : NextMemWf (execShaperFrameComplete pipe source s) := by
  unfold Machine.execShaperFrameComplete
  refine .onDev h fun h => ?_
  split
  · exact h
  · split
    · exact h
    · refine .ite h ?_
      dsimp only
      split
      · exact .syncPipe (.modPort (.modPipe h))
      · split
        · exact .voidFrame (.syncPipe (.modPort (.modPipe h)))
        · exact .ite (.clipCopy (.writeFrame (.syncPipe (.modPort (.modPipe h))))) (.writeFrame (.syncPipe (.modPort (.modPipe h))))

theorem NextMemWf.execFrameStart {port vc : Nat} : NextMemWf (execFrameStart port vc s) := by
  unfold Machine.execFrameStart
  refine .onDev h fun h => ?_
  refine .ite h ?_
  dsimp only
  split
  · refine .setFld ?_
    split
    · exact .endSFrame h
    · exact h
  · split
    · refine .setFld ?_
      split
      · exact .endSFrame h
      · exact h
    · refine .ite ?_ ?_
      · refine .dawnPass (.setFld ?_)
        split
        · exact .endSFrame h
        · exact h
      · refine .modPort (.upd (.takeNum (.adoptEpoch (.dawnPass (.setFld ?_)))))
        split
        · exact .endSFrame h
        · exact h

theorem NextMemWf.execSensorLine {port vc dt index : Nat} {samples : List Nat} {crcOk hdrFixed : Bool} :
    NextMemWf (execSensorLine port vc dt index samples crcOk hdrFixed s) := by
  unfold Machine.execSensorLine
  refine .onDev h fun h => .ite h ?_
  extract_lets fixed checked m w
  have hfixed : fixed.MemWf := .ite (.satFld h) h
  have hchecked : checked.MemWf := .ite hfixed (.satFld hfixed)
  split
  · exact hchecked
  · exact .ite hchecked (.modPort (.pushLines hchecked))

theorem NextMemWf.execFrameEnd {port vc height : Nat} : NextMemWf (execFrameEnd port vc height s) := by
  unfold Machine.execFrameEnd
  refine .onDev h fun h => ?_
  split
  · exact h
  · exact .ite (.portIdle (.endSFrame h)) h

theorem NextMemWf.execSnsCtlWrite {port : Nat} {value : Word} : NextMemWf (execSnsCtlWrite port value s) :=
  .onDev h fun h => .ite h (.setFld (.setFld (.setFld h)))

theorem NextMemWf.execHeadHour {port : Nat} {readBack1 readBack2 : Bool} : NextMemWf (execHeadHour port readBack1 readBack2 s) := by
  unfold Machine.execHeadHour
  refine .onDev h fun h => ?_
  extract_lets p part c hours body b sent stored noted
  have hsent : sent.MemWf := .out (.modPort h)
  have hstored : stored.MemWf := .modPort hsent
  exact .ite h (.ite (.health (.modPort hsent)) (.ite (.headLifeCheck (.health (.setFld hstored))) hstored))

theorem NextMemWf.execAttachSensor {q : Nat} {e data store : List Byte} : NextMemWf (execAttachSensor q e data store s) := by
  unfold Machine.execAttachSensor
  refine .onCmd h fun h => ?_
  extract_lets id k vc lanes mbps st taken same permit ok attached authed laned gone checked
  have hlaned : laned.MemWf := .setFld (.authHead (.ite (.modPort h) h))
  have hgone : gone.MemWf := .ite hlaned (.headGone (.setFld hlaned))
  split
  · exact .reply h
  · exact .ite (.reply h) (.reply (.headLifeCheck hgone))

theorem NextMemWf.execDetachSensor {q : Nat} {e : List Byte} : NextMemWf (execDetachSensor q e s) :=
  .onCmd h fun h => .ite (.reply h) (.reply (.ite (.headGone (.setFld (.modPort (.modPort h)))) (.modPort h)))

theorem NextMemWf.execSensorXfer {q : Nat} {e data : List Byte} {transferred : Nat} : NextMemWf (execSensorXfer q e data transferred s) :=
  .onCmd h fun h => .ite (.reply h) (.reply (.ite (.send h) (.out h)))

theorem NextMemWf.execSqTailDoorbell {q : Nat} {value : Word} : NextMemWf (execSqTailDoorbell q value s) := by
  unfold Machine.execSqTailDoorbell
  refine .onDev h fun h => ?_
  refine .ite h ?_
  split
  · exact .badDoorbell h
  · exact .ite (.badDoorbell h) (.upd h)

theorem NextMemWf.execCqHeadDoorbell {q : Nat} {value : Word} : NextMemWf (execCqHeadDoorbell q value s) := by
  unfold Machine.execCqHeadDoorbell
  refine .onDev h fun h => ?_
  refine .ite h ?_
  split
  · exact .badDoorbell h
  · exact .ite (.badDoorbell h) (.flushCpl (.upd h))

theorem NextMemWf.execRingReadDoorbell {r : Nat} {value : Word} : NextMemWf (execRingReadDoorbell r value s) := by
  unfold Machine.execRingReadDoorbell
  refine .onDev h fun h => ?_
  refine .ite h ?_
  split
  · exact .badDoorbell h
  · exact .ite (.badDoorbell h) (.upd h)

theorem NextMemWf.execQueAdminCfgWrite {value : Word} : NextMemWf (execQueAdminCfgWrite value s) := by
  unfold Machine.execQueAdminCfgWrite
  refine .onDev h fun h => .ite h ?_
  extract_lets v on svc sq cq sized enabled
  have hsized : sized.MemWf := .ite (.setFld (.setFld (.setFld h))) h
  have henabled : enabled.MemWf := .setFld hsized
  exact .ite (.ite (.adminStart henabled) henabled) (.ite (.ite henabled (.adminSettle (.setFld henabled))) (.setFld henabled))

theorem NextMemWf.execRingRecordWrite {ring : Nat} : NextMemWf (execRingRecordWrite ring s) := by
  unfold Machine.execRingRecordWrite
  refine .onDev h fun h => ?_
  split
  · refine .ite h ?_
    dsimp only
    split
    · exact .writeRelease h
    · exact .ite (.writeRelease h) (.indexed (.syncHeld (.raiseVec (.send (.writeRelease h)))))
  · exact h

theorem NextMemWf.execCreateSq {q : Nat} {e : List Byte} : NextMemWf (execCreateSq q e s) := .onCmd h fun h => .ite (.reply (.upd h)) (.reply h)

theorem NextMemWf.execDeleteSq {q : Nat} {e : List Byte} : NextMemWf (execDeleteSq q e s) := by
  unfold Machine.execDeleteSq
  refine .onCmd h fun h => ?_
  dsimp only
  split
  · exact .reply h
  · exact .ite (.reply h) (.adminSettle (.deleteSettle (.keepCmd (.upd h))))

theorem NextMemWf.execCreateCq {q : Nat} {e : List Byte} : NextMemWf (execCreateCq q e s) := .onCmd h fun h => .ite (.reply (.upd h)) (.reply h)
theorem NextMemWf.execDeleteCq {q : Nat} {e : List Byte} : NextMemWf (execDeleteCq q e s) := .onCmd h fun h => .ite (.reply h) (.reply (.upd h))
theorem NextMemWf.execCreateRing {q : Nat} {e : List Byte} : NextMemWf (execCreateRing q e s) := .onCmd h fun h => .ite (.reply (.upd h)) (.reply h)

theorem NextMemWf.execDeleteRing {q : Nat} {e : List Byte} : NextMemWf (execDeleteRing q e s) :=
  .onCmd h fun h => .ite (.reply h) (.reply (.upd (.foldl (fun _ _ h => .recDone h) h)))

theorem NextMemWf.execSetMode {q : Nat} {e : List Byte} : NextMemWf (execSetMode q e s) := .onCmd h fun h => .ite (.reply h) (.reply (.setMode h))

theorem NextMemWf.execReadLog {q : Nat} {e : List Byte} : NextMemWf (execReadLog q e s) :=
  .onCmd h fun h => .ite (.reply h) (.reply (.ite h (.send h)))

theorem NextMemWf.execSetEvents {q : Nat} {e : List Byte} : NextMemWf (execSetEvents q e s) :=
  .onCmd h fun h => .ite (.reply (.upd h)) (.ite (.reply h) (.reply (.upd h)))

theorem NextMemWf.execForceFree {q : Nat} {e : List Byte} : NextMemWf (execForceFree q e s) := by
  unfold Machine.execForceFree
  refine .onCmd h fun h => ?_
  dsimp only
  split
  · exact .reply h
  · split
    · exact .reply h
    · exact .reply (.pushBuf (.dropJournal h))
    · exact .reply (.pushBuf (.clear h))

theorem NextMemWf.execCprPwrCtlWrite {value : Word} : NextMemWf (execCprPwrCtlWrite value s) := by
  unfold Machine.execCprPwrCtlWrite
  refine .onDev h fun h => ?_
  refine .ite (.sleepReq (.busWrite h)) ?_
  split
  · exact .ite (.dayToDawn (.busWrite h)) (.busWrite h)
  · exact .ite (.enterDay (.busWrite h)) (.busWrite h)
  · exact .wake (.busWrite h)
  · exact .wake (.busWrite h)
  · exact .busWrite h

theorem NextMemWf.execWakeN : NextMemWf (execWakeN s) := .onDev h fun h => .ite (.wake h) h
theorem NextMemWf.execGpioWake {pin : Nat} : NextMemWf (execGpioWake pin s) := .onDev h fun h => .ite (.wake h) h
theorem NextMemWf.execWakeTimer : NextMemWf (execWakeTimer s) := .onDevAt h fun h => .ite (.wake h) h
theorem NextMemWf.execInBandInterrupt {port : Nat} : NextMemWf (execInBandInterrupt port s) := .onDev h fun h => .ite (.wake (.setFld h)) h
theorem NextMemWf.execAutoNightIdle : NextMemWf (execAutoNightIdle s) := .ite (.onDevAt h fun h => .sleepReq h) (.onDev h id)

theorem NextMemWf.execDuskFrameTimeout : NextMemWf (execDuskFrameTimeout s) := by
  unfold Machine.execDuskFrameTimeout
  split
  · exact .onDevAt h fun h => .foldl (fun _ _ h => .voidHoles h) (.foldl (fun _ _ h => .voidFrame h) (.abortFrames h))
  · exact .onDev h id

theorem NextMemWf.execDuskComplete : NextMemWf (execDuskComplete s) := by
  unfold Machine.execDuskComplete
  refine .ite ?_ (.onDev h id)
  exact .next (.enterNight (.fresh (.upd h)))

theorem NextMemWf.execDawnEntryComplete {failedColumns : List (List Nat)} {stores : List (List Byte)} {flashOk : Bool} :
    NextMemWf (execDawnEntryComplete failedColumns stores flashOk s) := by
  unfold Machine.execDawnEntryComplete
  exact .onDev h fun h => .ite h (.dawnEnd (.foldl (fun _ _ h => .dawnHead h) (.foldl (fun _ _ h => .bypassCore h) (.restoreNight h))))

theorem NextMemWf.execRestartComplete {failedChannels : List Nat} {fieldOk : Bool} :
    NextMemWf (execRestartComplete failedChannels fieldOk s) := by
  unfold Machine.execRestartComplete
  refine .onDev h fun h => .ite h ?_
  extract_lets trained initialised pwr warm booted margins nv fielded noticed restored moded
  have hinitialised : initialised.MemWf := .ite (.dramInit (.dramTrain h)) (.dramWake (.dramTrain h))
  have hmargins : margins.MemWf := .foldl (fun _ _ h => .setMv h) (.clkBoot (.rankRecord (.upd hinitialised)))
  have hfielded : fielded.MemWf := .ite hmargins (.health (.upd hmargins))
  have hnoticed : noticed.MemWf := .ite (.replaceCause hfielded) hfielded
  exact .setEntering (.setPhase (.setMode (.restoreAfterL3 hnoticed)))

theorem NextMemWf.execCprWakeTimeHiWrite {value : Word} : NextMemWf (execCprWakeTimeHiWrite value s) := .onDev h fun h => .upd (.setReg h)
theorem NextMemWf.execCprTimeLoRead : NextMemWf (execCprTimeLoRead s) := .onDev h fun h => .out (.setReg (.setReg h))

theorem NextMemWf.execReferenceReady : NextMemWf (execReferenceReady s) := by
  unfold Machine.execReferenceReady
  extract_lets r
  have hr : NextMemWf r := .onDev h fun h => .ite h (.setFld h)
  clear_value r
  split
  · next t =>
    have ht : t.d.MemWf := hr t rfl
    refine .next ?_
    split
    · exact ht
    · exact ht
  · exact hr

theorem NextMemWf.execPllLock {pll : Nat} : NextMemWf (execPllLock pll s) := .onDev h fun h => .ite h (.setFld (.upd h))
theorem NextMemWf.execPllOutputLoss {pll : Nat} : NextMemWf (execPllOutputLoss pll s) := .onDev h fun h => .ite h (.setFld (.upd h))

theorem NextMemWf.execCprClkSelWrite {value : Word} : NextMemWf (execCprClkSelWrite value s) :=
  .onDev h fun h => .foldl (fun _ _ h => .selectClk h) (.setFld h)

theorem NextMemWf.execClockSwitchComplete {domain : Nat} : NextMemWf (execClockSwitchComplete domain s) := .onDev h fun h => .ite (.switched h) h

theorem NextMemWf.execFmeterStart {value : Word} : NextMemWf (execFmeterStart value s) :=
  .onDev h fun h => .ite (.busWrite h) (.upd (.setFld (.busWrite h)))

theorem NextMemWf.execFmeterDone {count : Nat} : NextMemWf (execFmeterDone count s) := .onDev h fun h => .ite h (.upd (.setFld (.setReg h)))

theorem NextMemWf.execPowerGroupRegulated : NextMemWf (execPowerGroupRegulated s) :=
  .onDev h fun h => .ite h (.ite (.upd h) (.bootIfPowered (.upd h)))

theorem NextMemWf.execPowerGroupTimeout : NextMemWf (execPowerGroupTimeout s) := .onDev h fun h => .ite h (.upd (.setGroups (.setPhase h)))
theorem NextMemWf.execPowerSequenceRetry : NextMemWf (execPowerSequenceRetry s) := .ite (.onDevAt h fun h => .setGroups h) (.onDev h id)

theorem NextMemWf.execPoresetNDeassert {gpio0 gpio1 : Bool} : NextMemWf (execPoresetNDeassert gpio0 gpio1 s) :=
  .onDev h fun h => .ite h (.bootIfPowered (.upd h))

theorem NextMemWf.execThermalWarning {sensor : Nat} {temp : ℤ} : NextMemWf (execThermalWarning sensor temp s) :=
  .onDev h fun h => .ite h (.health (.upd h))

theorem NextMemWf.execThermalWarningEnd {sensor : Nat} {temp : ℤ} : NextMemWf (execThermalWarningEnd sensor temp s) :=
  .onDev h fun h => .ite h (.health (.pauseBe (.upd h)))

theorem NextMemWf.execThermalTrip : NextMemWf (execThermalTrip s) := by
  unfold Machine.execThermalTrip
  exact .onDev h fun h => .setFld (.setEntering (.upd (.setGroups (.setPhase (.pllsOff (.loseFabric (.loseQueues (.loseWork h))))))))

theorem NextMemWf.execApertureRead {offset len : Nat} : NextMemWf (execApertureRead offset len s) := by
  unfold Machine.execApertureRead
  refine .onDev h fun h => ?_
  refine .ite h ?_
  refine .ite (.wake h) ?_
  refine .out ?_
  split
  · exact .logEv (.noteRead (.logHole h))
  · exact .noteRead (.logHole h)

theorem NextMemWf.execApertureWrite {offset : Nat} {data : List Byte} {ep : Bool} : NextMemWf (execApertureWrite offset data ep s) :=
  .onDev h fun h => .ite h (.ite (.wake h) (.ite (.logEv (.hifErr (.upd h))) (.writeCells (.logHole h))))

theorem NextMemWf.execHifApertureBaseHiWrite {value : Word} : NextMemWf (execHifApertureBaseHiWrite value s) :=
  .onDev h fun h => .ite h (.ite (.hifErr h) (.upd (.setReg h)))

theorem NextMemWf.execMsixUnmask {vector : Option Nat} : NextMemWf (execMsixUnmask vector s) := by
  unfold Machine.execMsixUnmask
  refine .onDev h fun h => ?_
  split
  · exact .ite (.unmask h) h
  · exact .unmask h

theorem NextMemWf.execPowerstateD3hot : NextMemWf (execPowerstateD3hot s) := .onDev h fun h => .ite (.toD3hot h) h
theorem NextMemWf.execPowerstateD0 : NextMemWf (execPowerstateD0 s) := .onDev h fun h => .ite (.toD0 h) h
theorem NextMemWf.execNightMemoryRequest : NextMemWf (execNightMemoryRequest s) := .onDev h fun h => .ite (.wake h) h

theorem NextMemWf.execConfigRequest {write : Bool} {offset : Nat} {value : Word} : NextMemWf (execConfigRequest write offset value s) :=
  .onDev h fun h => .ite h (.ite (.out h) (.ite (.cfgWrite h) (.cfgRead h)))

theorem NextMemWf.execHotReset : NextMemWf (execHotReset s) := .onDev h fun h => .ite h (.startL3 h)
theorem NextMemWf.execPerstNAssert : NextMemWf (execPerstNAssert s) := .onDev h fun h => .ite h (.upd (.startL3 h))
theorem NextMemWf.execPerstNDeassert : NextMemWf (execPerstNDeassert s) := .onDev h fun h => .ite h (.upd h)
theorem NextMemWf.execDlDown : NextMemWf (execDlDown s) := .onDev h fun h => .ite h (.upd (.setFld (.satFld h)))

theorem NextMemWf.execDlUp {speed width : Nat} : NextMemWf (execDlUp speed width s) := by
  unfold Machine.execDlUp
  exact .onDev h fun h => .ite h (.ite (.resume (.setFld (.sleepReq (.linkDiscard (.setFld (.setFld h)))))) (.resume (.setFld (.setFld (.setFld h)))))

theorem NextMemWf.execLinkHoldExpiry : NextMemWf (execLinkHoldExpiry s) := by
  unfold Machine.execLinkHoldExpiry
  split
  · exact .onDevAt h fun h => .ite (.sleepReq h) h
  · exact .onDev h id

theorem NextMemWf.execCompletionTimeout : NextMemWf (execCompletionTimeout s) := .onDev h fun h => .ite (.hifErr h) h

theorem NextMemWf.execInstructionComplete {core id : Nat} : NextMemWf (execInstructionComplete core id s) := by
  unfold Machine.execInstructionComplete
  refine .onDev h fun h => ?_
  split
  · exact .ite h (.completeFlight h)
  · exact h

theorem NextMemWf.execInstructionFault {core id : Nat} : NextMemWf (execInstructionFault core id s) := by
  unfold Machine.execInstructionFault
  refine .onDev h fun h => ?_
  split
  · exact .ite h (.faultFlight h)
  · exact h

theorem NextMemWf.execTokenTimeout {core : Nat} : NextMemWf (execTokenTimeout core s) := .onDev h fun h => .ite (.fault h) h

theorem NextMemWf.execRemoteTokenArrive {core : Nat} : NextMemWf (execRemoteTokenArrive core s) := by
  unfold Machine.execRemoteTokenArrive
  refine .onDev h fun h => ?_
  split
  · exact .tokAdd (.upd h)
  · exact h

theorem NextMemWf.execTagCheck {core ahead : Nat} : NextMemWf (execTagCheck core ahead s) := .onDev h fun h => .ite (.modCore (.upd h)) h

theorem NextMemWf.execTagNotify {core : Nat} : NextMemWf (execTagNotify core s) :=
  .onDev h fun h => .ite (.ite (.setFld (.modCore (.upd h))) (.modCore (.upd h))) h

theorem NextMemWf.execPoolPop {pool count : Nat} : NextMemWf (execPoolPop pool count s) := .onDev h fun h => .upd (.pop h)

theorem NextMemWf.execBufferRefOp {inc : Bool} {handle : Nat} : NextMemWf (execBufferRefOp inc handle s) :=
  .onDev h fun h => .ite (.ite (.refInc h) (.refDec h)) h

theorem NextMemWf.execPoolRebuildComplete {pool : Nat} : NextMemWf (execPoolRebuildComplete pool s) := .onDev h fun h => .ite (.relinkDone h) h

theorem NextMemWf.execBpmPoolCtlWrite {pool : Nat} {value : Word} : NextMemWf (execBpmPoolCtlWrite pool value s) :=
  .onDev h fun h => .ite (.poolCtl h) h

theorem NextMemWf.execStoolRequestComplete {die : Nat} : NextMemWf (execStoolRequestComplete die s) := by
  unfold Machine.execStoolRequestComplete
  refine .onDev h fun h => ?_
  dsimp only
  split
  · exact h
  · split
    · exact h
    · exact .ite h (.syncStool (.upd (.wrapFld (.retireFlight (.commitRes h)))))

theorem NextMemWf.execHangWatchSample {unit : Nat} : NextMemWf (execHangWatchSample unit s) := .ite (.onDevAt h fun h => .sample h) (.onDev h id)

theorem NextMemWf.execUnitResetComplete {unit : Nat} : NextMemWf (execUnitResetComplete unit s) := by
  unfold Machine.execUnitResetComplete
  refine .onDev h fun h => ?_
  split
  · exact h
  · exact .ite h (.health (.upd (.settleUnit h)))

theorem NextMemWf.execUnitResetTimeout {unit : Nat} : NextMemWf (execUnitResetTimeout unit s) := by
  unfold Machine.execUnitResetTimeout
  split
  · exact .onDevAt h fun h => .startL3 h
  · exact .onDev h id

theorem NextMemWf.execComputeResetComplete : NextMemWf (execComputeResetComplete s) := by
  unfold Machine.execComputeResetComplete
  refine .onDev h fun h => ?_
  split
  · exact h
  · exact .syncRecov (.foldl (fun _ _ h => .replayNext h) (.markOrphans (.putReset (.foldl (fun _ _ h => .clearDie h) h))))

theorem NextMemWf.execComputeResetTimeout : NextMemWf (execComputeResetTimeout s) := by
  unfold Machine.execComputeResetTimeout
  split
  · exact .onDev h id
  · exact .onDevAt h fun h => .ite (.startL3 h) (.level2 h)

theorem NextMemWf.execCcWatchdogExpiry {cc : Nat} : NextMemWf (execCcWatchdogExpiry cc s) := .onDev h fun h => .ite (.startL3 h) h
theorem NextMemWf.execFirmwareException {cc : Nat} : NextMemWf (execFirmwareException cc s) := .onDev h fun h => .ite (.startL3 h) h
theorem NextMemWf.execLogSecondEnd : NextMemWf (execLogSecondEnd s) := .onDevAt h fun h => .logRoll h

theorem NextMemWf.execCprClkEscWrite {value : Word} : NextMemWf (execCprClkEscWrite value s) :=
  .onDev h fun h => .foldl (fun _ _ h => .ite (.escape h) h) h

theorem NextMemWf.execClockEscapeAuto : NextMemWf (execClockEscapeAuto s) := by
  unfold Machine.execClockEscapeAuto
  split
  · exact .onDevAt h fun h => .escape h
  · exact .onDev h id

theorem NextMemWf.execAttest {q : Nat} {e : List Byte} : NextMemWf (execAttest q e s) := by
  unfold Machine.execAttest
  extract_lets r
  have hr : NextMemWf r := .onCmd h fun h => .ite (.reply h) (.ite (.reply h) (.keepCmd h))
  clear_value r
  split
  · next t => exact .ite (.next (hr t rfl)) (.next (hr t rfl))
  · exact hr

theorem NextMemWf.execAttestSignComplete {fuseReads : List Bool} : NextMemWf (execAttestSignComplete fuseReads s) := by
  unfold Machine.execAttestSignComplete
  refine .ite (.onDev h id) ?_
  exact .next (.attDone (.upd h))

theorem NextMemWf.execSecSigIndexLoRead : NextMemWf (execSecSigIndexLoRead s) := .onDev h fun h => .ite (.out h) (.out (.setReg (.setReg h)))
theorem NextMemWf.execSecRecoveryGo : NextMemWf (execSecRecoveryGo s) := .onDev h fun h => .ite h (.ite (.runFw (.setFld h)) (.setFld h))
theorem NextMemWf.execProgramKeyHash : NextMemWf (execProgramKeyHash s) := .onDev h fun h => .otpStart h
theorem NextMemWf.execBlowEnforcementFuse : NextMemWf (execBlowEnforcementFuse s) := .onDev h fun h => .otpStart h

theorem NextMemWf.execOtpCommandComplete : NextMemWf (execOtpCommandComplete s) := by
  unfold Machine.execOtpCommandComplete
  refine .onDev h fun h => ?_
  split
  · exact h
  · exact .ite (.otpProgram (.upd (.setFld h))) (.otpEnforce (.upd (.setFld h)))

theorem NextMemWf.execCreateStream {q : Nat} {e : List Byte} : NextMemWf (execCreateStream q e s) := by
  unfold Machine.execCreateStream
  refine .onCmd h fun h => ?_
  refine .ite (.reply h) ?_
  split
  · exact .reply (.makeStream h)
  · exact .ite (.keepCmd h) (.reply h)

theorem NextMemWf.execConfigStream {q : Nat} {e data : List Byte} : NextMemWf (execConfigStream q e data s) := by
  unfold Machine.execConfigStream
  refine .onCmd h fun h => ?_
  refine .ite (.reply h) ?_
  refine .ite (.reply (.stage h)) ?_
  split
  · exact .awaitAck (.mirrorConfig (.stage h))
  · exact .reply (.stage h)

theorem NextMemWf.execDestroyStream {q : Nat} {e : List Byte} : NextMemWf (execDestroyStream q e s) := by
  unfold Machine.execDestroyStream
  refine .onCmd h fun h => ?_
  dsimp only
  split
  · exact .reply h
  · exact .keepCmd (.ite (.endCmds h) (.stopInput h))

theorem NextMemWf.execStreamDestroyComplete {stream : Nat} : NextMemWf (execStreamDestroyComplete stream s) := by
  unfold Machine.execStreamDestroyComplete
  refine .onDev h fun h => ?_
  split
  · exact h
  · refine .ite h ?_
    dsimp only
    split
    · exact .endCmds (.ite (.makeStream (.endCmds (.endStream h))) (.endCmds (.endStream h)))
    · exact .endCmds (.endStream h)

theorem NextMemWf.execFeed {q : Nat} {e data : List Byte} : NextMemWf (execFeed q e data s) := by
  unfold Machine.execFeed
  refine .onCmd h fun h => ?_
  dsimp only
  split
  · exact .reply h
  · refine .ite (.reply h) ?_
    split
    · exact .badEpoch h
    · refine .ite (.reply (.clearFresh h)) ?_
      refine .ite (.reply (.clearFresh h)) ?_
      split
      · next g heq =>
          have hg : g.MemWf := .snd heq (.pop (.clearFresh h))
          exact .reply hg
      · next x g heq =>
          have hg : g.MemWf := .snd heq (.pop (.clearFresh h))
          exact .feedDone (.ite (.feedStep (.writeRun hg)) (.takeChunk (.writeRun hg)))

theorem NextMemWf.execEncode {q : Nat} {e : List Byte} : NextMemWf (execEncode q e s) := by
  unfold Machine.execEncode
  refine .onCmd h fun h => ?_
  dsimp only
  split
  · exact .reply h
  · refine .ite (.reply h) ?_
    split
    · exact .badEpoch h
    · split
      · next g heq =>
          have hg : g.MemWf := .snd heq (.pop h)
          exact .reply hg
      · next x g heq =>
          have hg : g.MemWf := .snd heq (.pop h)
          exact .reply (.takeChunk (.setPoison (.writeRun (.noteRead hg))))

theorem NextMemWf.execRevisit {q : Nat} {e : List Byte} : NextMemWf (execRevisit q e s) := by
  unfold Machine.execRevisit
  refine .onCmd h fun h => ?_
  dsimp only
  split
  · refine .ite (.reply h) ?_
    split
    · exact .ite (.reply h) (.reply (.upd (.refInc h)))
    · exact .reply h
  · exact .reply h

theorem NextMemWf.execReadout {q : Nat} {e : List Byte} : NextMemWf (execReadout q e s) := by
  unfold Machine.execReadout
  refine .onCmd h fun h => ?_
  dsimp only
  split
  · exact .reply h
  · exact .ite (.reply h) (.keepCmd (.upd h))

theorem NextMemWf.execClipReq {q : Nat} {e : List Byte} : NextMemWf (execClipReq q e s) := by
  unfold Machine.execClipReq
  refine .onCmd h fun h => ?_
  dsimp only
  split
  · exact .reply h
  · split
    · exact .reply h
    · refine .ite (.reply h) ?_
      split
      · refine .ite (.reply h) ?_
        split
        · next g heq =>
            have hg : g.MemWf := .snd heq (.pop h)
            exact .reply hg
        · next x g heq =>
            have hg : g.MemWf := .snd heq (.pop h)
            exact .reply (.postRec (.modStream (.writeRun (.noteRead hg))))
      · exact .reply h

theorem NextMemWf.execRelease {q : Nat} {e : List Byte} : NextMemWf (execRelease q e s) :=
  .onCmd h fun h => .ite (.reply (.refDec (.upd h))) (.reply h)

theorem NextMemWf.execHistoryExpiry {stream : Nat} : NextMemWf (execHistoryExpiry stream s) := by
  unfold Machine.execHistoryExpiry
  split
  · exact .onDev h id
  · split
    · exact .onDev h id
    · exact .onDevAt h fun h => .histDrop h

theorem NextMemWf.execAlloc {core : Nat} : NextMemWf (execAlloc core s) := .onDev h fun h => .onOp h fun _ => .doAlloc h
theorem NextMemWf.execFree {core : Nat} : NextMemWf (execFree core s) := .onDev h fun h => .onOp h fun _ => .issuePool h
theorem NextMemWf.execRefinc {core : Nat} : NextMemWf (execRefinc core s) := .onDev h fun h => .onOp h fun _ => .issuePool h
theorem NextMemWf.execRefdec {core : Nat} : NextMemWf (execRefdec core s) := .onDev h fun h => .onOp h fun _ => .issuePool h
theorem NextMemWf.execClaim {core : Nat} : NextMemWf (execClaim core s) := .onDev h fun h => .onOp h fun _ => .doClaim h
theorem NextMemWf.execLoop {core : Nat} : NextMemWf (execLoop core s) := .onDev h fun h => .onOp h fun _ => .doLoop h
theorem NextMemWf.execBr {core : Nat} : NextMemWf (execBr core s) := .onDev h fun h => .onOp h fun _ => .doBr h
theorem NextMemWf.execSets {core : Nat} : NextMemWf (execSets core s) := .onDev h fun h => .onOp h fun _ => .doSets h
theorem NextMemWf.execSalu {core : Nat} : NextMemWf (execSalu core s) := .onDev h fun h => .onOp h fun _ => .doSalu h
theorem NextMemWf.execWait {core : Nat} : NextMemWf (execWait core s) := .onDev h fun h => .onOp h fun _ => .doWait h
theorem NextMemWf.execSignal {core : Nat} : NextMemWf (execSignal core s) := .onDev h fun h => .onOp h fun _ => .doSignal h

theorem NextMemWf.execNop {core : Nat} : NextMemWf (execNop core s) := by
  unfold Machine.execNop
  refine .onDev h fun h => .onOp h fun _ => ?_
  exact .issueSeq h id

theorem NextMemWf.execKend {core : Nat} : NextMemWf (execKend core s) := .onDev h fun h => .onOp h fun _ => .doKend h
theorem NextMemWf.execMove {core : Nat} : NextMemWf (execMove core s) := .onDev h fun h => .issueData h
theorem NextMemWf.execMove2d {core : Nat} : NextMemWf (execMove2d core s) := .onDev h fun h => .issueData h
theorem NextMemWf.execGather {core : Nat} : NextMemWf (execGather core s) := .onDev h fun h => .issueData h
theorem NextMemWf.execLdw {core : Nat} : NextMemWf (execLdw core s) := .onDev h fun h => .issueData h
theorem NextMemWf.execLdw4 {core : Nat} : NextMemWf (execLdw4 core s) := .onDev h fun h => .issueData h
theorem NextMemWf.execMatmul {core : Nat} : NextMemWf (execMatmul core s) := .onDev h fun h => .issueData h
theorem NextMemWf.execEwise {core : Nat} : NextMemWf (execEwise core s) := .onDev h fun h => .issueData h
theorem NextMemWf.execConv {core : Nat} : NextMemWf (execConv core s) := .onDev h fun h => .issueData h
theorem NextMemWf.execVop {core : Nat} : NextMemWf (execVop core s) := .onDev h fun h => .issueData h
theorem NextMemWf.execVlut {core : Nat} : NextMemWf (execVlut core s) := .onDev h fun h => .issueData h
theorem NextMemWf.execSoftmax {core : Nat} : NextMemWf (execSoftmax core s) := .onDev h fun h => .issueData h
theorem NextMemWf.execNorm {core : Nat} : NextMemWf (execNorm core s) := .onDev h fun h => .issueData h
theorem NextMemWf.execPool {core : Nat} : NextMemWf (execPool core s) := .onDev h fun h => .issueData h
theorem NextMemWf.execResize {core : Nat} : NextMemWf (execResize core s) := .onDev h fun h => .issueData h
theorem NextMemWf.execDwconv {core : Nat} : NextMemWf (execDwconv core s) := .onDev h fun h => .issueData h
theorem NextMemWf.execAttqk {core : Nat} : NextMemWf (execAttqk core s) := .onDev h fun h => .issueData h
theorem NextMemWf.execAttpv {core : Nat} : NextMemWf (execAttpv core s) := .onDev h fun h => .issueData h
theorem NextMemWf.execKvapp {core : Nat} : NextMemWf (execKvapp core s) := .onDev h fun h => .issueData h
theorem NextMemWf.execKvexp {core : Nat} : NextMemWf (execKvexp core s) := .onDev h fun h => .issueData h
theorem NextMemWf.execRowstat {core : Nat} : NextMemWf (execRowstat core s) := .onDev h fun h => .issueData h
theorem NextMemWf.execEmit {core : Nat} : NextMemWf (execEmit core s) := .onDev h fun h => .issueData h
theorem NextMemWf.execStool {core : Nat} : NextMemWf (execStool core s) := .onDev h fun h => .issueData h

theorem NextMemWf.execRegisterWrite {offset : Nat} {value : Word} : NextMemWf (execRegisterWrite offset value s) := by
  unfold Machine.execRegisterWrite
  dsimp only
  split
  · exact .execSqTailDoorbell h
  · exact .execCqHeadDoorbell h
  · exact .execRingReadDoorbell h
  · split
    · exact .execBpmPoolCtlWrite h
    · exact .execCodCtlWrite h
    · exact .execSnsCtlWrite h
    · exact .execFabPortCtlWrite h
    · refine .ite (.execSchModeWrite h) (.ite (.execQueAdminCfgWrite h) (.ite (.execHifApertureBaseHiWrite h) (.ite (.execCprPwrCtlWrite h) ?_)))
      refine .ite (.execCprWakeTimeHiWrite h) (.ite (.execCprClkSelWrite h) (.ite (.execCprClkEscWrite h) (.ite (.execFmeterStart h) ?_)))
      refine .ite (.ite (.execSecRecoveryGo h) (.onDev h id)) (.onDev h fun h => .ite (.otpWrite h) ?_)
      exact .ite (.ite h (.msixTable h)) (.ite (.recoveryWrite h) (.plainWrite h))

/-! ### The step -/

theorem NextMemWf.exec {c : Instr} : NextMemWf (exec c s) := by
  cases c with
  | move _ => exact .execMove h
  | move2d _ => exact .execMove2d h
  | gather _ => exact .execGather h
  | ldw _ => exact .execLdw h
  | ldw4 _ => exact .execLdw4 h
  | matmul _ => exact .execMatmul h
  | ewise _ => exact .execEwise h
  | conv _ => exact .execConv h
  | vop _ => exact .execVop h
  | vlut _ => exact .execVlut h
  | softmax _ => exact .execSoftmax h
  | norm _ => exact .execNorm h
  | pool _ => exact .execPool h
  | resize _ => exact .execResize h
  | dwconv _ => exact .execDwconv h
  | attqk _ => exact .execAttqk h
  | attpv _ => exact .execAttpv h
  | kvapp _ => exact .execKvapp h
  | kvexp _ => exact .execKvexp h
  | rowstat _ => exact .execRowstat h
  | alloc _ => exact .execAlloc h
  | free _ => exact .execFree h
  | refinc _ => exact .execRefinc h
  | refdec _ => exact .execRefdec h
  | claim _ => exact .execClaim h
  | loop _ => exact .execLoop h
  | br _ => exact .execBr h
  | sets _ => exact .execSets h
  | salu _ => exact .execSalu h
  | wait _ => exact .execWait h
  | signal _ => exact .execSignal h
  | emit _ => exact .execEmit h
  | nop _ => exact .execNop h
  | kend _ => exact .execKend h
  | stool _ => exact .execStool h
  | kendRetire _ => exact .execKendRetire h
  | instructionComplete _ _ => exact .execInstructionComplete h
  | instructionFault _ _ => exact .execInstructionFault h
  | poisonRepairComplete => exact .execPoisonRepairComplete h
  | tokenTimeout _ => exact .execTokenTimeout h
  | remoteTokenArrive _ => exact .execRemoteTokenArrive h
  | tagCheck _ _ => exact .execTagCheck h
  | tagNotify _ => exact .execTagNotify h
  | poolPop _ _ => exact .execPoolPop h
  | bufferRefOp _ _ => exact .execBufferRefOp h
  | poolRebuildComplete _ => exact .execPoolRebuildComplete h
  | bpmPoolCtlWrite _ _ => exact .execBpmPoolCtlWrite h
  | stoolRequestComplete _ => exact .execStoolRequestComplete h
  | frameReady _ => exact .execFrameReady h
  | kernelDispatch _ _ => exact .execKernelDispatch h
  | codeFillComplete _ => exact .execCodeFillComplete h
  | stepAdmission _ => exact .execStepAdmission h
  | readoutAdmission _ => exact .execReadoutAdmission h
  | deadlineExpiry _ _ => exact .execDeadlineExpiry h
  | governorTick _ => exact .execGovernorTick h
  | dvfsStepComplete _ _ => exact .execDvfsStepComplete h
  | schModeWrite _ => exact .execSchModeWrite h
  | pictureStart _ _ => exact .execPictureStart h
  | lineRingGroupWrite _ _ _ _ => exact .execLineRingGroupWrite h
  | pictureComplete _ _ _ _ _ => exact .execPictureComplete h
  | hardCapAbort _ => exact .execHardCapAbort h
  | jpegJobComplete _ _ _ _ _ => exact .execJpegJobComplete h
  | codCtlWrite _ _ => exact .execCodCtlWrite h
  | shaperPictureStart _ _ => exact .execShaperPictureStart h
  | shaperRowGroup _ _ => exact .execShaperRowGroup h
  | shaperFrameComplete _ _ => exact .execShaperFrameComplete h
  | frameStart _ _ => exact .execFrameStart h
  | sensorLine _ _ _ _ _ _ _ => exact .execSensorLine h
  | frameEnd _ _ _ => exact .execFrameEnd h
  | inBandInterrupt _ => exact .execInBandInterrupt h
  | snsCtlWrite _ _ => exact .execSnsCtlWrite h
  | headHour _ _ _ => exact .execHeadHour h
  | historyExpiry _ => exact .execHistoryExpiry h
  | ringRecordWrite _ => exact .execRingRecordWrite h
  | sqTailDoorbell _ _ => exact .execSqTailDoorbell h
  | cqHeadDoorbell _ _ => exact .execCqHeadDoorbell h
  | ringReadDoorbell _ _ => exact .execRingReadDoorbell h
  | queAdminCfgWrite _ => exact .execQueAdminCfgWrite h
  | createSq _ _ => exact .execCreateSq h
  | deleteSq _ _ => exact .execDeleteSq h
  | createCq _ _ => exact .execCreateCq h
  | deleteCq _ _ => exact .execDeleteCq h
  | createRing _ _ => exact .execCreateRing h
  | deleteRing _ _ => exact .execDeleteRing h
  | loadImage _ _ => exact .execLoadImage h
  | unload _ _ => exact .execUnload h
  | setContext _ _ => exact .execSetContext h
  | seqSet _ _ _ => exact .execSeqSet h
  | createStream _ _ => exact .execCreateStream h
  | configStream _ _ _ => exact .execConfigStream h
  | destroyStream _ _ => exact .execDestroyStream h
  | streamDestroyComplete _ => exact .execStreamDestroyComplete h
  | feed _ _ _ => exact .execFeed h
  | attachSensor _ _ _ _ => exact .execAttachSensor h
  | detachSensor _ _ => exact .execDetachSensor h
  | sensorXfer _ _ _ _ => exact .execSensorXfer h
  | revisit _ _ => exact .execRevisit h
  | readout _ _ => exact .execReadout h
  | clipReq _ _ => exact .execClipReq h
  | release _ _ => exact .execRelease h
  | encode _ _ => exact .execEncode h
  | setMode _ _ => exact .execSetMode h
  | groupJoin _ _ _ => exact .execGroupJoin h
  | groupLeave _ _ => exact .execGroupLeave h
  | attest _ _ => exact .execAttest h
  | attestSignComplete _ => exact .execAttestSignComplete h
  | readLog _ _ => exact .execReadLog h
  | setEvents _ _ => exact .execSetEvents h
  | forceFree _ _ => exact .execForceFree h
  | apertureRead _ _ => exact .execApertureRead h
  | apertureWrite _ _ _ => exact .execApertureWrite h
  | hifApertureBaseHiWrite _ => exact .execHifApertureBaseHiWrite h
  | configRequest _ _ _ => exact .execConfigRequest h
  | msixUnmask _ => exact .execMsixUnmask h
  | powerstateD3hot => exact .execPowerstateD3hot h
  | powerstateD0 => exact .execPowerstateD0 h
  | nightMemoryRequest => exact .execNightMemoryRequest h
  | hotReset => exact .execHotReset h
  | perstNAssert => exact .execPerstNAssert h
  | perstNDeassert => exact .execPerstNDeassert h
  | dlDown => exact .execDlDown h
  | dlUp _ _ => exact .execDlUp h
  | linkHoldExpiry => exact .execLinkHoldExpiry h
  | dramRequest _ _ => exact .execDramRequest h
  | migrationLineCopy _ => exact .execMigrationLineCopy h
  | dramRefreshCommand _ _ => exact .execDramRefreshCommand h
  | dramTempSample _ => exact .execDramTempSample h
  | dramScrubRead _ => exact .execDramScrubRead h
  | cabinetScrubRead _ => exact .execCabinetScrubRead h
  | correctionWriteback => exact .execCorrectionWriteback h
  | hangWatchSample _ => exact .execHangWatchSample h
  | unitResetComplete _ => exact .execUnitResetComplete h
  | unitResetTimeout _ => exact .execUnitResetTimeout h
  | computeResetComplete => exact .execComputeResetComplete h
  | computeResetTimeout => exact .execComputeResetTimeout h
  | ccWatchdogExpiry _ => exact .execCcWatchdogExpiry h
  | restartComplete _ _ => exact .execRestartComplete h
  | logSecondEnd => exact .execLogSecondEnd h
  | flitReceive _ _ => exact .execFlitReceive h
  | mirrorChunk _ _ _ _ _ => exact .execMirrorChunk h
  | mirrorConfig _ _ _ _ => exact .execMirrorConfig h
  | commit _ _ => exact .execCommit h
  | stepDelta _ _ _ => exact .execStepDelta h
  | ack _ _ => exact .execAck h
  | notice _ _ _ _ => exact .execNotice h
  | ident _ _ _ => exact .execIdent h
  | linkAck _ _ => exact .execLinkAck h
  | linkNak _ _ => exact .execLinkNak h
  | credit _ _ _ => exact .execCredit h
  | retrain _ _ => exact .execRetrain h
  | portRetrainRetry _ _ => exact .execPortRetrainRetry h
  | mirrorAckTimeout _ => exact .execMirrorAckTimeout h
  | fabPortCtlWrite _ _ => exact .execFabPortCtlWrite h
  | cprPwrCtlWrite _ => exact .execCprPwrCtlWrite h
  | wakeN => exact .execWakeN h
  | gpioWake _ => exact .execGpioWake h
  | wakeTimer => exact .execWakeTimer h
  | dawnEntryComplete _ _ _ => exact .execDawnEntryComplete h
  | duskFrameTimeout => exact .execDuskFrameTimeout h
  | duskComplete => exact .execDuskComplete h
  | autoNightIdle => exact .execAutoNightIdle h
  | cprWakeTimeHiWrite _ => exact .execCprWakeTimeHiWrite h
  | cprTimeLoRead => exact .execCprTimeLoRead h
  | pllLock _ => exact .execPllLock h
  | cprClkSelWrite _ => exact .execCprClkSelWrite h
  | clockSwitchComplete _ => exact .execClockSwitchComplete h
  | cprClkEscWrite _ => exact .execCprClkEscWrite h
  | clockEscapeAuto => exact .execClockEscapeAuto h
  | fmeterStart _ => exact .execFmeterStart h
  | fmeterDone _ => exact .execFmeterDone h
  | poresetNAssert => exact .next memWf_powerOn
  | poresetNDeassert _ _ => exact .execPoresetNDeassert h
  | powerGroupRegulated => exact .execPowerGroupRegulated h
  | powerGroupTimeout => exact .execPowerGroupTimeout h
  | powerSequenceRetry => exact .execPowerSequenceRetry h
  | thermalWarning _ _ => exact .execThermalWarning h
  | thermalWarningEnd _ _ => exact .execThermalWarningEnd h
  | thermalTrip => exact .execThermalTrip h
  | secRecoveryGo => exact .execSecRecoveryGo h
  | programKeyHash => exact .execProgramKeyHash h
  | blowEnforcementFuse => exact .execBlowEnforcementFuse h
  | otpCommandComplete => exact .execOtpCommandComplete h
  | secSigIndexLoRead => exact .execSecSigIndexLoRead h
  | registerWrite _ _ => exact .execRegisterWrite h
  | powerRemoval => exact .next memWf_powerOn
  | pllOutputLoss _ => exact .execPllOutputLoss h
  | firmwareException _ => exact .execFirmwareException h
  | completionTimeout => exact .execCompletionTimeout h
  | referenceReady => exact .execReferenceReady h

theorem memWf_tick : s.tick.d.MemWf := .ite (.dramTick (.upd h)) (.upd h)

theorem NextMemWf.step : NextMemWf (step s) := by
  unfold Machine.step
  split
  · exact .next (memWf_tick h)
  · next rest _ => exact .exec (s := { s with pending := rest }) h

end

/-- Settles O60: every function of the device leaves memory in its canonical form, so every command and a tick do. -/
theorem memoryKeepsForm : Obligations.MemoryKeepsForm := fun _ _ h ht => NextMemWf.step h _ ht

/-- A state with memory that is not empty and a command that writes it. -/
theorem readoutState_keepsForm : Answers (.readoutAdmission 0) readoutState fun t => t.d.mem.wf = true := by
  obtain ⟨t, hexec, -⟩ := readoutState_serves
  exact ⟨t, hexec, memoryKeepsForm { readoutState with pending := [.readoutAdmission 0] } t (by decide) hexec⟩

end Sys2Proof.Machine
end

section
/-!
SUPPORT. Buffer pools outside a kernel: handles (O10), a pop (O6) and the references of a buffer (O7).
-/

namespace Sys2Proof.Machine

/-! ### Handles -/

theorem poolCount_lt (d : Dev) (p : Nat) : d.poolCount p < 2 ^ 26 := Nat.mod_lt _ (by decide)

/-- The null handle's index is past the end of every pool. -/
theorem buf_nullHandle (d : Dev) : d.buf nullHandle = none := by
  have hlast : hIdx nullHandle = 2 ^ 26 - 1 := by decide
  have hcount := poolCount_lt d (hPool nullHandle)
  exact if_pos (.inr (by omega))

/-- Settles O10: division and remainder are the two slices of the word. -/
theorem handles : Obligations.Handles := by
  unfold Obligations.Handles
  refine ⟨fun x => ⟨?pool, ?index⟩, fun _ _ _ => rfl, by decide, buf_nullHandle⟩
  case pool => rw [hPool, BitVec.extractLsb'_toNat, Nat.shiftRight_eq_div_pow]
  case index => rw [hIdx, BitVec.extractLsb'_toNat, Nat.shiftRight_zero]

/-! ### A pop -/

/-- What a pop answers is noted. -/
def Dev.notePop (r : Option Nat × Dev) : Dev := { r.2 with bpm := { r.2.bpm with lastPop := r.1 } }

theorem exec_poolPop {s : State} {p n : Nat} (hp : p < 64) : exec (.poolPop p n) s = .next { s with d := .notePop (s.here.pop p n) } := by
  have arm : exec (.poolPop p n) s = .next { s with d := .notePop (s.here.pop (p % 64) n) } := rfl
  rw [arm, Nat.mod_eq_of_lt hp]

/-- What stands in the pools besides the last answer is what the pop left. -/
theorem Popped.of_fields {d e g : Dev} {p i n : Nat} (h : Popped d e p i n) (hbufs : g.bpm.bufs = e.bpm.bufs) (hheads : g.bpm.heads = e.bpm.heads)
    (hrelink : g.bpm.relink = e.bpm.relink) : Popped d g p i n := by
  unfold Popped
  rwa [hbufs, hheads, hrelink]

/-- What the device keeps when its pool p has given its head away and the answer has been noted. -/
theorem notePop_kept {s : State} {e : Dev} {p i n h : Nat} (hpopped : Popped s.here e p i n) (hrest : Dev.PoolOnly s.here e)
    (hrd : s.here.mem.chk = [] → e.rd = s.here.rd) :
    Popped s.here (.notePop (some h, e)) p i n ∧ (Dev.notePop (some h, e)).home = s.here.home ∧ (Dev.notePop (some h, e)).cores = s.here.cores ∧
      (Dev.notePop (some h, e)).streams = s.here.streams ∧ (s.here.mem.chk = [] → ∀ a, (Dev.notePop (some h, e)).rd a = s.here.rd a) := by
  have hhome : e.home = s.here.home := by rw [hrest.rest]
  have hcores : e.cores = s.here.cores := by rw [hrest.rest]
  have hstreams : e.streams = s.here.streams := by rw [hrest.rest]
  refine ⟨hpopped.of_fields rfl rfl rfl, hhome, hcores, hstreams, fun hchk a => ?_⟩
  rw [← hrd hchk]
  exact Dev.rd_of_regs rfl rfl (fun _ _ _ => rfl) a

/-- Settles O6: the pop takes the head, and what it answers is the only thing noted besides. -/
theorem poolPop : Obligations.PoolPop := by
  unfold Obligations.PoolPop
  refine ⟨fun s p i n hcan => ?head, fun s p n hp hstate hfail => ?disabled⟩
  case head =>
    have hexec := exec_poolPop (s := s) (n := n) hcan.1
    rw [pop_canPop hcan] at hexec
    obtain ⟨hpopped, hhome, hcores, hstreams, hrd⟩ :=
      notePop_kept (h := mkHandle p i) (takeHead_popped s.here p i n) (takeHead_poolOnly hcan n) (takeHead_rd hcan.1)
    exact ⟨_, hexec, hpopped, rfl, rfl, hhome, hcores, hstreams, hrd⟩
  case disabled =>
    refine ⟨_, exec_poolPop hp, ?_⟩
    rw [pop_disabled hstate hfail]
    rfl

/-! ### References -/

section

variable {d : Dev} {h : Nat} {b : Buf}

theorem refFault_not_allocated {inc : Bool} {n : Nat} (hb : d.buf h = some b) (hst : b.st ≠ .allocated) :
    d.refFault inc h n = some .doubleFree := by
  simp [Dev.refFault, hb, hst]

theorem refFault_full {n : Nat} (hb : d.buf h = some b) (hst : b.st = .allocated) (hcount : 65535 ≤ b.count) :
    d.refFault true h n = some .refUnderflow := by
  simp [Dev.refFault, hb, hst, hcount]

theorem refFault_zero {n : Nat} (hb : d.buf h = some b) (hst : b.st = .allocated) (hcount : b.count ≤ n) :
    d.refFault false h n = some .refUnderflow := by
  simp [Dev.refFault, hb, hst, hcount]

theorem refDec_counted (hb : d.buf h = some b) (hst : b.st = .allocated) (hcount : 1 < b.count) :
    d.refDec h = d.setBuf h ⟨.allocated, b.count - 1⟩ := by
  have hne : b.count ≠ 1 := by omega
  have hle : 1 ≤ b.count := by omega
  simp only [Dev.refDec, hb, hst, hne, hle, and_self, if_true, if_false]

theorem refDec_last (hb : d.buf h = some b) (hst : b.st = .allocated) (hcount : b.count = 1) : d.refDec h = d.pushBuf h := by
  simp [Dev.refDec, hb, hst, hcount]

theorem lowRose_eq (d : Dev) (p : Nat) : ∃ l, d.lowRose p = { d with bpm := { d.bpm with lowPosted := l } } := by
  unfold Dev.lowRose
  split
  · exact ⟨_, rfl⟩
  · exact ⟨_, rfl⟩

/-- A pool that is not STOPPING does not end here. -/
theorem stopCheck_of_state {p : Nat} (hstate : d.poolState p ≠ 2) : d.stopCheck p = d := if_neg fun hstop => hstate hstop.1

theorem Dev.StoresOnly.poolState {e : Dev} (hs : Dev.StoresOnly d e) {p : Nat} (hp : p < 64) : e.poolState p = d.poolState p := by
  have hreg := hs.regs (R.BPM_POOL_STAT p) (by simp only [inBlocks, R.BPM_POOL_STAT]; omega)
  simp only [Dev.poolState, Dev.fld, hreg]

/-- The buffer marked FREE, and its header written over it. -/
def Dev.headerOut (d : Dev) (h : Nat) : Dev :=
  (d.setBuf h ⟨.free, 0⟩).writeRun ((d.setBuf h ⟨.free, 0⟩).bufAddr h)
    (freeHeader (mgetD (d.setBuf h ⟨.free, 0⟩).bpm.heads (hPool h) nullHandle) h)

theorem headerOut_storesOnly (d : Dev) (h : Nat) : Dev.StoresOnly (d.setBuf h ⟨.free, 0⟩) (d.headerOut h) := Dev.storesOnly_writeRun _ _ _

/-- A buffer goes back to an ENABLED pool: FREE, its header written, and the head of its list. -/
theorem pushBuf_enabled (hstate : d.poolState (hPool h) = 1) : ∃ l, d.pushBuf h = { d.headerOut h with
    bpm := { d.bpm with bufs := mput d.bpm.bufs h ⟨.free, 0⟩, heads := mput d.bpm.heads (hPool h) (hIdx h), lowPosted := l } } := by
  have hset : (d.setBuf h ⟨.free, 0⟩).poolState (hPool h) = 1 := hstate
  have hwrite := headerOut_storesOnly d h
  have hafter := (hwrite.poolState (hPool_lt h)).trans hset
  have hpush : d.pushBuf h = (Dev.lowRose { d.headerOut h with bpm := { (d.headerOut h).bpm with
      heads := mput (d.headerOut h).bpm.heads (hPool h) (hIdx h) } } (hPool h)).stopCheck (hPool h) := by
    unfold Dev.pushBuf
    simp only [hset, OfNat.one_ne_ofNat, if_false]
    rfl
  generalize d.headerOut h = e at *
  obtain ⟨l, hl⟩ := lowRose_eq { e with bpm := { e.bpm with heads := mput e.bpm.heads (hPool h) (hIdx h) } } (hPool h)
  have hbpm : e.bpm = { d.bpm with bufs := mput d.bpm.bufs h ⟨.free, 0⟩ } := by rw [hwrite.rest]; rfl
  rw [hpush, hl, stopCheck_of_state, hbpm]
  · exact ⟨l, rfl⟩
  · exact Eq.trans_ne (b := e.poolState (hPool h)) (Dev.fld_congr rfl _ _) (hafter.trans_ne (by decide))

end

theorem exec_bufferRefOp (inc : Bool) (h : Nat) (s : State) : exec (.bufferRefOp inc h) s =
    .next { s with d := if s.here.refFault inc h 0 = none then (if inc then s.here.refInc h else s.here.refDec h) else s.here } := rfl

theorem exec_bufferRefOp_refused {inc : Bool} {h : Nat} {s : State} {code : Code} (hfault : s.here.refFault inc h 0 = some code) :
    exec (.bufferRefOp inc h) s = .next { s with d := s.here } := by
  rw [exec_bufferRefOp, hfault]
  rfl

/-- Settles O7: the check lets an operation through exactly where the table has a row for it. -/
theorem referenceOperations : Obligations.ReferenceOperations := by
  unfold Obligations.ReferenceOperations
  refine fun s h b hb => ⟨fun hst hcount => ?inc, fun hst hcount => ?dec, fun hst hcount hstate => ?last, fun hbad => ?noInc, fun hbad => ?noDec⟩
  case inc =>
    refine ⟨_, exec_bufferRefOp true h s, ?_⟩
    simp only [refFault_inc hb hst hcount, refInc_allocated hb hst hcount, if_true]
    rfl
  case dec =>
    refine ⟨_, exec_bufferRefOp false h s, ?_⟩
    simp only [refFault_dec hb hst (Nat.zero_lt_of_lt hcount), refDec_counted hb hst hcount, if_true, Bool.false_eq_true, if_false]
    rfl
  case last =>
    have hexec := exec_bufferRefOp false h s
    simp only [refFault_dec (n := 0) hb hst (by omega), refDec_last hb hst hcount, if_true, Bool.false_eq_true, if_false] at hexec
    obtain ⟨l, hpush⟩ := pushBuf_enabled hstate
    have hbpm := congrArg Dev.bpm hpush
    have hrest := (s.here.poolOnly_pushBuf h).rest
    generalize s.here.pushBuf h = e at hexec hbpm hrest
    refine ⟨_, hexec, ?_, ?_, fun x hx => ?_, fun q hq => ?_, by rw [hrest], by rw [hrest], by rw [hrest]⟩
    · rw [hbpm]
      exact mget_mput_same ..
    · rw [hbpm]
      exact mget_mput_same ..
    · rw [hbpm]
      exact mget_mput_ne _ _ hx
    · rw [hbpm]
      exact mget_mput_ne _ _ hq
  case noInc =>
    by_cases hst : b.st = .allocated
    · exact exec_bufferRefOp_refused (refFault_full hb hst (hbad.resolve_left (not_not_intro hst)))
    · exact exec_bufferRefOp_refused (refFault_not_allocated hb hst)
  case noDec =>
    by_cases hst : b.st = .allocated
    · exact exec_bufferRefOp_refused (refFault_zero hb hst (Nat.le_of_eq (hbad.resolve_left (not_not_intro hst))))
    · exact exec_bufferRefOp_refused (refFault_not_allocated hb hst)

end Sys2Proof.Machine
end

section
/-!
SUPPORT. The states of a pool (O9): a write of its enable bit and the end of a relink (R253, R257).
-/

namespace Sys2Proof.Machine

section

variable {d : Dev} {p : Nat}

/-! ### What the checks of an enable read -/

theorem poolState_ctl (q : Nat) (f : Fld) (n : Nat) : (d.setFld (R.BPM_POOL_CTL p) f n).poolState q = d.poolState q :=
  d.fld_setFld_ne _ _ _ (by simp only [R.BPM_POOL_STAT, R.BPM_POOL_CTL]; omega)

theorem poolCount_ctl (q : Nat) (f : Fld) (n : Nat) : (d.setFld (R.BPM_POOL_CTL p) f n).poolCount q = d.poolCount q :=
  d.fld_setFld_ne _ _ _ (by simp only [R.BPM_POOL_COUNT, R.BPM_POOL_CTL]; omega)

/-- They do not read the enable bit itself. -/
theorem poolOk_ctl (f : Fld) (n : Nat) : (d.setFld (R.BPM_POOL_CTL p) f n).poolOk p = d.poolOk p := by
  have hfld : ∀ o g, o % 0x20 ≠ 0x14 → (d.setFld (R.BPM_POOL_CTL p) f n).fld o g = d.fld o g := fun o g ho =>
    d.fld_setFld_ne _ _ _ (by simp only [R.BPM_POOL_CTL]; omega)
  have hstate : ∀ q, (d.setFld (R.BPM_POOL_CTL p) f n).poolState q = d.poolState q := fun q => poolState_ctl q f n
  have hcount : (d.setFld (R.BPM_POOL_CTL p) f n).poolCount = d.poolCount := funext fun q => poolCount_ctl q f n
  have hcfg : ∀ q g, (d.setFld (R.BPM_POOL_CTL p) f n).fld (R.BPM_POOL_CFG q) g = d.fld (R.BPM_POOL_CFG q) g := fun q g =>
    hfld _ g (by simp only [R.BPM_POOL_CFG]; omega)
  have hsize : ∀ q, (d.setFld (R.BPM_POOL_CTL p) f n).poolSize q = d.poolSize q := fun q => by rw [Dev.poolSize, Dev.poolSize, hcfg]
  have hbase : ∀ q, (d.setFld (R.BPM_POOL_CTL p) f n).poolBase q = d.poolBase q := fun q => by
    rw [Dev.poolBase, Dev.poolBase, hfld _ _ (by simp only [R.BPM_POOL_BASE_HI]; omega),
      d.reg_setFld_ne _ _ (by simp only [R.BPM_POOL_BASE_LO, R.BPM_POOL_CTL]; omega)]
  have hlost : (d.setFld (R.BPM_POOL_CTL p) f n).fld R.DRC_STATUS F.DRC_STATUS_lost_blocks = d.fld R.DRC_STATUS F.DRC_STATUS_lost_blocks :=
    hfld _ _ (by decide)
  have hheld : (d.setFld (R.BPM_POOL_CTL p) f n).heldRanges = d.heldRanges := rfl
  simp only [Dev.poolOk, hstate, hcount, hcfg, hsize, hbase, hlost, hheld]

/-! ### A change of the control and the state register -/

/-- The two registers of pool p after a write of each. -/
def Dev.ctlStat (d : Dev) (p x : Nat) (f : Fld) (n : Nat) : Dev :=
  (d.setFld (R.BPM_POOL_CTL p) F.BPM_POOL_CTL_enable x).setFld (R.BPM_POOL_STAT p) f n

section

variable (d : Dev) (p x : Nat) (f : Fld) (n : Nat)

theorem ctlStat_rest : d.ctlStat p x f n = { d with regs := (d.ctlStat p x f n).regs } := rfl

theorem ctlStat_reg {o : Nat} (hctl : o ≠ R.BPM_POOL_CTL p) (hstat : o ≠ R.BPM_POOL_STAT p) : (d.ctlStat p x f n).reg o = d.reg o :=
  (Dev.reg_setFld_ne _ _ _ hstat).trans (Dev.reg_setFld_ne _ _ _ hctl)

theorem ctlStat_enable : (d.ctlStat p x f n).fld (R.BPM_POOL_CTL p) F.BPM_POOL_CTL_enable = x % 2 :=
  (Dev.fld_setFld_ne _ _ _ _ (by simp only [R.BPM_POOL_CTL, R.BPM_POOL_STAT]; omega)).trans (Dev.fld_setFld_same _ _ _ _ (by decide))

theorem ctlStat_fld (hf : f.lsb + f.w ≤ 32) : (d.ctlStat p x f n).fld (R.BPM_POOL_STAT p) f = n % 2 ^ f.w := Dev.fld_setFld_same _ _ _ _ hf

theorem ctlStat_poolState (hf : f.lsb + f.w ≤ 32) (hlsb : 2 ≤ f.lsb) : (d.ctlStat p x f n).poolState p = d.poolState p :=
  (Dev.fld_setFld_other (g := F.BPM_POOL_STAT_state) _ _ _ hf (.inl hlsb)).trans (poolState_ctl ..)

/-- Pools that are put in besides leave the registers alone. -/
theorem ctlStat_pools (b : Bpm) : { d.ctlStat p x f n with bpm := b }.fld = (d.ctlStat p x f n).fld ∧
    { d.ctlStat p x f n with bpm := b }.reg = (d.ctlStat p x f n).reg :=
  ⟨funext₂ fun o g => Dev.fld_congr rfl o g, funext fun o => Dev.reg_congr rfl o⟩

/-- The device when pool p starts REBUILDING with the pools b. -/
theorem ctlStat_rebuilding {g : Dev} {b : Bpm} (hg : g = { d.ctlStat p 1 F.BPM_POOL_STAT_state 3 with bpm := b }) :
    g.poolState p = 3 ∧ g.fld (R.BPM_POOL_CTL p) F.BPM_POOL_CTL_enable = 1 ∧ g.bpm = b ∧ g = { d with regs := g.regs, bpm := g.bpm } ∧
      ∀ o, o ≠ R.BPM_POOL_CTL p → o ≠ R.BPM_POOL_STAT p → g.reg o = d.reg o := by
  subst hg
  obtain ⟨hfld, hreg⟩ := ctlStat_pools d p 1 F.BPM_POOL_STAT_state 3 b
  rw [Dev.poolState, hfld, hreg]
  exact ⟨ctlStat_fld _ _ _ _ _ (by decide), ctlStat_enable .., rfl, rfl, fun o hctl hstat => ctlStat_reg _ _ _ _ _ hctl hstat⟩

end

/-! ### Stopping -/

theorem stopCheck_of_allocated (hbufs : d.bufsIn p .allocated ≠ []) : d.stopCheck p = d := if_neg fun hstop => hbufs hstop.2

/-! ### Enabling -/

theorem mget_foldl_mput {α : Type} {v : α} {k : Nat} (l : List Nat) {m : SMap α} (h : k ∈ l ∨ mget m k = some v) :
    mget (l.foldl (fun m x => mput m x v) m) k = some v := by
  induction l generalizing m with
  | nil => exact h.resolve_left List.not_mem_nil
  | cons x l ih =>
    refine ih ?_
    by_cases hx : k = x
    · exact .inr (by rw [hx, mget_mput_same])
    · rw [mget_mput_ne _ _ hx]
      exact h.imp_left fun hk => (List.mem_cons.1 hk).resolve_left hx

/-- The pools when pool p has been enabled: every buffer FREE and none in its list. -/
def Dev.freshPool (d : Dev) (p : Nat) : Bpm :=
  { d.bpm with bufs := ((List.range (d.poolCount p)).map (mkHandle p)).foldl (fun m h => mput m h ⟨.free, 0⟩) d.bpm.bufs,
               heads := mdel d.bpm.heads p, relink := mput d.bpm.relink p (0, []) }

theorem freshPool_buf (d : Dev) {p i : Nat} (hi : i < d.poolCount p) : mget (d.freshPool p).bufs (mkHandle p i) = some ⟨.free, 0⟩ :=
  mget_foldl_mput _ (.inl (List.mem_map_of_mem (List.mem_range.2 hi)))

theorem enablePool_ok (h : d.poolOk p = true) :
    d.enablePool p = { d.setFld (R.BPM_POOL_STAT p) F.BPM_POOL_STAT_state 3 with bpm := d.freshPool p } := if_pos h

theorem enablePool_refused (h : d.poolOk p = false) : d.enablePool p = d.setFld (R.BPM_POOL_STAT p) F.BPM_POOL_STAT_cfg_err 1 :=
  if_neg (by rw [h]; exact Bool.false_ne_true)

/-! ### A write of the enable bit -/

variable {en : Bool}

theorem poolCtl_enabled (hstate : d.poolState p = 0) (hok : d.poolOk p = true) :
    d.poolCtl p true = { d.ctlStat p 1 F.BPM_POOL_STAT_state 3 with bpm := d.freshPool p } := by
  have hok' := (poolOk_ctl F.BPM_POOL_CTL_enable 1).trans hok
  have hfresh : (d.setFld (R.BPM_POOL_CTL p) F.BPM_POOL_CTL_enable 1).freshPool p = d.freshPool p := by
    rw [Dev.freshPool, poolCount_ctl]
    rfl
  simp only [Dev.poolCtl, b2n, if_true, poolState_ctl, hstate, enablePool_ok hok', hfresh, Dev.ctlStat]

theorem poolCtl_refused (hstate : d.poolState p = 0) (hok : d.poolOk p = false) :
    d.poolCtl p true = d.ctlStat p 1 F.BPM_POOL_STAT_cfg_err 1 := by
  have hok' := (poolOk_ctl F.BPM_POOL_CTL_enable 1).trans hok
  simp only [Dev.poolCtl, b2n, if_true, poolState_ctl, hstate, enablePool_refused hok', Dev.ctlStat]

theorem poolCtl_stops (hstate : d.poolState p = 1 ∨ d.poolState p = 3) (hbufs : d.bufsIn p .allocated ≠ []) :
    d.poolCtl p false = d.ctlStat p 0 F.BPM_POOL_STAT_state 2 := by
  simp only [Dev.poolCtl, b2n, Bool.false_eq_true, if_false, poolState_ctl, hstate, if_true]
  exact stopCheck_of_allocated hbufs

theorem poolCtl_stopping (hstate : d.poolState p = 2) :
    d.poolCtl p en = d.ctlStat p (b2n en) F.BPM_POOL_STAT_enable_pending (b2n en) := by
  cases en <;> simp [Dev.poolCtl, b2n, poolState_ctl, hstate, Dev.ctlStat]

theorem exec_bpmPoolCtlWrite {s : State} {v : Word} (hp : p < 64) (hopen : s.here.regOpen (R.BPM_POOL_CTL p) = true) :
    exec (.bpmPoolCtlWrite p v) s = .next { s with d := s.here.poolCtl p (v.getLsbD 0) } := by
  have arm : exec (.bpmPoolCtlWrite p v) s = execBpmPoolCtlWrite p v s := rfl
  rw [arm, execBpmPoolCtlWrite, onDev_here, if_pos ⟨hp, hopen⟩]

end

/-! ### The end of a relink -/

theorem exec_poolRebuildComplete {s : State} {p : Nat} (hp : p < 64) (hstate : s.here.poolState p = 3) :
    exec (.poolRebuildComplete p) s = .next { s with d := s.here.relinkDone p } := by
  have arm : exec (.poolRebuildComplete p) s = execPoolRebuildComplete p s := rfl
  rw [arm, execPoolRebuildComplete, onDev_here, if_pos ⟨hp, hstate⟩]

/-- The headers are written before the pool is ENABLED. -/
theorem relinkDone_spec (d : Dev) (p : Nat) : ∃ e heads, Dev.StoresOnly d e ∧ d.relinkDone p =
    { e.setFld (R.BPM_POOL_STAT p) F.BPM_POOL_STAT_state 1 with bpm := { e.bpm with heads := heads, relink := mdel e.bpm.relink p } } := by
  unfold Dev.relinkDone
  extract_lets pushed asc lst e heads
  exact ⟨e, heads, .foldl (fun e x => e.storesOnly_writeRun _ _) _ d, rfl⟩

theorem relinkDone_kept (d : Dev) (p : Nat) : (d.relinkDone p).poolState p = 1 ∧ mget (d.relinkDone p).bpm.relink p = none ∧
    (d.relinkDone p).bpm.bufs = d.bpm.bufs ∧ (d.relinkDone p).home = d.home ∧ (d.relinkDone p).cores = d.cores := by
  obtain ⟨e, heads, he, hdone⟩ := relinkDone_spec d p
  have hbufs : e.bpm.bufs = d.bpm.bufs := by rw [he.rest]
  have hhome : e.home = d.home := by rw [he.rest]
  have hcores : e.cores = d.cores := by rw [he.rest]
  have hstate : (e.setFld (R.BPM_POOL_STAT p) F.BPM_POOL_STAT_state 1).poolState p = 1 := Dev.fld_setFld_same _ _ _ _ (by decide)
  rw [hdone]
  exact ⟨hstate, mget_mdel_same .., hbufs, hhome, hcores⟩

/-! ### The statement -/

/-- Settles O9: of the registers only the pool's control and state change, and of the pools only this one. -/
theorem poolStates : Obligations.PoolStates := by
  unfold Obligations.PoolStates
  refine fun s p hp => ⟨fun v hopen hv hstate hok => ?enable, fun v hopen hv hstate hok => ?refuse, fun v hopen hv hstate hbufs => ?stop,
    fun v hopen hstate => ?pend, fun hstate => ?relink⟩
  case enable =>
    have hexec := exec_bpmPoolCtlWrite (v := v) hp hopen
    rw [hv] at hexec
    obtain ⟨hstate', henable, hbpm, hrest, hreg⟩ := ctlStat_rebuilding _ _ (poolCtl_enabled hstate hok)
    generalize s.here.poolCtl p true = g at *
    refine ⟨_, hexec, hstate', henable, fun i hi => ?_, congrArg (fun d => { s with d := d }) hrest, hreg⟩
    rw [hbpm]
    exact freshPool_buf _ hi
  case refuse =>
    have hexec := exec_bpmPoolCtlWrite (v := v) hp hopen
    rw [hv, poolCtl_refused hstate hok] at hexec
    refine ⟨_, hexec, (ctlStat_poolState _ _ _ _ _ (by decide) (by decide)).trans hstate, ?flag,
      congrArg (fun d => { s with d := d }) (ctlStat_rest ..), fun o hctl hstat => ctlStat_reg _ _ _ _ _ hctl hstat⟩
    case flag => rw [Dev.flag, ctlStat_fld _ _ _ _ _ (by decide)]; rfl
  case stop =>
    have hexec := exec_bpmPoolCtlWrite (v := v) hp hopen
    rw [hv, poolCtl_stops hstate hbufs] at hexec
    exact ⟨_, hexec, ctlStat_fld _ _ _ _ _ (by decide), rfl, congrArg (fun d => { s with d := d }) (ctlStat_rest ..),
      fun o hctl hstat => ctlStat_reg _ _ _ _ _ hctl hstat⟩
  case pend =>
    have hexec := exec_bpmPoolCtlWrite (v := v) hp hopen
    rw [poolCtl_stopping hstate] at hexec
    refine ⟨_, hexec, (ctlStat_poolState _ _ _ _ _ (by decide) (by decide)).trans hstate, rfl, ?flag⟩
    case flag =>
      rw [Dev.flag, ctlStat_fld _ _ _ _ _ (by decide)]
      cases v.getLsbD 0 <;> rfl
  case relink => exact ⟨_, exec_poolRebuildComplete hp hstate, relinkDone_kept ..⟩

end Sys2Proof.Machine
end

section
/-!
SUPPORT. What an access to the stores leaves of the queues and of what was sent (O36, O29): it may log, count, post records and raise vectors,
but the queues stand as they stood and what was sent before stands first.
-/

namespace Sys2Proof.Machine

/-- Submission queues, completion queues, commands that wait and the function's configuration are the same, and whatever else has been sent
stands behind what was sent before. -/
structure Dev.SentMore (d e : Dev) : Prop where
  sqs : e.que.sqs = d.que.sqs
  cqs : e.que.cqs = d.que.cqs
  cmds : e.que.cmds = d.que.cmds
  cfg : e.host.cfg = d.host.cfg
  sent : d.host.sent <+: e.host.sent

/-- Queues and host interface are the same. -/
theorem Dev.SentMore.of_eq {d e : Dev} (hque : e.que = d.que) (hhost : e.host = d.host) : Dev.SentMore d e :=
  ⟨by rw [hque], by rw [hque], by rw [hque], by rw [hhost], by rw [hhost]⟩

theorem Dev.SentMore.refl (d : Dev) : Dev.SentMore d d := .of_eq rfl rfl

theorem Dev.SentMore.trans {d e f : Dev} (h : Dev.SentMore d e) (g : Dev.SentMore e f) : Dev.SentMore d f :=
  ⟨g.sqs.trans h.sqs, g.cqs.trans h.cqs, g.cmds.trans h.cmds, g.cfg.trans h.cfg, h.sent.trans g.sent⟩

theorem Dev.SentMore.foldl {β : Type} {f : Dev → β → Dev} (hf : ∀ d b, Dev.SentMore d (f d b)) (l : List β) (d : Dev) :
    Dev.SentMore d (l.foldl f d) := by
  induction l generalizing d with
  | nil => exact .refl d
  | cons b r ih => exact (hf d b).trans (ih _)

/-! ### Logging and reporting -/

section
variable (d : Dev)

theorem Dev.sentMore_setFld (o : Nat) (f : Fld) (n : Nat) : Dev.SentMore d (d.setFld o f n) := .of_eq rfl rfl

theorem Dev.sentMore_satFld (o : Nat) (f : Fld) (n : Nat) : Dev.SentMore d (d.satFld o f n) := d.sentMore_setFld ..

theorem Dev.sentMore_logEv (e : LogEntry) : Dev.SentMore d (d.logEv e) := .of_eq (by simp) (by simp)

theorem Dev.sentMore_send (w : DevWrite) : Dev.SentMore d (d.send w) := by
  unfold Dev.send
  split
  · exact ⟨rfl, rfl, rfl, rfl, List.prefix_append ..⟩
  · exact ⟨rfl, rfl, rfl, rfl, List.prefix_rfl⟩

theorem Dev.sentMore_raiseVec (v : Nat) : Dev.SentMore d (d.raiseVec v) := by
  unfold Dev.raiseVec
  split
  · split
    · exact .refl d
    · exact ⟨rfl, rfl, rfl, rfl, List.prefix_rfl⟩
  · exact d.sentMore_send _

theorem Dev.sentMore_health (a b c x y : Nat) (l : List Byte) : Dev.SentMore d (d.health a b c x y l) := by
  unfold Dev.health
  extract_lets seq que counted body
  have hcounted : Dev.SentMore d counted := ⟨rfl, rfl, rfl, rfl, List.prefix_rfl⟩
  split
  · exact hcounted.trans ⟨rfl, rfl, rfl, rfl, List.prefix_rfl⟩
  · exact hcounted.trans ((Dev.sentMore_logEv _ _).trans (Dev.sentMore_raiseVec _ _))

theorem Dev.sentMore_replaceCause (a b x y : Nat) : Dev.SentMore d (d.replaceCause a b x y) := by
  unfold Dev.replaceCause
  extract_lets c marked
  split
  · exact .refl d
  · exact (d.sentMore_setFld _ _ _).trans ((Dev.sentMore_health ..).trans (Dev.sentMore_raiseVec _ _))

/-! ### A rank that fails -/

theorem Dev.sentMore_recordRank (c : Nat) : Dev.SentMore d (d.recordRank c) := .of_eq rfl rfl

theorem Dev.sentMore_spareCheck (c r : Nat) : Dev.SentMore d (d.spareCheck c r) := by
  unfold Dev.spareCheck
  split
  · exact d.sentMore_replaceCause ..
  · exact .refl d

theorem Dev.sentMore_mapOut (c r : Nat) : Dev.SentMore d (d.mapOut c r) :=
  (d.sentMore_setFld ..).trans ((Dev.sentMore_setFld ..).trans ((Dev.sentMore_recordRank ..).trans
    ((Dev.sentMore_health ..).trans (Dev.sentMore_replaceCause ..))))

theorem Dev.sentMore_rankFail (c die : Nat) : Dev.SentMore d (d.rankFail c die) := by
  unfold Dev.rankFail
  simp only []
  split
  · refine .trans ?_ ((Dev.sentMore_recordRank ..).trans ((Dev.sentMore_health ..).trans (Dev.sentMore_spareCheck ..)))
    split
    · exact d.sentMore_setFld ..
    split
    · exact (d.sentMore_setFld ..).trans (Dev.sentMore_replaceCause ..)
    split
    · exact (d.sentMore_setFld ..).trans (Dev.sentMore_mapOut ..)
    · exact .refl d
  split
  · exact .refl d
  split
  · exact (d.sentMore_setFld ..).trans ((Dev.sentMore_setFld ..).trans ((Dev.sentMore_setFld ..).trans
      ((Dev.sentMore_recordRank ..).trans (Dev.sentMore_health ..))))
  split
  · exact .refl d
  · exact d.sentMore_mapOut ..

theorem Dev.sentMore_countFail (p : Nat) (b : Bool) : Dev.SentMore d (d.countFail p b) := by
  unfold Dev.countFail
  extract_lets ch die c old fails dram counted
  have hcounted : Dev.SentMore d counted := .of_eq rfl rfl
  split
  · exact hcounted.trans (Dev.sentMore_rankFail ..)
  · exact hcounted

/-! ### Reading and writing -/

theorem Dev.sentMore_rewritePoison (cw : Nat) : Dev.SentMore d (d.rewritePoison cw) := by
  unfold Dev.rewritePoison
  split
  · exact .refl d
  · exact .of_eq rfl rfl

theorem Dev.sentMore_noteCw (b : Bool) (cw : Nat) : Dev.SentMore d (d.noteCw b cw) := by
  unfold Dev.noteCw
  simp only []
  split
  · exact .refl d
  · split
    · exact d.sentMore_satFld ..
    · exact (d.sentMore_satFld (eccReg (32 * cw)) F.CAB_ECC_COUNT_corrected 1).trans (.of_eq rfl rfl)
  · have hcounted := d.sentMore_satFld (eccReg (32 * cw)) F.CAB_ECC_COUNT_uncorrectable 1
    generalize d.satFld (eccReg (32 * cw)) F.CAB_ECC_COUNT_uncorrectable 1 = e at *
    have hlogged := fun x => hcounted.trans ((e.sentMore_rewritePoison cw).trans (Dev.sentMore_logEv _ x))
    split
    · exact (hlogged _).trans (Dev.sentMore_countFail ..)
    · exact hlogged _

theorem Dev.sentMore_noteRead (as : List Nat) : Dev.SentMore d (d.noteRead as) :=
  (Dev.SentMore.foldl (fun d cw => d.sentMore_noteCw false cw) _ d).trans (.foldl (fun d _ => d.sentMore_satFld ..) _ _)

theorem Dev.sentMore_putByte (a : Nat) (b : Byte) : Dev.SentMore d (d.putByte a b) := by
  unfold Dev.putByte
  split
  · exact .of_eq rfl rfl
  split
  · exact .refl d
  · exact .of_eq rfl rfl

theorem Dev.sentMore_prepCw (p : Nat) (w : Bool) : Dev.SentMore d (d.prepCw p w) := by
  unfold Dev.prepCw
  cases w
  · exact (d.sentMore_noteCw false (p / 32)).trans (.of_eq rfl rfl)
  · exact .of_eq rfl rfl

theorem Dev.sentMore_writeRun (a : Nat) (bs : List Byte) : Dev.SentMore d (d.writeRun a bs) := by
  unfold Dev.writeRun
  extract_lets n cws prepared
  have hprepared : Dev.SentMore d prepared := by
    unfold prepared
    split
    · exact .refl d
    refine .foldl (fun d c => ?_) _ _
    split
    · split
      · exact .refl d
      · exact d.sentMore_prepCw ..
    · exact d.sentMore_satFld ..
  exact hprepared.trans (.foldl (fun d _ => d.sentMore_putByte _ _) _ _)

theorem Dev.sentMore_clear (a n : Nat) : Dev.SentMore d (d.clear a n) := by
  unfold Dev.clear
  split
  · exact .of_eq rfl rfl
  · exact d.sentMore_writeRun ..

end

end Sys2Proof.Machine
end

section
/-!
SUPPORT. The aperture (O36): what a read answers, what a write leaves in memory, a write with EP set, and the aperture's base (R229, R350, R351).
-/

namespace Sys2Proof.Machine

/-! ### Which bytes of an access are there -/

section

variable {d : Dev} {a n x : Nat}

theorem apHoles_contains (hx : x ∈ span a n) : (d.apHoles a n).contains x = !d.apThere x := by
  rw [Bool.eq_iff_iff, List.contains_iff_mem, Dev.apHoles, List.mem_filter, Dev.apThere, Bool.not_and, Option.not_isSome]
  exact and_iff_right hx

theorem mem_span : x ∈ span a n ↔ a ≤ x ∧ x < a + n := by
  simp only [span, List.mem_map, List.mem_range]
  exact ⟨fun ⟨i, hi, hx⟩ => by omega, fun hx => ⟨x - a, by omega, by omega⟩⟩

theorem Dev.apOpen.hit {o : Nat} (h : d.apOpen o n) : d.apHit o n = true := by simp [Dev.apHit, h.link, h.some, h.fits]

/-! ### Logging -/

/-- Nothing changes but the log. -/
structure Dev.LogOnly (d e : Dev) : Prop where
  rest : e = { d with regs := e.regs, recov := e.recov }
  regs : ∀ r, r ≠ R.TEL_LOG_HEAD → e.reg r = d.reg r

theorem Dev.LogOnly.refl (d : Dev) : Dev.LogOnly d d := ⟨rfl, fun _ _ => rfl⟩

theorem logOnly_logEv (d : Dev) (e : LogEntry) : Dev.LogOnly d (d.logEv e) := ⟨by apply Dev.eq_of <;> simp, fun _ hr => d.reg_logEv e hr⟩

theorem logOnly_logHole (d : Dev) (holes : List Nat) : Dev.LogOnly d (d.logHole holes) := by
  unfold Dev.logHole
  split
  · exact .refl d
  · exact logOnly_logEv ..

/-- The log entry for the first poisoned byte of a read, if there is one. -/
def Dev.logBad (d : Dev) : Option Nat → Dev
  | some x => d.logEv { code := Code.poison.num, unit := 0x40, addr := x }
  | none => d

theorem logOnly_logBad (d : Dev) (bad : Option Nat) : Dev.LogOnly d (d.logBad bad) := by
  cases bad
  · exact .refl d
  · exact logOnly_logEv ..

section

variable {e : Dev} (h : Dev.LogOnly d e)
include h

theorem Dev.LogOnly.mem : e.mem = d.mem := by rw [h.rest]
theorem Dev.LogOnly.cores : e.cores = d.cores := by rw [h.rest]
theorem Dev.LogOnly.host : e.host = d.host := by rw [h.rest]
theorem Dev.LogOnly.dram : e.dram = d.dram := by rw [h.rest]
theorem Dev.LogOnly.sentMore : Dev.SentMore d e := .of_eq (by rw [h.rest]) h.host

theorem Dev.LogOnly.rd : e.rd = d.rd := funext (Dev.rd_of_regs h.mem h.dram fun r hlo _ => h.regs r (by simp only [R.TEL_LOG_HEAD]; omega))

end

/-! ### Reading -/

theorem noteRead_mem (h : d.mem.chk = []) (as : List Nat) : (d.noteRead as).mem = d.mem := by
  unfold Dev.noteRead
  simp only [h, List.filter_nil, List.map_nil, List.foldl_nil]
  exact foldl_keeps (·.mem) _ (fun _ _ => Dev.setFld_mem ..) _ d

/-- The addresses of a read that are there. -/
def Dev.apReads (d : Dev) (a n : Nat) : List Nat := (span a n).filter d.apThere

/-- What a read does before it answers: it logs holes, counts and rewrites what it meets, and logs poison. -/
def Dev.apRead (d : Dev) (a n : Nat) : Dev := ((d.logHole (d.apHoles a n)).noteRead (d.apReads a n)).logBad (d.firstPoison (d.apReads a n))

/-- The completion of a read: bytes of holes are 0, and it carries EP when a byte that is there is poisoned. -/
def Dev.apAnswer (d : Dev) (a n : Nat) : DevWrite :=
  .cpl ((span a n).map fun x => if d.apThere x then d.rd x else 0) ((span a n).any fun x => d.apThere x && d.poisonAt x)

theorem apReads_eq (d : Dev) (a n : Nat) : ((span a n).filter fun x => !(d.apHoles a n).contains x) = d.apReads a n :=
  List.filter_congr fun x hx => by rw [apHoles_contains hx, Bool.not_not]

theorem apBytes_eq (d : Dev) (a n : Nat) : ((span a n).map fun x => if (d.apHoles a n).contains x then 0 else d.rd x) =
    (span a n).map fun x => if d.apThere x then d.rd x else 0 := by
  refine List.map_congr_left fun x hx => ?_
  rw [apHoles_contains hx]
  cases d.apThere x <;> rfl

theorem firstPoison_apReads (d : Dev) (a n : Nat) :
    (d.firstPoison (d.apReads a n)).isSome = (span a n).any fun x => d.apThere x && d.poisonAt x := by
  rw [Dev.firstPoison, List.isSome_find?, Dev.apReads, List.any_filter]

theorem exec_apertureRead {s : State} {o : Nat} (h : s.here.apOpen o n) : exec (.apertureRead o n) s =
    .next { s with d := (s.here.apRead (s.here.host.apBase + o) n).out (s.here.apAnswer (s.here.host.apBase + o) n) } := by
  have arm : exec (.apertureRead o n) s = execApertureRead o n s := rfl
  rw [arm, execApertureRead, onDev_here]
  simp only [h.hit, h.awake, Bool.not_true, Bool.false_eq_true, if_false, apReads_eq, apBytes_eq, firstPoison_apReads]
  rfl

theorem apRead_spec (d : Dev) (a n : Nat) : Dev.SentMore d (d.apRead a n) ∧ (d.mem.chk = [] → (d.apRead a n).mem = d.mem) ∧
    (d.apRead a n).cores = d.cores := by
  have hhole := logOnly_logHole d (d.apHoles a n)
  unfold Dev.apRead
  generalize d.logHole (d.apHoles a n) = e at *
  have hread := e.storesOnly_noteRead (d.apReads a n)
  have hsent := e.sentMore_noteRead (d.apReads a n)
  have hmem := fun h => noteRead_mem (d := e) h (d.apReads a n)
  generalize e.noteRead (d.apReads a n) = f at *
  have hbad := logOnly_logBad f (d.firstPoison (d.apReads a n))
  refine ⟨hhole.sentMore.trans (hsent.trans hbad.sentMore), fun hchk => ?_, ?_⟩
  · rw [hbad.mem, hmem (by rw [hhole.mem, hchk]), hhole.mem]
  · rw [hbad.cores, hread.rest]
    exact hhole.cores

/-! ### Writing below the DRAM -/

/-- On stores without check errors, nothing changes but the stores. -/
structure Dev.MemOnly (d e : Dev) : Prop where
  rest : e = { d with mem := e.mem }
  chk : e.mem.chk = []

theorem Dev.MemOnly.refl (h : d.mem.chk = []) : Dev.MemOnly d d := ⟨rfl, h⟩

theorem Dev.MemOnly.trans {e f : Dev} (h : Dev.MemOnly d e) (g : Dev.MemOnly e f) : Dev.MemOnly d f := ⟨by rw [g.rest, h.rest], g.chk⟩

theorem Dev.MemOnly.foldl {β : Type} {f : Dev → β → Dev} (l : List β) (hf : ∀ d, ∀ b ∈ l, d.mem.chk = [] → Dev.MemOnly d (f d b))
    (h : d.mem.chk = []) : Dev.MemOnly d (l.foldl f d) := by
  induction l generalizing d with
  | nil => exact .refl h
  | cons b r ih =>
    have hfirst := hf d b List.mem_cons_self h
    exact hfirst.trans (ih (fun d x hx => hf d x (List.mem_cons_of_mem _ hx)) hfirst.chk)

theorem queued_low (d : Dev) (h : x < dramBase) : d.queued x = none := if_pos h

theorem place_low (d : Dev) (h : x < dramBase) : d.place x = some x := if_pos h

theorem memOnly_prepCw (h : d.mem.chk = []) (p : Nat) (w : Bool) : Dev.MemOnly d (d.prepCw p w) := by
  refine ⟨?_, ((d.sameBytes_prepCw h p w).chk).trans h⟩
  have hnote : d.noteCw false (p / 32) = d := by
    unfold Dev.noteCw
    simp only [Memory.judge_clean h]
  unfold Dev.prepCw
  cases w
  · simp only [Bool.false_eq_true, if_false, hnote]
    rfl
  · rfl

theorem memOnly_putByte (h : d.mem.chk = []) (hx : x < dramBase) (b : Byte) : Dev.MemOnly d (d.putByte x b) := by
  simp only [Dev.putByte, queued_low d hx, place_low d hx]
  exact ⟨rfl, h⟩

theorem memOnly_writeRun (h : d.mem.chk = []) {bs : List Byte} (hlow : ∀ i < bs.length, a + i < dramBase) : Dev.MemOnly d (d.writeRun a bs) := by
  unfold Dev.writeRun
  extract_lets n cws prepared
  have hprepared : Dev.MemOnly d prepared := by
    unfold prepared
    split
    · exact .refl h
    next hn =>
    refine .foldl _ (fun e c hc he => ?_) h
    obtain ⟨i, hi, rfl⟩ := List.mem_map.1 hc
    have hi := List.mem_range.1 hi
    have hlast := hlow (n - 1) (by omega)
    have hcw : 32 * (a / 32 + i) < dramBase := by omega
    simp only [place_low e hcw, queued_low e hcw, Option.isSome_none, Bool.false_eq_true, if_false]
    exact memOnly_prepCw he ..
  refine hprepared.trans (.foldl _ (fun e w hw he => ?_) hprepared.chk)
  exact memOnly_putByte he (hlow _ (by simpa using List.snd_lt_of_mem_zipIdx hw)) _

/-- The runs that writes are cut into hold no address but theirs. -/
theorem splitRuns_low {m : List (Nat × Byte)} (h : ∀ w ∈ m, w.1 < dramBase) {r : Nat × List Byte} (hr : r ∈ splitRuns m) {i : Nat}
    (hi : i < r.2.length) : r.1 + i < dramBase := by
  refine h (r.1 + i, r.2[i]) ?_
  rw [← splitRuns_writes m]
  exact List.mem_flatMap.2 ⟨r, hr, List.mem_map.2 ⟨(r.2[i], i), List.mk_mem_zipIdx_iff_getElem?.2 (List.getElem?_eq_getElem hi), rfl⟩⟩

theorem foldl_mput_low {ws : List (Nat × Byte)} (h : ∀ w ∈ ws, w.1 < dramBase) {m : SMap Byte} (hm : ∀ w ∈ m, w.1 < dramBase) :
    ∀ w ∈ ws.foldl (fun m w => mput m w.1 w.2) m, w.1 < dramBase := by
  induction ws generalizing m with
  | nil => exact hm
  | cons v ws ih =>
    refine ih (fun w hw => h w (List.mem_cons_of_mem _ hw)) fun w hw => ?_
    obtain rfl | hw := mem_mput hw
    · exact h v List.mem_cons_self
    · exact hm w hw

theorem memOnly_writeCells (h : d.mem.chk = []) {ws : List (Nat × Byte)} (hlow : ∀ w ∈ ws, w.1 < dramBase) :
    Dev.MemOnly d (d.writeCells ws) :=
  .foldl _ (fun _ _ hr he => memOnly_writeRun he fun _ hi => splitRuns_low (foldl_mput_low hlow (fun _ hw => absurd hw List.not_mem_nil)) hr hi) h

/-! ### A write -/

theorem lastAt_filter (p : Nat → Bool) (ws : List (Nat × Byte)) (x : Nat) :
    lastAt (ws.filter fun w => p w.1) x = if p x then lastAt ws x else none := by
  induction ws with
  | nil => simp [lastAt]
  | cons w ws ih =>
    by_cases hw : p w.1
    · rw [List.filter_cons_of_pos (by exact hw), lastAt, lastAt, ih]
      by_cases hx : w.1 = x
      · rw [← hx, if_pos hw, if_pos hw]
      · simp only [hx, if_false, Option.or_none]
    · rw [List.filter_cons_of_neg (by exact hw), ih, lastAt]
      by_cases hx : w.1 = x
      · rw [← hx, if_neg hw, if_neg hw]
      · simp only [hx, if_false, Option.or_none]

/-- The bytes of a write that are there. -/
def Dev.apWrites (d : Dev) (a : Nat) (data : List Byte) : List (Nat × Byte) :=
  (runWrites a data).filter fun w => !(d.apHoles a data.length).contains w.1

variable {data : List Byte}

theorem lastAt_apWrites (x : Nat) : lastAt (d.apWrites a data) x =
    if a ≤ x ∧ x < a + data.length ∧ d.apThere x = true then some (data.getD (x - a) 0) else none := by
  rw [Dev.apWrites, lastAt_filter (fun x => !(d.apHoles a data.length).contains x), lastAt_run]
  by_cases hx : x ∈ span a data.length
  · obtain ⟨hlo, hhi⟩ := mem_span.1 hx
    simp only [apHoles_contains hx, Bool.not_not, hlo, hhi, true_and, if_true]
    rw [List.getElem?_eq_getElem (by omega), List.getD_eq_getElem _ _ (by omega)]
  · have hout : ¬ (a ≤ x ∧ x < a + data.length) := fun h => hx (mem_span.2 h)
    have hnone : (if a ≤ x then data[x - a]? else none) = none := by
      split
      · exact List.getElem?_eq_none (by omega)
      · rfl
    rw [hnone, ite_self, if_neg fun ⟨hlo, hhi, _⟩ => hout ⟨hlo, hhi⟩]

theorem apWrites_low (hlow : a + data.length ≤ dramBase) : ∀ w ∈ d.apWrites a data, w.1 < dramBase := by
  intro w hw
  obtain ⟨v, hv, rfl⟩ := List.mem_map.1 (List.mem_of_mem_filter hw)
  have hpos := List.snd_lt_of_mem_zipIdx hv
  omega

/-- What a write without EP does. -/
def Dev.apWrite (d : Dev) (a : Nat) (data : List Byte) : Dev := (d.logHole (d.apHoles a data.length)).writeCells (d.apWrites a data)

theorem exec_apertureWrite {s : State} {o : Nat} (h : s.here.apOpen o data.length) : exec (.apertureWrite o data false) s =
    .next { s with d := s.here.apWrite (s.here.host.apBase + o) data } := by
  have arm : exec (.apertureWrite o data false) s = execApertureWrite o data false s := rfl
  rw [arm, execApertureWrite, onDev_here]
  simp only [h.hit, h.awake, Bool.not_true, Bool.false_eq_true, if_false]
  rfl

/-- A write below the DRAM changes just the bytes that are there, and the log. -/
theorem apWrite_spec (d : Dev) (hchk : d.mem.chk = []) (hlow : a + data.length ≤ dramBase) :
    d.apWrite a data = { d with mem := (d.apWrite a data).mem, regs := (d.apWrite a data).regs, recov := (d.apWrite a data).recov } ∧
      (∀ x, (d.apWrite a data).rd x = if a ≤ x ∧ x < a + data.length ∧ d.apThere x = true then data.getD (x - a) 0 else d.rd x) ∧
      ∀ r, r ≠ R.TEL_LOG_HEAD → (d.apWrite a data).reg r = d.reg r := by
  have hlow' := apWrites_low (d := d) hlow
  have hlast := lastAt_apWrites (d := d) (a := a) (data := data)
  have hhole := logOnly_logHole d (d.apHoles a data.length)
  unfold Dev.apWrite
  generalize d.logHole (d.apHoles a data.length) = f at *
  generalize d.apWrites a data = ws at *
  have hfchk : f.mem.chk = [] := by rw [hhole.mem, hchk]
  have hmem := memOnly_writeCells hfchk hlow'
  obtain ⟨hrd, -⟩ := f.rd_writeCells hfchk ws fun w hw => f.writable_low (hlow' w hw)
  generalize f.writeCells ws = e at *
  have hregs : e.regs = f.regs := by rw [hmem.rest]
  refine ⟨?rest, fun x => ?bytes, fun r hr => (Dev.reg_congr hregs r).trans (hhole.regs r hr)⟩
  case rest => rw [hmem.rest, hhole.rest]
  case bytes =>
    rw [hrd, hlast, hhole.rd]
    split <;> rfl

/-! ### Errors of the host interface -/

/-- A bit of HIF_ERR set: besides that register only what goes to the host changes, and neither its configuration nor the aperture. -/
theorem hifErr_spec (d : Dev) {f : Fld} (hf : f.lsb + f.w ≤ 32) (hw : f.w = 1) :
    d.hifErr f = { d with host := (d.hifErr f).host, regs := (d.hifErr f).regs } ∧ (d.hifErr f).flag R.HIF_ERR f = true ∧
      (d.hifErr f).host.cfg = d.host.cfg ∧ (d.hifErr f).host.apBase = d.host.apBase ∧
      ∀ r, r ≠ R.HIF_ERR → (d.hifErr f).reg r = d.reg r := by
  unfold Dev.hifErr
  split
  next hset => exact ⟨rfl, hset, rfl, rfl, fun _ _ => rfl⟩
  next =>
    have hregs : ((d.setFld R.HIF_ERR f 1).raiseVec 0).regs = (d.setFld R.HIF_ERR f 1).regs := by simp
    have hcfg := ((d.setFld R.HIF_ERR f 1).sentMore_raiseVec 0).cfg
    have hbase : ((d.setFld R.HIF_ERR f 1).raiseVec 0).host.apBase = d.host.apBase := by
      unfold Dev.raiseVec Dev.send
      split_ifs <;> rfl
    refine ⟨by apply Dev.eq_of <;> simp, ?_, hcfg, hbase, fun r hr => (Dev.reg_congr hregs r).trans (Dev.reg_setFld_ne _ _ _ hr)⟩
    rw [Dev.flag, Dev.fld_congr hregs, Dev.fld_setFld_same _ _ _ _ hf, hw]
    rfl

/-- What a write with EP set does. -/
def Dev.apPoisoned (d : Dev) (a : Nat) : Dev :=
  ({ d with host := { d.host with cfg := { d.host.cfg with aerPoisoned := true } } }.hifErr F.HIF_ERR_poisoned_write).logEv
    { code := Code.poison.num, unit := 0x40, addr := a }

theorem exec_apertureWrite_poisoned {s : State} {o : Nat} (h : s.here.apOpen o data.length) : exec (.apertureWrite o data true) s =
    .next { s with d := s.here.apPoisoned (s.here.host.apBase + o) } := by
  have arm : exec (.apertureWrite o data true) s = execApertureWrite o data true s := rfl
  rw [arm, execApertureWrite, onDev_here]
  simp only [h.hit, h.awake, Bool.not_true, Bool.false_eq_true, if_false, if_true]
  rfl

theorem apPoisoned_spec (d : Dev) (a : Nat) :
    d.apPoisoned a = { d with host := (d.apPoisoned a).host, regs := (d.apPoisoned a).regs, recov := (d.apPoisoned a).recov } ∧
      (d.apPoisoned a).flag R.HIF_ERR F.HIF_ERR_poisoned_write = true ∧ (d.apPoisoned a).host.cfg.aerPoisoned = true := by
  unfold Dev.apPoisoned
  obtain ⟨hrest, hflag, hcfg, -⟩ := hifErr_spec { d with host := { d.host with cfg := { d.host.cfg with aerPoisoned := true } } }
    (f := F.HIF_ERR_poisoned_write) (by decide) rfl
  generalize Dev.hifErr _ F.HIF_ERR_poisoned_write = e at *
  have hlog := logOnly_logEv e { code := Code.poison.num, unit := 0x40, addr := a }
  generalize e.logEv _ = g at *
  refine ⟨?rest, ?flag, ?aer⟩
  case rest => rw [hlog.rest, hrest]
  case flag => rw [← hflag, Dev.flag, Dev.flag, Dev.fld, Dev.fld, hlog.regs _ (by decide)]
  case aer => rw [hlog.host, hcfg]

/-! ### The base of the aperture -/

/-- The base that a write of v to its high half makes, with the low half that stands. -/
def Dev.apNewBase (d : Dev) (v : Word) : Nat := 2 ^ 32 * (v.toNat % 2 ^ 16) + 2 ^ 24 * d.fld R.HIF_APERTURE_BASE_LO F.HIF_APERTURE_BASE_LO_base_lo

/-- The aperture at base b, with the register of its high half. -/
def Dev.apMoved (d : Dev) (hi b : Nat) : Dev := { d.setReg R.HIF_APERTURE_BASE_HI hi with host := { d.host with apBase := b } }

/-- What a write of v to the high half does. -/
def Dev.apBaseWrite (d : Dev) (v : Word) : Dev :=
  if 2 ^ 48 < d.apNewBase v + d.apSize then d.hifErr F.HIF_ERR_ap_base_err else d.apMoved (v.toNat % 2 ^ 16) (d.apNewBase v)

theorem apBaseWrite_moves {v : Word} (h : d.apNewBase v + d.apSize ≤ 2 ^ 48) :
    d.apBaseWrite v = d.apMoved (v.toNat % 2 ^ 16) (d.apNewBase v) := if_neg (Nat.not_lt.2 h)

theorem apBaseWrite_refused {v : Word} (h : 2 ^ 48 < d.apNewBase v + d.apSize) : d.apBaseWrite v = d.hifErr F.HIF_ERR_ap_base_err := if_pos h

theorem exec_hifApertureBaseHiWrite {s : State} (hopen : s.here.regOpen R.HIF_APERTURE_BASE_HI = true) (v : Word) :
    exec (.hifApertureBaseHiWrite v) s = .next { s with d := s.here.apBaseWrite v } := by
  have arm : exec (.hifApertureBaseHiWrite v) s = execHifApertureBaseHiWrite v s := rfl
  have hhi : bits v.toNat 0 16 = v.toNat % 2 ^ 16 := by simp [bits]
  simp only [arm, execHifApertureBaseHiWrite, onDev_here, hopen, hhi, Bool.not_true, Bool.false_eq_true, if_false]
  rfl

theorem apMoved_spec (d : Dev) {hi : Nat} (b : Nat) (hhi : hi < 2 ^ 32) : (d.apMoved hi b).reg R.HIF_APERTURE_BASE_HI = hi ∧
    ∀ r, r ≠ R.HIF_APERTURE_BASE_HI → (d.apMoved hi b).reg r = d.reg r :=
  ⟨(d.reg_setReg_same _ _).trans (Nat.mod_eq_of_lt hhi), fun _ hr => d.reg_setReg_ne _ hr⟩

end

/-- Settles O36: a read answers before it changes anything, and a write leaves out the bytes that are not there. -/
theorem apertureAccess : Obligations.ApertureAccess := by
  unfold Obligations.ApertureAccess
  refine ⟨fun s o n h => ?read, fun s o data h hlow hchk => ?write, fun s o data h => ?poisoned,
    fun s v hopen => ⟨fun hfit => ?moves, fun hpast => ?refused⟩⟩
  case read =>
    obtain ⟨hsent, hmem, hcores⟩ := apRead_spec s.here (s.here.host.apBase + o) n
    obtain ⟨mid, hmid⟩ := hsent.sent
    have hexec := exec_apertureRead h
    generalize s.here.apRead (s.here.host.apBase + o) n = g at *
    exact ⟨_, hexec, rfl, ⟨mid, congrArg (· ++ _) hmid.symm⟩, hmem, hcores⟩
  case write =>
    obtain ⟨hrest, hbytes, hregs⟩ := apWrite_spec s.here hchk hlow
    have hexec := exec_apertureWrite h
    generalize s.here.apWrite (s.here.host.apBase + o) data = g at *
    exact ⟨_, hexec, congrArg (fun d => { s with d := d }) hrest, hbytes, hregs⟩
  case poisoned =>
    obtain ⟨hrest, hflag, haer⟩ := apPoisoned_spec s.here (s.here.host.apBase + o)
    have hexec := exec_apertureWrite_poisoned h
    generalize s.here.apPoisoned (s.here.host.apBase + o) = g at *
    exact ⟨_, hexec, congrArg (fun d => { s with d := d }) hrest, hflag, haer⟩
  case moves =>
    have hexec := exec_hifApertureBaseHiWrite hopen v
    rw [apBaseWrite_moves hfit] at hexec
    obtain ⟨hhi, hregs⟩ := apMoved_spec s.here (hi := v.toNat % 2 ^ 16) (s.here.apNewBase v) (by omega)
    exact ⟨_, hexec, rfl, rfl, hhi, hregs⟩
  case refused =>
    have hexec := exec_hifApertureBaseHiWrite hopen v
    rw [apBaseWrite_refused hpast] at hexec
    obtain ⟨hrest, hflag, -, hbase, hregs⟩ := hifErr_spec s.here (f := F.HIF_ERR_ap_base_err) (by decide) rfl
    generalize s.here.hifErr F.HIF_ERR_ap_base_err = g at *
    exact ⟨_, hexec, congrArg (fun d => ({ s with d := d } : State)) hrest, hbase, hflag, hregs⟩

end Sys2Proof.Machine
end

section
/-!
SUPPORT. SET_MODE, READ_LOG, SET_EVENTS and FORCE_FREE (O29): the answer to a command that has sent or logged something before (R333, R373,
R376, R444), and a buffer that goes back to its pool (R250, R251).
-/

namespace Sys2Proof.Machine

/-! ### The answer -/

section

variable {s : State} {d g : Dev} {op q : Nat} {e : List Byte} {x : Sq} {c : Cq}

theorem Dev.accepts.fetched_reg (h : d.accepts op q e x c) (o : Nat) : (d.fetched q).reg o = d.reg o := Dev.reg_congr (by rw [h.fetched]) o

/-- A device that keeps the queues of the one that has fetched the entry, and has at most sent more, answers it behind what it has sent; nothing
else changes. -/
theorem Dev.accepts.reply_behind (h : d.accepts op q e x c) (hmore : Dev.SentMore (d.fetched q) g)
    (hlink : g.reg R.HIF_LINK_STATUS = d.reg R.HIF_LINK_STATUS) (hadmin : g.reg R.QUE_ADMIN_CFG = d.reg R.QUE_ADMIN_CFG) (status : Nat)
    (result : List Byte) :
    g.reply q e status result = { g with que := { g.que with cqs := mput g.que.cqs x.cq c.pushed }, host := (g.reply q e status result).host } ∧
      g.host.sent <+: (g.reply q e status result).host.sent ∧ d.answered (g.reply q e status result) q e x c status result := by
  obtain ⟨hroom, hup⟩ := h.room
  obtain ⟨hsqs, hcqs, hcmds, hcfg, pre, hpre⟩ := hmore
  rw [h.fetched] at hsqs hcqs hcmds hcfg hpre
  have hsq : mget g.que.sqs q = some x.taken := by rw [hsqs]; exact mget_mput_same ..
  have hcq : mget g.que.cqs x.cq = some c := by rw [hcqs]; exact h.cq
  have hup' : g.linkUp = true := by
    rw [← hup, Dev.linkUp, Dev.linkUp, Dev.flag, Dev.flag, Dev.fld, Dev.fld, hlink, hcfg]
  obtain ⟨hrest, post, hsent⟩ := writeCpl_spec hup' q (eCid e) status result x.taken c
  have hpost : g.postCpl q (eCid e) status result = g.writeCpl q (eCid e) status result x.taken c := by
    simp only [Dev.postCpl, hsq, (show mget g.que.cqs x.taken.cq = some c from hcq), hroom, if_true]
  have hreply : g.reply q e status result = g.writeCpl q (eCid e) status result x.taken c := by
    refine (complete_eq_postCpl _ _ _ ?_ ?_).trans hpost <;> rw [hpost, hrest]
    · exact hcmds ▸ h.noDelete
    · exact Eq.trans_ne (congrArg F.QUE_ADMIN_CFG_svc.get hadmin) h.admin
  rw [hreply]
  generalize g.writeCpl q (eCid e) status result x.taken c = t at hrest hsent ⊢
  have hq : t.que = { g.que with cqs := mput g.que.cqs x.cq c.pushed } := by rw [hrest]; rfl
  refine ⟨hrest, ⟨_, ((List.append_assoc ..).symm.trans hsent.symm)⟩, ⟨pre, post, ?_⟩, ?_, ?_⟩
  · rw [hsent, ← hpre]; rfl
  · rw [hq]; exact hsq
  · rw [hq]; exact mget_mput_same ..

/-- A command that changes queues and host interface alone. -/
theorem Dev.accepts.onlyQueues (h : s.here.accepts op q e x c) {t : Dev} (ht : t = { s.here.fetched q with que := t.que, host := t.host }) :
    s.onlyQueues { s with d := t } := by
  rw [h.fetched] at ht
  exact congrArg (fun d => ({ s with d := d } : State)) ht

end

/-! ### SET_MODE -/

section

variable {s : State} {d : Dev} {q : Nat} {e : List Byte} {x : Sq} {c : Cq}

/-- Mode, pin and mode in force are selected, and the stacks' sequencers start: besides that the device stays as it is. -/
theorem setMode_spec (d : Dev) {mode pin : Nat} (hm : mode < 4) (hp : pin < 2) :
    d.setMode mode pin = { d with regs := (d.setMode mode pin).regs, dvfs := (d.setMode mode pin).dvfs } ∧
      (∀ o, o ≠ R.SCH_MODE → o ≠ R.SCH_GOV_STATUS → o ≠ R.CPR_DVFS_STATUS → (d.setMode mode pin).reg o = d.reg o) ∧
      (d.setMode mode pin).fld R.SCH_MODE F.SCH_MODE_mode = mode ∧ (d.setMode mode pin).fld R.SCH_MODE F.SCH_MODE_pin = pin ∧
      (d.setMode mode pin).mode = modeOf mode := by
  obtain ⟨hmode, hpin, hact⟩ := selectMode_spec d hm hp
  obtain ⟨r, hrest⟩ := selectMode_regs d mode pin
  have hregs : ∀ o, o ≠ R.SCH_MODE → o ≠ R.SCH_GOV_STATUS → (d.selectMode mode pin).reg o = d.reg o := fun o h1 h2 => by
    rw [Dev.selectMode, Dev.reg_setFld_ne _ _ _ h2, Dev.reg_setFld_ne _ _ _ h1, Dev.reg_setFld_ne _ _ _ h1]
  rw [setMode_eq]
  generalize d.selectMode mode pin = g at *
  generalize modeCeil (modeOf mode) = n
  have h0 := dvfsOnly_lowerTo g n 0
  have h1 := dvfsOnly_lowerTo (g.lowerTo n 0) n 1
  have hkept : ∀ o, o ≠ R.CPR_DVFS_STATUS → o ≠ R.SCH_GOV_STATUS → ((g.lowerTo n 0).lowerTo n 1).reg o = g.reg o := fun o hd hg =>
    (h1.regs o hd hg).trans (h0.regs o hd hg)
  have hsch : ∀ f, ((g.lowerTo n 0).lowerTo n 1).fld R.SCH_MODE f = g.fld R.SCH_MODE f := fun f =>
    congrArg f.get (hkept _ (by decide) (by decide))
  refine ⟨?rest, fun o ho hg hd => (hkept o hd hg).trans (hregs o ho hg), (hsch _).trans hmode, (hsch _).trans hpin,
    ((h1.gov _ (by decide)).trans (h0.gov _ (by decide))).trans hact⟩
  case rest => rw [h1.rest, h0.rest, hrest]

/-- SET_MODE with a mode and a pin that exist. -/
theorem exec_setMode (h : s.here.accepts 0x30 q e x c) (hm : byteAt e 16 ≤ 3) (hp : byteAt e 17 ≤ 1) :
    exec (.setMode q e) s = .next { s with d := ((s.here.fetched q).setMode (byteAt e 16) (byteAt e 17)).reply q e 0 } := by
  have arm : exec (.setMode q e) s = execSetMode q e s := rfl
  rw [arm, execSetMode, h.onCmd]
  simp only [Nat.not_lt.2 hm, Nat.not_lt.2 hp, decide_false, Bool.or_self, Bool.false_eq_true, if_false]

theorem setMode_answers (h : s.here.accepts 0x30 q e x c) (hm : byteAt e 16 ≤ 3) (hp : byteAt e 17 ≤ 1) :
    Answers (.setMode q e) s fun t => t = { s with d := t.d } ∧ s.here.answered t.d q e x c 0 [] ∧
      t.d.fld R.SCH_MODE F.SCH_MODE_mode = byteAt e 16 ∧ t.d.fld R.SCH_MODE F.SCH_MODE_pin = byteAt e 17 ∧
      t.d.mode = modeOf (byteAt e 16) ∧ t.d.cores = s.here.cores ∧ t.d.mem = s.here.mem := by
  have hexec := exec_setMode h hm hp
  obtain ⟨hrest, hregs, hmode, hpin, hact⟩ := setMode_spec (s.here.fetched q) (mode := byteAt e 16) (pin := byteAt e 17) (by omega) (by omega)
  generalize (s.here.fetched q).setMode (byteAt e 16) (byteAt e 17) = g at *
  have hfetch := h.fetched_reg
  have hcores : g.cores = s.here.cores := by rw [hrest, h.fetched]
  have hmem : g.mem = s.here.mem := by rw [hrest, h.fetched]
  obtain ⟨hans, -, hanswered⟩ := h.reply_behind (g := g) (.of_eq (by rw [hrest]) (by rw [hrest]))
    ((hregs _ (by decide) (by decide) (by decide)).trans (hfetch _)) ((hregs _ (by decide) (by decide) (by decide)).trans (hfetch _)) 0 []
  have hsame : (g.reply q e 0).regs = g.regs := by rw [hans]
  exact ⟨_, hexec, rfl, hanswered, (Dev.fld_congr hsame ..).trans hmode, (Dev.fld_congr hsame ..).trans hpin,
    (Dev.fld_congr hsame ..).trans hact, (congrArg Dev.cores hans).trans hcores, (congrArg Dev.mem hans).trans hmem⟩

end

/-! ### READ_LOG -/

section

variable {s : State} {d : Dev} {q : Nat} {e : List Byte} {x : Sq} {c : Cq}

/-- The log entries that a READ_LOG returns. -/
def Dev.logRead (d : Dev) (e : List Byte) : List LogEntry :=
  (d.recov.log.reverse.filter fun y => decide (le e 16 4 ≤ y.seq)).take (eLen e / 32)

/-- Entries go to the address that the command names, if there are any. -/
def Dev.sendLog (d : Dev) (e : List Byte) (l : List LogEntry) : Dev := if l = [] then d else d.send (.mem (eAddr e) (l.flatMap logBytes))

/-- The number of entries returned and the sequence that follows them. -/
def logResult (e : List Byte) (l : List LogEntry) : List Byte :=
  toLE 4 l.length ++ toLE 4 (((l.getLast?).map fun y => y.seq + 1).getD (le e 16 4))

section

variable (h : s.here.accepts 0x34 q e x c)
include h

theorem fetched_logNext : (s.here.fetched q).fld R.TEL_LOG_HEAD F.TEL_LOG_HEAD_next = s.here.fld R.TEL_LOG_HEAD F.TEL_LOG_HEAD_next :=
  Dev.fld_congr (by rw [h.fetched]) _ _

theorem exec_readLog_notFound (hseq : s.here.fld R.TEL_LOG_HEAD F.TEL_LOG_HEAD_next < le e 16 4) :
    exec (.readLog q e) s = .next { s with d := (s.here.fetched q).reply q e 0x80 } := by
  have arm : exec (.readLog q e) s = execReadLog q e s := rfl
  rw [arm, execReadLog, h.onCmd]
  simp only [fetched_logNext h, hseq, if_true]
  rfl

theorem exec_readLog_found (hseq : le e 16 4 ≤ s.here.fld R.TEL_LOG_HEAD F.TEL_LOG_HEAD_next) : exec (.readLog q e) s =
    .next { s with d := ((s.here.fetched q).sendLog e (s.here.logRead e)).reply q e 0 (logResult e (s.here.logRead e)) } := by
  have arm : exec (.readLog q e) s = execReadLog q e s := rfl
  have hlog : (s.here.fetched q).recov = s.here.recov := by rw [h.fetched]
  rw [arm, execReadLog, h.onCmd]
  simp only [fetched_logNext h, hlog, Nat.not_lt.2 hseq, if_false]
  rfl

end

theorem readLog_found (h : s.here.accepts 0x34 q e x c) (hseq : le e 16 4 ≤ s.here.fld R.TEL_LOG_HEAD F.TEL_LOG_HEAD_next) :
    Answers (.readLog q e) s fun t => s.onlyQueues t ∧ s.here.answered t.d q e x c 0 (logResult e (s.here.logRead e)) ∧
      (s.here.logRead e ≠ [] → ∃ more, t.d.host.sent = s.here.host.sent ++ .mem (eAddr e) ((s.here.logRead e).flatMap logBytes) :: more) := by
  have hexec := exec_readLog_found h hseq
  generalize s.here.logRead e = l at *
  have hup : (s.here.fetched q).linkUp = true := (linkUp_congr (by rw [h.fetched]) (by rw [h.fetched])).trans h.room.2
  have hsent : l ≠ [] → ((s.here.fetched q).sendLog e l).host.sent = s.here.host.sent ++ [.mem (eAddr e) (l.flatMap logBytes)] := fun hl => by
    rw [Dev.sendLog, if_neg hl, send_linkUp hup, h.fetched]
  have hrest : (s.here.fetched q).sendLog e l = { s.here.fetched q with host := ((s.here.fetched q).sendLog e l).host } := by
    unfold Dev.sendLog
    split
    · rfl
    · rw [send_linkUp hup]
  have hmore : Dev.SentMore (s.here.fetched q) ((s.here.fetched q).sendLog e l) := by
    unfold Dev.sendLog
    split
    · exact .refl _
    · exact Dev.sentMore_send ..
  generalize (s.here.fetched q).sendLog e l = g at *
  have hregs : ∀ o, g.reg o = s.here.reg o := fun o => Dev.reg_congr (by rw [hrest, h.fetched]) o
  obtain ⟨hans, ⟨more, hmore'⟩, hanswered⟩ := h.reply_behind hmore (hregs _) (hregs _) 0 (logResult e l)
  generalize g.reply q e 0 (logResult e l) = t at *
  refine ⟨_, hexec, h.onlyQueues ?_, hanswered, fun hl => ⟨more, ?_⟩⟩
  · have hque : t.que = { g.que with cqs := mput g.que.cqs x.cq c.pushed } := by rw [hans]
    rw [hque, hans, hrest]
  · rw [← hmore', hsent hl, List.append_assoc]
    rfl

end

/-! ### SET_EVENTS -/

section

variable {s : State} {q : Nat} {e : List Byte} {x : Sq} {c : Cq}

/-- The ring of HEALTH records is r, or none. -/
def Dev.eventsTo (d : Dev) (r : Option Nat) : Dev := { d with que := { d.que with evRing := r } }

/-- A SET_EVENTS names a ring that does not exist. -/
def Dev.noRing (d : Dev) (r : Nat) : Bool := decide (r ≠ 0xFF) && (mget d.que.rings r).isNone

/-- The ring of HEALTH records after a SET_EVENTS that names r. -/
def Dev.eventsRing (d : Dev) (r : Nat) : Option Nat := if d.noRing r then d.que.evRing else if r = 0xFF then none else some r

variable (h : s.here.accepts 0x35 q e x c)
include h

theorem exec_setEvents : exec (.setEvents q e) s = .next { s with d :=
    ((s.here.fetched q).eventsTo (s.here.eventsRing (byteAt e 16))).reply q e (if s.here.noRing (byteAt e 16) then 8 else 0) } := by
  have arm : exec (.setEvents q e) s = execSetEvents q e s := rfl
  have hnone : (mget (s.here.fetched q).que.rings (byteAt e 16)).isNone = (mget s.here.que.rings (byteAt e 16)).isNone := by rw [h.fetched]
  have hself : (s.here.fetched q).eventsTo s.here.que.evRing = s.here.fetched q := by rw [h.fetched]; rfl
  rw [arm, execSetEvents, h.onCmd]
  simp only [hnone]
  by_cases hall : byteAt e 16 = 0xFF
  · have hring : s.here.noRing 0xFF = false := rfl
    simp only [Dev.eventsRing, hall, hring, Bool.false_eq_true, if_true, if_false]
    rfl
  cases hget : mget s.here.que.rings (byteAt e 16) with
  | none =>
    have hring : s.here.noRing (byteAt e 16) = true := by simp [Dev.noRing, hall, hget]
    simp only [Dev.eventsRing, hring, hall, hself, Option.isNone_none, if_true, if_false]
    rfl
  | some _ =>
    have hring : s.here.noRing (byteAt e 16) = false := by simp [Dev.noRing, hget]
    simp only [Dev.eventsRing, hring, hall, Option.isNone_some, Bool.false_eq_true, if_false]
    rfl

theorem setEvents_answers : Answers (.setEvents q e) s fun t => s.onlyQueues t ∧
    s.here.answered t.d q e x c (if s.here.noRing (byteAt e 16) then 8 else 0) [] ∧ t.d.que.evRing = s.here.eventsRing (byteAt e 16) := by
  have hexec := exec_setEvents h
  generalize s.here.eventsRing (byteAt e 16) = r at *
  have hregs : ∀ o, ((s.here.fetched q).eventsTo r).reg o = s.here.reg o := h.fetched_reg
  obtain ⟨hans, -, hanswered⟩ := h.reply_behind (g := (s.here.fetched q).eventsTo r) ⟨rfl, rfl, rfl, rfl, List.prefix_rfl⟩ (hregs _) (hregs _)
    (if s.here.noRing (byteAt e 16) then 8 else 0) []
  refine ⟨_, hexec, h.onlyQueues ?_, hanswered, congrArg (fun d => d.que.evRing) hans⟩
  generalize Dev.reply _ q e _ = t at *
  have hque := congrArg Dev.que hans
  rw [hque, hans]
  rfl

end

/-! ### The journals' entries for a buffer -/

theorem Dev.LogOnly.trans {d e f : Dev} (h : Dev.LogOnly d e) (g : Dev.LogOnly e f) : Dev.LogOnly d f :=
  ⟨by rw [g.rest, h.rest], fun r hr => (g.regs r hr).trans (h.regs r hr)⟩

theorem Dev.LogOnly.foldl {β : Type} {f : Dev → β → Dev} (hf : ∀ d b, Dev.LogOnly d (f d b)) (l : List β) (d : Dev) :
    Dev.LogOnly d (l.foldl f d) := by
  induction l generalizing d with
  | nil => exact .refl d
  | cons b r ih => exact (hf d b).trans (ih _)

/-- Nothing changes but the log and the journals of the cores. -/
structure Dev.JournalOnly (d e : Dev) : Prop where
  rest : e = { d with regs := e.regs, recov := e.recov, cores := e.cores }
  regs : ∀ r, r ≠ R.TEL_LOG_HEAD → e.reg r = d.reg r

theorem Dev.JournalOnly.refl (d : Dev) : Dev.JournalOnly d d := ⟨rfl, fun _ _ => rfl⟩

theorem Dev.JournalOnly.trans {d e f : Dev} (h : Dev.JournalOnly d e) (g : Dev.JournalOnly e f) : Dev.JournalOnly d f :=
  ⟨by rw [g.rest, h.rest], fun r hr => (g.regs r hr).trans (h.regs r hr)⟩

theorem Dev.JournalOnly.sentMore {d e : Dev} (h : Dev.JournalOnly d e) : Dev.SentMore d e := .of_eq (by rw [h.rest]) (by rw [h.rest])

theorem Dev.JournalOnly.inBlocks {d e : Dev} (h : Dev.JournalOnly d e) (r : Nat) (hr : inBlocks r) : e.reg r = d.reg r :=
  h.regs r (by simp only [Machine.inBlocks] at hr; simp only [R.TEL_LOG_HEAD]; omega)

/-- An unsettled FREE or REFDEC of a buffer in the journal of a kernel is logged. -/
def Dev.logUnsettled (d : Dev) (h : Nat) (run : Option Run) (j : JOp × Nat) : Dev :=
  match j.1, run with
  | .dec, some r => d.logEv { code := Code.doubleFree.num, unit := 0x49 + (if hPool h < 32 then 1 + hPool h / 16 else 0),
                              addr := d.bufAddr h, wher := r.ctx + 64 * r.kernel }
  | _, _ => d

theorem logOnly_logUnsettled (d : Dev) (h : Nat) (run : Option Run) (j : JOp × Nat) : Dev.LogOnly d (d.logUnsettled h run j) := by
  unfold Dev.logUnsettled
  split
  · exact logOnly_logEv ..
  · exact .refl d

/-- Core c's entries for buffer h logged and removed. -/
def Dev.dropEntries (d : Dev) (h c : Nat) : Dev :=
  if ((d.core c).journal.filter fun j => j.2 = h) = [] then d
  else (((d.core c).journal.filter fun j => j.2 = h).foldl (fun e j => e.logUnsettled h (d.core c).run j) d).modCore c fun k =>
    { k with journal := k.journal.filter fun j => j.2 ≠ h }

theorem dropJournal_eq (d : Dev) (h : Nat) : d.dropJournal h = (List.range 8).foldl (fun d c => d.dropEntries h c) d := rfl

theorem dropEntries_spec (d : Dev) (h c : Nat) : Dev.JournalOnly d (d.dropEntries h c) ∧ ∀ j, ((d.dropEntries h c).core j).journal =
    if j = c then (d.core j).journal.filter fun y => decide (y.2 ≠ h) else (d.core j).journal := by
  unfold Dev.dropEntries
  split
  case isTrue hnone =>
    refine ⟨.refl d, fun j => ?_⟩
    split
    next hj =>
      rw [hj]
      exact (List.filter_eq_self.2 fun y hy => by simpa using List.filter_eq_nil_iff.1 hnone y hy).symm
    · rfl
  case isFalse =>
    have hlog := Dev.LogOnly.foldl (fun e j => logOnly_logUnsettled e h (d.core c).run j) ((d.core c).journal.filter fun j => j.2 = h) d
    generalize ((d.core c).journal.filter fun j => j.2 = h).foldl _ d = g at *
    refine ⟨⟨?rest, fun r hr => (Dev.reg_modCore ..).trans (hlog.regs r hr)⟩, fun j => ?journal⟩
    case rest =>
      rw [hlog.rest]
      rfl
    case journal =>
      split
      next hj =>
        rw [hj, Dev.core_modCore_same, Dev.core_congr hlog.cores]
      next hj => rw [Dev.core_modCore_ne _ _ hj, Dev.core_congr hlog.cores]

theorem dropEntries_fold (h : Nat) (l : List Nat) (d : Dev) : Dev.JournalOnly d (l.foldl (fun d c => d.dropEntries h c) d) ∧
    ∀ j, ((l.foldl (fun d c => d.dropEntries h c) d).core j).journal =
      if j ∈ l then (d.core j).journal.filter fun y => decide (y.2 ≠ h) else (d.core j).journal := by
  induction l generalizing d with
  | nil => exact ⟨.refl d, fun j => (if_neg List.not_mem_nil).symm⟩
  | cons c l ih =>
    obtain ⟨hrest, hjournal⟩ := dropEntries_spec d h c
    obtain ⟨hrest', hjournal'⟩ := ih (d.dropEntries h c)
    refine ⟨hrest.trans hrest', fun j => ?_⟩
    rw [List.foldl_cons, hjournal', hjournal]
    by_cases hj : j = c
    · simp [hj, List.filter_filter]
    · simp [hj]

/-- Every core's entries for the buffer are gone, and nothing else changes but the log. -/
theorem dropJournal_spec (d : Dev) (h : Nat) : Dev.JournalOnly d (d.dropJournal h) ∧
    ∀ j < 8, ((d.dropJournal h).core j).journal = (d.core j).journal.filter fun y => decide (y.2 ≠ h) := by
  rw [dropJournal_eq]
  obtain ⟨hrest, hjournal⟩ := dropEntries_fold h (List.range 8) d
  exact ⟨hrest, fun j hj => (hjournal j).trans (if_pos (List.mem_range.2 hj))⟩

/-! ### FORCE_FREE -/

section

variable {s : State} {g : Dev} {q h : Nat} {e : List Byte} {x : Sq} {c : Cq}

theorem poolState_inBlocks {p : Nat} (hp : p < 64) : inBlocks (R.BPM_POOL_STAT p) := by simp only [inBlocks, R.BPM_POOL_STAT]; omega

theorem linkStatus_inBlocks : inBlocks R.HIF_LINK_STATUS := by simp only [inBlocks, R.HIF_LINK_STATUS]; omega

theorem adminCfg_inBlocks : inBlocks R.QUE_ADMIN_CFG := by simp only [inBlocks, R.QUE_ADMIN_CFG]; omega

/-- What going back to an ENABLED pool leaves. -/
theorem pushBuf_spec (hstate : g.poolState (hPool h) = 1) : Dev.SentMore g (g.pushBuf h) ∧ (∀ o, inBlocks o → (g.pushBuf h).reg o = g.reg o) ∧
    (g.pushBuf h).bpm.bufs = mput g.bpm.bufs h ⟨.free, 0⟩ ∧ (g.pushBuf h).cores = g.cores := by
  obtain ⟨l, hpush⟩ := pushBuf_enabled hstate
  have hout := headerOut_storesOnly g h
  have hsent : Dev.SentMore g (g.headerOut h) := by
    unfold Dev.headerOut
    exact Dev.SentMore.trans (e := g.setBuf h ⟨.free, 0⟩) (.of_eq rfl rfl) (Dev.sentMore_writeRun ..)
  have hcores : (g.headerOut h).cores = g.cores := by rw [hout.rest]; rfl
  have hregs : ∀ o, inBlocks o → (g.headerOut h).reg o = g.reg o := hout.regs
  rw [hpush]
  generalize g.headerOut h = f at *
  exact ⟨hsent.trans (.of_eq rfl rfl), hregs, rfl, hcores⟩

/-- A command that gives a buffer back to its ENABLED pool, after something that changed no pool. -/
theorem pushBuf_answers {i : Instr} (ha : s.here.accepts 0x36 q e x c) (hmore : Dev.SentMore (s.here.fetched q) g)
    (hregs : ∀ o, inBlocks o → g.reg o = s.here.reg o) (hbpm : g.bpm = s.here.bpm) (hstate : s.here.poolState (hPool h) = 1)
    (hexec : exec i s = .next { s with d := (g.pushBuf h).reply q e 0 }) :
    Answers i s fun t => t = { s with d := t.d } ∧ s.here.answered t.d q e x c 0 [] ∧ mget t.d.bpm.bufs h = some ⟨.free, 0⟩ ∧
      (∀ k, k ≠ h → mget t.d.bpm.bufs k = mget s.here.bpm.bufs k) ∧ t.d.cores = g.cores := by
  have hstate' : g.poolState (hPool h) = 1 := by
    rw [← hstate, Dev.poolState, Dev.poolState, Dev.fld, Dev.fld, hregs _ (poolState_inBlocks (hPool_lt h))]
  obtain ⟨hsent, hregs', hbufs, hcores⟩ := pushBuf_spec hstate'
  generalize g.pushBuf h = f at *
  obtain ⟨hans, -, hanswered⟩ := ha.reply_behind (hmore.trans hsent) ((hregs' _ linkStatus_inBlocks).trans (hregs _ linkStatus_inBlocks))
    ((hregs' _ adminCfg_inBlocks).trans (hregs _ adminCfg_inBlocks)) 0 []
  generalize f.reply q e 0 = t at *
  have hbufs' : t.bpm.bufs = mput s.here.bpm.bufs h ⟨.free, 0⟩ := by rw [hans, ← hbpm]; exact hbufs
  have hcores' : t.cores = g.cores := (congrArg Dev.cores hans).trans hcores
  refine ⟨_, hexec, rfl, hanswered, ?_, fun k hk => ?_, hcores'⟩
  · rw [hbufs']
    exact mget_mput_same ..
  · rw [hbufs']
    exact mget_mput_ne _ _ hk

variable (ha : s.here.accepts 0x36 q e x c)
include ha

theorem exec_forceFree_none (hb : s.here.buf (le e 20 4) = none) :
    exec (.forceFree q e) s = .next { s with d := (s.here.fetched q).reply q e 9 } := by
  have arm : exec (.forceFree q e) s = execForceFree q e s := rfl
  rw [arm, execForceFree, ha.onCmd]
  simp only [ha.agree.buf, hb]
  rfl

variable {b : Buf} (hb : s.here.buf (le e 20 4) = some b)
include hb

theorem exec_forceFree_free (hst : b.st = .free) : exec (.forceFree q e) s = .next { s with d := (s.here.fetched q).reply q e 6 } := by
  have arm : exec (.forceFree q e) s = execForceFree q e s := rfl
  rw [arm, execForceFree, ha.onCmd]
  simp only [ha.agree.buf, hb, hst]
  rfl

theorem exec_forceFree_allocated (hst : b.st = .allocated) : exec (.forceFree q e) s =
    .next { s with d := (((s.here.fetched q).dropJournal (le e 20 4)).pushBuf (le e 20 4)).reply q e 0 } := by
  have arm : exec (.forceFree q e) s = execForceFree q e s := rfl
  rw [arm, execForceFree, ha.onCmd]
  simp only [ha.agree.buf, hb, hst]

/-- The bytes of buffer h cleared. -/
def Dev.clearBuf (d : Dev) (h : Nat) : Dev := d.clear (d.bufAddr h) (d.poolSize (hPool h))

theorem exec_forceFree_quarantined (hst : b.st = .quarantined) : exec (.forceFree q e) s =
    .next { s with d := (((s.here.fetched q).clearBuf (le e 20 4)).pushBuf (le e 20 4)).reply q e 0 } := by
  have arm : exec (.forceFree q e) s = execForceFree q e s := rfl
  rw [arm, execForceFree, ha.onCmd]
  simp only [ha.agree.buf, hb, hst]
  rfl

end

/-- Settles O29: what a command of the four does before its answer leaves the queues alone, so each has its completion entry. -/
theorem modeLogEvents : Obligations.ModeLogEvents := by
  unfold Obligations.ModeLogEvents
  refine ⟨fun s q e x c h hm hp => setMode_answers h hm hp,
    fun s q e x c h => ⟨fun hseq => h.refused 0x80 (exec_readLog_notFound h hseq), fun hseq => readLog_found h hseq⟩,
    fun s q e x c h => setEvents_answers h, fun s q e x c h => ⟨fun hb => h.refused 9 (exec_forceFree_none h hb),
      fun b hb hst => h.refused 6 (exec_forceFree_free h hb hst), fun b hb hst hstate => ?free⟩⟩
  case free =>
    have hregs := h.fetched_reg
    have hbpm : (s.here.fetched q).bpm = s.here.bpm := by rw [h.fetched]
    have hcores : (s.here.fetched q).cores = s.here.cores := by rw [h.fetched]
    cases hst' : b.st with
    | free => exact absurd hst' hst
    | allocated =>
      obtain ⟨hdrop, hjournal⟩ := dropJournal_spec (s.here.fetched q) (le e 20 4)
      have hexec := exec_forceFree_allocated h hb hst'
      generalize (s.here.fetched q).dropJournal (le e 20 4) = g at *
      obtain ⟨t, hexec', hrest, hanswered, hfreed, hothers, hsame⟩ := pushBuf_answers h hdrop.sentMore
        (fun o ho => (hdrop.inBlocks o ho).trans (hregs o)) ((congrArg Dev.bpm hdrop.rest).trans hbpm) hstate hexec
      refine ⟨t, hexec', hrest, hanswered, hfreed, hothers, fun _ j hj => ?_⟩
      rw [Dev.core_congr hsame, hjournal j hj, Dev.core_congr hcores]
    | quarantined =>
      have hclear := (s.here.fetched q).storesOnly_clear ((s.here.fetched q).bufAddr (le e 20 4)) ((s.here.fetched q).poolSize (hPool (le e 20 4)))
      have hsent := (s.here.fetched q).sentMore_clear ((s.here.fetched q).bufAddr (le e 20 4)) ((s.here.fetched q).poolSize (hPool (le e 20 4)))
      have hexec := exec_forceFree_quarantined h hb hst'
      rw [Dev.clearBuf] at hexec
      generalize (s.here.fetched q).clear _ _ = g at *
      obtain ⟨t, hexec', hrest, hanswered, hfreed, hothers, -⟩ := pushBuf_answers h hsent (fun o ho => (hclear.regs o ho).trans (hregs o))
        ((congrArg Dev.bpm hclear.rest).trans hbpm) hstate hexec
      exact ⟨t, hexec', hrest, hanswered, hfreed, hothers, fun halloc => absurd halloc (by decide)⟩

end Sys2Proof.Machine
end

section
/-!
SUPPORT. States that meet the hypotheses: a pool whose head passes the guard (O6), a last reference (O7), a pool to enable (O9), a command that
names a ring (O29), an aperture (O36).
-/

namespace Sys2Proof.Machine

/-! ### A pool with two free buffers -/

/-- Pool 0 is ENABLED with two buffers of 256 bytes; both are FREE, the second is the head and its header names the first. -/
def poppingState : State :=
  { d := { regs := mput (mput resetRegs (R.BPM_POOL_COUNT 0) 2) (R.BPM_POOL_STAT 0) 1,
           bpm := { bufs := [(0, ⟨.free, 0⟩), (1, ⟨.free, 0⟩)], heads := [(0, 1)] },
           mem := { cells := [(264, 1), (268, 0xA5), (269, 0xA5), (270, 0x3C), (271, 0x3C)] } } }

theorem poppingState_canPop : poppingState.here.canPop 0 1 := ⟨by decide, by decide, by decide, rfl, by decide⟩

/-- The head is taken, and the buffer its header names is the next. -/
theorem poppingState_pops : Answers (.poolPop 0 3) poppingState fun t =>
    mget t.d.bpm.bufs 1 = some ⟨.allocated, 3⟩ ∧ mget t.d.bpm.heads 0 = some 0 ∧ t.d.bpm.lastPop = some 1 := by
  obtain ⟨t, hexec, ⟨hbuf, -, hhead, -⟩, hlast, -⟩ := poolPop.1 poppingState 0 1 3 poppingState_canPop
  have hnext : poppingState.here.rdLE (poppingState.here.bufAddr (mkHandle 0 1)) 4 = 0 := by decide
  rw [hnext] at hhead
  exact ⟨t, hexec, hbuf, hhead, hlast⟩

/-! ### A last reference -/

/-- The decrement of a buffer at count 1 makes it FREE and the head of its pool's list. -/
theorem homeState_lastDecrement : Answers (.bufferRefOp false 5) (homeState 0 1) fun t =>
    mget t.d.bpm.bufs 5 = some ⟨.free, 0⟩ ∧ mget t.d.bpm.heads 0 = some 5 := by
  have hstate : (homeState 0 1).here.poolState (hPool 5) = 1 := by
    rw [Dev.poolState, Dev.fld, Dev.reg, homeState_regs]
    decide
  obtain ⟨t, hexec, hbuf, hhead, -⟩ := (referenceOperations (homeState 0 1) 5 _ (homeState_buf ..)).2.2.1 rfl rfl hstate
  exact ⟨t, hexec, hbuf, hhead⟩

/-! ### A pool to enable -/

/-- Pool 0, of two buffers, is DISABLED. -/
def disabledState : State := { d := { regs := mput resetRegs (R.BPM_POOL_COUNT 0) 2, pwr := { booted := true } } }

/-- Its enable makes both buffers FREE and the pool REBUILDING. -/
theorem disabledState_enables : Answers (.bpmPoolCtlWrite 0 1) disabledState fun t =>
    t.d.poolState 0 = 3 ∧ mget t.d.bpm.bufs (mkHandle 0 1) = some ⟨.free, 0⟩ := by
  obtain ⟨t, hexec, hstate, -, hfree, -⟩ :=
    (poolStates disabledState 0 (by decide)).1 1 (by decide) (by decide) (by decide) (by decide)
  exact ⟨t, hexec, hstate, hfree 1 (by decide)⟩

/-! ### SET_EVENTS -/

/-- A SET_EVENTS that names the ring given. -/
def setEventsEntry (ring : Byte) : List Byte := 0x35 :: zeros 15 ++ ring :: zeros 47

/-- A ring that does not exist is refused; no ring is none. -/
theorem keepingState_setEvents (ring : Byte) (h : ring = 0xFF ∨ ring = 3) : Answers (.setEvents 1 (setEventsEntry ring)) (keepingState 9) fun t =>
    (keepingState 9).here.answered t.d 1 (setEventsEntry ring) entrySq entryCq (if ring = 0xFF then 0 else 8) [] ∧ t.d.que.evRing = none := by
  have haccepts : (keepingState 9).here.accepts 0x35 1 (setEventsEntry ring) entrySq entryCq :=
    { keepingState_accepts 9 (.inl rfl) with
      op := rfl
      ok := by obtain rfl | rfl := h <;> decide }
  obtain ⟨t, hexec, -, hanswered, hring⟩ := modeLogEvents.2.2.1 (keepingState 9) 1 _ _ _ haccepts
  obtain rfl | rfl := h
  · exact ⟨t, hexec, hanswered, hring⟩
  · exact ⟨t, hexec, hanswered, hring⟩

/-! ### An aperture -/

/-- The link is up, and the aperture of 256 bytes lies half over the end of the first store. -/
def apertureState : State :=
  { d := { regs := mput (mput resetRegs R.HIF_LINK_STATUS 0x80) R.HIF_APERTURE_SIZE 8, pwr := { booted := true },
           host := { apBase := 0x2FFFF80 } } }

theorem apertureState_open {o n : Nat} (hn : n ≠ 0) (hfit : o + n ≤ 256) : apertureState.here.apOpen o n := by
  have hsize : apertureState.here.apSize = 256 := by decide
  exact ⟨by decide, hn, by rw [hsize]; exact hfit, by decide⟩

/-- A write over the end of the store changes the byte that is there, and no other. -/
theorem apertureState_writes : Answers (.apertureWrite 127 [7, 9] false) apertureState fun t => t.d.rd 0x2FFFFFF = 7 ∧ t.d.rd 0x3000000 = 0 := by
  obtain ⟨t, hexec, -, hrd, -⟩ := apertureAccess.2.1 apertureState 127 [7, 9] (apertureState_open (by decide) (by decide)) (by decide) rfl
  exact ⟨t, hexec, (hrd _).trans (by decide), (hrd _).trans (by decide)⟩

end Sys2Proof.Machine
end

section
/-!
SUPPORT. Work on a stream (O21, O22, O33): its epoch, its frame numbers, its chunks, its budget. What such work leaves alone in the rest of the
device, and the number a frame gets (R14, R277, R279, R283 to R285).
-/

namespace Sys2Proof.Machine

/-! ### Pools and the queues -/

section

variable (d : Dev)

theorem Dev.sentMore_bpm (x : Bpm) : Dev.SentMore d { d with bpm := x } := .of_eq rfl rfl

theorem Dev.sentMore_setBuf (h : Nat) (b : Buf) : Dev.SentMore d (d.setBuf h b) := .of_eq rfl rfl

theorem Dev.sentMore_lowFell (p : Nat) : Dev.SentMore d (d.lowFell p) := by
  unfold Dev.lowFell
  simp only []
  split
  · exact .refl d
  have hmarked := d.sentMore_setFld (R.BPM_POOL_STAT p) F.BPM_POOL_STAT_low 1
  generalize d.setFld (R.BPM_POOL_STAT p) F.BPM_POOL_STAT_low 1 = e at *
  split
  · exact hmarked
  · exact hmarked.trans ((e.sentMore_bpm _).trans (Dev.sentMore_health ..))

theorem Dev.sentMore_takeHead (p h n : Nat) : Dev.SentMore d (d.takeHead p h n) := by
  have hread := d.sentMore_noteRead (span (d.bufAddr h) 16)
  unfold Dev.takeHead
  generalize d.noteRead (span (d.bufAddr h) 16) = e at *
  exact hread.trans ((e.sentMore_bpm _).trans ((Dev.sentMore_setBuf ..).trans (Dev.sentMore_lowFell ..)))

theorem Dev.sentMore_lowRose (p : Nat) : Dev.SentMore d (d.lowRose p) := by
  unfold Dev.lowRose
  split
  · exact d.sentMore_bpm _
  · exact .refl d

theorem Dev.sentMore_startRebuild (p : Nat) : Dev.SentMore d (d.startRebuild p) := .of_eq rfl rfl

theorem Dev.sentMore_enablePool (p : Nat) : Dev.SentMore d (d.enablePool p) := by
  unfold Dev.enablePool
  split
  · exact (d.sentMore_bpm _).trans (Dev.sentMore_startRebuild ..)
  · exact d.sentMore_setFld ..

theorem Dev.sentMore_stopCheck (p : Nat) : Dev.SentMore d (d.stopCheck p) := by
  unfold Dev.stopCheck
  split
  · have hoff := d.sentMore_setFld (R.BPM_POOL_STAT p) F.BPM_POOL_STAT_state 0
    generalize d.setFld (R.BPM_POOL_STAT p) F.BPM_POOL_STAT_state 0 = e at *
    have hgone := fun x => hoff.trans (e.sentMore_bpm x)
    simp only []
    split
    · exact (hgone _).trans ((Dev.sentMore_setFld ..).trans (Dev.sentMore_enablePool ..))
    · exact hgone _
  · exact .refl d

theorem Dev.sentMore_pushBuf (h : Nat) : Dev.SentMore d (d.pushBuf h) := by
  unfold Dev.pushBuf
  simp only []
  refine (d.sentMore_setBuf h ⟨.free, 0⟩).trans (.trans ?_ ((Dev.sentMore_lowRose ..).trans (Dev.sentMore_stopCheck ..)))
  generalize d.setBuf h ⟨.free, 0⟩ = e
  split
  · exact .of_eq rfl rfl
  · have hwrite := e.sentMore_writeRun (e.bufAddr h) (freeHeader (mgetD e.bpm.heads (hPool h) nullHandle) h)
    generalize e.writeRun (e.bufAddr h) _ = g at *
    exact hwrite.trans (g.sentMore_bpm _)

theorem Dev.sentMore_refDec (h : Nat) : Dev.SentMore d (d.refDec h) := by
  unfold Dev.refDec
  split
  · split
    · split
      · exact d.sentMore_pushBuf h
      · exact d.sentMore_bpm _
    · exact .refl d
  · exact .refl d

end

/-! ### Work on a stream -/

/-- Nothing changes but the streams, the attributes of contexts and what the pools' operations change; what has been sent stands first. -/
structure Dev.StreamWork (d e : Dev) : Prop where
  rest : e = { d with mem := e.mem, regs := e.regs, que := e.que, recov := e.recov, host := e.host, dram := e.dram, nv := e.nv, bpm := e.bpm,
                      freeCtr := e.freeCtr, streams := e.streams, ctxs := e.ctxs }
  regs : ∀ o, aside o → e.reg o = d.reg o
  sent : Dev.SentMore d e

theorem Dev.StreamWork.refl (d : Dev) : Dev.StreamWork d d := ⟨rfl, fun _ _ => rfl, .refl d⟩

theorem Dev.StreamWork.trans {d e f : Dev} (h : Dev.StreamWork d e) (g : Dev.StreamWork e f) : Dev.StreamWork d f :=
  ⟨by rw [g.rest, h.rest], fun o ho => (g.regs o ho).trans (h.regs o ho), h.sent.trans g.sent⟩

theorem Dev.StreamWork.foldl {β : Type} {f : Dev → β → Dev} (hf : ∀ d b, Dev.StreamWork d (f d b)) (l : List β) (d : Dev) :
    Dev.StreamWork d (l.foldl f d) := by
  induction l generalizing d with
  | nil => exact .refl d
  | cons b r ih => exact (hf d b).trans (ih _)

theorem Dev.PoolOnly.streamWork {d e : Dev} (h : Dev.PoolOnly d e) (hsent : Dev.SentMore d e) : Dev.StreamWork d e := by
  have hstreams : e.streams = d.streams := by rw [h.rest]
  have hctxs : e.ctxs = d.ctxs := by rw [h.rest]
  refine ⟨?_, h.marks, hsent⟩
  rw [hstreams, hctxs]
  exact h.rest

section

variable {d e : Dev} (h : Dev.StreamWork d e)
include h

theorem Dev.StreamWork.engines : e.engines = d.engines := by rw [h.rest]
theorem Dev.StreamWork.cores : e.cores = d.cores := by rw [h.rest]
theorem Dev.StreamWork.sched : e.sched = d.sched := by rw [h.rest]
theorem Dev.StreamWork.jpeg : e.jpeg = d.jpeg := by rw [h.rest]
theorem Dev.StreamWork.fab : e.fab = d.fab := by rw [h.rest]

end

section

variable (d : Dev)

theorem Dev.streamWork_refDec (h : Nat) : Dev.StreamWork d (d.refDec h) := (d.poolOnly_refDec h).streamWork (d.sentMore_refDec h)

theorem Dev.streamWork_writeRun (a : Nat) (bs : List Byte) : Dev.StreamWork d (d.writeRun a bs) :=
  (d.storesOnly_writeRun a bs).pool.streamWork (d.sentMore_writeRun a bs)

theorem Dev.streamWork_noteRead (as : List Nat) : Dev.StreamWork d (d.noteRead as) :=
  (d.storesOnly_noteRead as).pool.streamWork (d.sentMore_noteRead as)

theorem Dev.streamWork_ctxs (m : SMap Ctx) : Dev.StreamWork d { d with ctxs := m } := ⟨rfl, fun _ _ => rfl, .of_eq rfl rfl⟩

theorem Dev.streamWork_modStream (id : Nat) (g : Stream → Stream) : Dev.StreamWork d (d.modStream id g) := by
  unfold Dev.modStream
  split
  · exact ⟨rfl, fun _ _ => rfl, .of_eq rfl rfl⟩
  · exact .refl d

/-- Where an epoch is adopted the stream changes, but not the numbering of its frames; old slots go back to their pool, and the context takes
the binding. -/
theorem Dev.adoptEpoch_cases (id : Nat) (ep : Epoch) : d.adoptEpoch id ep = d ∨ ∃ (g : Stream → Stream) (l : List Nat) (m : SMap Ctx),
    (∀ s, (g s).numAhead = s.numAhead ∧ (g s).nextFrame = s.nextFrame) ∧
      d.adoptEpoch id ep = { l.foldl Dev.refDec (d.modStream id g) with ctxs := m } := by
  unfold Dev.adoptEpoch
  split
  · exact .inl rfl
  simp only []
  split
  · exact .inl rfl
  have hsame : ∀ e : Dev, e = { e with ctxs := e.ctxs } := fun _ => rfl
  split
  · refine .inr ⟨_, _, _, ?_, hsame _⟩
    exact fun _ => ⟨rfl, rfl⟩
  · refine .inr ⟨_, _, _, ?_, rfl⟩
    exact fun _ => ⟨rfl, rfl⟩

theorem Dev.streamWork_adoptEpoch (id : Nat) (ep : Epoch) : Dev.StreamWork d (d.adoptEpoch id ep) := by
  obtain heq | ⟨g, l, m, -, heq⟩ := d.adoptEpoch_cases id ep <;> rw [heq]
  · exact .refl d
  · exact (d.streamWork_modStream id g).trans ((Dev.StreamWork.foldl Dev.streamWork_refDec l _).trans (Dev.streamWork_ctxs ..))

theorem Dev.streamWork_takeNum (id order : Nat) : Dev.StreamWork d (d.takeNum id order).2 := by
  unfold Dev.takeNum
  split
  · exact .refl d
  · exact d.streamWork_modStream ..

theorem Dev.streamWork_markChunk (id : Nat) (c : Chunk) (num : Nat) (p : PicInfo) : Dev.StreamWork d (d.markChunk id c num p) :=
  d.streamWork_modStream ..

theorem Dev.streamWork_setBudget (id b lag num stamp epoch : Nat) : Dev.StreamWork d (d.setBudget id b lag num stamp epoch).2 := by
  unfold Dev.setBudget
  split
  · exact .refl d
  simp only []
  split
  · exact .refl d
  · exact d.streamWork_modStream ..

theorem Dev.streamWork_countCycles (id n : Nat) : Dev.StreamWork d (d.countCycles id n) := d.streamWork_modStream ..

theorem Dev.streamWork_dropChunk (id : Nat) (c : Chunk) : Dev.StreamWork d (d.dropChunk id c) :=
  (d.streamWork_modStream ..).trans (Dev.streamWork_refDec ..)

theorem Dev.streamWork_useChunks (id n : Nat) : Dev.StreamWork d (d.useChunks id n) := .foldl (fun d c => d.streamWork_dropChunk id c) _ d

end

/-! ### A frame joins the frames -/

/-- The frame stands last among the frames. -/
def Dev.addFrame (d : Dev) (f : Frame) : Dev := { d with sched := { d.sched with frames := d.sched.frames ++ [f] } }

@[simp] theorem Dev.addFrame_frames (d : Dev) (f : Frame) : (d.addFrame f).sched.frames = d.sched.frames ++ [f] := rfl
@[simp] theorem Dev.addFrame_regs (d : Dev) (f : Frame) : (d.addFrame f).regs = d.regs := rfl
@[simp] theorem Dev.addFrame_engines (d : Dev) (f : Frame) : (d.addFrame f).engines = d.engines := rfl
@[simp] theorem Dev.addFrame_cores (d : Dev) (f : Frame) : (d.addFrame f).cores = d.cores := rfl
@[simp] theorem Dev.addFrame_jpeg (d : Dev) (f : Frame) : (d.addFrame f).jpeg = d.jpeg := rfl

/-! ### The stream after it -/

section

variable {d : Dev} {id : Nat} {st : Stream} (h : mget d.streams id = some st)
include h

theorem mget_modStream_same (g : Stream → Stream) : mget (d.modStream id g).streams id = some (g st) := by
  rw [(modStream_spec h g).1]
  exact mget_mput_same ..

/-- Adopting an epoch leaves the numbering of the stream's frames alone. -/
theorem adoptEpoch_numbering (ep : Epoch) :
    ∃ y, mget (d.adoptEpoch id ep).streams id = some y ∧ y.numAhead = st.numAhead ∧ y.nextFrame = st.nextFrame := by
  obtain heq | ⟨g, l, m, hg, heq⟩ := d.adoptEpoch_cases id ep <;> rw [heq]
  · exact ⟨st, h, rfl, rfl⟩
  · have hold : (l.foldl Dev.refDec (d.modStream id g)).streams = (d.modStream id g).streams :=
      foldl_keeps (·.streams) _ (fun d b => (poolOnly_rest_streams (d.poolOnly_refDec b)).1) l _
    exact ⟨g st, by rw [hold]; exact mget_modStream_same h g, hg st⟩

theorem takeNum_eq (order : Nat) : (d.takeNum id order).1 = st.numberAt order := by
  simp only [Dev.takeNum, Dev.stream?, h]
  rfl

/-- The number a frame gets once the epoch of its chunk is adopted. -/
theorem adoptEpoch_takeNum (ep : Epoch) (order : Nat) : ((d.adoptEpoch id ep).takeNum id order).1 = st.numberAt order := by
  obtain ⟨y, hy, hahead, hnext⟩ := adoptEpoch_numbering h ep
  rw [takeNum_eq hy, Stream.numberAt, Stream.numberAt, hahead, hnext]

end

end Sys2Proof.Machine
end

section
/-!
SUPPORT. The start of a picture on an engine, and a still that leaves the JPEG unit (O21; R263, R265, R268, R270, R283, R285).
-/

namespace Sys2Proof.Machine

/-! ### Registers of the engines -/

theorem codReg_aside {n o : Nat} (hn : n < 8) (ho : o < 0x2000) : aside (0x80000 + n * 0x2000 + o) := by
  simp only [aside]
  omega

section

variable (d : Dev)

/-- Only the load registers follow the loads. -/
theorem syncLoads_regs : ∃ r, d.syncLoads = { d with regs := r } := by
  unfold Dev.syncLoads
  generalize List.range 8 = l
  induction l generalizing d with
  | nil => exact ⟨_, rfl⟩
  | cons k r ih => exact ih (d.setReg ..)

theorem syncLoads_reg {o : Nat} (ho : ∀ k < 8, o ≠ R.COD_LOAD k) : d.syncLoads.reg o = d.reg o := by
  unfold Dev.syncLoads
  have hl : ∀ k ∈ List.range 8, o ≠ R.COD_LOAD k := fun k hk => ho k (List.mem_range.1 hk)
  generalize List.range 8 = l at hl
  induction l generalizing d with
  | nil => rfl
  | cons k r ih =>
    rw [List.foldl_cons, ih _ fun j hj => hl j (List.mem_cons_of_mem _ hj)]
    exact Dev.reg_setReg_ne _ _ (hl k List.mem_cons_self)

theorem engine_modEngine_same (n : Nat) (g : Engine → Engine) : (d.modEngine n g).engine n = g (d.engine n) := mgetD_mput_same ..

/-- The stream's load given to engine n alone. -/
def Dev.moveLoad (d : Dev) (n key mps : Nat) : Dev :=
  ({ d with engines := mmap d.engines fun _ e => { e with loads := mdel e.loads key } } : Dev).modEngine n
    fun e => { e with loads := mput e.loads key mps }

theorem giveLoad_eq (n key mps : Nat) : d.giveLoad n key mps = (d.moveLoad n key mps).syncLoads := by
  unfold Dev.giveLoad Dev.moveLoad
  rfl

theorem syncLoads_sched : d.syncLoads.sched = d.sched := by
  obtain ⟨r, hr⟩ := syncLoads_regs d
  rw [hr]

theorem modEngine_sched (n : Nat) (g : Engine → Engine) : (d.modEngine n g).sched = d.sched := rfl

theorem giveLoad_sched (n key mps : Nat) : (d.giveLoad n key mps).sched = d.sched := by
  rw [giveLoad_eq, syncLoads_sched, Dev.moveLoad, modEngine_sched]

/-- The engine's status register once it has a picture of a stream. -/
def Dev.showPic (d : Dev) (n : Nat) (encode : Bool) (stream : Nat) : Dev :=
  ((d.setFld (R.COD_STATUS n) F.COD_STATUS_busy 1).setFld (R.COD_STATUS n) F.COD_STATUS_encoding (b2n encode)).setFld (R.COD_STATUS n)
    F.COD_STATUS_stream stream

theorem showPic_engines (n : Nat) (encode : Bool) (stream : Nat) : (d.showPic n encode stream).engines = d.engines := by rfl

theorem showPic_sched (n : Nat) (encode : Bool) (stream : Nat) : (d.showPic n encode stream).sched = d.sched := by rfl

theorem showPic_fields (n : Nat) (encode : Bool) (stream : Nat) :
    (d.showPic n encode stream).fld (R.COD_STATUS n) F.COD_STATUS_busy = 1 ∧
    (d.showPic n encode stream).fld (R.COD_STATUS n) F.COD_STATUS_encoding = b2n encode ∧
    (d.showPic n encode stream).fld (R.COD_STATUS n) F.COD_STATUS_stream = stream % 256 := by
  refine ⟨?busy, ?encoding, Dev.fld_setFld_same _ _ _ _ (by decide)⟩
  case busy =>
    rw [Dev.showPic, Dev.fld_setFld_other _ _ _ (by decide) (by decide), Dev.fld_setFld_other _ _ _ (by decide) (by decide),
      Dev.fld_setFld_same _ _ _ _ (by decide)]
    rfl
  case encoding =>
    rw [Dev.showPic, Dev.fld_setFld_other _ _ _ (by decide) (by decide), Dev.fld_setFld_same _ _ _ _ (by decide)]
    cases encode <;> rfl

/-! ### An engine begins an analysed picture -/

/-- A picture of which no row has been decoded. -/
def newPic (p : PicInfo) (c : Chunk) (ep : Epoch) (num : Nat) : Pic :=
  { info := p, frame := num, ep := ep, stamp := c.stamp, rowsDone := [], concealed := 0, firstSub := 0, cycles := 0, analyse := true }

/-- The frame of an analysed picture, while the picture is decoded and shaped. -/
def picFrame (stream : Nat) (c : Chunk) (ep : Epoch) (num : Nat) (unauth : Bool) (ahead : List (List Byte)) : Frame :=
  { stream := stream, num := num, ep := ep, stamp := c.stamp, st := .shaping, ctx := ep.bind.ctx, unauth := unauth, ahead := ahead }

/-- Engine n holds the picture, and the stream the slot it takes. -/
def Dev.holdPic (d : Dev) (n : Nat) (p : PicInfo) (c : Chunk) (ep : Epoch) (num : Nat) : Dev :=
  ((d.giveLoad n (2 * p.stream + b2n p.encode) p.mps).modEngine n fun e => { e with pic := some (newPic p c ep num), stalled := false }).modStream
    p.stream fun s => { s with slots := takeSlot s.slots p.leaves num p.isRef, engine := some n }

theorem holdPic_kept (n : Nat) (p : PicInfo) (c : Chunk) (ep : Epoch) (num : Nat) :
    ((d.holdPic n p c ep num).engine n).pic = some (newPic p c ep num) ∧ (d.holdPic n p c ep num).sched = d.sched := by
  refine ⟨?engine, ?sched⟩
  case engine =>
    rw [Dev.holdPic, Dev.engine, Dev.modStream_engines]
    exact congrArg Engine.pic (engine_modEngine_same ..)
  case sched =>
    rw [Dev.holdPic, Dev.modStream_sched, modEngine_sched, giveLoad_sched]

theorem beginPic_analysed (n : Nat) (p : PicInfo) (c : Chunk) (ep : Epoch) (num : Nat) (ahead : List (List Byte)) :
    ∃ unauth, d.beginPic n p c ep num ahead true =
      ((d.holdPic n p c ep num).showPic n p.encode p.stream).addFrame (picFrame p.stream c ep num unauth ahead) := ⟨_, rfl⟩

theorem beginPic_spec (n : Nat) (p : PicInfo) (c : Chunk) (ep : Epoch) (num : Nat) (ahead : List (List Byte)) (t : Dev)
    (ht : t = d.beginPic n p c ep num ahead true) :
    (t.engine n).pic = some (newPic p c ep num) ∧ t.flag (R.COD_STATUS n) F.COD_STATUS_busy = true ∧
    t.fld (R.COD_STATUS n) F.COD_STATUS_encoding = b2n p.encode ∧ t.fld (R.COD_STATUS n) F.COD_STATUS_stream = p.stream % 256 ∧
    ∃ unauth, t.sched.frames = d.sched.frames ++ [picFrame p.stream c ep num unauth ahead] := by
  obtain ⟨unauth, hbegin⟩ := beginPic_analysed d n p c ep num ahead
  obtain ⟨hpic, hsched⟩ := holdPic_kept d n p c ep num
  obtain ⟨hbusy, hencoding, hstream⟩ := showPic_fields (d.holdPic n p c ep num) n p.encode p.stream
  rw [ht, hbegin]
  have hfld : ∀ (e : Dev) (f : Frame) (o : Nat) (b : Fld), (e.addFrame f).fld o b = e.fld o b := fun _ _ _ _ => rfl
  refine ⟨?pic, ?busy, (hfld ..).trans hencoding, (hfld ..).trans hstream, unauth, ?frames⟩
  case pic => rw [Dev.engine, Dev.addFrame_engines, showPic_engines]; exact hpic
  case busy => rw [Dev.flag, hfld, hbusy]; rfl
  case frames => rw [Dev.addFrame_frames, showPic_sched, hsched]

end

/-! ### PICTURE_START -/

/-- What comes before a picture is begun: its epoch, its number, its chunk's mark, the budget state and the lags. -/
def Dev.duePic (d : Dev) (st : Stream) (p : PicInfo) (c : Chunk) (ep : Epoch) : List (List Byte) × Dev :=
  let b := ((((d.adoptEpoch p.stream ep).takeNum p.stream p.order).2.markChunk p.stream c (st.numberAt p.order) p).setBudget p.stream
    (st.nextBudget ep.codec.lagLimit p.lag p.refLag p.refresh) p.lag (st.numberAt p.order) c.stamp ep.num)
  (b.1, b.2.modStream p.stream fun s => { s with lag := p.lag, refLag := p.refLag, unsup := false })

theorem duePic_streamWork (d : Dev) (st : Stream) (p : PicInfo) (c : Chunk) (ep : Epoch) : Dev.StreamWork d (d.duePic st p c ep).2 :=
  (d.streamWork_adoptEpoch ..).trans ((Dev.streamWork_takeNum ..).trans ((Dev.streamWork_markChunk ..).trans
    ((Dev.streamWork_setBudget ..).trans (Dev.streamWork_modStream ..))))

section

variable {s : State} {d : Dev} {n : Nat} {p : PicInfo} {st : Stream} {c : Chunk} {ep : Epoch} (h : d.pictureReady n p st c ep)
include h

/-- The conditions of the refusals do not hold: the picture is begun and analysed. -/
theorem decodePic_ready : d.decodePic n st p c ep =
    (d.duePic st p c ep).2.beginPic n p c ep (st.numberAt p.order) (d.duePic st p c ep).1 true := by
  obtain ⟨hparsed, herr⟩ := h.parsed
  obtain ⟨-, hstandby, hactive⟩ := h.group
  obtain ⟨hinside, hsup⟩ := h.supported
  obtain ⟨hbudget, hdrop⟩ := h.budget
  have hnum := adoptEpoch_takeNum h.stream ep p.order
  have hunsup : (st.unsup && !p.refresh) = false := by rcases hsup with hsup | hsup <;> simp [hsup]
  have hdue := duePic_streamWork d st p c ep
  have hrefresh : p.refresh = true → (d.duePic st p c ep).2.refreshProtect p.stream = (d.duePic st p c ep).2 := fun hr => by
    rw [Dev.refreshProtect, Dev.activeEntry, hdue.fab, ← Dev.activeEntry, hactive hr]
  have hfab : mget (d.duePic st p c ep).2.fab.standby p.stream = none := by rw [hdue.fab, hstandby]
  have hkeep : (decide (st.nextBudget ep.codec.lagLimit p.lag p.refLag p.refresh = 2) && !p.isRef) = false := by
    by_cases htwo : st.nextBudget ep.codec.lagLimit p.lag p.refLag p.refresh = 2 <;> simp [htwo, hdrop]
  simp only [Dev.duePic] at hfab hrefresh
  simp only [Dev.decodePic, Dev.duePic, hparsed, herr, hnum, hinside, hunsup, h.clean, hbudget, hfab, hkeep, Bool.not_true, Bool.or_self,
    Bool.false_eq_true, if_false, if_true, Option.bind_none, Option.map_none, Option.getD_none]
  by_cases hr : p.refresh = true
  · rw [if_pos hr, hrefresh hr]
  · rw [if_neg hr]

theorem startPicture_ready : d.startPicture n p = d.decodePic n st p c ep := by
  obtain ⟨hserves, hidle⟩ := h.engine
  obtain ⟨hlive, hrefs, hrows⟩ := h.ready
  obtain ⟨hkind, hdecode, hcodec⟩ := h.kind
  obtain ⟨hstandby, -, -⟩ := h.group
  have hfree : (d.engineOn n && (d.engine n).pic.isNone && d.loadOk n (2 * p.stream + b2n false) p.mps) = true := by
    simp [hserves, hidle, h.load, b2n]
  simp only [Dev.startPicture, h.stream, h.chunk, h.epoch, hfree, hlive, hrefs, hrows, hkind, hdecode, hcodec, hstandby]
  rfl

end

theorem exec_pictureStart {s : State} {n : Nat} {p : PicInfo} {st : Stream} {c : Chunk} {ep : Epoch} (h : s.here.pictureReady n p st c ep) :
    exec (.pictureStart n p) s = .next { s with
      d := (s.here.duePic st p c ep).2.beginPic n p c ep (st.numberAt p.order) (s.here.duePic st p c ep).1 true } := by
  have arm : exec (.pictureStart n p) s = execPictureStart n p s := rfl
  obtain ⟨hworking, hphase⟩ := h.work
  simp only [arm, execPictureStart, onDev_here, hworking, hphase, startPicture_ready h, decodePic_ready h, ne_eq, not_false_eq_true,
    decide_true, Bool.and_self, if_true]

/-! ### JPEG_JOB_COMPLETE -/

/-- The first job leaves the queue of the JPEG unit, which counts it. -/
def Dev.jobOut (d : Dev) (l : List (Nat × Chunk)) (rows : Nat) : Dev :=
  (({ d with jpeg := { d.jpeg with queue := l, rows := d.jpeg.rows + rows + 1 } } : Dev).satFld R.COD_JPEG_STATUS F.COD_JPEG_STATUS_done 1).syncJpeg

/-- What comes before a still is put out: its epoch, its number, its chunk's mark, the budget state, the lags and the cycles. -/
def Dev.dueStill (d : Dev) (st : Stream) (id : Nat) (p : PicInfo) (c : Chunk) (ep : Epoch) : List (List Byte) × Dev :=
  let b := ((((d.adoptEpoch id ep).takeNum id 0).2.markChunk id c (st.numberAt 0) p).setBudget id
    (st.nextBudget ep.codec.lagLimit p.lag 0 true) p.lag (st.numberAt 0) c.stamp ep.num)
  (b.1, (b.2.modStream id fun s => { s with lag := p.lag, refLag := 0 }).countCycles id (6 * p.width * p.height / 5))

theorem dueStill_streamWork (d : Dev) (st : Stream) (id : Nat) (p : PicInfo) (c : Chunk) (ep : Epoch) :
    Dev.StreamWork d (d.dueStill st id p c ep).2 :=
  (d.streamWork_adoptEpoch ..).trans ((Dev.streamWork_takeNum ..).trans ((Dev.streamWork_markChunk ..).trans
    ((Dev.streamWork_setBudget ..).trans ((Dev.streamWork_modStream ..).trans (Dev.streamWork_countCycles ..)))))

/-- The job's picture is a still of its stream. -/
def stillInfo (p : PicInfo) (id : Nat) : PicInfo := { p with stream := id, isRef := false, refresh := true, chunk := 0, used := 1 }

/-- A still without a concealed row, with every row decoded. -/
def stillPic (p : PicInfo) (c : Chunk) (ep : Epoch) (num : Nat) (rows : List (List Nat)) : Pic :=
  { info := p, frame := num, ep := ep, stamp := c.stamp,
    rowsDone := (List.range p.height).map fun i => (List.range (p.width + (p.width + 1) / 2)).map fun j => ((rows.getD i []).getD j 128) % 256,
    concealed := 0, firstSub := 0, cycles := 0, analyse := true }

/-- The still stands in the unit. -/
def Dev.holdStill (d : Dev) (P : Pic) : Dev := { d with jpeg := { d.jpeg with img := some P } }

/-- Without a concealed row nothing is reported and no frame is voided. -/
theorem concealment_none (d : Dev) (id num : Nat) (ep : Epoch) (sub unit : Nat) : d.concealment id num ep 0 sub [] unit = d := by
  have hmap : (d.modFrame id num false fun f => { f with ahead := f.ahead ++ [] }) = d := by
    unfold Dev.modFrame
    have hid : (fun f : Frame => if (decide (f.stream = id) && decide (f.num = num) && decide (f.revisit = false)) = true then
        { f with ahead := f.ahead ++ [] } else f) = fun f => f := funext fun f => by rw [List.append_nil]; exact ite_self _
    rw [hid, List.map_id']
  unfold Dev.concealment
  simp only [if_true, hmap, Nat.not_lt_zero, if_false]
  split <;> rfl

theorem stillOut_clean (d : Dev) (p : PicInfo) (c : Chunk) (ep : Epoch) (num : Nat) (rows : List (List Nat)) (ahead : List (List Byte)) :
    d.stillOut p c ep num rows 0 0 ahead =
      (d.addFrame (picFrame p.stream c ep num false ahead)).holdStill (stillPic p c ep num rows) :=
  concealment_none ..

theorem jobOut_streams (d : Dev) (l : List (Nat × Chunk)) (rows : Nat) : (d.jobOut l rows).streams = d.streams := by
  simp only [Dev.jobOut, Dev.syncJpeg, Dev.setFld_streams, Dev.satFld_streams]

theorem jobOut_sched (d : Dev) (l : List (Nat × Chunk)) (rows : Nat) : (d.jobOut l rows).sched = d.sched := by
  simp only [Dev.jobOut, Dev.syncJpeg, Dev.setFld_sched, Dev.satFld_sched]

theorem jobOut_queue (d : Dev) (l : List (Nat × Chunk)) (rows : Nat) : (d.jobOut l rows).jpeg.queue = l := by
  simp only [Dev.jobOut, Dev.syncJpeg, Dev.setFld_jpeg, Dev.satFld_jpeg]

/-- The number of jobs done saturates; the two fields that follow the queue lie below it. -/
theorem jobOut_done (d : Dev) (l : List (Nat × Chunk)) (rows : Nat) :
    (d.jobOut l rows).fld R.COD_JPEG_STATUS F.COD_JPEG_STATUS_done =
      min 65535 (d.fld R.COD_JPEG_STATUS F.COD_JPEG_STATUS_done + 1) := by
  rw [Dev.jobOut, Dev.syncJpeg, Dev.fld_setFld_other _ _ _ (by decide) (by decide), Dev.fld_setFld_other _ _ _ (by decide) (by decide),
    Dev.satFld, Dev.fld_setFld_same _ _ _ _ (by decide)]
  exact Nat.mod_eq_of_lt (Nat.lt_of_le_of_lt (Nat.min_le_left ..) (by decide))

/-- Job (id, c) leads the queue of the JPEG unit: an error-free, supported still of stream st. -/
structure Dev.stillReady (d : Dev) (p : PicInfo) (st : Stream) (id : Nat) (c : Chunk) (ep : Epoch) (l : List (Nat × Chunk)) : Prop where
  queue : d.jpeg.queue = (id, c) :: l
  stream : d.stream? id = some st
  epoch : (st.epoch? c.epoch).or st.cur = some ep
  idle : d.jpeg.img = none
  unit : d.unitOut 0x18 = false ∧ d.clocked 3 = true
  kind : st.kind ≠ 2
  parsed : p.parsed = true ∧ p.err = 0 ∧ p.supported = true
  size : (1 ≤ p.width ∧ p.width ≤ ep.codec.maxW) ∧ 1 ≤ p.height ∧ p.height ≤ ep.codec.maxH
  budget : st.nextBudget ep.codec.lagLimit p.lag 0 true ≠ 2

section

variable {s : State} {p : PicInfo} {st : Stream} {id : Nat} {c : Chunk} {ep : Epoch} {l : List (Nat × Chunk)}
  (h : s.here.stillReady p st id c ep l)
include h

/-- The still is put out; its chunk, where the stream still has it, goes last. -/
theorem exec_jpegJobComplete (rows : List (List Nat)) (coded : List Byte) (g : Dev) (hg : g = s.here.jobOut l rows.length) :
    ∃ e, Dev.StreamWork ((g.dueStill st id (stillInfo p id) c ep).2.stillOut (stillInfo p id) c ep (st.numberAt 0) rows 0 0
        (g.dueStill st id (stillInfo p id) c ep).1) e ∧
      exec (.jpegJobComplete p rows 0 0 coded) s = .next { s with d := e } := by
  have arm : exec (.jpegJobComplete p rows 0 0 coded) s = execJpegJobComplete p rows 0 0 coded s := rfl
  obtain ⟨hout, hclock⟩ := h.unit
  obtain ⟨hparsed, herr, hsup⟩ := h.parsed
  obtain ⟨⟨hw, hmaxw⟩, hh, hmaxh⟩ := h.size
  have hstream : mget g.streams id = some st := by rw [hg, jobOut_streams]; exact h.stream
  have hnum := adoptEpoch_takeNum hstream ep 0
  simp only [Dev.jobOut, h.idle] at hg
  simp only [arm, execJpegJobComplete, onDev_here, h.queue, h.stream, h.epoch, h.idle, hout, hclock, Option.bind_some, Option.map_some,
    Option.isSome_none, Bool.not_true, Bool.or_self, Bool.false_eq_true, if_false, ← hg, h.kind, hparsed, herr, hsup, hw, hh,
    h.budget, hnum, Dev.dueStill, stillInfo, Nat.not_lt.2 hmaxw, Nat.not_lt.2 hmaxh, decide_true, decide_false, Bool.and_self, if_true]
  split
  · exact ⟨_, Dev.streamWork_dropChunk .., rfl⟩
  · exact ⟨_, .refl _, rfl⟩

/-- Next to the work on the stream: the job has left the queue, the still stands in the unit, its frame among the frames. -/
theorem jpegStill_answers (rows : List (List Nat)) (coded : List Byte) :
    Answers (.jpegJobComplete p rows 0 0 coded) s fun t => t = { s with d := t.d } ∧ t.d.jpeg.queue = l ∧
      t.d.jpeg.img = some (stillPic (stillInfo p id) c ep (st.numberAt 0) rows) ∧
      t.d.fld R.COD_JPEG_STATUS F.COD_JPEG_STATUS_done = min 65535 (s.here.fld R.COD_JPEG_STATUS F.COD_JPEG_STATUS_done + 1) ∧
      ∃ ahead, t.d.sched.frames = s.here.sched.frames ++ [picFrame id c ep (st.numberAt 0) false ahead] := by
  obtain ⟨e, hlast, hexec⟩ := exec_jpegJobComplete h rows coded _ rfl
  have hdue := dueStill_streamWork (s.here.jobOut l rows.length) st id (stillInfo p id) c ep
  generalize (s.here.jobOut l rows.length).dueStill st id (stillInfo p id) c ep = due at *
  rw [stillOut_clean] at hlast
  refine ⟨_, hexec, rfl, ?queue, ?still, ?done, due.1, ?frames⟩
  case queue => exact (congrArg Jpeg.queue hlast.jpeg).trans ((congrArg Jpeg.queue hdue.jpeg).trans (jobOut_queue ..))
  case still => exact congrArg Jpeg.img hlast.jpeg
  case done =>
    rw [← jobOut_done s.here l rows.length]
    have haside : aside R.COD_JPEG_STATUS := by unfold aside; decide
    exact congrArg F.COD_JPEG_STATUS_done.get ((hlast.regs _ haside).trans (hdue.regs _ haside))
  case frames =>
    have hframes := congrArg Sched.frames (hdue.sched.trans (jobOut_sched ..))
    exact (congrArg Sched.frames hlast.sched).trans (congrArg (· ++ _) hframes)

end

/-! ### The statement -/

/-- Settles O21: nothing that is done for the stream touches the engines, the frames or the registers of the units; then the picture is begun, or
the still is put out. -/
theorem picturesStart : Obligations.PicturesStart := by
  refine ⟨?picture, ?still⟩
  case picture =>
    intro s n p st c ep h
    obtain ⟨-, hdecode, -⟩ := h.kind
    have hdue := duePic_streamWork s.here st p c ep
    obtain ⟨hpic, hbusy, hencoding, hstream, unauth, hframes⟩ := beginPic_spec (s.here.duePic st p c ep).2 n p c ep (st.numberAt p.order)
      (s.here.duePic st p c ep).1 _ rfl
    rw [hdue.sched] at hframes
    refine ⟨_, exec_pictureStart h, rfl, hpic, hbusy, ?encoding, hstream, _, hframes, rfl, rfl, rfl, rfl, rfl, rfl⟩
    case encoding => rw [Dev.flag, hencoding, hdecode]; rfl
  case still =>
    intro s p st id c ep l rows coded hqueue hstream hep hidle hout hclock hkind hparsed herr hsup hw hmaxw hh hmaxh hbudget
    have h : s.here.stillReady p st id c ep l :=
      ⟨hqueue, hstream, hep, hidle, ⟨hout, hclock⟩, hkind, ⟨hparsed, herr, hsup⟩, ⟨⟨hw, hmaxw⟩, hh, hmaxh⟩, hbudget⟩
    obtain ⟨t, hexec, hrest, hleft, hstill, hdone, ahead, hframes⟩ := jpegStill_answers h rows coded
    refine ⟨t, hexec, hrest, hleft, ⟨_, hstill, rfl, rfl, rfl, rfl, ?rows, rfl⟩, hdone, _, hframes, rfl, rfl, rfl, rfl, rfl⟩
    case rows => simp only [stillPic, stillInfo, List.length_map, List.length_range]

end Sys2Proof.Machine
end

section
/-!
SUPPORT. Rows, ends and service of an engine (O22; R264, R272, R273, R279, R280, R287, R292).
-/

namespace Sys2Proof.Machine

/-! ### LINE_RING_GROUP_WRITE -/

theorem dedup_append {l acc : List Nat} (h : (acc ++ l).Nodup) :
    l.foldl (fun acc x => if acc.contains x then acc else acc ++ [x]) acc = acc ++ l := by
  induction l generalizing acc with
  | nil => simp
  | cons x r ih =>
    have hx : acc.contains x = false := by
      rw [Bool.eq_false_iff, Ne, List.contains_iff_mem]
      exact fun hmem => (List.nodup_append.1 h).2.2 x hmem x List.mem_cons_self rfl
    have hmove : acc ++ x :: r = acc ++ [x] ++ r := by simp
    rw [List.foldl_cons, hx, if_neg Bool.false_ne_true, hmove]
    exact ih (hmove ▸ h)

/-- A list without repetition is left as it is. -/
theorem dedup_of_nodup {l : List Nat} (h : l.Nodup) : dedup l = l := dedup_append (acc := []) h

/-- The rows of a group, the blocks of the columns concealed from the stream's reference. -/
def Pic.fixRows (P : Pic) (ref rows : List (List Nat)) (cols : List Nat) : List (List Nat) :=
  rows.zipIdx.map fun r => concealRow P.info.width P.info.groupRows P.info.depth cols ref[P.rowsDone.length + r.2]? r.1

theorem fixRows_length (P : Pic) (ref rows : List (List Nat)) (cols : List Nat) : (P.fixRows ref rows cols).length = rows.length := by
  simp [Pic.fixRows]

theorem fixRows_getElem? (P : Pic) (ref rows : List (List Nat)) (cols : List Nat) (i : Nat) {r : List Nat} (hr : rows[i]? = some r) :
    (P.fixRows ref rows cols)[i]? = some (concealRow P.info.width P.info.groupRows P.info.depth cols ref[P.rowsDone.length + i]? r) := by
  simp [Pic.fixRows, hr]

/-- A picture with a group of rows more. -/
def Pic.grow (P : Pic) (fixed : List (List Nat)) (concealed sub : Nat) : Pic :=
  { P with rowsDone := P.rowsDone ++ fixed, concealed := P.concealed + concealed, firstSub := if P.firstSub = 0 then sub else P.firstSub }

theorem grow_rowsDone (P : Pic) (fixed : List (List Nat)) (concealed sub i : Nat) :
    (i < P.rowsDone.length → (P.grow fixed concealed sub).rowsDone[i]? = P.rowsDone[i]?) ∧
    (P.grow fixed concealed sub).rowsDone[P.rowsDone.length + i]? = fixed[i]? :=
  ⟨fun hi => List.getElem?_append_left hi, by rw [Pic.grow, List.getElem?_append_right (Nat.le_add_right ..), Nat.add_sub_cancel_left]⟩

/-- The engine holds an analysed picture with a group of rows more; the last eight rows are held back from the ring. -/
def Engine.ringGroup (e : Engine) (P : Pic) (fixed : List (List Nat)) (concealed sub : Nat) : Engine :=
  let ring8 := e.heldBack ++ fixed.map fun r => r.map (ringSample P.info.depth)
  { e with pic := some (P.grow fixed concealed sub), src := some (P.grow fixed concealed sub), ring := e.ring ++ ring8.take (ring8.length - 8),
           heldBack := ring8.drop (ring8.length - 8), stalled := false }

theorem ringGroup_rows (e : Engine) (P : Pic) (fixed : List (List Nat)) (concealed sub : Nat) :
    (e.ringGroup P fixed concealed sub).ring.length + (e.ringGroup P fixed concealed sub).heldBack.length =
      e.ring.length + e.heldBack.length + fixed.length := by
  simp only [Engine.ringGroup, List.length_append, List.length_take, List.length_drop, List.length_map]
  omega

section

variable (d : Dev)

theorem decodeErr_engines (unit sub stream frame : Nat) : (d.decodeErr unit sub stream frame).engines = d.engines := by
  unfold Dev.decodeErr
  simp only []
  split <;> simp

theorem decodeErr_cores (unit sub stream frame : Nat) : (d.decodeErr unit sub stream frame).cores = d.cores := by
  unfold Dev.decodeErr
  simp only []
  split <;> simp

/-- A decode error on an engine changes its error counts, its status and the head of the log, and no other register. -/
theorem decodeErr_reg {n sub stream frame o : Nat} (hn : n < 8) (herrs : o ≠ R.COD_ERRS n) (hstatus : o ≠ R.COD_STATUS n)
    (hlog : o ≠ R.TEL_LOG_HEAD) : (d.decodeErr (0x10 + n) sub stream frame).reg o = d.reg o := by
  unfold Dev.decodeErr
  have hsub : 0x10 + n - 0x10 = n := Nat.add_sub_cancel_left ..
  rw [if_pos (by omega), hsub]
  exact (Dev.reg_setFld_ne _ _ _ hstatus).trans ((Dev.reg_setFld_ne _ _ _ herrs).trans (Dev.reg_logEv _ _ hlog))

theorem decodeErr_lastSub {n sub stream frame : Nat} (hn : n < 8) :
    (d.decodeErr (0x10 + n) sub stream frame).fld (R.COD_STATUS n) F.COD_STATUS_last_sub = sub % 256 := by
  unfold Dev.decodeErr
  have hsub : 0x10 + n - 0x10 = n := Nat.add_sub_cancel_left ..
  rw [if_pos (by omega), hsub]
  exact Dev.fld_setFld_same _ _ _ _ (by decide)

/-- Every group counts one, modulo 32 bits. -/
theorem countRows_reg (n : Nat) : (d.wrapFld (R.COD_ROWS n) F.COD_ROWS_rows 1).reg (R.COD_ROWS n) = (d.reg (R.COD_ROWS n) + 1) % 2 ^ 32 := by
  have hl := d.reg_lt (R.COD_ROWS n)
  simp only [Dev.wrapFld, Dev.setFld, Dev.reg_setReg_same, Dev.fld, Fld.put, Fld.get, bits]
  omega

end

/-- The error of a group, where it has one, is recorded. -/
def Dev.groupErr (d : Dev) (n sub : Nat) (P : Pic) : Dev := if sub = 0 then d else d.decodeErr (0x10 + n) sub P.info.stream P.frame

theorem groupErr_spec (d : Dev) {n : Nat} (sub : Nat) (P : Pic) (hn : n < 8) :
    (d.groupErr n sub P).engines = d.engines ∧ (d.groupErr n sub P).reg (R.COD_ROWS n) = d.reg (R.COD_ROWS n) := by
  unfold Dev.groupErr
  split
  · exact ⟨rfl, rfl⟩
  · refine ⟨decodeErr_engines .., decodeErr_reg _ hn ?errs ?status ?log⟩
    case errs => simp only [R.COD_ROWS, R.COD_ERRS]; omega
    case status => simp only [R.COD_ROWS, R.COD_STATUS]; omega
    case log => simp only [R.COD_ROWS, R.TEL_LOG_HEAD]; omega

theorem engineLive_lt {d : Dev} {n : Nat} (h : d.engineLive n = true) : n < 8 := by
  by_contra hn
  simp [Dev.engineLive, hn] at h

section

variable {s : State} {n : Nat} {rows : List (List Nat)} {cols : List Nat} {P : Pic} (hlive : s.here.engineLive n = true)
  (hpic : (s.here.engine n).pic = some P) (hdecode : P.info.encode = false) (hanalyse : P.analyse = true) (hrows : rows ≠ [])
  (hfit : rows.length ≤ P.info.height - P.rowsDone.length) (hcols : cols.Nodup)
include hlive hpic hdecode hanalyse hrows hfit hcols

/-- A group the ring has no room for waits. -/
theorem exec_groupWrite_stalls (sub : Nat)
    (hroom : (s.here.engine n).ringFor P = false ∨ ringRows P.info.width < (s.here.engine n).ring.length + rows.length) :
    exec (.lineRingGroupWrite n rows cols sub) s = .next { s with d := s.here.modEngine n fun e => { e with stalled := true } } := by
  have arm : exec (.lineRingGroupWrite n rows cols sub) s = execLineRingGroupWrite n rows cols sub s := rfl
  have hno : (!(s.here.engine n).ringFor P || decide (ringRows P.info.width < (s.here.engine n).ring.length + rows.length)) = true := by
    obtain h | h := hroom <;> simp [h]
  simp only [arm, execLineRingGroupWrite, onDev_here, hlive, if_true, dedup_of_nodup hcols, Dev.groupWrite, hpic, hdecode, hanalyse,
    List.take_of_length_le hfit, hrows, hno, Bool.true_and, if_false, Bool.false_eq_true]

/-- A group the ring has room for joins the picture's rows and the ring. -/
theorem exec_groupWrite_room (sub : Nat) (hfor : (s.here.engine n).ringFor P = true)
    (hroom : (s.here.engine n).ring.length + rows.length ≤ ringRows P.info.width) (fixed : List (List Nat))
    (hfixed : fixed = P.fixRows (((s.here.stream? P.info.stream).map (·.refPic)).getD []) rows cols) :
    exec (.lineRingGroupWrite n rows cols sub) s = .next { s with
      d := ((s.here.modEngine n fun e => e.ringGroup P fixed cols.length sub).groupErr n sub P).wrapFld (R.COD_ROWS n) F.COD_ROWS_rows 1 } := by
  have arm : exec (.lineRingGroupWrite n rows cols sub) s = execLineRingGroupWrite n rows cols sub s := rfl
  have hhas : (!(s.here.engine n).ringFor P || decide (ringRows P.info.width < (s.here.engine n).ring.length + rows.length)) = false := by
    simp [hfor, hroom]
  simp only [arm, execLineRingGroupWrite, onDev_here, hlive, if_true, dedup_of_nodup hcols, Dev.groupWrite, hpic, hdecode, hanalyse,
    List.take_of_length_le hfit, hrows, hhas, Bool.true_and, if_false, Bool.false_eq_true, hfixed, Engine.ringGroup, Pic.grow]
  rfl

/-- What such a group leaves. -/
theorem groupWrite_answers (sub : Nat) (hfor : (s.here.engine n).ringFor P = true)
    (hroom : (s.here.engine n).ring.length + rows.length ≤ ringRows P.info.width) (fixed : List (List Nat))
    (hfixed : fixed = P.fixRows (((s.here.stream? P.info.stream).map (·.refPic)).getD []) rows cols) :
    Answers (.lineRingGroupWrite n rows cols sub) s fun t => t = { s with d := t.d } ∧
      t.d.engine n = (s.here.engine n).ringGroup P fixed cols.length sub ∧
      t.d.reg (R.COD_ROWS n) = (s.here.reg (R.COD_ROWS n) + 1) % 2 ^ 32 := by
  have hexec := exec_groupWrite_room hlive hpic hdecode hanalyse hrows hfit hcols sub hfor hroom fixed hfixed
  have hsame := engine_modEngine_same s.here n fun e => e.ringGroup P fixed cols.length sub
  have hkept : (s.here.modEngine n fun e => e.ringGroup P fixed cols.length sub).reg (R.COD_ROWS n) = s.here.reg (R.COD_ROWS n) :=
    Dev.reg_congr rfl _
  generalize (s.here.modEngine n fun e => e.ringGroup P fixed cols.length sub) = g at *
  obtain ⟨hengines, hreg⟩ := groupErr_spec g sub P (engineLive_lt hlive)
  refine ⟨_, hexec, rfl, ?engine, ?count⟩
  case engine => rw [← hsame, Dev.engine, Dev.engine, Dev.wrapFld_engines, hengines]
  case count => rw [countRows_reg, hreg, hkept]

end

/-! ### What a picture's end leaves alone -/

/-- The engines and the cores are as they were. -/
structure Dev.SameUnits (d e : Dev) : Prop where
  engines : e.engines = d.engines
  cores : e.cores = d.cores

theorem Dev.SameUnits.refl (d : Dev) : Dev.SameUnits d d := ⟨rfl, rfl⟩

theorem Dev.SameUnits.trans {d e f : Dev} (h : Dev.SameUnits d e) (g : Dev.SameUnits e f) : Dev.SameUnits d f :=
  ⟨g.engines.trans h.engines, g.cores.trans h.cores⟩

theorem Dev.SameUnits.engine {d e : Dev} (h : Dev.SameUnits d e) (n : Nat) : e.engine n = d.engine n := by rw [Dev.engine, h.engines, Dev.engine]

theorem Dev.PoolOnly.sameUnits {d e : Dev} (h : Dev.PoolOnly d e) : Dev.SameUnits d e := by
  rw [h.rest]
  exact ⟨rfl, rfl⟩

theorem Dev.StreamWork.sameUnits {d e : Dev} (h : Dev.StreamWork d e) : Dev.SameUnits d e := ⟨h.engines, h.cores⟩

/-- The engines, their status and the cores are as they were. -/
structure Dev.PicWork (d e : Dev) : Prop extends Dev.SameUnits d e where
  status : ∀ k < 8, e.reg (R.COD_STATUS k) = d.reg (R.COD_STATUS k)

theorem Dev.PicWork.refl (d : Dev) : Dev.PicWork d d := ⟨.refl d, fun _ _ => rfl⟩

theorem Dev.PicWork.trans {d e f : Dev} (h : Dev.PicWork d e) (g : Dev.PicWork e f) : Dev.PicWork d f :=
  ⟨h.toSameUnits.trans g.toSameUnits, fun k hk => (g.status k hk).trans (h.status k hk)⟩

theorem codStatus_aside {k : Nat} (hk : k < 8) : aside (R.COD_STATUS k) := codReg_aside (o := 0) hk (by decide)

theorem Dev.StreamWork.picWork {d e : Dev} (h : Dev.StreamWork d e) : Dev.PicWork d e :=
  ⟨h.sameUnits, fun _ hk => h.regs _ (codStatus_aside hk)⟩

theorem Dev.VoidOnly.picWork {d e : Dev} (h : Dev.VoidOnly d e) : Dev.PicWork d e :=
  ⟨⟨by rw [h.rest], by rw [h.rest]⟩, fun _ hk => h.marks _ (codStatus_aside hk)⟩

section

variable (d : Dev)

theorem picWork_logEv (e : LogEntry) : Dev.PicWork d (d.logEv e) :=
  ⟨⟨Dev.logEv_engines .., Dev.logEv_cores ..⟩, fun k _ => d.reg_logEv e (by simp only [R.COD_STATUS, R.TEL_LOG_HEAD]; omega)⟩

theorem picWork_countConcealed (n : Nat) : Dev.PicWork d (d.satFld (R.COD_ERRS n) F.COD_ERRS_concealed 1) :=
  ⟨⟨Dev.satFld_engines .., Dev.satFld_cores ..⟩, fun k _ => Dev.reg_setFld_ne _ _ _ (by simp only [R.COD_STATUS, R.COD_ERRS]; omega)⟩

theorem picWork_modFrame (id num : Nat) (g : Frame → Frame) : Dev.PicWork d (d.modFrame id num false g) := ⟨⟨rfl, rfl⟩, fun _ _ => rfl⟩

theorem picWork_concealment (id num : Nat) (ep : Epoch) (frac sub : Nat) (recs : List (List Byte)) (unit : Nat) :
    Dev.PicWork d (d.concealment id num ep frac sub recs unit) := by
  unfold Dev.concealment
  have hlog : ∀ y, Dev.PicWork d (if frac = 0 then d else d.logEv y) := fun y => by
    split
    · exact .refl d
    · exact picWork_logEv d y
  have hmarked := fun y g => (hlog y).trans (picWork_modFrame _ id num g)
  simp only []
  split
  · split
    · exact (hmarked _ _).trans (Dev.voidOnly_voidFrame ..).picWork
    · exact hmarked _ _
  · exact hmarked _ _

theorem picWork_endBudget (P : Pic) (within : Bool) (lag refLag : Nat) (cap : Bool) : Dev.PicWork d (d.endBudget P within lag refLag cap).2 := by
  unfold Dev.endBudget
  split
  · split
    · exact .refl d
    · exact (d.streamWork_setBudget ..).picWork
  · exact .refl d

/-! ### The history of an encode, whatever the number of its pool -/

theorem sameUnits_setFld (o : Nat) (f : Fld) (n : Nat) : Dev.SameUnits d (d.setFld o f n) := ⟨Dev.setFld_engines .., Dev.setFld_cores ..⟩

theorem sameUnits_health (a b c x y : Nat) : Dev.SameUnits d (d.health a b c x y) := ⟨Dev.health_engines .., Dev.health_cores ..⟩

theorem sameUnits_bpm (b : Bpm) : Dev.SameUnits d { d with bpm := b } := ⟨rfl, rfl⟩

theorem sameUnits_setBuf (h : Nat) (b : Buf) : Dev.SameUnits d (d.setBuf h b) := ⟨rfl, rfl⟩

theorem sameUnits_startRebuild (p : Nat) : Dev.SameUnits d (d.startRebuild p) :=
  (sameUnits_setFld d (R.BPM_POOL_STAT p) F.BPM_POOL_STAT_state 3).trans ⟨rfl, rfl⟩

theorem sameUnits_lowFell (p : Nat) : Dev.SameUnits d (d.lowFell p) := by
  unfold Dev.lowFell
  simp only []
  split_ifs <;> exact ⟨by simp, by simp⟩

theorem sameUnits_popOne (p n : Nat) : Dev.SameUnits d (d.popOne p n).2 := by
  unfold Dev.popOne
  simp only []
  split
  · exact .refl d
  split
  · exact .refl d
  next i _ =>
    have hread := (d.storesOnly_noteRead (span (d.bufAddr (mkHandle p i)) 16)).pool.sameUnits
    generalize d.noteRead (span (d.bufAddr (mkHandle p i)) 16) = e at hread ⊢
    split
    · exact hread.trans (.trans (sameUnits_bpm e _) (.trans (sameUnits_setBuf ..) (sameUnits_lowFell _ p)))
    · have hmarked : ∀ b : Bool, Dev.SameUnits e (if b then e.setBuf (mkHandle p i) ⟨.quarantined, 0⟩ else e) := fun b => by
        split
        · exact sameUnits_setBuf ..
        · exact .refl e
      refine hread.trans (.trans ?_ (.trans (sameUnits_setFld ..) (.trans (sameUnits_health ..) (sameUnits_startRebuild _ p))))
      exact hmarked _

theorem sameUnits_pop (p n : Nat) : Dev.SameUnits d (d.pop p n).2 := by
  have hone := sameUnits_popOne d p n
  unfold Dev.pop
  split
  next heq => rwa [heq] at hone
  next e heq =>
    rw [heq] at hone
    have hchain := hone.trans (e.poolOnly_popChain n (e.fld (R.BPM_POOL_CFG p) F.BPM_POOL_CFG_fb_depth) p).sameUnits
    split
    · split
      next heq' =>
        rw [heq'] at hchain
        exact hchain.trans (sameUnits_setFld ..)
      next heq' => rwa [heq'] at hchain
    · exact hone

theorem streamWork_histDrop (id : Nat) : Dev.StreamWork d (d.histDrop id) := by
  unfold Dev.histDrop
  split
  · exact (d.streamWork_modStream ..).trans (Dev.streamWork_refDec ..)
  · exact .refl d

theorem sameUnits_histPop (id pool n : Nat) : Dev.SameUnits d (d.histPop id pool n).2 := by
  induction n generalizing d with
  | zero => exact .refl d
  | succ n ih =>
    unfold Dev.histPop
    have hpop := sameUnits_pop d pool 1
    generalize d.pop pool 1 = r at *
    obtain ⟨_ | h, e⟩ := r
    · dsimp only
      split
      · exact hpop
      · exact hpop.trans ((streamWork_histDrop e id).sameUnits.trans (ih _))
    · exact hpop

theorem sameUnits_histAdd (id : Nat) (c : CodecSet) (x : HistItem) (b : List Byte) : Dev.SameUnits d (d.histAdd id c x b) := by
  unfold Dev.histAdd
  split
  · exact .refl d
  next st _ =>
    have hroom : Dev.SameUnits d (if b.length ≤ d.poolSize c.histPool then d.histPop id c.histPool (st.history.length + 1) else (none, d)).2 := by
      split
      · exact sameUnits_histPop ..
      · exact .refl d
    generalize (if b.length ≤ d.poolSize c.histPool then d.histPop id c.histPool (st.history.length + 1) else (none, d)) = r at *
    obtain ⟨_ | h, e⟩ := r
    · dsimp only
      split
      · exact hroom
      · exact hroom.trans (.trans ⟨Dev.health_engines .., Dev.health_cores ..⟩ (Dev.streamWork_modStream ..).sameUnits)
    · exact hroom.trans ((Dev.streamWork_writeRun ..).trans (Dev.streamWork_modStream ..)).sameUnits

end

/-! ### The end of a picture -/

section

variable (d : Dev)

/-- The loads leave the status of the engines and the cores alone. -/
theorem syncLoads_kept : d.syncLoads.engines = d.engines ∧ d.syncLoads.cores = d.cores ∧
    ∀ k, d.syncLoads.reg (R.COD_STATUS k) = d.reg (R.COD_STATUS k) := by
  have hreg : ∀ k, d.syncLoads.reg (R.COD_STATUS k) = d.reg (R.COD_STATUS k) := fun k =>
    syncLoads_reg d fun j _ => by simp only [R.COD_STATUS, R.COD_LOAD]; omega
  obtain ⟨r, hr⟩ := syncLoads_regs d
  refine ⟨?engines, ?cores, hreg⟩
  case engines => rw [hr]
  case cores => rw [hr]

/-- An engine off serves no stream. -/
def Dev.dropLoads (d : Dev) (n : Nat) : Dev := (d.modEngine n fun e => { e with loads := [] }).syncLoads

theorem dropLoads_kept (n : Nat) : (d.dropLoads n).engine n = { d.engine n with loads := [] } ∧ (d.dropLoads n).cores = d.cores ∧
    ∀ k, (d.dropLoads n).reg (R.COD_STATUS k) = d.reg (R.COD_STATUS k) := by
  obtain ⟨hengines, hcores, hreg⟩ := syncLoads_kept (d.modEngine n fun e => { e with loads := [] })
  refine ⟨?engine, hcores, hreg⟩
  rw [Dev.dropLoads, Dev.engine, hengines]
  exact engine_modEngine_same ..

/-- The service state of an engine is v, with no new enable pending. -/
def Dev.settle (d : Dev) (n v : Nat) : Dev := (d.setFld (R.COD_STATUS n) F.COD_STATUS_enable_pending 0).setFld (R.COD_STATUS n) F.COD_STATUS_svc v

theorem settle_kept (n v : Nat) : (d.settle n v).engines = d.engines ∧ (d.settle n v).cores = d.cores ∧
    (d.settle n v).fld (R.COD_STATUS n) F.COD_STATUS_busy = d.fld (R.COD_STATUS n) F.COD_STATUS_busy ∧
    (d.settle n v).fld (R.COD_STATUS n) F.COD_STATUS_last_sub = d.fld (R.COD_STATUS n) F.COD_STATUS_last_sub := by
  refine ⟨(Dev.setFld_engines ..).trans (Dev.setFld_engines ..), (Dev.setFld_cores ..).trans (Dev.setFld_cores ..), ?busy, ?lastSub⟩
  all_goals rw [Dev.settle, Dev.fld_setFld_other _ _ _ (by decide) (by decide), Dev.fld_setFld_other _ _ _ (by decide) (by decide)]

/-- What e leaves of d's engine n that is idle: it is not busy, and serves its streams or none. -/
structure Dev.Idled (d e : Dev) (n : Nat) : Prop where
  engine : ∃ l, e.engine n = { d.engine n with loads := l }
  busy : e.fld (R.COD_STATUS n) F.COD_STATUS_busy = 0
  lastSub : e.fld (R.COD_STATUS n) F.COD_STATUS_last_sub = d.fld (R.COD_STATUS n) F.COD_STATUS_last_sub
  cores : e.cores = d.cores

theorem Dev.Idled.settle {d e : Dev} {n : Nat} (h : Dev.Idled d e n) (v : Nat) : Dev.Idled d (e.settle n v) n := by
  obtain ⟨hengines, hcores, hbusy, hlast⟩ := settle_kept e n v
  refine ⟨?_, hbusy.trans h.busy, hlast.trans h.lastSub, hcores.trans h.cores⟩
  rw [Dev.engine, hengines]
  exact h.engine

theorem Dev.Idled.dropLoads {d e : Dev} {n : Nat} (h : Dev.Idled d e n) : Dev.Idled d (e.dropLoads n) n := by
  obtain ⟨hengine, hcores, hreg⟩ := dropLoads_kept e n
  obtain ⟨l, hl⟩ := h.engine
  rw [hl] at hengine
  exact ⟨⟨[], hengine⟩, (congrArg F.COD_STATUS_busy.get (hreg n)).trans h.busy, (congrArg F.COD_STATUS_last_sub.get (hreg n)).trans h.lastSub,
    hcores.trans h.cores⟩

theorem engineIdle_idled (n : Nat) : Dev.Idled d (d.engineIdle n) n := by
  have hclear : Dev.Idled d (d.setFld (R.COD_STATUS n) F.COD_STATUS_busy 0) n :=
    ⟨⟨_, rfl⟩, Dev.fld_setFld_same _ _ _ _ (by decide), Dev.fld_setFld_other _ _ _ (by decide) (by decide), Dev.setFld_cores ..⟩
  unfold Dev.engineIdle
  simp only []
  generalize d.setFld (R.COD_STATUS n) F.COD_STATUS_busy 0 = e at hclear ⊢
  split
  · split
    · exact hclear.settle _
    · exact (hclear.settle _).dropLoads
  · exact hclear

/-- Rows that are missing at the end are an error of the engine. -/
def Dev.missErr (d : Dev) (n : Nat) (P : Pic) (cap : Bool) : Dev :=
  if P.info.height - P.rowsDone.length = 0 then d else d.decodeErr (0x10 + n) (if cap then 8 else 5) P.info.stream P.frame

theorem missErr_sameUnits (n : Nat) (P : Pic) (cap : Bool) : Dev.SameUnits d (d.missErr n P cap) := by
  unfold Dev.missErr
  split
  · exact .refl d
  · exact ⟨decodeErr_engines .., decodeErr_cores ..⟩

theorem missErr_lastSub {n : Nat} {P : Pic} (hn : n < 8) (hmiss : P.rowsDone.length < P.info.height) :
    (d.missErr n P true).fld (R.COD_STATUS n) F.COD_STATUS_last_sub = 8 := by
  rw [Dev.missErr, if_neg (by omega), decodeErr_lastSub d hn]
  rfl

/-- The end of a decode: the error of the missing rows, work on the stream, the engine gives the picture up, the frame and the chunks, and the
engine is idle. -/
theorem endDecode_stages (n : Nat) (P : Pic) (cycles lag refLag : Nat) (cap : Bool) : ∃ g tail e,
    d.endDecode n P cycles lag refLag cap = e.engineIdle n ∧ Dev.PicWork (d.missErr n P cap) g ∧
    Dev.PicWork (g.modEngine n fun x => x.endPic P tail) e := by
  have hcount : ∀ (c : Nat) (x : Dev), Dev.PicWork x (if c = 0 then x else x.satFld (R.COD_ERRS n) F.COD_ERRS_concealed 1) := fun c x => by
    split
    · exact .refl x
    · exact picWork_countConcealed x n
  have hshow : ∀ (b : Bool) (x y : Dev), Dev.PicWork x y → Dev.PicWork x (if b then y else x) := fun b x y hy => by
    split
    · exact hy
    · exact .refl x
  refine ⟨_, _, _, rfl, ?before, (hshow _ _ _ (picWork_concealment ..)).trans (Dev.streamWork_useChunks ..).picWork⟩
  exact (hcount _ _).trans ((Dev.streamWork_modStream ..).picWork.trans ((Dev.streamWork_countCycles ..).picWork.trans
    ((picWork_endBudget ..).trans (Dev.streamWork_modStream ..).picWork)))

end

theorem endPic_gone (e : Engine) (P : Pic) (tail : List (List Nat)) : (e.endPic P tail).pic = none ∧ (e.endPic P tail).stalled = false ∧
    (P.analyse = true → (e.endPic P tail).src = some { P with rowsDone := [] }) := by
  unfold Engine.endPic
  split
  · exact ⟨rfl, rfl, fun _ => rfl⟩
  · next h => exact ⟨rfl, rfl, fun ha => absurd ha h⟩

/-- Engine n has given its picture up; the cores are as they were. -/
structure Dev.PicGone (d e : Dev) (n : Nat) : Prop where
  pic : (e.engine n).pic = none
  stalled : (e.engine n).stalled = false
  busy : e.flag (R.COD_STATUS n) F.COD_STATUS_busy = false
  cores : e.cores = d.cores

/-- An idle engine that has given its picture up. -/
theorem engineIdle_gone {d e : Dev} {n : Nat} {x : Engine} (hengine : e.engine n = x) (hpic : x.pic = none) (hstalled : x.stalled = false)
    (hcores : e.cores = d.cores) : Dev.PicGone d (e.engineIdle n) n ∧ ((e.engineIdle n).engine n).src = x.src := by
  have hidle := engineIdle_idled e n
  obtain ⟨l, hl⟩ := hidle.engine
  rw [hengine] at hl
  refine ⟨⟨by rw [hl]; exact hpic, by rw [hl]; exact hstalled, ?busy, hidle.cores.trans hcores⟩, by rw [hl]⟩
  rw [Dev.flag, hidle.busy]
  rfl

section

variable (d : Dev) (n : Nat) (P : Pic)

theorem endDecode_spec (cycles lag refLag : Nat) (cap : Bool) : Dev.PicGone d (d.endDecode n P cycles lag refLag cap) n ∧
    (P.analyse = true → ((d.endDecode n P cycles lag refLag cap).engine n).src = some { P with rowsDone := [] }) ∧
    (n < 8 → cap = true → P.rowsDone.length < P.info.height →
      (d.endDecode n P cycles lag refLag cap).fld (R.COD_STATUS n) F.COD_STATUS_last_sub = 8) := by
  obtain ⟨g, tail, e, hend, hbefore, hafter⟩ := endDecode_stages d n P cycles lag refLag cap
  obtain ⟨hpic, hstalled, hsrc⟩ := endPic_gone (g.engine n) P tail
  have hengine : e.engine n = (g.engine n).endPic P tail := (hafter.engine n).trans (engine_modEngine_same g n _)
  have hcores : e.cores = d.cores := hafter.cores.trans (hbefore.cores.trans (missErr_sameUnits d n P cap).cores)
  obtain ⟨hgone, hleft⟩ := engineIdle_gone hengine hpic hstalled hcores
  rw [hend]
  refine ⟨hgone, fun ha => hleft.trans (hsrc ha), ?lastSub⟩
  case lastSub =>
    rintro hn rfl hmiss
    have hstatus : e.reg (R.COD_STATUS n) = (d.missErr n P true).reg (R.COD_STATUS n) := (hafter.status n hn).trans (hbefore.status n hn)
    exact ((engineIdle_idled e n).lastSub.trans (congrArg F.COD_STATUS_last_sub.get hstatus)).trans (missErr_lastSub d hn hmiss)

theorem endEncode_gone (coded : List Byte) : Dev.PicGone d (d.endEncode n P coded) n := by
  unfold Dev.endEncode
  simp only []
  have hgive : (d.modEngine n fun e => { e with pic := none, stalled := false }).cores = d.cores := rfl
  have hengine := engine_modEngine_same d n fun e => { e with pic := none, stalled := false }
  generalize d.modEngine n (fun e => { e with pic := none, stalled := false }) = g at *
  have hwork : ∀ x b, Dev.SameUnits g
      ((if P.ep.codec.histMs = 0 then g else g.histAdd P.info.stream P.ep.codec x b).useChunks P.info.stream P.info.used) := fun x b => by
    refine .trans ?_ (Dev.streamWork_useChunks ..).sameUnits
    split
    · exact .refl g
    · exact sameUnits_histAdd ..
  exact (engineIdle_gone (((hwork _ _).engine n).trans hengine) rfl rfl ((hwork _ _).cores.trans hgive)).1

end

section

variable {s : State} {n : Nat} {P : Pic} (hlive : s.here.engineLive n = true) (hpic : (s.here.engine n).pic = some P)
  (hring : P.info.encode = false → P.analyse = true → (s.here.engine n).ringFor P = true)
include hlive hpic hring

theorem exec_pictureComplete (cycles lag refLag : Nat) (coded : List Byte) : exec (.pictureComplete n cycles lag refLag coded) s =
    .next { s with d := if P.info.encode then s.here.endEncode n P coded else s.here.endDecode n P cycles lag refLag false } := by
  have arm : exec (.pictureComplete n cycles lag refLag coded) s = execPictureComplete n cycles lag refLag coded s := rfl
  simp only [arm, execPictureComplete, onDev_here, hpic, hlive, Option.filter_some, if_true]
  split
  · rfl
  · next hdecode =>
    rw [if_neg]
    have hfor := hring (Bool.eq_false_iff.2 hdecode)
    by_cases ha : P.analyse = true <;> simp [ha, hfor]

theorem exec_hardCapAbort (hdecode : P.info.encode = false) : ∃ cycles, exec (.hardCapAbort n) s =
    .next { s with d := s.here.endDecode n P cycles 0 0 true } := by
  have arm : exec (.hardCapAbort n) s = execHardCapAbort n s := rfl
  have hfor := hring hdecode
  have hgo : (P.info.encode || (P.analyse && !(s.here.engine n).ringFor P)) = false := by
    by_cases ha : P.analyse = true <;> simp [ha, hfor, hdecode]
  simp only [arm, execHardCapAbort, onDev_here, hpic, hlive, Option.filter_some, if_true, hgo, Bool.false_eq_true, if_false]
  exact ⟨_, rfl⟩

end

/-! ### COD_CTL -/

section

variable (d : Dev)

/-- COD_CTL of engine n takes the enable, COD_STATUS the service state and the pending enable. -/
def Dev.setService (d : Dev) (n : Nat) (on : Bool) (next : Nat × Bool) : Dev :=
  ((d.setFld (R.COD_CTL n) F.COD_CTL_enable (b2n on)).setFld (R.COD_STATUS n) F.COD_STATUS_svc next.1).setFld (R.COD_STATUS n)
    F.COD_STATUS_enable_pending (b2n next.2)

theorem setService_rest (n : Nat) (on : Bool) (next : Nat × Bool) :
    d.setService n on next = { d with regs := (d.setService n on next).regs } := by
  apply Dev.eq_of <;> simp [Dev.setService]

theorem b2n_flag (b : Bool) : decide (b2n b % 2 ^ 1 ≠ 0) = b := by cases b <;> rfl

theorem setService_fields (n : Nat) (on : Bool) (next : Nat × Bool) :
    (d.setService n on next).flag (R.COD_CTL n) F.COD_CTL_enable = on ∧
    (d.setService n on next).fld (R.COD_STATUS n) F.COD_STATUS_svc = next.1 % 4 ∧
    (d.setService n on next).flag (R.COD_STATUS n) F.COD_STATUS_enable_pending = next.2 := by
  have hne : R.COD_CTL n ≠ R.COD_STATUS n := by simp only [R.COD_CTL, R.COD_STATUS]; omega
  refine ⟨?enable, ?svc, ?pending⟩
  case enable =>
    rw [Dev.flag, Dev.setService, Dev.fld_setFld_ne _ _ _ _ hne, Dev.fld_setFld_ne _ _ _ _ hne, Dev.fld_setFld_same _ _ _ _ (by decide)]
    exact b2n_flag on
  case svc => rw [Dev.setService, Dev.fld_setFld_other _ _ _ (by decide) (by decide), Dev.fld_setFld_same _ _ _ _ (by decide)]; rfl
  case pending =>
    rw [Dev.flag, Dev.setService, Dev.fld_setFld_same _ _ _ _ (by decide)]
    exact b2n_flag next.2

theorem dropLoads_rest (n : Nat) : ∃ r m, d.dropLoads n = { d with regs := r, engines := m } := by
  obtain ⟨r, hr⟩ := syncLoads_regs (d.modEngine n fun e => { e with loads := [] })
  exact ⟨r, _, hr⟩

theorem dropLoads_control (n : Nat) : (d.dropLoads n).reg (R.COD_CTL n) = d.reg (R.COD_CTL n) :=
  syncLoads_reg _ fun k _ => by simp only [R.COD_CTL, R.COD_LOAD]; omega

end

/-- A disabled engine serves no stream. -/
def Dev.serve (d : Dev) (n : Nat) (on : Bool) (next : Nat × Bool) : Dev :=
  if on then d.setService n on next else (d.setService n on next).dropLoads n

/-- Next to registers the engines change, of engine n the loads alone. -/
theorem serve_spec (d : Dev) (n : Nat) (on : Bool) (next : Nat × Bool) : ∃ r m, d.serve n on next = { d with regs := r, engines := m } ∧
    (d.serve n on next).engine n = { d.engine n with loads := if on then (d.engine n).loads else [] } ∧
    (d.serve n on next).flag (R.COD_CTL n) F.COD_CTL_enable = on ∧
    (d.serve n on next).fld (R.COD_STATUS n) F.COD_STATUS_svc = next.1 % 4 ∧
    (d.serve n on next).flag (R.COD_STATUS n) F.COD_STATUS_enable_pending = next.2 := by
  have hrest := setService_rest d n on next
  have hfields := setService_fields d n on next
  have hengine : (d.setService n on next).engine n = d.engine n := by simp only [Dev.setService, Dev.engine, Dev.setFld_engines]
  generalize hg : d.setService n on next = g at *
  cases on with
  | true =>
    have hserve : d.serve n true next = g := (if_pos rfl).trans hg
    rw [hserve]
    exact ⟨g.regs, d.engines, hrest, hengine, hfields⟩
  | false =>
    have hserve : d.serve n false next = g.dropLoads n := (if_neg Bool.false_ne_true).trans (congrArg (Dev.dropLoads · n) hg)
    obtain ⟨hfree, -, hstatus⟩ := dropLoads_kept g n
    obtain ⟨r, m, hdrop⟩ := dropLoads_rest g n
    obtain ⟨henable, hsvc, hpending⟩ := hfields
    rw [hserve]
    rw [hengine] at hfree
    refine ⟨r, m, by rw [hdrop, hrest], hfree, ?enable, (congrArg F.COD_STATUS_svc.get (hstatus n)).trans hsvc, ?pending⟩
    case enable => rw [← henable, Dev.flag, Dev.flag, Dev.fld, Dev.fld, dropLoads_control]
    case pending => rw [← hpending, Dev.flag, Dev.flag, Dev.fld, Dev.fld, hstatus]

/-- The service state of engine n after a write of the enable. -/
def Dev.nextService (d : Dev) (n : Nat) (on : Bool) : Nat × Bool :=
  svcNext (d.fld (R.COD_STATUS n) F.COD_STATUS_svc) (d.flag (R.COD_STATUS n) F.COD_STATUS_enable_pending) on (d.engine n).pic.isSome

/-- The next service state of an engine (R292). -/
theorem svcNext_spec (svc : Nat) (pend on busy : Bool) :
    (on = true → svc = 0 → svcNext svc pend on busy = (1, false)) ∧ (on = true → svc = 2 → svcNext svc pend on busy = (2, true)) ∧
    (on = false → svc = 1 → svcNext svc pend on busy = (if busy then 2 else 0, false)) := by
  refine ⟨?_, ?_, ?_⟩ <;> rintro rfl rfl
  · rfl
  · rfl
  · cases busy <;> rfl

section

variable {s : State} {n : Nat} {v : Word} (hn : n < 8) (hopen : s.here.regOpen (R.COD_CTL n) = true) (hlive : 0x10 + n ∉ s.here.recov.deadUnits)
include hn hopen hlive

theorem exec_codCtlWrite : exec (.codCtlWrite n v) s = .next { s with d := s.here.serve n (v.getLsbD 0) (s.here.nextService n (v.getLsbD 0)) } := by
  have arm : exec (.codCtlWrite n v) s = execCodCtlWrite n v s := rfl
  have hne : R.COD_STATUS n ≠ R.COD_CTL n := by simp only [R.COD_CTL, R.COD_STATUS]; omega
  have hdead : s.here.recov.deadUnits.contains (0x10 + n) = false := by simpa using hlive
  have hfld := fun f => s.here.fld_setFld_ne F.COD_CTL_enable f (b2n (v.getLsbD 0)) hne
  have hclosed : (decide (8 ≤ n) || !s.here.regOpen (R.COD_CTL n)) = false := by simp [hopen, hn]
  simp only [arm, execCodCtlWrite, onDev_here, hclosed, hdead, Bool.false_eq_true, if_false, Dev.flag, hfld]
  rfl

end

/-! ### The statement -/

/-- Settles O22: a group with room is the engine's ring group and one count; every end of a picture is work that leaves the engines alone, the
engine's own give-up and an idle engine; COD_CTL sets the fields that the table of service states names. -/
theorem picturesEnd : Obligations.PicturesEnd := by
  refine ⟨?group, ?ends, ?control⟩
  case group =>
    intro s n sub rows cols P hlive hpic hdecode hanalyse hrows hfit hcols
    refine ⟨fun hfor hroom => ?room, exec_groupWrite_stalls hlive hpic hdecode hanalyse hrows hfit hcols sub⟩
    obtain ⟨t, hexec, hrest, hengine, hcount⟩ := groupWrite_answers hlive hpic hdecode hanalyse hrows hfit hcols sub hfor hroom _ rfl
    generalize hfixed : P.fixRows (((s.here.stream? P.info.stream).map (·.refPic)).getD []) rows cols = fixed at hengine
    have hlength : fixed.length = rows.length := by rw [← hfixed, fixRows_length]
    refine ⟨t, hexec, hrest, ⟨P.grow fixed cols.length sub, ?pic, ?src, ?length, rfl, rfl, rfl, fun i => ⟨?old, fun r hr => ?new⟩⟩, ?ring,
      hcount⟩
    case pic => rw [hengine, Engine.ringGroup]
    case src => rw [hengine, Engine.ringGroup]
    case length => rw [Pic.grow, List.length_append, hlength]
    case old => exact (grow_rowsDone P fixed cols.length sub i).1
    case new => rw [(grow_rowsDone P fixed cols.length sub i).2, ← hfixed, fixRows_getElem? _ _ _ _ _ hr]
    case ring => rw [hengine, ringGroup_rows, hlength]
  case ends =>
    intro s n cycles lag refLag coded P hlive hpic hring
    refine ⟨⟨_, exec_pictureComplete hlive hpic hring cycles lag refLag coded, rfl, ?complete⟩, fun hdecode => ?abort⟩
    case complete =>
      cases hencode : P.info.encode with
      | true =>
        obtain ⟨hgone, hstalled, hbusy, hcores⟩ := endEncode_gone s.here n P coded
        exact ⟨hgone, hstalled, hbusy, fun h => Bool.noConfusion h, hcores⟩
      | false =>
        obtain ⟨⟨hgone, hstalled, hbusy, hcores⟩, hsrc, -⟩ := endDecode_spec s.here n P cycles lag refLag false
        exact ⟨hgone, hstalled, hbusy, fun _ => hsrc, hcores⟩
    case abort =>
      obtain ⟨c, hexec⟩ := exec_hardCapAbort hlive hpic hring hdecode
      obtain ⟨⟨hgone, hstalled, hbusy, hcores⟩, -, hlast⟩ := endDecode_spec s.here n P c 0 0 true
      exact ⟨_, hexec, rfl, hgone, hstalled, hbusy, hlast (engineLive_lt hlive) rfl, hcores⟩
  case control =>
    intro s n v hn hopen hlive
    obtain ⟨r, m, hrest, hengine, henable, hsvc, hpend⟩ := serve_spec s.here n (v.getLsbD 0) (s.here.nextService n (v.getLsbD 0))
    obtain ⟨hon, hagain, hoff⟩ := svcNext_spec (s.here.fld (R.COD_STATUS n) F.COD_STATUS_svc)
      (s.here.flag (R.COD_STATUS n) F.COD_STATUS_enable_pending) (v.getLsbD 0) (s.here.engine n).pic.isSome
    refine ⟨_, exec_codCtlWrite hn hopen hlive, ?rest, henable,
      ⟨fun h1 h2 => ?on, fun h1 h2 => ?again, fun h1 h2 h3 => ?off, fun h1 h2 h3 => ?stop⟩, ?pic⟩
    case rest => rw [hrest]
    case on => rw [hsvc, hpend, Dev.nextService, hon h1 h2]; exact ⟨rfl, rfl⟩
    case again => rw [hsvc, hpend, Dev.nextService, hagain h1 h2]; exact ⟨rfl, rfl⟩
    case off =>
      rw [hsvc, hengine, Dev.nextService, hoff h1 h2, h3, h1]
      exact ⟨rfl, rfl⟩
    case stop =>
      rw [hsvc, hpend, Dev.nextService, hoff h1 h2, if_pos (Option.isSome_iff_ne_none.2 h3)]
      exact ⟨rfl, rfl⟩
    case pic => rw [hengine]

end Sys2Proof.Machine
end

section
/-!
SUPPORT. FEED, ENCODE, CLIP_REQ, RELEASE and the end of history (O33; R290, R291, R379, R381): what a command's work leaves alone until it is
answered, a buffer taken and filled, a chunk that joins its stream.
-/

namespace Sys2Proof.Machine

/-! ### Work of a command before its answer -/

/-- The cores and what an answer rests on are as they were, up to more that has been sent. -/
structure Dev.CmdWork (d e : Dev) : Prop where
  sent : Dev.SentMore d e
  link : e.reg R.HIF_LINK_STATUS = d.reg R.HIF_LINK_STATUS
  admin : e.reg R.QUE_ADMIN_CFG = d.reg R.QUE_ADMIN_CFG
  cores : e.cores = d.cores

theorem Dev.CmdWork.trans {d e f : Dev} (h : Dev.CmdWork d e) (g : Dev.CmdWork e f) : Dev.CmdWork d f :=
  ⟨h.sent.trans g.sent, g.link.trans h.link, g.admin.trans h.admin, g.cores.trans h.cores⟩

theorem Dev.CmdWork.of_eq {d e : Dev} (hque : e.que = d.que) (hhost : e.host = d.host) (hregs : e.regs = d.regs) (hcores : e.cores = d.cores) :
    Dev.CmdWork d e := ⟨.of_eq hque hhost, Dev.reg_congr hregs _, Dev.reg_congr hregs _, hcores⟩

theorem Dev.StreamWork.cmdWork {d e : Dev} (h : Dev.StreamWork d e) : Dev.CmdWork d e :=
  ⟨h.sent, h.regs _ (by simp only [aside, R.HIF_LINK_STATUS]; omega), h.regs _ (by simp only [aside, R.QUE_ADMIN_CFG]; omega), h.cores⟩

/-- The answer behind such work changes the queues and what is sent alone. -/
theorem Dev.accepts.workDone {s : State} {g : Dev} {op q : Nat} {e : List Byte} {x : Sq} {c : Cq} {i : Instr} {status : Nat} {result : List Byte}
    (h : s.here.accepts op q e x c) (hwork : Dev.CmdWork (s.here.fetched q) g)
    (hexec : exec i s = .next { s with d := g.reply q e status result }) :
    Answers i s fun t => t = { s with d := t.d } ∧ s.here.answered t.d q e x c status result ∧ t.d.streams = g.streams ∧ t.d.bpm = g.bpm ∧
      t.d.sched = g.sched ∧ t.d.que.wait = g.que.wait ∧ t.d.cores = s.here.cores := by
  obtain ⟨hrest, -, hans⟩ := h.reply_behind hwork.sent (hwork.link.trans (h.fetched_reg _)) (hwork.admin.trans (h.fetched_reg _)) status result
  have hcores : g.cores = s.here.cores := hwork.cores.trans (by rw [h.fetched])
  generalize g.reply q e status result = t at hrest hans hexec
  refine ⟨_, hexec, rfl, hans, ?streams, ?bpm, ?sched, ?wait, ?cores⟩
  case cores => exact (congrArg Dev.cores hrest).trans hcores
  all_goals
    dsimp only
    rw [hrest]

/-! ### A buffer taken and filled -/

theorem storesOnly_bpm {d e : Dev} (h : Dev.StoresOnly d e) : e.bpm = d.bpm := by rw [h.rest]

section

variable {d g : Dev} {p i : Nat}

/-- Device g: the head of pool p is taken, and then at most bytes are read and written. -/
structure Dev.Filled (d g : Dev) (p i : Nat) : Prop where
  pool : Dev.PoolOnly d g
  sent : Dev.SentMore d g
  buf : mget g.bpm.bufs (mkHandle p i) = some ⟨.allocated, 1⟩

theorem filled_of_stores (h : d.canPop p i) (hstores : Dev.StoresOnly (d.takeHead p (mkHandle p i) 1) g)
    (hsent : Dev.SentMore (d.takeHead p (mkHandle p i) 1) g) : Dev.Filled d g p i := by
  obtain ⟨hbuf, -⟩ := takeHead_popped d p i 1
  rw [← storesOnly_bpm hstores] at hbuf
  exact ⟨(takeHead_poolOnly h 1).trans hstores.pool, (d.sentMore_takeHead ..).trans hsent, hbuf⟩

theorem Dev.Filled.streamWork (h : Dev.Filled d g p i) : Dev.StreamWork d g := h.pool.streamWork h.sent

theorem Dev.Filled.streams (h : Dev.Filled d g p i) : g.streams = d.streams := (poolOnly_rest_streams h.pool).1

end

theorem Dev.sentMore_setPoison (d : Dev) (as : List Nat) : Dev.SentMore d (d.setPoison as) := by
  refine .foldl (fun d a => ?_) _ _
  split
  · exact .of_eq rfl rfl
  · exact .refl d

theorem padTo_length (l : List Byte) (n : Nat) : (padTo l n).length = n := by simp [padTo, slice]

theorem rdN_length (d : Dev) (a n : Nat) : (d.rdN a n).length = n := by simp [Dev.rdN]

/-! ### A chunk joins its stream -/

section

variable (d : Dev)

/-- A still of a stream of stills waits in the queue of the JPEG unit. -/
def Dev.queueStill (d : Dev) (id : Nat) (ep : Epoch) (c : Chunk) : Dev :=
  if ep.codec.codec = 2 then { d with jpeg := { d.jpeg with queue := d.jpeg.queue ++ [(id, c)] } } else d

theorem queueStill_spec (id : Nat) (ep : Epoch) (c : Chunk) : Dev.CmdWork d (d.queueStill id ep c) ∧ (d.queueStill id ep c).streams = d.streams ∧
    (d.queueStill id ep c).bpm = d.bpm ∧ (d.queueStill id ep c).sched = d.sched ∧ (d.queueStill id ep c).fab = d.fab := by
  unfold Dev.queueStill
  split <;> exact ⟨.of_eq rfl rfl rfl rfl, rfl, rfl, rfl, rfl⟩

theorem syncJpeg_spec : Dev.CmdWork d d.syncJpeg ∧ d.syncJpeg.streams = d.streams ∧ d.syncJpeg.bpm = d.bpm ∧ d.syncJpeg.sched = d.sched ∧
    d.syncJpeg.fab = d.fab := by
  have hsent : Dev.SentMore d d.syncJpeg := (d.sentMore_setFld ..).trans (Dev.sentMore_setFld ..)
  have hreg : ∀ o, o ≠ R.COD_JPEG_STATUS → d.syncJpeg.reg o = d.reg o := fun o ho =>
    (Dev.reg_setFld_ne _ _ _ ho).trans (Dev.reg_setFld_ne _ _ _ ho)
  refine ⟨⟨hsent, hreg _ (by decide), hreg _ (by decide), ?_⟩, ?_, ?_, ?_, ?_⟩ <;> simp [Dev.syncJpeg]

end

/-- The stream with a chunk more. -/
def Stream.addChunk (s : Stream) (c : Chunk) : Stream := { s with chunks := s.chunks ++ [c] }

section

variable {d : Dev} {id : Nat} {st : Stream} (hst : mget d.streams id = some st) {ep : Epoch} (hhist : st.kind = 0 → ep.codec.histMs = 0)
include hst hhist

theorem takeChunk_eq (h stamp : Nat) (b : List Byte) (c : Chunk) (hc : c = ⟨h, b.length, ep.num, stamp, none⟩) :
    d.takeChunk id h ep stamp b = ((d.queueStill id ep c).modStream id (·.addChunk c)).syncJpeg := by
  have hno : ¬(st.kind = 0 ∧ ep.codec.histMs ≠ 0) := fun ⟨hkind, hms⟩ => hms (hhist hkind)
  simp only [Dev.takeChunk, Dev.stream?, hst, hno, if_false, Dev.queueStill, Dev.syncJpeg, Dev.setFld_jpeg, Stream.addChunk, hc]

/-- Without a history nothing but the chunks and the JPEG unit changes. -/
theorem takeChunk_spec (h stamp : Nat) (b : List Byte) : Dev.CmdWork d (d.takeChunk id h ep stamp b) ∧
    mget (d.takeChunk id h ep stamp b).streams id = some (st.addChunk ⟨h, b.length, ep.num, stamp, none⟩) ∧
    (d.takeChunk id h ep stamp b).bpm = d.bpm ∧ (d.takeChunk id h ep stamp b).sched = d.sched ∧ (d.takeChunk id h ep stamp b).fab = d.fab := by
  generalize hc : (⟨h, b.length, ep.num, stamp, none⟩ : Chunk) = c
  rw [takeChunk_eq hst hhist h stamp b c hc.symm]
  obtain ⟨hwork, hstreams, hbpm, hsched, hfab⟩ := queueStill_spec d id ep c
  generalize d.queueStill id ep c = x at *
  rw [← hstreams] at hst
  have hput := mget_modStream_same hst (·.addChunk c)
  have hadd := (x.streamWork_modStream id (·.addChunk c)).cmdWork
  have hpools : (x.modStream id (·.addChunk c)).bpm = x.bpm := Dev.modStream_bpm ..
  have hframes : (x.modStream id (·.addChunk c)).sched = x.sched := Dev.modStream_sched ..
  have hgroup : (x.modStream id (·.addChunk c)).fab = x.fab := Dev.modStream_fab ..
  generalize x.modStream id (·.addChunk c) = y at *
  obtain ⟨hsync, hstreams', hbpm', hsched', hfab'⟩ := syncJpeg_spec y
  exact ⟨(hwork.trans hadd).trans hsync, by rw [hstreams']; exact hput, hbpm'.trans (hpools.trans hbpm), hsched'.trans (hframes.trans hsched),
    hfab'.trans (hgroup.trans hfab)⟩

end

/-! ### FEED -/

/-- The buffer at the head of pool p, with the bytes of a chunk. -/
def Dev.fillBuf (d : Dev) (p i : Nat) (b : List Byte) : Dev :=
  (d.takeHead p (mkHandle p i) 1).writeRun ((d.takeHead p (mkHandle p i) 1).bufAddr (mkHandle p i)) b

theorem fillBuf_filled {d : Dev} {p i : Nat} (h : d.canPop p i) (b : List Byte) : Dev.Filled d (d.fillBuf p i b) p i :=
  filled_of_stores h (Dev.storesOnly_writeRun ..) (Dev.sentMore_writeRun ..)

theorem clearFresh_spec (d : Dev) (id : Nat) : Dev.CmdWork d (d.clearFresh id) ∧ Dev.Agree d (d.clearFresh id) ∧
    (d.clearFresh id).streams = d.streams ∧ (d.clearFresh id).sched = d.sched ∧ (d.clearFresh id).fab.map = d.fab.map ∧
    (d.clearFresh id).now = d.now ∧ (d.clearFresh id).regs = d.regs :=
  ⟨.of_eq rfl rfl rfl rfl, ⟨rfl, rfl, rfl, fun _ _ => rfl⟩, rfl, rfl, rfl, rfl, rfl⟩

/-- The timestamp is the entry's, or the time (R379). -/
def inputStamp (now : Nat) (e : List Byte) : Nat := if le e 24 8 = 0 then now else le e 24 8

theorem feedStamp_of_now {d : Dev} {n : Nat} (h : d.now = n) (e : List Byte) : d.feedStamp e = inputStamp n e := by
  rw [Dev.feedStamp, h, inputStamp]

theorem poolOnly_now {d e : Dev} (h : Dev.PoolOnly d e) : e.now = d.now := by rw [h.rest]

theorem takeHead_now {d : Dev} {p i : Nat} (h : d.canPop p i) : (d.takeHead p (mkHandle p i) 1).now = d.now := poolOnly_now (takeHead_poolOnly h 1)

theorem poolSize_congr {d g : Dev} (h : g.regs = d.regs) (p : Nat) : g.poolSize p = d.poolSize p := by
  rw [Dev.poolSize, Dev.poolSize, Dev.fld_congr h]

/-- Without a group a fed chunk is answered at once. -/
theorem feedDone_alone {d : Dev} (h : d.fab.map = none) (q : Nat) (e : List Byte) (id k epoch stamp : Nat) (b : List Byte) :
    d.feedDone q e id k epoch stamp b = d.reply q e 0 (toLE 4 k) := by
  simp only [Dev.feedDone, Dev.mirrorTo, Dev.activeEntry, h, Option.bind_none]

/-- The frame of a buffer fed to a telemetry stream, without a crop. -/
def fedFrame (id num : Nat) (ep : Epoch) (stamp k off : Nat) : Frame :=
  { stream := id, num := num, ep := ep, stamp := stamp, st := .arrived, ctx := ep.bind.ctx, buf := some k, crops := 0, listOff := off }

theorem fedFrame_fields (id num : Nat) (ep : Epoch) (stamp k off : Nat) :
    (fedFrame id num ep stamp k off).stream = id ∧ (fedFrame id num ep stamp k off).num = num ∧ (fedFrame id num ep stamp k off).ep = ep ∧
    (fedFrame id num ep stamp k off).stamp = stamp ∧ (fedFrame id num ep stamp k off).st = .arrived ∧
    (fedFrame id num ep stamp k off).ctx = ep.bind.ctx ∧ (fedFrame id num ep stamp k off).buf = some k ∧
    (fedFrame id num ep stamp k off).crops = 0 := ⟨rfl, rfl, rfl, rfl, rfl, rfl, rfl, rfl⟩

theorem feedStep_eq {d : Dev} {id : Nat} {st : Stream} (hst : mget d.streams id = some st) (ep : Epoch) (k stamp : Nat) :
    ∃ off g, d.feedStep id k ep stamp = g.addFrame (fedFrame id (st.numberAt 0) ep stamp k off) ∧ Dev.StreamWork d g := by
  rw [← adoptEpoch_takeNum hst ep 0]
  exact ⟨_, _, rfl, (d.streamWork_adoptEpoch ..).trans (Dev.streamWork_takeNum ..)⟩

theorem addFrame_fab (d : Dev) (f : Frame) : (d.addFrame f).fab = d.fab := rfl

theorem addFrame_cmdWork (d : Dev) (f : Frame) : Dev.CmdWork d (d.addFrame f) := .of_eq rfl rfl rfl rfl

section

variable {s : State} {q i : Nat} {e data : List Byte} {x : Sq} {c : Cq} {st : Stream} {ep : Epoch} (h : s.here.accepts 0x23 q e x c)
  (hst : mget s.here.streams (eStream e) = some st) (hmap : s.here.fab.map = none)

section
include h hst hmap

/-- What the buffer of a FEED leaves of the device that has fetched the entry. -/
theorem feedBuf_spec (p : Nat) (hpop : s.here.canPop p i) (b : List Byte) (g : Dev)
    (hg : g = ((s.here.fetched q).clearFresh (eStream e)).fillBuf p i b) : Dev.CmdWork (s.here.fetched q) g ∧
    mget g.streams (eStream e) = some st ∧ mget g.bpm.bufs (mkHandle p i) = some ⟨.allocated, 1⟩ ∧ g.sched = s.here.sched ∧
    g.fab.map = none := by
  obtain ⟨hwork, hagree, hstreams, hsched, hfab, -⟩ := clearFresh_spec (s.here.fetched q) (eStream e)
  have hfill := fillBuf_filled (hagree.canPop (h.agree.canPop hpop)) b
  obtain ⟨-, hfetched, hfetchedSched, -⟩ := h.tables
  have hfetchedFab : (s.here.fetched q).fab = s.here.fab := by rw [h.fetched]
  rw [← hg] at hfill
  refine ⟨hwork.trans hfill.streamWork.cmdWork, ?streams, hfill.buf, hfill.streamWork.sched.trans (hsched.trans hfetchedSched), ?fab⟩
  case streams => rw [hfill.streams, hstreams, hfetched]; exact hst
  case fab => rw [hfill.streamWork.fab, hfab, hfetchedFab]; exact hmap

end

variable (hlive : st.destroying = false) (hstandby : mget s.here.fab.standby (eStream e) = none) (hep : st.epoch? (le e 18 2) = some ep)
  (hlen : 0 < eLen e) (hsize : eLen e ≤ s.here.poolSize st.chunkPool)
include h hst hmap hlive hstandby hep hlen hsize

/-- A FEED in order takes a buffer of the kind's pool, fills it and hands it to the stream. -/
theorem exec_feed (p stamp : Nat) (hstamp : stamp = inputStamp s.tb.time e)
    (hp : p = if st.kind = 3 then ep.shaper.inPool else st.chunkPool) (hkind : (decide (st.kind = 0) || decide (st.kind = 3)) = true)
    (hfit : eLen e ≤ s.here.poolSize p) (hpop : s.here.canPop p i) (g : Dev)
    (hg : g = ((s.here.fetched q).clearFresh (eStream e)).fillBuf p i (padTo data (eLen e))) :
    exec (.feed q e data) s = .next { s with d := ((if st.kind = 3 then g.feedStep (eStream e) (mkHandle p i) ep stamp
      else g.takeChunk (eStream e) (mkHandle p i) ep stamp (padTo data (eLen e))).feedDone q e (eStream e) (mkHandle p i) ep.num stamp
        (padTo data (eLen e))) } := by
  have arm : exec (.feed q e data) s = execFeed q e data s := rfl
  have hfab : (s.here.fetched q).fab = s.here.fab := by rw [h.fetched]
  have hnow : (s.here.fetched q).now = s.tb.time := by rw [h.fetched]; rfl
  have hregs : (s.here.fetched q).regs = s.here.regs := by rw [h.fetched]
  obtain ⟨-, hstreams, -, -⟩ := h.tables
  have hstream : mget (s.here.fetched q).streams (eStream e) = some st := by rw [hstreams]; exact hst
  have hsmall : ¬(s.here.fetched q).poolSize st.chunkPool < eLen e := by rw [poolSize_congr hregs]; exact Nat.not_lt.2 hsize
  obtain ⟨-, hagree, -, -, -, hclear, hclearRegs⟩ := clearFresh_spec (s.here.fetched q) (eStream e)
  have hfits : ¬((s.here.fetched q).clearFresh (eStream e)).poolSize p < eLen e := by 
    rw [poolSize_congr (hclearRegs.trans hregs)]
    exact Nat.not_lt.2 hfit
  have hgroup : (s.here.fetched q).standbyEntry (eStream e) = none := by rw [Dev.standbyEntry, hfab, hmap]; rfl
  have hdoubt : ∀ b, (s.here.fetched q).inDoubt (eStream e) b = false := fun b => by rw [Dev.inDoubt, hfab, hstandby]
  have hcan := hagree.canPop (h.agree.canPop hpop)
  have hstamp' : (((s.here.fetched q).clearFresh (eStream e)).takeHead p (mkHandle p i) 1).feedStamp e = stamp := by
    rw [feedStamp_of_now ((takeHead_now hcan).trans (hclear.trans hnow)), hstamp]
  simp only [arm, execFeed, h.onCmd, Dev.stream?, hstream, hlive, hgroup, hkind, hsmall, hep, hdoubt, ← hp, hfits, pop_canPop hcan, hstamp', hg,
    Dev.fillBuf, Nat.ne_of_gt hlen, Option.isSome_none, Bool.not_true, decide_false, Bool.or_self, Bool.false_eq_true, if_false]

/-- FEED of a compressed stream without a history. -/
theorem feed_chunk (hkind : st.kind = 0) (hhist : ep.codec.histMs = 0) (hpop : s.here.canPop st.chunkPool i) :
    Answers (.feed q e data) s fun t => t = { s with d := t.d } ∧ s.here.answered t.d q e x c 0 (toLE 4 (mkHandle st.chunkPool i)) ∧
      mget t.d.streams (eStream e) = some (st.addChunk ⟨mkHandle st.chunkPool i, eLen e, ep.num, inputStamp s.tb.time e, none⟩) ∧
      mget t.d.bpm.bufs (mkHandle st.chunkPool i) = some ⟨.allocated, 1⟩ ∧ t.d.sched.frames = s.here.sched.frames ∧
      t.d.cores = s.here.cores := by
  have hthree : ¬st.kind = 3 := by omega
  have hexec := exec_feed h hst hmap hlive hstandby hep hlen hsize (data := data) st.chunkPool _ rfl
    (if_neg hthree).symm (by simp [hkind]) hsize hpop _ rfl
  obtain ⟨hwork, hstream, hbuf, hsched, hfab⟩ := feedBuf_spec h hst hmap _ hpop (padTo data (eLen e)) _ rfl
  generalize ((s.here.fetched q).clearFresh (eStream e)).fillBuf st.chunkPool i (padTo data (eLen e)) = g at *
  obtain ⟨htake, hchunk, hbpm, hsched', hfab'⟩ := takeChunk_spec hstream (fun _ => hhist) (mkHandle st.chunkPool i)
    (inputStamp s.tb.time e) (padTo data (eLen e))
  rw [if_neg hthree, feedDone_alone (by rw [hfab']; exact hfab)] at hexec
  obtain ⟨t, hexec', hrest, hans, hstreams, hbufs, hframes, -, hcores⟩ := h.workDone (hwork.trans htake) hexec
  rw [padTo_length] at hchunk
  exact ⟨t, hexec', hrest, hans, by rw [hstreams]; exact hchunk, by rw [hbufs, hbpm]; exact hbuf,
    by rw [hframes, hsched', hsched], hcores⟩

/-- FEED of a telemetry stream. -/
theorem feed_frame (hkind : st.kind = 3) (hfit : eLen e ≤ s.here.poolSize ep.shaper.inPool) (hpop : s.here.canPop ep.shaper.inPool i) :
    ∃ off, Answers (.feed q e data) s fun t => t = { s with d := t.d } ∧ s.here.answered t.d q e x c 0 (toLE 4 (mkHandle ep.shaper.inPool i)) ∧
      t.d.sched.frames = s.here.sched.frames ++
        [fedFrame (eStream e) (st.numberAt 0) ep (inputStamp s.tb.time e) (mkHandle ep.shaper.inPool i) off] ∧ t.d.cores = s.here.cores := by
  have hexec := exec_feed h hst hmap hlive hstandby hep hlen hsize (data := data) ep.shaper.inPool _ rfl
    (if_pos hkind).symm (by simp [hkind]) hfit hpop _ rfl
  obtain ⟨hwork, hstream, -, hsched, hfab⟩ := feedBuf_spec h hst hmap _ hpop (padTo data (eLen e)) _ rfl
  generalize ((s.here.fetched q).clearFresh (eStream e)).fillBuf ep.shaper.inPool i (padTo data (eLen e)) = g at *
  obtain ⟨off, y, hstep, hnumbered⟩ := feedStep_eq hstream ep (mkHandle ep.shaper.inPool i) (inputStamp s.tb.time e)
  rw [if_pos hkind, hstep, feedDone_alone (by rw [addFrame_fab, hnumbered.fab]; exact hfab)] at hexec
  obtain ⟨t, hexec', hrest, hans, -, -, hframes, -, hcores⟩ := h.workDone (hwork.trans (hnumbered.cmdWork.trans (addFrame_cmdWork ..))) hexec
  refine ⟨off, t, hexec', hrest, hans, ?_, hcores⟩
  rw [hframes, Dev.addFrame_frames, hnumbered.sched, hsched]

end

/-! ### ENCODE -/

/-- The buffer at the head of pool p, with the n bytes at a and their poison. -/
def Dev.copyBuf (d : Dev) (p i a n : Nat) : Dev :=
  let g := d.takeHead p (mkHandle p i) 1
  ((g.noteRead (span a n)).writeRun (g.bufAddr (mkHandle p i)) (g.rdN a n)).setPoison
    (((span a n).filter g.poisonAt).map fun k => k - a + g.bufAddr (mkHandle p i))

theorem copyBuf_filled {d : Dev} {p i : Nat} (h : d.canPop p i) (a n : Nat) : Dev.Filled d (d.copyBuf p i a n) p i :=
  filled_of_stores h ((Dev.storesOnly_noteRead ..).trans ((Dev.storesOnly_writeRun ..).trans (Dev.storesOnly_setPoison ..)))
    ((Dev.sentMore_noteRead ..).trans ((Dev.sentMore_writeRun ..).trans (Dev.sentMore_setPoison ..)))

section

variable {s : State} {q i : Nat} {e : List Byte} {x : Sq} {c : Cq} {st : Stream} {ep : Epoch} (h : s.here.accepts 0x2B q e x c)
  (hst : mget s.here.streams (eStream e) = some st) (hlive : st.destroying = false) (hkind : st.kind = 2) (hep : st.epoch? (le e 18 2) = some ep)
  (hlen : 0 < eLen e) (hsize : eLen e ≤ s.here.poolSize st.chunkPool) (hpop : s.here.canPop st.chunkPool i)
include h hst hlive hkind hep hlen hsize hpop

/-- An ENCODE in order copies the picture into a buffer of chunk_pool. -/
theorem exec_encode : ∃ b, b.length = eLen e ∧
    exec (.encode q e) s = .next { s with d := (((s.here.fetched q).copyBuf st.chunkPool i (eAddr e) (eLen e)).takeChunk (eStream e)
      (mkHandle st.chunkPool i) ep (inputStamp s.tb.time e) b).reply q e 0 } := by
  have arm : exec (.encode q e) s = execEncode q e s := rfl
  have hregs : (s.here.fetched q).regs = s.here.regs := by rw [h.fetched]
  have hnow : (s.here.fetched q).now = s.tb.time := by rw [h.fetched]; rfl
  obtain ⟨-, hstreams, -, -⟩ := h.tables
  have hstream : mget (s.here.fetched q).streams (eStream e) = some st := by rw [hstreams]; exact hst
  have hsmall : ¬(s.here.fetched q).poolSize st.chunkPool < eLen e := by rw [poolSize_congr hregs]; exact Nat.not_lt.2 hsize
  have hcan := h.agree.canPop hpop
  have hcopied := (copyBuf_filled hcan (eAddr e) (eLen e)).pool
  have hstamp := feedStamp_of_now (d := (s.here.fetched q).copyBuf st.chunkPool i (eAddr e) (eLen e)) ((poolOnly_now hcopied).trans hnow) e
  refine ⟨_, rdN_length ((s.here.fetched q).takeHead st.chunkPool (mkHandle st.chunkPool i) 1) (eAddr e) (eLen e), ?_⟩
  rw [← hstamp]
  simp only [arm, execEncode, h.onCmd, Dev.stream?, hstream, hlive, hkind, hsmall, hep, pop_canPop hcan, Dev.copyBuf,
    Nat.ne_of_gt hlen, ne_eq, not_true_eq_false, decide_false, Bool.or_self, Bool.false_eq_true, if_false]

theorem encode_chunk : Answers (.encode q e) s fun t => t = { s with d := t.d } ∧ s.here.answered t.d q e x c 0 [] ∧
    mget t.d.streams (eStream e) = some (st.addChunk ⟨mkHandle st.chunkPool i, eLen e, ep.num, inputStamp s.tb.time e, none⟩) ∧
    t.d.cores = s.here.cores := by
  obtain ⟨b, hb, hexec⟩ := exec_encode h hst hlive hkind hep hlen hsize hpop
  have hcopied := copyBuf_filled (h.agree.canPop hpop) (eAddr e) (eLen e)
  obtain ⟨-, hfetched, -, -⟩ := h.tables
  generalize (s.here.fetched q).copyBuf st.chunkPool i (eAddr e) (eLen e) = g at *
  have hstream : mget g.streams (eStream e) = some st := by rw [hcopied.streams, hfetched]; exact hst
  have hother : st.kind = 0 → ep.codec.histMs = 0 := fun hzero => absurd (hkind.symm.trans hzero) (by decide)
  obtain ⟨htake, hchunk, -⟩ := takeChunk_spec hstream hother (mkHandle st.chunkPool i) (inputStamp s.tb.time e) b
  obtain ⟨t, hexec', hrest, hans, hstreams, -, -, -, hcores⟩ := h.workDone (hcopied.streamWork.cmdWork.trans htake) hexec
  exact ⟨t, hexec', hrest, hans, by rw [hstreams, ← hb]; exact hchunk, hcores⟩

end

/-! ### CLIP_REQ -/

/-- The items of a clip in the buffer at the head of pool p, behind the parameter sets of the first. -/
def Dev.clipBuf (d : Dev) (p i : Nat) (bytes : List Byte) (l : List HistItem) : Dev :=
  let g := d.takeHead p (mkHandle p i) 1
  (g.noteRead (l.flatMap fun y => span (d.bufAddr y.handle) y.len)).writeRun (g.bufAddr (mkHandle p i)) bytes

theorem clipBuf_filled {d : Dev} {p i : Nat} (h : d.canPop p i) (bytes : List Byte) (l : List HistItem) :
    Dev.Filled d (d.clipBuf p i bytes l) p i :=
  filled_of_stores h ((Dev.storesOnly_noteRead ..).trans (Dev.storesOnly_writeRun ..))
    ((Dev.sentMore_noteRead ..).trans (Dev.sentMore_writeRun ..))

/-- The clip's bytes: the parameter sets, then the items. -/
def Dev.clipBytes (d : Dev) (a : HistItem) (l : List HistItem) : List Byte := a.params ++ l.flatMap fun y => d.rdN (d.bufAddr y.handle) y.len

theorem clipBytes_length (d : Dev) (a : HistItem) (l : List HistItem) : (d.clipBytes a l).length = a.params.length + (l.map (·.len)).sum := by
  simp only [Dev.clipBytes, List.length_append, List.length_flatMap, rdN_length]

/-- The buffer is given to a clip of the stream. -/
def Dev.giveClip (d : Dev) (id k : Nat) : Dev := d.modStream id fun s => { s with clips := s.clips ++ [k] }

/-- The record stands last; at most a bit of its bytes changes. -/
theorem postRec_last (d : Dev) (r : WaitRec) : ∃ w, (d.postRec r).que.wait = d.que.wait ++ [w] ∧ w = { r with bytes := w.bytes } := by
  refine ⟨_, rfl, ?_⟩
  split <;> rfl

theorem postRec_cmdWork (d : Dev) (r : WaitRec) : Dev.CmdWork d (d.postRec r) := ⟨⟨rfl, rfl, rfl, rfl, List.prefix_rfl⟩, rfl, rfl, rfl⟩

section

variable {s : State} {q : Nat} {e : List Byte} {x : Sq} {c : Cq} {st : Stream} {ep : Epoch} (h : s.here.accepts 0x29 q e x c)
  (hst : mget s.here.streams (eStream e) = some st) (hcur : st.cur = some ep) (hafter : le e 24 8 < le e 32 8) (hkind : st.kind ≠ 3)
  (hhist : ep.codec.histMs ≠ 0)
include h hst hcur hafter hkind hhist

theorem exec_clipReq_none (hnone : (clipItems st.history (le e 24 8) (le e 32 8)).1 = []) :
    exec (.clipReq q e) s = .next { s with d := (s.here.fetched q).reply q e 0x80 } := by
  have arm : exec (.clipReq q e) s = execClipReq q e s := rfl
  obtain ⟨-, hstreams, -, -⟩ := h.tables
  rw [← hstreams] at hst
  simp only [arm, execClipReq, h.onCmd, Dev.stream?, hst, hcur, Nat.not_le.2 hafter, hkind, hhist, hnone, List.head?_nil, decide_false,
    Bool.or_self, Bool.false_eq_true, if_false]
  rfl

/-- A CLIP_REQ with data gives the buffer to the clip and posts a record of the first item's frame. -/
theorem exec_clipReq_some {a z : HistItem} {i : Nat} {l : List HistItem} (hl : l = (clipItems st.history (le e 24 8) (le e 32 8)).1)
    (ha : l.head? = some a) (hz : l.getLast? = some z) (hpop : s.here.canPop ep.codec.histPool i)
    (hfit : a.params.length + (l.map (·.len)).sum ≤ s.here.poolSize ep.codec.histPool) (g : Dev)
    (hg : g = ((s.here.fetched q).clipBuf ep.codec.histPool i ((s.here.fetched q).clipBytes a l) l).giveClip (eStream e)
      (mkHandle ep.codec.histPool i)) :
    ∃ r, exec (.clipReq q e) s = .next { s with d := (g.postRec (g.devRec (eStream e) a.frame false r)).reply q e 0 } := by
  have arm : exec (.clipReq q e) s = execClipReq q e s := rfl
  have hregs : (s.here.fetched q).regs = s.here.regs := by rw [h.fetched]
  obtain ⟨-, hstreams, -, -⟩ := h.tables
  rw [← hstreams] at hst
  have hfits : ¬(s.here.fetched q).poolSize ep.codec.histPool < ((s.here.fetched q).clipBytes a l).length := by
    rw [poolSize_congr hregs, clipBytes_length]
    exact Nat.not_lt.2 hfit
  simp only [Dev.clipBytes] at hfits
  simp only [arm, execClipReq, h.onCmd, Dev.stream?, hst, hcur, Nat.not_le.2 hafter, hkind, hhist, ← hl, ha, hz, hfits,
    pop_canPop (h.agree.canPop hpop), hg, Dev.giveClip, Dev.clipBuf, Dev.clipBytes, decide_false, Bool.or_self, Bool.false_eq_true, if_false]
  exact ⟨_, rfl⟩

theorem clipReq_clip {a z : HistItem} {i : Nat} {l : List HistItem} (hl : l = (clipItems st.history (le e 24 8) (le e 32 8)).1)
    (ha : l.head? = some a) (hz : l.getLast? = some z) (hpop : s.here.canPop ep.codec.histPool i)
    (hfit : a.params.length + (l.map (·.len)).sum ≤ s.here.poolSize ep.codec.histPool) :
    Answers (.clipReq q e) s fun t => t = { s with d := t.d } ∧ s.here.answered t.d q e x c 0 [] ∧
      mget t.d.streams (eStream e) = some { st with clips := st.clips ++ [mkHandle ep.codec.histPool i] } ∧
      (∃ old r, t.d.que.wait = old ++ [r] ∧ r.stream = eStream e ∧ r.frame = a.frame ∧ r.ring = st.ring ∧ r.last = false) ∧
      t.d.cores = s.here.cores := by
  obtain ⟨r, hexec⟩ := exec_clipReq_some h hst hcur hafter hkind hhist hl ha hz hpop hfit _ rfl
  have hfilled := clipBuf_filled (h.agree.canPop hpop) ((s.here.fetched q).clipBytes a l) l
  obtain ⟨-, hfetched, -, -⟩ := h.tables
  generalize (s.here.fetched q).clipBuf ep.codec.histPool i ((s.here.fetched q).clipBytes a l) l = y at *
  have hstream : mget y.streams (eStream e) = some st := by rw [hfilled.streams, hfetched]; exact hst
  have hclip := mget_modStream_same hstream fun s => { s with clips := s.clips ++ [mkHandle ep.codec.histPool i] }
  have hwork := (y.streamWork_modStream (eStream e) fun s => { s with clips := s.clips ++ [mkHandle ep.codec.histPool i] }).cmdWork
  rw [← Dev.giveClip] at hclip hwork
  generalize y.giveClip (eStream e) (mkHandle ep.codec.histPool i) = g at *
  obtain ⟨w, hpost, hw⟩ := postRec_last g (g.devRec (eStream e) a.frame false r)
  have hring : (g.devRec (eStream e) a.frame false r).ring = st.ring := by rw [Dev.devRec, hclip]; rfl
  obtain ⟨t, hexec', hrest, hans, hstreams, -, -, hwait, hcores⟩ :=
    h.workDone (hfilled.streamWork.cmdWork.trans (hwork.trans (postRec_cmdWork ..))) hexec
  refine ⟨t, hexec', hrest, hans, by rw [hstreams]; exact hclip, ⟨_, w, hwait.trans hpost, ?_⟩, hcores⟩
  rw [hw]
  exact ⟨rfl, rfl, hring, rfl⟩

end

/-! ### RELEASE -/

/-- Another reference than the last goes. -/
theorem refDec_bufs {d : Dev} {k n : Nat} (h : d.buf k = some ⟨.allocated, n⟩) (hn : 1 < n) :
    mget (d.refDec k).bpm.bufs k = some ⟨.allocated, n - 1⟩ := by
  rw [refDec_counted h rfl hn]
  exact mget_mput_same ..

/-- The clip leaves its stream. -/
def Dev.dropClip (d : Dev) (k : Nat) : Dev := { d with streams := mmap d.streams fun _ y => { y with clips := y.clips.erase k } }

section

variable {s : State} {q : Nat} {e : List Byte} {x : Sq} {c : Cq} (h : s.here.accepts 0x2A q e x c)
include h

theorem exec_release_other (hgiven : (s.here.streams.any fun y => y.2.clips.contains (le e 20 4)) = false) :
    exec (.release q e) s = .next { s with d := (s.here.fetched q).reply q e 9 } := by
  have arm : exec (.release q e) s = execRelease q e s := rfl
  obtain ⟨-, hstreams, -, -⟩ := h.tables
  simp only [arm, execRelease, h.onCmd, hstreams, hgiven, Bool.false_eq_true, if_false]
  rfl

theorem exec_release_clip (hgiven : (s.here.streams.any fun y => y.2.clips.contains (le e 20 4)) = true) :
    exec (.release q e) s = .next { s with d := (((s.here.fetched q).dropClip (le e 20 4)).refDec (le e 20 4)).reply q e 0 } := by
  have arm : exec (.release q e) s = execRelease q e s := rfl
  obtain ⟨-, hstreams, -, -⟩ := h.tables
  simp only [arm, execRelease, h.onCmd, hstreams, hgiven, if_true, Dev.dropClip]

theorem release_clip (hgiven : (s.here.streams.any fun y => y.2.clips.contains (le e 20 4)) = true) :
    Answers (.release q e) s fun t => t = { s with d := t.d } ∧ s.here.answered t.d q e x c 0 [] ∧
      (∀ k, mget t.d.streams k = (mget s.here.streams k).map fun y => { y with clips := y.clips.erase (le e 20 4) }) ∧
      (∀ n, s.here.buf (le e 20 4) = some ⟨.allocated, n⟩ → 1 < n → mget t.d.bpm.bufs (le e 20 4) = some ⟨.allocated, n - 1⟩) ∧
      t.d.cores = s.here.cores := by
  have hexec := exec_release_clip h hgiven
  have hagree : Dev.Agree s.here ((s.here.fetched q).dropClip (le e 20 4)) := h.agree.trans ⟨rfl, rfl, rfl, fun _ _ => rfl⟩
  have hdrop : Dev.CmdWork (s.here.fetched q) ((s.here.fetched q).dropClip (le e 20 4)) := .of_eq rfl rfl rfl rfl
  obtain ⟨-, hfetched, -, -⟩ := h.tables
  have hmap : ((s.here.fetched q).dropClip (le e 20 4)).streams = mmap s.here.streams fun _ y => { y with clips := y.clips.erase (le e 20 4) } := by
    rw [Dev.dropClip, hfetched]
  generalize (s.here.fetched q).dropClip (le e 20 4) = g at *
  obtain ⟨t, hexec', hrest, hans, hstreams, hbpm, -, -, hcores⟩ := h.workDone (hdrop.trans (g.streamWork_refDec (le e 20 4)).cmdWork) hexec
  refine ⟨t, hexec', hrest, hans, fun k => ?streams, fun n hbuf hn => ?buf, hcores⟩
  case streams => rw [hstreams, (poolOnly_rest_streams (g.poolOnly_refDec _)).1, hmap, mget_mmap]
  case buf => rw [hbpm]; exact refDec_bufs (hagree.buf _ ▸ hbuf) hn

end

/-! ### HISTORY_EXPIRY -/

theorem histDrop_eq {d : Dev} {id : Nat} {st : Stream} {y : HistItem} {l : List HistItem} (hst : mget d.streams id = some st)
    (hhist : st.history = y :: l) : d.histDrop id = (d.modStream id fun s => { s with history := l }).refDec y.handle := by
  simp only [Dev.histDrop, Dev.stream?, hst, Option.map_some, hhist]

theorem exec_historyExpiry {s : State} {id : Nat} {st : Stream} {y : HistItem} {l : List HistItem} (hst : mget s.d.streams id = some st)
    (hhist : st.history = y :: l) (r : State) (hr : r = s.reach (y.stamp + 100000 * ((st.cur.map fun e => e.codec.histMs).getD 0))) :
    exec (.historyExpiry id) s = .next { r with d := (r.here.modStream id fun s => { s with history := l }).refDec y.handle } := by
  have arm : exec (.historyExpiry id) s = execHistoryExpiry id s := rfl
  have hst' : mget r.here.streams id = some st := by rw [hr]; exact hst
  rw [← histDrop_eq hst' hhist, arm, execHistoryExpiry, Dev.stream?, hst]
  simp only [hhist, hr]
  rfl

/-- Nothing but the device time follows when an instant is reached. -/
theorem reach_spec (s : State) (n : Nat) : (s.reach n).tb.time = max s.tb.time n ∧ s.reach n = { s with tb := (s.reach n).tb } ∧
    (s.reach n).here.streams = s.d.streams ∧ (s.reach n).here.cores = s.d.cores ∧ Dev.Agree s.d (s.reach n).here :=
  ⟨rfl, rfl, rfl, rfl, rfl, rfl, rfl, fun _ _ => rfl⟩

theorem historyExpiry_drops {s : State} {id : Nat} {st : Stream} {y : HistItem} {l : List HistItem} (hst : mget s.d.streams id = some st)
    (hhist : st.history = y :: l) :
    Answers (.historyExpiry id) s fun t => t = { s with tb := t.tb, d := t.d } ∧
      t.tb.time = max s.tb.time (y.stamp + 100000 * ((st.cur.map fun e => e.codec.histMs).getD 0)) ∧
      mget t.d.streams id = some { st with history := l } ∧
      (∀ n, s.d.buf y.handle = some ⟨.allocated, n⟩ → 1 < n → mget t.d.bpm.bufs y.handle = some ⟨.allocated, n - 1⟩) ∧
      t.d.cores = s.d.cores := by
  have hexec := exec_historyExpiry hst hhist _ rfl
  obtain ⟨htime, hrest, hstreams, hcores, hagree⟩ := reach_spec s (y.stamp + 100000 * ((st.cur.map fun e => e.codec.histMs).getD 0))
  generalize s.reach (y.stamp + 100000 * ((st.cur.map fun e => e.codec.histMs).getD 0)) = r at *
  have hdropped := mget_modStream_same (hstreams ▸ hst) fun s => { s with history := l }
  have hwork := r.here.streamWork_modStream id fun s => { s with history := l }
  have hpools : Dev.Agree r.here (r.here.modStream id fun s => { s with history := l }) :=
    ⟨Dev.modStream_mem .., Dev.modStream_dram .., Dev.modStream_bpm .., fun o _ => Dev.reg_congr (Dev.modStream_regs ..) o⟩
  generalize (r.here.modStream id fun s => { s with history := l }) = g at *
  refine ⟨_, hexec, ?rest, htime, ?streams, fun n hbuf hn => refDec_bufs ((hagree.trans hpools).buf _ ▸ hbuf) hn, ?cores⟩
  case rest => dsimp only; rw [hrest]
  case streams => dsimp only; rw [(poolOnly_rest_streams (g.poolOnly_refDec _)).1, hdropped]
  case cores => exact (g.streamWork_refDec _).cores.trans (hwork.cores.trans hcores)

/-! ### The statement -/

/-- Settles O33: a command takes a buffer or gives one back, changes its stream, and is answered behind that; the end of history drops the oldest
item at its age limit. -/
theorem streamInput : Obligations.StreamInput := by
  refine ⟨?feed, ?encode, ?clip, ?release, fun s id st y l hst hhist => historyExpiry_drops hst hhist⟩
  case feed =>
    intro s q i e data x c st ep h hst hlive hmap hstandby hep hlen hsize
    refine ⟨fun hkind hhist hpop => ?chunk, fun hkind hfit hpop => ?frame⟩
    case chunk => exact feed_chunk h hst hmap hlive hstandby hep hlen hsize hkind hhist hpop
    case frame =>
      obtain ⟨off, t, hexec, hrest, hans, hframes, hcores⟩ := feed_frame h hst hmap hlive hstandby hep hlen hsize (data := data) hkind hfit hpop
      exact ⟨t, hexec, hrest, hans, ⟨_, hframes, fedFrame_fields ..⟩, hcores⟩
  case encode =>
    intro s q i e x c st ep h hst hlive hkind hep hlen hsize hpop
    obtain ⟨t, hexec, hrest, hans, hchunk, hcores⟩ := encode_chunk h hst hlive hkind hep hlen hsize hpop
    exact ⟨t, hexec, hrest, hans, ⟨_, hchunk, rfl⟩, hcores⟩
  case clip =>
    intro s q e x c st ep h hst hcur hafter hkind hhist
    exact ⟨fun hnone => h.refused 0x80 (exec_clipReq_none h hst hcur hafter hkind hhist hnone),
      fun a z i ha hz hpop hfit => clipReq_clip h hst hcur hafter hkind hhist rfl ha hz hpop hfit⟩
  case release =>
    intro s q e x c h
    exact ⟨fun hgiven => h.refused 9 (exec_release_other h hgiven), fun hgiven => release_clip h hgiven⟩

end Sys2Proof.Machine
end

section
/-!
SUPPORT. States that meet the hypotheses: a stream with a chunk, an engine that serves it and a still in the JPEG unit's queue (O21), an engine
with a picture whose rows are missing (O22), a pool and an entry of FEED, an item of history (O33).
-/

namespace Sys2Proof.Machine

/-! ### A stream and its first picture -/

/-- A picture of stream 0, 64 samples wide and high, in rows of 16. -/
def smallPic : PicInfo :=
  { stream := 0, encode := false, width := 64, height := 64, depth := 8, supported := true, dpb := 0, isRef := true, refresh := true, clean := true,
    rasl := false, refsOpen := false, parsed := true, order := 0, bits := 0, vuiMatrix := none, fullRange := false, groupRows := 16, blocks := 16,
    chunk := 0, used := 1, err := 0, lag := 0, refLag := 0, leaves := [], mps := 10, params := [] }

def smallEpoch : Epoch := { num := 0, codec := { maxW := 64, maxH := 64 }, shaper := {}, bind := {} }

def smallChunk : Chunk := { handle := 5, len := 100, epoch := 0, stamp := 7 }

def smallStream : Stream := { kind := 0, ring := 0, chunkPool := 0, recPool := 0, cur := some smallEpoch, chunks := [smallChunk] }

/-- Engine 0 is ON with the picture given, if one; the chunk also waits for the JPEG unit. -/
def codecState (pic : Option Pic) : State :=
  { d := { regs := mput resetRegs (R.COD_STATUS 0) 0x1000000, pwr := { phase := .ready, booted := true }, streams := [(0, smallStream)],
           engines := [(0, { pic := pic })], jpeg := { queue := [(0, smallChunk)] } } }

theorem codecState_pictureReady : (codecState none).here.pictureReady 0 smallPic smallStream smallChunk smallEpoch where
  work := by decide
  stream := rfl
  chunk := rfl
  epoch := rfl
  engine := by decide
  load := by decide
  ready := by decide
  kind := by decide
  group := by decide
  parsed := by decide
  supported := by decide
  clean := rfl
  budget := by decide

/-- The picture starts as frame 0 with the chunk's timestamp. -/
theorem codecState_starts : Answers (.pictureStart 0 smallPic) (codecState none) fun t =>
    (∃ P, (t.d.engine 0).pic = some P ∧ P.frame = 0 ∧ P.stamp = 7) ∧ t.d.flag (R.COD_STATUS 0) F.COD_STATUS_busy = true := by
  obtain ⟨t, hexec, -, hpic, hbusy, -⟩ := picturesStart.1 (codecState none) 0 smallPic _ _ _ codecState_pictureReady
  exact ⟨t, hexec, ⟨_, hpic, by decide, rfl⟩, hbusy⟩

/-- The still leaves the queue, and the unit has done one job. -/
theorem codecState_still : Answers (.jpegJobComplete smallPic [] 0 0 []) (codecState none) fun t =>
    t.d.jpeg.queue = [] ∧ t.d.fld R.COD_JPEG_STATUS F.COD_JPEG_STATUS_done = 1 := by
  obtain ⟨t, hexec, -, hqueue, -, hdone, -⟩ := picturesStart.2 (codecState none) smallPic smallStream 0 smallChunk smallEpoch [] [] []
    rfl rfl rfl rfl (by decide) (by decide) (by decide) rfl rfl rfl (by decide) (by decide) (by decide) (by decide) (by decide)
  exact ⟨t, hexec, hqueue, hdone.trans (by decide)⟩

/-! ### An engine with a picture -/

/-- The picture begun, without a row. -/
def begunPic : Pic := newPic smallPic smallChunk smallEpoch 0

/-- A row joins the picture, and the count of groups is 1. -/
theorem codecState_row : Answers (.lineRingGroupWrite 0 [[9]] [3] 0) (codecState (some begunPic)) fun t =>
    (∃ Q, (t.d.engine 0).pic = some Q ∧ Q.rowsDone.length = 1 ∧ Q.concealed = 1) ∧ t.d.reg (R.COD_ROWS 0) = 1 := by
  obtain ⟨t, hexec, -, ⟨Q, hpic, -, hlength, hconcealed, -⟩, -, hcount⟩ := (picturesEnd.1 (codecState (some begunPic)) 0 0 [[9]] [3] begunPic
    (by decide) rfl rfl rfl (by decide) (by decide) (by decide)).1 rfl (by decide)
  exact ⟨t, hexec, ⟨Q, hpic, hlength, hconcealed⟩, hcount.trans (by decide)⟩

/-- The hard cap takes the picture from the engine and records the missing rows. -/
theorem codecState_aborts : Answers (.hardCapAbort 0) (codecState (some begunPic)) fun t =>
    (t.d.engine 0).pic = none ∧ t.d.fld (R.COD_STATUS 0) F.COD_STATUS_last_sub = 8 := by
  obtain ⟨t, hexec, -, hpic, -, -, hlast, -⟩ := (picturesEnd.2.1 (codecState (some begunPic)) 0 0 0 0 [] begunPic (by decide) rfl
    fun _ _ => rfl).2 rfl
  exact ⟨t, hexec, hpic, hlast (by decide)⟩

/-- An engine that is disabled goes off when it is idle, and stops first when it has a picture. -/
theorem codecState_disables (pic : Option Pic) : Answers (.codCtlWrite 0 0) (codecState pic) fun t =>
    t.d.fld (R.COD_STATUS 0) F.COD_STATUS_svc = if pic = none then 0 else 2 := by
  obtain ⟨t, hexec, -, -, ⟨-, -, hoff, hstop⟩, -⟩ := picturesEnd.2.2 (codecState pic) 0 0 (by decide) rfl (by simp [codecState, State.here])
  have hsvc : (codecState pic).here.fld (R.COD_STATUS 0) F.COD_STATUS_svc = 1 := by
    have hregs : (codecState pic).here.regs = mput resetRegs (R.COD_STATUS 0) 0x1000000 := rfl
    rw [Dev.fld, Dev.reg, hregs]
    decide
  refine ⟨t, hexec, ?_⟩
  split
  · next h => exact (hoff rfl hsvc h).1
  · next h => exact (hstop rfl hsvc h).1

/-! ### FEED and history -/

/-- A FEED of 1 byte to stream 0 in epoch 0, at time 7. -/
def feedEntry : List Byte := 0x23 :: zeros 3 ++ 1 :: zeros 19 ++ 7 :: zeros 39

/-- An item that a stream of 4 ms of history keeps. -/
def oldItem : HistItem := { stamp := 3, epoch := 0, frame := 0, handle := 5, len := 1, refresh := true }

def histEpoch : Epoch := { smallEpoch with codec := { histMs := 4 } }

/-- Pool 0 has two free buffers; stream 0 has no chunk, stream 1 an item of history. -/
def feedState : State :=
  { d := { regs := mput (mput (mput resetRegs (R.BPM_POOL_COUNT 0) 2) (R.BPM_POOL_STAT 0) 1) R.HIF_LINK_STATUS 0x80,
           pwr := { phase := .ready, booted := true }, host := { cfg := { command := 4 } },
           que := { sqs := [(1, entrySq)], cqs := [(1, entryCq)] },
           bpm := { bufs := [(0, ⟨.free, 0⟩), (1, ⟨.free, 0⟩)], heads := [(0, 1)] },
           mem := { cells := [(264, 1), (268, 0xA5), (269, 0xA5), (270, 0x3C), (271, 0x3C)] },
           streams := [(0, { smallStream with chunks := [] }), (1, { smallStream with cur := some histEpoch, history := [oldItem] })] } }

theorem feedState_accepts : feedState.here.accepts 0x23 1 feedEntry entrySq entryCq where
  fetch := by decide
  sq := rfl
  cq := rfl
  op := by decide
  ok := by decide
  noDelete := by simp [feedState, State.here]
  admin := by decide

/-- The head of the pool becomes the stream's chunk. -/
theorem feedState_feeds : Answers (.feed 1 feedEntry [6]) feedState fun t =>
    (∃ y, mget t.d.streams 0 = some y ∧ y.chunks = [{ handle := 1, len := 1, epoch := 0, stamp := 7 }]) ∧
    mget t.d.bpm.bufs 1 = some ⟨.allocated, 1⟩ := by
  obtain ⟨t, hexec, -, -, hstream, hbuf, -⟩ := (streamInput.1 feedState 1 1 feedEntry [6] entrySq entryCq _ smallEpoch feedState_accepts
    rfl rfl rfl rfl (by decide) (by decide) (by decide)).1 rfl rfl ⟨by decide, by decide, by decide, rfl, by decide⟩
  exact ⟨t, hexec, ⟨_, hstream, by decide⟩, hbuf⟩

/-- The item goes 4 ms after its timestamp. -/
theorem feedState_expires : Answers (.historyExpiry 1) feedState fun t =>
    t.tb.time = 400003 ∧ ∃ y, mget t.d.streams 1 = some y ∧ y.history = [] := by
  obtain ⟨t, hexec, -, htime, hstream, -⟩ := streamInput.2.2.2.2 feedState 1 _ oldItem [] rfl rfl
  exact ⟨t, hexec, htime.trans (by decide), _, hstream, rfl⟩

end Sys2Proof.Machine
end

section
/-!
SUPPORT. Service and operating hours of a sensor port (O25; R319, R320): what an update of one port or one pipe leaves, what the notices about
a head leave alone.
-/

namespace Sys2Proof.Machine

/-! ### Ports and pipes -/

section

variable (d : Dev) {k i : Nat}

theorem port_modPort_same (k : Nat) (f : Port → Port) : (d.modPort k f).port k = f (d.port k) := mgetD_mput_same ..

theorem port_modPort_ne (f : Port → Port) (h : i ≠ k) : (d.modPort k f).port i = d.port i := mgetD_mput_ne _ _ _ h

theorem pipe_modPipe_same (k : Nat) (f : Pipe → Pipe) : (d.modPipe k f).pipe k = f (d.pipe k) := mgetD_mput_same ..

theorem pipe_modPipe_ne (f : Pipe → Pipe) (h : i ≠ k) : (d.modPipe k f).pipe i = d.pipe i := mgetD_mput_ne _ _ _ h

end

theorem port_congr {d e : Dev} (h : e.ports = d.ports) (k : Nat) : e.port k = d.port k := by rw [Dev.port, h, Dev.port]

theorem pipe_congr {d e : Dev} (h : e.pipes = d.pipes) (k : Nat) : e.pipe k = d.pipe k := by rw [Dev.pipe, h, Dev.pipe]

theorem snsStatus_aside {k : Nat} (hk : k < 4) : aside (R.SNS_STATUS k) := by
  simp only [aside, R.SNS_STATUS]
  omega

theorem snsStatus_ne_log (k : Nat) : R.SNS_STATUS k ≠ R.TEL_LOG_HEAD := by
  simp only [R.SNS_STATUS, R.TEL_LOG_HEAD]
  omega

theorem snsStatus_ne_replace (k : Nat) : R.SNS_STATUS k ≠ R.TEL_REPLACE := by
  simp only [R.SNS_STATUS, R.TEL_REPLACE]
  omega

/-! ### Notices about a head -/

/-- Of port k's registers the life notice at most has changed; besides that the log, the replace request and what is reported. -/
structure Dev.Noted (d e : Dev) (k : Nat) : Prop where
  rest : e = { d with regs := e.regs, que := e.que, recov := e.recov, host := e.host }
  regs : ∀ o, o ≠ R.SNS_STATUS k → o ≠ R.TEL_LOG_HEAD → o ≠ R.TEL_REPLACE → e.reg o = d.reg o
  status : ∀ g : Fld, g.lsb + g.w ≤ 8 ∨ 9 ≤ g.lsb → e.fld (R.SNS_STATUS k) g = d.fld (R.SNS_STATUS k) g
  sent : Dev.SentMore d e

theorem Dev.Noted.refl (d : Dev) (k : Nat) : Dev.Noted d d k := ⟨rfl, fun _ _ _ _ => rfl, fun _ _ => rfl, .refl d⟩

theorem Dev.Noted.trans {d e f : Dev} {k : Nat} (h : Dev.Noted d e k) (g : Dev.Noted e f k) : Dev.Noted d f k where
  rest := by rw [g.rest, h.rest]
  regs o h1 h2 h3 := (g.regs o h1 h2 h3).trans (h.regs o h1 h2 h3)
  status f hf := (g.status f hf).trans (h.status f hf)
  sent := h.sent.trans g.sent

section

variable {d e : Dev} {k : Nat} (h : Dev.Noted d e k)
include h

theorem Dev.Noted.port (i : Nat) : e.port i = d.port i := port_congr (by rw [h.rest]) i
theorem Dev.Noted.cores : e.cores = d.cores := by rw [h.rest]

end

section

variable (d : Dev) (k : Nat)

theorem noted_logEv (x : LogEntry) : Dev.Noted d (d.logEv x) k where
  rest := by apply Dev.eq_of <;> simp
  regs o _ h _ := d.reg_logEv x h
  status g _ := congrArg g.get (d.reg_logEv x (snsStatus_ne_log k))
  sent := d.sentMore_logEv x

theorem noted_health (a b c x y : Nat) : Dev.Noted d (d.health a b c x y) k where
  rest := by apply Dev.eq_of <;> simp
  regs o _ h _ := d.reg_health _ _ _ _ _ _ h
  status g _ := congrArg g.get (d.reg_health _ _ _ _ _ _ (snsStatus_ne_log k))
  sent := d.sentMore_health ..

theorem noted_replaceCause (a b x y : Nat) : Dev.Noted d (d.replaceCause a b x y) k where
  rest := by apply Dev.eq_of <;> simp
  regs o _ h h' := d.reg_replaceCause _ _ _ _ h h'
  status g _ := congrArg g.get (d.reg_replaceCause _ _ _ _ (snsStatus_ne_log k) (snsStatus_ne_replace k))
  sent := d.sentMore_replaceCause ..

theorem noted_lifeNotice (n : Nat) : Dev.Noted d (d.setFld (R.SNS_STATUS k) F.SNS_STATUS_life_notice n) k where
  rest := by apply Dev.eq_of <;> simp
  regs o h _ _ := d.reg_setFld_ne _ _ h
  status g hg := d.fld_setFld_other _ _ (by decide) hg
  sent := d.sentMore_setFld ..

theorem noted_replace (f : Fld) (n : Nat) : Dev.Noted d (d.setFld R.TEL_REPLACE f n) k where
  rest := by apply Dev.eq_of <;> simp
  regs o _ _ h := d.reg_setFld_ne _ _ h
  status g _ := d.fld_setFld_ne _ _ _ (snsStatus_ne_replace k)
  sent := d.sentMore_setFld ..

theorem noted_headGone : Dev.Noted d (d.headGone k) k := by
  unfold Dev.headGone
  simp only []
  split
  · exact .refl d k
  · split
    · exact (noted_replace ..).trans (noted_replace ..)
    · exact noted_replace ..

theorem noted_headLifeCheck : Dev.Noted d (d.headLifeCheck k) k := by
  unfold Dev.headLifeCheck
  simp only []
  split
  · exact (noted_lifeNotice d k 1).trans ((noted_replace ..).trans (noted_replaceCause ..))
  · exact .refl d k

end

/-! ### SNS_CTL_WRITE (R320) -/

/-- SNS_CTL of port k takes the enable, SNS_STATUS the service state and the pending enable. -/
def Dev.setPortService (d : Dev) (k : Nat) (on : Bool) (next : Nat × Bool) : Dev :=
  ((d.setFld (R.SNS_CTL k) F.SNS_CTL_enable (b2n on)).setFld (R.SNS_STATUS k) F.SNS_STATUS_svc next.1).setFld (R.SNS_STATUS k)
    F.SNS_STATUS_enable_pending (b2n next.2)

theorem setPortService_spec (d : Dev) (k : Nat) (on : Bool) (next : Nat × Bool) :
    d.setPortService k on next = { d with regs := (d.setPortService k on next).regs } ∧
    (d.setPortService k on next).flag (R.SNS_CTL k) F.SNS_CTL_enable = on ∧
    (d.setPortService k on next).fld (R.SNS_STATUS k) F.SNS_STATUS_svc = next.1 % 4 ∧
    (d.setPortService k on next).flag (R.SNS_STATUS k) F.SNS_STATUS_enable_pending = next.2 ∧
    ∀ o, o ≠ R.SNS_CTL k → o ≠ R.SNS_STATUS k → (d.setPortService k on next).reg o = d.reg o := by
  have hne : R.SNS_CTL k ≠ R.SNS_STATUS k := by simp only [R.SNS_CTL, R.SNS_STATUS]; omega
  unfold Dev.setPortService
  refine ⟨?rest, ?enable, ?svc, ?pending, fun o hctl hstatus => ?other⟩
  case rest => apply Dev.eq_of <;> simp
  case enable =>
    rw [Dev.flag, Dev.fld_setFld_ne _ _ _ _ hne, Dev.fld_setFld_ne _ _ _ _ hne, Dev.fld_setFld_same _ _ _ _ (by decide)]
    exact b2n_flag on
  case svc => rw [Dev.fld_setFld_other _ _ _ (by decide) (by decide), Dev.fld_setFld_same _ _ _ _ (by decide)]; rfl
  case pending =>
    rw [Dev.flag, Dev.fld_setFld_same _ _ _ _ (by decide)]
    exact b2n_flag next.2
  case other => rw [Dev.reg_setFld_ne _ _ _ hstatus, Dev.reg_setFld_ne _ _ _ hstatus, Dev.reg_setFld_ne _ _ _ hctl]

/-- The service state of port k after a write of the enable: it is busy while it receives a frame. -/
def Dev.nextPortService (d : Dev) (k : Nat) (on : Bool) : Nat × Bool :=
  svcNext (d.fld (R.SNS_STATUS k) F.SNS_STATUS_svc) (d.flag (R.SNS_STATUS k) F.SNS_STATUS_enable_pending) on ((d.port k).cur ≠ [])

/-- A disable of a STOPPING unit withdraws the pending enable. -/
theorem svcNext_stopping_off (pend busy : Bool) : svcNext 2 pend false busy = (2, false) := by simp [svcNext]

theorem exec_snsCtlWrite {s : State} {k : Nat} (v : Word) (hk : k < 4) (hopen : s.here.regOpen (R.SNS_CTL k) = true) :
    exec (.snsCtlWrite k v) s = .next { s with
      d := s.here.setPortService k (v.getLsbD 0) (s.here.nextPortService k (v.getLsbD 0)) } := by
  have arm : exec (.snsCtlWrite k v) s = execSnsCtlWrite k v s := rfl
  have hne : R.SNS_STATUS k ≠ R.SNS_CTL k := by simp only [R.SNS_CTL, R.SNS_STATUS]; omega
  have hfld := fun f => s.here.fld_setFld_ne F.SNS_CTL_enable f (b2n (v.getLsbD 0)) hne
  have hclosed : (decide (4 ≤ k) || !s.here.regOpen (R.SNS_CTL k)) = false := by simp [hopen, hk]
  simp only [arm, execSnsCtlWrite, onDev_here, hclosed, Bool.false_eq_true, if_false, Dev.flag, hfld,
    port_congr (Dev.setFld_ports s.here _ _ _)]
  rfl

/-! ### HEAD_HOUR (R319) -/

/-- The hour record that follows the current one, with the hours that earlier writes have not brought to the head. -/
def Port.nextHours (p : Port) : List Byte :=
  let c := curHours p.store
  let body := toLE 4 (c.1 + 1 + p.carried) ++ toLE 2 (c.2.1 + 1) ++ zeros 6
  body ++ toLE 4 (crc32 body)

/-- The port with a full hour taken from its part hour at time t. -/
def Port.hourTaken (p : Port) (t : Nat) : Port :=
  { p with partHour := p.partHour + (t - p.lastSeen.getD t) - hour, lastSeen := p.lastSeen.map fun _ => t }

@[simp] theorem Port.hourTaken_store (p : Port) (t : Nat) : (p.hourTaken t).store = p.store := by rw [Port.hourTaken]
@[simp] theorem Port.hourTaken_carried (p : Port) (t : Nat) : (p.hourTaken t).carried = p.carried := by rw [Port.hourTaken]

/-- A full hour leaves the port's part hour, and the record goes to the head, in place of the older one. -/
def Dev.hourSent (d : Dev) (k : Nat) : Dev :=
  (d.modPort k (·.hourTaken d.now)).out
    (.i3c k 0x50 (toLE 2 (curHours (d.port k).store).2.2 ++ (d.port k).nextHours))

/-- The record that the head has read back is the stored one. -/
def Dev.hourStored (d : Dev) (k : Nat) : Dev :=
  (d.hourSent k).modPort k fun p => { p with store := patch p.store (curHours (d.port k).store).2.2 (d.port k).nextHours, carried := 0 }

/-- The hour waits for the next write. -/
def Dev.hourCarried (d : Dev) (k : Nat) : Dev := (d.hourSent k).modPort k fun p => { p with carried := p.carried + 1 }

theorem port_hourSent (d : Dev) (k : Nat) : (d.hourSent k).port k = (d.port k).hourTaken d.now :=
  port_modPort_same d k (·.hourTaken d.now)

theorem port_hourStored (d : Dev) (k : Nat) : (d.hourStored k).port k = { (d.port k).hourTaken d.now with
    store := patch (d.port k).store (curHours (d.port k).store).2.2 (d.port k).nextHours, carried := 0 } := by
  rw [Dev.hourStored, port_modPort_same, port_hourSent, Port.hourTaken_store]

theorem port_hourCarried (d : Dev) (k : Nat) :
    (d.hourCarried k).port k = { (d.port k).hourTaken d.now with carried := (d.port k).carried + 1 } := by
  rw [Dev.hourCarried, port_modPort_same, port_hourSent, Port.hourTaken_carried]

section

variable {s : State} {k : Nat} {r1 r2 : Bool} (hk : k < 4) (hstore : (s.here.port k).store ≠ [])
  (hfull : hour ≤ (s.here.port k).partHour + (s.here.now - (s.here.port k).lastSeen.getD s.here.now))
include hk hstore hfull

/-- A read-back holds: what follows is at most a notice about the head's life. -/
theorem exec_headHour_holds (hback : (!r1 && !r2) = false) :
    ∃ e, Dev.Noted (s.here.hourStored k) e k ∧ exec (.headHour k r1 r2) s = .next { s with d := e } := by
  have arm : exec (.headHour k r1 r2) s = execHeadHour k r1 r2 s := rfl
  simp only [arm, execHeadHour, onDev_here, hstore, hback, Nat.not_le.2 hk, Nat.not_lt.2 hfull, decide_false, Bool.or_self, Bool.false_eq_true,
    if_false]
  split
  · exact ⟨_, (noted_lifeNotice _ k 1).trans ((noted_health ..).trans (noted_headLifeCheck ..)), rfl⟩
  · exact ⟨_, .refl _ k, rfl⟩

theorem exec_headHour_fails (hback : (!r1 && !r2) = true) : ∃ hours, exec (.headHour k r1 r2) s = .next { s with
    d := (s.here.hourCarried k).health Ev.headHours.code 0 k hours 0 } := by
  have arm : exec (.headHour k r1 r2) s = execHeadHour k r1 r2 s := rfl
  simp only [arm, execHeadHour, onDev_here, hstore, hback, Nat.not_le.2 hk, Nat.not_lt.2 hfull, decide_false, Bool.or_self, Bool.false_eq_true,
    if_false, if_true]
  exact ⟨_, rfl⟩

end

/-- What has been sent first stands first. -/
theorem Dev.SentMore.more {d e : Dev} (h : Dev.SentMore d e) {l : List DevWrite} {w : DevWrite} (hd : d.host.sent = l ++ [w]) :
    ∃ more, e.host.sent = l ++ w :: more := by
  obtain ⟨more, hmore⟩ := h.sent
  exact ⟨more, by rw [← hmore, hd, List.append_assoc]; rfl⟩

/-! ### The statement -/

/-- Settles O25: the two registers of the port take the next service state; an hour is sent, then stored or carried, and the notices that follow
leave the port alone. -/
theorem sensorService : Obligations.SensorService := by
  refine ⟨?control, ?hours⟩
  case control =>
    intro s k v hk hopen
    obtain ⟨hrest, henable, hsvc, hpend, hother⟩ := setPortService_spec s.here k (v.getLsbD 0) (s.here.nextPortService k (v.getLsbD 0))
    obtain ⟨hon, hagain, hoff⟩ := svcNext_spec (s.here.fld (R.SNS_STATUS k) F.SNS_STATUS_svc)
      (s.here.flag (R.SNS_STATUS k) F.SNS_STATUS_enable_pending) (v.getLsbD 0) ((s.here.port k).cur ≠ [])
    refine ⟨_, exec_snsCtlWrite v hk hopen, congrArg (fun d => { s with d := d }) hrest, henable,
      ⟨fun h1 h2 => ?on, fun h1 h2 => ?again, fun h1 h2 h3 => ?off, fun h1 h2 h3 => ?stop, fun h1 h2 => ?withdraw⟩, hother⟩
    case on => rw [hsvc, hpend, Dev.nextPortService, hon h1 h2]; exact ⟨rfl, rfl⟩
    case again => rw [hsvc, hpend, Dev.nextPortService, hagain h1 h2]; exact ⟨rfl, rfl⟩
    case off => rw [hsvc, Dev.nextPortService, hoff h1 h2, h3]; rfl
    case stop => rw [hsvc, Dev.nextPortService, hoff h1 h2, decide_eq_true h3]; rfl
    case withdraw => rw [hsvc, hpend, Dev.nextPortService, h1, h2, svcNext_stopping_off]; exact ⟨rfl, rfl⟩
  case hours =>
    intro s k r1 r2 hk hstore hfull
    cases hback : (!r1 && !r2) with
    | false =>
      obtain ⟨e, hnoted, hexec⟩ := exec_headHour_holds hk hstore hfull hback
      refine ⟨_, hexec, rfl, ⟨?part, ?seen, hnoted.sent.more rfl, fun _ => ?stored, fun h1 h2 => ?not⟩, hnoted.cores⟩
      case not => rw [h1, h2] at hback; exact absurd hback (by decide)
      all_goals
        dsimp only
        rw [hnoted.port, port_hourStored]
      case part => rw [Port.hourTaken]; rfl
      case seen => rw [Port.hourTaken]; rfl
      case stored => simp only [Port.nextHours, and_self]
    | true =>
      obtain ⟨n, hexec⟩ := exec_headHour_fails hk hstore hfull hback
      have hnoted := noted_health (s.here.hourCarried k) k Ev.headHours.code 0 k n 0
      refine ⟨_, hexec, rfl, ⟨?part, ?seen, hnoted.sent.more rfl, fun h => ?not, fun _ _ => ⟨?kept, ?carried, health_evSeq ..⟩⟩, hnoted.cores⟩
      case not =>
        obtain h | h := h <;> simp [h] at hback
      all_goals
        dsimp only
        rw [hnoted.port, port_hourCarried]
      case part => rw [Port.hourTaken]; rfl
      case seen => rw [Port.hourTaken]; rfl
      case kept => dsimp only; exact Port.hourTaken_store ..

end Sys2Proof.Machine
end

section
/-!
SUPPORT. ATTACH_SENSOR, DETACH_SENSOR and SENSOR_XFER (O35; R312, R315, R317, R376).
-/

namespace Sys2Proof.Machine

/-! ### Work before the answer -/

section

variable {s : State} {g : Dev} {op q : Nat} {e : List Byte} {x : Sq} {c : Cq} {i : Instr} {status : Nat} {result : List Byte}

/-- The answer behind a command's work: besides the queues and the host interface the device is as the work left it, and what the work has
sent stands first. -/
theorem Dev.accepts.replied (h : s.here.accepts op q e x c) (hwork : Dev.CmdWork (s.here.fetched q) g)
    (hexec : exec i s = .next { s with d := g.reply q e status result }) :
    Answers i s fun t => t = { s with d := t.d } ∧ s.here.answered t.d q e x c status result ∧
      t.d = { g with que := t.d.que, host := t.d.host } ∧ g.host.sent <+: t.d.host.sent := by
  obtain ⟨hrest, hsent, hans⟩ := h.reply_behind hwork.sent (hwork.link.trans (h.fetched_reg _)) (hwork.admin.trans (h.fetched_reg _)) status result
  refine ⟨_, hexec, rfl, hans, ?rest, hsent⟩
  dsimp only
  generalize g.reply q e status result = t at hrest ⊢
  rw [hrest]

end

section

variable {d e : Dev} {k : Nat}

theorem Dev.Noted.cmdWork (h : Dev.Noted d e k) : Dev.CmdWork d e where
  sent := h.sent
  link := h.regs _ (by simp only [R.HIF_LINK_STATUS, R.SNS_STATUS]; omega) (by decide) (by decide)
  admin := h.regs _ (by simp only [R.QUE_ADMIN_CFG, R.SNS_STATUS]; omega) (by decide) (by decide)
  cores := h.cores

theorem cmdWork_setStatus (d : Dev) (k : Nat) (f : Fld) (n : Nat) : Dev.CmdWork d (d.setFld (R.SNS_STATUS k) f n) where
  sent := d.sentMore_setFld ..
  link := d.reg_setFld_ne _ _ (by simp only [R.HIF_LINK_STATUS, R.SNS_STATUS]; omega)
  admin := d.reg_setFld_ne _ _ (by simp only [R.QUE_ADMIN_CFG, R.SNS_STATUS]; omega)
  cores := d.setFld_cores ..

theorem cmdWork_modPort (d : Dev) (k : Nat) (f : Port → Port) : Dev.CmdWork d (d.modPort k f) := .of_eq rfl rfl rfl rfl

end

/-! ### A head is authenticated, runs by permission, or its port is stopped (R317) -/

/-- SNS_STATUS.auth of a head. -/
def headAuth (ok permit : Bool) : Nat := if ok then 1 else if permit then 3 else 2

theorem headAuth_lt (ok permit : Bool) : headAuth ok permit < 4 := by cases ok <;> cases permit <;> decide

theorem headAuth_eq_two (ok permit : Bool) : headAuth ok permit = 2 ↔ (ok || permit) = false := by cases ok <;> cases permit <;> decide

/-- ATTACH_SENSOR answers SENSOR_AUTH for a head that may not run. -/
theorem attach_status (ok permit : Bool) : (if ok || permit then 0 else Code.sensorAuth.num) = if headAuth ok permit = 2 then 0xF else 0 := by
  cases ok <;> cases permit <;> decide

/-- A head that fails its authentication is logged. -/
def Dev.headLogged (d : Dev) (k : Nat) (ok : Bool) : Dev := if ok then d else d.logEv { code := Code.sensorAuth.num, unit := 0x28 + k }

/-- The port with the head's store. -/
def Port.withHead (p : Port) (store : List Byte) (ok permit : Bool) : Port := { p with store := store, authed := ok, permit := permit }

/-- SNS_STATUS shows the head's authentication, and a port whose head may not run is OFF. -/
def Dev.headShown (d : Dev) (k auth : Nat) (f : Port → Port) : Dev :=
  let e := (d.setFld (R.SNS_STATUS k) F.SNS_STATUS_auth auth).modPort k f
  if auth = 2 then e.setFld (R.SNS_STATUS k) F.SNS_STATUS_svc 0 else e

theorem authHead_eq (d : Dev) (k : Nat) (store : List Byte) (permit : Bool) : ∃ m, d.authHead k store permit =
    { (d.headLogged k (d.headOk store)).headShown k (headAuth (d.headOk store) permit) (·.withHead store (d.headOk store) permit) with
      streams := m } := ⟨_, rfl⟩

theorem headLogged_noted (d : Dev) (k : Nat) (ok : Bool) : Dev.Noted d (d.headLogged k ok) k := by
  unfold Dev.headLogged
  split
  · exact .refl d k
  · exact noted_logEv ..

theorem headShown_spec (d : Dev) (k : Nat) {auth : Nat} (hauth : auth < 4) (f : Port → Port) : Dev.CmdWork d (d.headShown k auth f) ∧
    (d.headShown k auth f).fld (R.SNS_STATUS k) F.SNS_STATUS_auth = auth ∧
    (auth = 2 → (d.headShown k auth f).fld (R.SNS_STATUS k) F.SNS_STATUS_svc = 0) ∧ (d.headShown k auth f).port k = f (d.port k) ∧
    ∀ j, j ≠ k → (d.headShown k auth f).port j = d.port j := by
  have hset : (d.setFld (R.SNS_STATUS k) F.SNS_STATUS_auth auth).fld (R.SNS_STATUS k) F.SNS_STATUS_auth = auth :=
    (Dev.fld_setFld_same _ _ _ _ (by decide)).trans (Nat.mod_eq_of_lt hauth)
  have hwork := (cmdWork_setStatus d k F.SNS_STATUS_auth auth).trans (cmdWork_modPort _ k f)
  have hport : (d.setFld (R.SNS_STATUS k) F.SNS_STATUS_auth auth).port = d.port := funext (port_congr (Dev.setFld_ports ..))
  have hown := port_modPort_same (d.setFld (R.SNS_STATUS k) F.SNS_STATUS_auth auth) k f
  have hothers := fun j (hj : j ≠ k) => port_modPort_ne (d.setFld (R.SNS_STATUS k) F.SNS_STATUS_auth auth) f hj
  have hfld : ∀ b, ((d.setFld (R.SNS_STATUS k) F.SNS_STATUS_auth auth).modPort k f).fld (R.SNS_STATUS k) b =
    (d.setFld (R.SNS_STATUS k) F.SNS_STATUS_auth auth).fld (R.SNS_STATUS k) b := fun _ => rfl
  rw [hport] at hown hothers
  unfold Dev.headShown
  simp only []
  generalize (d.setFld (R.SNS_STATUS k) F.SNS_STATUS_auth auth).modPort k f = e at *
  split
  · refine ⟨hwork.trans (cmdWork_setStatus ..), ?auth, fun _ => Dev.fld_setFld_same _ _ _ _ (by decide), hown, hothers⟩
    rw [Dev.fld_setFld_other _ _ _ (by decide) (by decide), hfld, hset]
  · next h => exact ⟨hwork, (hfld _).trans hset, fun h2 => absurd h2 h, hown, hothers⟩

/-- Device e has looked at the store of the head at port k of device d. -/
structure Dev.HeadSeen (d e : Dev) (k : Nat) (store : List Byte) (permit : Bool) : Prop where
  work : Dev.CmdWork d e
  auth : e.fld (R.SNS_STATUS k) F.SNS_STATUS_auth = headAuth (d.headOk store) permit
  stopped : headAuth (d.headOk store) permit = 2 → e.fld (R.SNS_STATUS k) F.SNS_STATUS_svc = 0
  own : e.port k = (d.port k).withHead store (d.headOk store) permit
  others : ∀ j, j ≠ k → e.port j = d.port j

theorem authHead_seen (d : Dev) (k : Nat) (store : List Byte) (permit : Bool) : Dev.HeadSeen d (d.authHead k store permit) k store permit := by
  obtain ⟨m, heq⟩ := authHead_eq d k store permit
  have hlog := headLogged_noted d k (d.headOk store)
  rw [heq]
  generalize d.headLogged k (d.headOk store) = g at hlog ⊢
  obtain ⟨hwork, hauth, hstop, hown, hothers⟩ := headShown_spec g k (headAuth_lt (d.headOk store) permit)
    (·.withHead store (d.headOk store) permit)
  generalize g.headShown k (headAuth (d.headOk store) permit) (·.withHead store (d.headOk store) permit) = e at *
  exact ⟨hlog.cmdWork.trans (hwork.trans ⟨.of_eq rfl rfl, rfl, rfl, rfl⟩), hauth, hstop, hown.trans (by rw [hlog.port]),
    fun j hj => (hothers j hj).trans (hlog.port j)⟩

/-! ### ATTACH_SENSOR -/

/-- A head that may run feeds the stream from the virtual channel. -/
def Port.bound (p : Port) (vc id : Nat) (cal : List Byte) (cont : Bool) (mbps : Nat) : Port :=
  { p with vcs := mput p.vcs vc id, cal := cal, contClock := cont, mbps := mbps }

/-- The command's head is bound where it may run, looked at, shown with its lanes, and checked for its life. -/
def Dev.attached (d : Dev) (e data store : List Byte) : Dev :=
  let k := byteAt e 18
  let permit := bit (byteAt e 21) 0
  let lanes := byteAt e 20
  let b := if d.headOk store || permit then d.modPort k (·.bound (byteAt e 19) (le e 16 2)
    (calFor store (if eAddr e = 0 then [] else padTo data (eLen e))) (bit (byteAt e 21) 1) (le e 22 2)) else d
  let l := (b.authHead k store permit).setFld (R.SNS_STATUS k) F.SNS_STATUS_lanes (if lanes = 1 then 0 else if lanes = 2 then 1 else 2)
  (if headSerial (d.port k).store = headSerial store then l
    else (l.setFld (R.SNS_STATUS k) F.SNS_STATUS_life_notice 0).headGone k).headLifeCheck k

/-- The virtual channel feeds the stream, and no other does. -/
theorem attach_free {m : SMap Port} {id k vc : Nat} (h : ∀ p ∈ m, ∀ v ∈ p.2.vcs, (v.2 = id ↔ p.1 = k ∧ v.1 = vc)) :
    (m.any fun p => p.2.vcs.any fun v => decide (v.2 = id) != (decide (p.1 = k) && decide (v.1 = vc))) = false := by
  rw [List.any_eq_false]
  intro p hp
  rw [Bool.not_eq_true, List.any_eq_false]
  intro v hv
  simp [h p hp v hv]

section

variable {s : State} {q : Nat} {e data store : List Byte} {x : Sq} {c : Cq} {st : Stream}

theorem exec_attachSensor (h : s.here.accepts 0x24 q e x c) (hst : mget s.here.streams (le e 16 2) = some st) (hkind : st.kind = 1)
    (hlive : st.destroying = false) (hk : byteAt e 18 < 4) (hvc : byteAt e 19 < 4) (hlanes : byteAt e 20 ∈ [1, 2, 4])
    (hlow : 80 ≤ le e 22 2) (hhigh : le e 22 2 ≤ 2500)
    (hfree : ∀ p ∈ s.here.ports, ∀ v ∈ p.2.vcs, (v.2 = le e 16 2 ↔ p.1 = byteAt e 18 ∧ v.1 = byteAt e 19)) (g : Dev)
    (hg : g = (s.here.fetched q).attached e data (padTo store 8192)) :
    exec (.attachSensor q e data store) s = .next { s with
      d := g.reply q e (if (s.here.headOk (padTo store 8192) || bit (byteAt e 21) 0) then 0 else Code.sensorAuth.num)
        (toLE 1 (g.fld (R.SNS_STATUS (byteAt e 18)) F.SNS_STATUS_auth)) } := by
  have arm : exec (.attachSensor q e data store) s = execAttachSensor q e data store s := rfl
  obtain ⟨-, hstreams, -, -⟩ := h.tables
  have hports : (s.here.fetched q).ports = s.here.ports := by rw [h.fetched]
  have hok : (s.here.fetched q).headOk (padTo store 8192) = s.here.headOk (padTo store 8192) := by rw [h.fetched]; rfl
  have hvalid : (st.kind ≠ 1 || st.destroying || 4 ≤ byteAt e 18 || 4 ≤ byteAt e 19 || !([1, 2, 4].contains (byteAt e 20)) ||
      le e 22 2 < 80 || 2500 < le e 22 2 || (s.here.fetched q).ports.any fun p => p.2.vcs.any fun v =>
        decide (v.2 = le e 16 2) != (p.1 = byteAt e 18 && v.1 = byteAt e 19)) = false := by
    rw [hports, attach_free hfree, List.contains_iff_mem.2 hlanes]
    simp [hkind, hlive, hk, hvc, hlow, hhigh]
  rw [arm, execAttachSensor, h.onCmd]
  simp only [Dev.stream?, hstreams, hst, hvalid]
  simp only [hok, hg, Dev.attached, Bool.false_eq_true, if_false]
  rfl

end

/-- A head that has been looked at shows its lanes, and is checked for its life; what the check says stays out of the fields named here. -/
def Dev.headSettled (l : Dev) (k lanes : Nat) (same : Bool) : Dev :=
  let e := l.setFld (R.SNS_STATUS k) F.SNS_STATUS_lanes lanes
  (if same then e else (e.setFld (R.SNS_STATUS k) F.SNS_STATUS_life_notice 0).headGone k).headLifeCheck k

theorem headSettled_noted (l : Dev) (k lanes : Nat) (same : Bool) :
    Dev.Noted (l.setFld (R.SNS_STATUS k) F.SNS_STATUS_lanes lanes) (l.headSettled k lanes same) k := by
  unfold Dev.headSettled
  cases same with
  | true => exact noted_headLifeCheck ..
  | false => exact (noted_lifeNotice ..).trans ((noted_headGone ..).trans (noted_headLifeCheck ..))

theorem headSettled_spec (l : Dev) (k : Nat) {lanes : Nat} (hlanes : lanes < 4) (same : Bool) : Dev.CmdWork l (l.headSettled k lanes same) ∧
    (l.headSettled k lanes same).fld (R.SNS_STATUS k) F.SNS_STATUS_lanes = lanes ∧
    (l.headSettled k lanes same).fld (R.SNS_STATUS k) F.SNS_STATUS_auth = l.fld (R.SNS_STATUS k) F.SNS_STATUS_auth ∧
    (l.headSettled k lanes same).fld (R.SNS_STATUS k) F.SNS_STATUS_svc = l.fld (R.SNS_STATUS k) F.SNS_STATUS_svc ∧
    ∀ j, (l.headSettled k lanes same).port j = l.port j := by
  have hn := headSettled_noted l k lanes same
  refine ⟨(cmdWork_setStatus ..).trans hn.cmdWork, ?lanes, ?auth, ?svc, fun j => (hn.port j).trans (port_congr (Dev.setFld_ports ..) j)⟩
  case lanes => exact (hn.status _ (by decide)).trans ((Dev.fld_setFld_same _ _ _ _ (by decide)).trans (Nat.mod_eq_of_lt hlanes))
  case auth => exact (hn.status _ (by decide)).trans (Dev.fld_setFld_other _ _ _ (by decide) (by decide))
  case svc => exact (hn.status _ (by decide)).trans (Dev.fld_setFld_other _ _ _ (by decide) (by decide))

/-- The port takes the stream where the head may run. -/
def Dev.attachPort (d : Dev) (e data store : List Byte) : Dev :=
  if d.headOk store || bit (byteAt e 21) 0 then d.modPort (byteAt e 18) (·.bound (byteAt e 19) (le e 16 2)
    (calFor store (if eAddr e = 0 then [] else padTo data (eLen e))) (bit (byteAt e 21) 1) (le e 22 2)) else d

/-- SNS_STATUS.lanes of a lane count. -/
def lanesField (lanes : Nat) : Nat := if lanes = 1 then 0 else if lanes = 2 then 1 else 2

theorem lanesField_lt (lanes : Nat) : lanesField lanes < 4 := by
  unfold lanesField
  split
  · decide
  · split <;> decide

theorem attached_eq (d : Dev) (e data store : List Byte) : d.attached e data store =
    ((d.attachPort e data store).authHead (byteAt e 18) store (bit (byteAt e 21) 0)).headSettled (byteAt e 18) (lanesField (byteAt e 20))
      (headSerial (d.port (byteAt e 18)).store = headSerial store) := by
  simp only [Dev.attached, Dev.headSettled, Dev.attachPort, lanesField, decide_eq_true_eq]

theorem attachPort_spec (d : Dev) (e data store : List Byte) : Dev.CmdWork d (d.attachPort e data store) ∧
    (d.attachPort e data store).headOk store = d.headOk store ∧ (∀ j, j ≠ byteAt e 18 → (d.attachPort e data store).port j = d.port j) ∧
    (headAuth (d.headOk store) (bit (byteAt e 21) 0) ≠ 2 →
      mget ((d.attachPort e data store).port (byteAt e 18)).vcs (byteAt e 19) = some (le e 16 2) ∧
      ((d.attachPort e data store).port (byteAt e 18)).mbps = le e 22 2) ∧
    (headAuth (d.headOk store) (bit (byteAt e 21) 0) = 2 → (d.attachPort e data store).port = d.port) := by
  rw [Ne, headAuth_eq_two]
  unfold Dev.attachPort
  split
  · next h =>
    refine ⟨cmdWork_modPort .., rfl, fun j hj => port_modPort_ne _ _ hj, fun _ => ?_, fun h2 => absurd h (by rw [h2]; decide)⟩
    rw [port_modPort_same]
    exact ⟨mget_mput_same .., rfl⟩
  · next h => exact ⟨.of_eq rfl rfl rfl rfl, rfl, fun _ _ => rfl, fun h2 => absurd (Bool.eq_false_iff.2 h) h2, fun _ => rfl⟩

/-- What ATTACH_SENSOR leaves behind. -/
theorem attached_spec (d : Dev) (e data store : List Byte) : Dev.CmdWork d (d.attached e data store) ∧
    (d.attached e data store).fld (R.SNS_STATUS (byteAt e 18)) F.SNS_STATUS_auth = headAuth (d.headOk store) (bit (byteAt e 21) 0) ∧
    ((d.attached e data store).port (byteAt e 18)).store = store ∧
    (d.attached e data store).fld (R.SNS_STATUS (byteAt e 18)) F.SNS_STATUS_lanes = lanesField (byteAt e 20) ∧
    (headAuth (d.headOk store) (bit (byteAt e 21) 0) ≠ 2 →
      mget ((d.attached e data store).port (byteAt e 18)).vcs (byteAt e 19) = some (le e 16 2) ∧
      ((d.attached e data store).port (byteAt e 18)).mbps = le e 22 2) ∧
    (headAuth (d.headOk store) (bit (byteAt e 21) 0) = 2 →
      (d.attached e data store).fld (R.SNS_STATUS (byteAt e 18)) F.SNS_STATUS_svc = 0 ∧
      ((d.attached e data store).port (byteAt e 18)).vcs = (d.port (byteAt e 18)).vcs) ∧
    ∀ j, j ≠ byteAt e 18 → (d.attached e data store).port j = d.port j := by
  obtain ⟨hwork, hok, hothers, hbound, hleft⟩ := attachPort_spec d e data store
  rw [attached_eq]
  generalize d.attachPort e data store = b at *
  have hseen := authHead_seen b (byteAt e 18) store (bit (byteAt e 21) 0)
  rw [← hok]
  rw [← hok] at hbound hleft
  generalize b.authHead (byteAt e 18) store (bit (byteAt e 21) 0) = l at hseen ⊢
  obtain ⟨hsettled, hlanes, hauth, hsvc, hports⟩ := headSettled_spec l (byteAt e 18) (lanesField_lt (byteAt e 20))
    (headSerial (d.port (byteAt e 18)).store = headSerial store)
  generalize l.headSettled _ _ _ = t at *
  have hown := (hports _).trans hseen.own
  refine ⟨hwork.trans (hseen.work.trans hsettled), hauth.trans hseen.auth, congrArg Port.store hown, hlanes, fun h => ?runs, fun h => ?stopped,
    fun j hj => (hports j).trans ((hseen.others j hj).trans (hothers j hj))⟩
  case runs =>
    rw [hown]
    exact hbound h
  case stopped => exact ⟨hsvc.trans (hseen.stopped h), by rw [hown, ← hleft h]; rfl⟩

/-! ### DETACH_SENSOR -/

/-- The port feeds no stream from the virtual channel. -/
def Port.unbound (p : Port) (vc : Nat) : Port := { p with vcs := mdel p.vcs vc }

/-- A port without a head. -/
def Port.headless (p : Port) : Port := { p with store := [], cal := [], authed := false, permit := false }

/-- The channel is free; without a channel the port has no head. -/
def Dev.detached (d : Dev) (k vc : Nat) : Dev :=
  if ((d.modPort k (·.unbound vc)).port k).vcs = [] then
    (((d.modPort k (·.unbound vc)).modPort k Port.headless).setFld (R.SNS_STATUS k) F.SNS_STATUS_auth 0).headGone k
  else d.modPort k (·.unbound vc)

theorem detached_spec (d : Dev) (k vc : Nat) : Dev.CmdWork d (d.detached k vc) ∧ ((d.detached k vc).port k).vcs = mdel (d.port k).vcs vc ∧
    (∀ j, j ≠ k → (d.detached k vc).port j = d.port j) ∧
    (mdel (d.port k).vcs vc = [] → ((d.detached k vc).port k).store = [] ∧ (d.detached k vc).fld (R.SNS_STATUS k) F.SNS_STATUS_auth = 0) := by
  have hwork := cmdWork_modPort d k (·.unbound vc)
  have hown := port_modPort_same d k (·.unbound vc)
  have hothers := fun j (hj : j ≠ k) => port_modPort_ne d (·.unbound vc) hj
  unfold Dev.detached
  generalize d.modPort k (·.unbound vc) = u at *
  have hvcs : (u.port k).vcs = mdel (d.port k).vcs vc := congrArg Port.vcs hown
  split
  · have hset := port_congr (Dev.setFld_ports (u.modPort k Port.headless) (R.SNS_STATUS k) F.SNS_STATUS_auth 0)
    have hgone := noted_headGone ((u.modPort k Port.headless).setFld (R.SNS_STATUS k) F.SNS_STATUS_auth 0) k
    have hport := fun j => (hgone.port j).trans (hset j)
    have hbare := (hport k).trans (port_modPort_same u k Port.headless)
    refine ⟨hwork.trans ((cmdWork_modPort ..).trans ((cmdWork_setStatus ..).trans hgone.cmdWork)), ?vcs,
      fun j hj => (hport j).trans ((port_modPort_ne _ _ hj).trans (hothers j hj)), fun _ => ⟨congrArg Port.store hbare, ?auth⟩⟩
    case vcs => exact (congrArg Port.vcs hbare).trans hvcs
    case auth => exact (hgone.status _ (by decide)).trans (Dev.fld_setFld_same _ _ _ _ (by decide))
  · next h => exact ⟨hwork, hvcs, hothers, fun h2 => absurd (hvcs.trans h2) h⟩

section

variable {s : State} {q : Nat} {e : List Byte} {x : Sq} {c : Cq}

theorem exec_detachSensor (h : s.here.accepts 0x25 q e x c) : exec (.detachSensor q e) s = .next { s with
    d := if 4 ≤ byteAt e 18 ∨ mget (s.here.port (byteAt e 18)).vcs (byteAt e 19) = none then (s.here.fetched q).reply q e 8
      else ((s.here.fetched q).detached (byteAt e 18) (byteAt e 19)).reply q e 0 } := by
  have arm : exec (.detachSensor q e) s = execDetachSensor q e s := rfl
  have hport : (s.here.fetched q).port = s.here.port := funext (port_congr (by rw [h.fetched]))
  rw [arm, execDetachSensor, h.onCmd]
  simp only [Bool.or_eq_true, decide_eq_true_eq, Option.isNone_iff_eq_none, ← hport]
  split <;> rfl

/-! ### SENSOR_XFER -/

/-- The head's bytes go to the host, the host's bytes to the head. -/
def xferWrite (e data : List Byte) (n : Nat) : DevWrite :=
  if bit (byteAt e 20) 0 then .mem (eAddr e) (padTo data n) else .i3c (byteAt e 18) (byteAt e 19) (padTo data n)

theorem exec_sensorXfer (h : s.here.accepts 0x26 q e x c) (hk : byteAt e 18 < 4) (ha : byteAt e 19 < 128) (hpos : 0 < eLen e)
    (hlen : eLen e ≤ 256) (hwrite : bit (byteAt e 20) 0 = true ∨ byteAt e 19 ≠ 0x50) (data : List Byte) (n : Nat) :
    exec (.sensorXfer q e data n) s = .next { s with
      d := ((s.here.fetched q).out (xferWrite e data (min n (eLen e)))).reply q e 0 (toLE 4 (min n (eLen e))) } := by
  have arm : exec (.sensorXfer q e data n) s = execSensorXfer q e data n s := rfl
  have hup : (s.here.fetched q).linkUp = true := by
    rw [← h.room.2, Dev.linkUp, Dev.linkUp, Dev.flag, Dev.flag, Dev.fld, Dev.fld, h.fetched_reg]
    rw [h.fetched]
  have hvalid : (4 ≤ byteAt e 18 || 128 ≤ byteAt e 19 || eLen e = 0 || 256 < eLen e || (!bit (byteAt e 20) 0 && byteAt e 19 = 0x50)) = false := by
    simpa [hk, ha, hpos.ne', hlen] using fun hb => hwrite.resolve_left (by rw [hb]; decide)
  rw [arm, execSensorXfer, h.onCmd]
  simp only [hvalid, send_linkUp hup, Bool.false_eq_true, if_false, xferWrite]
  split <;> rfl

/-- A transfer sends its bytes before it is answered. -/
theorem sensorXfer_answers {i : Instr} {w : DevWrite} {status : Nat} {result : List Byte} (h : s.here.accepts 0x26 q e x c)
    (hexec : exec i s = .next { s with d := ((s.here.fetched q).out w).reply q e status result }) :
    Answers i s fun t => s.onlyQueues t ∧ s.here.answered t.d q e x c status result ∧ ∃ more, t.d.host.sent = s.here.host.sent ++ w :: more := by
  have hout : Dev.CmdWork (s.here.fetched q) ((s.here.fetched q).out w) := ⟨⟨rfl, rfl, rfl, rfl, List.prefix_append ..⟩, rfl, rfl, rfl⟩
  obtain ⟨t, hrun, ht, hans, hrest, more, hsent⟩ := h.replied hout hexec
  refine ⟨t, hrun, ?queues, hans, more, ?sent⟩
  case queues =>
    rw [ht]
    exact h.onlyQueues hrest
  case sent =>
    rw [← hsent, Dev.out, h.fetched]
    simp only [List.append_assoc, List.singleton_append]

end

/-- Settles O35: a head that may run is bound to the stream before it is looked at, and nothing that follows touches the binding; DETACH_SENSOR
undoes the binding alone; a transfer's bytes are the first of what is sent. -/
theorem sensorCommands : Obligations.SensorCommands := by
  unfold Obligations.SensorCommands
  refine ⟨?attach, ?detach, ?xfer⟩
  case attach =>
    intro s q e data store x c st h hst hkind hlive hk hvc hlanes hlow hhigh hfree k B permit auth
    obtain ⟨hwork, hauth, hstore, hlane, hruns, hstopped, hothers⟩ := attached_spec (s.here.fetched q) e data B
    have hexec := exec_attachSensor h hst hkind hlive hk hvc hlanes hlow hhigh hfree (data := data) (store := store) _ rfl
    have hport : (s.here.fetched q).port = s.here.port := funext (port_congr (by rw [h.fetched]))
    have hok : (s.here.fetched q).headOk B = s.here.headOk B := by rw [h.fetched]; rfl
    have hcores : (s.here.fetched q).cores = s.here.cores := by rw [h.fetched]
    rw [hport] at hstopped hothers
    rw [hok] at hauth hruns hstopped
    obtain ⟨t, hrun, ht, hans, hrest, -⟩ := h.replied hwork hexec
    rw [hauth, attach_status] at hans
    generalize (s.here.fetched q).attached e data B = g at hauth hstore hlane hruns hstopped hothers hwork hrest
    refine ⟨t, hrun, ht, hans, ?_⟩
    rw [hrest]
    exact ⟨hauth, hstore, hlane, hruns, hstopped, hothers, hwork.cores.trans hcores⟩
  case detach =>
    intro s q e x c h k vc
    have hexec := exec_detachSensor h
    refine ⟨fun hbad => ?refused, fun hk hvc => ?freed⟩
    case refused =>
      rw [if_pos hbad] at hexec
      exact h.refused 8 hexec
    case freed =>
      rw [if_neg (not_or.2 ⟨Nat.not_le.2 hk, hvc⟩)] at hexec
      obtain ⟨hwork, hvcs, hothers, hgone⟩ := detached_spec (s.here.fetched q) k vc
      have hport : (s.here.fetched q).port = s.here.port := funext (port_congr (by rw [h.fetched]))
      have hcores : (s.here.fetched q).cores = s.here.cores := by rw [h.fetched]
      rw [hport] at hvcs hothers hgone
      obtain ⟨t, hrun, ht, hans, hrest, -⟩ := h.replied hwork hexec
      refine ⟨t, hrun, ht, hans, ?_⟩
      rw [hrest]
      exact ⟨hvcs, hothers, hgone, hwork.cores.trans hcores⟩
  case xfer =>
    intro s q n e data x c h hk ha hpos hlen hwrite m
    exact sensorXfer_answers h (exec_sensorXfer h hk ha hpos hlen hwrite data n)

end Sys2Proof.Machine
end

section
/-!
SUPPORT. A frame shaper whose settings name an input pool that does not exist (O23; R301, R305): the crop-list offset is taken from the register
at the pool's offset after the tensor has been written, and that register is then an error counter of DRAM, which the write may have counted in.
-/

namespace Sys2Proof.Machine

/-! ### The offset is taken behind the tensor -/

section

variable {d : Dev} {a c : Nat} {bs : List Byte}

theorem regs_putByte (d : Dev) (a : Nat) (b : Byte) : (d.putByte a b).regs = d.regs := by
  unfold Dev.putByte
  split
  · rfl
  · split <;> rfl

theorem regs_foldl_putByte (d : Dev) (ws : List (Byte × Nat)) : (ws.foldl (fun d x => d.putByte (a + x.2) x.1) d).regs = d.regs :=
  foldl_keeps Dev.regs (fun (d : Dev) (x : Byte × Nat) => d.putByte (a + x.2) x.1) (fun d x => regs_putByte d (a + x.2) x.1) ws d

/-- Bytes of a codeword without a place count one uncorrectable error (R242). -/
theorem regs_writeRun_lost (hpos : 0 < bs.length) (hlen : bs.length ≤ 32) (hplace : d.place (32 * c) = none) :
    (d.writeRun (32 * c) bs).regs = (d.satFld (R.DRC_CH_ECC (chanOf (32 * c))) F.DRC_CH_ECC_uncorrectable 1).regs := by
  have hone : (32 * c + bs.length - 1) / 32 + 1 - c = 1 := by omega
  have hdiv : 32 * c / 32 = c := by omega
  unfold Dev.writeRun
  simp only [regs_foldl_putByte, hone, hdiv, if_neg hpos.ne', List.range_one, List.map_cons, List.map_nil, List.foldl_cons, List.foldl_nil,
    Nat.add_zero, hplace]

theorem fld_writeRun_lost (hpos : 0 < bs.length) (hlen : bs.length ≤ 32) (hplace : d.place (32 * c) = none) (o : Nat) (f : Fld) :
    (d.writeRun (32 * c) bs).fld o f = (d.satFld (R.DRC_CH_ECC (chanOf (32 * c))) F.DRC_CH_ECC_uncorrectable 1).fld o f :=
  Dev.fld_congr (regs_writeRun_lost hpos hlen hplace) o f

end

/-- Device d with the tensor of a picture in its buffer. -/
def Dev.withTensor (d : Dev) (w : Shaping) (h : Nat) : Dev :=
  d.writeRun (d.bufAddr h) (frameTensor w.ep.shaper (w.px [] []) w.width w.height)

section

variable {d : Dev} {w : Shaping} {f : Frame} {h : Nat}

/-- A picture without crops or revisits: behind the tensor stands the crop list, at the place the registers name by then. -/
theorem writeFrame_plain (d : Dev) (hout : w.ep.shaper.outW ≠ 0) (hjobs : cropJobs w.ep.shaper w.width w.steer = ([], 0))
    (hrev : w.ep.shaper.revisitDepth = 0) : ∃ bs, d.writeFrame w [] [] h =
    ((d.withTensor w h).writeRun ((d.withTensor w h).listBase w.ep.shaper.inPool + 8192 * hIdx h) bs).modFrame w.stream w.frame false
      fun f => { f with st := .arrived, crops := 0,
                        listOff := ((d.withTensor w h).listBase w.ep.shaper.inPool + 8192 * hIdx h - sstBase) / 256 } := by
  have hrevisit : ∀ (d : Dev) n, d.revisitWrite w n [] [] = d := fun d n => by simp [Dev.revisitWrite, hrev]
  refine ⟨cropList w h w.flags 0 [], ?_⟩
  simp only [Dev.writeFrame, Dev.withTensor, hjobs, hout, if_false, List.map_nil, List.zipIdx_nil, List.foldl_nil, hrevisit, List.length_nil]

theorem withTensor_storesOnly (d : Dev) (w : Shaping) (h : Nat) : Dev.StoresOnly d (d.withTensor w h) := d.storesOnly_writeRun _ _

theorem writeFrame_streams (hout : w.ep.shaper.outW ≠ 0) (hjobs : cropJobs w.ep.shaper w.width w.steer = ([], 0))
    (hrev : w.ep.shaper.revisitDepth = 0) : (d.writeFrame w [] [] h).streams = d.streams := by
  obtain ⟨bs, hwrite⟩ := writeFrame_plain (h := h) d hout hjobs hrev
  rw [hwrite, Dev.modFrame_streams, ((withTensor_storesOnly d w h).trans (Dev.storesOnly_writeRun ..)).rest]

theorem writeFrame_frame (hframe : d.frame? w.stream w.frame false = some f) (hout : w.ep.shaper.outW ≠ 0)
    (hjobs : cropJobs w.ep.shaper w.width w.steer = ([], 0)) (hrev : w.ep.shaper.revisitDepth = 0) :
    (d.writeFrame w [] [] h).frame? w.stream w.frame false = some { f with
      st := .arrived, crops := 0, listOff := ((d.withTensor w h).listBase w.ep.shaper.inPool + 8192 * hIdx h - sstBase) / 256 } := by
  obtain ⟨bs, hwrite⟩ := writeFrame_plain (h := h) d hout hjobs hrev
  rw [hwrite]
  refine frame?_modFrame ?_ rfl rfl rfl
  rw [← hframe]
  exact frame?_congr (by rw [((withTensor_storesOnly d w h).trans (Dev.storesOnly_writeRun ..)).rest]) ..

end

/-! ### SHAPER_FRAME_COMPLETE of such a picture -/

/-- The pipe without the picture in work of a source. -/
def Dev.pictureTaken (d : Dev) (k src : Nat) (w : Shaping) : Dev :=
  ((d.modPipe k fun x => { x with work := mdel x.work src }).modPort k fun x =>
    { x with ended := x.ended.filter fun y => !(sourceVc src = some y.1 && y.2.frame = w.frame) }).syncPipe k

theorem exec_frameComplete_plain {s : State} {k src h : Nat} {w : Shaping} {f : Frame} {st : Stream} (hsrc : sourceVc src = none)
    (hwork : mget (s.here.pipe k).work src = some w) (hrows : w.height ≤ w.rows.length) (hon : s.here.pipeOn k = true)
    (hframe : s.here.frame? w.stream w.frame false = some f) (hbuf : w.buf = some h) (hst : mget s.here.streams w.stream = some st)
    (hkind : st.kind ≠ 1) (hout : w.ep.shaper.outW ≠ 0) (hjobs : cropJobs w.ep.shaper w.width w.steer = ([], 0))
    (hrev : w.ep.shaper.revisitDepth = 0) :
    exec (.shaperFrameComplete k src) s = .next { s with d := (s.here.pictureTaken k src w).writeFrame w [] [] h } := by
  have arm : exec (.shaperFrameComplete k src) s = execShaperFrameComplete k src s := rfl
  have hframe' : (s.here.pictureTaken k src w).frame? w.stream w.frame false = some f := hframe
  have hstream : ((s.here.pictureTaken k src w).writeFrame w [] [] h).stream? w.stream = some st := by
    rw [Dev.stream?, writeFrame_streams hout hjobs hrev]
    exact hst
  have hheight : s.here.picHeight k src w = some w.height := by rw [Dev.picHeight, hsrc]
  have hsame : { w with buf := some h } = w := by rw [← hbuf]
  have hread : (w.rows.length < w.height || !s.here.pipeOn k) = false := by simp [hrows, hon]
  rw [arm, execShaperFrameComplete, onDev_here]
  simp only [hwork, hheight, hread, Bool.false_eq_true, if_false]
  generalize htaken : Dev.syncPipe _ k = e
  obtain rfl : s.here.pictureTaken k src w = e := htaken
  simp only [hframe', hbuf, hsrc, Option.isSome_none, Bool.false_eq_true, if_false, hsame, hstream, Option.map_some, Option.getD_some, if_neg hkind]

/-- A picture of one pixel has three bytes. -/
theorem frameTensor_pixel {s : ShaperSet} (hw : s.outW = 1) (hh : s.outH = 1) (hlayout : s.layout = 0) (px : Nat → Nat → List Nat) (W H : Nat) :
    (frameTensor s px W H).length = (outChans s).length := by
  simp [frameTensor, outFormat, hw, hh, hlayout]

/-! ### The concrete state -/

/-- SHP_LIST of this pool is DRC_CH_ECC of channel 0. -/
def strayPool : Nat := 0xA042

def strayShaper : ShaperSet := { inPool := strayPool, outW := 1, outH := 1 }

def strayEpoch : Epoch := { num := 0, codec := {}, shaper := strayShaper, bind := {} }

/-- A picture whose rows are all read, with a buffer. -/
def strayPicture : Shaping :=
  { stream := 0, frame := 0, ep := strayEpoch, stamp := 0, width := 0, height := 0, vuiMatrix := none, fullRange := false, rows := [],
    buf := some 0, noBuf := false, steer := [], steerFrame := 0, flags := 0 }

def strayFrame : Frame := { stream := 0, num := 0, ep := strayEpoch, stamp := 0, st := .shaping }

/-- Pool 0 lies at the start of DRAM, which is not trained. -/
def strayState : State :=
  { d := { regs := [(R.BPM_POOL_BASE_HI 0, 1)], pipes := [(0, { work := [(0, strayPicture)] })], sched := { frames := [strayFrame] },
           streams := [(0, smallStream)] } }

/-- The state's device without the picture in work. -/
def strayTaken : Dev := strayState.here.pictureTaken 0 0 strayPicture

theorem not_place_untrained {d : Dev} (htrained : d.fld R.DRC_STATUS F.DRC_STATUS_trained = 0) {a : Nat} (h : dramBase ≤ a) : d.place a = none := by
  simp [Dev.place, Nat.not_lt.2 h, Dev.dieOf, htrained, bit]

theorem strayState_place (a : Nat) (h : strayState.here.place a ≠ none) : a < dramBase :=
  Nat.lt_of_not_le fun hhigh => h (not_place_untrained (by decide) hhigh)

theorem strayState_slot {a : Nat} (h : a < strayState.here.listBase strayPool + 8192 * hIdx 0 + 8192) : strayState.here.place a ≠ none := by
  have hend : strayState.here.listBase strayPool + 8192 * hIdx 0 + 8192 ≤ dramBase := by decide
  rw [Dev.place, if_pos (Nat.lt_of_lt_of_le h hend)]
  exact Option.some_ne_none a

/-- The write of the tensor counts in the register, and the slot moves by eight. -/
theorem strayTaken_listOff : ((strayTaken.withTensor strayPicture 0).listBase strayPool + 8192 * hIdx 0 - sstBase) / 256 = 256 := by
  have haddr : strayTaken.bufAddr 0 = 32 * 2 ^ 27 := by decide
  have hlen : (frameTensor strayPicture.ep.shaper (strayPicture.px [] []) strayPicture.width strayPicture.height).length = 3 :=
    (frameTensor_pixel rfl rfl rfl ..).trans (by decide)
  have hlist : (strayTaken.satFld (R.DRC_CH_ECC 0) F.DRC_CH_ECC_uncorrectable 1).fld (R.SHP_LIST strayPool) F.SHP_LIST_list_base = 8 := by decide
  have hfld : (strayTaken.withTensor strayPicture 0).fld (R.SHP_LIST strayPool) F.SHP_LIST_list_base = 8 := by
    rw [Dev.withTensor, haddr, ← hlist]
    exact fld_writeRun_lost (by rw [hlen]; decide) (by rw [hlen]; decide) (not_place_untrained (by decide) (by decide)) ..
  rw [Dev.listBase, hfld]
  decide

theorem exec_strayState : exec (.shaperFrameComplete 0 0) strayState =
    .next { strayState with d := strayTaken.writeFrame strayPicture [] [] 0 } :=
  exec_frameComplete_plain (f := strayFrame) (st := smallStream) rfl (by decide) (by decide) (by decide) (by decide) rfl (by decide) (by decide)
    (by decide) rfl rfl

/-- Refutes O23: in strayState the frame's crop-list slot is offset 256, not 0. The settings name an input pool that does not exist, so the
register that gives the slot's address is an error counter of DRAM, and the write of the tensor to DRAM out of service counts in it. -/
theorem not_shaperServes : ¬ Obligations.ShaperServes := by
  unfold Obligations.ShaperServes
  rintro ⟨-, -, -, -, hcomplete⟩
  obtain ⟨-, hwritten⟩ := hcomplete strayState 0 0 0 strayPicture strayFrame smallStream (by decide) (by decide) (by decide) (by decide)
    (by decide) (by decide)
  obtain ⟨t, hexec, -, -, ⟨hclaimed, -⟩, -⟩ := hwritten 0 rfl (by decide) rfl rfl
    (fun a ha => Dev.writable_low _ (strayState_place a ha)) (fun a _ hslot => strayState_slot hslot)
  rw [exec_strayState, Host.Outcome.next.injEq] at hexec
  subst hexec
  have hframe := writeFrame_frame (d := strayTaken) (w := strayPicture) (f := strayFrame) (h := 0) (by decide) (by decide) rfl rfl
  have hoff := congrArg (Option.map Frame.listOff) (hframe.symm.trans hclaimed)
  simp only [Option.map_some, Option.some.injEq] at hoff
  exact absurd (strayTaken_listOff.symm.trans hoff) (by decide)

end Sys2Proof.Machine
end

section
/-!
SUPPORT. Wakes, sleep requests and CPR_PWR_CTL (O47; R357, R358, R466 to R473): the steps of a wake and of a sleep request, each with the fields
of CPR_PWR_STATUS it sets and the ones it leaves.
-/

namespace Sys2Proof.Machine

/-! ### The phase -/

/-- Nothing changes but registers and power state. -/
def Dev.PowerRegs (d e : Dev) : Prop := e = { d with regs := e.regs, pwr := e.pwr }

theorem Dev.PowerRegs.trans {d e f : Dev} (h : Dev.PowerRegs d e) (g : Dev.PowerRegs e f) : Dev.PowerRegs d f := by
  unfold Dev.PowerRegs at *
  rw [g, h]

section

variable (d : Dev)

theorem fld_pwr (p : Power) (o : Nat) (g : Fld) : Dev.fld { d with pwr := p } o g = d.fld o g := rfl

theorem reg_pwr (p : Power) (o : Nat) : Dev.reg { d with pwr := p } o = d.reg o := rfl

theorem powerRegs_setFld (o : Nat) (f : Fld) (n : Nat) : Dev.PowerRegs d (d.setFld o f n) := by apply Dev.eq_of <;> simp

theorem powerRegs_pwr (p : Power) : Dev.PowerRegs d { d with pwr := p } := rfl

theorem setPhase_powerRegs (p : Phase) : Dev.PowerRegs d (d.setPhase p) := by apply Dev.eq_of <;> simp

theorem setPhase_pwr (p : Phase) : (d.setPhase p).pwr = { d.pwr with phase := p } := by simp [Dev.setPhase]

theorem setPhase_alive (p : Phase) : (d.setPhase p).fld R.GLB_ALIVE F.GLB_ALIVE_state = p.code := by
  rw [Dev.setPhase, fld_pwr, Dev.fld_setFld_ne _ _ _ _ (by decide), Dev.fld_setFld_same _ _ _ _ (by decide)]
  cases p <;> rfl

/-- The other fields of CPR_PWR_STATUS stay. -/
theorem setPhase_status (p : Phase) {g : Fld} (hg : 3 ≤ g.lsb) : (d.setPhase p).fld R.CPR_PWR_STATUS g = d.fld R.CPR_PWR_STATUS g := by
  have hbehind : g.lsb + g.w ≤ F.CPR_PWR_STATUS_state.lsb ∨ F.CPR_PWR_STATUS_state.lsb + F.CPR_PWR_STATUS_state.w ≤ g.lsb := .inr hg
  rw [Dev.setPhase, fld_pwr, Dev.fld_setFld_other _ _ _ (by decide) hbehind, Dev.fld_setFld_ne _ _ _ _ (by decide)]

theorem setPhase_reg (p : Phase) {o : Nat} (halive : o ≠ R.GLB_ALIVE) (hstatus : o ≠ R.CPR_PWR_STATUS) : (d.setPhase p).reg o = d.reg o := by
  rw [Dev.setPhase, reg_pwr, Dev.reg_setFld_ne _ _ _ hstatus, Dev.reg_setFld_ne _ _ _ halive]

/-! ### A wake, step by step (R468, R470) -/

/-- The cause bit of a wake is set. -/
def Dev.caused (cause : Option Nat) : Dev :=
  match cause with
  | some c => d.setFld R.CPR_PWR_STATUS F.CPR_PWR_STATUS_cause (d.fld R.CPR_PWR_STATUS F.CPR_PWR_STATUS_cause ||| 2 ^ c)
  | none => d

/-- The device is active now. -/
def Dev.stirred (cause : Option Nat) : Dev :=
  { d.caused cause with pwr := { (d.caused cause).pwr with lastActive := (d.caused cause).now } }

/-- The target of a wake is taken from wake_target. -/
def Dev.aimed (cause : Option Nat) : Dev :=
  if cause.isSome then d.setFld R.CPR_PWR_CTL F.CPR_PWR_CTL_target (d.fld R.CPR_PWR_CTL F.CPR_PWR_CTL_wake_target + 1) else d

theorem caused_powerRegs (cause : Option Nat) : Dev.PowerRegs d (d.caused cause) := by
  cases cause with
  | none => rfl
  | some c => exact powerRegs_setFld ..

theorem caused_pwr (cause : Option Nat) : (d.caused cause).pwr = d.pwr := by cases cause <;> simp [Dev.caused]

theorem stirred_powerRegs (cause : Option Nat) : Dev.PowerRegs d (d.stirred cause) := (caused_powerRegs d cause).trans (powerRegs_pwr ..)

theorem stirred_pwr (cause : Option Nat) : (d.stirred cause).pwr = { d.pwr with lastActive := d.now } := by
  rw [Dev.stirred, caused_pwr, caused_powerRegs d cause]

theorem stirred_reg (cause : Option Nat) {o : Nat} (h : o ≠ R.CPR_PWR_STATUS) : (d.stirred cause).reg o = d.reg o := by
  rw [Dev.stirred, reg_pwr]
  cases cause with
  | none => rfl
  | some c => exact d.reg_setFld_ne _ _ h

theorem stirred_status (cause : Option Nat) {g : Fld} (hg : g.lsb + g.w ≤ 8 ∨ 13 ≤ g.lsb) :
    (d.stirred cause).fld R.CPR_PWR_STATUS g = d.fld R.CPR_PWR_STATUS g := by
  rw [Dev.stirred, fld_pwr]
  cases cause with
  | none => rfl
  | some c => exact d.fld_setFld_other _ _ (by decide) hg

theorem stirred_cause {c : Nat} (hc : c < 5) : bit ((d.stirred (some c)).fld R.CPR_PWR_STATUS F.CPR_PWR_STATUS_cause) c = true := by
  rw [Dev.stirred, fld_pwr, Dev.caused, Dev.fld_setFld_same _ _ _ _ (by decide), bit, Nat.testBit_mod_two_pow, Nat.testBit_or,
    Nat.testBit_two_pow_self, Bool.or_true, Bool.and_true]
  exact decide_eq_true hc

theorem aimed_powerRegs (cause : Option Nat) : Dev.PowerRegs d (d.aimed cause) := by
  cases cause with
  | none => rfl
  | some c => exact powerRegs_setFld ..

theorem aimed_pwr (cause : Option Nat) : (d.aimed cause).pwr = d.pwr := by cases cause <;> simp [Dev.aimed]

theorem aimed_reg (cause : Option Nat) {o : Nat} (h : o ≠ R.CPR_PWR_CTL) : (d.aimed cause).reg o = d.reg o := by
  cases cause with
  | none => rfl
  | some c => exact d.reg_setFld_ne _ _ h

theorem aimed_target {cause : Option Nat} (h : cause ≠ none) :
    (d.aimed cause).fld R.CPR_PWR_CTL F.CPR_PWR_CTL_target = d.fld R.CPR_PWR_CTL F.CPR_PWR_CTL_wake_target + 1 := by
  have hbit : d.fld R.CPR_PWR_CTL F.CPR_PWR_CTL_wake_target < 2 := Nat.mod_lt _ (by decide)
  rw [Dev.aimed, if_pos (Option.isSome_iff_ne_none.2 h), Dev.fld_setFld_same _ _ _ _ (by decide)]
  exact Nat.mod_eq_of_lt (by show _ < 4; omega)

/-! ### Dawn begins (R470, R516) -/

/-- The rails are raised, and registers are restored. -/
def Power.raised (p : Power) : Power := { p with phase := .dawn, restore := true, groups := 1, groupOk := false, failed := false }

theorem leaveNight_eq : d.leaveNight = { ((d.setPhase .dawn).setEntering true).satFld R.CPR_PWR_STATUS F.CPR_PWR_STATUS_wakes 1 with
    pwr := d.pwr.raised } := by
  have hpwr : (((d.setPhase .dawn).setEntering true).satFld R.CPR_PWR_STATUS F.CPR_PWR_STATUS_wakes 1).pwr = { d.pwr with phase := .dawn } := by
    rw [Dev.satFld_pwr, Dev.setEntering, Dev.setFld_pwr, setPhase_pwr]
  unfold Dev.leaveNight
  simp only []
  generalize ((d.setPhase .dawn).setEntering true).satFld R.CPR_PWR_STATUS F.CPR_PWR_STATUS_wakes 1 = e at hpwr ⊢
  rw [Dev.setGroups, Power.raised, hpwr]

theorem leaveNight_powerRegs : Dev.PowerRegs d d.leaveNight := by
  rw [leaveNight_eq]
  exact (setPhase_powerRegs d .dawn).trans ((powerRegs_setFld ..).trans ((powerRegs_setFld ..).trans (powerRegs_pwr ..)))

theorem leaveNight_pwr : d.leaveNight.pwr = d.pwr.raised := by rw [leaveNight_eq]

theorem leaveNight_reg {o : Nat} (halive : o ≠ R.GLB_ALIVE) (hstatus : o ≠ R.CPR_PWR_STATUS) : d.leaveNight.reg o = d.reg o := by
  rw [leaveNight_eq, reg_pwr, Dev.satFld, Dev.reg_setFld_ne _ _ _ hstatus, Dev.setEntering, Dev.reg_setFld_ne _ _ _ hstatus,
    setPhase_reg d .dawn halive hstatus]

theorem leaveNight_status {g : Fld} (hlow : 5 ≤ g.lsb) (hhigh : g.lsb + g.w ≤ 24) :
    d.leaveNight.fld R.CPR_PWR_STATUS g = d.fld R.CPR_PWR_STATUS g := by
  have hbefore : g.lsb + g.w ≤ F.CPR_PWR_STATUS_wakes.lsb ∨ F.CPR_PWR_STATUS_wakes.lsb + F.CPR_PWR_STATUS_wakes.w ≤ g.lsb := .inl hhigh
  have hbehind : g.lsb + g.w ≤ F.CPR_PWR_STATUS_entering.lsb ∨ F.CPR_PWR_STATUS_entering.lsb + F.CPR_PWR_STATUS_entering.w ≤ g.lsb := .inr hlow
  rw [leaveNight_eq, fld_pwr, Dev.satFld, Dev.fld_setFld_other _ _ _ (by decide) hbefore, Dev.setEntering,
    Dev.fld_setFld_other _ _ _ (by decide) hbehind, setPhase_status d .dawn (by omega)]

theorem leaveNight_entering : d.leaveNight.flag R.CPR_PWR_STATUS F.CPR_PWR_STATUS_entering = true := by
  rw [Dev.flag, leaveNight_eq, fld_pwr, Dev.satFld, Dev.fld_setFld_other _ _ _ (by decide) (by decide), Dev.setEntering,
    Dev.fld_setFld_same _ _ _ _ (by decide)]
  rfl

theorem leaveNight_wakes : d.leaveNight.fld R.CPR_PWR_STATUS F.CPR_PWR_STATUS_wakes =
    min 255 (d.fld R.CPR_PWR_STATUS F.CPR_PWR_STATUS_wakes + 1) := by
  rw [leaveNight_eq, fld_pwr, Dev.satFld, Dev.fld_setFld_same _ _ _ _ (by decide), Dev.setEntering,
    Dev.fld_setFld_other _ _ _ (by decide) (by decide), setPhase_status d .dawn (by decide)]
  exact Nat.mod_eq_of_lt (Nat.lt_of_le_of_lt (Nat.min_le_left ..) (by decide))

/-! ### A wake as a whole -/

theorem wake_dusk {cause : Option Nat} (h : d.pwr.phase = .dusk) :
    d.wake cause = ((d.stirred cause).aimed cause).setFld R.CPR_PWR_STATUS F.CPR_PWR_STATUS_wake_pending 1 := by
  cases cause <;> simp [Dev.wake, Dev.stirred, Dev.caused, Dev.aimed, h]

theorem wake_night {cause : Option Nat} (h : d.pwr.phase = .night) :
    d.wake cause = if d.recov.limit || d.pwr.tripped then d.stirred cause else ((d.stirred cause).aimed cause).leaveNight := by
  cases cause <;> simp [Dev.wake, Dev.stirred, Dev.caused, Dev.aimed, h]

theorem wake_elsewhere {cause : Option Nat} (hdusk : d.pwr.phase ≠ .dusk) (hnight : d.pwr.phase ≠ .night) :
    d.wake cause = d.stirred cause := by
  cases hphase : d.pwr.phase with
  | dusk => exact absurd hphase hdusk
  | night => exact absurd hphase hnight
  | booting | ready | resetting | dawn => cases cause <;> simp [Dev.wake, Dev.stirred, Dev.caused, hphase]

end

section

variable {d : Dev} {cause : Option Nat}

/-- A wake sets its cause and the time of activity, in every phase. -/
structure Dev.Stirred (d e : Dev) (cause : Option Nat) : Prop where
  rest : Dev.PowerRegs d e
  active : e.pwr.lastActive = d.now
  between : ∀ g : Fld, 5 ≤ g.lsb → g.lsb + g.w ≤ 24 → e.fld R.CPR_PWR_STATUS g = (d.stirred cause).fld R.CPR_PWR_STATUS g
  ctl : cause = none → e.reg R.CPR_PWR_CTL = d.reg R.CPR_PWR_CTL

theorem stirred_self : Dev.Stirred d (d.stirred cause) cause :=
  ⟨stirred_powerRegs d cause, by rw [stirred_pwr], fun _ _ _ => rfl, fun _ => stirred_reg d cause (by decide)⟩

theorem aimed_stirred : Dev.Stirred d ((d.stirred cause).aimed cause) cause where
  rest := (stirred_powerRegs d cause).trans (aimed_powerRegs ..)
  active := by rw [aimed_pwr, stirred_pwr]
  between g _ _ := congrArg g.get (aimed_reg _ cause (by decide))
  ctl h := by
    subst h
    exact stirred_reg d none (by decide)

theorem wake_stirred : Dev.Stirred d (d.wake cause) cause := by
  have haimed := aimed_stirred (d := d) (cause := cause)
  by_cases hdusk : d.pwr.phase = .dusk
  · rw [wake_dusk d hdusk]
    refine ⟨haimed.rest.trans (powerRegs_setFld ..), by rw [Dev.setFld_pwr, haimed.active], fun g hlow hhigh => ?_, fun h => ?_⟩
    · have hbehind : g.lsb + g.w ≤ F.CPR_PWR_STATUS_wake_pending.lsb ∨
        F.CPR_PWR_STATUS_wake_pending.lsb + F.CPR_PWR_STATUS_wake_pending.w ≤ g.lsb := .inr (by show 4 ≤ g.lsb; omega)
      rw [Dev.fld_setFld_other _ _ _ (by decide) hbehind, haimed.between g hlow hhigh]
    · rw [Dev.reg_setFld_ne _ _ _ (by decide), haimed.ctl h]
  by_cases hnight : d.pwr.phase = .night
  · rw [wake_night d hnight]
    split
    · exact stirred_self
    · refine ⟨haimed.rest.trans (leaveNight_powerRegs _), by rw [leaveNight_pwr]; exact haimed.active, fun g hlow hhigh => ?_, fun h => ?_⟩
      · rw [leaveNight_status _ hlow hhigh, haimed.between g hlow hhigh]
      · rw [leaveNight_reg _ (by decide) (by decide), haimed.ctl h]
  · rw [wake_elsewhere d hdusk hnight]
    exact stirred_self

theorem wake_phase (hnight : d.pwr.phase ≠ .night) : (d.wake cause).pwr.phase = d.pwr.phase := by
  by_cases hdusk : d.pwr.phase = .dusk
  · rw [wake_dusk d hdusk, Dev.setFld_pwr, aimed_pwr, stirred_pwr]
  · rw [wake_elsewhere d hdusk hnight, stirred_pwr]

theorem wake_pending (hdusk : d.pwr.phase = .dusk) : (d.wake cause).flag R.CPR_PWR_STATUS F.CPR_PWR_STATUS_wake_pending = true := by
  rw [wake_dusk d hdusk, Dev.flag, Dev.fld_setFld_same _ _ _ _ (by decide)]
  rfl

/-- Not at the recovery limit, not after a thermal trip. -/
theorem wake_kept (hnight : d.pwr.phase = .night) (h : d.recov.limit = true ∨ d.pwr.tripped = true) : (d.wake cause).pwr.phase = .night := by
  rw [wake_night d hnight, if_pos (Bool.or_eq_true_iff.2 h), stirred_pwr]
  exact hnight

theorem wake_dawn (hnight : d.pwr.phase = .night) (hlimit : d.recov.limit = false) (htrip : d.pwr.tripped = false) :
    (d.wake cause).pwr.phase = .dawn ∧ (d.wake cause).pwr.groups = 1 ∧ (d.wake cause).pwr.restore = true ∧
    (d.wake cause).flag R.CPR_PWR_STATUS F.CPR_PWR_STATUS_entering = true ∧
    (d.wake cause).fld R.CPR_PWR_STATUS F.CPR_PWR_STATUS_wakes = min 255 (d.fld R.CPR_PWR_STATUS F.CPR_PWR_STATUS_wakes + 1) ∧
    (cause ≠ none → (d.wake cause).fld R.CPR_PWR_CTL F.CPR_PWR_CTL_target = d.fld R.CPR_PWR_CTL F.CPR_PWR_CTL_wake_target + 1) := by
  have hleave : d.wake cause = ((d.stirred cause).aimed cause).leaveNight := by rw [wake_night d hnight, if_neg (by simp [hlimit, htrip])]
  rw [hleave, leaveNight_pwr]
  refine ⟨rfl, rfl, rfl, leaveNight_entering _, ?wakes, fun h => ?target⟩
  case wakes =>
    have hwakes : ((d.stirred cause).aimed cause).fld R.CPR_PWR_STATUS F.CPR_PWR_STATUS_wakes = d.fld R.CPR_PWR_STATUS F.CPR_PWR_STATUS_wakes :=
      (congrArg F.CPR_PWR_STATUS_wakes.get (aimed_reg _ cause (by decide))).trans (stirred_status d cause (by decide))
    rw [leaveNight_wakes, hwakes]
  case target =>
    have hkept := congrArg F.CPR_PWR_CTL_target.get (leaveNight_reg ((d.stirred cause).aimed cause) (o := R.CPR_PWR_CTL) (by decide) (by decide))
    have hwake := congrArg F.CPR_PWR_CTL_wake_target.get (stirred_reg d cause (o := R.CPR_PWR_CTL) (by decide))
    exact hkept.trans ((aimed_target _ h).trans (congrArg (· + 1) hwake))

theorem wake_woken (d : Dev) (cause : Option Nat) : Dev.woken d (d.wake cause) d.now cause := by
  have hstir := wake_stirred (d := d) (cause := cause)
  refine ⟨hstir.active, ?cause, wake_phase, wake_kept, wake_pending, wake_dawn⟩
  case cause =>
    rintro c rfl hc
    rw [hstir.between _ (by decide) (by decide)]
    exact stirred_cause d hc

/-- A wake depends on the power state, the recovery limit and three fields alone. -/
theorem Dev.woken.of_agree {a t : Dev} {T : Nat} (h : Dev.woken a t T cause) (hpwr : a.pwr = d.pwr) (hrecov : a.recov = d.recov)
    (hwakes : a.fld R.CPR_PWR_STATUS F.CPR_PWR_STATUS_wakes = d.fld R.CPR_PWR_STATUS F.CPR_PWR_STATUS_wakes)
    (hctl : cause ≠ none → a.reg R.CPR_PWR_CTL = d.reg R.CPR_PWR_CTL) : Dev.woken d t T cause := by
  obtain ⟨hactive, hcause, hphase, hkept, hpending, hdawn⟩ := h
  rw [hpwr] at hphase hkept hpending hdawn
  rw [hrecov] at hkept hdawn
  rw [hwakes] at hdawn
  refine ⟨hactive, hcause, hphase, hkept, hpending, fun hnight hlimit htrip => ?_⟩
  obtain ⟨hto, hgroups, hrestore, hentering, hcount, htarget⟩ := hdawn hnight hlimit htrip
  exact ⟨hto, hgroups, hrestore, hentering, hcount, fun h => (htarget h).trans
    (congrArg (fun r => F.CPR_PWR_CTL_wake_target.get r + 1) (hctl h))⟩

end

/-! ### Sleep requests (R468, R473) -/

section

variable (d : Dev)

theorem startDusk_pwr : d.startDusk.pwr = { d.pwr with phase := .dusk, duskStart := some d.now, sleepPending := false } := by
  simp [Dev.startDusk, setPhase_pwr]

theorem startDusk_powerRegs : Dev.PowerRegs d d.startDusk := (setPhase_powerRegs d .dusk).trans (powerRegs_pwr ..)

theorem startDusk_alive : d.startDusk.fld R.GLB_ALIVE F.GLB_ALIVE_state = 3 := by
  rw [Dev.startDusk, fld_pwr, setPhase_alive]
  rfl

theorem startDusk_ctl : d.startDusk.reg R.CPR_PWR_CTL = d.reg R.CPR_PWR_CTL := by
  rw [Dev.startDusk, reg_pwr, setPhase_reg d .dusk (by decide) (by decide)]

/-- A sleep request that finds the device entering, booting or in reset waits. -/
def Dev.sleepLater : Dev := { d with pwr := { d.pwr with sleepPending := true } }

section

variable {d}

theorem sleepReq_starts (h : d.pwr.phase = .ready ∨ d.pwr.phase = .dawn ∧ d.flag R.CPR_PWR_STATUS F.CPR_PWR_STATUS_entering = false) :
    d.sleepReq = d.startDusk := by
  obtain hready | ⟨hdawn, hentering⟩ := h
  · simp [Dev.sleepReq, hready]
  · simp [Dev.sleepReq, hdawn, hentering]

theorem sleepReq_later (h : d.pwr.phase = .booting ∨ d.pwr.phase = .resetting ∨
    d.pwr.phase = .dawn ∧ d.flag R.CPR_PWR_STATUS F.CPR_PWR_STATUS_entering = true) : d.sleepReq = d.sleepLater := by
  obtain hbooting | hresetting | ⟨hdawn, hentering⟩ := h
  · simp [Dev.sleepReq, Dev.sleepLater, hbooting]
  · simp [Dev.sleepReq, Dev.sleepLater, hresetting]
  · simp [Dev.sleepReq, Dev.sleepLater, hdawn, hentering]

theorem sleepReq_dusk (h : d.pwr.phase = .dusk) : d.sleepReq = d.setFld R.CPR_PWR_STATUS F.CPR_PWR_STATUS_wake_pending 0 := by
  simp [Dev.sleepReq, h]

theorem sleepReq_night (h : d.pwr.phase = .night) : d.sleepReq = d := by simp [Dev.sleepReq, h]

end

theorem sleepReq_cases : d.sleepReq = d.startDusk ∨ d.sleepReq = d.sleepLater ∨
    d.sleepReq = d.setFld R.CPR_PWR_STATUS F.CPR_PWR_STATUS_wake_pending 0 ∨ d.sleepReq = d := by
  cases hphase : d.pwr.phase with
  | dawn =>
    cases hentering : d.flag R.CPR_PWR_STATUS F.CPR_PWR_STATUS_entering with
    | false => exact .inl (sleepReq_starts (.inr ⟨hphase, hentering⟩))
    | true => exact .inr (.inl (sleepReq_later (.inr (.inr ⟨hphase, hentering⟩))))
  | ready => exact .inl (sleepReq_starts (.inl hphase))
  | booting => exact .inr (.inl (sleepReq_later (.inl hphase)))
  | resetting => exact .inr (.inl (sleepReq_later (.inr (.inl hphase))))
  | dusk => exact .inr (.inr (.inl (sleepReq_dusk hphase)))
  | night => exact .inr (.inr (.inr (sleepReq_night hphase)))

theorem sleepReq_powerRegs : Dev.PowerRegs d d.sleepReq := by
  obtain h | h | h | h := sleepReq_cases d <;> rw [h]
  · exact startDusk_powerRegs d
  · exact powerRegs_pwr ..
  · exact powerRegs_setFld ..
  · rfl

theorem sleepReq_ctl : d.sleepReq.reg R.CPR_PWR_CTL = d.reg R.CPR_PWR_CTL := by
  obtain h | h | h | h := sleepReq_cases d <;> rw [h]
  · exact startDusk_ctl d
  · exact reg_pwr ..
  · exact d.reg_setFld_ne _ _ (by decide)

theorem sleepReq_slept : Dev.slept d d.sleepReq d.now := by
  refine ⟨fun h => ?starts, fun h => ?later, fun h => ?withdrawn, fun h => ?night⟩
  case starts =>
    rw [sleepReq_starts h, startDusk_pwr]
    exact ⟨rfl, rfl, startDusk_alive d⟩
  case later => rw [sleepReq_later h, Dev.sleepLater]
  case withdrawn =>
    rw [sleepReq_dusk h, Dev.flag, Dev.fld_setFld_same _ _ _ _ (by decide)]
    exact ⟨Dev.setFld_pwr .., rfl⟩
  case night => rw [sleepReq_night h]

end

/-- A sleep request depends on the power state and CPR_PWR_STATUS alone. -/
theorem Dev.slept.of_agree {a d t : Dev} {T : Nat} (h : Dev.slept a t T) (hpwr : a.pwr = d.pwr)
    (hstatus : a.reg R.CPR_PWR_STATUS = d.reg R.CPR_PWR_STATUS) : Dev.slept d t T := by
  have hentering : a.flag R.CPR_PWR_STATUS F.CPR_PWR_STATUS_entering = d.flag R.CPR_PWR_STATUS F.CPR_PWR_STATUS_entering := by
    rw [Dev.flag, Dev.fld, hstatus, Dev.flag, Dev.fld]
  unfold Dev.slept at *
  rwa [hpwr, hentering] at h

/-! ### Dawn and Day (R333, R466 to R468, R471) -/

section

variable (d : Dev)

/-- A DVFS request keeps everything but the stack's state and its registers. -/
theorem dvfsRequests_only (n : Dev → Nat) (l : List Nat) : (l.foldl (fun d k => d.dvfsRequest k (n d)) d).pwr = d.pwr ∧
    (l.foldl (fun d k => d.dvfsRequest k (n d)) d).streams = d.streams ∧ (l.foldl (fun d k => d.dvfsRequest k (n d)) d).cores = d.cores ∧
    ∀ o, o ≠ R.CPR_DVFS_STATUS → o ≠ R.SCH_GOV_STATUS → (l.foldl (fun d k => d.dvfsRequest k (n d)) d).reg o = d.reg o := by
  induction l generalizing d with
  | nil => exact ⟨rfl, rfl, rfl, fun _ _ _ => rfl⟩
  | cons k l ih =>
    have hone := dvfsOnly_dvfsRequest d k (n d)
    obtain ⟨hpwr, hstreams, hcores, hregs⟩ := ih (d.dvfsRequest k (n d))
    exact ⟨hpwr.trans (by rw [hone.rest]), hstreams.trans (by rw [hone.rest]), hcores.trans (by rw [hone.rest]),
      fun o h1 h2 => (hregs o h1 h2).trans (hone.regs o h1 h2)⟩

theorem dayToDawn_spec : d.dayToDawn.pwr.phase = .dawn ∧ d.dayToDawn.flag R.CPR_PWR_STATUS F.CPR_PWR_STATUS_entering = false ∧
    (∀ p ∈ d.dayToDawn.ports, p.2.decim = 0) ∧ d.dayToDawn.reg R.CPR_PWR_CTL = d.reg R.CPR_PWR_CTL ∧ d.dayToDawn.streams = d.streams ∧
    d.dayToDawn.cores = d.cores := by
  obtain ⟨hpwr, hstreams, hcores, hregs⟩ := dvfsRequests_only ((d.setPhase .dawn).setEntering false) (fun _ => 0) [0, 1]
  unfold Dev.dayToDawn
  simp only []
  generalize [0, 1].foldl (fun d k => d.dvfsRequest k 0) ((d.setPhase .dawn).setEntering false) = e at *
  refine ⟨?phase, ?entering, ?ports, ?ctl, ?streams, ?cores⟩
  case phase => rw [hpwr, Dev.setEntering, Dev.setFld_pwr, setPhase_pwr]
  case entering =>
    have hset : e.fld R.CPR_PWR_STATUS F.CPR_PWR_STATUS_entering = 0 := by
      rw [Dev.fld, hregs _ (by decide) (by decide)]
      exact Dev.fld_setFld_same _ _ _ _ (by decide)
    exact decide_eq_false (not_not.2 hset)
  case ports =>
    intro p hp
    obtain ⟨x, -, rfl⟩ := List.mem_map.1 hp
    rfl
  case ctl => exact (hregs _ (by decide) (by decide)).trans ((Dev.reg_setFld_ne _ _ _ (by decide)).trans (setPhase_reg d .dawn (by decide) (by decide)))
  case streams => simpa [Dev.setEntering] using hstreams
  case cores => simpa [Dev.setEntering] using hcores

/-- Streams, cores, the phase and two registers stay. -/
structure Dev.DayKept (d e : Dev) : Prop where
  phase : e.pwr.phase = d.pwr.phase
  streams : e.streams = d.streams
  cores : e.cores = d.cores
  alive : e.reg R.GLB_ALIVE = d.reg R.GLB_ALIVE
  ctl : e.reg R.CPR_PWR_CTL = d.reg R.CPR_PWR_CTL

theorem Dev.DayKept.trans {d e f : Dev} (h : Dev.DayKept d e) (g : Dev.DayKept e f) : Dev.DayKept d f :=
  ⟨g.phase.trans h.phase, g.streams.trans h.streams, g.cores.trans h.cores, g.alive.trans h.alive, g.ctl.trans h.ctl⟩

theorem firstReady_dayKept : Dev.DayKept d d.firstReady := by
  unfold Dev.firstReady
  split
  · exact ⟨rfl, rfl, rfl, rfl, rfl⟩
  · split
    · exact ⟨rfl, rfl, rfl, rfl, rfl⟩
    · simp only []
      constructor
      case alive => rw [Dev.reg_setFld_ne _ _ _ (by decide), Dev.reg_setFld_ne _ _ _ (by decide)]; rfl
      case ctl => rw [Dev.reg_setFld_ne _ _ _ (by decide), Dev.reg_setFld_ne _ _ _ (by decide)]; rfl
      all_goals simp

theorem raiseStacks_dayKept : Dev.DayKept d d.raiseStacks := by
  obtain ⟨hpwr, hstreams, hcores, hregs⟩ := dvfsRequests_only d (fun d => modeCeil d.mode) [0, 1]
  unfold Dev.raiseStacks
  split
  · generalize [0, 1].foldl (fun d k => d.dvfsRequest k (modeCeil d.mode)) d = e at *
    exact ⟨by rw [hpwr], hstreams, hcores, hregs R.GLB_ALIVE (by decide) (by decide), hregs R.CPR_PWR_CTL (by decide) (by decide)⟩
  · exact ⟨rfl, rfl, rfl, rfl, rfl⟩

theorem postLoss_dayKept : Dev.DayKept d d.postLoss := by
  unfold Dev.postLoss
  split
  · exact ⟨rfl, rfl, rfl, rfl, rfl⟩
  · exact ⟨by simp, by simp, by simp, Dev.reg_health _ _ _ _ _ _ _ (by decide), Dev.reg_health _ _ _ _ _ _ _ (by decide)⟩

theorem enterDay_spec : d.enterDay.pwr.phase = .ready ∧ d.enterDay.fld R.GLB_ALIVE F.GLB_ALIVE_state = 1 ∧
    d.enterDay.reg R.CPR_PWR_CTL = d.reg R.CPR_PWR_CTL ∧ d.enterDay.streams = d.streams ∧ d.enterDay.cores = d.cores := by
  have hkept := (firstReady_dayKept (d.setPhase .ready)).trans ((raiseStacks_dayKept _).trans (postLoss_dayKept _))
  exact ⟨hkept.phase.trans (by rw [setPhase_pwr]), (congrArg F.GLB_ALIVE_state.get hkept.alive).trans (setPhase_alive d .ready),
    hkept.ctl.trans (setPhase_reg d .ready (by decide) (by decide)), hkept.streams.trans (Dev.setPhase_streams ..),
    hkept.cores.trans (Dev.setPhase_cores ..)⟩

end

/-! ### The commands -/

/-- The command wakes device g, which is the state's device at time T but for a register or the host interface. -/
structure State.Wakes (s : State) (i : Instr) (g : Dev) (T c : Nat) : Prop where
  exec : exec i s = .next { s with tb := { s.tb with time := T }, d := g.wake (some c) }
  base : g = { s.d with now := T, regs := g.regs, host := g.host }
  wakes : g.fld R.CPR_PWR_STATUS F.CPR_PWR_STATUS_wakes = s.d.fld R.CPR_PWR_STATUS F.CPR_PWR_STATUS_wakes
  ctl : g.reg R.CPR_PWR_CTL = s.d.reg R.CPR_PWR_CTL
  host : i ≠ .powerstateD0 → g.host = s.d.host
  hostD0 : i = .powerstateD0 → g.host = { s.d.host with cfg := { s.d.host.cfg with d3hot := false } }
  port : ∀ k, i = .inBandInterrupt k → bit (g.fld R.CPR_PWR_STATUS F.CPR_PWR_STATUS_ibi_port) k = true

theorem onlyPower_of {s : State} {g t : Dev} {T : Nat} (h : Dev.PowerRegs g t) (hg : g = { s.d with now := T, regs := g.regs, host := g.host }) :
    s.onlyPower { s with tb := { s.tb with time := T }, d := t } T := by
  have hhost : t.host = g.host := by rw [h]
  unfold Dev.PowerRegs at h
  rw [State.onlyPower]
  dsimp only
  rw [hhost]
  generalize t.pwr = p, t.regs = r at h
  rw [h, hg]

section

variable {s : State} {i : Instr} {g : Dev} {T c : Nat}

theorem State.Wakes.answers (h : s.Wakes i g T c) : Answers i s fun t => s.onlyPower t T ∧ Dev.woken s.d t.d T (some c) ∧
    (i ≠ .powerstateD0 → t.d.host = s.d.host) ∧
    (i = .powerstateD0 → t.d.host = { s.d.host with cfg := { s.d.host.cfg with d3hot := false } }) ∧
    (∀ k, i = .inBandInterrupt k → bit (t.d.fld R.CPR_PWR_STATUS F.CPR_PWR_STATUS_ibi_port) k = true) := by
  have hstir := wake_stirred (d := g) (cause := some c)
  have hnow : g.now = T := by rw [h.base]
  have hhost : (g.wake (some c)).host = g.host := by rw [hstir.rest]
  have hport : (g.wake (some c)).fld R.CPR_PWR_STATUS F.CPR_PWR_STATUS_ibi_port = g.fld R.CPR_PWR_STATUS F.CPR_PWR_STATUS_ibi_port :=
    (hstir.between _ (by decide) (by decide)).trans (stirred_status g _ (by decide))
  have hwoken := wake_woken g (some c)
  rw [hnow] at hwoken
  refine ⟨_, h.exec, onlyPower_of hstir.rest h.base, ?woken, fun hi => hhost.trans (h.host hi), fun hi => hhost.trans (h.hostD0 hi),
    fun k hk => by rw [hport]; exact h.port k hk⟩
  case woken => exact hwoken.of_agree (by rw [h.base]) (by rw [h.base]) h.wakes fun _ => h.ctl

/-- A command that wakes the device as it is. -/
theorem wakes_plain (hexec : exec i s = .next { s with tb := { s.tb with time := T }, d := { s.d with now := T }.wake (some c) })
    (hd0 : i ≠ .powerstateD0) (hibi : ∀ k, i ≠ .inBandInterrupt k) : s.Wakes i { s.d with now := T } T c where
  exec := hexec
  base := rfl
  wakes := rfl
  ctl := rfl
  host _ := rfl
  hostD0 h := absurd h hd0
  port k h := absurd h (hibi k)

theorem wakeN_wakes (h : s.d.flag R.CPR_WAKE_EN F.CPR_WAKE_EN_wake_n = true) : s.Wakes .wakeN s.here s.tb.time 1 := by
  refine wakes_plain ?_ nofun nofun
  have arm : exec .wakeN s = execWakeN s := rfl
  rw [arm, execWakeN, onDev_here, if_pos (by exact h)]
  rfl

theorem gpioWake_wakes {pin : Nat} (h : s.d.flag R.CPR_WAKE_EN F.CPR_WAKE_EN_gpio = true) (hpin : pin < 16)
    (hmask : bit (s.d.fld R.CPR_WAKE_EN F.CPR_WAKE_EN_gpio_mask) pin = true) : s.Wakes (.gpioWake pin) s.here s.tb.time 2 := by
  have hopen : (s.here.flag R.CPR_WAKE_EN F.CPR_WAKE_EN_gpio && decide (pin < 16) && bit (s.here.fld R.CPR_WAKE_EN F.CPR_WAKE_EN_gpio_mask) pin) =
      true := by
    rw [Bool.and_eq_true, Bool.and_eq_true, decide_eq_true_eq]
    exact ⟨⟨h, hpin⟩, hmask⟩
  refine wakes_plain ?_ nofun nofun
  have arm : exec (.gpioWake pin) s = execGpioWake pin s := rfl
  rw [arm, execGpioWake, onDev_here, if_pos hopen]
  rfl

theorem wakeTimer_wakes (h : s.d.flag R.CPR_WAKE_EN F.CPR_WAKE_EN_timer = true) :
    s.Wakes .wakeTimer { s.d with now := max s.tb.time s.d.clk.wakeTime } (max s.tb.time s.d.clk.wakeTime) 0 := by
  refine wakes_plain ?_ nofun nofun
  have arm : exec .wakeTimer s = execWakeTimer s := rfl
  rw [arm, execWakeTimer, onDevAt, onDev_here, if_pos (by exact h)]
  rfl

theorem inBandInterrupt_wakes {k : Nat} (hk : k < 4) (h : bit (s.d.fld R.CPR_WAKE_EN F.CPR_WAKE_EN_ibi) k = true) :
    s.Wakes (.inBandInterrupt k) (s.here.setFld R.CPR_PWR_STATUS F.CPR_PWR_STATUS_ibi_port
      (s.here.fld R.CPR_PWR_STATUS F.CPR_PWR_STATUS_ibi_port ||| 2 ^ k)) s.tb.time 4 := by
  have hopen : (decide (k < 4) && bit (s.here.fld R.CPR_WAKE_EN F.CPR_WAKE_EN_ibi) k) = true := by
    rw [Bool.and_eq_true, decide_eq_true_eq]
    exact ⟨hk, h⟩
  constructor
  case exec =>
    have arm : exec (.inBandInterrupt k) s = execInBandInterrupt k s := rfl
    rw [arm, execInBandInterrupt, onDev_here, if_pos hopen]
  case base => apply Dev.eq_of <;> simp [State.here]
  case wakes => exact Dev.fld_setFld_other _ _ _ (by decide) (by decide)
  case ctl => exact Dev.reg_setFld_ne _ _ _ (by decide)
  case host => exact fun _ => Dev.setFld_host ..
  case hostD0 => exact nofun
  case port =>
    rintro j ⟨⟩
    rw [Dev.fld_setFld_same _ _ _ _ (by decide), bit, Nat.testBit_mod_two_pow, Nat.testBit_or, Nat.testBit_two_pow_self, Bool.or_true,
      Bool.and_true]
    exact decide_eq_true hk

theorem powerstateD0_wakes (h : s.d.host.cfgLoaded = true) : s.Wakes .powerstateD0 (s.here.setD3 false) s.tb.time 3 where
  exec := by
    have arm : exec .powerstateD0 s = execPowerstateD0 s := rfl
    rw [arm, execPowerstateD0, onDev_here, if_pos (by exact h)]
    rfl
  base := rfl
  wakes := rfl
  ctl := rfl
  host h := absurd rfl h
  hostD0 _ := rfl
  port _ := nofun

theorem nightMemoryRequest_wakes (h : s.d.pwr.phase = .night) : s.Wakes .nightMemoryRequest s.here s.tb.time 3 := by
  refine wakes_plain ?_ nofun nofun
  have arm : exec .nightMemoryRequest s = execNightMemoryRequest s := rfl
  rw [arm, execNightMemoryRequest, onDev_here, if_pos (by exact h)]
  rfl

theorem apertureRead_wakes {o n : Nat} (h : s.d.pwr.phase = .night) (hhit : s.d.apHit o n = true) :
    s.Wakes (.apertureRead o n) s.here s.tb.time 3 := by
  have hhere : (!s.here.apHit o n) = false := congrArg (!·) hhit
  refine wakes_plain ?_ nofun nofun
  have arm : exec (.apertureRead o n) s = execApertureRead o n s := rfl
  rw [arm, execApertureRead, onDev_here, if_neg (by rw [hhere]; exact Bool.false_ne_true), if_pos (by exact h)]
  rfl

/-- A command that is a sleep request of device g. -/
theorem sleepReq_answers (hexec : exec i s = .next { s with tb := { s.tb with time := T }, d := g.sleepReq })
    (hbase : g = { s.d with now := T, host := g.host }) :
    Answers i s fun t => s.onlyPower t T ∧ Dev.slept s.d t.d T ∧ t.d.host = g.host := by
  have hrest := sleepReq_powerRegs g
  have hslept := sleepReq_slept g
  have hnow : g.now = T := by rw [hbase]
  rw [hnow] at hslept
  refine ⟨_, hexec, onlyPower_of hrest (by rw [hbase]), hslept.of_agree (by rw [hbase]) (Dev.reg_congr (by rw [hbase]) _), by rw [hrest]⟩

theorem exec_powerstateD3hot (h : s.d.host.cfgLoaded = true) :
    exec .powerstateD3hot s = .next { s with tb := { s.tb with time := s.tb.time }, d := (s.here.setD3 true).sleepReq } := by
  have arm : exec .powerstateD3hot s = execPowerstateD3hot s := rfl
  rw [arm, execPowerstateD3hot, onDev_here, if_pos (by exact h)]
  rfl

theorem exec_autoNightIdle (hdawn : s.d.pwr.phase = .dawn) (hentering : s.d.flag R.CPR_PWR_STATUS F.CPR_PWR_STATUS_entering = false)
    (hauto : s.d.flag R.CPR_PWR_CTL F.CPR_PWR_CTL_auto_night = true)
    (hidle : ∀ f ∈ s.d.sched.frames, f.queued = false ∧ f.st ≠ .running ∧ f.st ≠ .waiting)
    (hT : T = max s.tb.time (s.d.pwr.lastActive + ms (max 1 (s.d.fld R.CPR_PWR_CTL F.CPR_PWR_CTL_idle_ms)))) :
    exec .autoNightIdle s = .next { s with tb := { s.tb with time := T }, d := { s.d with now := T }.sleepReq } := by
  have hnone : (s.d.sched.frames.any fun f => f.queued || f.st = .running || f.st = .waiting) = false := by
    rw [List.any_eq_false]
    intro f hf
    obtain ⟨hqueued, hrunning, hwaiting⟩ := hidle f hf
    simp [hqueued, hrunning, hwaiting]
  have arm : exec .autoNightIdle s = execAutoNightIdle s := rfl
  simp only [arm, execAutoNightIdle, hdawn, hentering, hauto, hnone, decide_true, Bool.not_false, Bool.and_self, if_true, hT]
  rfl

end

/-! ### CPR_PWR_CTL_WRITE (R468, R491) -/

/-- The register takes the value's 24 bits. -/
theorem reg_busWrite_pwrCtl (d : Dev) (v : Nat) : (d.busWrite R.CPR_PWR_CTL v).reg R.CPR_PWR_CTL % 2 ^ 24 = v % 2 ^ 24 := by
  have htable : (findReg R.CPR_PWR_CTL).map (fun r => (r.rw, r.w1c, r.w1s)) = some (2 ^ 24 - 1, 0, 0) := by rfl
  obtain ⟨r, hr, hcodes⟩ := Option.map_eq_some_iff.1 htable
  obtain ⟨hrw, hw1c, hw1s⟩ : r.rw = 2 ^ 24 - 1 ∧ r.w1c = 0 ∧ r.w1s = 0 := by simpa using hcodes
  refine Nat.eq_of_testBit_eq fun i => ?_
  rw [Nat.testBit_mod_two_pow, Nat.testBit_mod_two_pow]
  by_cases hi : i < 24
  · have hwritten := d.bit_reg_busWrite hr v (i := i) (by omega)
    rw [RegDef.testBit_written _ _ _ (by omega), hrw, hw1c, hw1s, Nat.testBit_two_pow_sub_one] at hwritten
    rw [show Nat.testBit _ i = _ from hwritten]
    simp [hi]
  · simp [hi]

/-- What a write of CPR_PWR_CTL makes of the device that has taken the value. -/
def Dev.pwrAimed (d : Dev) : Dev :=
  let t := d.fld R.CPR_PWR_CTL F.CPR_PWR_CTL_target
  if t = 0 then d.sleepReq
  else match d.pwr.phase with
    | .ready => if t = 1 then d.dayToDawn else d
    | .dawn => if 2 ≤ t && !d.flag R.CPR_PWR_STATUS F.CPR_PWR_STATUS_entering then d.enterDay else d
    | .dusk | .night => d.wake none
    | _ => d

section

variable {d : Dev}

theorem pwrAimed_sleep (h : d.fld R.CPR_PWR_CTL F.CPR_PWR_CTL_target = 0) : d.pwrAimed = d.sleepReq := if_pos h

section

variable (h : d.fld R.CPR_PWR_CTL F.CPR_PWR_CTL_target ≠ 0)
include h

theorem pwrAimed_ready (hphase : d.pwr.phase = .ready) :
    d.pwrAimed = if d.fld R.CPR_PWR_CTL F.CPR_PWR_CTL_target = 1 then d.dayToDawn else d := by
  simp only [Dev.pwrAimed, if_neg h, hphase]

theorem pwrAimed_dawn (hphase : d.pwr.phase = .dawn) : d.pwrAimed = if 2 ≤ d.fld R.CPR_PWR_CTL F.CPR_PWR_CTL_target &&
    !d.flag R.CPR_PWR_STATUS F.CPR_PWR_STATUS_entering then d.enterDay else d := by
  simp only [Dev.pwrAimed, if_neg h, hphase]

theorem pwrAimed_wake (hphase : d.pwr.phase = .dusk ∨ d.pwr.phase = .night) : d.pwrAimed = d.wake none := by
  obtain hdusk | hnight := hphase
  · simp only [Dev.pwrAimed, if_neg h, hdusk]
  · simp only [Dev.pwrAimed, if_neg h, hnight]

end

/-- Whatever the target, the register, the streams and the cores stay. -/
theorem pwrAimed_kept (d : Dev) : d.pwrAimed.reg R.CPR_PWR_CTL = d.reg R.CPR_PWR_CTL ∧ d.pwrAimed.streams = d.streams ∧ d.pwrAimed.cores = d.cores := by
  have hpower : ∀ {e : Dev}, Dev.PowerRegs d e → e.reg R.CPR_PWR_CTL = d.reg R.CPR_PWR_CTL →
      e.reg R.CPR_PWR_CTL = d.reg R.CPR_PWR_CTL ∧ e.streams = d.streams ∧ e.cores = d.cores := fun hrest hctl =>
    ⟨hctl, by rw [hrest], by rw [hrest]⟩
  unfold Dev.pwrAimed
  dsimp only
  split
  · exact hpower (sleepReq_powerRegs d) (sleepReq_ctl d)
  split
  · split
    · exact (dayToDawn_spec d).2.2.2
    · exact ⟨rfl, rfl, rfl⟩
  · split
    · exact (enterDay_spec d).2.2
    · exact ⟨rfl, rfl, rfl⟩
  · exact hpower wake_stirred.rest (wake_stirred.ctl rfl)
  · exact hpower wake_stirred.rest (wake_stirred.ctl rfl)
  · exact ⟨rfl, rfl, rfl⟩

end

/-- CPR_PWR_CTL_WRITE, by the target written. -/
theorem cprPwrCtlWrite_answers (s : State) (v : Word) : Answers (.cprPwrCtlWrite v) s fun t => t = { s with d := t.d } ∧
    t.d.reg R.CPR_PWR_CTL % 2 ^ 24 = v.toNat % 2 ^ 24 ∧ t.d.streams = s.here.streams ∧ t.d.cores = s.here.cores ∧
    (v.toNat % 4 = 0 → Dev.slept s.here t.d s.tb.time) ∧
    (v.toNat % 4 = 1 → s.here.pwr.phase = .ready → t.d.pwr.phase = .dawn ∧
      t.d.flag R.CPR_PWR_STATUS F.CPR_PWR_STATUS_entering = false ∧ ∀ p ∈ t.d.ports, p.2.decim = 0) ∧
    (v.toNat % 4 = 1 → s.here.pwr.phase = .dawn → t.d.pwr = s.here.pwr) ∧
    (2 ≤ v.toNat % 4 → s.here.pwr.phase = .dawn → s.here.flag R.CPR_PWR_STATUS F.CPR_PWR_STATUS_entering = false →
      t.d.pwr.phase = .ready ∧ t.d.fld R.GLB_ALIVE F.GLB_ALIVE_state = 1) ∧
    (2 ≤ v.toNat % 4 → s.here.pwr.phase = .dawn → s.here.flag R.CPR_PWR_STATUS F.CPR_PWR_STATUS_entering = true →
      t.d.pwr = s.here.pwr) ∧
    (v.toNat % 4 ≠ 0 → s.here.pwr.phase = .dusk ∨ s.here.pwr.phase = .night → Dev.woken s.here t.d s.tb.time none) := by
  have hexec : exec (.cprPwrCtlWrite v) s = .next { s with d := (s.here.busWrite R.CPR_PWR_CTL v.toNat).pwrAimed } := rfl
  have hreg := reg_busWrite_pwrCtl s.here v.toNat
  have hrest := s.here.busWrite_rest R.CPR_PWR_CTL v.toNat
  have hstatus := s.here.reg_busWrite_ne (o := R.CPR_PWR_CTL) (i := R.CPR_PWR_STATUS) v.toNat (by decide)
  generalize s.here.busWrite R.CPR_PWR_CTL v.toNat = d at *
  have hpwr : d.pwr = s.here.pwr := by rw [hrest]
  have hnow : d.now = s.tb.time := by rw [hrest]; rfl
  have hentering : d.flag R.CPR_PWR_STATUS F.CPR_PWR_STATUS_entering = s.here.flag R.CPR_PWR_STATUS F.CPR_PWR_STATUS_entering := by
    rw [Dev.flag, Dev.fld, hstatus, Dev.flag, Dev.fld]
  have htarget : d.fld R.CPR_PWR_CTL F.CPR_PWR_CTL_target = v.toNat % 4 := by
    show d.reg R.CPR_PWR_CTL / 2 ^ 0 % 2 ^ 2 = _
    omega
  obtain ⟨hctl, hstreams, hcores⟩ := pwrAimed_kept d
  rw [← hpwr, ← hentering, ← htarget]
  refine ⟨_, hexec, rfl, by rw [hctl]; exact hreg, hstreams.trans (by rw [hrest]), hcores.trans (by rw [hrest]), fun h => ?sleep,
    fun h hphase => ?dawn, fun h hphase => ?keeps, fun h hphase hready => ?day, fun h hphase hready => ?waits, fun h hphase => ?wakes⟩
  case sleep =>
    rw [pwrAimed_sleep h, ← hnow]
    exact (sleepReq_slept d).of_agree hpwr hstatus
  case dawn =>
    rw [pwrAimed_ready (by omega) hphase, if_pos h]
    obtain ⟨hdawn, hentered, hports, -⟩ := dayToDawn_spec d
    exact ⟨hdawn, hentered, hports⟩
  case keeps => rw [pwrAimed_dawn (by omega) hphase, if_neg (by simp [h])]
  case day =>
    rw [pwrAimed_dawn (by omega) hphase, if_pos (by simp [h, hready])]
    exact ⟨(enterDay_spec d).1, (enterDay_spec d).2.1⟩
  case waits => rw [pwrAimed_dawn (by omega) hphase, if_neg (by simp [hready])]
  case wakes =>
    rw [pwrAimed_wake h hphase, ← hnow]
    exact (wake_woken d none).of_agree hpwr (by rw [hrest]) (congrArg F.CPR_PWR_STATUS_wakes.get hstatus) fun h => absurd rfl h

/-- Settles O47: every wake and every sleep request is Dev.wake or Dev.sleepReq of the device at the time of the command, and a write of target
is one of them, the way from Day to Dawn or the way from Dawn to Day. -/
theorem sleepAndWake : Obligations.SleepAndWake := by
  unfold Obligations.SleepAndWake
  refine ⟨?wake, ?d3hot, ?idle, cprPwrCtlWrite_answers⟩
  case wake =>
    rintro s i T c (⟨rfl, rfl, rfl, hen⟩ | ⟨pin, rfl, rfl, rfl, hen, hpin, hmask⟩ | ⟨rfl, rfl, rfl, hen⟩ | ⟨k, rfl, rfl, rfl, hk, hen⟩ |
      ⟨rfl, rfl, rfl, hcfg⟩ | ⟨rfl, rfl, rfl, hnight⟩ | ⟨o, n, rfl, rfl, rfl, hnight, hhit⟩)
    · exact (wakeN_wakes hen).answers
    · exact (gpioWake_wakes hen hpin hmask).answers
    · exact (wakeTimer_wakes hen).answers
    · exact (inBandInterrupt_wakes hk hen).answers
    · exact (powerstateD0_wakes hcfg).answers
    · exact (nightMemoryRequest_wakes hnight).answers
    · exact (apertureRead_wakes hnight hhit).answers
  case d3hot => exact fun s hcfg => sleepReq_answers (exec_powerstateD3hot hcfg) rfl
  case idle =>
    intro s hdawn hentering hauto hidle T
    have hexec := exec_autoNightIdle (T := T) hdawn hentering hauto hidle rfl
    exact sleepReq_answers (g := { s.d with now := T }) hexec rfl

end Sys2Proof.Machine
end

section
/-!
SUPPORT. The frames of a sensor: FRAME_START, SENSOR_LINE and FRAME_END (O24; R312 to R314, R320).
-/

namespace Sys2Proof.Machine

/-! ### FRAME_START (R313) -/

/-- A frame of a stream whose lines are to come, at the port and among the frames. -/
def startedSFrame (id num : Nat) (ep : Epoch) (now : Nat) : SFrame :=
  { stream := id, frame := num, ep := ep, stamp := now, count := 0, width := 0, fmt := 3, depth := 8, concealed := 0, firstSub := 0 }

def startedFrame (id num : Nat) (ep : Epoch) (now : Nat) (unauth : Bool) : Frame :=
  { stream := id, num := num, ep := ep, stamp := now, st := .shaping, ctx := ep.bind.ctx, unauth := unauth }

/-- The port receives a frame on a virtual channel. -/
def Port.starts (p : Port) (vc : Nat) (f : SFrame) (now : Nat) : Port :=
  { p with cur := mput p.cur vc f, lastSeen := p.lastSeen.or (some now) }

/-- The port has a link, and the stream the epoch of the frame and one more number. -/
def Dev.numbered (d : Dev) (k id : Nat) (ep : Epoch) : Dev :=
  (((d.setFld (R.SNS_STATUS k) F.SNS_STATUS_link 1).adoptEpoch id ep).takeNum id 0).2

theorem numbered_streamWork (d : Dev) (k id : Nat) (ep : Epoch) :
    Dev.StreamWork (d.setFld (R.SNS_STATUS k) F.SNS_STATUS_link 1) (d.numbered k id ep) :=
  (Dev.streamWork_adoptEpoch ..).trans (Dev.streamWork_takeNum ..)

section

variable {s : State} {k vc id : Nat} {st : Stream} {ep : Epoch}

theorem exec_frameStart (hruns : s.here.portRuns k = true) (hvc : vc < 4) (hwork : s.here.working = true) (hdusk : s.here.pwr.phase ≠ .dusk)
    (hdawn : s.here.pwr.phase ≠ .dawn) (hsvc : s.here.fld (R.SNS_STATUS k) F.SNS_STATUS_svc = 1) (hcur : mget (s.here.port k).cur vc = none)
    (hbound : mget (s.here.port k).vcs vc = some id) (hst : s.here.stream? id = some st) (hep : st.latest = some ep) :
    exec (.frameStart k vc) s = .next { s with
      d := ((s.here.numbered k id ep).addFrame (startedFrame id (st.numberAt 0) ep s.tb.time st.unauth)).modPort k
        (·.starts vc (startedSFrame id (st.numberAt 0) ep s.tb.time) (s.here.numbered k id ep).now) } := by
  have arm : exec (.frameStart k vc) s = execFrameStart k vc s := rfl
  have hopen : (!s.here.portRuns k || decide (4 ≤ vc) || !s.here.working || decide (s.here.pwr.phase = .dusk)) = false := by
    simp [hruns, hvc, hwork, hdusk]
  have hst' : (s.here.setFld (R.SNS_STATUS k) F.SNS_STATUS_link 1).stream? id = some st := by rw [Dev.stream?, Dev.setFld_streams]; exact hst
  have hpass : (s.here.setFld (R.SNS_STATUS k) F.SNS_STATUS_link 1).dawnPass k = (true, s.here.setFld (R.SNS_STATUS k) F.SNS_STATUS_link 1) := by
    simp [Dev.dawnPass, hdawn]
  have hsvc' : (s.here.setFld (R.SNS_STATUS k) F.SNS_STATUS_link 1).fld (R.SNS_STATUS k) F.SNS_STATUS_svc = 1 := by
    rw [Dev.fld_setFld_other _ _ _ (by decide) (by decide), hsvc]
  have hnow : (s.here.setFld (R.SNS_STATUS k) F.SNS_STATUS_link 1).now = s.tb.time := Dev.setFld_now ..
  have hnum := adoptEpoch_takeNum hst' ep 0
  rw [arm, execFrameStart, onDev_here]
  simp only [hopen, hcur, hbound, hst', hep, hpass, hsvc', hnum, Option.bind_some, Option.map_some, Option.getD_some, hnow, Bool.not_true,
    Bool.or_false, ne_eq, not_true_eq_false, decide_false, Bool.false_eq_true, if_false]
  rfl

end

theorem numbered_link {k : Nat} (hk : k < 4) (d : Dev) (id : Nat) (ep : Epoch) :
    (d.numbered k id ep).flag (R.SNS_STATUS k) F.SNS_STATUS_link = true := by
  have hset : (d.numbered k id ep).fld (R.SNS_STATUS k) F.SNS_STATUS_link = 1 :=
    (congrArg F.SNS_STATUS_link.get ((numbered_streamWork d k id ep).regs _ (snsStatus_aside hk))).trans
      (Dev.fld_setFld_same _ _ _ _ (by decide))
  rw [Dev.flag, hset]
  rfl

/-- Ports, frames and cores are as before the frame has its number. -/
theorem numbered_keeps (d : Dev) (k id : Nat) (ep : Epoch) : (d.numbered k id ep).ports = d.ports ∧ (d.numbered k id ep).sched = d.sched ∧
    (d.numbered k id ep).cores = d.cores := by
  have h := numbered_streamWork d k id ep
  exact ⟨(show _ = _ by rw [h.rest]).trans (Dev.setFld_ports ..), h.sched.trans (Dev.setFld_sched ..), h.cores.trans (Dev.setFld_cores ..)⟩

/-! ### What a line counts (R312) -/

/-- A saturating field counts an event. -/
def Dev.countIf (d : Dev) (o : Nat) (f : Fld) (b : Bool) : Dev := if b then d.satFld o f 1 else d

section

variable (d : Dev) (o : Nat) {f g : Fld} (b : Bool)

theorem countIf_rest (f : Fld) : d.countIf o f b = { d with regs := (d.countIf o f b).regs } := by
  unfold Dev.countIf
  split
  · apply Dev.eq_of <;> simp
  · rfl

theorem countIf_same (hf : f.lsb + f.w ≤ 32) : (d.countIf o f b).fld o f = min (2 ^ f.w - 1) (d.fld o f + b2n b) := by
  have hpos := Nat.two_pow_pos f.w
  cases b with
  | false =>
    have hlt : d.fld o f < 2 ^ f.w := Nat.mod_lt _ hpos
    exact (Nat.min_eq_right (by show d.fld o f + 0 ≤ _; omega)).symm
  | true =>
    refine (Dev.fld_setFld_same _ _ _ _ hf).trans (Nat.mod_eq_of_lt ?_)
    exact Nat.lt_of_le_of_lt (Nat.min_le_left ..) (by omega)

theorem countIf_other (hf : f.lsb + f.w ≤ 32) (h : g.lsb + g.w ≤ f.lsb ∨ f.lsb + f.w ≤ g.lsb) : (d.countIf o f b).fld o g = d.fld o g := by
  cases b with
  | false => rfl
  | true => exact d.fld_setFld_other _ _ hf h

end

/-! ### The line FIFO (R313) -/

theorem fifoBytes_congr {d e : Dev} (hpipes : e.pipes = d.pipes) (hports : e.ports = d.ports) (k : Nat) : e.fifoBytes k = d.fifoBytes k := by
  rw [Dev.fifoBytes, pipe_congr hpipes, port_congr hports, Dev.fifoBytes]

theorem pipe_modPort (d : Dev) (k : Nat) (f : Port → Port) (i : Nat) : (d.modPort k f).pipe i = d.pipe i := rfl

theorem port_pushLines (d : Dev) (k vc : Nat) (f : SFrame) (ls : List (Option (List Nat))) (i : Nat) :
    (d.pushLines k vc f ls).port i = d.port i := rfl

theorem pushLines_fifo (d : Dev) (k vc : Nat) (f : SFrame) (ls : List (Option (List Nat))) :
    ((d.pushLines k vc f ls).pipe k).fifo = (d.pipe k).fifo ++ ls.map fun l => (4 * f.frame + vc, l) := by
  rw [Dev.pushLines, pipe_modPipe_same]

theorem pushLines_pipe_ne (d : Dev) {k i : Nat} (vc : Nat) (f : SFrame) (ls : List (Option (List Nat))) (h : i ≠ k) :
    (d.pushLines k vc f ls).pipe i = d.pipe i := pipe_modPipe_ne d _ h

/-! ### SENSOR_LINE (R312 to R314) -/

/-- The first line of a frame gives its width, format and depth. -/
def SFrame.shaped (f : SFrame) (dt kind samples : Nat) : SFrame :=
  let m := lineFmt dt kind
  if f.width = 0 then { f with width := min 4096 (samples / (if m.1 = 1 then 2 else if m.1 = 2 then 3 else 1)), fmt := m.1, depth := m.2 } else f

/-- The frame when line index has come, and whether it is concealed. -/
def SFrame.received (f : SFrame) (index : Nat) (good crcOk : Bool) : SFrame :=
  if good then { f.conceal (index - f.count) 0x11 with count := (f.conceal (index - f.count) 0x11).count + 1 }
  else (f.conceal (index - f.count) 0x11).conceal 1 (if crcOk then 0x12 else 0x10)

section

variable (f : SFrame) (dt kind n : Nat)

theorem shaped_depth : (f.shaped dt kind n).depth = if f.width = 0 then (lineFmt dt kind).2 else f.depth := by
  unfold SFrame.shaped
  dsimp only
  split <;> rfl

theorem shaped_keeps : (f.shaped dt kind n).count = f.count ∧ (f.shaped dt kind n).concealed = f.concealed ∧
    (f.shaped dt kind n).frame = f.frame ∧ (f.shaped dt kind n).stamp = f.stamp := by
  unfold SFrame.shaped
  dsimp only
  split <;> exact ⟨rfl, rfl, rfl, rfl⟩

theorem received_spec {index : Nat} (h : f.count ≤ index) (good crcOk : Bool) : (f.received index good crcOk).count = index + 1 ∧
    (f.received index good crcOk).concealed = f.concealed + (index - f.count) + b2n (!good) ∧
    (f.received index good crcOk).frame = f.frame ∧ (f.received index good crcOk).stamp = f.stamp ∧
    (f.received index good crcOk).depth = f.depth := by
  have hcount : f.count + (index - f.count) + 1 = index + 1 := by omega
  cases good <;> exact ⟨hcount, rfl, rfl, rfl, rfl⟩

end

/-- A port with frame f in work on a virtual channel. -/
def Port.receiving (p : Port) (vc : Nat) (f : SFrame) : Port := { p with cur := mput p.cur vc f }

/-- The errors of a line are counted. -/
def Dev.lineCounted (d : Dev) (k : Nat) (crcOk fixed : Bool) : Dev :=
  (d.countIf (R.SNS_ERRS k) F.SNS_ERRS_hdr_corrected fixed).countIf (R.SNS_ERRS k) F.SNS_ERRS_crc (!crcOk)

/-- The CRC of a line holds, and the FIFO has room for it. -/
def Dev.lineGood (d : Dev) (k depth : Nat) (samples : List Nat) (crcOk : Bool) : Bool :=
  crcOk && decide (d.fifoBytes k + lineBytes depth (some samples) ≤ 45056)

/-- The line, or what conceals it, and what conceals the lines missing before it, enter the FIFO. -/
def Dev.lineTaken (d : Dev) (k vc : Nat) (f : SFrame) (index : Nat) (samples : List Nat) (crcOk good : Bool) : Dev :=
  (d.pushLines k vc (f.received index good crcOk) (List.replicate (index - f.count) none ++ [if good then some samples else none])).modPort k
    (·.receiving vc (f.received index good crcOk))

section

variable (d : Dev) (k : Nat) (crcOk fixed : Bool)

theorem lineCounted_rest : d.lineCounted k crcOk fixed = { d with regs := (d.lineCounted k crcOk fixed).regs } := by
  unfold Dev.lineCounted
  rw [countIf_rest (d.countIf ..), countIf_rest d]

theorem lineCounted_crc : (d.lineCounted k crcOk fixed).fld (R.SNS_ERRS k) F.SNS_ERRS_crc =
    min 65535 (d.fld (R.SNS_ERRS k) F.SNS_ERRS_crc + b2n (!crcOk)) := by
  rw [Dev.lineCounted, countIf_same _ _ _ (by decide), countIf_other _ _ _ (by decide) (by decide)]
  rfl

theorem lineCounted_hdr : (d.lineCounted k crcOk fixed).fld (R.SNS_ERRS k) F.SNS_ERRS_hdr_corrected =
    min 65535 (d.fld (R.SNS_ERRS k) F.SNS_ERRS_hdr_corrected + b2n fixed) := by
  rw [Dev.lineCounted, countIf_other _ _ _ (by decide) (by decide), countIf_same _ _ _ (by decide)]
  rfl

theorem lineTaken_spec (vc : Nat) (f : SFrame) (index : Nat) (samples : List Nat) (good : Bool) :
    let g := f.received index good crcOk
    let t := d.lineTaken k vc f index samples crcOk good
    t = { d with pipes := t.pipes, ports := t.ports } ∧ mget (t.port k).cur vc = some g ∧
    (t.pipe k).fifo = (d.pipe k).fifo ++
      (List.replicate (index - f.count) none ++ [if good then some samples else none]).map (fun l => (4 * g.frame + vc, l)) ∧
    ∀ i, i ≠ k → t.pipe i = d.pipe i ∧ t.port i = d.port i := by
  refine ⟨rfl, ?cur, ?fifo, fun i hi => ⟨?pipe, ?port⟩⟩
  case cur =>
    rw [Dev.lineTaken, port_modPort_same]
    exact mget_mput_same ..
  case fifo => rw [Dev.lineTaken, pipe_modPort, pushLines_fifo]
  case pipe => rw [Dev.lineTaken, pipe_modPort, pushLines_pipe_ne _ _ _ _ hi]
  case port => rw [Dev.lineTaken, port_modPort_ne _ _ hi, port_pushLines]

end

section

variable {s : State} {k vc dt index : Nat} {f : SFrame}

theorem exec_sensorLine (hruns : s.here.portRuns k = true) (hcur : mget (s.here.port k).cur vc = some f) (hdt : dt < 7)
    (hcount : f.count ≤ index) (hindex : index < 4096) (samples : List Nat) (crcOk fixed : Bool) (g : SFrame)
    (hg : g = f.shaped dt (headKind (s.here.port k).store) samples.length) :
    exec (.sensorLine k vc dt index samples crcOk fixed) s = .next { s with
      d := (s.here.lineCounted k crcOk fixed).lineTaken k vc g index samples crcOk (s.here.lineGood k g.depth samples crcOk) } := by
  have arm : exec (.sensorLine k vc dt index samples crcOk fixed) s = execSensorLine k vc dt index samples crcOk fixed s := rfl
  have hcounted : (if crcOk then (if fixed then s.here.satFld (R.SNS_ERRS k) F.SNS_ERRS_hdr_corrected 1 else s.here) else
      (if fixed then s.here.satFld (R.SNS_ERRS k) F.SNS_ERRS_hdr_corrected 1 else s.here).satFld (R.SNS_ERRS k) F.SNS_ERRS_crc 1) =
      s.here.lineCounted k crcOk fixed := by
    cases crcOk <;> simp [Dev.lineCounted, Dev.countIf]
  have hport : (s.here.lineCounted k crcOk fixed).port k = s.here.port k := port_congr (by rw [lineCounted_rest]) k
  have hbytes : (s.here.lineCounted k crcOk fixed).fifoBytes k = s.here.fifoBytes k :=
    fifoBytes_congr (by rw [lineCounted_rest]) (by rw [lineCounted_rest]) k
  have hgood : (crcOk && !decide (45056 < s.here.fifoBytes k + lineBytes g.depth (some samples))) = s.here.lineGood k g.depth samples crcOk := by
    rw [Dev.lineGood, ← decide_not, decide_eq_decide.2 Nat.not_lt]
  have hvalid : (decide (7 ≤ dt) || decide (index < f.count) || decide (4096 ≤ index)) = false := by
    simp only [Bool.or_eq_false_iff, decide_eq_false_iff_not]
    omega
  rw [arm, execSensorLine, onDev_here]
  simp only [hruns, hcounted, hport, hcur, hvalid, hbytes, Bool.not_true, Bool.false_eq_true, if_false]
  rw [show (ite (f.width = 0) _ f : SFrame) = g from hg.symm, hgood]
  rfl

end

/-! ### FRAME_END (R313, R320) -/

theorem voidOnly_logEv (d : Dev) (x : LogEntry) : Dev.VoidOnly d (d.logEv x) where
  rest := by apply Dev.eq_of <;> simp
  regs o h _ := d.reg_logEv x (by simp only [R.TEL_LOG_HEAD]; omega)
  marks o h := d.reg_logEv x (by simp only [aside] at h; simp only [R.TEL_LOG_HEAD]; omega)

theorem voidOnly_modFrame (d : Dev) (id num : Nat) (g : Frame → Frame) : Dev.VoidOnly d (d.modFrame id num false g) :=
  ⟨rfl, fun _ _ _ => rfl, fun _ _ => rfl⟩

theorem voidOnly_concealment (d : Dev) (id num : Nat) (ep : Epoch) (frac sub : Nat) (recs : List (List Byte)) (unit : Nat) :
    Dev.VoidOnly d (d.concealment id num ep frac sub recs unit) := by
  have hlog : ∀ x, Dev.VoidOnly d (if frac = 0 then d else d.logEv x) := fun x => by
    split
    · exact .refl d
    · exact voidOnly_logEv d x
  have hmarked := fun x g => (hlog x).trans (voidOnly_modFrame _ id num g)
  unfold Dev.concealment
  dsimp only
  split
  · split
    · exact (hmarked _ _).trans (Dev.voidOnly_voidFrame ..)
    · exact hmarked _ _
  · exact hmarked _ _

/-- The frame with its height, its missing lines concealed. -/
def SFrame.finished (f : SFrame) (height : Nat) : SFrame := { f.conceal (height - f.count) 0x11 with ended := some (max height f.count) }

/-- The port has a frame's last line. -/
def Port.finishes (p : Port) (vc : Nat) (f : SFrame) (height : Nat) : Port :=
  { p with cur := mdel p.cur vc, ended := p.ended ++ [(vc, f)], lastH := mput p.lastH vc height }

/-- The time a port has received frames is kept. -/
def Port.rests (p : Port) (now : Nat) : Port := { p with partHour := p.partHour + (now - p.lastSeen.getD now), lastSeen := none }

/-- The missing lines enter the FIFO, and the port has the frame's last line. -/
def Dev.lastLine (d : Dev) (k vc : Nat) (f : SFrame) (height : Nat) : Dev :=
  (d.pushLines k vc f (List.replicate (height - f.count) none)).modPort k
    (·.finishes vc (f.finished height) (max 1 (max height (f.finished height).count)))

/-- The frame's concealment is judged (R281, R282). -/
def Dev.lastLineJudged (d : Dev) (k vc : Nat) (f : SFrame) (height : Nat) : Dev :=
  let g := f.finished height
  let frac := if g.concealed = 0 then 0 else cdiv (1024 * g.concealed) (max 1 (max height g.count))
  (d.lastLine k vc f height).concealment g.stream g.frame g.ep frac g.firstSub
    (concealRecs g.stream g.frame g.stamp g.ep.num frac g.firstSub false false) (0x28 + k)

theorem endSFrame_eq (d : Dev) (k vc : Nat) (f : SFrame) (height : Nat) : d.endSFrame k vc f height =
    if ((d.lastLineJudged k vc f height).port k).cur = [] then
      (d.lastLineJudged k vc f height).modPort k (·.rests (d.lastLineJudged k vc f height).now)
    else d.lastLineJudged k vc f height := rfl

/-- What the end of a frame leaves at its port and pipe. -/
structure Dev.FrameEnded (d e : Dev) (k vc : Nat) (f : SFrame) (height : Nat) : Prop where
  cur : (e.port k).cur = mdel (d.port k).cur vc
  ended : (e.port k).ended = (d.port k).ended ++ [(vc, f.finished height)]
  fifo : (e.pipe k).fifo = (d.pipe k).fifo ++ List.replicate (height - f.count) (4 * f.frame + vc, none)
  status : k < 4 → e.reg (R.SNS_STATUS k) = d.reg (R.SNS_STATUS k)
  cores : e.cores = d.cores

theorem lastLine_ended (d : Dev) (k vc : Nat) (f : SFrame) (height : Nat) : Dev.FrameEnded d (d.lastLine k vc f height) k vc f height where
  cur := by rw [Dev.lastLine, port_modPort_same]; rfl
  ended := by rw [Dev.lastLine, port_modPort_same]; rfl
  fifo := by rw [Dev.lastLine, pipe_modPort, pushLines_fifo, List.map_replicate]
  status _ := rfl
  cores := rfl

theorem Dev.FrameEnded.void {d e g : Dev} {k vc height : Nat} {f : SFrame} (h : Dev.FrameEnded d e k vc f height) (hvoid : Dev.VoidOnly e g) :
    Dev.FrameEnded d g k vc f height := by
  have hport : g.port k = e.port k := port_congr (by rw [hvoid.rest]) k
  have hpipe : g.pipe k = e.pipe k := pipe_congr (by rw [hvoid.rest]) k
  have hcores : g.cores = e.cores := by rw [hvoid.rest]
  exact ⟨by rw [hport, h.cur], by rw [hport, h.ended], by rw [hpipe, h.fifo], fun hk => (hvoid.marks _ (snsStatus_aside hk)).trans (h.status hk),
    hcores.trans h.cores⟩

theorem Dev.FrameEnded.rests {d e : Dev} {k vc height : Nat} {f : SFrame} (h : Dev.FrameEnded d e k vc f height) (now : Nat) :
    Dev.FrameEnded d (e.modPort k (·.rests now)) k vc f height where
  cur := by rw [port_modPort_same]; exact h.cur
  ended := by rw [port_modPort_same]; exact h.ended
  fifo := h.fifo
  status := h.status
  cores := h.cores

theorem endSFrame_ended (d : Dev) (k vc : Nat) (f : SFrame) (height : Nat) : Dev.FrameEnded d (d.endSFrame k vc f height) k vc f height := by
  have hended : Dev.FrameEnded d (d.lastLineJudged k vc f height) k vc f height := (lastLine_ended d k vc f height).void (voidOnly_concealment ..)
  rw [endSFrame_eq]
  split
  · exact hended.rests _
  · exact hended

/-- A port that is STOPPING and receives no frame is OFF, or ON when an enable is pending; else nothing changes. -/
theorem portIdle_spec (d : Dev) (k : Nat) : (∀ i, (d.portIdle k).port i = d.port i) ∧ (∀ i, (d.portIdle k).pipe i = d.pipe i) ∧
    (d.portIdle k).cores = d.cores ∧ (d.fld (R.SNS_STATUS k) F.SNS_STATUS_svc = 2 → (d.port k).cur = [] →
      (d.portIdle k).fld (R.SNS_STATUS k) F.SNS_STATUS_svc = b2n (d.flag (R.SNS_STATUS k) F.SNS_STATUS_enable_pending) ∧
      (d.portIdle k).fld (R.SNS_STATUS k) F.SNS_STATUS_enable_pending = 0) := by
  have hon : ∀ b, b2n b % 2 ^ F.SNS_STATUS_svc.w = b2n b := fun b => by cases b <;> rfl
  unfold Dev.portIdle
  dsimp only
  split
  · refine ⟨port_congr (by simp), pipe_congr (by simp), by simp, fun _ _ => ⟨?svc, ?pending⟩⟩
    case svc => rw [Dev.fld_setFld_same _ _ _ _ (by decide), hon]
    case pending =>
      rw [Dev.fld_setFld_other _ _ _ (by decide) (by decide)]
      exact Dev.fld_setFld_same _ _ _ _ (by decide)
  · next h => exact ⟨fun _ => rfl, fun _ => rfl, rfl, fun hsvc hcur => absurd ⟨hsvc, hcur⟩ h⟩

theorem exec_frameEnd {s : State} {k vc : Nat} {f : SFrame} (hruns : s.here.portRuns k = true) (hcur : mget (s.here.port k).cur vc = some f)
    (height : Nat) : exec (.frameEnd k vc height) s = .next { s with d := (s.here.endSFrame k vc f (min 4096 height)).portIdle k } := by
  have arm : exec (.frameEnd k vc height) s = execFrameEnd k vc height s := rfl
  rw [arm, execFrameEnd, onDev_here]
  simp only [hcur, hruns, if_true]

theorem portRuns_lt {d : Dev} {k : Nat} (h : d.portRuns k = true) : k < 4 := by
  simp only [Dev.portRuns, Bool.and_eq_true, decide_eq_true_eq] at h
  exact h.1.1

/-- Settles O24: FRAME_START numbers the frame as any picture of the stream; a line changes the frame of its port, the FIFO and the error
counters; the concealment at FRAME_END may void the frame, and leaves the port and the pipe alone. -/
theorem sensorFrames : Obligations.SensorFrames := by
  unfold Obligations.SensorFrames
  refine ⟨?start, ?line, ?finish⟩
  case start =>
    intro s k vc id st ep hruns hvc hwork hdusk hdawn hsvc hcur hbound hst hep
    obtain ⟨hports, hsched, hcores⟩ := numbered_keeps s.here k id ep
    have hlink := numbered_link (portRuns_lt hruns) s.here id ep
    refine ⟨_, exec_frameStart hruns hvc hwork hdusk hdawn hsvc hcur hbound hst hep, rfl, ?frame, hlink, ?frames, hcores, ?others⟩
    case frame =>
      refine ⟨startedSFrame id (st.numberAt 0) ep s.tb.time, ?_, rfl, rfl, rfl, rfl, rfl, rfl⟩
      rw [port_modPort_same]
      exact mget_mput_same ..
    case frames =>
      refine ⟨startedFrame id (st.numberAt 0) ep s.tb.time st.unauth, ?_, rfl, rfl, rfl, rfl, rfl, rfl⟩
      rw [← hsched]
      rfl
    case others => exact fun i hi => (port_modPort_ne _ _ hi).trans (port_congr hports i)
  case line =>
    intro s k vc dt index samples crcOk fixed f hruns hcur hdt hcount hindex
    have hexec := exec_sensorLine hruns hcur hdt hcount hindex samples crcOk fixed _ rfl
    obtain ⟨hkeptCount, hkeptConcealed, hkeptFrame, hkeptStamp⟩ := shaped_keeps f dt (headKind (s.here.port k).store) samples.length
    have hdepth := shaped_depth f dt (headKind (s.here.port k).store) samples.length
    generalize f.shaped dt (headKind (s.here.port k).store) samples.length = f' at *
    have hrest := lineCounted_rest s.here k crcOk fixed
    have hcrc := lineCounted_crc s.here k crcOk fixed
    have hhdr := lineCounted_hdr s.here k crcOk fixed
    generalize s.here.lineCounted k crcOk fixed = d at *
    have hgood : (crcOk && decide (s.here.fifoBytes k + lineBytes f'.depth (some samples) ≤ 45056)) = s.here.lineGood k f'.depth samples crcOk := rfl
    dsimp only
    rw [← hdepth, hgood]
    generalize s.here.lineGood k f'.depth samples crcOk = good at hexec
    obtain ⟨htaken, hnow, hfifo, hothers⟩ := lineTaken_spec d k crcOk vc f' index samples good
    obtain ⟨hcount', hconcealed, hframe, hstamp, hdepth'⟩ := received_spec f' (index := index) (by omega) good crcOk
    have hpipe : ∀ i, d.pipe i = s.here.pipe i := pipe_congr (by rw [hrest])
    have hport : ∀ i, d.port i = s.here.port i := port_congr (by rw [hrest])
    refine ⟨_, hexec, ?rest, ⟨_, hnow, hcount', ?concealed, hframe.trans hkeptFrame, hstamp.trans hkeptStamp, hdepth'⟩, ?fifo, hcrc, hhdr,
      fun i hi => ⟨(hothers i hi).1.trans (hpipe i), (hothers i hi).2.trans (hport i)⟩⟩
    case rest =>
      dsimp only
      rw [htaken, hrest]
    case concealed => rw [hconcealed, hkeptConcealed, hkeptCount]
    case fifo => rw [hfifo, hpipe, hframe, hkeptFrame, hkeptCount]
  case finish =>
    intro s k vc height f hruns hcur
    have hended := endSFrame_ended s.here k vc f (min 4096 height)
    have hexec := exec_frameEnd hruns hcur height
    generalize s.here.endSFrame k vc f (min 4096 height) = e at hended hexec
    obtain ⟨hport, hpipe, hcores, hidle⟩ := portIdle_spec e k
    have hstatus := hended.status (portRuns_lt hruns)
    refine ⟨_, hexec, rfl, ?gone, ⟨⟨f.finished (min 4096 height), ?ended, rfl, rfl, rfl, rfl⟩, ?fifo⟩, fun hlast hsvc => ?idle,
      hcores.trans hended.cores⟩
    case gone => rw [hport, hended.cur, mget_mdel_same]
    case ended => rw [hport, hended.ended]
    case fifo => rw [hpipe, hended.fifo]
    case idle =>
      have hflds : ∀ g : Fld, e.fld (R.SNS_STATUS k) g = s.here.fld (R.SNS_STATUS k) g := fun g => congrArg g.get hstatus
      have hpending : e.flag (R.SNS_STATUS k) F.SNS_STATUS_enable_pending = s.here.flag (R.SNS_STATUS k) F.SNS_STATUS_enable_pending := by
        rw [Dev.flag, hflds, Dev.flag]
      rw [← hpending]
      exact hidle ((hflds _).trans hsvc) (hended.cur.trans hlast)

end Sys2Proof.Machine
end

section
/-!
SUPPORT. States that meet the hypotheses of the statements on sensor frames, sensor commands, operating hours, wakes and sleep requests (O24, O25,
O35, O47).
-/

namespace Sys2Proof.Machine

/-! ### A sensor port -/

/-- A port in service whose virtual channel 0 feeds stream 0, with the frames it receives. -/
def sensorPort (cur : SMap SFrame) : Port := { vcs := [(0, 0)], cur := cur, store := [1], partHour := hour }

/-- Port 0 has an authenticated head and the service state given. -/
def sensorState (svc : Nat) (cur : SMap SFrame) : State :=
  { d := { regs := mput (mput resetRegs (R.SNS_STATUS 0) (BitVec.ofNat 32 (0x40 + svc))) R.HIF_LINK_STATUS 0x80,
           pwr := { phase := .ready, booted := true }, host := { cfg := { command := 4 } },
           que := { sqs := [(1, entrySq)], cqs := [(1, entryCq)] }, ports := [(0, sensorPort cur)],
           streams := [(0, { smallStream with kind := 1 })] } }

/-- The frame a port has begun to receive. -/
def begunSFrame : SFrame := startedSFrame 0 0 smallEpoch 0

theorem sensorState_starts : Answers (.frameStart 0 0) (sensorState 1 []) fun t =>
    (∃ g, mget (t.d.port 0).cur 0 = some g ∧ g.frame = 0) ∧ ∃ f, t.d.sched.frames = [f] ∧ f.st = .shaping := by
  obtain ⟨t, hexec, -, ⟨g, hcur, -, hnum, -⟩, -, ⟨f, hframes, -, -, hst, -⟩, -⟩ := sensorFrames.1 (sensorState 1 []) 0 0 0
    { smallStream with kind := 1 } smallEpoch (by decide) (by decide) (by decide) (by decide) (by decide) (by decide) rfl rfl rfl rfl
  exact ⟨t, hexec, ⟨g, hcur, hnum.trans (by decide)⟩, f, hframes, hst⟩

/-- Line 2 comes first: lines 0 and 1 are concealed. -/
theorem sensorState_line : Answers (.sensorLine 0 0 0 2 [7] true false) (sensorState 1 [(0, begunSFrame)]) fun t =>
    (∃ g, mget (t.d.port 0).cur 0 = some g ∧ g.count = 3 ∧ g.concealed = 2) ∧ (t.d.pipe 0).fifo = [(0, none), (0, none), (0, some [7])] := by
  obtain ⟨t, hexec, -, ⟨g, hcur, hcount, hconcealed, -⟩, hfifo, -⟩ := sensorFrames.2.1 (sensorState 1 [(0, begunSFrame)]) 0 0 0 2 [7] true false
    begunSFrame (by decide) rfl (by decide) (by decide) (by decide)
  exact ⟨t, hexec, ⟨g, hcur, hcount, hconcealed.trans (by decide)⟩, hfifo.trans (by decide)⟩

/-- The frame of a STOPPING port ends with its 3 lines concealed, and the port is OFF. -/
theorem sensorState_ends : Answers (.frameEnd 0 0 3) (sensorState 2 [(0, begunSFrame)]) fun t =>
    mget (t.d.port 0).cur 0 = none ∧ (t.d.pipe 0).fifo.length = 3 ∧ t.d.fld (R.SNS_STATUS 0) F.SNS_STATUS_svc = 0 := by
  obtain ⟨t, hexec, -, hcur, ⟨-, hfifo⟩, hidle, -⟩ := sensorFrames.2.2 (sensorState 2 [(0, begunSFrame)]) 0 0 3 begunSFrame (by decide) rfl
  exact ⟨t, hexec, hcur, (congrArg List.length hfifo).trans (by decide), (hidle (by decide) (by decide)).1.trans (by decide)⟩

/-- A port that receives a frame is STOPPING when it is disabled. -/
theorem sensorState_stops : Answers (.snsCtlWrite 0 0) (sensorState 1 [(0, begunSFrame)]) fun t =>
    t.d.fld (R.SNS_STATUS 0) F.SNS_STATUS_svc = 2 := by
  obtain ⟨t, hexec, -, -, ⟨-, -, -, hstop, -⟩, -⟩ := sensorService.1 (sensorState 1 [(0, begunSFrame)]) 0 0 (by decide) (by decide)
  exact ⟨t, hexec, hstop rfl (by decide) (by decide)⟩

/-- A full hour is written to the head; none of it is left over. -/
theorem sensorState_hour : Answers (.headHour 0 true true) (sensorState 1 []) fun t => (t.d.port 0).partHour = 0 := by
  obtain ⟨t, hexec, -, ⟨hpart, -⟩, -⟩ := sensorService.2 (sensorState 1 []) 0 true true (by decide) (by decide) (by decide)
  exact ⟨t, hexec, hpart.trans (by decide)⟩

/-! ### Sensor commands -/

/-- A command of length 4 on port 0, virtual channel or address 0. -/
def sensorEntry (op : Byte) : List Byte := op :: zeros 3 ++ 4 :: zeros 59

theorem sensorState_accepts {op : Byte} (h : op = 0x25 ∨ op = 0x26) :
    (sensorState 1 []).here.accepts op.toNat 1 (sensorEntry op) entrySq entryCq := by
  obtain rfl | rfl := h
  all_goals exact ⟨by decide, rfl, rfl, by decide, by decide, by simp [sensorState, State.here], by decide⟩

/-- The head of a port's only channel is gone. -/
theorem sensorState_detaches : Answers (.detachSensor 1 (sensorEntry 0x25)) (sensorState 1 []) fun t =>
    (t.d.port 0).vcs = [] ∧ (t.d.port 0).store = [] := by
  obtain ⟨t, hexec, -, -, hvcs, -, hgone, -⟩ := (sensorCommands.2.1 (sensorState 1 []) 1 (sensorEntry 0x25) entrySq entryCq
    (sensorState_accepts (.inl rfl))).2 (by decide) (by decide)
  exact ⟨t, hexec, hvcs.trans (by decide), (hgone (by decide)).1⟩

/-- Three of the four bytes have gone to the head. -/
theorem sensorState_transfers : Answers (.sensorXfer 1 (sensorEntry 0x26) [1, 2, 3] 3) (sensorState 1 []) fun t =>
    ∃ more, t.d.host.sent = .i3c 0 0 [1, 2, 3] :: more := by
  obtain ⟨t, hexec, -, -, hsent⟩ := sensorCommands.2.2 (sensorState 1 []) 1 3 (sensorEntry 0x26) [1, 2, 3] entrySq entryCq
    (sensorState_accepts (.inr rfl)) (by decide) (by decide) (by decide) (by decide) (.inr (by decide))
  exact ⟨t, hexec, hsent⟩

/-! ### Sleep and wake -/

/-- A device in the phase given, with WAKE_N enabled and AUTO_NIGHT after 1 ms. -/
def phaseState (p : Phase) : State :=
  { d := { regs := mput (mput resetRegs R.CPR_WAKE_EN 2) R.CPR_PWR_CTL 0x10C, pwr := { phase := p }, host := { cfgLoaded := true } } }

theorem phaseState_wakes : Answers .wakeN (phaseState .night) fun t =>
    t.d.pwr.phase = .dawn ∧ t.d.fld R.CPR_PWR_STATUS F.CPR_PWR_STATUS_wakes = 1 ∧ t.d.fld R.CPR_PWR_CTL F.CPR_PWR_CTL_target = 2 := by
  obtain ⟨t, hexec, -, ⟨-, -, -, -, -, hdawn⟩, -⟩ := sleepAndWake.1 (phaseState .night) .wakeN 0 1 (.inl ⟨rfl, rfl, rfl, by decide⟩)
  obtain ⟨hphase, -, -, -, hwakes, htarget⟩ := hdawn rfl rfl rfl
  exact ⟨t, hexec, hphase, hwakes.trans (by decide), (htarget nofun).trans (by decide)⟩

theorem phaseState_sleeps : Answers .powerstateD3hot (phaseState .ready) fun t => t.d.pwr.phase = .dusk := by
  obtain ⟨t, hexec, -, ⟨hdusk, -⟩, -⟩ := sleepAndWake.2.1 (phaseState .ready) rfl
  exact ⟨t, hexec, (hdusk (.inl rfl)).1⟩

/-- Dawn has been idle for 1 ms. -/
theorem phaseState_idles : Answers .autoNightIdle (phaseState .dawn) fun t => t.tb.time = 100000 ∧ t.d.pwr.phase = .dusk := by
  obtain ⟨t, hexec, honly, ⟨hdusk, -⟩, -⟩ := sleepAndWake.2.2.1 (phaseState .dawn) rfl (by decide) (by decide) (by simp [phaseState])
  have htime : t.tb.time = max 0 (0 + ms (max 1 ((phaseState .dawn).d.fld R.CPR_PWR_CTL F.CPR_PWR_CTL_idle_ms))) := congrArg (·.tb.time) honly
  exact ⟨t, hexec, htime.trans (by decide), (hdusk (.inr ⟨rfl, by decide⟩)).1⟩

/-- A write of target 2 takes Dawn to Day. -/
theorem phaseState_days : Answers (.cprPwrCtlWrite 2) (phaseState .dawn) fun t => t.d.pwr.phase = .ready := by
  obtain ⟨t, hexec, -, -, -, -, -, -, -, hday, -⟩ := sleepAndWake.2.2.2 (phaseState .dawn) 2
  exact ⟨t, hexec, (hday (by decide) rfl (by decide)).1⟩

end Sys2Proof.Machine
end
